-- ==== Sys2Proof/Word.lean ====
section
/-! DEFINITION. The word types of the FLN-9600 (00_scope.md R1) and the plainest arithmetic on them. -/
namespace Sys2Proof

/-- One byte of memory (R1: memory is byte-addressed). -/
abbrev Byte := BitVec 8

/-- The 32-bit element of a vector register, a scalar register, a mask or an instruction word. -/
abbrev Word := BitVec 32

/-- A register pair, a program counter or a generic address. -/
abbrev DWord := BitVec 64

/-- A 32-bit word of a natural number, taken modulo 2^32. -/
abbrev word (n : Nat) : Word := BitVec.ofNat 32 n

/-- A 64-bit word of a natural number, taken modulo 2^64. -/
abbrev dword (n : Nat) : DWord := BitVec.ofNat 64 n

end Sys2Proof
end

