-- ==== Sys2Proof/Syntax.lean ====
section
/-! DEFINITION. Syntax of the machine's moves: one constructor per row of spec/opcode_table.json. The
rows SMOV to SNAPQ are instruction words (03 R66 to R71); the rows CLAUSE_START to KEY_INSTALL are the
part's other steps (95), which no word encodes. -/
namespace Sys2Proof

/-- A scalar-operand field (R68). A literal operand carries its literal word (R70). -/
inductive SOp where
  /-- Codes 0x00 to 0x9F: s0 to s159. -/
  | reg (n : Nat)
  /-- Codes 0xA0 to 0xEF: the integer constants -16 to 63. -/
  | const (c : Int)
  /-- Codes 0xF0 to 0xF7: +0.5, -0.5, +1, -1, +2, -2, +4, -4. -/
  | fconst (k : Nat)
  /-- Code 0xFE: the executing lane's index. -/
  | laneid
  /-- Code 0xFF: a literal word. -/
  | lit (w : Word)
  deriving DecidableEq, Repr

/-- The address form of LD, ST, PREF, LDRSV, STCND, ATOM and RED (R187). -/
inductive AddrForm where
  /-- `[sA:sA+1 + vB]` -/
  | base (a b : Nat)
  /-- `[vB:vB+1]` -/
  | vec (b : Nat)
  deriving DecidableEq, Repr

/-- The extension word of ATOM, ATOMS and RED (R235). -/
structure Ext where
  v : Nat
  c : Nat
  op : Nat
  ord : Nat
  scope : Nat
  deriving DecidableEq, Repr

/-- A reply to a remote request (R334, R335): the bytes (for a load, the 256-byte block of its lanes), the lanes that read
poison, an error cause plus one (0: no error), the parity of its sender's epoch (R402), and the chip and plane it came
from. -/
structure Reply where
  bytes : List Byte
  poison : Nat
  err : Nat
  parity : Nat
  chip : Nat := 0
  plane : Nat := 0
  deriving DecidableEq, Repr

/-- A request of another chip (R334): kind 0 load, 1 store, 2 atomic, 3 RED, 4 engine read, 5 engine write, 6 put (R465
first part); chip-local address; operation code, TYPE and operands of an atomic; the sender's chip, plane and epoch parity;
`tag` names it for the reply. For a read, `v` is the number of bytes; for a put, `op` is the buffer, `ty` the context, `v`
the token and `c` the expert. -/
structure RemoteReq where
  kind : Nat
  pa : Nat
  bytes : List Byte
  op : Nat
  ty : Nat
  v : Nat
  c : Nat
  chip : Nat
  plane : Nat
  parity : Nat
  tag : Nat
  deriving DecidableEq, Repr

/-- A page migration request (R207): source and destination frames, page size in bytes, for a move the
leaf's physical address (0: none) and the contexts that use it. -/
structure Migration where
  src : Nat
  dst : Nat
  size : Nat
  leaf : Nat
  ctxs : List Nat
  deriving DecidableEq, Repr

/-- A collective chunk arriving at a port sequencer (R346, R352): context, tag and sequence of the
collective, block, unit, pass (0 reduction, 1 distribution), values and the bytes of each, poison, the parity of its
sender's epoch (R402), and the retries of its unit so far (R350). -/
structure Chunk where
  ctx : Nat
  tag : Nat
  seq : Nat
  blk : Nat
  unit : Nat
  pass : Nat
  vals : List Nat
  size : Nat
  poison : Bool
  parity : Nat
  tries : Nat := 0
  deriving DecidableEq, Repr

/-- Where a packet came from: the chip, the plane, and the parity of its sender's epoch (R402). -/
structure Via where
  chip : Nat
  plane : Nat
  parity : Nat
  deriving DecidableEq, Repr

/-- What an abort of a collective names (R350): the chip that detected the failure and sent it, the unit and its block; its
plane, and its parity (R402). -/
structure AbortAt where
  chip : Nat
  unit : Nat
  blk : Nat
  plane : Nat := 0
  parity : Nat := 0
  deriving DecidableEq, Repr

/-- The pass that a retry request restarts, the retries of its unit with this one, and the packet that brought it (R350). -/
structure RetryAt where
  pass : Nat
  tries : Nat
  via : Via
  deriving DecidableEq, Repr

/-- The request whose place a cancel frees, and the packet that brought it (R465). -/
structure CancelOf where
  id : Nat
  via : Via
  deriving DecidableEq, Repr

/-- A Vilvon image (R422, R426): its security version and the SHAKE256 digest of its body. -/
structure BootImage where
  version : Nat
  digest : Nat
  deriving DecidableEq, Repr

/-- The moves of the machine: every row of the opcode table. -/
inductive Instr where
  /-- R102: Copies scalar operand a into s[D]. -/
  | smov (d : Nat) (a : SOp)
  /-- R102: Writes (a + b) mod 2^32 to s[D]. -/
  | sadd (d : Nat) (a b : SOp)
  /-- R102: Writes (a - b) mod 2^32 to s[D]. -/
  | ssub (d : Nat) (a b : SOp)
  /-- R102: Writes the low 32 bits of the unsigned product to s[D]. -/
  | smul (d : Nat) (a b : SOp)
  /-- R102: Writes the high 32 bits of the unsigned product to s[D]. -/
  | smulh (d : Nat) (a b : SOp)
  /-- R102: Writes the bitwise AND of a and b to s[D]. -/
  | sand (d : Nat) (a b : SOp)
  /-- R102: Writes the bitwise OR of a and b to s[D]. -/
  | sor (d : Nat) (a b : SOp)
  /-- R102: Writes the bitwise XOR of a and b to s[D]. -/
  | sxor (d : Nat) (a b : SOp)
  /-- R102: Shifts a left by ub bits, giving 0 when ub >= 32. -/
  | sshl (d : Nat) (a b : SOp)
  /-- R102: Shifts a right logically by ub bits, giving 0 when ub >= 32. -/
  | sshr (d : Nat) (a b : SOp)
  /-- R102: Shifts a right arithmetically by min(ub, 31) bits. -/
  | ssar (d : Nat) (a b : SOp)
  /-- R102: Writes the signed minimum of a and b to s[D]. -/
  | smin (d : Nat) (a b : SOp)
  /-- R102: Writes the signed maximum of a and b to s[D]. -/
  | smax (d : Nat) (a b : SOp)
  /-- R104: Writes the five relation bits of a and b to s[D]. -/
  | scmp (d : Nat) (a b : SOp)
  /-- R104: Writes a to s[D] if s[D] is nonzero, and b otherwise. -/
  | ssel (d : Nat) (a b : SOp)
  /-- R103: Extracts the bit field of a that b describes, sign- or zero-extended. -/
  | sbfe (d : Nat) (a b : SOp)
  /-- R103: Inserts the low bits of a into the field of s[D] that b describes. -/
  | sbfi (d : Nat) (a b : SOp)
  /-- R102: Writes the number of set bits of a to s[D]. -/
  | spopc (d : Nat) (a : SOp)
  /-- R102: Writes the number of leading zero bits of a to s[D]. -/
  | sclz (d : Nat) (a : SOp)
  /-- R105: Adds a sign-extended b to a 64-bit scalar pair. -/
  | saddp (d a : Nat) (b : SOp)
  /-- R106: Loads one 32-bit word at a generic address into s[D], bound to SETA. -/
  | sld (d a : Nat) (b : SOp)
  /-- R106: Stores s[D] to a 32-bit word through the store queue. -/
  | sst (d a : Nat) (b : SOp)
  /-- R106: Loads a global word into s[D] through the port's constant cache. -/
  | ldc (d a : Nat) (b : SOp)
  /-- R107: Writes the identity value that the selector names to s[D]. -/
  | getid (d sel : Nat)
  /-- R111: Transfers control unconditionally by a 24-bit signed clause offset. -/
  | bra (o : Nat)
  /-- R112: Transfers control when scalar a is zero (.z) or nonzero (.nz). -/
  | brc (nz : Bool) (a b : SOp)
  /-- R113: Transfers control when the mask over the issuing live lanes is zero. -/
  | brzm (m : Nat) (b : SOp)
  /-- R113: Transfers control when the mask over the issuing live lanes is nonzero. -/
  | brnzm (m : Nat) (b : SOp)
  /-- R114: Transfers control to a register pair plus an offset. -/
  | jmp (a : Nat) (b : SOp)
  /-- R114: Writes the link into a pair and transfers control to a relative target. -/
  | call (d : Nat) (b : SOp)
  /-- R114: Transfers control to the address held in a pair, marked as a return. -/
  | ret (a : Nat)
  /-- R117: Ends the active lanes by clearing their m14 and m0 bits. -/
  | exit
  /-- R118: Occupies one issue slot with no effect. -/
  | nop
  /-- R81: Replaces the slice's mode for the rest of the clause. -/
  | mode (mode : Nat)
  /-- R119: Gives every slice that holds a live lane its own program counter. -/
  | part
  /-- R120: Makes a parted slice wait at this word until the gang can form. -/
  | regang
  /-- R122: Parks the ganged warp with cause 0x05, or marks a parted slice as yielded. -/
  | yield
  /-- R123: Waits until a shared word differs from b (.ne) or equals b (.eq). -/
  | waitw (eq : Bool) (a b : SOp)
  /-- R124: Creates every non-lead warp of the block that does not exist. -/
  | fork
  /-- R125: Arrives at the block-wide rendezvous, which may re-fork warps, and waits. -/
  | rend (refork : Bool)
  /-- R108: Writes the AND of two masks to a mask. -/
  | mand (d a b : Nat)
  /-- R108: Writes the OR of two masks to a mask. -/
  | mor (d a b : Nat)
  /-- R108: Writes the XOR of two masks to a mask. -/
  | mxor (d a b : Nat)
  /-- R108: Writes m[A] AND NOT m[B] to a mask. -/
  | mandn (d a b : Nat)
  /-- R108: Writes the complement of a mask to a mask. -/
  | mnot (d a : Nat)
  /-- R108: Copies one mask into another. -/
  | mmov (d a : Nat)
  /-- R108: Writes the number of set bits of a mask to s[D]. -/
  | mpopc (d a : Nat)
  /-- R108: Writes the index of the lowest set bit of a mask, or 32 if none, to s[D]. -/
  | mffs (d a : Nat)
  /-- R108: Writes scalar operand a to a mask. -/
  | mset (d : Nat) (a : SOp)
  /-- R108: Copies a mask into s[D]. -/
  | mget (d a : Nat)
  /-- R134: Adds two vector registers per lane. -/
  | addVv (d a b : Nat)
  /-- R134: Adds a scalar operand to a vector register per lane. -/
  | addVs (d a : Nat) (b : SOp)
  /-- R136: Adds two vector registers with the m13 carry in and carry out. -/
  | addcVv (d a b : Nat)
  /-- R136: Adds a scalar operand with the m13 carry in and carry out. -/
  | addcVs (d a : Nat) (b : SOp)
  /-- R134: Subtracts vector registers per lane. -/
  | subVv (d a b : Nat)
  /-- R134: Subtracts a scalar operand per lane. -/
  | subVs (d a : Nat) (b : SOp)
  /-- R136: Subtracts two vector registers with the m13 borrow in and borrow out. -/
  | subbVv (d a b : Nat)
  /-- R136: Subtracts a scalar operand with the m13 borrow in and borrow out. -/
  | subbVs (d a : Nat) (b : SOp)
  /-- R134: Multiplies two vector registers per lane. -/
  | mulVv (d a b : Nat)
  /-- R134: Multiplies a vector register by a scalar operand per lane. -/
  | mulVs (d a : Nat) (b : SOp)
  /-- R134: Writes the high half of the product of two vector registers. -/
  | mulhVv (d a b : Nat)
  /-- R134: Writes the high half of the product of a vector register and a scalar operand. -/
  | mulhVs (d a : Nat) (b : SOp)
  /-- R134: Computes a × b + d per lane from vector registers. -/
  | madVv (d a b : Nat)
  /-- R134: Computes a × b + d per lane with a scalar b. -/
  | madVs (d a : Nat) (b : SOp)
  /-- R135: Writes |a - b| of two vector registers per lane. -/
  | absdVv (d a b : Nat)
  /-- R135: Writes |a - b| per lane with a scalar b. -/
  | absdVs (d a : Nat) (b : SOp)
  /-- R134: Writes the lesser of two vector registers per lane. -/
  | minVv (d a b : Nat)
  /-- R134: Writes the lesser of a vector register and a scalar operand per lane. -/
  | minVs (d a : Nat) (b : SOp)
  /-- R134: Writes the greater of two vector registers per lane. -/
  | maxVv (d a b : Nat)
  /-- R134: Writes the greater of a vector register and a scalar operand per lane. -/
  | maxVs (d a : Nat) (b : SOp)
  /-- R134: Writes the bitwise AND of two vector registers per lane. -/
  | andVv (d a b : Nat)
  /-- R134: Writes the bitwise AND with a scalar operand per lane. -/
  | andVs (d a : Nat) (b : SOp)
  /-- R134: Writes the bitwise OR of two vector registers per lane. -/
  | orVv (d a b : Nat)
  /-- R134: Writes the bitwise OR with a scalar operand per lane. -/
  | orVs (d a : Nat) (b : SOp)
  /-- R134: Writes the bitwise XOR of two vector registers per lane. -/
  | xorVv (d a b : Nat)
  /-- R134: Writes the bitwise XOR with a scalar operand per lane. -/
  | xorVs (d a : Nat) (b : SOp)
  /-- R137: Shifts left by per-lane counts from a vector register. -/
  | shlVv (d a b : Nat)
  /-- R137: Shifts left by a scalar count. -/
  | shlVs (d a : Nat) (b : SOp)
  /-- R137: Shifts right logically by per-lane counts from a vector register. -/
  | shrVv (d a b : Nat)
  /-- R137: Shifts right logically by a scalar count. -/
  | shrVs (d a : Nat) (b : SOp)
  /-- R137: Shifts right arithmetically by per-lane counts from a vector register. -/
  | sarVv (d a b : Nat)
  /-- R137: Shifts right arithmetically by a scalar count. -/
  | sarVs (d a : Nat) (b : SOp)
  /-- R138: Extracts a bit field per lane, with the field taken from a vector register. -/
  | bfeVv (d a b : Nat)
  /-- R138: Extracts a bit field per lane, with the field taken from a scalar operand. -/
  | bfeVs (d a : Nat) (b : SOp)
  /-- R138: Inserts a bit field per lane, with the field taken from a vector register. -/
  | bfiVv (d a b : Nat)
  /-- R138: Inserts a bit field per lane, with the field taken from a scalar operand. -/
  | bfiVs (d a : Nat) (b : SOp)
  /-- R139: Counts the set bits of a vector register per lane. -/
  | popcVv (d a : Nat)
  /-- R139: Counts the set bits of a scalar operand. -/
  | popcVs (d : Nat) (b : SOp)
  /-- R139: Counts the leading zero bits of a vector register per lane. -/
  | clzVv (d a : Nat)
  /-- R139: Counts the leading zero bits of a scalar operand. -/
  | clzVs (d : Nat) (b : SOp)
  /-- R139: Reverses the bits of a vector register per lane. -/
  | brevVv (d a : Nat)
  /-- R139: Reverses the bits of a scalar operand. -/
  | brevVs (d : Nat) (b : SOp)
  /-- R140: Permutes the bytes of b:a under the selector held in the old v[D]. -/
  | prmtVv (d a b : Nat)
  /-- R140: Permutes bytes with a scalar b. -/
  | prmtVs (d a : Nat) (b : SOp)
  /-- R141: Selects a or b per lane on the old v[D]. -/
  | selVv (d a b : Nat)
  /-- R141: Selects a or a scalar b per lane on the old v[D]. -/
  | selVs (d a : Nat) (b : SOp)
  /-- R141: Writes integer relation bits of two vector registers. -/
  | cmpVv (d a b : Nat)
  /-- R141: Writes integer relation bits against a scalar operand. -/
  | cmpVs (d a : Nat) (b : SOp)
  /-- R142: Converts integers to the per-lane destination type held in v[B]. -/
  | cvtiVv (d a b : Nat)
  /-- R142: Converts integers to a scalar-given destination type. -/
  | cvtiVs (d a : Nat) (b : SOp)
  /-- R139: Copies a vector register. -/
  | movVv (d a : Nat)
  /-- R139: Writes a decoded scalar operand to every active lane. -/
  | movVs (d : Nat) (b : SOp)
  /-- R134: Accumulates the packed dot product of two vector registers into i32. -/
  | dp4Vv (d a b : Nat)
  /-- R134: Accumulates the packed dot product with a scalar operand into i32. -/
  | dp4Vs (d a : Nat) (b : SOp)
  /-- R161: Floating-point add of two vector registers, rounded once. -/
  | faddVv (d a b : Nat)
  /-- R161: Floating-point add of a float scalar operand. -/
  | faddVs (d a : Nat) (b : SOp)
  /-- R161: Floating-point subtract of two vector registers. -/
  | fsubVv (d a b : Nat)
  /-- R161: Floating-point subtract of a float scalar operand. -/
  | fsubVs (d a : Nat) (b : SOp)
  /-- R161: Floating-point multiply of two vector registers. -/
  | fmulVv (d a b : Nat)
  /-- R161: Floating-point multiply by a float scalar operand. -/
  | fmulVs (d a : Nat) (b : SOp)
  /-- R161: Fused multiply-add a × b + d, rounded once. -/
  | ffmaVv (d a b : Nat)
  /-- R161: Fused multiply-add with a float scalar b. -/
  | ffmaVs (d a : Nat) (b : SOp)
  /-- R162: Floating-point minimum that propagates NaN. -/
  | fminVv (d a b : Nat)
  /-- R162: Floating-point minimum with a float scalar operand. -/
  | fminVs (d a : Nat) (b : SOp)
  /-- R162: Floating-point maximum that propagates NaN. -/
  | fmaxVv (d a b : Nat)
  /-- R162: Floating-point maximum with a float scalar operand. -/
  | fmaxVs (d a : Nat) (b : SOp)
  /-- R162: minimumNumber of two vector registers. -/
  | fminnmVv (d a b : Nat)
  /-- R162: minimumNumber with a float scalar operand. -/
  | fminnmVs (d a : Nat) (b : SOp)
  /-- R162: maximumNumber of two vector registers. -/
  | fmaxnmVv (d a b : Nat)
  /-- R162: maximumNumber with a float scalar operand. -/
  | fmaxnmVs (d a : Nat) (b : SOp)
  /-- R163: Writes floating-point relation bits, including unordered. -/
  | fcmpVv (d a b : Nat)
  /-- R163: Writes floating-point relation bits against a float scalar operand. -/
  | fcmpVs (d a : Nat) (b : SOp)
  /-- R164: Writes the operand's one-hot class ANDed with a per-lane selector. -/
  | fclassVv (d a b : Nat)
  /-- R164: Writes the operand's one-hot class ANDed with a scalar selector. -/
  | fclassVs (d a : Nat) (b : SOp)
  /-- R165: Computes a × 2^n with one rounding, n per lane. -/
  | fscaleVv (d a b : Nat)
  /-- R165: Computes a × 2^n with a scalar n. -/
  | fscaleVs (d a : Nat) (b : SOp)
  /-- R166: Writes floor(log2|a|) of a vector register as an integer. -/
  | fgetxVv (d a : Nat)
  /-- R166: Writes the exponent of a float scalar operand. -/
  | fgetxVs (d : Nat) (b : SOp)
  /-- R166: Rounds a vector register to an integer value by RND. -/
  | frndVv (d a : Nat)
  /-- R166: Rounds a float scalar operand to an integer value by RND. -/
  | frndVs (d : Nat) (b : SOp)
  /-- R167: Narrows floats to an integer type given per lane. -/
  | ftoiVv (d a b : Nat)
  /-- R167: Narrows floats to a scalar-given integer type. -/
  | ftoiVs (d a : Nat) (b : SOp)
  /-- R167: Converts integers to a float type given per lane. -/
  | itofVv (d a b : Nat)
  /-- R167: Converts integers to a scalar-given float type. -/
  | itofVs (d a : Nat) (b : SOp)
  /-- R167: Converts between float formats, with the target type given per lane. -/
  | fcvtVv (d a b : Nat)
  /-- R167: Converts between float formats, with a scalar-given target type. -/
  | fcvtVs (d a : Nat) (b : SOp)
  /-- R168: Narrows two f32 values and packs them into v[D]. -/
  | fpackVv (d a b : Nat)
  /-- R168: Narrows an f32 value and a float scalar and packs them into v[D]. -/
  | fpackVs (d a : Nat) (b : SOp)
  /-- R169: Widens the packed element chosen per lane to f32 exactly. -/
  | funpackVv (d a b : Nat)
  /-- R169: Widens the packed element chosen by a scalar to f32 exactly. -/
  | funpackVs (d a : Nat) (b : SOp)
  /-- R170: Accumulates a two-element 16-bit dot product into f32 with one rounding. -/
  | fdot2Vv (d a b : Nat)
  /-- R170: Accumulates a two-element dot product with a float scalar into f32. -/
  | fdot2Vs (d a : Nat) (b : SOp)
  /-- R171: Special-function reciprocal, f32, bound to SETA. -/
  | rcp (d a : Nat)
  /-- R171: Special-function reciprocal square root, f32. -/
  | rsq (d a : Nat)
  /-- R171: Special-function square root, f32. -/
  | sqrt (d a : Nat)
  /-- R171: Special-function 2^x, f32. -/
  | exp2 (d a : Nat)
  /-- R171: Special-function log2 x, f32. -/
  | log2 (d a : Nat)
  /-- R171: Special-function sin(pi x), f32. -/
  | sinpi (d a : Nat)
  /-- R171: Special-function cos(pi x), f32. -/
  | cospi (d a : Nat)
  /-- R171: Special-function tanh x, f32. -/
  | tanh (d a : Nat)
  /-- R145: Reads each lane's source lane as given in a vector register. -/
  | shfl (d a b : Nat)
  /-- R145: Reads the lane delta below within each segment. -/
  | shflup (d a : Nat) (b : SOp)
  /-- R145: Reads the lane delta above within each segment. -/
  | shfldn (d a : Nat) (b : SOp)
  /-- R145: Reads lane i xor b. -/
  | shflx (d a : Nat) (b : SOp)
  /-- R146: Writes the any, all or eq vote of a mask over the active lanes to s[D]. -/
  | vote (d a kind : Nat)
  /-- R147: Sets the mask bit of each active lane whose register ANDed with b is nonzero. -/
  | ballot (d a : Nat) (b : SOp)
  /-- R148: Reduces the active lanes along a fixed tree and broadcasts the result. -/
  | redlane (d a op : Nat)
  /-- R149: Sends a vector register to a partner warp of the cluster group and awaits the pairing. -/
  | xswap (d a : Nat) (b : SOp)
  /-- R189: Loads each active lane from its address into v[D], bound to SETA. -/
  | ld (d : Nat) (f : AddrForm)
  /-- R189: Stores each active lane of v[D] to its address. -/
  | st (d : Nat) (f : AddrForm)
  /-- R189: Loads from the block's own shared memory. -/
  | lds (d a : Nat) (b : SOp)
  /-- R189: Stores to the block's own shared memory. -/
  | sts (d a : Nat) (b : SOp)
  /-- R193: Prefetches lines into the L1, into the home slice, or into the L1 with ownership. -/
  | pref (lvl : Nat) (f : AddrForm)
  /-- R242: Loads and sets each issuing slice's reservation on a granule. -/
  | ldrsv (d : Nat) (f : AddrForm)
  /-- R243: Stores the slice's lanes only if the reservation holds, and writes a status per lane. -/
  | stcnd (d : Nat) (f : AddrForm)
  /-- R194: Invalidates the constant caches of the core's three ports. -/
  | cctlCinv
  /-- R194: Writes back and drops the L1 lines that overlap a range. -/
  | cctlEvl1 (a : Nat) (b : SOp)
  /-- R194: Writes back the dirty slice lines of a range, keeping them valid. -/
  | cctlWbl2 (a : Nat) (b : SOp)
  /-- R194: Writes back and drops the whole L1 of the core. -/
  | cctlEvl1all
  /-- R195: Invalidates the instruction caches of both dies over a range. -/
  | icinv (a : Nat) (b : SOp)
  /-- R238: Per-lane atomic read-modify-write that returns the old value, with an extension word. -/
  | atom (d : Nat) (f : AddrForm) (x : Ext)
  /-- R238: Scalar atomic read-modify-write performed once for the issuing slices. -/
  | atoms (d a : Nat) (b : SOp) (x : Ext)
  /-- R238: Per-lane atomic reduction with no returned value. -/
  | red (f : AddrForm) (x : Ext)
  /-- R247: Arrives on a barrier word and waits for its phase to change. -/
  | bar (a : SOp)
  /-- R247: Arrives on a barrier word without waiting. -/
  | bara (a : SOp)
  /-- R251: Initialises an asynchronous barrier with an expected count. -/
  | abinit (a b : SOp)
  /-- R251: Arrives on an asynchronous barrier with a count and returns the phase token. -/
  | abarr (d : Nat) (a b : SOp)
  /-- R251: Waits until an asynchronous barrier's phase differs from the token. -/
  | abwait (a b : SOp)
  /-- R253: Orders the warp's accesses with the given flavour and scope. -/
  | fence (ord scope : Nat)
  /-- R254: Waits until an outstanding counter is at most n. -/
  | waitc (cls n : Nat)
  /-- R276: Initialises a skip queue header with a capacity and an epoch. -/
  | qinit (e : Nat) (a b : SOp)
  /-- R278: Waits for room and pushes a handle onto a skip queue. -/
  | qpush (a b : SOp)
  /-- R278: Waits for a handle and pops it into s[D]. -/
  | qpop (d : Nat) (a : SOp)
  /-- R279: Pushes only if there is room and no push waits, and writes a status. -/
  | qtrypush (d : Nat) (a b : SOp)
  /-- R279: Pops only if a handle is present and no pop waits, and writes the handle and a status. -/
  | qtrypop (d : Nat) (a : SOp)
  /-- R272: Resolves a guard slot true or false. -/
  | gset (n : Nat) (b : SOp)
  /-- R272: Sets a guard slot to unresolved. -/
  | gclr (n : Nat)
  /-- R267: Copy command: copies a region into shared memory or a register window. -/
  | cpld (kslot : Nat) (gen pen : Bool) (a : Nat) (b : SOp)
  /-- R267: Copy command: copies shared memory or a window out to local global memory. -/
  | cpst (kslot : Nat) (gen pen : Bool) (a : Nat) (b : SOp)
  /-- R281: Copy command: multicast read delivered to each rank in CMASK. -/
  | cpmc (kslot : Nat) (gen pen : Bool) (a : Nat) (b : SOp)
  /-- R267: Copy command: gathers indexed rows into own shared memory. -/
  | cpga (kslot : Nat) (gen pen : Bool) (a : Nat) (b : SOp)
  /-- R267: Copy command: scatters rows from shared memory to indexed global rows. -/
  | cpsc (kslot : Nat) (gen pen : Bool) (a : Nat) (b : SOp)
  /-- R267: Copy command: fills a region with a pattern. -/
  | cpfl (kslot : Nat) (gen pen : Bool) (a : Nat) (b : SOp)
  /-- R267: Copy command: copy whose sides may lie on other chips. -/
  | cprm (kslot : Nat) (gen pen : Bool) (a : Nat) (b : SOp)
  /-- R267: Copy command: brings a region into its home slices. -/
  | cppf (kslot : Nat) (gen pen : Bool) (a : Nat) (b : SOp)
  /-- R291: Matrix multiply-accumulate of A and B fragments into an acc tile. -/
  | mma (bt : Nat) (za : Bool) (tile a b : Nat)
  /-- R291: MX-scaled matrix multiply-accumulate into an acc tile. -/
  | mmax (bt : Nat) (za : Bool) (tile a b : Nat)
  /-- R297: Pushes a handle once every earlier operation on the tile has completed. -/
  | mrel (tile : Nat) (a h : SOp)
  /-- R301: Loads a scaled, narrowed window of an acc tile into vector registers. -/
  | tld (d a : Nat) (b : SOp)
  /-- R302: Stores or adds scaled vector values into an acc tile window. -/
  | tst (d a : Nat) (b : SOp)
  /-- R302: Writes +0 to every element of an acc tile and clears its poison. -/
  | tzero (tile : Nat)
  /-- R309: Opens a span and grants idle slices as helpers to the foreman lane. -/
  | recruit (d a md ask : Nat) (rk : Bool)
  /-- R315: Hands out the next iteration of a held stream and checkpoints its partial. -/
  | hidx (d m : Nat)
  /-- R313: Reads a view register of the foreman lane. -/
  | hrd (d n : Nat)
  /-- R316: Adds each active lane's value into its current stream's partial. -/
  | hred (a : Nat)
  /-- R317: Ends the helper and returns its slice. -/
  | hend
  /-- R321: Waits for the crew, then combines the partials in stream order or reports iterations left. -/
  | hjoin (d e : Nat)
  /-- R320: Requests the release of every helper of the span. -/
  | dismiss
  /-- R345: Arrives at a collective; the last arrival of the block fires it. -/
  | coll (form : Nat) (tsrc op : Bool) (tile a : Nat)
  /-- R353: Writes a relaxed collective status value to s[D]. -/
  | collq (d : Nat) (a : SOp)
  /-- R362: Configures a combine buffer owned by the block. -/
  | cmbcfg (d a : Nat) (b : SOp)
  /-- R364: Dispatches tokens with their experts and weights to home slices. -/
  | cmbdisp (t x : Nat) (b : SOp)
  /-- R364: Puts expert rows into a combine buffer on any chip. -/
  | cmbput (t v : Nat) (b : SOp)
  /-- R370: Waits until every token in a range is released. -/
  | cmbwait (n : Nat) (a b : SOp)
  /-- R370: Writes a combine buffer count to s[D]. -/
  | cmbq (d : Nat) (a b : SOp)
  /-- R372: Drains and frees a combine buffer and returns the count of discarded tokens. -/
  | cmbdrain (d : Nat) (b : SOp)
  /-- R393: Raises software-trap with an AUX number. -/
  | trap (b : SOp)
  /-- R393: Raises breakpoint with an AUX number. -/
  | brk (b : SOp)
  /-- R376: Reads a system register into s[D]. -/
  | srd (d num : Nat)
  /-- R376: Writes a system register. -/
  | swr (num : Nat) (a : SOp)
  /-- R392: Returns from the supervisor handler to TRET, parking first under escalation. -/
  | sret
  /-- R202: Removes TLB and walker-cache entries of a page, a context or all contexts. -/
  | tlbinv (a : Nat) (b : SOp)
  /-- R203: Atomically writes a page-table entry unless a valid entry would replace a valid one. -/
  | ptwr (a b : Nat)
  /-- R385: Appends a launch record to a region's launch queue. -/
  | launch (d a b : Nat)
  /-- R386: Atomically decrements a launch record's join counter by b when b does not exceed it. -/
  | join (d a : Nat) (b : SOp)
  /-- R404: Arms a snapshot with a cut at the next journal index. -/
  | snap (a : Nat) (b : SOp)
  /-- R417: Writes a relaxed snapshot status value. -/
  | snapq (a : Nat) (b : SOp)
  /-- R374: Setting VALID in a context table entry starts service of the context. -/
  | contextValidSet (ctx : Nat)
  /-- R374: Clearing VALID stops further placement for the context. -/
  | contextValidClear (ctx : Nat)
  /-- R429: A write of REQ sets a cluster's requested frequency. -/
  | clkctlWrite (cl v : Nat)
  /-- R429: A write sets the package power limit. -/
  | plimWrite (v : Nat)
  /-- R184: A write of APPLY = 1 requests or refuses a new slice split. -/
  | slcfgApply (die v : Nat)
  /-- R397: A write of GO = 1 pre-empts every block of a context on the die. -/
  | preqGo (die v : Nat)
  /-- R333: A write of PLANEEN starts a plane-set change. -/
  | planeenWrite (w v : Nat)
  /-- R416: The host advances HEAD, freeing ring space for the drain engines. -/
  | snapringWrite (head : Nat)
  /-- R419: A write of OP = 1 restores the chain of manifests. -/
  | snapcmdRollback (man : Nat)
  /-- R418: A write of OP 3-7 sets ERR. -/
  | snapcmdInvalid (op : Nat)
  /-- R72: A slice begins a clause once its WAIT flags are clear, after the header checks and the loading of its mode. -/
  | clauseStart (k sl : Nat)
  /-- R80: An instruction word whose opcode is unassigned, or whose group D or reserved fields match no instruction, is
  reached and raises illegal-instruction. -/
  | unassignedOpcode (w : Nat)
  /-- R72: A flag-bound operation writes its result, and the flag clears when none remains in flight. -/
  | flagOpComplete (k id : Nat)
  /-- R216: The head store of a warp's store queue becomes visible. -/
  | storeDrain (k : Nat)
  /-- R391: The trapping slices enter the supervisor handler once their flags are clear. -/
  | handlerEntry (k : Nat)
  /-- R395: A kernel fault freezes and ends the fault domain on the chip. -/
  | kernelFault (k : Nat)
  /-- R409: A post-cut write copies a snap page into a checkpoint frame. -/
  | copyOnWrite (page : Nat)
  /-- R13: A write to a management register that has no row of its own. -/
  | registerWrite (off width v : Nat)
  /-- R379: A write to line 1 of an RCB wakes the distributor to read its launch queue. -/
  | queueWake (ctx rcb : Nat)
  /-- R338: An up link drops on the replay limit or an authentication failure and retrains. -/
  | linkDrop (port err : Nat)
  /-- R192: A remote load or atomic reply writes its lanes and decrements JOIN. -/
  | remoteReply (id : Nat) (r : Reply)
  /-- R334: A remote request is performed at its home slice on the target chip. -/
  | remoteRequest (q : RemoteReq)
  /-- R335: A remote request gets no reply within REQTO and ends with remote-error cause 2. -/
  | remoteTimeout (id : Nat)
  /-- R356: A device request to host memory gets no completion within HOSTTO. -/
  | hostTimeout (id : Nat)
  /-- R231: A host access through CXL.mem is performed at the home slice. -/
  | hostMemAccess (write : Bool) (pa : Nat) (bytes : List Byte)
  /-- R49: A wait unsatisfied for PARK_DELAY cycles moves the warp to Parking. -/
  | parkDelayExpiry (k : Nat)
  /-- R42: The save of a parking warp completes and it becomes Parked-waiting or Parked-ready. -/
  | parkSaveComplete (k : Nat)
  /-- R48: A ready record at the head of the queue takes a free window and is restored. -/
  | warpRestore (core : Nat)
  /-- R51: The port scheduler moves a ready Pending warp into the active set. -/
  | warpActivate (k : Nat)
  /-- R127: A ready warp unissued for 192 cycles is promoted ahead of every other choice. -/
  | agePromotion (k : Nat)
  /-- R245: The 32-instruction window ends and the reservation is dropped. -/
  | reservationExpire (k sl : Nat)
  /-- R190: A trap deferred from an asynchronous fault is raised at the slice's next clause boundary. -/
  | deferredTrap (k sl : Nat)
  /-- R256: A domain's idle count reaches WINDOW and the progress monitor freezes it. -/
  | monitorFreeze (ctx dom die : Nat)
  /-- R258: A freeze signal from the other die freezes the domain on this die. -/
  | freezeSignal (ctx dom die : Nat)
  /-- R381: The distributor takes a ready launch record and checks it. -/
  | recordTake (ctx rcb : Nat)
  /-- R379: After 1,024 cycles the distributor re-reads claimed entries that held 0. -/
  | queueRecheck (ctx rcb : Nat)
  /-- R377: The distributor re-reads the region tree after a write to line 1 of the root. -/
  | treeReread (ctx : Nat)
  /-- R35: The distributor places a block, or a cluster group, on a core and starts its lead warp. -/
  | blockPlace (ctx : Nat)
  /-- R180: Once every boundary granule is free, the core adopts the new split. -/
  | splitAdopt (core : Nat)
  /-- R36: A block whose warps have exited and whose operations have completed releases its resources. -/
  | blockEnd (b : Nat)
  /-- R399: A block whose warps have all save-exited and whose operations are complete is suspended. -/
  | blockSuspend (b : Nat)
  /-- R401: A warp misses its save exit within PDEADL and raises preemption-deadline. -/
  | preemptDeadline (k : Nat)
  /-- R184: A die with no resident block applies its pending slice split. -/
  | contextBoundary (die : Nat)
  /-- R278: A waiting push or pop is performed once the queue has room or a handle. -/
  | queueStepServed (k sl : Nat)
  /-- R248: A new PHASE value releases the BAR waiters. -/
  | barRelease (k sl : Nat)
  /-- R251: A phase change releases an ABWAIT. -/
  | abwaitRelease (k sl : Nat)
  /-- R123: A write that satisfies the condition releases a WAITW. -/
  | waitwRelease (k sl : Nat)
  /-- R125: The last arrival fires the rendezvous, and it may re-fork warps. -/
  | rendFire (b : Nat)
  /-- R120: Every live slice waits at one REGANG and the gang forms. -/
  | gangForm (k : Nat)
  /-- R224: A counter falls to at most n and the WAITC completes as an acquire. -/
  | waitcSatisfied (k sl : Nat)
  /-- R149: Matching XSWAPs pair and each side writes the values it receives. -/
  | xswapPair (k : Nat)
  /-- R297: After the awaited operations complete, MREL pushes its handle. -/
  | mrelPush (id : Nat)
  /-- R293: The array starts an MMA or MMAX, shadows the tile and captures the operands. -/
  | mmaStart (id : Nat)
  /-- R293: The tile is written and the shadow freed. -/
  | mmaComplete (id : Nat)
  /-- R294: An uncorrectable error makes the operation and its later chain members replay. -/
  | mmaReplay (id : Nat)
  /-- R273: A command at the head of its engine queue starts, or is discarded on a false guard. -/
  | copyStart (id : Nat)
  /-- R269: A command completes and makes its barrier arrival and counter decrement. -/
  | copyComplete (id : Nat)
  /-- R270: The engine pushes the command's handle once the queue has room. -/
  | pushOnLand (id : Nat)
  /-- R283: At each period end the meter counts are reduced by the budget. -/
  | meterPeriod (die ctx rcb : Nat)
  /-- R199: A page walk completes, updating A and D, or ends at a faulting entry. -/
  | pageWalk (ctx va : Nat) (write : Bool)
  /-- R207: A requested page migration blocks, copies, remaps and replays the page. -/
  | pageMigration (q : Migration)
  /-- R338: A port finishes training and compares views with the other end. -/
  | linkTrainDone (port err : Nat)
  /-- R339: A plane-state notice arrives from another chip. -/
  | planeNotice (plane : Nat)
  /-- R333: Once outstanding requests are answered, the new plane set applies. -/
  | planeChangeApply
  /-- R357: The units of a fired collective begin when fewer than 16 collectives are active. -/
  | collUnitStart (id : Nat)
  /-- R346: A chunk arrives at a sequencer and is added, forwarded or written. -/
  | collUnitStep (q : Chunk)
  /-- R350: A retry request restarts a unit's pass. -/
  | collRetry (id blk unit : Nat) (pass : RetryAt)
  /-- R350: An abort ends the collective on a member where it is incomplete. -/
  | collAbort (id cause : Nat) (chip : AbortAt)
  /-- R349: The collective completes on the chip and the counters decrement. -/
  | collComplete (id : Nat)
  /-- R366: A dispatch reaches its home slice and is held or refused. -/
  | cmbDispatchArrive (id : Nat)
  /-- R366: A put reaches its home slice and is held, discarded as late or duplicate, or refused. -/
  | cmbPutArrive (id : Nat)
  /-- R465: The bytes of a remote put row arrive and set its arrival bit. -/
  | cmbRowBytes (id : Nat) (bytes : List Byte) (plane parity : Nat)
  /-- R465: A cancel drops the place held for a row whose read failed. -/
  | cmbCancel (id : CancelOf)
  /-- R365: A request waiting for a slot takes one freed by a release. -/
  | cmbSlotGrant (id : Nat)
  /-- R367: An Open slot's timer reaches TIMEOUT and the slot is resolved. -/
  | cmbSlotTimeout (ctx buf tok : Nat)
  /-- R368: A Ready token reaches its turn and its weighted output row is written. -/
  | cmbRelease (ctx buf tok : Nat)
  /-- R318: A helper that has not reached HIDX within 256 clauses of a release request is released with rollback. -/
  | helperForcedRelease (k : Nat)
  /-- R412: A snapshot canary arrives on a channel, arming the chip or closing the channel. -/
  | canaryArrive (n chip plane cls : Nat)
  /-- R406: The last epoch n-1 launch finishes and the chip takes its local cut. -/
  | localCut
  /-- R416: A drain engine writes a unit of checkpoint data to the manifest ring. -/
  | drainWrite (page : Nat)
  /-- R410: A drain engine retires a snap-clean page straight to the ring. -/
  | pageRetire (page : Nat)
  /-- R420: A write of OP = 2 fails the armed or cut snapshot. -/
  | snapcmdAbort
  /-- R422: Device reset starts the boot ROM's verification of Vilvon. -/
  | deviceReset (pass : Nat)
  /-- R425: Every unit has trained or been fenced, and the device enters state 3. -/
  | enterFullService
  /-- R423: In recovery, the mailbox accepts, verifies and boots a new image. -/
  | mailboxImage (step : Nat) (image : BootImage)
  /-- R426: The ATTEST command returns a signed attestation report. -/
  | mailboxAttest (nonce : List Byte)
  /-- R422: A mailbox command raises the fused minimum security version. -/
  | mailboxRaiseSvn (v : Nat)
  /-- R430: Every 500,000 cycles Vilvon sets each cluster's frequency under PLIM. -/
  | powerInterval
  /-- R431: The junction reaches 105 °C and every cluster is capped at 1.6 GHz. -/
  | thermalCap
  /-- R431: The junction reaches 110 °C and the clocks drop to their minimum. -/
  | thermalEmergency
  /-- R431: 110 °C persists for 5,000,000 cycles and the device resets into recovery. -/
  | thermalTrip
  /-- R431: The temperature falls 5 °C below a threshold and its cap is lifted. -/
  | thermalRecover (thr : Nat)
  /-- R26: A failed unit is fenced and the domains that used it end. -/
  | unitFence (kind die n : Nat)
  /-- R396: A single-bit error in an SRAM word is corrected and counted, or an uncorrectable error poisons the data or
  fences the unit. -/
  | eccError (kind a b : Nat)
  /-- R354: A CXL.cache snoop from the host recalls or invalidates a host line that a device L1 or slice holds; `bytes` are
  those that the host then writes there. -/
  | hostSnoop (pa : Nat) (inv : Bool) (bytes : List Byte)
  /-- R230: The target chip's acknowledgement of a posted remote store, RED or atomic arrives at the requesting chip. -/
  | remoteAck (id : Nat) (parity : Via)
  /-- R330: A packet that fails its check or UALinkSec authentication, or that a switch has marked bad, arrives and is
  discarded for link-level replay. -/
  | badPacket (port : Nat)
  /-- R339: A switch reports a request undeliverable because the target's port on that plane is down, and the request is
  settled as on a plane out of service. -/
  | undeliverableReport (id : Nat)
  /-- R426: After the host accepts an attestation report, Vilvon installs UALinkSec and CXL IDE keys, and full fabric
  traffic starts to flow. -/
  | keyInstall
  deriving DecidableEq, Repr

end Sys2Proof
end

