-- ==== Sys2Proof/WellFormed.lean ====
section
/-! DEFINITION. Which instructions an instruction word can encode: register numbers and constants in
range, pairs even, raw fields within their codes (R66 to R71 and the class chapters). The rows that no
word encodes carry no field to check. -/
namespace Sys2Proof

/-- A scalar register s0 to s159 (R67). -/
def okS (n : Nat) : Bool := decide (n < 160)

/-- An even scalar register, the first of a pair (R101). -/
def okP (n : Nat) : Bool := decide (n % 2 = 0) && decide (n < 160)

/-- An eight-bit field: a vector register (R67) or a raw byte. -/
def okV (n : Nat) : Bool := decide (n < 256)

/-- A four-bit number: a mask register, an acc tile or a guard slot. -/
def okM (n : Nat) : Bool := decide (n < 16)

/-- A descriptor base: a multiple of 8 from 0x00 to 0x98 (R263, R342, R362). -/
def okB8 (n : Nat) : Bool := decide (n % 8 = 0) && decide (n ≤ 0x98)

/-- A scalar operand of a warp-level instruction (R101): register, integer constant or literal. -/
def SOp.isWarp : SOp → Bool
  | .reg n => okS n
  | .const c => decide (-16 ≤ c) && decide (c ≤ 63)
  | .fconst _ => false
  | .laneid => false
  | .lit _ => true

/-- A scalar operand of R68, before its type is known. -/
def SOp.isOp : SOp → Bool
  | .reg n => okS n
  | .const c => decide (-16 ≤ c) && decide (c ≤ 63)
  | .fconst k => decide (k < 8)
  | .laneid => true
  | .lit _ => true

/-- The address form of R187. -/
def AddrForm.ok : AddrForm → Bool
  | .base a b => okP a && okV b
  | .vec b => decide (b % 2 = 0) && okV b

/-- The extension word of ATOM and RED (R235). -/
def Ext.ok (x : Ext) : Bool :=
  okV x.v && okV x.c && decide (x.op < 9) && decide (x.ord < 4) && decide (x.scope < 7)
    && (decide (x.op = 7) || decide (x.c = 0))

/-- The extension word of ATOMS, whose V and C are scalar-operand codes below 0xF0 (R235). -/
def Ext.okScalar (x : Ext) : Bool := x.ok && decide (x.v < 0xF0) && decide (x.c < 0xF0)

/-- The copy command word (R263): no guard slot without GEN, no handle without PEN. -/
def okCopy (ks : Nat) (gen pen : Bool) (a : Nat) (b : SOp) : Bool :=
  okM ks && (gen || decide (ks = 0)) && okB8 a && b.isWarp && (pen || decide (b = .reg 0))

/-- The fields of COLL (R342). -/
def okColl (form : Nat) (tsrc op : Bool) (tile : Nat) : Bool :=
  decide (form < 4) && okM tile && (decide (form < 2) || !op) && (tsrc || decide (tile = 0))
    && (!tsrc || (decide (form = 0) && !op))

/-- The numbers of the 64-bit system registers (R375). -/
def sys64 (n : Nat) : Bool :=
  n ∈ [0x10, 0x12, 0x14, 0x16, 0x18, 0x1A, 0x1C, 0x1E, 0x20, 0x22, 0x24, 0x26, 0x28]

/-- The numbers of R375 that SRD may name. -/
def okSrd (n : Nat) : Bool := sys64 n || decide (n < 5)

/-- SWR names a register of R375 that some mode may write, and a pair for a 64-bit one (R376). -/
def okSwr (n : Nat) (a : SOp) : Bool :=
  okSrd n && !(n ∈ [0x00, 0x01, 0x24, 0x26]) && a.isWarp
    && (!sys64 n || match a with | .reg k => okP k | _ => false)

/-- Whether an instruction is well formed. -/
def WellFormed : Instr → Bool
  | .smov d a => okS d && a.isWarp
  | .sadd d a b => okS d && a.isWarp && b.isWarp
  | .ssub d a b => okS d && a.isWarp && b.isWarp
  | .smul d a b => okS d && a.isWarp && b.isWarp
  | .smulh d a b => okS d && a.isWarp && b.isWarp
  | .sand d a b => okS d && a.isWarp && b.isWarp
  | .sor d a b => okS d && a.isWarp && b.isWarp
  | .sxor d a b => okS d && a.isWarp && b.isWarp
  | .sshl d a b => okS d && a.isWarp && b.isWarp
  | .sshr d a b => okS d && a.isWarp && b.isWarp
  | .ssar d a b => okS d && a.isWarp && b.isWarp
  | .smin d a b => okS d && a.isWarp && b.isWarp
  | .smax d a b => okS d && a.isWarp && b.isWarp
  | .scmp d a b => okS d && a.isWarp && b.isWarp
  | .ssel d a b => okS d && a.isWarp && b.isWarp
  | .sbfe d a b => okS d && a.isWarp && b.isWarp
  | .sbfi d a b => okS d && a.isWarp && b.isWarp
  | .spopc d a => okS d && a.isWarp
  | .sclz d a => okS d && a.isWarp
  | .saddp d a b => okP d && okP a && b.isWarp
  | .sld d a b => okS d && okP a && b.isWarp
  | .sst d a b => okS d && okP a && b.isWarp
  | .ldc d a b => okS d && okP a && b.isWarp
  | .getid d sel => okS d && decide (sel < 9)
  | .bra o => decide (o < 16777216)
  | .brc _ a b => a.isWarp && b.isWarp
  | .brzm m b => okM m && b.isWarp
  | .brnzm m b => okM m && b.isWarp
  | .jmp a b => okP a && b.isWarp
  | .call d b => okP d && b.isWarp
  | .ret a => okP a
  | .exit => true
  | .nop => true
  | .mode mode => decide (mode < 65536) && decide (mode / 4 % 4 ≠ 3)
  | .part => true
  | .regang => true
  | .yield => true
  | .waitw _ a b => a.isWarp && b.isWarp
  | .fork => true
  | .rend _ => true
  | .mand d a b => okM d && okM a && okM b
  | .mor d a b => okM d && okM a && okM b
  | .mxor d a b => okM d && okM a && okM b
  | .mandn d a b => okM d && okM a && okM b
  | .mnot d a => okM d && okM a
  | .mmov d a => okM d && okM a
  | .mpopc d a => okS d && okM a
  | .mffs d a => okS d && okM a
  | .mset d a => okM d && a.isWarp
  | .mget d a => okS d && okM a
  | .addVv d a b => okV d && okV a && okV b
  | .addVs d a b => okV d && okV a && b.isOp
  | .addcVv d a b => okV d && okV a && okV b
  | .addcVs d a b => okV d && okV a && b.isOp
  | .subVv d a b => okV d && okV a && okV b
  | .subVs d a b => okV d && okV a && b.isOp
  | .subbVv d a b => okV d && okV a && okV b
  | .subbVs d a b => okV d && okV a && b.isOp
  | .mulVv d a b => okV d && okV a && okV b
  | .mulVs d a b => okV d && okV a && b.isOp
  | .mulhVv d a b => okV d && okV a && okV b
  | .mulhVs d a b => okV d && okV a && b.isOp
  | .madVv d a b => okV d && okV a && okV b
  | .madVs d a b => okV d && okV a && b.isOp
  | .absdVv d a b => okV d && okV a && okV b
  | .absdVs d a b => okV d && okV a && b.isOp
  | .minVv d a b => okV d && okV a && okV b
  | .minVs d a b => okV d && okV a && b.isOp
  | .maxVv d a b => okV d && okV a && okV b
  | .maxVs d a b => okV d && okV a && b.isOp
  | .andVv d a b => okV d && okV a && okV b
  | .andVs d a b => okV d && okV a && b.isOp
  | .orVv d a b => okV d && okV a && okV b
  | .orVs d a b => okV d && okV a && b.isOp
  | .xorVv d a b => okV d && okV a && okV b
  | .xorVs d a b => okV d && okV a && b.isOp
  | .shlVv d a b => okV d && okV a && okV b
  | .shlVs d a b => okV d && okV a && b.isOp
  | .shrVv d a b => okV d && okV a && okV b
  | .shrVs d a b => okV d && okV a && b.isOp
  | .sarVv d a b => okV d && okV a && okV b
  | .sarVs d a b => okV d && okV a && b.isOp
  | .bfeVv d a b => okV d && okV a && okV b
  | .bfeVs d a b => okV d && okV a && b.isOp
  | .bfiVv d a b => okV d && okV a && okV b
  | .bfiVs d a b => okV d && okV a && b.isOp
  | .popcVv d a => okV d && okV a
  | .popcVs d b => okV d && b.isOp
  | .clzVv d a => okV d && okV a
  | .clzVs d b => okV d && b.isOp
  | .brevVv d a => okV d && okV a
  | .brevVs d b => okV d && b.isOp
  | .prmtVv d a b => okV d && okV a && okV b
  | .prmtVs d a b => okV d && okV a && b.isOp
  | .selVv d a b => okV d && okV a && okV b
  | .selVs d a b => okV d && okV a && b.isOp
  | .cmpVv d a b => okV d && okV a && okV b
  | .cmpVs d a b => okV d && okV a && b.isOp
  | .cvtiVv d a b => okV d && okV a && okV b
  | .cvtiVs d a b => okV d && okV a && b.isOp
  | .movVv d a => okV d && okV a
  | .movVs d b => okV d && b.isOp
  | .dp4Vv d a b => okV d && okV a && okV b
  | .dp4Vs d a b => okV d && okV a && b.isOp
  | .faddVv d a b => okV d && okV a && okV b
  | .faddVs d a b => okV d && okV a && b.isOp
  | .fsubVv d a b => okV d && okV a && okV b
  | .fsubVs d a b => okV d && okV a && b.isOp
  | .fmulVv d a b => okV d && okV a && okV b
  | .fmulVs d a b => okV d && okV a && b.isOp
  | .ffmaVv d a b => okV d && okV a && okV b
  | .ffmaVs d a b => okV d && okV a && b.isOp
  | .fminVv d a b => okV d && okV a && okV b
  | .fminVs d a b => okV d && okV a && b.isOp
  | .fmaxVv d a b => okV d && okV a && okV b
  | .fmaxVs d a b => okV d && okV a && b.isOp
  | .fminnmVv d a b => okV d && okV a && okV b
  | .fminnmVs d a b => okV d && okV a && b.isOp
  | .fmaxnmVv d a b => okV d && okV a && okV b
  | .fmaxnmVs d a b => okV d && okV a && b.isOp
  | .fcmpVv d a b => okV d && okV a && okV b
  | .fcmpVs d a b => okV d && okV a && b.isOp
  | .fclassVv d a b => okV d && okV a && okV b
  | .fclassVs d a b => okV d && okV a && b.isOp
  | .fscaleVv d a b => okV d && okV a && okV b
  | .fscaleVs d a b => okV d && okV a && b.isOp
  | .fgetxVv d a => okV d && okV a
  | .fgetxVs d b => okV d && b.isOp
  | .frndVv d a => okV d && okV a
  | .frndVs d b => okV d && b.isOp
  | .ftoiVv d a b => okV d && okV a && okV b
  | .ftoiVs d a b => okV d && okV a && b.isOp
  | .itofVv d a b => okV d && okV a && okV b
  | .itofVs d a b => okV d && okV a && b.isOp
  | .fcvtVv d a b => okV d && okV a && okV b
  | .fcvtVs d a b => okV d && okV a && b.isOp
  | .fpackVv d a b => okV d && okV a && okV b
  | .fpackVs d a b => okV d && okV a && b.isOp
  | .funpackVv d a b => okV d && okV a && okV b
  | .funpackVs d a b => okV d && okV a && b.isOp
  | .fdot2Vv d a b => okV d && okV a && okV b
  | .fdot2Vs d a b => okV d && okV a && b.isOp
  | .rcp d a => okV d && okV a
  | .rsq d a => okV d && okV a
  | .sqrt d a => okV d && okV a
  | .exp2 d a => okV d && okV a
  | .log2 d a => okV d && okV a
  | .sinpi d a => okV d && okV a
  | .cospi d a => okV d && okV a
  | .tanh d a => okV d && okV a
  | .shfl d a b => okV d && okV a && okV b
  | .shflup d a b => okV d && okV a && b.isOp
  | .shfldn d a b => okV d && okV a && b.isOp
  | .shflx d a b => okV d && okV a && b.isOp
  | .vote d a k => okS d && okM a && decide (k < 3)
  | .ballot d a b => okM d && okV a && b.isOp
  | .redlane d a k => okV d && okV a && decide (k < 6)
  | .xswap d a b => okV d && okV a && b.isOp
  | .ld d f => okV d && f.ok
  | .st d f => okV d && f.ok
  | .lds d a b => okV d && okV a && b.isWarp
  | .sts d a b => okV d && okV a && b.isWarp
  | .pref d f => decide (d < 3) && f.ok
  | .ldrsv d f => okV d && f.ok
  | .stcnd d f => okV d && f.ok
  | .cctlCinv => true
  | .cctlEvl1 a b => okP a && b.isWarp
  | .cctlWbl2 a b => okP a && b.isWarp
  | .cctlEvl1all => true
  | .icinv a b => okP a && b.isWarp
  | .atom d f x => okV d && f.ok && x.ok
  | .atoms d a b x => okS d && okP a && b.isWarp && x.okScalar
  | .red f x => f.ok && x.ok
  | .bar a => a.isWarp
  | .bara a => a.isWarp
  | .abinit a b => a.isWarp && b.isWarp
  | .abarr d a b => okS d && a.isWarp && b.isWarp
  | .abwait a b => a.isWarp && b.isWarp
  | .fence o c => decide (1 ≤ o) && decide (o ≤ 4) && decide (c < 7)
  | .waitc c n => decide (c < 6) && okV n
  | .qinit e a b => okV e && a.isWarp && b.isWarp
  | .qpush a b => a.isWarp && b.isWarp
  | .qpop d a => okS d && a.isWarp
  | .qtrypush d a b => okS d && a.isWarp && b.isWarp
  | .qtrypop d a => okP d && a.isWarp
  | .gset n b => okM n && b.isWarp
  | .gclr n => okM n
  | .cpld ks g p a b => okCopy ks g p a b
  | .cpst ks g p a b => okCopy ks g p a b
  | .cpmc ks g p a b => okCopy ks g p a b
  | .cpga ks g p a b => okCopy ks g p a b
  | .cpsc ks g p a b => okCopy ks g p a b
  | .cpfl ks g p a b => okCopy ks g p a b
  | .cprm ks g p a b => okCopy ks g p a b
  | .cppf ks g p a b => okCopy ks g p a b
  | .mma bt _ t a b => decide (bt < 6) && okM t && okV a && okV b
  | .mmax bt _ t a b => decide (bt < 6) && okM t && okV a && okV b
  | .mrel t a h => okM t && a.isWarp && h.isWarp
  | .tld d a b => okV d && okS a && b.isOp
  | .tst d a b => okV d && okS a && b.isOp
  | .tzero t => okM t
  | .recruit d a md ask _ => okS d && decide (a % 4 = 0) && okS a && decide (1 ≤ md) && decide (md ≤ 13) && decide (ask < 8)
  | .hidx d m => okV d && decide (m < 14)
  | .hrd d n => okV d && okV n
  | .hred a => okV a
  | .hend => true
  | .hjoin d e => okV d && okS e
  | .dismiss => true
  | .coll fm ts op t a => okColl fm ts op t && okB8 a
  | .collq d a => okS d && a.isWarp
  | .cmbcfg d a b => okS d && okB8 a && b.isWarp
  | .cmbdisp d a b => okV d && okV a && b.isWarp
  | .cmbput t v b => okV t && okV v && b.isWarp
  | .cmbwait d a b => okS d && a.isWarp && b.isWarp
  | .cmbq d a b => okS d && a.isWarp && b.isWarp
  | .cmbdrain d b => okS d && b.isWarp
  | .trap b => b.isWarp
  | .brk b => b.isWarp
  | .srd d n => okS d && okSrd n && (!sys64 n || okP d)
  | .swr n a => okSwr n a
  | .sret => true
  | .tlbinv a b => okP a && b.isWarp
  | .ptwr a b => okP a && okP b
  | .launch d a b => okS d && okP a && okP b
  | .join d a b => okS d && okP a && b.isWarp
  | .snap a b => okP a && b.isWarp
  | .snapq a b => okS a && b.isWarp
  | .clauseStart _ _ => true
  | .flagOpComplete _ _ => true
  | .storeDrain _ => true
  | .remoteReply _ _ => true
  | .remoteRequest _ => true
  | .remoteTimeout _ => true
  | .hostTimeout _ => true
  | .hostMemAccess _ _ _ => true
  | .parkDelayExpiry _ => true
  | .parkSaveComplete _ => true
  | .warpRestore _ => true
  | .warpActivate _ => true
  | .agePromotion _ => true
  | .reservationExpire _ _ => true
  | .deferredTrap _ _ => true
  | .handlerEntry _ => true
  | .kernelFault _ => true
  | .monitorFreeze _ _ _ => true
  | .freezeSignal _ _ _ => true
  | .recordTake _ _ => true
  | .queueWake _ _ => true
  | .queueRecheck _ _ => true
  | .treeReread _ => true
  | .blockPlace _ => true
  | .splitAdopt _ => true
  | .blockEnd _ => true
  | .blockSuspend _ => true
  | .preemptDeadline _ => true
  | .contextBoundary _ => true
  | .queueStepServed _ _ => true
  | .barRelease _ _ => true
  | .abwaitRelease _ _ => true
  | .waitwRelease _ _ => true
  | .rendFire _ => true
  | .gangForm _ => true
  | .waitcSatisfied _ _ => true
  | .xswapPair _ => true
  | .mrelPush _ => true
  | .mmaStart _ => true
  | .mmaComplete _ => true
  | .mmaReplay _ => true
  | .copyStart _ => true
  | .copyComplete _ => true
  | .pushOnLand _ => true
  | .meterPeriod _ _ _ => true
  | .pageWalk _ _ _ => true
  | .pageMigration _ => true
  | .copyOnWrite _ => true
  | .linkTrainDone _ _ => true
  | .linkDrop _ _ => true
  | .planeNotice _ => true
  | .planeChangeApply => true
  | .collUnitStart _ => true
  | .collUnitStep _ => true
  | .collRetry _ _ _ _ => true
  | .collAbort _ _ _ => true
  | .collComplete _ => true
  | .cmbDispatchArrive _ => true
  | .cmbPutArrive _ => true
  | .cmbRowBytes _ _ _ _ => true
  | .cmbCancel _ => true
  | .cmbSlotGrant _ => true
  | .cmbSlotTimeout _ _ _ => true
  | .cmbRelease _ _ _ => true
  | .helperForcedRelease _ => true
  | .canaryArrive _ _ _ _ => true
  | .localCut => true
  | .drainWrite _ => true
  | .pageRetire _ => true
  | .snapcmdRollback _ => true
  | .snapcmdAbort => true
  | .snapcmdInvalid _ => true
  | .snapringWrite _ => true
  | .slcfgApply _ _ => true
  | .preqGo _ _ => true
  | .planeenWrite _ _ => true
  | .clkctlWrite _ _ => true
  | .plimWrite _ => true
  | .contextValidSet _ => true
  | .contextValidClear _ => true
  | .registerWrite _ _ _ => true
  | .deviceReset _ => true
  | .enterFullService => true
  | .mailboxImage _ _ => true
  | .mailboxAttest _ => true
  | .mailboxRaiseSvn _ => true
  | .powerInterval => true
  | .thermalCap => true
  | .thermalEmergency => true
  | .thermalTrip => true
  | .thermalRecover _ => true
  | .unitFence _ _ _ => true
  | .unassignedOpcode _ => true
  | .eccError _ _ _ => true
  | .hostSnoop _ _ _ => true
  | .remoteAck _ _ => true
  | .badPacket _ => true
  | .undeliverableReport _ => true
  | .keyInstall => true

end Sys2Proof
end

