-- ==== Sys2Proof/Decode.lean ====
section
/-! DEFINITION. The decoder and the encoder, both from the encoding tables of the spec: an instruction
word is opcode [31:24], D [23:16], A [15:8], B [7:0] (R66), followed by its extension word (R71) and its
literal words, A before B (R70). Decoding is total and rejects by name. -/
namespace Sys2Proof

/-- Why a word is rejected: no word at all; an unassigned opcode (R80); a reserved, unused or operand
field that no form of the opcode admits (R31, R66 to R71); an extension or literal word missing (R61). -/
inductive DecodeError where
  | empty
  | unassigned
  | field
  | truncated
  deriving DecidableEq, Repr

/-- What decoding gives: the instruction and the words after it, or the reason of rejection. -/
abbrev Decoded := Except DecodeError (Instr × List Word)

/-- A scalar-operand field of R68; a literal takes the next word (R70). -/
def readOp (c : Nat) (r : List Word) : Except DecodeError (SOp × List Word) :=
  if c < 0xA0 then .ok (.reg c, r)
  else if c < 0xE0 then .ok (.const ((c : Int) - 0xA0), r)
  else if c < 0xF0 then .ok (.const ((c : Int) - 0xF0), r)
  else if c < 0xF8 then .ok (.fconst (c - 0xF0), r)
  else if c < 0xFE then .error .field
  else if c = 0xFE then .ok (.laneid, r)
  else match r with
    | [] => .error .truncated
    | w :: r => .ok (.lit w, r)

/-- A scalar-operand field of a warp-level instruction (R101), which admits neither a float constant
nor the lane index. -/
def readWarpOp (c : Nat) (r : List Word) : Except DecodeError (SOp × List Word) :=
  match readOp c r with
  | .ok (x, r) => if x.isWarp then .ok (x, r) else .error .field
  | .error e => .error e

/-- One warp-level operand. -/
def op1 (f : SOp → Instr) (c : Nat) (r : List Word) : Decoded :=
  match readWarpOp c r with
  | .ok (x, r) => .ok (f x, r)
  | .error e => .error e

/-- One operand whose type the mode gives (R133). -/
def opT (f : SOp → Instr) (c : Nat) (r : List Word) : Decoded :=
  match readOp c r with
  | .ok (x, r) => .ok (f x, r)
  | .error e => .error e

/-- Two warp-level operands, the A literal before the B literal (R70). -/
def op2 (f : SOp → SOp → Instr) (a b : Nat) (r : List Word) : Decoded :=
  match readWarpOp a r with
  | .ok (x, r) => op1 (f x) b r
  | .error e => .error e

/-- A scalar destination and one operand (R102). -/
def sAlu1 (f : Nat → SOp → Instr) (d a : Nat) (r : List Word) : Decoded :=
  if okS d then op1 (f d) a r else .error .field

/-- A scalar destination and two operands (R102). -/
def sAlu2 (f : Nat → SOp → SOp → Instr) (d a b : Nat) (r : List Word) : Decoded :=
  if okS d then op2 (f d) a b r else .error .field

/-- A scalar destination, an even pair and one operand (R105, R106). -/
def sPair (f : Nat → Nat → SOp → Instr) (d a b : Nat) (r : List Word) : Decoded :=
  if okS d && okP a then op1 (f d a) b r else .error .field

/-- No operand: every other field zero. -/
def zero3 (i : Instr) (a b : Nat) (r : List Word) : Decoded :=
  if a = 0 && b = 0 then .ok (i, r) else .error .field

/-- The address form of R187. -/
def addr (f : AddrForm → Instr) (a b : Nat) (r : List Word) : Decoded :=
  if okP a then .ok (f (.base a b), r)
  else if a = 0xFE && b % 2 = 0 then .ok (f (.vec b), r)
  else .error .field

/-- The extension word of R235 from its bits. -/
def readExt (w : Word) : Ext :=
  { v := w.toNat / 16777216 % 256, c := w.toNat / 65536 % 256, op := w.toNat / 4096 % 16,
    ord := w.toNat / 512 % 8, scope := w.toNat / 64 % 8 }

/-- The extension word that follows an atomic's instruction word (R71). -/
def ext (scalar : Bool) (r : List Word) (k : Ext → List Word → Decoded) : Decoded :=
  match r with
  | [] => .error .truncated
  | w :: r =>
    if decide (w.toNat % 64 = 0) && (if scalar then (readExt w).okScalar else (readExt w).ok)
    then k (readExt w) r else .error .field

/-- The copy command word of R263. -/
def copyWord (f : Nat → Bool → Bool → Nat → SOp → Instr) (d a b : Nat) (r : List Word) : Decoded :=
  match readWarpOp b r with
  | .ok (x, r) =>
    if d % 4 = 0 && okCopy (d / 16) (d / 8 % 2 == 1) (d / 4 % 2 == 1) a x
    then .ok (f (d / 16) (d / 8 % 2 == 1) (d / 4 % 2 == 1) a x, r) else .error .field
  | .error e => .error e

/-- The word of SWR (R376): the register's number decides whether A names a pair. -/
def swrWord (d a : Nat) (r : List Word) : Decoded :=
  match readWarpOp a r with
  | .ok (x, r) => if okSwr d x then .ok (.swr d x, r) else .error .field
  | .error e => .error e

/-- Decoding by opcode (R78, R79): `d`, `a`, `b` are the fields of R66, `r` the words that follow. -/
def decodeFields (op d a b : Nat) (r : List Word) : Decoded :=
  match op with
  | 0x01 => if b = 0 then sAlu1 .smov d a r else .error .field
  | 0x02 => sAlu2 .sadd d a b r
  | 0x03 => sAlu2 .ssub d a b r
  | 0x04 => sAlu2 .smul d a b r
  | 0x05 => sAlu2 .smulh d a b r
  | 0x06 => sAlu2 .sand d a b r
  | 0x07 => sAlu2 .sor d a b r
  | 0x08 => sAlu2 .sxor d a b r
  | 0x09 => sAlu2 .sshl d a b r
  | 0x0A => sAlu2 .sshr d a b r
  | 0x0B => sAlu2 .ssar d a b r
  | 0x0C => sAlu2 .smin d a b r
  | 0x0D => sAlu2 .smax d a b r
  | 0x0E => sAlu2 .scmp d a b r
  | 0x0F => sAlu2 .ssel d a b r
  | 0x10 => sAlu2 .sbfe d a b r
  | 0x11 => sAlu2 .sbfi d a b r
  | 0x12 => if b = 0 then sAlu1 .spopc d a r else .error .field
  | 0x13 => if b = 0 then sAlu1 .sclz d a r else .error .field
  | 0x14 => if okP d then sPair .saddp d a b r else .error .field
  | 0x15 => sPair .sld d a b r
  | 0x16 => sPair .sst d a b r
  | 0x17 => sPair .ldc d a b r
  | 0x18 => if okS d && decide (0xA0 ≤ a) && decide (a < 0xA9) && b = 0 then .ok (.getid d (a - 0xA0), r) else .error .field
  | 0x20 => .ok (.bra (d * 65536 + a * 256 + b), r)
  | 0x21 => if d < 2 then op2 (fun x y => .brc (d == 1) x y) a b r else .error .field
  | 0x22 => if d = 0 && okM a then op1 (fun y => .brzm a y) b r else .error .field
  | 0x23 => if d = 0 && okM a then op1 (fun y => .brnzm a y) b r else .error .field
  | 0x24 => if d = 0 && okP a then op1 (fun y => .jmp a y) b r else .error .field
  | 0x25 => if okP d && a = 0 then op1 (fun y => .call d y) b r else .error .field
  | 0x26 => if d = 0 && okP a && b = 0 then .ok (.ret a, r) else .error .field
  | 0x27 => if d = 0 then zero3 .exit a b r else .error .field
  | 0x28 => if d = 0 then zero3 .nop a b r else .error .field
  | 0x29 => if b = 0 && decide ((d * 256 + a) / 4 % 4 ≠ 3) then .ok (.mode (d * 256 + a), r) else .error .field
  | 0x2A => if d = 0 then zero3 .part a b r else .error .field
  | 0x2B => if d = 0 then zero3 .regang a b r else .error .field
  | 0x2C => if d = 0 then zero3 .yield a b r else .error .field
  | 0x2D => if d < 2 then op2 (fun x y => .waitw (d == 1) x y) a b r else .error .field
  | 0x2E => if d = 0 then zero3 .fork a b r else .error .field
  | 0x2F => if d < 2 && a = 0 && b = 0 then .ok (.rend (d == 1), r) else .error .field
  | 0x30 => if okM d && okM a && okM b then .ok (.mand d a b, r) else .error .field
  | 0x31 => if okM d && okM a && okM b then .ok (.mor d a b, r) else .error .field
  | 0x32 => if okM d && okM a && okM b then .ok (.mxor d a b, r) else .error .field
  | 0x33 => if okM d && okM a && okM b then .ok (.mandn d a b, r) else .error .field
  | 0x34 => if okM d && okM a && b = 0 then .ok (.mnot d a, r) else .error .field
  | 0x35 => if okM d && okM a && b = 0 then .ok (.mmov d a, r) else .error .field
  | 0x36 => if okS d && okM a && b = 0 then .ok (.mpopc d a, r) else .error .field
  | 0x37 => if okS d && okM a && b = 0 then .ok (.mffs d a, r) else .error .field
  | 0x38 => if okM d && b = 0 then op1 (fun x => .mset d x) a r else .error .field
  | 0x39 => if okS d && okM a && b = 0 then .ok (.mget d a, r) else .error .field
  | 0x40 => .ok (.addVv d a b, r)
  | 0x41 => opT (fun y => .addVs d a y) b r
  | 0x42 => .ok (.addcVv d a b, r)
  | 0x43 => opT (fun y => .addcVs d a y) b r
  | 0x44 => .ok (.subVv d a b, r)
  | 0x45 => opT (fun y => .subVs d a y) b r
  | 0x46 => .ok (.subbVv d a b, r)
  | 0x47 => opT (fun y => .subbVs d a y) b r
  | 0x48 => .ok (.mulVv d a b, r)
  | 0x49 => opT (fun y => .mulVs d a y) b r
  | 0x4A => .ok (.mulhVv d a b, r)
  | 0x4B => opT (fun y => .mulhVs d a y) b r
  | 0x4C => .ok (.madVv d a b, r)
  | 0x4D => opT (fun y => .madVs d a y) b r
  | 0x4E => .ok (.absdVv d a b, r)
  | 0x4F => opT (fun y => .absdVs d a y) b r
  | 0x50 => .ok (.minVv d a b, r)
  | 0x51 => opT (fun y => .minVs d a y) b r
  | 0x52 => .ok (.maxVv d a b, r)
  | 0x53 => opT (fun y => .maxVs d a y) b r
  | 0x54 => .ok (.andVv d a b, r)
  | 0x55 => opT (fun y => .andVs d a y) b r
  | 0x56 => .ok (.orVv d a b, r)
  | 0x57 => opT (fun y => .orVs d a y) b r
  | 0x58 => .ok (.xorVv d a b, r)
  | 0x59 => opT (fun y => .xorVs d a y) b r
  | 0x5A => .ok (.shlVv d a b, r)
  | 0x5B => opT (fun y => .shlVs d a y) b r
  | 0x5C => .ok (.shrVv d a b, r)
  | 0x5D => opT (fun y => .shrVs d a y) b r
  | 0x5E => .ok (.sarVv d a b, r)
  | 0x5F => opT (fun y => .sarVs d a y) b r
  | 0x60 => .ok (.bfeVv d a b, r)
  | 0x61 => opT (fun y => .bfeVs d a y) b r
  | 0x62 => .ok (.bfiVv d a b, r)
  | 0x63 => opT (fun y => .bfiVs d a y) b r
  | 0x64 => if b = 0 then .ok (.popcVv d a, r) else .error .field
  | 0x65 => if a = 0 then opT (fun y => .popcVs d y) b r else .error .field
  | 0x66 => if b = 0 then .ok (.clzVv d a, r) else .error .field
  | 0x67 => if a = 0 then opT (fun y => .clzVs d y) b r else .error .field
  | 0x68 => if b = 0 then .ok (.brevVv d a, r) else .error .field
  | 0x69 => if a = 0 then opT (fun y => .brevVs d y) b r else .error .field
  | 0x6A => .ok (.prmtVv d a b, r)
  | 0x6B => opT (fun y => .prmtVs d a y) b r
  | 0x6C => .ok (.selVv d a b, r)
  | 0x6D => opT (fun y => .selVs d a y) b r
  | 0x6E => .ok (.cmpVv d a b, r)
  | 0x6F => opT (fun y => .cmpVs d a y) b r
  | 0x70 => .ok (.cvtiVv d a b, r)
  | 0x71 => opT (fun y => .cvtiVs d a y) b r
  | 0x72 => if b = 0 then .ok (.movVv d a, r) else .error .field
  | 0x73 => if a = 0 then opT (fun y => .movVs d y) b r else .error .field
  | 0x74 => .ok (.dp4Vv d a b, r)
  | 0x75 => opT (fun y => .dp4Vs d a y) b r
  | 0x80 => .ok (.faddVv d a b, r)
  | 0x81 => opT (fun y => .faddVs d a y) b r
  | 0x82 => .ok (.fsubVv d a b, r)
  | 0x83 => opT (fun y => .fsubVs d a y) b r
  | 0x84 => .ok (.fmulVv d a b, r)
  | 0x85 => opT (fun y => .fmulVs d a y) b r
  | 0x86 => .ok (.ffmaVv d a b, r)
  | 0x87 => opT (fun y => .ffmaVs d a y) b r
  | 0x88 => .ok (.fminVv d a b, r)
  | 0x89 => opT (fun y => .fminVs d a y) b r
  | 0x8A => .ok (.fmaxVv d a b, r)
  | 0x8B => opT (fun y => .fmaxVs d a y) b r
  | 0x8C => .ok (.fminnmVv d a b, r)
  | 0x8D => opT (fun y => .fminnmVs d a y) b r
  | 0x8E => .ok (.fmaxnmVv d a b, r)
  | 0x8F => opT (fun y => .fmaxnmVs d a y) b r
  | 0x90 => .ok (.fcmpVv d a b, r)
  | 0x91 => opT (fun y => .fcmpVs d a y) b r
  | 0x92 => .ok (.fclassVv d a b, r)
  | 0x93 => opT (fun y => .fclassVs d a y) b r
  | 0x94 => .ok (.fscaleVv d a b, r)
  | 0x95 => opT (fun y => .fscaleVs d a y) b r
  | 0x96 => if b = 0 then .ok (.fgetxVv d a, r) else .error .field
  | 0x97 => if a = 0 then opT (fun y => .fgetxVs d y) b r else .error .field
  | 0x98 => if b = 0 then .ok (.frndVv d a, r) else .error .field
  | 0x99 => if a = 0 then opT (fun y => .frndVs d y) b r else .error .field
  | 0x9A => .ok (.ftoiVv d a b, r)
  | 0x9B => opT (fun y => .ftoiVs d a y) b r
  | 0x9C => .ok (.itofVv d a b, r)
  | 0x9D => opT (fun y => .itofVs d a y) b r
  | 0x9E => .ok (.fcvtVv d a b, r)
  | 0x9F => opT (fun y => .fcvtVs d a y) b r
  | 0xA0 => .ok (.fpackVv d a b, r)
  | 0xA1 => opT (fun y => .fpackVs d a y) b r
  | 0xA2 => .ok (.funpackVv d a b, r)
  | 0xA3 => opT (fun y => .funpackVs d a y) b r
  | 0xA4 => .ok (.fdot2Vv d a b, r)
  | 0xA5 => opT (fun y => .fdot2Vs d a y) b r
  | 0xA8 => if b = 0 then .ok (.rcp d a, r) else .error .field
  | 0xA9 => if b = 0 then .ok (.rsq d a, r) else .error .field
  | 0xAA => if b = 0 then .ok (.sqrt d a, r) else .error .field
  | 0xAB => if b = 0 then .ok (.exp2 d a, r) else .error .field
  | 0xAC => if b = 0 then .ok (.log2 d a, r) else .error .field
  | 0xAD => if b = 0 then .ok (.sinpi d a, r) else .error .field
  | 0xAE => if b = 0 then .ok (.cospi d a, r) else .error .field
  | 0xAF => if b = 0 then .ok (.tanh d a, r) else .error .field
  | 0xB0 => .ok (.shfl d a b, r)
  | 0xB1 => opT (fun y => .shflup d a y) b r
  | 0xB2 => opT (fun y => .shfldn d a y) b r
  | 0xB3 => opT (fun y => .shflx d a y) b r
  | 0xB4 => if okS d && okM a && decide (b < 3) then .ok (.vote d a b, r) else .error .field
  | 0xB5 => if okM d then opT (fun y => .ballot d a y) b r else .error .field
  | 0xB6 => if b < 6 then .ok (.redlane d a b, r) else .error .field
  | 0xB7 => opT (fun y => .xswap d a y) b r
  | 0xB8 => addr (fun f => .ld d f) a b r
  | 0xB9 => addr (fun f => .st d f) a b r
  | 0xBA => op1 (fun y => .lds d a y) b r
  | 0xBB => op1 (fun y => .sts d a y) b r
  | 0xBC => if d < 3 then addr (fun f => .pref d f) a b r else .error .field
  | 0xBD => addr (fun f => .ldrsv d f) a b r
  | 0xBE => addr (fun f => .stcnd d f) a b r
  | 0xBF => if d = 0 then (zero3 .cctlCinv a b r) else if d = 1 then (if okP a then op1 (fun y => .cctlEvl1 a y) b r else .error .field) else if d = 2 then (if okP a then op1 (fun y => .cctlWbl2 a y) b r else .error .field) else if d = 3 then (zero3 .cctlEvl1all a b r) else .error .field
  | 0xC0 => if d = 0 then (if okP a then op1 (fun y => .icinv a y) b r else .error .field) else .error .field
  | 0xC1 => ext false r fun x r => addr (fun f => .atom d f x) a b r
  | 0xC2 => if okS d && okP a then ext true r fun x r => op1 (fun y => .atoms d a y x) b r else .error .field
  | 0xC3 => if d = 0 then ext false r fun x r => addr (fun f => .red f x) a b r else .error .field
  | 0xC8 => if d = 0 then (if b = 0 then op1 .bar a r else .error .field) else .error .field
  | 0xC9 => if d = 0 then (if b = 0 then op1 .bara a r else .error .field) else .error .field
  | 0xCA => if d = 0 then (op2 .abinit a b r) else .error .field
  | 0xCB => sAlu2 .abarr d a b r
  | 0xCC => if d = 0 then (op2 .abwait a b r) else .error .field
  | 0xCD => if decide (1 ≤ d) && decide (d ≤ 4) && decide (a < 7) && b = 0 then .ok (.fence d a, r) else .error .field
  | 0xCE => if d < 6 && b = 0 then .ok (.waitc d a, r) else .error .field
  | 0xCF => op2 (fun x y => .qinit d x y) a b r
  | 0xD0 => if d = 0 then (op2 .qpush a b r) else .error .field
  | 0xD1 => if b = 0 then sAlu1 .qpop d a r else .error .field
  | 0xD2 => sAlu2 .qtrypush d a b r
  | 0xD3 => if okP d && b = 0 then op1 (fun x => .qtrypop d x) a r else .error .field
  | 0xD4 => if okM d && a = 0 then op1 (fun y => .gset d y) b r else .error .field
  | 0xD5 => if okM d && a = 0 && b = 0 then .ok (.gclr d, r) else .error .field
  | 0xD8 => copyWord .cpld d a b r
  | 0xD9 => copyWord .cpst d a b r
  | 0xDA => copyWord .cpmc d a b r
  | 0xDB => copyWord .cpga d a b r
  | 0xDC => copyWord .cpsc d a b r
  | 0xDD => copyWord .cpfl d a b r
  | 0xDE => copyWord .cprm d a b r
  | 0xDF => copyWord .cppf d a b r
  | 0xE0 => if d < 192 then .ok (.mma (d / 32) (d / 16 % 2 == 1) (d % 16) a b, r) else .error .field
  | 0xE1 => if d < 192 then .ok (.mmax (d / 32) (d / 16 % 2 == 1) (d % 16) a b, r) else .error .field
  | 0xE2 => if okM d then op2 (fun x y => .mrel d x y) a b r else .error .field
  | 0xE3 => if okS a then opT (fun y => .tld d a y) b r else .error .field
  | 0xE4 => if okS a then opT (fun y => .tst d a y) b r else .error .field
  | 0xE5 => if okM d && a = 0 && b = 0 then .ok (.tzero d, r) else .error .field
  | 0xE8 => if okS d && decide (a % 4 = 0) && okS a && decide (16 ≤ b) && decide (b < 224) then .ok (.recruit d a (b / 16) (b / 2 % 8) (b % 2 == 1), r) else .error .field
  | 0xE9 => if a < 14 && b = 0 then .ok (.hidx d a, r) else .error .field
  | 0xEA => if b = 0 then .ok (.hrd d a, r) else .error .field
  | 0xEB => if d = 0 && b = 0 then .ok (.hred a, r) else .error .field
  | 0xEC => if d = 0 then zero3 .hend a b r else .error .field
  | 0xED => if okS a && b = 0 then .ok (.hjoin d a, r) else .error .field
  | 0xEE => if d = 0 then zero3 .dismiss a b r else .error .field
  | 0xF0 => if okColl (d / 64) (d / 32 % 2 == 1) (d / 16 % 2 == 1) (d % 16) && okB8 a && b = 0 then .ok (.coll (d / 64) (d / 32 % 2 == 1) (d / 16 % 2 == 1) (d % 16) a, r) else .error .field
  | 0xF1 => if b = 0 then sAlu1 .collq d a r else .error .field
  | 0xF2 => if okS d && okB8 a then op1 (fun y => .cmbcfg d a y) b r else .error .field
  | 0xF3 => op1 (fun y => .cmbdisp d a y) b r
  | 0xF4 => op1 (fun y => .cmbput d a y) b r
  | 0xF5 => sAlu2 .cmbwait d a b r
  | 0xF6 => sAlu2 .cmbq d a b r
  | 0xF7 => if okS d && a = 0 then op1 (fun y => .cmbdrain d y) b r else .error .field
  | 0xF8 => if d = 0 then (if a = 0 then op1 .trap b r else .error .field) else if d = 1 then (if a = 0 then op1 .brk b r else .error .field) else .error .field
  | 0xF9 => if okS d && okSrd a && (!sys64 a || okP d) && b = 0 then .ok (.srd d a, r) else .error .field
  | 0xFA => if b = 0 then swrWord d a r else .error .field
  | 0xFB => if d = 0 then (zero3 .sret a b r) else if d = 1 then (if okP a then op1 (fun y => .tlbinv a y) b r else .error .field) else if d = 2 then (if okP a && okP b then .ok (.ptwr a b, r) else .error .field) else .error .field
  | 0xFC => if okS d && okP a && okP b then .ok (.launch d a b, r) else .error .field
  | 0xFD => sPair .join d a b r
  | 0xFE => if d = 0 then (if okP a then op1 (fun y => .snap a y) b r else .error .field) else if d = 1 then (if okS a then op1 (fun y => .snapq a y) b r else .error .field) else .error .field
  | _ => .error .unassigned

/-- The instruction a list of words begins with, and the words after it. -/
def decode : List Word → Decoded
  | [] => .error .empty
  | w :: r =>
    decodeFields (w.toNat / 16777216) (w.toNat / 65536 % 256) (w.toNat / 256 % 256) (w.toNat % 256) r

/-- The code of a scalar-operand field (R68). -/
def SOp.code : SOp → Nat
  | .reg n => n
  | .const c => if c < 0 then (c + 0xF0).toNat else (c + 0xA0).toNat
  | .fconst k => 0xF0 + k
  | .laneid => 0xFE
  | .lit _ => 0xFF

/-- The literal word of a scalar-operand field, if it takes one (R70). -/
def SOp.lits : SOp → List Word
  | .lit w => [w]
  | _ => []

/-- Field A of an address form (R187). -/
def AddrForm.aCode : AddrForm → Nat
  | .base a _ => a
  | .vec _ => 0xFE

/-- Field B of an address form (R187). -/
def AddrForm.bCode : AddrForm → Nat
  | .base _ b => b
  | .vec b => b

/-- An instruction word from its four fields (R66). -/
def enc (op d a b : Nat) : Word := word (op * 16777216 + d * 65536 + a * 256 + b)

/-- The extension word of R235. -/
def Ext.enc (x : Ext) : Word :=
  word (x.v * 16777216 + x.c * 65536 + x.op * 4096 + x.ord * 512 + x.scope * 64)

/-- The words of a well-formed instruction; none for a row that no word encodes. -/
def encode : Instr → Option (List Word)
  | .smov d a => some (enc 0x01 d a.code 0 :: (a.lits))
  | .sadd d a b => some (enc 0x02 d a.code b.code :: (a.lits ++ b.lits))
  | .ssub d a b => some (enc 0x03 d a.code b.code :: (a.lits ++ b.lits))
  | .smul d a b => some (enc 0x04 d a.code b.code :: (a.lits ++ b.lits))
  | .smulh d a b => some (enc 0x05 d a.code b.code :: (a.lits ++ b.lits))
  | .sand d a b => some (enc 0x06 d a.code b.code :: (a.lits ++ b.lits))
  | .sor d a b => some (enc 0x07 d a.code b.code :: (a.lits ++ b.lits))
  | .sxor d a b => some (enc 0x08 d a.code b.code :: (a.lits ++ b.lits))
  | .sshl d a b => some (enc 0x09 d a.code b.code :: (a.lits ++ b.lits))
  | .sshr d a b => some (enc 0x0A d a.code b.code :: (a.lits ++ b.lits))
  | .ssar d a b => some (enc 0x0B d a.code b.code :: (a.lits ++ b.lits))
  | .smin d a b => some (enc 0x0C d a.code b.code :: (a.lits ++ b.lits))
  | .smax d a b => some (enc 0x0D d a.code b.code :: (a.lits ++ b.lits))
  | .scmp d a b => some (enc 0x0E d a.code b.code :: (a.lits ++ b.lits))
  | .ssel d a b => some (enc 0x0F d a.code b.code :: (a.lits ++ b.lits))
  | .sbfe d a b => some (enc 0x10 d a.code b.code :: (a.lits ++ b.lits))
  | .sbfi d a b => some (enc 0x11 d a.code b.code :: (a.lits ++ b.lits))
  | .spopc d a => some (enc 0x12 d a.code 0 :: (a.lits))
  | .sclz d a => some (enc 0x13 d a.code 0 :: (a.lits))
  | .saddp d a b => some (enc 0x14 d a b.code :: (b.lits))
  | .sld d a b => some (enc 0x15 d a b.code :: (b.lits))
  | .sst d a b => some (enc 0x16 d a b.code :: (b.lits))
  | .ldc d a b => some (enc 0x17 d a b.code :: (b.lits))
  | .getid d sel => some (enc 0x18 d (0xA0 + sel) 0 :: [])
  | .bra o => some (enc 0x20 (o / 65536) (o / 256 % 256) (o % 256) :: [])
  | .brc nz a b => some (enc 0x21 nz.toNat a.code b.code :: (a.lits ++ b.lits))
  | .brzm m b => some (enc 0x22 0 m b.code :: (b.lits))
  | .brnzm m b => some (enc 0x23 0 m b.code :: (b.lits))
  | .jmp a b => some (enc 0x24 0 a b.code :: (b.lits))
  | .call d b => some (enc 0x25 d 0 b.code :: (b.lits))
  | .ret a => some (enc 0x26 0 a 0 :: [])
  | .exit => some (enc 0x27 0 0 0 :: [])
  | .nop => some (enc 0x28 0 0 0 :: [])
  | .mode mode => some (enc 0x29 (mode / 256) (mode % 256) 0 :: [])
  | .part => some (enc 0x2A 0 0 0 :: [])
  | .regang => some (enc 0x2B 0 0 0 :: [])
  | .yield => some (enc 0x2C 0 0 0 :: [])
  | .waitw nz a b => some (enc 0x2D nz.toNat a.code b.code :: (a.lits ++ b.lits))
  | .fork => some (enc 0x2E 0 0 0 :: [])
  | .rend r => some (enc 0x2F r.toNat 0 0 :: [])
  | .mand d a b => some (enc 0x30 d a b :: [])
  | .mor d a b => some (enc 0x31 d a b :: [])
  | .mxor d a b => some (enc 0x32 d a b :: [])
  | .mandn d a b => some (enc 0x33 d a b :: [])
  | .mnot d a => some (enc 0x34 d a 0 :: [])
  | .mmov d a => some (enc 0x35 d a 0 :: [])
  | .mpopc d a => some (enc 0x36 d a 0 :: [])
  | .mffs d a => some (enc 0x37 d a 0 :: [])
  | .mset d a => some (enc 0x38 d a.code 0 :: (a.lits))
  | .mget d a => some (enc 0x39 d a 0 :: [])
  | .addVv d a b => some (enc 0x40 d a b :: [])
  | .addVs d a b => some (enc 0x41 d a b.code :: (b.lits))
  | .addcVv d a b => some (enc 0x42 d a b :: [])
  | .addcVs d a b => some (enc 0x43 d a b.code :: (b.lits))
  | .subVv d a b => some (enc 0x44 d a b :: [])
  | .subVs d a b => some (enc 0x45 d a b.code :: (b.lits))
  | .subbVv d a b => some (enc 0x46 d a b :: [])
  | .subbVs d a b => some (enc 0x47 d a b.code :: (b.lits))
  | .mulVv d a b => some (enc 0x48 d a b :: [])
  | .mulVs d a b => some (enc 0x49 d a b.code :: (b.lits))
  | .mulhVv d a b => some (enc 0x4A d a b :: [])
  | .mulhVs d a b => some (enc 0x4B d a b.code :: (b.lits))
  | .madVv d a b => some (enc 0x4C d a b :: [])
  | .madVs d a b => some (enc 0x4D d a b.code :: (b.lits))
  | .absdVv d a b => some (enc 0x4E d a b :: [])
  | .absdVs d a b => some (enc 0x4F d a b.code :: (b.lits))
  | .minVv d a b => some (enc 0x50 d a b :: [])
  | .minVs d a b => some (enc 0x51 d a b.code :: (b.lits))
  | .maxVv d a b => some (enc 0x52 d a b :: [])
  | .maxVs d a b => some (enc 0x53 d a b.code :: (b.lits))
  | .andVv d a b => some (enc 0x54 d a b :: [])
  | .andVs d a b => some (enc 0x55 d a b.code :: (b.lits))
  | .orVv d a b => some (enc 0x56 d a b :: [])
  | .orVs d a b => some (enc 0x57 d a b.code :: (b.lits))
  | .xorVv d a b => some (enc 0x58 d a b :: [])
  | .xorVs d a b => some (enc 0x59 d a b.code :: (b.lits))
  | .shlVv d a b => some (enc 0x5A d a b :: [])
  | .shlVs d a b => some (enc 0x5B d a b.code :: (b.lits))
  | .shrVv d a b => some (enc 0x5C d a b :: [])
  | .shrVs d a b => some (enc 0x5D d a b.code :: (b.lits))
  | .sarVv d a b => some (enc 0x5E d a b :: [])
  | .sarVs d a b => some (enc 0x5F d a b.code :: (b.lits))
  | .bfeVv d a b => some (enc 0x60 d a b :: [])
  | .bfeVs d a b => some (enc 0x61 d a b.code :: (b.lits))
  | .bfiVv d a b => some (enc 0x62 d a b :: [])
  | .bfiVs d a b => some (enc 0x63 d a b.code :: (b.lits))
  | .popcVv d a => some (enc 0x64 d a 0 :: [])
  | .popcVs d b => some (enc 0x65 d 0 b.code :: (b.lits))
  | .clzVv d a => some (enc 0x66 d a 0 :: [])
  | .clzVs d b => some (enc 0x67 d 0 b.code :: (b.lits))
  | .brevVv d a => some (enc 0x68 d a 0 :: [])
  | .brevVs d b => some (enc 0x69 d 0 b.code :: (b.lits))
  | .prmtVv d a b => some (enc 0x6A d a b :: [])
  | .prmtVs d a b => some (enc 0x6B d a b.code :: (b.lits))
  | .selVv d a b => some (enc 0x6C d a b :: [])
  | .selVs d a b => some (enc 0x6D d a b.code :: (b.lits))
  | .cmpVv d a b => some (enc 0x6E d a b :: [])
  | .cmpVs d a b => some (enc 0x6F d a b.code :: (b.lits))
  | .cvtiVv d a b => some (enc 0x70 d a b :: [])
  | .cvtiVs d a b => some (enc 0x71 d a b.code :: (b.lits))
  | .movVv d a => some (enc 0x72 d a 0 :: [])
  | .movVs d b => some (enc 0x73 d 0 b.code :: (b.lits))
  | .dp4Vv d a b => some (enc 0x74 d a b :: [])
  | .dp4Vs d a b => some (enc 0x75 d a b.code :: (b.lits))
  | .faddVv d a b => some (enc 0x80 d a b :: [])
  | .faddVs d a b => some (enc 0x81 d a b.code :: (b.lits))
  | .fsubVv d a b => some (enc 0x82 d a b :: [])
  | .fsubVs d a b => some (enc 0x83 d a b.code :: (b.lits))
  | .fmulVv d a b => some (enc 0x84 d a b :: [])
  | .fmulVs d a b => some (enc 0x85 d a b.code :: (b.lits))
  | .ffmaVv d a b => some (enc 0x86 d a b :: [])
  | .ffmaVs d a b => some (enc 0x87 d a b.code :: (b.lits))
  | .fminVv d a b => some (enc 0x88 d a b :: [])
  | .fminVs d a b => some (enc 0x89 d a b.code :: (b.lits))
  | .fmaxVv d a b => some (enc 0x8A d a b :: [])
  | .fmaxVs d a b => some (enc 0x8B d a b.code :: (b.lits))
  | .fminnmVv d a b => some (enc 0x8C d a b :: [])
  | .fminnmVs d a b => some (enc 0x8D d a b.code :: (b.lits))
  | .fmaxnmVv d a b => some (enc 0x8E d a b :: [])
  | .fmaxnmVs d a b => some (enc 0x8F d a b.code :: (b.lits))
  | .fcmpVv d a b => some (enc 0x90 d a b :: [])
  | .fcmpVs d a b => some (enc 0x91 d a b.code :: (b.lits))
  | .fclassVv d a b => some (enc 0x92 d a b :: [])
  | .fclassVs d a b => some (enc 0x93 d a b.code :: (b.lits))
  | .fscaleVv d a b => some (enc 0x94 d a b :: [])
  | .fscaleVs d a b => some (enc 0x95 d a b.code :: (b.lits))
  | .fgetxVv d a => some (enc 0x96 d a 0 :: [])
  | .fgetxVs d b => some (enc 0x97 d 0 b.code :: (b.lits))
  | .frndVv d a => some (enc 0x98 d a 0 :: [])
  | .frndVs d b => some (enc 0x99 d 0 b.code :: (b.lits))
  | .ftoiVv d a b => some (enc 0x9A d a b :: [])
  | .ftoiVs d a b => some (enc 0x9B d a b.code :: (b.lits))
  | .itofVv d a b => some (enc 0x9C d a b :: [])
  | .itofVs d a b => some (enc 0x9D d a b.code :: (b.lits))
  | .fcvtVv d a b => some (enc 0x9E d a b :: [])
  | .fcvtVs d a b => some (enc 0x9F d a b.code :: (b.lits))
  | .fpackVv d a b => some (enc 0xA0 d a b :: [])
  | .fpackVs d a b => some (enc 0xA1 d a b.code :: (b.lits))
  | .funpackVv d a b => some (enc 0xA2 d a b :: [])
  | .funpackVs d a b => some (enc 0xA3 d a b.code :: (b.lits))
  | .fdot2Vv d a b => some (enc 0xA4 d a b :: [])
  | .fdot2Vs d a b => some (enc 0xA5 d a b.code :: (b.lits))
  | .rcp d a => some (enc 0xA8 d a 0 :: [])
  | .rsq d a => some (enc 0xA9 d a 0 :: [])
  | .sqrt d a => some (enc 0xAA d a 0 :: [])
  | .exp2 d a => some (enc 0xAB d a 0 :: [])
  | .log2 d a => some (enc 0xAC d a 0 :: [])
  | .sinpi d a => some (enc 0xAD d a 0 :: [])
  | .cospi d a => some (enc 0xAE d a 0 :: [])
  | .tanh d a => some (enc 0xAF d a 0 :: [])
  | .shfl d a b => some (enc 0xB0 d a b :: [])
  | .shflup d a b => some (enc 0xB1 d a b.code :: (b.lits))
  | .shfldn d a b => some (enc 0xB2 d a b.code :: (b.lits))
  | .shflx d a b => some (enc 0xB3 d a b.code :: (b.lits))
  | .vote d a k => some (enc 0xB4 d a k :: [])
  | .ballot d a b => some (enc 0xB5 d a b.code :: (b.lits))
  | .redlane d a k => some (enc 0xB6 d a k :: [])
  | .xswap d a b => some (enc 0xB7 d a b.code :: (b.lits))
  | .ld d f => some (enc 0xB8 d f.aCode f.bCode :: [])
  | .st d f => some (enc 0xB9 d f.aCode f.bCode :: [])
  | .lds d a b => some (enc 0xBA d a b.code :: (b.lits))
  | .sts d a b => some (enc 0xBB d a b.code :: (b.lits))
  | .pref d f => some (enc 0xBC d f.aCode f.bCode :: [])
  | .ldrsv d f => some (enc 0xBD d f.aCode f.bCode :: [])
  | .stcnd d f => some (enc 0xBE d f.aCode f.bCode :: [])
  | .cctlCinv => some (enc 0xBF 0 0 0 :: [])
  | .cctlEvl1 a b => some (enc 0xBF 1 a b.code :: (b.lits))
  | .cctlWbl2 a b => some (enc 0xBF 2 a b.code :: (b.lits))
  | .cctlEvl1all => some (enc 0xBF 3 0 0 :: [])
  | .icinv a b => some (enc 0xC0 0 a b.code :: (b.lits))
  | .atom d f x => some (enc 0xC1 d f.aCode f.bCode :: ([x.enc]))
  | .atoms d a b x => some (enc 0xC2 d a b.code :: (x.enc :: b.lits))
  | .red f x => some (enc 0xC3 0 f.aCode f.bCode :: ([x.enc]))
  | .bar a => some (enc 0xC8 0 a.code 0 :: (a.lits))
  | .bara a => some (enc 0xC9 0 a.code 0 :: (a.lits))
  | .abinit a b => some (enc 0xCA 0 a.code b.code :: (a.lits ++ b.lits))
  | .abarr d a b => some (enc 0xCB d a.code b.code :: (a.lits ++ b.lits))
  | .abwait a b => some (enc 0xCC 0 a.code b.code :: (a.lits ++ b.lits))
  | .fence o c => some (enc 0xCD o c 0 :: [])
  | .waitc c n => some (enc 0xCE c n 0 :: [])
  | .qinit e a b => some (enc 0xCF e a.code b.code :: (a.lits ++ b.lits))
  | .qpush a b => some (enc 0xD0 0 a.code b.code :: (a.lits ++ b.lits))
  | .qpop d a => some (enc 0xD1 d a.code 0 :: (a.lits))
  | .qtrypush d a b => some (enc 0xD2 d a.code b.code :: (a.lits ++ b.lits))
  | .qtrypop d a => some (enc 0xD3 d a.code 0 :: (a.lits))
  | .gset n b => some (enc 0xD4 n 0 b.code :: (b.lits))
  | .gclr n => some (enc 0xD5 n 0 0 :: [])
  | .cpld ks g p a b => some (enc 0xD8 (ks * 16 + g.toNat * 8 + p.toNat * 4) a b.code :: (b.lits))
  | .cpst ks g p a b => some (enc 0xD9 (ks * 16 + g.toNat * 8 + p.toNat * 4) a b.code :: (b.lits))
  | .cpmc ks g p a b => some (enc 0xDA (ks * 16 + g.toNat * 8 + p.toNat * 4) a b.code :: (b.lits))
  | .cpga ks g p a b => some (enc 0xDB (ks * 16 + g.toNat * 8 + p.toNat * 4) a b.code :: (b.lits))
  | .cpsc ks g p a b => some (enc 0xDC (ks * 16 + g.toNat * 8 + p.toNat * 4) a b.code :: (b.lits))
  | .cpfl ks g p a b => some (enc 0xDD (ks * 16 + g.toNat * 8 + p.toNat * 4) a b.code :: (b.lits))
  | .cprm ks g p a b => some (enc 0xDE (ks * 16 + g.toNat * 8 + p.toNat * 4) a b.code :: (b.lits))
  | .cppf ks g p a b => some (enc 0xDF (ks * 16 + g.toNat * 8 + p.toNat * 4) a b.code :: (b.lits))
  | .mma bt za t a b => some (enc 0xE0 (bt * 32 + za.toNat * 16 + t) a b :: [])
  | .mmax bt za t a b => some (enc 0xE1 (bt * 32 + za.toNat * 16 + t) a b :: [])
  | .mrel t a h => some (enc 0xE2 t a.code h.code :: (a.lits ++ h.lits))
  | .tld d a b => some (enc 0xE3 d a b.code :: (b.lits))
  | .tst d a b => some (enc 0xE4 d a b.code :: (b.lits))
  | .tzero t => some (enc 0xE5 t 0 0 :: [])
  | .recruit d a md ask rk => some (enc 0xE8 d a (md * 16 + ask * 2 + rk.toNat) :: [])
  | .hidx d m => some (enc 0xE9 d m 0 :: [])
  | .hrd d n => some (enc 0xEA d n 0 :: [])
  | .hred a => some (enc 0xEB 0 a 0 :: [])
  | .hend => some (enc 0xEC 0 0 0 :: [])
  | .hjoin d e => some (enc 0xED d e 0 :: [])
  | .dismiss => some (enc 0xEE 0 0 0 :: [])
  | .coll fm ts op t a => some (enc 0xF0 (fm * 64 + ts.toNat * 32 + op.toNat * 16 + t) a 0 :: [])
  | .collq d a => some (enc 0xF1 d a.code 0 :: (a.lits))
  | .cmbcfg d a b => some (enc 0xF2 d a b.code :: (b.lits))
  | .cmbdisp d a b => some (enc 0xF3 d a b.code :: (b.lits))
  | .cmbput t v b => some (enc 0xF4 t v b.code :: (b.lits))
  | .cmbwait d a b => some (enc 0xF5 d a.code b.code :: (a.lits ++ b.lits))
  | .cmbq d a b => some (enc 0xF6 d a.code b.code :: (a.lits ++ b.lits))
  | .cmbdrain d b => some (enc 0xF7 d 0 b.code :: (b.lits))
  | .trap b => some (enc 0xF8 0 0 b.code :: (b.lits))
  | .brk b => some (enc 0xF8 1 0 b.code :: (b.lits))
  | .srd d n => some (enc 0xF9 d n 0 :: [])
  | .swr n a => some (enc 0xFA n a.code 0 :: (a.lits))
  | .sret => some (enc 0xFB 0 0 0 :: [])
  | .tlbinv a b => some (enc 0xFB 1 a b.code :: (b.lits))
  | .ptwr a b => some (enc 0xFB 2 a b :: [])
  | .launch d a b => some (enc 0xFC d a b :: [])
  | .join d a b => some (enc 0xFD d a b.code :: (b.lits))
  | .snap a b => some (enc 0xFE 0 a b.code :: (b.lits))
  | .snapq a b => some (enc 0xFE 1 a b.code :: (b.lits))
  | .clauseStart _ _ => none
  | .flagOpComplete _ _ => none
  | .storeDrain _ => none
  | .remoteReply _ _ => none
  | .remoteRequest _ => none
  | .remoteTimeout _ => none
  | .hostTimeout _ => none
  | .hostMemAccess _ _ _ => none
  | .parkDelayExpiry _ => none
  | .parkSaveComplete _ => none
  | .warpRestore _ => none
  | .warpActivate _ => none
  | .agePromotion _ => none
  | .reservationExpire _ _ => none
  | .deferredTrap _ _ => none
  | .handlerEntry _ => none
  | .kernelFault _ => none
  | .monitorFreeze _ _ _ => none
  | .freezeSignal _ _ _ => none
  | .recordTake _ _ => none
  | .queueWake _ _ => none
  | .queueRecheck _ _ => none
  | .treeReread _ => none
  | .blockPlace _ => none
  | .splitAdopt _ => none
  | .blockEnd _ => none
  | .blockSuspend _ => none
  | .preemptDeadline _ => none
  | .contextBoundary _ => none
  | .queueStepServed _ _ => none
  | .barRelease _ _ => none
  | .abwaitRelease _ _ => none
  | .waitwRelease _ _ => none
  | .rendFire _ => none
  | .gangForm _ => none
  | .waitcSatisfied _ _ => none
  | .xswapPair _ => none
  | .mrelPush _ => none
  | .mmaStart _ => none
  | .mmaComplete _ => none
  | .mmaReplay _ => none
  | .copyStart _ => none
  | .copyComplete _ => none
  | .pushOnLand _ => none
  | .meterPeriod _ _ _ => none
  | .pageWalk _ _ _ => none
  | .pageMigration _ => none
  | .copyOnWrite _ => none
  | .linkTrainDone _ _ => none
  | .linkDrop _ _ => none
  | .planeNotice _ => none
  | .planeChangeApply => none
  | .collUnitStart _ => none
  | .collUnitStep _ => none
  | .collRetry _ _ _ _ => none
  | .collAbort _ _ _ => none
  | .collComplete _ => none
  | .cmbDispatchArrive _ => none
  | .cmbPutArrive _ => none
  | .cmbRowBytes _ _ _ _ => none
  | .cmbCancel _ => none
  | .cmbSlotGrant _ => none
  | .cmbSlotTimeout _ _ _ => none
  | .cmbRelease _ _ _ => none
  | .helperForcedRelease _ => none
  | .canaryArrive _ _ _ _ => none
  | .localCut => none
  | .drainWrite _ => none
  | .pageRetire _ => none
  | .snapcmdRollback _ => none
  | .snapcmdAbort => none
  | .snapcmdInvalid _ => none
  | .snapringWrite _ => none
  | .slcfgApply _ _ => none
  | .preqGo _ _ => none
  | .planeenWrite _ _ => none
  | .clkctlWrite _ _ => none
  | .plimWrite _ => none
  | .contextValidSet _ => none
  | .contextValidClear _ => none
  | .registerWrite _ _ _ => none
  | .deviceReset _ => none
  | .enterFullService => none
  | .mailboxImage _ _ => none
  | .mailboxAttest _ => none
  | .mailboxRaiseSvn _ => none
  | .powerInterval => none
  | .thermalCap => none
  | .thermalEmergency => none
  | .thermalTrip => none
  | .thermalRecover _ => none
  | .unitFence _ _ _ => none
  | .unassignedOpcode _ => none
  | .eccError _ _ _ => none
  | .hostSnoop _ _ _ => none
  | .remoteAck _ _ => none
  | .badPacket _ => none
  | .undeliverableReport _ => none
  | .keyInstall => none

/-- The rows that no word encodes: the part's own steps. -/
def Instr.isEvent : Instr → Bool
  | .clauseStart _ _ => true
  | .flagOpComplete _ _ => true
  | .storeDrain _ => true
  | .remoteReply _ _ => true
  | .remoteRequest _ => true
  | .remoteTimeout _ => true
  | .hostTimeout _ => true
  | .hostMemAccess _ _ _ => true
  | .parkDelayExpiry _ => true
  | .parkSaveComplete _ => true
  | .warpRestore _ => true
  | .warpActivate _ => true
  | .agePromotion _ => true
  | .reservationExpire _ _ => true
  | .deferredTrap _ _ => true
  | .handlerEntry _ => true
  | .kernelFault _ => true
  | .monitorFreeze _ _ _ => true
  | .freezeSignal _ _ _ => true
  | .recordTake _ _ => true
  | .queueWake _ _ => true
  | .queueRecheck _ _ => true
  | .treeReread _ => true
  | .blockPlace _ => true
  | .splitAdopt _ => true
  | .blockEnd _ => true
  | .blockSuspend _ => true
  | .preemptDeadline _ => true
  | .contextBoundary _ => true
  | .queueStepServed _ _ => true
  | .barRelease _ _ => true
  | .abwaitRelease _ _ => true
  | .waitwRelease _ _ => true
  | .rendFire _ => true
  | .gangForm _ => true
  | .waitcSatisfied _ _ => true
  | .xswapPair _ => true
  | .mrelPush _ => true
  | .mmaStart _ => true
  | .mmaComplete _ => true
  | .mmaReplay _ => true
  | .copyStart _ => true
  | .copyComplete _ => true
  | .pushOnLand _ => true
  | .meterPeriod _ _ _ => true
  | .pageWalk _ _ _ => true
  | .pageMigration _ => true
  | .copyOnWrite _ => true
  | .linkTrainDone _ _ => true
  | .linkDrop _ _ => true
  | .planeNotice _ => true
  | .planeChangeApply => true
  | .collUnitStart _ => true
  | .collUnitStep _ => true
  | .collRetry _ _ _ _ => true
  | .collAbort _ _ _ => true
  | .collComplete _ => true
  | .cmbDispatchArrive _ => true
  | .cmbPutArrive _ => true
  | .cmbRowBytes _ _ _ _ => true
  | .cmbCancel _ => true
  | .cmbSlotGrant _ => true
  | .cmbSlotTimeout _ _ _ => true
  | .cmbRelease _ _ _ => true
  | .helperForcedRelease _ => true
  | .canaryArrive _ _ _ _ => true
  | .localCut => true
  | .drainWrite _ => true
  | .pageRetire _ => true
  | .snapcmdRollback _ => true
  | .snapcmdAbort => true
  | .snapcmdInvalid _ => true
  | .snapringWrite _ => true
  | .slcfgApply _ _ => true
  | .preqGo _ _ => true
  | .planeenWrite _ _ => true
  | .clkctlWrite _ _ => true
  | .plimWrite _ => true
  | .contextValidSet _ => true
  | .contextValidClear _ => true
  | .registerWrite _ _ _ => true
  | .deviceReset _ => true
  | .enterFullService => true
  | .mailboxImage _ _ => true
  | .mailboxAttest _ => true
  | .mailboxRaiseSvn _ => true
  | .powerInterval => true
  | .thermalCap => true
  | .thermalEmergency => true
  | .thermalTrip => true
  | .thermalRecover _ => true
  | .unitFence _ _ _ => true
  | .unassignedOpcode _ => true
  | .eccError _ _ _ => true
  | .hostSnoop _ _ _ => true
  | .remoteAck _ _ => true
  | .badPacket _ => true
  | .undeliverableReport _ => true
  | .keyInstall => true
  | _ => false

/-- The two scalar-operand fields (A, B) of an opcode, for counting literal words (R70); for 0xF8,
0xFB and 0xFE the sub-operation in D is part of the opcode (R77). -/
def operandFields (op d : Nat) : Bool × Bool :=
  if op = 0x01 || op = 0x12 || op = 0x13 || op = 0x38 || op = 0xC8 || op = 0xC9 || op = 0xD1
      || op = 0xD3 || op = 0xF1 || op = 0xFA then (true, false)
  else if (0x02 ≤ op && op ≤ 0x11) || op = 0x21 || op = 0x2D || op = 0xCA || op = 0xCB || op = 0xCC
      || op = 0xCF || op = 0xD0 || op = 0xD2 || op = 0xE2 || op = 0xF5 || op = 0xF6 then (true, true)
  else if (0x14 ≤ op && op ≤ 0x17) || (0x22 ≤ op && op ≤ 0x25)
      || (0x40 ≤ op && op ≤ 0x75 && op % 2 = 1) || (0x80 ≤ op && op ≤ 0xA5 && op % 2 = 1)
      || (0xB1 ≤ op && op ≤ 0xB3) || op = 0xB5 || op = 0xB7 || op = 0xBA || op = 0xBB
      || (op = 0xBF && (d = 1 || d = 2)) || op = 0xC0 || op = 0xC2 || op = 0xD4
      || (0xD8 ≤ op && op ≤ 0xDF && d / 4 % 2 = 1) || op = 0xE3 || op = 0xE4
      || (0xF2 ≤ op && op ≤ 0xF4) || op = 0xF7 || (op = 0xF8 && d < 2)
      || (op = 0xFB && d = 1) || op = 0xFD || (op = 0xFE && d < 2) then (false, true)
  else (false, false)

/-- How many words an instruction word stands for in its clause: itself, its extension word and its
literal words (R70, R71); an unassigned opcode counts one (R61). -/
def wordSpan (w : Word) : Nat :=
  let op := w.toNat / 16777216
  let f := operandFields op (w.toNat / 65536 % 256)
  1 + (if 0xC1 ≤ op && op ≤ 0xC3 then 1 else 0)
    + (if f.1 && decide (w.toNat / 256 % 256 = 0xFF) then 1 else 0)
    + (if f.2 && decide (w.toNat % 256 = 0xFF) then 1 else 0)

/-- The clause-ending instructions (R63). -/
def clauseEnding (w : Word) : Bool :=
  let op := w.toNat / 16777216
  let d := w.toNat / 65536 % 256
  (0x20 ≤ op && op ≤ 0x27) || (0x2A ≤ op && op ≤ 0x2F) || (op = 0xF8 && decide (d < 2))
    || (op = 0xFB && decide (d = 0))

/-- The decoder on an instruction whose bits are numbered as spec/opcode_table.json numbers them: its
words in order, the first least significant, and zero words after them for operand words the table
gives no bits. -/
def decodeTableWord (nbits w : Nat) : Option Instr :=
  match decode [word (w % 2 ^ nbits), word (w % 2 ^ nbits / 4294967296),
      word (w % 2 ^ nbits / 18446744073709551616), 0, 0] with
  | .ok (i, _) => some i
  | .error _ => none

end Sys2Proof
end

