-- ==== Sys2Proof/Machine/Bits.lean ====
section
/-! DEFINITION. Bit fields, sign extension and little-endian bytes (00_scope.md R1), on natural numbers. -/
namespace Sys2Proof.Machine

/-- The field x[hi:lo] (R1). -/
def bits (x hi lo : Nat) : Nat := x / 2 ^ lo % 2 ^ (hi + 1 - lo)

/-- The bit x[n]. -/
def bit (x n : Nat) : Bool := x / 2 ^ n % 2 == 1

/-- The signed value of the low w bits of x. -/
def signed (w x : Nat) : Int :=
  if x % 2 ^ w < 2 ^ (w - 1) then (x % 2 ^ w : Nat) else ((x % 2 ^ w : Nat) : Int) - 2 ^ w

/-- The w-bit two's-complement pattern of an integer: the integer modulo 2^w. -/
def pattern (w : Nat) (x : Int) : Nat := (x % (2 ^ w : Int)).toNat

/-- A 32-bit word sign-extended to 64 bits (R101). -/
def sext64 (x : Word) : DWord := x.signExtend 64

/-- The n bytes of x, lowest first (R1). -/
def leBytes : Nat → Nat → List Byte
  | 0, _ => []
  | n + 1, x => BitVec.ofNat 8 x :: leBytes n (x / 256)

/-- The number whose bytes are listed, lowest first (R1). -/
def ofBytes : List Byte → Nat
  | [] => 0
  | b :: t => b.toNat + 256 * ofBytes t

/-- A record built from its fields: (lowest bit, width, value). -/
def pack : List (Nat × Nat × Nat) → Nat
  | [] => 0
  | (lo, w, v) :: t => v % 2 ^ w * 2 ^ lo + pack t

/-- The numbers from lo to lo + n - 1. -/
def span : Nat → Nat → List Nat
  | _, 0 => []
  | lo, n + 1 => lo :: span (lo + 1) n

/-- The indices of the set bits of x below n, ascending. -/
def setBits (n x : Nat) : List Nat := (span 0 n).filter (bit x)

/-- A mask with the listed bits set. -/
def maskOf : List Nat → Nat
  | [] => 0
  | i :: t => maskOf t ||| 2 ^ i

/-- The lanes of the slices in a slice mask: four lanes per slice (R28). -/
def lanesOf (slices : Nat) : Nat :=
  (setBits 8 slices).foldl (fun a j => a + 15 * 2 ^ (4 * j)) 0

/-- The number of set bits of the low n bits. -/
def popcount (n x : Nat) : Nat := (setBits n x).length

/-- The number of leading zero bits of a w-bit pattern. -/
def clz (w x : Nat) : Nat := if x % 2 ^ w = 0 then w else w - 1 - (x % 2 ^ w).log2

/-- The index of the lowest set bit of the low n bits, or n if none is set. -/
def lowest (n x : Nat) : Nat := (setBits n x).headD n

/-- The least multiple of m that is at least x. -/
def roundUp (x m : Nat) : Nat := (x + m - 1) / m * m

end Sys2Proof.Machine
end

