-- ==== Sys2Proof/Config.lean ====
section
/-! DEFINITION. What is fixed for one device, and the free values: constants with no body, of which no
proof can know anything but that they are some value (the manual leaves them open). -/
namespace Sys2Proof.Config

/-- Dies, cores per die, clusters per die and L2 slices per die (01_machine.md R9, R10). -/
def dies : Nat := 2
def coresPerDie : Nat := 96
def clustersPerDie : Nat := 6
def slicesPerDie : Nat := 96

/-- Block positions per core (02 R35) and warps per block (02 R34). -/
def blocksPerCore : Nat := 8
def warpsPerBlock : Nat := 36

/-- Fabric ports, which are also the switch planes (01 R19). -/
def planes : Nat := 96

/-- The n-th free choice: an unconstrained number, used wherever the manual allows one of several
outcomes (R75 old or new register value, R201 old or new translation, R196 old or new code word). -/
opaque freeNat : Nat → Nat

/-- The n-th free 32-bit value: a value the manual leaves unstated. -/
opaque freeWord : Nat → Word

/-- The bits a special function gives for an operand, under FZ or not, where R173 fixes none
(R171: a fixed function of the operand's bits and FZ; R172 bounds it). The first argument is the
function's opcode. -/
opaque sfuBits : Nat → Word → Bool → Word

/-- Whether a value midway between the powers of two of codes n and n + 1 rounds to the larger, under rn
(R85 names the nearest power of two and no tie rule for powers of two). -/
opaque e8m0TieUp : Nat → Bool

/-- Vilvon's measured and predicted package power in watts at a sampling (R430), by the moment, for it changes with the load,
and for lists of cluster and slice frequencies: the manual gives no figures. -/
opaque packagePower : Nat → List Nat → List Nat → Nat

/-- The bytes of an attestation report for a nonce, a chip number, the fused security version, the digest of the image that
runs, from which the alias key is derived, and the fenced units (R426: kind, die, number): this device's serial number,
identity key, boot ROM and the report's form are not given. -/
opaque attestation : List Byte → Nat → Nat → Nat → List (Nat × Nat × Nat) → List Byte

/-- The byte layout of a combine image in a manifest (R411), which the manual leaves to the device, and its reading
at a rollback (R419). -/
opaque combineImage : List (List Nat) → List Byte
opaque combineFields : List Byte → List (List Nat)

/-- The byte layout of a logged request in a channel log (R413), which the manual leaves to the device, and the reading
of a log at a rollback (R419). -/
opaque channelLog : List Nat → List Byte
opaque channelRequests : List Byte → List (List Nat)

/-- VAULTG in a manifest's header (R415) where the two dies have different splits: the manual gives one field for
both. -/
opaque splitVaults : Nat → Nat → Nat

end Sys2Proof.Config
end

