-- ==== Sys2Proof/Machine/State.lean ====
section
/-! DEFINITION. The state of one FLN-9600 chip as plain data: every store the spec names, and the reset
state. Keys: core = 96 d + c; block = 8 core + position; warp = 36 block + warp number, which is the slot
of R178; a helper slice's context has the key helperBase + 8 slot + slice. -/
namespace Sys2Proof.Machine

/-- A sparse store: addresses strictly rising, no entry equal to the 0 that an unlisted address reads as. -/
abbrev Sparse (w : Nat) := List (Nat × BitVec w)

/-- The physical memory of the chip by chip-local address (R12): HBM, host window, vaults. -/
abbrev Memory := List Host.Cell

/-- Where the keys of helper contexts begin. -/
def helperBase : Nat := 1000000

/-- What a byte address counts in: chip-local physical memory, a block's shared memory, a warp's
register window (byte 128 r + 4 l + b), or another chip's memory. -/
inductive Space where
  | phys
  | shared (b : Nat)
  | reg (k : Nat)
  | remote (chip : Nat)
  deriving DecidableEq, Repr

/-- A slice's reservation (R242): the 64-byte granule and the count of R245. -/
structure Resv where
  sp : Space
  gran : Nat
  count : Nat
  deriving DecidableEq, Repr

/-- A trap as raised (R86, R388, R389): the fields its record needs, the extension areas as numbers
whose bits are those of the extension tables. -/
structure Trap where
  code : Nat
  addr : Nat := 0
  lmask : Nat := 0
  aux : Nat := 0
  first : Bool := false
  word : Nat := 0
  widx : Nat := 0
  tpc : Nat := 0
  slices : Nat := 0
  m0 : Nat := 0
  hm0 : Nat := 0
  replay : Bool := false
  copyOp : Bool := false
  xt : Nat := 0
  extk : Nat := 0
  ext : Nat := 0
  deriving DecidableEq, Repr

/-- What an issuing gang or slice waits for (R42, R46). `ok` is set once the condition has held, and `bad` is the trap code
that a waiting queue instruction raises (R278). `acks n`: the requests of the chip named before n are answered (R217, R230);
`full cls n`: the counter takes n operations more (R39); `replies a ids`: the answers to a clause's remote requests (R192),
the lowest at a; `swap`: the pending XSWAP completes (R150); `fired`: the rendezvous it waited for has fired (R125);
`copies`: a copy command of the core leaves (R261); `drain`: a fence's earlier accesses are over (R253); `quiet n`: what the
chip translated before the name n has reached its home (R202); `home pa`: a write of the warp to a place may act (R208);
`drained ctx buf`: a buffer's drain can go on (R372); `owning ids`: the ownership requests of an STCND (R356); `blocked`:
the word is tried again until what it needs is there, which is no long-latency stall. -/
inductive Wait where
  | push (off h seq : Nat) (bad : Nat)
  | pop (off d seq : Nat) (bad : Nat)
  | bar (off : Nat) (phase : Bool) (ok : Bool)
  | abar (off : Nat) (phase : Bool) (ok : Bool)
  | word (off : Nat) (eq : Bool) (val : Nat) (ok : Bool)
  | rend (refork : Bool)
  | fired
  | waitc (cls n : Nat)
  | combine (name : Nat) (ids : List Nat)
  | release (ctx buf lo hi out : Nat)
  | acks (n : Nat)
  | hjoin (d e : Nat)
  | escalated (va pa : Nat) (ok : Bool)
  | full (cls n : Nat)
  | returned
  | replies (addr : Nat) (ids : List Nat)
  | swap
  | copies
  | drain
  | quiet (n : Nat)
  | home (pa : Nat)
  | drained (ctx buf : Nat)
  | owning (ids : List Nat)
  | blocked
  deriving DecidableEq, Repr

/-- A slice of a warp (R28, R38): program counter, the clause it executes (address, header, the words fetched, the next
word's index), mode and its supervisor copy, reservation, the REGANG word it waits at with that word's clause; while the
slice is in a handler, the REGANG and the wait it returns to; the yielded mark, its wait, its deferred traps, the
single-step mark, the combine requests of its clause (buffer name and requests) that it waits for at the clause's end
(R365), why its warp is to park at the clause's end (cause, address, requests; R65), and the clauses of its warp begun since
it was passed over (R52). -/
structure Slice where
  pc : DWord := 0
  inClause : Bool := false
  idx : Nat := 0
  h0 : Word := 0
  words : List Word := []
  mode : BitVec 16 := 0
  modeSup : BitVec 16 := 0
  resv : Option Resv := none
  regang : Option (Nat × Nat) := none
  hregang : Option (Nat × Nat) := none
  hwait : Option Wait := none
  yielded : Bool := false
  wait : Option Wait := none
  defer : List Trap := []
  stepped : Bool := false
  cmb : Option (Nat × List Nat) := none
  park : Option (Nat × Nat × List Nat) := none
  passed : Nat := 0
  deriving DecidableEq, Repr

/-- The states of R42. -/
inductive WState where
  | active
  | pending
  | parking
  | parkedWaiting
  | parkedReady
  | exited
  deriving DecidableEq, Repr

/-- A write in flight: a vector element; a scalar register; some lanes of a mask register; an element of an acc tile of the
block (R302); or a vector element that takes what a lane of a parted slice held at issue, w, or holds by now (R143). -/
inductive RegWrite where
  | v (r l : Nat) (w : Word)
  | s (n : Nat) (w : Word)
  | m (n : Nat) (lanes w : Word)
  | t (i : Nat) (w : Word)
  | moved (r l a j : Nat) (w : Word)
  deriving DecidableEq, Repr

/-- A flag-bound operation in flight (R72): its flag (15: none), the slices whose flag it keeps busy, its
writes that have not yet taken place (R75), the remote requests it still awaits, whether it is a matrix-array or XSWAP
operation that completes by its own step, and whether a supervisor handler bound it, whose copies it then writes (R391). -/
structure FlagOp where
  id : Nat
  flag : Nat
  slices : Nat
  writes : List RegWrite
  waiting : List Nat := []
  held : Bool := false
  trap : Option (Nat × Trap) := none
  sup : Bool := false
  deriving DecidableEq, Repr

/-- A counted operation of an outstanding counter (R223): its class and whether it has completed. -/
structure OutOp where
  cls : Nat
  id : Nat
  done : Bool
  deriving DecidableEq, Repr

/-- A store in a warp's store queue (R216): its place and bytes, the slice and lane that made it, its epoch, a name by which
a host timeout (R356) can single it out, and the sectors (of a block's shared memory, or of physical memory) whose poison it
clears as the last of an instruction's lanes that together write them whole (R190); `src` holds the word and lane that made
it, for a record. -/
structure QStore where
  sp : Space
  off : Nat
  bytes : List Byte
  sl : Nat
  epoch : Nat
  id : Nat := 0
  lane : Nat := 0
  cure : List (Option Nat × Nat) := []
  src : Trap := { code := 0 }
  deriving DecidableEq, Repr

/-- A pending XSWAP (R149): partner, destination, lanes that receive, values sent, whether pairs move,
and its flag operation. -/
structure XSwap where
  partner : Nat
  d : Nat
  lanes : Nat
  pair : Bool
  sent : List Word
  op : Nat
  deriving DecidableEq, Repr

/-- One of the 32 streams of a span (R306, R314): index of its next iteration, partial, checkpoint,
holder (crew lane, or none for the foreman). -/
structure Stream where
  next : Nat
  part : Word
  check : Word
  holder : Option Nat
  deriving DecidableEq, Repr

/-- A span (R306), and the current stream of the foreman lane (R315). -/
structure Span where
  lane : Nat
  entry : Nat
  lo : Nat
  hi : Nat
  i32 : Bool
  crew : List (Option Nat)
  streams : List Stream
  cur : Option Nat
  deriving DecidableEq, Repr

/-- What a helper's context adds (R310, R315, R318): foreman's warp, rank, host warp and slice, current
stream of each lane, release requested and the clauses issued since; `recalled` where the host's own write of m0
asked for it (R318). -/
structure Helper where
  foreman : Nat
  rank : Nat
  host : Nat
  slice : Nat
  cur : List (Option Nat)
  asked : Bool
  recalled : Bool
  clauses : Nat
  deriving DecidableEq, Repr

/-- The control state of a warp or helper context: everything but its registers. `divert` holds the safe clause, the
restore routine's address and m14 of a diverted warp (R398, R399). `issued` and `stalled` are the moments of its last issue
and of the start of its stall (R48, R127), `turn` the slice that issued its last word (R128), `acq` the requests that its
later accesses wait for (R218, R230), `base` the start of its window in the register region (R179). -/
structure Ctl where
  role : Nat := 0
  vb : Nat := 0
  launched : Word := 0
  priv : Bool := false
  parted : Bool := false
  slices : List Slice := []
  st : WState := .pending
  join : Nat := 0
  cause : Nat := 0
  waddr : Nat := 0
  frame : Nat := 0
  storeQ : List QStore := []
  flagOps : List FlagOp := []
  outs : List OutOp := []
  trap : Option Trap := none
  handler : Option Nat := none
  hslices : Nat := 0
  tret : DWord := 0
  ftesc : DWord := 0
  dbgctl : Word := 0
  pslot : DWord := 0
  xswap : Option XSwap := none
  span : Option Span := none
  helper : Option Helper := none
  divert : Option (Nat × Nat × Nat) := none
  saved : Bool := false
  ended : Bool := false
  issued : Nat := 0
  stalled : Nat := 0
  turn : Nat := 7
  acq : List Nat := []
  base : Nat := 0
  deriving DecidableEq, Repr

/-- A warp (R38): vector window (key 32 r + l), scalar registers, mask registers m0 to m14, the
supervisor copies of R391 (s144 to s159 under their own numbers; m0 under 160), LFSR, control state. -/
structure Warp where
  v : Sparse 32 := []
  s : Sparse 32 := []
  m : Sparse 32 := []
  sup : Sparse 32 := []
  lfsr : Word := 1
  ctl : Ctl := {}
  deriving DecidableEq, Repr

/-- The fields of a kernel image header that the machine keeps while a launch runs (R95). -/
structure Image where
  base : Nat := 0
  ne : Nat := 1
  nm : Nat := 0
  nc : Nat := 0
  lastl : Nat := 32
  vbe : Nat := 8
  vbm : Nat := 8
  vbc : Nat := 0
  tiles : Nat := 0
  shblk : Nat := 0
  entryE : Nat := 0
  entryM : Nat := 0
  entryC : Nat := 0
  cgsize : Nat := 0
  regg : Nat := 0
  shg : Nat := 0
  l1g : Nat := 0
  curve : Nat := 0
  swzw : Nat := 0
  safeoff : Nat := 0
  safecnt : Nat := 0
  deriving DecidableEq, Repr

/-- A resident block (R28, R36): its launch's journal index, image, order of placement, cluster group and place in it (R29),
the start of its shared memory in the core store (R179), guard slots (R272), and whether it is being pre-empted, and into
which suspended-block number (R399); arrivals at COLL that have not fired (R345: warp, counted operation, word and mode,
descriptor, privilege) and retries seen (R353); `restoring` the safe clause that the lead warp of a block placed again has
still to come back to (R400). -/
structure Block where
  ctx : Nat := 0
  rcb : Nat := 0
  launch : Nat := 0
  path : List Nat := []
  domain : Nat := 0
  born : Nat := 0
  idx : Nat := 0
  rank : Nat := 0
  gsize : Nat := 0
  group : Nat := 0
  shBase : Nat := 0
  args : Nat := 0
  img : Image := {}
  guards : List (Option Bool) := []
  forked : Bool := false
  preempt : Bool := false
  sb : Nat := 0
  epoch : Nat := 0
  coll : List (Nat × Nat × Nat × Nat × Bool) := []
  retries : Nat := 0
  restoring : Option Nat := none
  deriving DecidableEq, Repr

/-- A core (R179, R180, R49, R375): current split, the split a repartition works towards, PARK_DELAY,
CYCLE, the ready queue of parked warps and the engine error to come at the next matrix start. -/
structure Core where
  split : Nat × Nat × Nat := (0, 0, 0)
  towards : Option (Nat × Nat × Nat) := none
  parkDelay : Word := 0x200
  cycle : Nat := 0
  ready : List Nat := []
  deriving DecidableEq, Repr

/-- A context's live context-scope system registers (R375), loaded from its table entry (R374). -/
structure Ctx where
  valid : Bool := false
  saveArea : DWord := 0
  stkcfg : DWord := 0
  ptroot : DWord := 0
  ftpool : DWord := 0
  tvec : DWord := 0
  tfbase : DWord := 0
  hfq : DWord := 0
  pscfg : DWord := 0
  htvec : DWord := 0
  root : DWord := 0
  deriving DecidableEq, Repr

/-- The registers of the management and configuration range (R13) that software writes or reads, with
the slice split in force (R184). -/
structure Mgmt where
  devst : Word := 0
  jptr : DWord := 0
  clkctl : List Word := List.replicate 12 0x1428
  plim : Word := 2200
  slcfg : List Word := [0, 0]
  split : List (Nat × Nat) := [(0, 0), (0, 0)]
  pmcfg : List DWord := [0x0EE6B28000000001, 0x0EE6B28000000001]
  preq : List Word := [0, 0]
  fabcfg : DWord := 0x0098968000000000
  hostcfg : Word := 0x00989680
  planeen : BitVec 96 := 0xFFFFFFFFFFFFFFFFFFFFFFFF
  snapcfg : BitVec 128 := 0
  snapring : DWord := 0
  snapcmd : DWord := 0
  portst : Sparse 32 := []
  routing : Sparse 16 := []
  ctxtab : Sparse 8 := []
  deriving DecidableEq, Repr

/-- A request that an engine operation has still to send to another chip (R333, R387): a read, or a write of bytes, at an
offset there; the generic address of the access; and for a read where its bytes go: a place of this chip (chip 0) or of
another chip (its number plus one), with the generic address there. -/
structure Send where
  chip : Nat
  off : Nat
  n : Nat
  ea : Nat
  bytes : List Byte
  dest : Option (Nat × Nat × Nat)
  deriving DecidableEq, Repr

/-- A copy command in flight (R261, R269): stage 0 waiting at its queue, 6 started, 1 data moved, 2 waiting to push since
`seq`, 3 stopped at a first-touch fault, 4 pushed, 5 discarded and still to arrive; `left` holds the ranks
still to be pushed to (R281), `gate` what its guard decided (R273), `idx` the indices read when it started (R267), `sends`
its requests still to be sent, `lands` its writes on this chip that have still to take place, each in an aligned 4 bytes
(R269). -/
structure Copy where
  id : Nat
  k : Nat
  wordv : Nat
  desc : Nat
  handle : Nat
  priv : Bool
  stage : Nat
  left : List Nat
  seq : Nat
  gate : Option Bool := none
  idx : List Nat := []
  sends : List Send := []
  lands : List (Space × Nat × List Byte) := []
  deriving DecidableEq, Repr

/-- A matrix operation in flight (R293): kind 0 MMA, 1 MMAX, 2 MREL; its tile; started or not; the
captured operand registers; the shadow and the result; replayed, failed (R296) or suspended (R295). For an MREL `started`
says that it stands in its queue's line of pushes, since `a`. -/
structure Mat where
  id : Nat
  k : Nat
  kind : Nat
  tile : Nat
  ty : Nat
  bt : Nat
  za : Bool
  a : Nat
  b : Nat
  off : Nat
  handle : Nat
  started : Bool
  opA : List Word
  opB : List Word
  shadow : Sparse 32
  shadowPoison : List Nat
  result : Sparse 32
  replayed : Bool
  failed : Bool
  suspended : Bool := false
  deriving DecidableEq, Repr

/-- A fired collective of this chip (R345, R346): descriptor, type and rounding as the mode; members in ring order
and this chip's position; the arrivals with their counted operations; `active` once its units have begun (R352),
`finished` once complete here (R349). `passed` lists block, unit and pass as this chip has done its part of them,
`written` the units whose result it has written, `finals` the units it owns (R350), `tries` the retries of a unit,
`again` the restarts due at this chip for its own poisoned reads, `moved` the units that a plane's loss put on another
plane (R351), `starts` the units that have still to begin here (R387), `late` the results that wait for a page that is pinned
(R410), and `home` the name of its block. -/
structure Coll where
  id : Nat
  b : Nat
  ctx : Nat
  tag : Nat
  seq : Nat
  form : Nat
  tsrc : Bool
  op : Bool
  tile : Nat
  mode : Nat
  src : Nat
  dst : Nat
  count : Nat
  root : Nat
  bar : Option Nat
  members : List Nat
  pos : Nat
  priv : Bool
  arrivals : List (Nat × Nat)
  active : Bool := false
  finished : Bool := false
  passed : List (Nat × Nat × Nat) := []
  written : List (Nat × Nat) := []
  finals : List (Nat × Nat × List Nat) := []
  tries : List (Nat × Nat × Nat) := []
  again : List (Nat × Nat × Nat) := []
  moved : List (Nat × Nat × Nat) := []
  starts : List Nat := []
  late : List (Nat × Nat × List Nat) := []
  home : Nat := 0
  deriving DecidableEq, Repr

/-- A row held in a combine slot (R363): expert, bytes, and whether the bytes have arrived (R465); its sender: warp,
slice and lane of this chip with the name of their block, or the number of another chip plus one with the name it gave
its request (`src`); `tag` is this chip's name of the request. -/
structure Row where
  expert : Nat
  bytes : List Byte
  arrived : Bool
  k : Nat
  sl : Nat
  lane : Nat
  chip : Nat
  tag : Nat
  src : Nat
  deriving DecidableEq, Repr

/-- A combine slot (R363): state 1 Open, 2 Held, 3 Ready, 4 Ready with its row's write stopped by a fault; the
dispatch; the arrival bitmap fixed when the slot becomes Ready; whether RENORM applied. -/
structure Slot where
  tok : Nat
  st : Nat
  rows : List Row
  disp : Option (List Nat × List Word)
  present : Nat
  renorm : Bool
  deriving DecidableEq, Repr

/-- A combine buffer (R358, R370): its descriptor and owner, the slices in service at CMBCFG, its slots, release
bits, groups that have arrived and counts; `stale` holds the rows whose slots were released before their bytes
came (R465). What comes for an owner that is suspended, or placed again and not yet restored, is kept until it can take it:
`due` the traps for its lead warp (R367), `dueGroups` the groups whose arrival is to be made (R368), `dueLate` the late rows
to be logged and counted, by token, expert and chip (R369). -/
structure Cmb where
  ctx : Nat
  buf : Nat
  owner : Nat
  desc : Nat
  homes : List Nat
  priv : Bool
  slots : List Slot := []
  released : List Nat := []
  arrivedGroups : List Nat := []
  dup : Nat := 0
  late : Nat := 0
  subs : Nat := 0
  draining : Bool := false
  lost : Bool := false
  stale : List (Nat × Row) := []
  due : List Trap := []
  dueGroups : List Nat := []
  dueLate : List (Nat × Nat × Nat) := []
  deriving DecidableEq, Repr

/-- A dispatch or put on its way (R364, R365, R465). Stage 0: not yet decided; 1: waits for a slot; 3: its row's read
stopped at a first-touch page; from 4 on accepted: 4 its bytes are still to be read, 5 they are on their way, 6 they are
held on another chip, which may still refuse the row (R366). `chip` names the sending chip plus one, 0 for this chip's
warps; `tag` is the sending chip's name of the request, or the name of the sender's block until another chip has
answered; `joins` says that the acceptance counts in JOIN; `epoch` is that of its sender (R402), `wordv` its word. -/
structure CmbReq where
  id : Nat
  k : Nat
  sl : Nat
  lane : Nat
  put : Bool
  ctx : Nat
  name : Nat
  tok : Nat
  experts : List Nat
  weights : List Word
  rowAddr : Nat
  len : Nat
  priv : Bool
  stage : Nat
  joins : Bool
  chip : Nat
  plane : Nat
  tag : Nat
  epoch : Nat
  wordv : Nat := 0
  deriving DecidableEq, Repr

/-- A request sent to another chip or to uncached host memory (R334, R335): kind as in R336, 6 for the first part of a
put and 7 for its bytes (R465); the flag
operation it serves and the registers its reply writes, each with its offset in the reply; the engine command it serves;
the word and lane that made it, and the address of each lane; for one that an ended helper left, now its foreman's, the
helper's host warp, slice and rank (R322). -/
structure Req where
  id : Nat
  k : Nat
  sl : Nat
  kind : Nat
  pa : Nat
  size : Nat
  lanes : Nat
  plane : Nat
  op : Nat
  dest : List (Nat × Nat × Nat)
  ty : Nat
  copy : Nat
  src : Trap := { code := 0 }
  eas : List (Nat × Nat) := []
  crew : Option (Nat × Nat × Nat) := none
  deriving DecidableEq, Repr

/-- A packet sent to the fabric or a record of a message to the outside: class of R331, eight more for a canary (R412),
target chip, plane, and its content as numbers. -/
structure Packet where
  cls : Nat
  chip : Nat
  plane : Nat
  body : List Nat
  deriving DecidableEq, Repr

/-- The fabric (R329 to R339): outstanding requests, packets sent, the plane set in force, whether a change of it is
in progress (R333), and the collective chunks that wait in the port sequencers (R352). -/
structure Fabric where
  reqs : List Req := []
  sent : List Packet := []
  planes : BitVec 96 := 0xFFFFFFFFFFFFFFFFFFFFFFFF
  changing : Bool := false
  chunks : List Chunk := []
  deriving DecidableEq, Repr

/-- A launch the distributor has taken (R380 to R384), with its next curve position, blocks not yet ended, and
successors. -/
structure Launch where
  ctx : Nat
  rcb : Nat
  path : List Nat
  record : Nat
  jidx : Nat
  epoch : Nat
  img : Image
  args : Nat
  gx : Nat
  gy : Nat
  curve : Nat
  swzw : Nat
  domain : Nat
  next : Nat
  remain : Nat
  succ : List Nat
  deriving DecidableEq, Repr

/-- A suspended block (R399, R400): its live warps with their restore routines and m14, and its lead warp's safe clause. -/
structure Suspended where
  sb : Nat
  block : Block
  live : List (Nat × Nat × Nat)
  safe : Option Nat := none
  deriving DecidableEq, Repr

/-- A meter of R283 or R387: die, context, region, counts of copy, fabric and collective bytes. -/
structure Meter where
  die : Nat
  ctx : Nat
  rcb : Nat
  copy : Nat
  fab : Nat
  coll : Nat
  deriving DecidableEq, Repr

/-- A region as the distributor last read it (R377): its context, the address of its control block, the
addresses from it up to the root, its line 0, and the physical address at which its line 1 is watched. -/
structure Rcb where
  ctx : Nat
  addr : Nat
  path : List Nat
  line : Nat
  line1 : Nat
  deriving DecidableEq, Repr

/-- The work distributor (R377 to R384, R402): running launches, pass values (context, region, value), the
next journal index, suspended blocks, meters, the regions of each context as last read, the regions whose line 1 was
written since, those whose queues are being read, and the taken indices that HEAD has not passed (R379). -/
structure Dist where
  launches : List Launch := []
  pass : List (Nat × Nat × Nat) := []
  jnext : Nat := 0
  suspended : List Suspended := []
  meters : List Meter := []
  trees : List Rcb := []
  woken : List (Nat × Nat) := []
  reading : List (Nat × Nat) := []
  taken : List (Nat × Nat × Nat) := []
  deriving DecidableEq, Repr

/-- A snap page (R408): state 0 normal, 1 snap-clean, 2 snap-pinned, 3 snap-copied; DIRTY; its frame and the snapshot
that the frame belongs to. -/
structure SnapPage where
  page : Nat
  st : Nat
  dirty : Bool
  frame : List Byte
  n : Nat
  deriving DecidableEq, Repr

/-- A manifest entry (R415). -/
structure ManEntry where
  key : Nat
  data : Nat
  len : Nat
  kind : Nat
  deriving DecidableEq, Repr

/-- An image or a log in checkpoint frames (R411, R413): KIND and KEY of its entry (R415), its bytes, the frames of each
die that hold it, and the slices that do. -/
structure SnapItem where
  kind : Nat
  key : Nat
  bytes : List Byte
  frames : Nat × Nat
  slices : List Nat
  deriving DecidableEq, Repr

/-- A manifest being written (R415, R416): snapshot number, tag, cut, VAULTG; closed when its table and header may
follow, with STATUS; the entries written; the items still to be written, the first from byte `pos` on, from the ring
address `start`. -/
structure Manifest where
  n : Nat
  tag : Nat
  cut : Nat
  vaultg : Nat
  closed : Bool
  status : Nat
  entries : List ManEntry
  items : List SnapItem
  pos : Nat
  start : Nat
  deriving DecidableEq, Repr

/-- A write queued at its home slice for a pinned page or a vault (R410, R411), with its maker (slice 9: no
warp) and epoch. -/
structure Blocked where
  off : Nat
  bytes : List Byte
  k : Nat
  sl : Nat
  epoch : Nat
  deriving DecidableEq, Repr

/-- The snapshot unit (R402 to R420): number, state as SNAPQ selector 1, tag, cut index, pages, channel logs (KEY and
requests), channels closed (by KEY), manifests being written, oldest first, header address of the last complete manifest,
blocked writes; and, the model's own, the images and logs written so far with what they hold (log entry 55). -/
structure Snap where
  n : Nat := 0
  st : Nat := 0
  tag : Nat := 0
  cut : Nat := 0
  pages : List SnapPage := []
  logs : List (Nat × List (List Nat)) := []
  closed : List Nat := []
  mans : List Manifest := []
  lastMan : Nat := 0
  blocked : List Blocked := []
  made : List (Nat × List Byte × List (List Nat)) := []
  deriving DecidableEq, Repr

/-- A fenced unit (R26): kind 0 core, 1 slice, 2 cluster, 3 HBM stack, 4 bridge port, 5 fabric port, 6 host
module; die; number. -/
structure Fenced where
  kind : Nat
  die : Nat
  n : Nat
  deriving DecidableEq, Repr

/-- Vilvon (18): fused minimum security version, the image that runs (R422, R426), the units in training (R424), caps in
force (R431: bit 0 at 105 °C, bit 1 at 110 °C), each slice's clock in units of 50 MHz (R21), the frequencies last journalled
(R430), keys installed (R426), VALID bits held until full service (R424), corrected-error counts (R427), reports and MSI-X
vectors sent, the journal, the fenced units (R26), and each die's slices that were in service at its last context boundary
(R183). -/
structure Vilvon where
  svn : Nat := 0
  image : BootImage := ⟨0, 0⟩
  training : List Fenced := []
  cap : Nat := 0
  sliceClk : List Nat := List.replicate 192 20
  journalled : List Nat := List.replicate 12 20
  keys : Bool := false
  held : List Nat := []
  corrected : List (Nat × Nat) := []
  reports : List (List Byte) := []
  msix : List (Nat × Nat) := []
  journal : Sparse 8 := []
  fenced : List Fenced := []
  slicesIn : List (List Nat) := [List.range 96, List.range 96]
  deriving DecidableEq, Repr

/-- A TLB entry (R17, R201): the unit that holds it: core c, 192 and a cluster's number for its second-level TLB, 204 and a
die's number for its walker's cache of table entries; context, level (1 to 5; 0 for a 64 KiB group), virtual base, entry
and the entry's address. -/
structure Tlb where
  unit : Nat
  ctx : Nat
  level : Nat
  base : Nat
  entry : Nat
  pa : Nat
  deriving DecidableEq, Repr

/-- What moves next: a row of the table that no word encodes, or the issue of a warp's slice. -/
inductive Move where
  | event (i : Instr)
  | issue (k sl : Nat)
  deriving DecidableEq, Repr

/-- The state of the chip. `owned` holds the lines of host memory that a core's L1 owns: core and line (R232). `icache`
holds each clause a core has fetched, under its first word's place, as its words and their addresses (R196). `sched`,
`todo`, `cur`, `slices`, `fresh` and `ids` are the model's own fields: the moves still to come, the steps that writes to the
management range have asked for (R13), the issuing warp and slices, the counter of free values and of operation names. -/
structure State where
  mem : Memory := []
  poison : List Nat := []
  mgmt : Mgmt := {}
  ctxs : List (Nat × Ctx) := []
  cores : List (Nat × Core) := []
  blocks : List (Nat × Block) := []
  shared : List (Nat × Sparse 8) := []
  shPoison : List (Nat × Nat) := []
  tiles : List (Nat × Sparse 32) := []
  tilePoison : List (Nat × Nat) := []
  warps : List (Nat × Warp) := []
  copies : List Copy := []
  mats : List Mat := []
  colls : List Coll := []
  collSeq : List (Nat × Nat × Nat) := []
  cmbs : List Cmb := []
  cmbReqs : List CmbReq := []
  fab : Fabric := {}
  dist : Dist := {}
  frozen : List (Nat × Nat × Nat) := []
  owned : List (Nat × Nat) := []
  snap : Snap := {}
  vil : Vilvon := {}
  tlb : List Tlb := []
  icache : List (Nat × List (Nat × Word)) := []
  ccache : List (Nat × Word) := []
  sched : List Move := []
  todo : List Instr := []
  cur : Nat := 0
  slices : Nat := 0
  fresh : Nat := 0
  ids : Nat := 0
  deriving DecidableEq, Repr

/-- Why a step stops with a fault. -/
inductive Fault where
  /-- Raised by a meaning when no warp is issuing (`cur` names no warp): an instruction word executes only
  in a warp. Safe: the hardware has no such step. -/
  | noIssuer
  deriving DecidableEq, Repr

/-- Why a step has no meaning. -/
inductive Refusal where
  /-- Raised by exec's arm of an instruction that has no meaning yet. Safe: nothing is claimed of it. -/
  | notModelled (mnemonic : String)
  /-- Raised by the step when the schedule names an instruction word as an event: only rows that no word
  encodes move by themselves. Safe: the hardware has no such step. -/
  | notAnEvent
  deriving DecidableEq, Repr

/-- What a meaning answers. -/
abbrev Out := Host.Outcome State Fault Refusal

/-- The chip right after device reset: no context is valid, no block is resident, every register of the
management range at its reset value, memory with nothing listed. -/
def State.reset : State := {}

end Sys2Proof.Machine
end

