-- ==== Sys2Proof/Machine/Sparse.lean ====
section
/-! DEFINITION. Sparse stores in canonical form (addresses strictly rising, no entry equal to the 0 an
unlisted address reads as), and lists keyed by number. -/
namespace Sys2Proof.Machine

/-- What an address of a sparse store reads as. -/
def Sparse.get {w : Nat} : Sparse w → Nat → BitVec w
  | [], _ => 0
  | (k, v) :: t, a => if k = a then v else Sparse.get t a

/-- The store with one address written; writing 0 removes the entry. -/
def Sparse.set {w : Nat} : Sparse w → Nat → BitVec w → Sparse w
  | [], a, v => if v = 0 then [] else [(a, v)]
  | (k, x) :: t, a, v =>
    if a < k then (if v = 0 then (k, x) :: t else (a, v) :: (k, x) :: t)
    else if a = k then (if v = 0 then t else (a, v) :: t)
    else (k, x) :: Sparse.set t a v

/-- Every listed address is above a bound, and they rise strictly; no entry is 0. -/
def Sparse.above {w : Nat} : Nat → Sparse w → Bool
  | _, [] => true
  | n, (k, v) :: t => decide (n ≤ k) && decide (v ≠ 0) && Sparse.above (k + 1) t

/-- The canonical form. -/
def Sparse.wf {w : Nat} (m : Sparse w) : Bool := Sparse.above 0 m

/-- A byte of physical memory (R1): 0 where nothing is listed (log entry 3). -/
def Memory.read (m : Memory) (a : Nat) : Byte := Sparse.get (w := 8) m a

/-- Physical memory with one byte written. -/
def Memory.write (m : Memory) (a : Nat) (b : Byte) : Memory := Sparse.set (w := 8) m a b

/-- The canonical form of physical memory. -/
def Memory.wf (m : Memory) : Bool := Sparse.wf (w := 8) m

/-- Bytes read at rising addresses. -/
def Sparse.bytes (m : Sparse 8) (a n : Nat) : List Byte := (span a n).map (Sparse.get m)

/-- Bytes written at rising addresses. -/
def Sparse.setBytes (m : Sparse 8) (a : Nat) : List Byte → Sparse 8
  | [] => m
  | b :: t => Sparse.setBytes (Sparse.set m a b) (a + 1) t

/-- The entry of a keyed list. -/
def find {α : Type} : List (Nat × α) → Nat → Option α
  | [], _ => none
  | (k, v) :: t, a => if k = a then some v else find t a

/-- The keyed list with one entry put in, keys rising. -/
def put {α : Type} : List (Nat × α) → Nat → α → List (Nat × α)
  | [], a, v => [(a, v)]
  | (k, x) :: t, a, v =>
    if a < k then (a, v) :: (k, x) :: t
    else if a = k then (a, v) :: t
    else (k, x) :: put t a v

/-- The keyed list without one key. -/
def del {α : Type} (l : List (Nat × α)) (a : Nat) : List (Nat × α) := l.filter (fun p => p.1 ≠ a)

end Sys2Proof.Machine
end

