-- ==== Sys2Proof/Machine/Pages.lean ====
section
/-! DEFINITION. The chip-local map (01 R12), and what the snapshot does with the writes that reach physical memory (17 R403,
R407 to R411). -/
namespace Sys2Proof.Machine

/-- What a chip-local physical address holds (R12, R185, R355). -/
inductive Region where
  | hbm
  | host
  | vault (slice : Nat)
  | mgmt
  | unassigned
  deriving DecidableEq, Repr

/-- The chip-local map (R12); vault windows are numbered 96 d + j (R185). -/
def region (pa : Nat) : Region :=
  if pa < 0x08000000000 then .hbm
  else if pa < 0x40000000000 then .unassigned
  else if pa < 0x60000000000 then .host
  else if pa < 0x60030000000 then .vault ((pa - 0x60000000000) / 0x400000)
  else if pa < 0x7FF00000000 then .unassigned
  else if pa < 0x80000000000 then .mgmt
  else .unassigned

/-- The page record of a snap page (R408). -/
def State.snapPage (s : State) (page : Nat) : SnapPage :=
  (s.snap.pages.find? fun p => p.page == page).getD ⟨page, 0, false, [], 0⟩

/-- The list of page records with one replaced. -/
def setPage (l : List SnapPage) (p : SnapPage) : List SnapPage :=
  p :: l.filter fun q => q.page ≠ p.page

/-- The fields of SNAPCFG (R403): enabled, the manifest ring and its size in units of 64 KiB, and for each die the number
of checkpoint frames and the address of their area. -/
def State.snapOn (s : State) : Bool := s.mgmt.snapcfg.getLsbD 0
def State.ringBase (s : State) : Nat := bits s.mgmt.snapcfg.toNat 41 15 * 65536
def State.ringUnits (s : State) : Nat := bits s.mgmt.snapcfg.toNat 14 1 * 16
def State.frames (s : State) (die : Nat) : Nat :=
  if die = 0 then bits s.mgmt.snapcfg.toNat 111 96 else bits s.mgmt.snapcfg.toNat 127 112
def State.ckBase (s : State) (die : Nat) : Nat :=
  (if die = 0 then bits s.mgmt.snapcfg.toNat 68 42 else bits s.mgmt.snapcfg.toNat 95 69) * 65536

/-- Whether snapshot tracking covers an address: HBM outside the checkpoint areas (R403, R408). -/
def State.tracked (s : State) (pa : Nat) : Bool :=
  region pa == .hbm && (span 0 2).all fun d =>
    decide (pa < s.ckBase d) || decide (s.ckBase d + s.frames d * 65536 ≤ pa)

/-- The die of an HBM address (R11). -/
def hbmDie (pa : Nat) : Nat := pa / 2 ^ 38 % 2

/-- One of a pair, by die. -/
def onDie (p : Nat × Nat) (die : Nat) : Nat := if die = 0 then p.1 else p.2

/-- The frames of 64 KiB that hold n bytes. -/
def framesFor (n : Nat) : Nat := (n + 65535) / 65536

/-- The bytes of a channel's log (R413). -/
def logBytes (l : List (List Nat)) : List Byte := l.flatMap Config.channelLog

/-- The die whose frames hold the log of a channel: that of the port of its plane. -/
def channelDie (key : Nat) : Nat := if bits key 15 8 < 48 then 0 else 1

/-- The checkpoint frames in use on a die: copied pages, images and logs not yet in the ring. -/
def State.usedFrames (s : State) (die : Nat) : Nat :=
  (s.snap.pages.filter fun p => p.st == 3 && hbmDie (p.page * 65536) == die).length
    + ((s.snap.mans.flatMap Manifest.items).map fun x => onDie x.frames die).foldl (· + ·) 0
    + ((s.snap.logs.filter fun l => channelDie l.1 == die).map fun l => framesFor (logBytes l.2).length).foldl (· + ·) 0

/-- Copy-on-write of a page (R409), or the page pinned when no frame is free (R410). -/
def State.cow (s : State) (page : Nat) : Snap :=
  let die := hbmDie (page * 65536)
  if s.usedFrames die < s.frames die then
    { s.snap with pages := setPage s.snap.pages ⟨page, 3, true, Sparse.bytes s.mem (page * 65536) 65536, s.snap.n⟩ }
  else { s.snap with pages := setPage s.snap.pages ⟨page, 2, true, [], s.snap.n⟩ }

/-- Whether a write of an epoch is post-cut (R407): its epoch is at least the snapshot armed or cut. -/
def State.postCut (s : State) (epoch : Nat) : Bool :=
  (s.snap.st == 1 || s.snap.st == 2) && decide (s.snap.n ≤ epoch)

/-- The epoch that walker updates, host writes and combine releases act under, and that this chip's answers carry (R402,
R407): the one before while a snapshot is armed, else that of the latest. -/
def State.deviceEpoch (s : State) : Nat := if s.snap.st = 1 then s.snap.n - 1 else s.snap.n

/-- Whether a write must first wait for a copy-on-write (R408). -/
def State.needsCow (s : State) (off epoch : Nat) : Bool :=
  s.tracked off && s.postCut epoch &&
    (let p := s.snapPage (off / 65536)
     p.st == 1 || (p.st == 0 && s.snap.st == 1))

/-- Whether a write must wait: its page is pinned (R410), or it is a post-cut write to a vault byte while
a snapshot is armed (R411). -/
def State.mustWait (s : State) (off epoch : Nat) : Bool :=
  match region off with
  | .hbm => (s.snapPage (off / 65536)).st == 2
  | .vault _ => s.snap.st == 1 && s.postCut epoch
  | _ => false

/-- The snapshot unit after a write of bytes that is performed (R408): DIRTY, and a pre-cut write of a copied page goes
to the frame too. -/
def State.noted (s : State) (off : Nat) (bytes : List Byte) (epoch : Nat) : Snap :=
  let p := s.snapPage (off / 65536)
  let both := p.st == 3 && p.n == s.snap.n && !s.postCut epoch && (s.snap.st == 1 || s.snap.st == 2)
  let q := { p with
    dirty := true
    frame := if both then p.frame.take (off % 65536) ++ bytes ++ p.frame.drop (off % 65536 + bytes.length) else p.frame }
  if s.tracked off && q ≠ p then { s.snap with pages := setPage s.snap.pages q } else s.snap

/-- The state whose page of an address is copied first where a write asks for it (R408, R409). -/
def State.copied (s : State) (off epoch : Nat) : State :=
  if s.needsCow off epoch then { s with snap := s.cow (off / 65536) } else s

/-- Whether a write must wait once its page has been copied, or pinned for want of a frame (R408 to R411). -/
def State.writeWaits (s : State) (off epoch : Nat) : Bool := (s.copied off epoch).mustWait off epoch

end Sys2Proof.Machine
end

