-- ==== Sys2Proof/Machine/Effects.lean ====
section
/-! DEFINITION. The updates of the state that a meaning may make, as plain data, and what each does. Every
meaning answers the state after a list of effects (commit), so what any step can do to a store is said once,
here. A store to memory drops the reservations it must (R244) and lets every waiter that watches the place
evaluate the new value (R123, R206, R248, R251, R278). -/
namespace Sys2Proof.Machine

/-- One update of the state. Register effects name a warp or helper context by its key. -/
inductive Effect where
  | vreg (k r l : Nat) (w : Word)
  | sreg (k n : Nat) (w : Word)
  | sregOf (k : Nat) (sup : Bool) (n : Nat) (w : Word)
  | mask (k n : Nat) (w : Word)
  | live (k : Nat) (w : Word)
  | lfsr (k : Nat) (w : Word)
  | ctl (k : Nat) (c : Ctl)
  | newWarp (k : Nat) (c : Ctl) (s0 s1 : Word) (lanes : Word)
  | delWarp (k : Nat)
  | block (b : Nat) (x : Block)
  | clearBlock (b : Nat)
  | delBlock (b : Nat)
  | store (sp : Space) (off : Nat) (bytes : List Byte) (who : Option (Nat × Nat))
  | write (off : Nat) (bytes : List Byte) (epoch : Nat) (who : Option (Nat × Nat))
  | zero (off n : Nat)
  | tile (b i : Nat) (w : Word)
  | tilePoison (b i : Nat) (on : Bool)
  | poison (sector : Nat) (on : Bool)
  | shPoison (b sector : Nat) (on : Bool)
  | unreserve (off n : Nat)
  | mgmt (m : Mgmt)
  | ctx (c : Nat) (x : Ctx)
  | core (c : Nat) (x : Core)
  | copies (l : List Copy)
  | mats (l : List Mat)
  | colls (l : List Coll)
  | collSeq (l : List (Nat × Nat × Nat))
  | cmbs (l : List Cmb)
  | cmbReqs (l : List CmbReq)
  | fab (f : Fabric)
  | dist (d : Dist)
  | frozen (l : List (Nat × Nat × Nat))
  | owned (l : List (Nat × Nat))
  | snap (x : Snap)
  | vil (x : Vilvon)
  | tlb (l : List Tlb)
  | tlbAdd (t : Tlb)
  | icache (l : List (Nat × List (Nat × Word)))
  | ccache (l : List (Nat × Word))
  | issuer (k sl : Nat)
  | fresh
  | ids (n : Nat)
  | sched (l : List Move)
  | todo (l : List Instr)
  | wipe
  deriving DecidableEq, Repr

/-- The slot of a warp key: a helper context lies at the slot of its host (R310). -/
def hostKey (k : Nat) : Nat := if k < helperBase then k else (k - helperBase) / 8

/-- The block of a warp or helper key. -/
def blockOf (k : Nat) : Nat := hostKey k / Config.warpsPerBlock

/-- The block warp number of a key (R34). -/
def warpNo (k : Nat) : Nat := hostKey k % Config.warpsPerBlock

/-- The core of a key: 96 d + c. -/
def coreOf (k : Nat) : Nat := blockOf k / Config.blocksPerCore

/-- The die of a key. -/
def dieOf (k : Nat) : Nat := coreOf k / Config.coresPerDie

/-- The key of a helper context on a host's slice. -/
def helperKey (host sl : Nat) : Nat := helperBase + 8 * host + sl

/-- The scalar registers that have supervisor copies (R391): s144 to s159, and s12 to s15 in a helper. -/
def banked (c : Ctl) (n : Nat) : Bool :=
  match c.helper with
  | none => decide (144 ≤ n) && decide (n < 160)
  | some _ => decide (12 ≤ n) && decide (n < 16)

/-- The mask bits a context has: a helper has those of its own lanes (R310). -/
def maskBits (c : Ctl) : Word :=
  match c.helper with
  | none => BitVec.allOnes 32
  | some h => word (15 * 2 ^ (4 * h.slice))

/-- The supervisor copy of m0 has this number among the supervisor copies. -/
def supM0 : Nat := 160

/-- A scalar register as its context reads it (R38, R391). -/
def Warp.readS (w : Warp) (n : Nat) : Word :=
  if w.ctl.priv && banked w.ctl n then w.sup.get n else w.s.get n

/-- A mask register as its context reads it: m15 is all ones (R38), a helper's other masks are zero
outside its lanes (R310). -/
def Warp.readM (w : Warp) (n : Nat) : Word :=
  if n = 15 then BitVec.allOnes 32
  else if n = 0 && w.ctl.priv then w.sup.get supM0
  else w.m.get n &&& maskBits w.ctl

/-- A vector element: lane l of register r. -/
def Warp.readV (w : Warp) (r l : Nat) : Word := w.v.get (32 * r + l)

/-- A scalar register written: its supervisor copy where `sup` says so and it has one (R391). -/
def Warp.writeSOf (w : Warp) (sup : Bool) (n : Nat) (x : Word) : Warp :=
  if n < 160 then
    if sup && banked w.ctl n then { w with sup := w.sup.set n x } else { w with s := w.s.set n x }
  else w

/-- A scalar register written by its context as its mode is. -/
def Warp.writeS (w : Warp) (n : Nat) (x : Word) : Warp := w.writeSOf w.ctl.priv n x

/-- A mask register written; a write to m14 or m15 is discarded (R38, R109). -/
def Warp.writeM (w : Warp) (n : Nat) (x : Word) : Warp :=
  if n < 14 then
    if n = 0 && w.ctl.priv then { w with sup := w.sup.set supM0 (x &&& maskBits w.ctl) }
    else { w with m := w.m.set n (x &&& maskBits w.ctl) }
  else w

/-- A vector element written, in lane l of register r. -/
def Warp.writeV (w : Warp) (r l : Nat) (x : Word) : Warp :=
  if r < 256 && l < 32 then { w with v := w.v.set (32 * r + l) x } else w

/-- m14 LIVE written: only EXIT and creation write it (R38, R117). -/
def Warp.writeLive (w : Warp) (x : Word) : Warp := { w with m := w.m.set 14 (x &&& maskBits w.ctl) }

/-- The LFSR written: zero stores 1 (R39). -/
def Warp.writeLfsr (w : Warp) (x : Word) : Warp := { w with lfsr := if x = 0 then 1 else x }

/-- One byte of a register window written (R175): byte 128 r + 4 l + b. -/
def Warp.writeByte (w : Warp) (off : Nat) (b : Byte) : Warp :=
  let r := off / 128
  let l := off % 128 / 4
  let sh := 8 * (off % 4)
  let old := (w.readV r l).toNat
  w.writeV r l (word (old - bits old (sh + 7) sh * 2 ^ sh + b.toNat * 2 ^ sh))

/-- Bytes of a register window written at rising addresses. -/
def Warp.writeBytes (w : Warp) (off : Nat) : List Byte → Warp
  | [] => w
  | b :: t => Warp.writeBytes (w.writeByte off b) (off + 1) t

/-- A skip queue's header (R274): capacity, epoch, head, count, and whether it is malformed. -/
structure QHeader where
  cap : Nat
  epoch : Nat
  head : Nat
  count : Nat
  malformed : Bool
  deriving DecidableEq, Repr

/-- The header at an offset of shared memory. -/
def qHeader (sh : Sparse 8) (off : Nat) : QHeader :=
  let w0 := ofBytes (sh.bytes off 4)
  let head := ofBytes (sh.bytes (off + 4) 4)
  let count := ofBytes (sh.bytes (off + 8) 4)
  let cap := w0 % 256
  { cap, epoch := bits w0 31 24, head, count
    malformed := decide (bits w0 23 8 ≠ 0) || decide (cap < 2) || decide (cap > 64) || decide (head ≥ cap)
      || decide (count > cap) || !(sh.bytes (off + 12) 52).all (· == 0) }

/-- The trap a queue step raises on the header as it stands (R276, R277): 0 none; queue-misuse for a
malformed header or a foreign epoch of a pushed handle; protection for entries beyond SHBLK. -/
def qFault (sh : Sparse 8) (shblk off : Nat) (push : Option Nat) : Nat :=
  let h := qHeader sh off
  if h.malformed then 0x0C
  else if off + 64 + 4 * h.cap > shblk then 0x09
  else match push with
    | none => 0
    | some x => if bits x 31 24 = h.epoch then 0 else 0x0C

/-- The word at an offset of shared memory. -/
def shWord (sh : Sparse 8) (off : Nat) : Nat := ofBytes (sh.bytes off 4)

/-- A waiter evaluates the value its place holds now (R123, R248, R251, R278). -/
def Wait.notice (sh : Sparse 8) (shblk : Nat) : Wait → Wait
  | .push off h seq bad => .push off h seq (if bad = 0 then qFault sh shblk off (some h) else bad)
  | .pop off d seq bad => .pop off d seq (if bad = 0 then qFault sh shblk off none else bad)
  | .bar off p ok => .bar off p (ok || (bit (shWord sh off) 31 != p))
  | .abar off p ok => .abar off p (ok || (bit (shWord sh (off + 4)) 31 != p))
  | .word off eq v ok => .word off eq v (ok || ((shWord sh off == v) == eq))
  | w => w

/-- A change of every slice of every warp of which a test on its key holds. -/
def mapSlices (p : Nat → Bool) (f : Nat → Nat → Slice → Slice) (l : List (Nat × Warp)) : List (Nat × Warp) :=
  l.map fun (k, w) =>
    if p k then (k, { w with ctl := { w.ctl with slices := w.ctl.slices.mapIdx (f k) } }) else (k, w)

/-- A slice after a write of n bytes at `off` by `who`: its reservation is dropped when another slice or
agent writes its granule (R244). -/
def Slice.written (sp : Space) (off n : Nat) (who : Option (Nat × Nat)) (k j : Nat) (x : Slice) : Slice :=
  match x.resv with
  | none => x
  | some r =>
    if r.sp = sp ∧ r.gran < off + n ∧ off < r.gran + 64 ∧ who ≠ some (k, j) then { x with resv := none } else x

/-- A slice after a write to its block's shared memory: its wait, and one it returns to from a handler, is evaluated. -/
def Slice.noticed (sh : Sparse 8) (shblk : Nat) (x : Slice) : Slice :=
  { x with wait := x.wait.map (Wait.notice sh shblk), hwait := x.hwait.map (Wait.notice sh shblk) }

/-- A slice that escalated a fault, after a write to physical memory that leaves its resolution word
nonzero (R206). -/
def Slice.resolved (m : Memory) (off n : Nat) (x : Slice) : Slice :=
  match x.wait with
  | some (.escalated va pa false) =>
    if pa < off + n ∧ off < pa + 4 ∧ (Sparse.bytes m pa 4).any (· != 0)
    then { x with wait := some (.escalated va pa true) } else x
  | _ => x

/-- The shared memory of a block. -/
def State.sh (s : State) (b : Nat) : Sparse 8 := (find s.shared b).getD []

/-- The acc tiles of a block: element 4096 t + 64 m + n. -/
def State.acc (s : State) (b : Nat) : Sparse 32 := (find s.tiles b).getD []

/-- The block of a key, or an empty one. -/
def State.blk (s : State) (b : Nat) : Block := (find s.blocks b).getD {}

/-- The warp or helper context of a key, or an empty one. -/
def State.warp (s : State) (k : Nat) : Warp := (find s.warps k).getD {}

/-- The control state of a key. -/
def State.ctl (s : State) (k : Nat) : Ctl := (s.warp k).ctl

/-- The core of a number. -/
def State.core (s : State) (c : Nat) : Core := (find s.cores c).getD {}

/-- A context's live system registers. -/
def State.ctxOf (s : State) (c : Nat) : Ctx := (find s.ctxs c).getD {}

/-- An existing warp changed; a key with no warp changes nothing. -/
def State.onWarp (s : State) (k : Nat) (f : Warp → Warp) : State :=
  match find s.warps k with
  | none => s
  | some w => { s with warps := put s.warps k (f w) }

/-- The sectors of 32 bytes that a write of n bytes covers whole (R190). -/
def wholeSectors (off n : Nat) : List Nat :=
  (span (off / 32) (n / 32 + 1)).filter fun q => off ≤ 32 * q ∧ 32 * q + 32 ≤ off + n

/-- The distributor watches line 1 of every region it has read: any write to it, even of an unchanged value (R379). -/
def Dist.noticed (off n : Nat) (d : Dist) : Dist :=
  match d.trees.filter fun r => decide (r.line1 < off + n) && decide (off < r.line1 + 128) with
  | [] => d
  | rs => { d with woken := d.woken ++ (rs.map fun r => (r.ctx, r.addr)).filter fun x => !d.woken.contains x }

/-- Lines of memory leave the L1 caches that own them, but for one core's (R232). -/
def State.disowned (s : State) (off n : Nat) (core : Option Nat) : List (Nat × Nat) :=
  s.owned.filter fun x => core == some x.1 || decide (x.2 < off / 128) || decide ((off + n - 1) / 128 < x.2)

/-- What a store does to its place and to those that watch it. -/
def applyStore (sp : Space) (off : Nat) (bytes : List Byte) (who : Option (Nat × Nat)) (s : State) : State :=
  let n := bytes.length
  let ws := mapSlices (fun _ => true) (Slice.written sp off n who) s.warps
  match sp with
  | .phys =>
    let m := Sparse.setBytes s.mem off bytes
    { s with
      mem := m
      poison := s.poison.filter fun q => !(wholeSectors off n).contains q
      dist := s.dist.noticed off n
      owned := s.disowned off n (who.map fun w => coreOf w.1)
      warps := mapSlices (fun _ => true) (fun _ _ x => x.resolved m off n) ws }
  | .shared b =>
    let sh := (s.sh b).setBytes off bytes
    { s with
      shared := put s.shared b sh
      shPoison := s.shPoison.filter fun q => !(q.1 == b && (wholeSectors off n).contains q.2)
      warps := mapSlices (fun k => blockOf k == b) (fun _ _ x => x.noticed sh (s.blk b).img.shblk) ws }
  | .reg k => { s with warps := ws }.onWarp k (fun w => w.writeBytes off bytes)
  | .remote _ => s

/-- A write to physical memory as it reaches its home slice: copy-on-write first where R408 asks for it, then the page's
state and the store; or it is queued at the slice (R410, R411), with its maker, slice 9 for none. -/
def applyWrite (off : Nat) (bytes : List Byte) (epoch : Nat) (who : Option (Nat × Nat)) (s : State) : State :=
  let s1 := s.copied off epoch
  if s1.mustWait off epoch then
    let w := who.getD (0, 9)
    { s1 with snap := { s1.snap with blocked := s1.snap.blocked ++ [⟨off, bytes, w.1, w.2, epoch⟩] } }
  else applyStore .phys off bytes who { s1 with snap := s1.noted off bytes epoch }

/-- n bytes of physical memory from an address on become 0, as a write of zeros by the device (R184, R419). -/
def applyZero (off n : Nat) (s : State) : State :=
  { s with
    mem := s.mem.filter fun p => decide (p.1 < off) || decide (off + n ≤ p.1)
    poison := s.poison.filter fun q => !(decide (off ≤ 32 * q) && decide (32 * q + 32 ≤ off + n))
    warps := mapSlices (fun _ => true) (Slice.written .phys off n none) s.warps }

/-- The registers of a warp or helper context at creation (R37, R310): zero but s0, s1, m0, m14 and an LFSR
state of 1. -/
def Warp.created (c : Ctl) (s0 s1 lanes : Word) : Warp :=
  { s := Sparse.set (Sparse.set [] 0 s0) 1 s1, m := Sparse.set (Sparse.set [] 0 lanes) 14 lanes, ctl := c }

/-- The state after device reset (R27, R422, R427): that of State.reset, but for host memory, which lies outside the
device, the fused security version, the image, and the model's own fields. -/
def State.wiped (s : State) : State :=
  { State.reset with
    mem := s.mem.filter fun p => region p.1 == .host
    vil := { State.reset.vil with svn := s.vil.svn, image := s.vil.image }
    snap := { made := s.snap.made }
    sched := s.sched, todo := s.todo, fresh := s.fresh, ids := s.ids }

/-- The entries that a TLB holds at most (R17, R201); the walkers' caches have no stated size. -/
def tlbRoom (unit : Nat) : Nat := if unit < 192 then 512 else if unit < 204 then 4096 else 2 ^ 64

/-- A TLB entry loaded in place of the same page's; a full TLB loses an entry, which one is free (log entry 73). -/
def tlbPut (now : Nat) (t : Tlb) (l : List Tlb) : List Tlb :=
  let rest := l.filter fun u => !(u.unit == t.unit && u.ctx == t.ctx && u.level == t.level && u.base == t.base)
  let mine := rest.filter fun u => u.unit == t.unit
  let out := mine.getD (Config.freeNat (1048576 * now + 300000 + t.unit) % mine.length) t
  if mine.length < tlbRoom t.unit then t :: rest else t :: rest.filter (· ≠ out)

/-- What each effect does. -/
def apply (e : Effect) (s : State) : State :=
  match e with
  | .vreg k r l w => s.onWarp k (fun x => x.writeV r l w)
  | .sreg k n w => s.onWarp k (fun x => x.writeS n w)
  | .sregOf k sup n w => s.onWarp k (fun x => x.writeSOf sup n w)
  | .mask k n w => s.onWarp k (fun x => x.writeM n w)
  | .live k w => s.onWarp k (fun x => x.writeLive w)
  | .lfsr k w => s.onWarp k (fun x => x.writeLfsr w)
  | .ctl k c => s.onWarp k (fun x => { x with ctl := c })
  | .newWarp k c s0 s1 lanes => { s with warps := put s.warps k (Warp.created c s0 s1 lanes) }
  | .delWarp k => { s with warps := del s.warps k }
  | .block b x => { s with blocks := put s.blocks b x }
  | .clearBlock b =>
    { s with shared := put s.shared b [], tiles := put s.tiles b []
             shPoison := s.shPoison.filter (fun p => p.1 ≠ b)
             tilePoison := s.tilePoison.filter (fun p => p.1 ≠ b) }
  | .delBlock b =>
    { s with blocks := del s.blocks b, shared := del s.shared b, tiles := del s.tiles b
             shPoison := s.shPoison.filter (fun p => p.1 ≠ b)
             tilePoison := s.tilePoison.filter (fun p => p.1 ≠ b)
             warps := s.warps.filter (fun p => blockOf p.1 ≠ b) }
  | .store sp off bytes who => applyStore sp off bytes who s
  | .write off bytes epoch who => applyWrite off bytes epoch who s
  | .zero off n => applyZero off n s
  | .tile b i w =>
    { s with tiles := put s.tiles b ((s.acc b).set i w), tilePoison := s.tilePoison.filter (· ≠ (b, i)) }
  | .tilePoison b i on =>
    { s with tilePoison := (if on then [(b, i)] else []) ++ s.tilePoison.filter (· ≠ (b, i)) }
  | .poison q on => { s with poison := (if on then [q] else []) ++ s.poison.filter (· ≠ q) }
  | .shPoison b q on =>
    { s with shPoison := (if on then [(b, q)] else []) ++ s.shPoison.filter (· ≠ (b, q)) }
  | .unreserve off n => { s with warps := mapSlices (fun _ => true) (Slice.written .phys off n none) s.warps }
  | .mgmt m => { s with mgmt := m }
  | .ctx c x => { s with ctxs := put s.ctxs c x }
  | .core c x => { s with cores := put s.cores c x }
  | .copies l => { s with copies := l }
  | .mats l => { s with mats := l }
  | .colls l => { s with colls := l }
  | .collSeq l => { s with collSeq := l }
  | .cmbs l => { s with cmbs := l }
  | .cmbReqs l => { s with cmbReqs := l }
  | .fab f => { s with fab := f }
  | .dist d => { s with dist := d }
  | .frozen l => { s with frozen := l }
  | .owned l => { s with owned := l }
  | .snap x => { s with snap := x }
  | .vil x => { s with vil := x }
  | .tlb l => { s with tlb := l }
  | .tlbAdd t => { s with tlb := tlbPut s.fresh t s.tlb }
  | .icache l => { s with icache := l }
  | .ccache l => { s with ccache := l }
  | .issuer k sl => { s with cur := k, slices := sl }
  | .fresh => { s with fresh := s.fresh + 1 }
  | .ids n => { s with ids := s.ids + n }
  | .sched l => { s with sched := l }
  | .todo l => { s with todo := l }
  | .wipe => s.wiped

/-- The state after a list of effects, first to last. -/
def applyAll (es : List Effect) (s : State) : State := es.foldl (fun s e => apply e s) s

/-- Stages in sequence: each stage computes its effects from the state after the stages before it. -/
def chain (s : State) : List (State → List Effect) → List Effect
  | [] => []
  | f :: t => f s ++ chain (applyAll (f s) s) t

/-- What a meaning answers: the state after its effects, with the counter of free values advanced. -/
def commit (s : State) (es : List Effect) : Out := .next (apply .fresh (applyAll es s))

/-- A free 32-bit value of this step: one that the manual leaves unstated (log entry 2). -/
def State.freeWord (s : State) (i : Nat) : Word := Config.freeWord (1048576 * s.fresh + i)

/-- The n-fold free choice number i of this step: any of 0 to n - 1 (log entry 2). -/
def State.pick (s : State) (i n : Nat) : Nat := Config.freeNat (1048576 * s.fresh + i) % n

end Sys2Proof.Machine
end

