-- ==== Sys2Proof/Machine/Num.lean ====
section
/-! DEFINITION. Exact numbers, the number formats (07 R152 to R155), rounding (03 R83, R84) and narrowing
(03 R85). Values are exact until they are rounded (R6). -/
namespace Sys2Proof.Machine

/-- An exact value: NaN, an infinity, or a finite magnitude num / den with its sign (a zero keeps its
sign). -/
inductive Val where
  | nan
  | inf (neg : Bool)
  | fin (neg : Bool) (num den : Nat)
  deriving DecidableEq, Repr

/-- A float format (R152): exponent bits, significand bits, bias; `special`: 0 IEEE infinities and NaNs,
1 e4m3's one NaN and no infinity, 2 neither. -/
structure Fmt where
  e : Nat
  m : Nat
  bias : Nat
  special : Nat
  deriving DecidableEq, Repr

def fmtF64 : Fmt := ⟨11, 52, 1023, 0⟩
def fmtF32 : Fmt := ⟨8, 23, 127, 0⟩
def fmtF16 : Fmt := ⟨5, 10, 15, 0⟩
def fmtBf16 : Fmt := ⟨8, 7, 127, 0⟩
def fmtE4m3 : Fmt := ⟨4, 3, 7, 1⟩
def fmtE5m2 : Fmt := ⟨5, 2, 15, 0⟩
def fmtE2m3 : Fmt := ⟨2, 3, 1, 2⟩
def fmtE3m2 : Fmt := ⟨3, 2, 3, 2⟩
def fmtE2m1 : Fmt := ⟨2, 1, 1, 2⟩

/-- The float format of an element type code, if it is one (R58); e8m0 has none. -/
def fmtOf : Nat → Option Fmt
  | 0x0A => some fmtF16
  | 0x0B => some fmtBf16
  | 0x0C => some fmtF32
  | 0x0D => some fmtF64
  | 0x0E => some fmtE4m3
  | 0x0F => some fmtE5m2
  | 0x10 => some fmtE2m3
  | 0x11 => some fmtE3m2
  | 0x12 => some fmtE2m1
  | 0x14 => some fmtF16
  | 0x15 => some fmtBf16
  | _ => none

/-- The sign bit's place. -/
def Fmt.signBit (f : Fmt) : Nat := 2 ^ (f.e + f.m)

/-- The pattern of the largest finite value (R152). -/
def Fmt.maxBits (f : Fmt) : Nat :=
  match f.special with
  | 0 => (2 ^ f.e - 1) * 2 ^ f.m - 1
  | 1 => 2 ^ (f.e + f.m) - 2
  | _ => 2 ^ (f.e + f.m) - 1

/-- The pattern of an infinity (for e4m3 the NaN that stands in its place, R85). -/
def Fmt.infBits (f : Fmt) : Nat := f.maxBits + 1

/-- The canonical quiet NaN (R83, R85): in e4m3 0x7F, in a format without NaN +0. -/
def Fmt.nanBits (f : Fmt) : Nat :=
  match f.special with
  | 0 => (2 ^ f.e - 1) * 2 ^ f.m + 2 ^ (f.m - 1)
  | 1 => 2 ^ (f.e + f.m) - 1
  | _ => 0

/-- num / den times 2^k. -/
def scale2 (num den : Nat) (k : Int) : Nat × Nat :=
  if 0 ≤ k then (num * 2 ^ k.toNat, den) else (num, den * 2 ^ (-k).toNat)

/-- The value of a pattern (R152). -/
def Fmt.value (f : Fmt) (x : Nat) : Val :=
  let neg := bit x (f.e + f.m)
  let E := x / 2 ^ f.m % 2 ^ f.e
  let M := x % 2 ^ f.m
  let mag := x % f.signBit
  if f.special = 0 && E = 2 ^ f.e - 1 then (if M = 0 then .inf neg else .nan)
  else if f.special = 1 && mag = 2 ^ (f.e + f.m) - 1 then .nan
  else if E = 0 then
    let v := scale2 M 1 (1 - f.bias - f.m)
    .fin neg v.1 v.2
  else
    let v := scale2 (2 ^ f.m + M) 1 ((E : Int) - f.bias - f.m)
    .fin neg v.1 v.2

/-- A subnormal pattern: E = 0 and M nonzero. -/
def Fmt.subnormal (f : Fmt) (x : Nat) : Bool := x / 2 ^ f.m % 2 ^ f.e == 0 && x % 2 ^ f.m != 0

/-- The pattern with a subnormal read as zero of its sign under FZ (R158). -/
def Fmt.flush (f : Fmt) (fz : Bool) (x : Nat) : Nat :=
  if fz && f.subnormal x then (if bit x (f.e + f.m) then f.signBit else 0) else x

/-- The value of a source operand, flushed under FZ (R158). -/
def Fmt.read (f : Fmt) (fz : Bool) (x : Nat) : Val := f.value (f.flush fz (x % 2 ^ (f.e + f.m + 1)))

/-- The floor of the binary logarithm of num / den, both positive. -/
def ilog2 (num den : Nat) : Int :=
  let e0 : Int := (num.log2 : Int) - den.log2
  let v := scale2 den 1 e0
  if num * v.2 < v.1 then e0 - 1 else e0

/-- The rounding codes of R60. -/
def rnNearest : Nat := 0
def rnZero : Nat := 1
def rnDown : Nat := 2
def rnUp : Nat := 3
def rnAway : Nat := 4
def rnStoch : Nat := 5

/-- Whether the magnitude n + r / d, with 0 ≤ r < d, rounds up to n + 1 (R60, R84); `rv` is the stochastic
draw. -/
def roundsUp (rnd : Nat) (neg : Bool) (rv n r d : Nat) : Bool :=
  if r = 0 then false
  else match rnd with
    | 0 => decide (2 * r > d) || (decide (2 * r = d) && n % 2 == 1)
    | 1 => false
    | 2 => neg
    | 3 => !neg
    | 4 => decide (2 * r ≥ d)
    | _ => if neg then !decide (rv * d < (d - r) * 2 ^ 24) else decide (rv * d < r * 2 ^ 24)

/-- The integer multiple of 2^q nearest num / den below it, with the remainder (n, r, d): the value is
(n + r / d) 2^q. -/
def quant (num den : Nat) (q : Int) : Nat × Nat × Nat :=
  let v := scale2 num den (-q)
  (v.1 / v.2, v.1 % v.2, v.2)

/-- Whether an overflow gives the infinity, by rounding code and sign (R83 step 4). -/
def overflowsToInf (rnd : Nat) (neg : Bool) : Bool :=
  match rnd with
  | 1 => false
  | 2 => neg
  | 3 => !neg
  | _ => true

/-- round of R83 and the float rows of narrow (R85): a pattern of the format. -/
def Fmt.round (f : Fmt) (rnd : Nat) (sat fz : Bool) (rv : Nat) : Val → Nat
  | .nan => f.nanBits
  | .inf neg =>
    (if neg && f.special != 2 then f.signBit else if neg then f.signBit else 0)
      + (if f.special = 2 || (f.special = 1 && sat) then f.maxBits else f.infBits)
  | .fin neg num den =>
    let sgn := if neg then f.signBit else 0
    if num = 0 then sgn
    else
      let e := max (ilog2 num den) (1 - f.bias)
      let t := quant num den (e - f.m)
      let n := t.1 + (if roundsUp rnd neg rv t.1 t.2.1 t.2.2 then 1 else 0)
      let mag := (e + f.bias - 1).toNat * 2 ^ f.m + n
      if mag > f.maxBits then
        sgn + (if f.special = 2 || sat || !overflowsToInf rnd neg then f.maxBits else f.infBits)
      else if fz && f.subnormal mag then sgn
      else sgn + mag

/-- A value rounded to an integer by a rounding code: sign and magnitude (R85). -/
def roundInt (rnd rv : Nat) (neg : Bool) (num den : Nat) : Nat :=
  num / den + (if roundsUp rnd neg rv (num / den) (num % den) den then 1 else 0)

/-- An integer put into an integer type of width w: clamped under SAT, else modulo 2^w (R85, R135). -/
def fitInt (w : Nat) (isSigned sat : Bool) (x : Int) : Nat :=
  if sat then
    let lo : Int := if isSigned then -(2 ^ (w - 1)) else 0
    let hi : Int := if isSigned then 2 ^ (w - 1) - 1 else 2 ^ w - 1
    pattern w (max lo (min hi x))
  else pattern w x

/-- The integer of a sign and a magnitude. -/
def toInt (neg : Bool) (n : Nat) : Int := if neg then -(n : Int) else n

/-- narrow into an integer type (R85): infinities clamp, NaN gives 0. -/
def narrowInt (w : Nat) (isSigned sat : Bool) (rnd rv : Nat) : Val → Nat
  | .nan => 0
  | .inf neg => fitInt w isSigned true (toInt neg (2 ^ (w + 1)))
  | .fin neg num den => fitInt w isSigned sat (toInt neg (roundInt rnd rv neg num den))

/-- narrow into e8m0 (R85): a power of two by RND, values in a binade compared linearly. -/
def narrowE8m0 (sat : Bool) (rnd rv : Nat) : Val → Nat
  | .nan => 0xFF
  | .inf neg => if neg then 0xFF else if sat then 0xFE else 0xFF
  | .fin neg num den =>
    if neg || num = 0 then 0xFF
    else
      let e := ilog2 num den
      let v := scale2 num den (-e)
      let r := v.1 - v.2
      let up := if rnd = 0 && 2 * r = v.2 then Config.e8m0TieUp (e + 127).toNat
        else roundsUp rnd false rv 0 r v.2
      let c := e + 127 + (if up then 1 else 0)
      if c > 254 then (if sat then 0xFE else 0xFF) else c.toNat

/-- The value of an e8m0 code (R153). -/
def valE8m0 (x : Nat) : Val :=
  if x % 256 = 0xFF then .nan else let v := scale2 1 1 ((x % 256 : Nat) - 127); .fin false v.1 v.2

/-- The width and signedness of an integer type code (R58). -/
def intType : Nat → Option (Nat × Bool)
  | 0 => some (8, true)
  | 1 => some (16, true)
  | 2 => some (32, true)
  | 3 => some (64, true)
  | 4 => some (8, false)
  | 5 => some (16, false)
  | 6 => some (32, false)
  | 7 => some (64, false)
  | _ => none

/-- The exact value of an integer. -/
def valInt (x : Int) : Val := .fin (decide (x < 0)) x.natAbs 1

/-- The exact value of a pattern of an element type (R59, R152, R153). -/
def valOf (ty : Nat) (fz : Bool) (x : Nat) : Val :=
  match intType ty with
  | some (w, sg) => valInt (if sg then signed w x else (x % 2 ^ w : Nat))
  | none =>
    if ty = 0x13 then valE8m0 x
    else match fmtOf ty with
      | some f => f.read fz x
      | none => .nan

/-- narrow(x, type) of R85 for one element; the pattern at the type's own width. -/
def narrowTo (ty : Nat) (rnd : Nat) (sat fz : Bool) (rv : Nat) (x : Val) : Nat :=
  match intType ty with
  | some (w, sg) => narrowInt w sg sat rnd rv x
  | none =>
    if ty = 0x13 then narrowE8m0 sat rnd rv x
    else match fmtOf ty with
      | some f => f.round rnd sat fz rv x
      | none => 0

/-- The negative of a value. -/
def Val.neg : Val → Val
  | .nan => .nan
  | .inf n => .inf (!n)
  | .fin n a b => .fin (!n) a b

/-- The exact product: 0 times an infinity is NaN; signs by exclusive or (R157, R161). -/
def Val.mul : Val → Val → Val
  | .nan, _ => .nan
  | _, .nan => .nan
  | .inf a, .inf b => .inf (a != b)
  | .inf a, .fin b n _ => if n = 0 then .nan else .inf (a != b)
  | .fin a n _, .inf b => if n = 0 then .nan else .inf (a != b)
  | .fin a n d, .fin b n' d' => .fin (a != b) (n * n') (d * d')

/-- The exact sum of two rationals, over the greater denominator when one divides the other. -/
def ratAdd (a : Int) (d : Nat) (b : Int) (d' : Nat) : Int × Nat :=
  if d = d' then (a + b, d)
  else if d' % d = 0 then (a * (d' / d : Nat) + b, d')
  else if d % d' = 0 then (a + b * (d / d' : Nat), d)
  else (a * d' + b * d, d * d')

/-- The exact sum of terms, with the zero signs of R157; `down` says that the rounding is rd. -/
def Val.sum (down : Bool) (ts : List Val) : Val :=
  if ts.any (· == .nan) then .nan
  else
    let pos := ts.any (· == .inf false)
    let neg := ts.any (· == .inf true)
    if pos && neg then .nan
    else if pos then .inf false
    else if neg then .inf true
    else
      let t := ts.foldl (fun (acc : Int × Nat) v =>
        match v with
        | .fin n a d => ratAdd acc.1 acc.2 (toInt n a) d
        | _ => acc) (0, 1)
      if t.1 = 0 then
        let zeros := ts.all fun | .fin _ a _ => a == 0 | _ => false
        let negs := ts.all fun | .fin n _ _ => n | _ => false
        let poss := ts.all fun | .fin n _ _ => !n | _ => false
        .fin (if zeros && (negs || poss) then negs else down) 0 1
      else .fin (decide (t.1 < 0)) t.1.natAbs t.2

/-- The exact sum of two values. -/
def Val.add (down : Bool) (a b : Val) : Val := Val.sum down [a, b]

/-- The exact quotient by a finite nonzero value (R368). -/
def Val.div : Val → Val → Val
  | .nan, _ => .nan
  | _, .nan => .nan
  | .inf _, .inf _ => .nan
  | .inf a, .fin b _ _ => .inf (a != b)
  | .fin a _ _, .inf b => .fin (a != b) 0 1
  | .fin a n d, .fin b n' d' => if n' = 0 then .nan else .fin (a != b) (n * d') (d * n')

/-- The order of values with -0 below +0 (R162): a < b. -/
def Val.lt : Val → Val → Bool
  | .nan, _ => false
  | _, .nan => false
  | .inf a, .inf b => a && !b
  | .inf a, .fin _ _ _ => a
  | .fin _ _ _, .inf b => !b
  | .fin a n d, .fin b n' d' =>
    if n = 0 && n' = 0 then a && !b else decide (toInt a (n * d') < toInt b (n' * d))

/-- Equality of values, with -0 equal to +0 (R163). -/
def Val.eqv : Val → Val → Bool
  | .nan, _ => false
  | _, .nan => false
  | .inf a, .inf b => a == b
  | .fin a n d, .fin b n' d' => decide (toInt a (n * d') = toInt b (n' * d))
  | _, _ => false

/-- round32 of R291: f32, to nearest even, without SAT or FZ. -/
def round32 (x : Val) : Nat := fmtF32.round rnNearest false false 0 x

/-- The value of an f32 pattern, never flushed. -/
def val32 (x : Nat) : Val := fmtF32.value (x % 2 ^ 32)

/-- round32(x + y) of two f32 patterns. -/
def add32 (x y : Nat) : Nat := round32 (Val.add false (val32 x) (val32 y))

/-- FMAXNM of R162 on f32 patterns, without flushing. -/
def maxNum32 (x y : Nat) : Nat :=
  match val32 x, val32 y with
  | .nan, .nan => fmtF32.nanBits
  | .nan, _ => y
  | _, .nan => x
  | a, b => if Val.lt a b then y else x

/-- FMINNM of R162 on f32 patterns, without flushing. -/
def minNum32 (x y : Nat) : Nat :=
  match val32 x, val32 y with
  | .nan, .nan => fmtF32.nanBits
  | .nan, _ => y
  | _, .nan => x
  | a, b => if Val.lt b a then y else x

/-- One step of the LFSR (R84). -/
def lfsrStep (s : Word) : Word :=
  (s >>> 1) ^^^ (if s.getLsbD 0 then 0x80200003 else 0)

/-- The stochastic draw of element h of lane i from the stepped state (R84). -/
def lfsrDraw (s : Word) (i h : Nat) : Nat := (s.rotateLeft ((i + 16 * h) % 32)).toNat % 2 ^ 24

/-- The class bits of FCLASS (R164) of a pattern. -/
def Fmt.classOf (f : Fmt) (x : Nat) : Nat :=
  let neg := bit x (f.e + f.m)
  match f.value x with
  | .nan => if bit x (f.m - 1) then 512 else 256
  | .inf _ => if neg then 1 else 128
  | .fin _ n _ =>
    if n = 0 then (if neg then 8 else 16)
    else if f.subnormal x then (if neg then 4 else 32)
    else (if neg then 2 else 64)

end Sys2Proof.Machine
end

