-- ==== Sys2Proof/Machine/Issue.lean ====
section
/-! DEFINITION. The issue of one instruction word: what it reads, the decoder's checks in the order of
R31, raising a trap (R86), and what follows a word (R55, R63, R65, R245). -/
namespace Sys2Proof.Machine

/-- The issue of a word: the state, the warp or helper context and its key, the issuing slices. -/
structure Issue where
  s : State
  k : Nat
  sl : Nat
  w : Warp
  deriving DecidableEq, Repr

/-- The slices of a context that hold an unexited lane (R117). -/
def liveSlices (w : Warp) : Nat :=
  maskOf ((span 0 8).filter fun j => bits (w.m.get 14).toNat (4 * j + 3) (4 * j) ≠ 0)

/-- A slice of a control state. -/
def Ctl.slice (c : Ctl) (j : Nat) : Slice := c.slices.getD j {}

/-- The slices of a mask changed. -/
def Ctl.onSlices (c : Ctl) (sl : Nat) (f : Slice → Slice) : Ctl :=
  { c with slices := c.slices.mapIdx fun j x => if bit sl j then f x else x }

/-- The control state and the first issuing slice of an issue. -/
def Issue.c (I : Issue) : Ctl := I.w.ctl
def Issue.slice (I : Issue) : Slice := I.c.slice (lowest 8 I.sl)

/-- The mode in force (R57, R391). -/
def Issue.mode (I : Issue) : Nat :=
  (if I.c.priv then I.slice.modeSup else I.slice.mode).toNat

/-- The fields of the mode (R57). -/
def Issue.ty (I : Issue) : Nat := bits I.mode 15 11
def Issue.rnd (I : Issue) : Nat := bits I.mode 10 8
def Issue.gm (I : Issue) : Nat := bits I.mode 7 4
def Issue.gs (I : Issue) : Nat := bits I.mode 3 2
def Issue.sat (I : Issue) : Bool := bit I.mode 1
def Issue.fz (I : Issue) : Bool := bit I.mode 0

/-- The lanes of the issuing slices. -/
def Issue.lanes (I : Issue) : Nat := lanesOf I.sl

/-- A mask register as the issue reads it. A write in flight to it has taken place or not (R75). -/
def Issue.m (I : Issue) (n : Nat) : Word := I.w.readM n

/-- The active lanes (R82). -/
def Issue.active (I : Issue) : Nat :=
  let a := (I.m 0 &&& I.m 14).toNat &&& I.lanes
  if I.gs = 1 then a &&& (I.m I.gm).toNat
  else if I.gs = 2 then a &&& (~~~ I.m I.gm).toNat
  else a

/-- The active lanes in ascending order. -/
def Issue.act (I : Issue) : List Nat := setBits 32 I.active

/-- The block of the issue. -/
def Issue.blk (I : Issue) : Block := I.s.blk (blockOf I.k)

/-- A vector element, and a scalar register, of a context as an instruction reads them now. -/
def State.readV (s : State) (k r l : Nat) : Word := (s.warp k).readV r l
def State.readS (s : State) (k n : Nat) : Word := (s.warp k).readS n

/-- A vector element, and a scalar register, as the issue reads them. -/
def Issue.v (I : Issue) (r l : Nat) : Word := I.s.readV I.k r l
def Issue.rs (I : Issue) (n : Nat) : Word := I.s.readS I.k n

/-- A 64-bit pair of scalar registers, low half in the even register (R59). -/
def Issue.pair (I : Issue) (n : Nat) : DWord := (I.rs (n + 1)) ++ (I.rs n)

/-- A 64-bit pair of vector registers in one lane. -/
def Issue.vpair (I : Issue) (r l : Nat) : DWord := (I.v (r + 1) l) ++ (I.v r l)

/-- A warp-level scalar operand (R101). -/
def Issue.op (I : Issue) : SOp → Word
  | .reg n => I.rs n
  | .const c => BitVec.ofInt 32 c
  | .lit w => w
  | .fconst _ => 0
  | .laneid => 0

/-- The registers a scalar operand names. -/
def opRegs : SOp → List Nat
  | .reg n => [n]
  | _ => []

/-- The lane that an instruction executing once names: the lowest live lane of the issuing slices, 32 if
none (R107, R389). -/
def Issue.lane (I : Issue) : Nat := lowest 32 ((I.m 14).toNat &&& I.lanes)

/-- The role classes of R30. -/
inductive Cls where
  | a
  | c
  | m
  | e
  | l
  | b
  | s
  deriving DecidableEq, Repr

/-- What the decoder checks of a word (R31): class; whether its type, rounding and fields are admitted;
supervisor mode beyond the class; whether a helper may execute it (R311); whether it executes once
(R389); the vector and scalar registers and acc tiles it names; the vector registers it writes, in the
active lanes or in the lanes given (R312). -/
structure Chk where
  cls : Cls
  legal : Bool := true
  priv : Bool := false
  helper : Bool := true
  once : Bool := false
  vs : List Nat := []
  ss : List Nat := []
  tiles : List Nat := []
  dst : List Nat := []
  dlanes : Option Nat := none
  deriving DecidableEq, Repr

/-- Whether a warp is admitted by a role class (R30). -/
def Cls.admits (x : Cls) (role warp : Nat) : Bool :=
  match x with
  | .a => true
  | .c => role == 2
  | .m => role == 1
  | .e => role == 0
  | .l => role == 0 && warp == 0
  | .b => true
  | .s => true

/-- The number of vector registers a context may name (R32, R311). -/
def Ctl.vbudget (c : Ctl) : Nat := if c.helper.isSome then 16 else c.vb

/-- The number of scalar registers a context may name (R38, R311). -/
def Ctl.sbudget (c : Ctl) : Nat := if c.helper.isSome then 16 else 160

/-- Whether a word of this kind is none of those that are illegal in a helper (R311): those named there and every one of
class B or L. Words of class C, M and S meet the checks of R30 and R31. -/
def Chk.helperAdmits (x : Chk) : Bool :=
  x.helper && (match x.cls with | .b => false | .l => false | _ => true)

/-- The view of an open span: its foreman lane's registers below min(VBE, 32) (R312). -/
def viewSize (c : Ctl) : Nat := min c.vb 32

/-- Whether a user-mode word of the foreman's warp would write the view (R312). -/
def Issue.viewWrite (I : Issue) (x : Chk) : Bool :=
  match I.c.span with
  | none => false
  | some sp =>
    !I.c.priv && bit (x.dlanes.getD I.active) sp.lane && x.dst.any (fun r => r < viewSize I.c)

/-- The trap the decoder raises, in the order of R31; then the view rule of R312. -/
def Chk.fault (x : Chk) (I : Issue) : Option Nat :=
  if !x.legal || (I.c.helper.isSome && !x.helperAdmits) then some 0x01
  else if !x.cls.admits I.c.role (warpNo I.k) then some 0x03
  else if (x.priv || x.cls == .s) && !I.c.priv then some 0x18
  else if x.vs.any (fun r => I.c.vbudget ≤ r) || x.ss.any (fun n => I.c.sbudget ≤ n)
      || x.tiles.any (fun t => I.blk.img.tiles ≤ t) then some 0x04
  else if I.viewWrite x then some 0x0D
  else none

/-- What follows a word: the next word or, at the end, the next clause; a transfer; the next clause at
once; a wait at this word; this word again, when what it needs is not there yet; or nothing more, when the
meaning has placed its slices itself. -/
inductive Flow where
  | next
  | goto (pc : DWord)
  | ends
  | wait (x : Wait)
  | again
  | placed
  deriving DecidableEq, Repr

/-- The words the current word stands for with its extension and literals (R70, R71). -/
def Slice.span (x : Slice) : Nat := wordSpan (x.words.getD x.idx 0)

/-- The clause that follows in sequence (R55). -/
def Slice.nextClause (x : Slice) : DWord := x.pc + dword (roundUp (8 + 4 * x.words.length) 8)

/-- A slice that has left its clause for an address; under single-step it is marked (R130). It waits for the combine
requests of the clause to be accepted (R365). -/
def Slice.leave (step : Bool) (pc : DWord) (x : Slice) : Slice :=
  { x with pc, inClause := false, idx := 0, words := [], h0 := 0, stepped := step, cmb := none
           wait := x.cmb.map fun p => .combine p.1 p.2 }

/-- A slice after a word (R55, R63). -/
def Slice.after (step : Bool) (f : Flow) (x : Slice) : Slice :=
  match f with
  | .next =>
    if x.idx + x.span < x.words.length then { x with idx := x.idx + x.span, wait := none }
    else x.leave step x.nextClause
  | .goto pc => x.leave step pc
  | .ends => x.leave step x.nextClause
  | .wait w => { x with wait := some w }
  | .again => x
  | .placed => x

/-- The shared-aperture address of an offset of a block (R175). -/
def apertureAddr (b off : Nat) : Nat := 8 * 2 ^ 60 + b / 8 % 96 % 16 * 2 ^ 56 + off

/-- CAUSE and WADDR of a slice's wait (R46). -/
def Slice.cause (b : Nat) (x : Slice) : Nat × Nat :=
  match x.regang, x.wait with
  | some a, _ => (0x0D, a.1)
  | none, some (.push off _ _ _) => (0x02, apertureAddr b off)
  | none, some (.pop off _ _ _) => (0x01, apertureAddr b off)
  | none, some (.bar off _ _) => (0x03, apertureAddr b off)
  | none, some (.word off _ _ _) => (0x03, apertureAddr b off)
  | none, some (.rend _) => (0x03, 0)
  | none, some .fired => (0x03, 0)
  | none, some (.abar off _ _) => (0x04, apertureAddr b off)
  | none, some (.waitc cls n) => (0x0B, cls * 256 + n)
  | none, some (.combine name _) => (0x06, name)
  | none, some (.release _ _ _ _ out) => (0x06, out)
  | none, some (.escalated va _ _) => (0x07, va)
  | none, some (.full cls _) => (0x09, cls)
  | none, some (.hjoin _ _) => (0x0E, 0)
  | none, some (.replies a _) => (0x00, a)
  | none, some _ => (0x0F, 0)
  | none, none => if x.yielded then (0x05, 0) else (0x0F, 0)

/-- Whether a wait ends by its word executing again, rather than by a step of its own. -/
def Wait.retries : Wait → Bool
  | .push _ _ _ _ | .pop _ _ _ _ | .bar _ _ _ | .abar _ _ _ | .word _ _ _ _ | .rend _ | .waitc _ _ | .combine _ _
  | .replies _ _ => false
  | _ => true

/-- Whether a slice stands stalled: it waits, other than by trying its word again, or waits at REGANG (R42, R43, R127). -/
def Slice.stalled (x : Slice) : Bool :=
  x.regang.isSome || (match x.wait with | none => false | some .blocked => false | some _ => true)

/-- Whether a stalled or yielded slice stands where its warp may park (R43, R49, R65): at a clause boundary, or at the
first word of a clause. -/
def Slice.mayPark (x : Slice) : Bool :=
  x.regang.isSome ||
  match x.wait with
  | none => x.yielded && !x.inClause
  | some (.push _ _ _ _) | some (.pop _ _ _ _) | some (.bar _ _ _) | some (.abar _ _ _) | some (.word _ _ _ _)
  | some (.rend _) | some .fired | some (.waitc _ _) | some (.release _ _ _ _ _) | some (.full _ _) => !x.inClause || x.idx == 0
  | some (.combine _ _) => !x.inClause
  | some (.replies _ _) => !x.inClause
  | some (.escalated _ _ _) => true
  | some _ => false

/-- The helper contexts that serve on the slices of a host (R310). -/
def State.lent (s : State) (k : Nat) : List (Nat × Warp) :=
  s.warps.filter fun p => decide (helperBase ≤ p.1) && hostKey p.1 == k && p.2.ctl.helper.isSome

/-- A warp moved to Parking: its reservations are dropped (R42, R244). -/
def Ctl.park (c : Ctl) (cause waddr : Nat) : Ctl :=
  { c with
    st := .parking, cause, waddr
    slices := c.slices.map fun x => { x with resv := none } }

/-- At the end of a clause a warp that issued a remote request, YIELD or an escalating SRET parks (R42,
R65); a helper, or a warp that lends slices or has a span, stalls for its replies instead (R311, R323); a slice of a
parted warp is marked as yielded, or stalls for its replies (R43, R122). -/
def Ctl.endClause (c : Ctl) (sl : Nat) (lends : Bool) : Ctl :=
  let bare := c.onSlices sl fun x => { x with park := none }
  match (c.slice (lowest 8 sl)).park with
  | none => c
  | some (cause, waddr, ids) =>
    let await := fun (x : Slice) => if ids.isEmpty || x.wait.isSome then x else { x with wait := some (.replies waddr ids) }
    if c.st = .exited then bare
    else if c.helper.isSome || c.span.isSome || lends then bare.onSlices sl await
    else if c.parted then
      c.onSlices sl await
    else bare.park cause waddr

/-- A long-latency stall (R127): an active warp whose live slices are all stalled or have yielded leaves its port's active
set; a helper, and a warp that lends slices or has a span, stays in it (R323). -/
def Ctl.stall (c : Ctl) (now live : Nat) (lends : Bool) : Ctl :=
  let xs := (setBits 8 live).map c.slice
  if c.st = .active && c.helper.isNone && c.span.isNone && !lends && xs.any Slice.stalled
    && xs.all fun x => x.stalled || x.yielded
  then { c with st := .pending, stalled := now } else c

/-- The slice that single-step steps (R129). -/
def Ctl.focus (c : Ctl) : Nat := bits c.dbgctl.toNat 3 1

/-- Whether the end of a clause of a slice is a step of single-step (R130). -/
def Ctl.steps (c : Ctl) (j : Nat) : Bool := c.dbgctl.getLsbD 0 && !c.priv && (!c.parted || j == c.focus)

/-- The control state after a word of the slices `sl` (R55, R64, R65). -/
def Ctl.after (c : Ctl) (now live sl : Nat) (lends : Bool) (f : Flow) : Ctl :=
  let d := { c with slices := c.slices.mapIdx fun j (x : Slice) => if bit sl j then x.after (c.steps j) f else x }
  let d := if (d.slice (lowest 8 sl)).inClause then d else d.endClause sl lends
  d.stall now live lends

/-- The effects of leaving a word. -/
def advance (s : State) (k sl : Nat) (f : Flow) : List Effect :=
  [.ctl k ((s.ctl k).after s.fresh (liveSlices (s.warp k)) sl (!(s.lent k).isEmpty) f)]

/-- A wait that tells its word, when that executes again, since when it waits, or that it waits no more (R125, R202, R230). -/
def Wait.kept : Wait → Bool
  | .acks _ | .quiet _ | .fired | .owning _ => true
  | _ => false

/-- A slice whose word issues: its yielded mark and wait clear (R122), but for a wait that tells the word what it
waits for; and the word counts against its reservation (R245). -/
def Slice.ticked (x : Slice) : Slice :=
  { x with
    yielded := false
    wait := x.wait.filter Wait.kept
    resv := x.resv.map fun r => { r with count := r.count + 1 } }

/-- A context that issues a word for its slices has issued now (R127), and the turn is theirs (R128). -/
def Ctl.ticked (c : Ctl) (now sl : Nat) : Ctl := { c.onSlices sl Slice.ticked with issued := now, turn := lowest 8 sl }

/-- A word issues. -/
def tick (s : State) (k sl : Nat) : List Effect := [.ctl k ((s.ctl k).ticked s.fresh sl)]

/-- The iteration and stream a helper lane works on (R322), from the foreman's span. -/
def spanAt (sp : Option Span) (t : Option Nat) : Nat × Nat :=
  match sp, t with
  | some sp, some n => (sp.lo + 32 * ((sp.streams.getD n ⟨0, 0, 0, none⟩).next - 1) + n, n)
  | _, _ => (0, 0xFF)

/-- A trap deferred from an asynchronous fault, to be raised at a slice's next clause boundary (R190, R271,
R335); in a warp that has exited it is a kernel fault of its domain. -/
def deferTrap (s : State) (k sl : Nat) (t : Trap) : List Effect :=
  let c := s.ctl k
  if c.st = .exited || !(find s.warps k).isSome then [.ctl k { c with trap := some { t with slices := 2 ^ sl } }]
  else [.ctl k (c.onSlices (2 ^ sl) fun x => { x with defer := x.defer ++ [{ t with slices := 2 ^ sl }] })]

/-- The extension of R322. -/
def helperExt (hpc faddr iter stream hwarp hslice rank cause : Nat) : Nat :=
  pack [(448, 64, hpc), (384, 64, faddr), (352, 32, iter), (344, 8, stream), (336, 8, hwarp), (328, 8, hslice),
    (320, 8, rank), (312, 8, cause)]

/-- Helper-fault comes to a foreman's warp, to be raised at its next clause boundary, and every helper of its crew stops
(R322). -/
def crewFault (foreman addr ext : Nat) (s : State) : List Effect :=
  let f := s.ctl foreman
  let crew := ((f.span.map Span.crew).getD []).filterMap id
  deferTrap s foreman (lowest 8 (liveSlices (s.warp foreman))) { code := 0x0E, addr, extk := 3, ext } ++
    crew.map fun q => .ctl q { (s.ctl q).onSlices 255 fun y => { y with defer := [] } with st := .exited, trap := none }

/-- A fault of a helper charged to its foreman (R322). -/
def chargeForeman (s : State) (k : Nat) (h : Helper) (t : Trap) : List Effect :=
  let x := (s.ctl k).slice h.slice
  let lane := lowest 4 (bits t.lmask (4 * h.slice + 3) (4 * h.slice)) % 4
  let it := spanAt (s.ctl h.foreman).span (h.cur.getD lane none)
  crewFault h.foreman t.addr (helperExt x.pc.toNat t.addr it.1 it.2 (warpNo h.host) h.slice h.rank t.code) s

/-- A trap with the fields its record takes from the trapping word (R389). -/
def Issue.fill (I : Issue) (once : Bool) (t : Trap) : Trap :=
  let x := I.slice
  let lm := if t.lmask = 0 && once && I.lane < 32 then 2 ^ I.lane else t.lmask
  let m := (I.m 0).toNat
  { t with
    tpc := x.pc.toNat, word := (x.words.getD x.idx 0).toNat, widx := x.idx, slices := I.sl, m0 := m, lmask := lm
    hm0 := (if t.first then t.hm0 else if lm ≠ 0 then lm else m &&& (I.m 14).toNat) &&& I.lanes }

/-- A trap raised in a context (R86): pending until the handler is entered (R391) or the domain ends
(R395). A helper's first-touch fault enters its own handler; any other is charged to the foreman. -/
def raise (s : State) (k : Nat) (t : Trap) : List Effect :=
  let c := s.ctl k
  match c.helper with
  | none => [.ctl k { c with trap := some t }]
  | some h =>
    if t.code = 0x08 && t.first && (s.ctxOf (s.blk (blockOf k)).ctx).htvec ≠ 0 && !c.priv
    then [.ctl k { c with trap := some t }]
    else chargeForeman s k h t

/-- A word that is to issue again has not counted against the reservations of its slices (R245). -/
def untick (old s : State) (k sl : Nat) : List Effect :=
  let back := fun (j : Nat) (r : Resv) =>
    ({ r with count := (((old.ctl k).slice j).resv.map Resv.count).getD r.count } : Resv)
  let one := fun (j : Nat) (x : Slice) => if bit sl j then { x with resv := x.resv.map (back j) } else x
  [.ctl k { s.ctl k with slices := (s.ctl k).slices.mapIdx one }]

/-- A word that cannot take place yet is tried again: its slices stand blocked, and its warp has not issued. -/
def retry (old s : State) (k sl : Nat) : List Effect :=
  let held := fun (j : Nat) => (((old.ctl k).slice j).wait.filter Wait.kept).getD .blocked
  let one := fun (j : Nat) (x : Slice) =>
    if bit sl j then { x with wait := some (held j), yielded := ((old.ctl k).slice j).yielded } else x
  untick old s k sl ++ chain (applyAll (untick old s k sl) s) [fun s =>
    [.ctl k { s.ctl k with
      slices := (s.ctl k).slices.mapIdx one, issued := (old.ctl k).issued, turn := (old.ctl k).turn }]]

/-- What follows a word (R55, R245): a wait after which the word executes again counts it then. -/
def follow (old s : State) (k sl : Nat) (f : Flow) : List Effect :=
  match f with
  | .again => retry old s k sl
  | .wait w => advance s k sl f ++ (if w.retries then untick old (applyAll (advance s k sl f) s) k sl else [])
  | _ => advance s k sl f

/-- An instruction word: the decoder's checks, then its meaning, then what follows the word. A trap
leaves every register, flag, mask and tile as it was (R86). -/
def issue (chk : Issue → Chk) (body : Issue → Except Trap (List Effect × Flow)) (s : State) : Out :=
  match find s.warps s.cur with
  | none => .fault .noIssuer
  | some w =>
    let I : Issue := ⟨s, s.cur, s.slices, w⟩
    match (chk I).fault I with
    | some code => commit s (raise s I.k (I.fill (chk I).once { code }))
    | none =>
      let s1 := applyAll (tick s I.k I.sl) s
      match body ⟨s1, I.k, I.sl, s1.warp I.k⟩ with
      | .error t => commit s (raise s I.k (I.fill (chk I).once t))
      | .ok (es, f) =>
        let s2 := applyAll es (if f = .again then s else s1)
        commit s2 (follow s s2 I.k I.sl f)

end Sys2Proof.Machine
end

