-- ==== Sys2Proof/Machine/Mem.lean ====
section
/-! DEFINITION. Addresses and memory: generic addresses (08 R175 to R178), the chip-local map (01 R12), the
page-table walk and its checks (08 R197 to R201), what a lane's access reaches, the snapshot's treatment of
writes (17 R407 to R410), and the translation area of a trap record (08 R204). -/
namespace Sys2Proof.Machine

/-- This chip's number (R327). -/
def State.chip (s : State) : Nat := s.mgmt.fabcfg.toNat % 512

/-- Whether a unit is fenced (R26). -/
def State.isFenced (s : State) (kind die n : Nat) : Bool :=
  s.vil.fenced.any fun f => f.kind == kind && f.die == die && f.n == n

/-- The fault of a vault access (R185): fenced slice, or beyond the vault part. -/
def State.vaultFault (s : State) (pa slice : Nat) : Option Nat :=
  let die := slice / 96
  if s.isFenced 1 die (slice % 96) then some 0x12
  else if (pa - 0x60000000000) % 0x400000 ≥ (s.mgmt.split.getD die (0, 0)).1 * 65536 then some 0x09
  else none

/-- The home slice of a line of HBM, of host memory or of a vault, numbered 96 d + j (R183): by the hash over the slices of
its die that were in service at the last context boundary. -/
def State.homeSlice (s : State) (pa : Nat) : Option Nat :=
  let line := bits pa 37 7
  let on := fun (d : Nat) =>
    let js := s.vil.slicesIn.getD d []
    (js[(line ^^^ (line / 2 ^ 11) ^^^ (line / 2 ^ 22)) % js.length]?).map (96 * d + ·)
  match region pa with
  | .hbm => on (hbmDie pa)
  | .host => on (bits pa 12 12)
  | .vault j => some j
  | _ => none

/-- The HBM stack of an address (R11): 64 GiB each, four per die. -/
def hbmStack (pa : Nat) : Nat := pa / 2 ^ 36

/-- Whether the sector of an address is poisoned (R396): marked, or in a fenced HBM stack or the vault of a fenced slice
(R26). -/
def State.poisoned (s : State) (pa : Nat) : Bool :=
  s.poison.contains (pa / 32) || (match region pa with
    | .hbm => s.isFenced 3 (hbmStack pa / 4) (hbmStack pa % 4)
    | .vault j => s.isFenced 1 (j / 96) (j % 96)
    | _ => false)

/-- Whether any sector of n bytes at an address is poisoned. -/
def State.poisonedRange (s : State) (pa n : Nat) : Bool :=
  (span (pa / 32) ((pa % 32 + n + 31) / 32)).any fun q => s.poisoned (32 * q)

/-- The n bytes of physical memory at an address, as a number. -/
def State.phys (s : State) (pa n : Nat) : Nat := ofBytes (Sparse.bytes s.mem pa n)

/-- A generic address class (R175). -/
inductive Generic where
  | shared (rank off : Nat)
  | reg (warp r l b : Nat)
  | stack (o : Nat)
  | virt (va : Nat)
  | bad
  deriving DecidableEq, Repr

/-- The class of a generic address, with the reserved bits of its class checked (R175). An exact sum beyond 64 bits (R6) is
no address. -/
def generic (ea : Nat) : Generic :=
  if 2 ^ 64 ≤ ea then .bad
  else match bits ea 63 60 with
  | 8 => if bits ea 55 20 = 0 then .shared (bits ea 59 56) (bits ea 19 0) else .bad
  | 9 => if bits ea 59 21 = 0 then .reg (bits ea 20 15) (bits ea 14 7) (bits ea 6 2) (bits ea 1 0) else .bad
  | 10 => if bits ea 59 32 = 0 then .stack (bits ea 31 0) else .bad
  | _ => if bits ea 63 56 = 0 ∨ bits ea 63 56 = 255 then .virt ea else .bad

/-- How a walk ends (R199): at a leaf, at a first-touch entry, at a malformed or not-present one, or at a poisoned one. -/
inductive WalkEnd where
  | leaf
  | first
  | absent
  | spoiled
  deriving DecidableEq, Repr

/-- A walk's end, with the level, the entry and its physical address, and the table entries on its way (level, entry,
address). -/
structure Walk where
  kind : WalkEnd
  level : Nat
  entry : Nat
  pa : Nat
  c64 : Bool := false
  path : List (Nat × Nat × Nat) := []
  deriving DecidableEq, Repr

/-- Fields of a page-table entry (R198). -/
def pteV (e : Nat) : Bool := bit e 0
def pteLeaf (e : Nat) : Bool := bit e 1
def pteW (e : Nat) : Bool := bit e 2
def pteX (e : Nat) : Bool := bit e 3
def pteU (e : Nat) : Bool := bit e 4
def pteA (e : Nat) : Bool := bit e 5
def pteD (e : Nat) : Bool := bit e 6
def pteC64 (e : Nat) : Bool := bit e 7
def pteAttr (e : Nat) : Nat := bits e 9 8
def pteAuto (e : Nat) : Bool := bit e 10

/-- The page size of a leaf of a level. -/
def levelSize (level : Nat) : Nat := 2 ^ (12 + 9 * (level - 1))

/-- Whether a valid entry is malformed (R199). -/
def pteMalformed (level e : Nat) : Bool :=
  bits e 63 52 != 0 || bit e 11
    || (level == 1 && !pteLeaf e) || (decide (level ≥ 4) && pteLeaf e)
    || (pteLeaf e && (pteAttr e == 3 || decide (bits e 51 12 * 4096 % levelSize level ≠ 0)))
    || (!pteLeaf e && (bits e 51 43 != 0 || bits e 9 2 != 0))

/-- Whether the aligned group of 16 level-1 entries around an entry forms a 64 KiB page (R199). -/
def groupOk (m : Memory) (pa e : Nat) : Bool :=
  let base := pa / 128 * 128
  let es := (span 0 16).map fun i => ofBytes (Sparse.bytes m (base + 8 * i) 8)
  let e0 := es.getD 0 0
  pteC64 e && decide (bits e0 51 12 % 16 = 0)
    && (es.mapIdx fun i x => pteV x && pteC64 x && bits x 4 0 == bits e 4 0 && bits x 11 7 == bits e 11 7
          && bits x 51 12 == bits e0 51 12 + i).all id

/-- The units that hold an agent's translations (R17): its core's TLB and its cluster's. An agent that is no core has none
of its own (log entry 73). -/
def tlbUnits (who : Nat) : List Nat := if who < 192 then [who, 192 + who / 16] else []

/-- The walker of an agent: that of its core's die; agents that are no core are numbered 192 and their die. -/
def walkerOf (who : Nat) : Nat := if who < 192 then 204 + who / 96 else who + 12

/-- The walk of levels from a table (R197, R199); entries are read by physical address, and a table entry that the walker
has cached may serve in place of memory's (R201). Poison met ends the walk (R26). -/
def walkFrom (s : State) (cache : List Tlb) (i va : Nat) : List Nat → Nat → Walk
  | [], _ => { kind := .absent, level := 0, entry := 0, pa := 0 }
  | level :: rest, table =>
    let pa := table + 8 * bits va (12 + 9 * level - 1) (12 + 9 * (level - 1))
    let now := ofBytes (Sparse.bytes s.mem pa 8)
    let old := if level = 1 then none else
      cache.find? fun t => t.level == level && t.base == va / levelSize level * levelSize level && t.entry != now
    match old.filter fun _ => Config.freeNat (1048576 * s.fresh + 200000 + 8 * i + level) % 2 == 1 with
    | some t => let w := walkFrom s cache i va rest (bits t.entry 42 12 * 4096); { w with path := (level, t.entry, t.pa) :: w.path }
    | none =>
      if s.poisoned pa || (level == 1 && pteV now && pteC64 now && s.poisonedRange (pa / 128 * 128) 128)
      then { kind := .spoiled, level, entry := 0, pa }
      else if !pteV now then { kind := if pteAuto now then .first else .absent, level, entry := now, pa }
      else if pteMalformed level now then { kind := .absent, level, entry := now, pa }
      else if pteLeaf now then { kind := .leaf, level, entry := now, pa, c64 := level == 1 && groupOk s.mem pa now }
      else let w := walkFrom s cache i va rest (bits now 42 12 * 4096); { w with path := (level, now, pa) :: w.path }

/-- The walk of a context's virtual address from PTROOT (R197) by an agent's walker. -/
def State.walkBy (s : State) (who i ctx va : Nat) : Walk :=
  walkFrom s (s.tlb.filter fun t => t.unit == walkerOf who && t.ctx == ctx) i va [5, 4, 3, 2, 1]
    (bits (s.ctxOf ctx).ptroot.toNat 42 12 * 4096)

/-- The walk of a context's virtual address as memory stands. -/
def State.walk (s : State) (ctx va : Nat) : Walk :=
  walkFrom s [] 0 va [5, 4, 3, 2, 1] (bits (s.ctxOf ctx).ptroot.toNat 42 12 * 4096)

/-- The size of the page a walk found: 64 KiB for a group. -/
def Walk.size (w : Walk) : Nat := if w.c64 then 65536 else levelSize w.level

/-- The TLB entry of a walk that found a leaf, in a unit. -/
def Walk.tlb (ctx va unit : Nat) (w : Walk) : Tlb :=
  { unit, ctx, level := if w.c64 then 0 else w.level, base := va / w.size * w.size, entry := w.entry, pa := w.pa }

/-- The walk a TLB entry stands for. -/
def Tlb.walk (t : Tlb) : Walk :=
  { kind := .leaf, level := if t.level = 0 then 1 else t.level, entry := t.entry, pa := t.pa, c64 := t.level == 0 }

/-- Whether a TLB entry maps a context's address; one loaded without D serves no write (R199). -/
def Tlb.hits (t : Tlb) (ctx va : Nat) (write : Bool) : Bool :=
  t.ctx == ctx && t.base == va / (t.walk).size * (t.walk).size && (!write || pteD t.entry)

/-- The entry an access uses: the walk as memory stands, or freely any entry of its core's or cluster's TLB that maps the
address until TLBINV removes it (R201). -/
def State.lookup (s : State) (who i ctx va : Nat) (write : Bool) : Walk :=
  let w := s.walkBy who i ctx va
  let near := s.tlb.filter fun t => (tlbUnits who).contains t.unit && t.hits ctx va write
  match (near.map Tlb.walk).filter (· ≠ { w with path := [] }) with
  | [] => w
  | t :: ts => (w :: t :: ts).getD (Config.freeNat (1048576 * s.fresh + 100000 + i) % (ts.length + 2)) w

/-- The pod physical address of an address under a leaf. -/
def Walk.target (w : Walk) (va : Nat) : Nat :=
  if w.c64 then (bits w.entry 51 12 - w.pa / 8 % 16 + va / 4096 % 16) * 4096 + va % 4096
  else bits w.entry 51 12 * 4096 + va % levelSize w.level

/-- A write to physical memory as it reaches its home slice (R407 to R411). -/
def State.physWrite (_s : State) (off : Nat) (bytes : List Byte) (epoch : Nat) (who : Option (Nat × Nat)) :
    List Effect := [.write off bytes epoch who]

/-- A and D set by the walker at a use of a leaf (R199, R407), the leaf loaded into the TLBs of its core and cluster, and
the table entries into the walker's cache (R201). -/
def State.useLeaf (s : State) (ctx va : Nat) (write : Bool) (w : Walk) (who : Nat := 192) : List Effect :=
  let e := w.entry ||| 32 ||| (if write then 64 else 0)
  let table := fun (p : Nat × Nat × Nat) =>
    ({ unit := walkerOf who, ctx, level := p.1, base := va / levelSize p.1 * levelSize p.1, entry := p.2.1, pa := p.2.2 } : Tlb)
  (if e = w.entry || ofBytes (Sparse.bytes s.mem w.pa 8) ≠ w.entry then []
   else s.physWrite w.pa (leBytes 8 e) s.deviceEpoch none)
    ++ ((tlbUnits who).filter fun u => !s.tlb.any fun t => t.unit == u && t.hits ctx va write).map
        (fun u => .tlbAdd ({ w with entry := e }.tlb ctx va u))
    ++ ((w.path.map table).filter fun t => !s.tlb.contains t).map .tlbAdd

/-- What an access reaches: a place and, for a virtual address, the leaf's ATTR. -/
structure Place where
  sp : Space
  off : Nat
  attr : Nat := 0
  mgmt : Bool := false
  stack : Bool := false
  deriving DecidableEq, Repr

/-- Why an access fails: trap code, translation cause (1 first touch, 2 not present or malformed,
3 protection; 0 none), entry address and level; the pod address, plane and cause of a remote error (R336); TCLASS; and the
virtual address walked, where that is not the access's own (R178). -/
structure LaneFault where
  code : Nat
  cause : Nat := 0
  entry : Nat := 0
  level : Nat := 0
  rpa : Nat := 0
  plane : Nat := 0xFF
  rcause : Nat := 0
  tclass : Nat := 0
  va : Option Nat := none
  deriving DecidableEq, Repr

/-- Access kinds (R204): 0 load, 1 store, 2 atomic, 3 fetch. -/
def isWrite (kind : Nat) : Bool := kind == 1 || kind == 2

/-- The planes in service, ascending (R333). -/
def State.planes (s : State) : List Nat := setBits 96 s.fab.planes.toNat

/-- The plane of a request to a remote address (R332). -/
def State.spray (s : State) (chip pa : Nat) : Nat :=
  let b := bits pa 42 8
  let ps := s.planes
  ps.getD ((b ^^^ (b / 4096) ^^^ (b / 16777216) ^^^ (chip * 0x25)) % max ps.length 1) 0

/-- A virtual access checked after its walk, in the order of R200, then by where its leaf points (R185,
R186, R328). `user` says that the U bit is checked (R464), `warp` that the management range answers. -/
def State.checkLeaf (s : State) (w : Walk) (va kind : Nat) (user : Bool) : Except LaneFault Place :=
  match w.kind with
  | .first => .error { code := 0x08, cause := 1, entry := w.pa, level := w.level }
  | .absent => .error { code := 0x08, cause := 2, entry := w.pa, level := w.level }
  | .spoiled => .error { code := 0x12 }
  | .leaf =>
    let prot : LaneFault := { code := 0x09, cause := 3, entry := w.pa, level := w.level }
    if user && !pteU w.entry then .error prot
    else if isWrite kind && !pteW w.entry then .error prot
    else if kind = 3 && !pteX w.entry then .error prot
    else
      let ppa := w.target va
      let chip := ppa / 2 ^ 43
      let pa := ppa % 2 ^ 43
      if chip ≠ s.chip then
        if (s.mgmt.routing.get chip).getLsbD 15 then .ok { sp := .remote chip, off := pa, attr := pteAttr w.entry }
        else .error { code := 0x14, rpa := ppa }
      else match region pa with
        | .hbm => .ok { sp := .phys, off := pa, attr := pteAttr w.entry }
        | .host => .ok { sp := .phys, off := pa, attr := pteAttr w.entry }
        | .vault j =>
          match s.vaultFault pa j with
          | none => .ok { sp := .phys, off := pa, attr := pteAttr w.entry }
          | some 0x12 => .error { code := 0x12 }
          | some _ => .error prot
        | .mgmt => if user then .error prot else .ok { sp := .phys, off := pa, mgmt := true }
        | .unassigned => .error prot

/-- A virtual access of an agent: its place, and what the walker does. `i` numbers the access in its step. -/
def State.virt (s : State) (i ctx va kind : Nat) (user : Bool) (who : Nat := 192) : Except LaneFault (Place × List Effect) :=
  let w := s.lookup who i ctx va (isWrite kind)
  match s.checkLeaf w va kind user with
  | .error e => .error e
  | .ok p => .ok (p, s.useLeaf ctx va (isWrite kind) w who)

/-- The virtual address of a stack offset of a lane (R178), not sign-extended (log entry 87). -/
def stackVa (stkcfg : Nat) (slot lane o : Nat) : Nat :=
  (bits stkcfg 56 16 * 65536 + slot * 32 * (bits stkcfg 15 0 * 64) + o / 4 * 128 + lane * 4 + o % 4) % 2 ^ 64

/-- A protection fault outside translation (R177, R189). -/
def protection : LaneFault := { code := 0x09, cause := 3 }

/-- The cluster of a core key: 16 cores of a die (R9). -/
def clusterOf (core : Nat) : Nat := core / 16

/-- The block of a cluster group's rank, as seen from a block (R29): its own at its own rank. -/
def State.peer (s : State) (b rank : Nat) : Option Nat :=
  let core := b / Config.blocksPerCore
  if core % 16 = rank then some b
  else
    let x := s.blk b
    if x.gsize = 0 then none
    else
      let want := clusterOf core * 16 + rank
      ((s.blocks.filter fun p =>
          p.1 / Config.blocksPerCore == want && p.2.gsize != 0 && p.2.group == x.group).map Prod.fst).head?

/-- Whether a warp of a block exists and has not exited (R177). -/
def State.exists (s : State) (k : Nat) : Bool :=
  match find s.warps k with
  | none => false
  | some w => w.ctl.st != .exited

/-- The launched lanes' count of a warp (R34): the highest epilogue warp may have fewer. -/
def Image.lanes (x : Image) (w : Nat) : Nat := if w + 1 = x.ne then x.lastl else 32

/-- A register-aperture access of a context's block (R177): view registers refuse a store, but for one of the foreman's own
supervisor handler (R312). -/
def State.aperture (s : State) (by_ b warp r l byte kind : Nat) : Except LaneFault Place :=
  let k := Config.warpsPerBlock * b + warp
  if warp < Config.warpsPerBlock && s.exists k && r < (s.ctl k).vb then
    match (s.ctl k).span with
    | some sp =>
      if isWrite kind && sp.lane == l && r < viewSize (s.ctl k) && !(by_ == k && (s.ctl k).priv) then .error protection
      else .ok { sp := .reg k, off := 128 * r + 4 * l + byte }
    | none => .ok { sp := .reg k, off := 128 * r + 4 * l + byte }
  else .error protection

/-- A lane's generic access of n bytes by a context (R175 to R178), alignment first (R189). A helper
reaches memory like its block's warps (R310). -/
def State.access1 (s : State) (k lane ea n kind : Nat) : Except LaneFault (Place × List Effect) :=
  let b := blockOf k
  let x := s.blk b
  let user := !(s.ctl k).priv
  if ea % n ≠ 0 then .error { code := 0x06 }
  else match generic ea with
    | .bad => .error { code := 0x07 }
    | .shared rank off =>
      match s.peer b rank with
      | none => .error protection
      | some p => if off < (s.blk p).img.shblk then .ok ({ sp := .shared p, off }, []) else .error protection
    | .reg warp r l byte =>
      if byte + n > 4 then .error { code := 0x06 }
      else match s.aperture k b warp r l byte kind with
        | .error e => .error e
        | .ok p => .ok (p, [])
    | .stack o =>
      let cfg := (s.ctxOf x.ctx).stkcfg.toNat
      if bits cfg 15 0 * 64 ≤ o then .error protection
      else
        let va := stackVa cfg (hostKey k) (lane % 32) o
        match generic va with
        | .virt _ =>
          match s.virt lane x.ctx va kind user (coreOf k) with
          | .error e => .error { e with va := some va }
          | .ok (p, es) => .ok ({ p with stack := true }, es)
        | _ => .error { code := 0x07 }
    | .virt va => s.virt lane x.ctx va kind user (coreOf k)

/-- A lane's access in its pieces: an 8-byte stack access takes place as two 4-byte accesses (R178). -/
def State.access (s : State) (k lane ea n kind : Nat) :
    Except LaneFault (List (Place × Nat) × List Effect) :=
  if n = 8 && bits ea 63 60 = 10 then
    if ea % 8 ≠ 0 then .error { code := 0x06 }
    else match s.access1 k lane ea 4 kind, s.access1 k (32 + lane) (ea + 4) 4 kind with
      | .error e, _ => .error e
      | _, .error e => .error e
      | .ok (p, es), .ok (q, fs) => .ok ([(p, 4), (q, 4)], es ++ fs)
  else match s.access1 k lane ea n kind with
    | .error e => .error e
    | .ok (p, es) => .ok ([(p, n)], es)

/-- The n bytes a context reads at a place: its own queued stores over memory (R216 item 4), the newest
first; a register element in flight reads old or new (R177). -/
def State.readByte (s : State) (k : Nat) (p : Place) (i : Nat) : Byte :=
  let a := p.off + i
  let old := if p.sp = .phys then s.snap.blocked.foldl (fun acc q =>
    if q.k = k ∧ q.sl < 8 ∧ q.off ≤ a ∧ a < q.off + q.bytes.length then q.bytes[a - q.off]? else acc) none else none
  let own := (s.ctl k).storeQ.foldl (fun acc q =>
    if q.sp = p.sp ∧ q.off ≤ a ∧ a < q.off + q.bytes.length then q.bytes[a - q.off]? else acc) old
  match own with
  | some b => b
  | none =>
    match p.sp with
    | .phys => Sparse.get s.mem a
    | .shared b => (s.sh b).get a
    | .reg j =>
      let l := a % 128 / 4
      if l < (s.blk (blockOf j)).img.lanes (warpNo j) || decide ((s.ctl j).role ≠ 0)
      then BitVec.ofNat 8 ((s.readV j (a / 128) l).toNat / 2 ^ (8 * (a % 4))) else 0
    | .remote _ => 0

/-- The n bytes read at a place, lowest first. -/
def State.readPlace (s : State) (k : Nat) (p : Place) (n : Nat) : List Byte :=
  (span 0 n).map (s.readByte k p)

/-- The bytes of an access in its pieces. -/
def State.readPieces (s : State) (k : Nat) (ps : List (Place × Nat)) : List Byte :=
  ps.flatMap fun p => s.readPlace k p.1 p.2

/-- Whether n bytes at a place hold poison (R190, R396): physical or shared memory. -/
def State.placePoisoned (s : State) (p : Place) (n : Nat) : Bool :=
  match p.sp with
  | .phys => !p.mgmt && s.poisonedRange p.off n
  | .shared b => (span (p.off / 32) ((p.off % 32 + n + 31) / 32)).any fun q => s.shPoison.contains (b, q)
  | _ => false

/-- Whether an access reads a poisoned sector (R190, R396). -/
def State.piecesPoisoned (s : State) (ps : List (Place × Nat)) : Bool := ps.any fun p => s.placePoisoned p.1 p.2

/-- The epoch of a context's block (R402). -/
def State.epochOf (s : State) (k : Nat) : Nat := (s.blk (blockOf k)).epoch

/-- The translation area of R204 as a number: the virtual address of each faulting lane, the masks, the entry and
level of the lowest faulting lane, and the kind. -/
def xtArea (kind : Nat) (fs : List (Nat × Nat × LaneFault)) : Nat :=
  let xs := fs.filter fun f => f.2.2.cause ≠ 0
  let mk := fun c => maskOf ((xs.filter fun f => f.2.2.cause == c).map Prod.fst)
  let low := (xs.head?.map fun f => f.2.2).getD { code := 0 }
  pack ((xs.map fun f => (64 * f.1 + 512, 64, f.2.2.va.getD f.2.1)) ++
    [(448, 64, low.entry), (416, 32, mk 1), (384, 32, mk 2), (352, 32, mk 3), (344, 8, low.level), (336, 8, kind)])

/-- The remote-error extension of R336. -/
def remoteExt (rpa lmask plane cause kind : Nat) : Nat :=
  pack [(448, 64, rpa), (416, 32, lmask), (400, 16, rpa / 2 ^ 43), (392, 8, plane), (384, 8, cause), (376, 8, kind)]

/-- The trap of faulting lanes (R86, R204, R234, R336): that of the lowest lane; `fs` lists lane, address and
fault in ascending lane order. `op` is an operation code, plus 16 times the KIND of R336 for an atomic. -/
def lanesTrap (_s : State) (kind op ty : Nat) (fs : List (Nat × Nat × LaneFault)) : Trap :=
  match fs with
  | [] => { code := 0 }
  | (_, ea, e) :: _ =>
    let same := (fs.filter fun f => f.2.2.code == e.code).map Prod.fst
    let lmask := maskOf same
    let ft := maskOf ((fs.filter fun f => f.2.2.cause == 1).map Prod.fst)
    let t : Trap := { code := e.code, addr := ea, lmask }
    if e.cause ≠ 0 then
      { t with xt := xtArea kind fs, first := e.cause == 1, hm0 := ft, replay := e.code == 0x08 }
    else if e.code = 0x0A then
      { t with extk := 1, ext := pack [(448, 64, ea), (416, 32, lmask), (408, 8, e.tclass), (400, 8, ty), (396, 4, op)] }
    else if e.code = 0x14 then
      { t with addr := ea, extk := 4, ext := remoteExt e.rpa lmask 0xFF 0 (if kind = 2 then op / 16 else kind) }
    else t

/-- A lane's access that passed its checks: lane, address, and its pieces with their sizes. -/
structure LaneAccess where
  lane : Nat
  ea : Nat
  pieces : List (Place × Nat)
  deriving DecidableEq, Repr

/-- What the check of an access answers: its pieces and what the walker does. -/
abbrev Checked := Except LaneFault (List (Place × Nat) × List Effect)

/-- The checks of lanes together (R189, R204): every lane is checked before the trap is raised. -/
def gather (s : State) (kind op ty : Nat) (rs : List (Nat × Nat × Checked)) :
    Except Trap (List LaneAccess × List Effect) :=
  match rs.filterMap fun r => match r.2.2 with | .error e => some (r.1, r.2.1, e) | .ok _ => none with
  | [] =>
    .ok (rs.filterMap (fun r => match r.2.2 with | .ok (p, _) => some ⟨r.1, r.2.1, p⟩ | .error _ => none),
      rs.flatMap fun r => match r.2.2 with | .ok (_, es) => es | .error _ => [])
  | bad => .error (lanesTrap s kind op ty bad)

/-- The accesses of lanes of n bytes, each lane with its address (R189). -/
def State.lanesAccess (s : State) (k n kind op ty : Nat) (eas : List (Nat × Nat)) :
    Except Trap (List LaneAccess × List Effect) :=
  gather s kind op ty (eas.map fun p => (p.1, p.2, s.access k p.1 p.2 n kind))

/-- A device access (trap frame, host fault queue, records) of a context: checked for translation and W,
not for U, and only in this chip's HBM or host window (R390, R394). -/
def State.device (s : State) (i ctx va : Nat) (write : Bool) (who : Nat := 192) : Option (Nat × List Effect) :=
  match generic va with
  | .virt _ =>
    match s.virt i ctx va (if write then 1 else 0) false who with
    | .ok (p, es) =>
      if p.sp = .phys && (region p.off = .hbm || region p.off = .host) then some (p.off, es) else none
    | .error _ => none
  | _ => none

/-- A device write of bytes in a context: the bytes of one 4 KiB page at a time. -/
def deviceWrite (s : State) (ctx va : Nat) (bytes : List Byte) (epoch : Nat) (who : Nat := 192) : List Effect :=
  match s.device 30 ctx va true who with
  | none => []
  | some (pa, es) =>
    chain s [fun _ => es, fun s => s.physWrite pa bytes epoch none]

/-- A device read of a number of n bytes in a context: none where poison is met (R26, R396). -/
def State.deviceRead (s : State) (ctx va n : Nat) : Option Nat :=
  (s.device 31 ctx va false).bind fun p => if s.poisonedRange p.1 n then none else some (s.phys p.1 n)

end Sys2Proof.Machine
end

