-- ==== Sys2Proof/Machine/Mgmt.lean ====
section
/-! DEFINITION. The management and configuration range (01 R13) and the command journal (18 R427). A write to
a register whose row of the opcode table is a step of its own puts that step before the moves to come. -/
namespace Sys2Proof.Machine

/-- An assigned register (R13): its offset, width in bytes and value. -/
structure Reg where
  base : Nat
  width : Nat
  value : Nat
  deriving DecidableEq, Repr

/-- PLANEEN as written: its 96 bits (R333). -/
def Mgmt.planeWord (m : Mgmt) (w : Nat) : Nat := m.planeen.toNat / 2 ^ (32 * w) % 2 ^ 32

/-- The register that holds an offset of the range, if R13 assigns it. -/
def State.mgmtReg (s : State) (off : Nat) : Option Reg :=
  let m := s.mgmt
  if off < 4 then some ⟨0, 4, m.devst.toNat⟩
  else if 8 ≤ off && off < 0x10 then some ⟨8, 8, m.jptr.toNat⟩
  else if 0x100 ≤ off && off < 0x130 then some ⟨off / 4 * 4, 4, (m.clkctl.getD ((off - 0x100) / 4) 0).toNat⟩
  else if 0x200 ≤ off && off < 0x204 then some ⟨0x200, 4, m.plim.toNat⟩
  else if 0x300 ≤ off && off < 0x380 then
    let d := (off - 0x300) / 0x40
    let o := (off - 0x300) % 0x40
    if o < 4 then some ⟨0x300 + 0x40 * d, 4, (m.slcfg.getD d 0).toNat⟩
    else if 8 ≤ o && o < 0x10 then some ⟨0x308 + 0x40 * d, 8, (m.pmcfg.getD d 0).toNat⟩
    else if 0x10 ≤ o && o < 0x14 then some ⟨0x310 + 0x40 * d, 4, (m.preq.getD d 0).toNat⟩
    else none
  else if 0x400 ≤ off && off < 0x408 then some ⟨0x400, 8, m.fabcfg.toNat⟩
  else if 0x408 ≤ off && off < 0x40C then some ⟨0x408, 4, m.hostcfg.toNat⟩
  else if 0x410 ≤ off && off < 0x41C then
    some ⟨0x410 + (off - 0x410) / 4 * 4, 4, m.planeWord ((off - 0x410) / 4)⟩
  else if 0x500 ≤ off && off < 0x510 then some ⟨0x500, 16, m.snapcfg.toNat⟩
  else if 0x510 ≤ off && off < 0x518 then some ⟨0x510, 8, m.snapring.toNat⟩
  else if 0x518 ≤ off && off < 0x520 then some ⟨0x518, 8, m.snapcmd.toNat⟩
  else if 0x800 ≤ off && off < 0x980 then
    some ⟨off / 4 * 4, 4, (m.portst.get ((off - 0x800) / 4)).toNat⟩
  else if 0x1000 ≤ off && off < 0x1400 then
    some ⟨off / 2 * 2, 2, (m.routing.get ((off - 0x1000) / 2)).toNat⟩
  else if 0x10000 ≤ off && off < 0x14000 then
    some ⟨off / 256 * 256, 256, ofBytes (m.ctxtab.bytes (off / 256 * 256 - 0x10000) 256)⟩
  else if 0x100000 ≤ off && off < 0x140000 then
    some ⟨off / 64 * 64, 64, ofBytes (s.vil.journal.bytes (off / 64 * 64 - 0x100000) 64)⟩
  else none

/-- Whether an access of n bytes at an offset is one that R13 admits to a register. -/
def Reg.admits (r : Reg) (off n : Nat) : Bool :=
  (off == r.base && n == r.width) || (n == 4 && decide (4 < r.width) && off % 4 == 0)

/-- A read of n bytes in the range: zero where nothing is assigned or the access is not admitted (R13). -/
def State.mgmtRead (s : State) (off n : Nat) : Nat :=
  match s.mgmtReg off with
  | none => 0
  | some r => if r.admits off n then r.value / 2 ^ (8 * (off - r.base)) % 2 ^ (8 * n) else 0

/-- The register's value with the written part in place. -/
def Reg.merge (r : Reg) (off n v : Nat) : Nat :=
  let sh := 8 * (off - r.base)
  let old := r.value / 2 ^ sh % 2 ^ (8 * n)
  r.value - old * 2 ^ sh + v % 2 ^ (8 * n) * 2 ^ sh

/-- Steps that a write to a register asks for: they come before any other move, in the order of the writes. -/
def soon (s : State) (l : List Instr) : List Effect := [.todo (s.todo ++ l)]

/-- A write of n bytes to a context table entry (R374): a change of VALID takes effect by its own step, the rest is stored. -/
def writeCtxTab (s : State) (o n v : Nat) : List Effect :=
  let m := s.mgmt
  let ctx := o / 256
  let at_ := 256 * ctx + 0xF0
  let tab := m.ctxtab.setBytes o (leBytes n v)
  let was := (m.ctxtab.get at_).getLsbD 0
  let now := (tab.get at_).getLsbD 0
  let keep := Sparse.set tab at_ ((tab.get at_ &&& 0xFE) ||| (if was then 1 else 0))
  if now = was then [.mgmt { m with ctxtab := tab }]
  else [.mgmt { m with ctxtab := keep }] ++ soon s [if now then .contextValidSet ctx else .contextValidClear ctx]

/-- A write of n bytes in the range (R13): ignored where nothing is assigned or the access is not admitted;
read-only fields keep their values. -/
def mgmtWrite (s : State) (off n v : Nat) : List Effect :=
  match s.mgmtReg off with
  | none => []
  | some r =>
    if !r.admits off n then []
    else
      let m := s.mgmt
      let x := r.merge off n v
      if 0x100 ≤ off && off < 0x130 then soon s [.clkctlWrite ((off - 0x100) / 4) x]
      else if off = 0x200 then soon s [.plimWrite x]
      else if 0x300 ≤ off && off < 0x380 then
        let d := (off - 0x300) / 0x40
        let o := (off - 0x300) % 0x40
        if o < 4 then soon s [.slcfgApply d x]
        else if o < 0x10 then
          [.mgmt { m with pmcfg := m.pmcfg.set d (dword (bits x 63 32 * 2 ^ 32 + x % 2)) }]
        else soon s [.preqGo d x]
      else if 0x400 ≤ off && off < 0x408 then
        [.mgmt { m with fabcfg := dword (bits x 63 32 * 2 ^ 32 + x % 512) }]
      else if off = 0x408 then [.mgmt { m with hostcfg := word x }]
      else if 0x410 ≤ off && off < 0x41C then soon s [.planeenWrite ((off - 0x410) / 4) x]
      else if 0x500 ≤ off && off < 0x510 then
        if s.snap.st = 1 || s.snap.st = 2 then [] else [.mgmt { m with snapcfg := BitVec.ofNat 128 x }]
      else if 0x510 ≤ off && off < 0x518 then soon s [.snapringWrite (bits x 63 32)]
      else if 0x518 ≤ off && off < 0x520 then
        let high := decide (off + n > 0x51C)
        let op := if high then bits x 63 61 else 0
        let keep := [Effect.mgmt { m with
          snapcmd := dword (bits x 63 61 * 2 ^ 61 + bits x 42 16 * 65536 + m.snapcmd.toNat % 4) }]
        if op = 0 then keep
        else keep ++ soon s [if op = 1 then .snapcmdRollback (bits x 42 16 * 65536)
          else if op = 2 then .snapcmdAbort else .snapcmdInvalid op]
      else if 0x1000 ≤ off && off < 0x1400 then
        [.mgmt { m with routing := m.routing.set ((off - 0x1000) / 2) (BitVec.ofNat 16 (x &&& 0x81FF)) }]
      else if 0x10000 ≤ off && off < 0x14000 then writeCtxTab s (off - 0x10000) n v
      else []

/-- A management-cycle count: a count of its own domain that nothing else relates to (R4, R21, R432). -/
def State.mcycle (s : State) : Nat := Config.freeNat (1048576 * s.fresh + 1000000)

/-- An entry appended to the command journal, and JPTR advanced after it (R427). -/
def journal (s : State) (kind die pay : Nat) : List Effect :=
  let e := s.mgmt.jptr.toNat
  let rec64 := pack [(448, 64, e), (384, 64, s.mcycle), (376, 8, kind), (368, 8, die), (0, 368, pay)]
  [.vil { s.vil with journal := s.vil.journal.setBytes (64 * (e % 4096)) (leBytes 64 rec64) },
   .mgmt { s.mgmt with jptr := dword (e + 1) }]

end Sys2Proof.Machine
end

