-- ==== Sys2Proof/Machine/Fetch.lean ====
section
/-! DEFINITION. Fetching a clause: instruction words through the instruction cache (08 R196, 04 R100), the
checks of its header and words (03 R55, R56, R61, R62), and of a transfer's target (05 R110). -/
namespace Sys2Proof.Machine

/-- The key of an instruction word in a core's instruction cache. -/
def icKey (core pa : Nat) : Nat := core * 2 ^ 50 + pa / 4

/-- A word of memory, or of a register of the management range (R13), as it stands. -/
def State.wordAt (s : State) (pa : Nat) : Word :=
  if region pa = .mgmt then word (s.mgmtRead (pa - 0x7FF00000000) 4) else word (s.phys pa 4)

/-- The physical address of an instruction word at a virtual address (R110, R200 fetch): this chip's memory only. -/
def State.fetchAt (s : State) (k va : Nat) : Except LaneFault (Nat × List Effect) :=
  match generic va with
  | .virt _ =>
    match s.virt 40 (s.blk (blockOf k)).ctx va 3 (!(s.ctl k).priv) (coreOf k) with
    | .error e => .error e
    | .ok (p, es) =>
      if p.sp = .phys then (if s.poisoned p.off then .error { code := 0x12 } else .ok (p.off, es))
      else .error protection
  | _ => .error { code := 0x07 }

/-- The n words in memory at a virtual address, with their addresses and what the walker does. -/
def State.fetchWords (s : State) (k : Nat) : Nat → Nat → Except LaneFault (List (Nat × Word) × List Effect)
  | _, 0 => .ok ([], [])
  | va, n + 1 =>
    match s.fetchAt k va, s.fetchWords k (va + 4) n with
    | .error e, _ => .error e
    | _, .error e => .error e
    | .ok (pa, es), .ok (ws, fs) => .ok ((pa, s.wordAt pa) :: ws, es ++ fs)

/-- The old words of a clause, where its core has fetched it since the last ICINV and the fetch uses them: one free choice
for the whole clause (R100, R196; log entry 86). -/
def State.oldClause (s : State) (k va : Nat) : Option (List Word) :=
  match s.fetchAt k va with
  | .error _ => none
  | .ok (pa, _) => ((find s.icache (icKey (coreOf k) pa)).filter fun _ => s.pick 16500 2 = 1).map fun l => l.map Prod.snd

/-- The n words from word i on of the clause at a virtual address, as a fetch of that clause reads them. -/
def State.clauseWords (s : State) (k va i n : Nat) : Except LaneFault (List Word × List Effect) :=
  match s.fetchWords k (va + 4 * i) n with
  | .error e => .error e
  | .ok (ws, es) =>
    match s.oldClause k va with
    | none => .ok (ws.map Prod.snd, es)
    | some old => .ok ((old.drop i).take n, es)

/-- The instruction cache after the fetch of a clause of n words, its header with it. -/
def State.cacheClause (s : State) (k va n : Nat) : List Effect :=
  match s.fetchWords k va n, s.clauseWords k va 0 n with
  | .ok (ps, _), .ok (ws, _) =>
    if ps.any fun p => region p.1 == .mgmt then []
    else [.icache (put s.icache (icKey (coreOf k) ((ps.map Prod.fst).headD 0)) ((ps.map Prod.fst).zip ws))]
  | _, _ => []

/-- Fields of H0 (R56). -/
def h0Wait (h : Nat) : Nat := bits h 31 20
def h0Seta (h : Nat) : Nat := bits h 19 16
def h0Setb (h : Nat) : Nat := bits h 15 12
def h0Len (h : Nat) : Nat := bits h 11 7
def h0Safe (h : Nat) : Bool := bit h 6

/-- The header checks of R61. -/
def headerOk (h0 h1 : Nat) : Bool :=
  decide (bits h0 4 0 = 0) && decide (1 ≤ h0Len h0) && decide (h0Len h0 ≤ 30)
    && (decide (h0Seta h0 < 12) || decide (h0Seta h0 = 15))
    && (decide (h0Setb h0 < 12) || decide (h0Setb h0 = 15))
    && decide (bits h1 15 0 = 0) && decide (bits h1 19 18 ≠ 3)

/-- The word checks of R61: extension and literal words lie in the clause, and no instruction word follows
a clause-ending one. The first argument bounds the walk. -/
def wordsOk : Nat → List Word → Bool
  | 0, _ => true
  | _, [] => true
  | n + 1, w :: ws =>
    let k := wordSpan w
    if ws.length + 1 < k then false
    else if clauseEnding w && decide (k < ws.length + 1) then false
    else wordsOk n ((w :: ws).drop k)

/-- The trap of an instruction fetch (R204): every live lane of the slices, with the fetch address. -/
def fetchTrap (s : State) (w : Warp) (sl va : Nat) (e : LaneFault) : Trap :=
  let lanes := setBits 32 ((w.readM 14).toNat &&& lanesOf sl)
  { lanesTrap s 3 0 0 (lanes.map fun l => (l, va, e)) with addr := va }

/-- The check of a transfer's target before control moves (R110, R62). -/
def Issue.target (I : Issue) (pc : DWord) : Except Trap (List Effect) :=
  let va := pc.toNat
  match generic va with
  | .virt _ =>
    match I.s.clauseWords I.k (va / 8 * 8) 0 2 with
    | .error e => .error (fetchTrap I.s I.w I.sl va e)
    | .ok (hs, es) =>
      if va % 8 = 0 && headerOk (hs.getD 0 0).toNat (hs.getD 1 0).toNat then .ok es else .error { code := 0x05, addr := va }
  | _ => .error { code := 0x07, addr := va }

end Sys2Proof.Machine
end

