-- ==== Sys2Proof/Machine/Regions.lean ====
section
/-! DEFINITION. Region control blocks (16 R377, R378), their meters (11 R283, 16 R387) and block charges. -/
namespace Sys2Proof.Machine

/-- Fields of line 0 of a region control block (R377). -/
def rcbChild (l : Nat) : Nat := bits l 1023 960
def rcbSib (l : Nat) : Nat := bits l 959 896
def rcbQbase (l : Nat) : Nat := bits l 895 832
def rcbQcapl (l : Nat) : Nat := bits l 831 824
def rcbDomain (l : Nat) : Nat := bits l 823 808
def rcbOvr (l n : Nat) : Bool := bit l (800 + n)
def rcbPrio (l : Nat) : Nat := bits l 799 797
def rcbPre (l : Nat) : Nat := bits l 796 796
def rcbWeight (l : Nat) : Nat := bits l 783 768
def rcbMaxcores (l : Nat) : Nat := bits l 767 752
def rcbCskib (l : Nat) : Nat := bits l 735 704
def rcbTskib (l : Nat) : Nat := bits l 703 672
def rcbPeriod (l : Nat) : Nat := bits l 671 640
def rcbPdeadl (l : Nat) : Nat := bits l 639 608

/-- The byte budgets per period: 0 copy, 1 fabric, 2 collective. -/
def rcbBytes (l which : Nat) : Nat := bits l (607 - 64 * which) (544 - 64 * which)

/-- Line 0 of a region as the distributor last read it. -/
def State.rcb (s : State) (ctx addr : Nat) : Nat :=
  ((s.dist.trees.find? fun r => r.ctx == ctx && r.addr == addr).map Rcb.line).getD 0

/-- A field inherited from the nearest region of a path whose override bit is set (R378). -/
def State.inherit (s : State) (ctx n : Nat) (f : Nat → Nat) (dflt : Nat) : List Nat → Nat
  | [] => dflt
  | a :: path => if rcbOvr (s.rcb ctx a) n then f (s.rcb ctx a) else s.inherit ctx n f dflt path

/-- The inherited fields of a region's path, with the defaults of R378. -/
def State.domainOf (s : State) (ctx : Nat) (path : List Nat) : Nat := s.inherit ctx 0 rcbDomain 0 path
def State.prioOf (s : State) (ctx : Nat) (path : List Nat) : Nat := s.inherit ctx 1 rcbPrio 0 path
def State.weightOf (s : State) (ctx : Nat) (path : List Nat) : Nat := max 1 (s.inherit ctx 2 rcbWeight 1 path)
def State.pdeadlOf (s : State) (ctx : Nat) (path : List Nat) : Nat := s.inherit ctx 4 rcbPdeadl 0x100000 path
def State.preOf (s : State) (ctx : Nat) (path : List Nat) : Bool := s.inherit ctx 5 rcbPre 0 path == 1

/-- Whether a budget field bounds: 0 sets none and all ones is unlimited (R378). -/
def bounds (w b : Nat) : Bool := b != 0 && b != 2 ^ w - 1

/-- A meter's count. -/
def Meter.count (m : Meter) (which : Nat) : Nat := if which = 0 then m.copy else if which = 1 then m.fab else m.coll

/-- A meter with bytes added. -/
def Meter.add (m : Meter) (which n : Nat) : Meter :=
  if which = 0 then { m with copy := m.copy + n }
  else if which = 1 then { m with fab := m.fab + n } else { m with coll := m.coll + n }

/-- The meter of a region on a die. -/
def State.meter (s : State) (die ctx addr : Nat) : Meter :=
  (s.dist.meters.find? fun m => m.die == die && m.ctx == ctx && m.rcb == addr).getD ⟨die, ctx, addr, 0, 0, 0⟩

/-- Whether every meter of a path is below its budget on a die (R283, R387). -/
def State.meterOk (s : State) (which die ctx : Nat) (path : List Nat) : Bool :=
  path.all fun a =>
    let b := rcbBytes (s.rcb ctx a) which
    !bounds 64 b || decide ((s.meter die ctx a).count which < b)

/-- The meters after bytes charged to every region of a path that sets a budget (R283). -/
def State.charge (s : State) (which die ctx n : Nat) (path : List Nat) : Dist :=
  path.foldl (fun d a =>
    if bounds 64 (rcbBytes (s.rcb ctx a) which) then
      let m := (d.meters.find? fun m => m.die == die && m.ctx == ctx && m.rcb == a).getD ⟨die, ctx, a, 0, 0, 0⟩
      { d with meters := m.add which n :: d.meters.filter fun m => !(m.die == die && m.ctx == ctx && m.rcb == a) }
    else d) s.dist

/-- The core-store KiB a block of an image is charged (R378). -/
def Image.cskib (x : Image) : Nat :=
  (x.shblk + 128 * (x.ne * x.vbe + x.nm * x.vbm + x.nc * x.vbc) + 1023) / 1024

/-- The tile-store KiB a block of an image is charged (R378). -/
def Image.tskib (x : Image) : Nat := 16 * x.tiles

/-- Whether a budget allows a load beyond what is held. -/
def roomIn (w b held more : Nat) : Bool := !bounds w b || decide (held + more ≤ b)

/-- Whether every region of a path has room for blocks of an image placed together on cores (R378). -/
def State.budgetRoom (s : State) (ctx : Nat) (cs : List Nat) (x : Image) (path : List Nat) : Bool :=
  path.all fun a =>
    let l := s.rcb ctx a
    let mine := s.blocks.filter fun p => p.2.ctx == ctx && p.2.path.contains a
    let cores := (mine.map fun p => p.1 / Config.blocksPerCore).eraseDups
    roomIn 16 (rcbMaxcores l) cores.length (cs.eraseDups.filter fun c => !cores.contains c).length
      && roomIn 32 (rcbCskib l) ((mine.map fun p => p.2.img.cskib).foldl (· + ·) 0) (cs.length * x.cskib)
      && roomIn 32 (rcbTskib l) ((mine.map fun p => p.2.img.tskib).foldl (· + ·) 0) (cs.length * x.tskib)

end Sys2Proof.Machine
end

