-- ==== Sys2Proof/Machine/Ops.lean ====
section
/-! DEFINITION. Shared operations: counters and flags, stores leaving a store queue, requests to the fabric,
waits and readiness, trap records, the host fault queue, taking a trap and returning from its handler, the
end of a fault domain, and the creation of warps. -/
namespace Sys2Proof.Machine

/-- The flag operations bound at the current clause: SETA and SETB codes of its header (R56). -/
def Issue.seta (I : Issue) : Nat := h0Seta I.slice.h0.toNat
def Issue.setb (I : Issue) : Nat := h0Setb I.slice.h0.toNat

/-- A flag-bound operation put in flight (R72): it is named by the counter of names. -/
def bindOp (s : State) (k sl flag : Nat) (writes : List RegWrite) (waiting : List Nat) (held : Bool) : List Effect :=
  let c := s.ctl k
  [.ctl k { c with flagOps := c.flagOps ++ [{ id := s.ids, flag, slices := sl, writes, waiting, held, sup := c.priv }] }, .ids 1]

/-- The busy flags of a slice, as a mask (R72). -/
def Ctl.busy (c : Ctl) (j : Nat) : Nat :=
  maskOf ((c.flagOps.filter fun o => o.flag != 15 && bit o.slices j).map FlagOp.flag)

/-- The flags of a gang are those of each of its slices (R40): as slices part, and as a gang forms. -/
def Ctl.shareFlags (c : Ctl) (live : Nat) : Ctl :=
  { c with flagOps := c.flagOps.map fun o => if o.slices &&& live = 0 then o else { o with slices := 255 } }

/-- The counted operations of a class not yet retired: the outstanding counter (R223). -/
def Ctl.counter (c : Ctl) (cls : Nat) : Nat := (c.outs.filter fun o => o.cls == cls).length

/-- One operation of a warp completes (R224). -/
def Ctl.complete (c : Ctl) (id : Nat) : Ctl :=
  let outs := c.outs.map fun o => if o.id = id then { o with done := true } else o
  { c with outs := outs.filter fun o => !(o.done && outs.all fun p => p.done || p.cls != o.cls || decide (o.id < p.id)) }

/-- A remote request sent on the plane of the spray hash (R332), with its packet. -/
def sendReq (s : State) (r : Req) (chip : Nat) (body : List Nat) : List Effect :=
  let plane := s.spray chip r.pa
  let r := { r with id := s.ids, plane }
  [.fab { s.fab with
      reqs := s.fab.reqs ++ [r]
      sent := s.fab.sent ++ [⟨0, chip, plane, [r.id, r.kind, r.pa, r.size, s.epochOf r.k % 2] ++ body⟩] },
   .dist (s.charge 1 (dieOf r.k) (s.blk (blockOf r.k)).ctx r.size (s.blk (blockOf r.k)).path), .ids 1]

/-- Whether a lane of a warp was launched (R34). -/
def State.launched (s : State) (k l : Nat) : Bool :=
  decide ((s.ctl k).role ≠ 0) || decide (l < (s.blk (blockOf k)).img.lanes (warpNo k))

/-- The program counter a record gives for a slice (R389, R120): 0 with no unexited lane. -/
def recordPc (w : Warp) (j : Nat) : Nat :=
  if bit (liveSlices w) j then ((w.ctl.slice j).regang.map Prod.fst).getD (w.ctl.slice j).pc.toNat else 0

/-- Little-endian 32-bit words as bytes. -/
def wordBytes (l : List Word) : List Byte := l.flatMap fun w => leBytes 4 w.toNat

/-- The saved context of a warp: the 1 KiB state block and the vector window (R45). -/
def savedImage (w : Warp) : List Byte :=
  let c := w.ctl
  let js := span 0 8
  let sup := fun (x : List Word) => if c.priv then x else x.map fun _ => 0
  let flagWord := fun (j : Nat) =>
    let x := c.slice j
    word (x.mode.toNat * 2 ^ 16 + c.busy j % 2 ^ 12 * 16 + (if x.regang.isSome then 8 else 0)
      + (if x.yielded then 4 else 0) + (if c.parted then 2 else 0))
  wordBytes ((span 0 160).map w.s.get) ++
  wordBytes ((span 0 15).map w.m.get ++ [BitVec.allOnes 32]) ++
  js.flatMap (fun j => leBytes 8 (recordPc w j)) ++
  wordBytes (js.map flagWord ++ [w.lfsr]) ++
  (span 0 6).map (fun x => BitVec.ofNat 8 (c.counter x)) ++ [0, 0] ++
  leBytes 4 ((if c.priv then 2 ^ 16 else 0) + c.vb) ++
  wordBytes (sup [w.sup.get supM0]) ++ List.replicate 12 0 ++
  wordBytes (sup ((span 144 16).map w.sup.get)) ++
  wordBytes (sup (js.map fun j => word ((c.slice j).modeSup.toNat * 2 ^ 16))) ++
  leBytes 8 c.tret.toNat ++ leBytes 8 c.ftesc.toNat ++ leBytes 4 c.dbgctl.toNat ++ leBytes 4 0 ++
  leBytes 8 c.pslot.toNat ++ List.replicate 64 0 ++
  wordBytes ((span 0 (32 * c.vb)).map w.v.get)

/-- A device write of bytes at a virtual address, one 4 KiB page after another. -/
def pagesWrite : Nat → Nat → Nat → List Byte → State → List Effect
  | 0, _, _, _, _ => []
  | n + 1, ctx, va, bytes, s =>
    let m := 4096 - va % 4096
    let here := deviceWrite s ctx va (bytes.take m) s.deviceEpoch
    here ++ (if bytes.length ≤ m then [] else pagesWrite n ctx (va + m) (bytes.drop m) (applyAll here s))

/-- The image of a warp parked in global memory brought up to its registers (R45, R76, R177). -/
def mirror (k : Nat) (s : State) : List Effect :=
  let w := s.warp k
  if w.ctl.saved && 2 ^ 63 ≤ w.ctl.frame then
    pagesWrite 12 (s.blk (blockOf k)).ctx (w.ctl.frame - 2 ^ 63) (savedImage w) s
  else []

/-- Sectors written whole are poisoned no more (R190). -/
def cured (l : List (Option Nat × Nat)) : List Effect :=
  l.map fun x => match x.1 with | none => .poison x.2 false | some b => .shPoison b x.2 false

/-- The effects of a store as it becomes visible (R216): the management range by R13, physical memory at its
home slice, another chip by a posted request, shared memory and registers in place. -/
def performStore (s : State) (k : Nat) (q : QStore) : List Effect :=
  match q.sp with
  | .phys =>
    if region q.off = .mgmt then mgmtWrite s (q.off - 0x7FF00000000) q.bytes.length (ofBytes q.bytes)
    else s.physWrite q.off q.bytes q.epoch (some (k, q.sl)) ++ cured q.cure
  | .remote chip =>
    sendReq s { id := 0, k, sl := q.sl, kind := 1, pa := chip * 2 ^ 43 + q.off, size := q.bytes.length,
                lanes := 2 ^ q.lane, plane := 0, op := 0, dest := [], ty := 0, copy := 0, src := q.src
                eas := [(q.lane, q.src.addr)] } chip
      (q.bytes.map BitVec.toNat)
  | .reg j =>
    if s.launched j (q.off % 128 / 4) then
      chain s [fun _ => [.store q.sp q.off q.bytes (some (k, q.sl))], mirror j] else []
  | .shared _ => [.store q.sp q.off q.bytes (some (k, q.sl))] ++ cured q.cure

/-- Whether the head of a warp's store queue can become visible: a plane change (R333) or a spent fabric budget (R387)
holds a remote store back, as the want of keys does (R329), the step that an earlier write to the management range has asked
for the next write there (R13), a save under way one to that warp's registers (R177), an operand capture one to the maths
warp's own registers that came after the matrix word (R226), and a pinned page or a vault before the cut a local one
(R410, R411). -/
def State.storeFree (s : State) (k : Nat) (q : QStore) : Bool :=
  match q.sp with
  | .remote _ => s.vil.keys && !s.fab.changing && s.meterOk 1 (dieOf k) (s.blk (blockOf k)).ctx (s.blk (blockOf k)).path
  | .phys => if region q.off = .mgmt then s.todo.isEmpty else !s.writeWaits q.off q.epoch
  | .reg j => (s.ctl j).st != .parking
      && !(j == k && s.mats.any fun m => m.k == k && m.kind != 2 && !m.started && decide (m.id < q.id))
  | .shared _ => true

/-- A write that must wait pins its page where no frame was free to copy it (R410). -/
def pinPage (s : State) (off epoch : Nat) : List Effect :=
  if s.needsCow off epoch then [.snap (s.copied off epoch).snap] else []

/-- The head store of a warp leaves its queue and becomes visible (R216 rules 1 and 2). One that finds its page pinned
only now stays, and pins it (R410). -/
def drainHead (s : State) (k : Nat) : List Effect :=
  match (s.ctl k).storeQ with
  | [] => []
  | q :: rest =>
    if s.storeFree k q then chain s [fun s => [.ctl k { s.ctl k with storeQ := rest }], fun s => performStore s k q]
    else if q.sp = .phys then pinPage s q.off q.epoch
    else []

/-- The stores of a warp become visible in order, at most n of them. -/
def drainN : Nat → State → Nat → List Effect
  | 0, _, _ => []
  | n + 1, s, k => drainHead s k ++ drainN n (applyAll (drainHead s k) s) k

/-- Every store of a warp that nothing holds back becomes visible (R217, R239). -/
def drainAll (s : State) (k : Nat) : List Effect := drainN (s.ctl k).storeQ.length s k

/-- Whether every queued store of a warp can become visible now. -/
def State.drainable (s : State) (k : Nat) : Bool := ((applyAll (drainAll s k) s).ctl k).storeQ.isEmpty

/-- Whether loads of a context from other chips await their replies. -/
def Ctl.farPending (c : Ctl) : Bool := c.flagOps.any fun o => !o.waiting.isEmpty

/-- Whether a write is one of a tile element, and whether a flag operation writes a tile. -/
def RegWrite.inTile : RegWrite → Bool
  | .t _ _ => true
  | _ => false
def FlagOp.inTile (o : FlagOp) : Bool := o.writes.any RegWrite.inTile

/-- What holds back a release of a warp (R217, R226, R304): tile writes not yet performed, matrix operations whose operands
the array has not captured, and loads from other chips without their replies. -/
def State.uncaptured (s : State) (k : Nat) (c : Ctl) : Bool :=
  c.flagOps.any FlagOp.inTile || s.mats.any fun m => m.k == k && m.kind != 2 && !m.started
def Issue.holdBack (I : Issue) : Option Flow :=
  if I.c.farPending then some (.wait .returned)
  else if I.s.uncaptured I.k I.c then some .again
  else none

/-- The instruction word that issues. -/
def Issue.clauseWord (I : Issue) : Nat := (I.slice.words.getD I.slice.idx 0).toNat

/-- A word that releases at a scope inside the chip (R217): the loads before it have their replies and the
warp's queued stores become visible, then it takes its own effects in the state they leave. -/
def Issue.release (I : Issue) (rest : List (State → List Effect)) (f : Flow) : List Effect × Flow :=
  match I.holdBack with
  | some f => ([], f)
  | none =>
  if I.s.drainable I.k then (chain I.s ((fun s => drainAll s I.k) :: rest), f) else ([], .again)

/-- Whether a request is a remote store, RED or atomic (R230, R336). -/
def Req.changes (r : Req) : Bool := r.plane != 0xFE && decide (1 ≤ r.kind) && decide (r.kind ≤ 3)

/-- Whether the posted remote stores, RED and atomics named before n are all acknowledged (R230): those of every warp of
the chip, since a release covers the writes that its warp has observed (R217, R220). -/
def State.acked (s : State) (n : Nat) : Bool := s.fab.reqs.all fun r => decide (n ≤ r.id) || !r.changes

/-- A warp, all its slices, issues nothing more until the requests of which a test holds are answered (R218, R230, R239,
R253). -/
def holdFor (k : Nat) (p : Req → Bool) (s : State) : List Effect :=
  let c := s.ctl k
  [.ctl k { c with acq := (s.fab.reqs.filter fun r => c.acq.contains r.id || p r).map Req.id }]

/-- A word that releases beyond the chip waits for the acknowledgements of what was sent before it (R230): the warp's
queued stores go first, and no slice of the warp issues meanwhile. -/
def Issue.awaitAcks (I : Issue) : List Effect × Flow :=
  let sent := drainAll I.s I.k
  (sent ++ chain (applyAll sent I.s) [holdFor I.k Req.changes], .wait (.acks (applyAll sent I.s).ids))

/-- Whether a word that releases beyond the chip has its acknowledgements: those outstanding when it was first tried. -/
def Issue.acksIn (I : Issue) : Bool :=
  (match I.slice.wait with | some (.acks _) => true | _ => false) || I.s.acked I.s.ids

/-- Whether a request that a warp's later accesses wait for is outstanding (R218, R230, R239). -/
def State.heldBack (s : State) (k : Nat) : Bool := s.fab.reqs.any fun r => (s.ctl k).acq.contains r.id

/-- Bytes in the spill area of a split (R179). -/
def spillBytes (x : Nat × Nat × Nat) : Nat := (96 - x.1 - x.2.1 - x.2.2) * 16384

/-- The size of a saved context (R45). -/
def savedSize (vb : Nat) : Nat := 1024 + 128 * vb

/-- The warps of a core, by key. -/
def State.onCore (s : State) (core : Nat) : List (Nat × Warp) :=
  s.warps.filter fun p => decide (p.1 < helperBase) && coreOf p.1 == core

/-- Whether a warp holds a register window (R42). -/
def WState.resident : WState → Bool
  | .active => true
  | .pending => true
  | .parking => true
  | _ => false

/-- A window's size in the register region: a base that is a multiple of 1 KiB (R179). -/
def windowSize (vb : Nat) : Nat := roundUp (128 * vb) 1024

/-- The multiples of a unit below a limit at which n bytes lie clear of what is held (R179). -/
def freeRuns (unit limit n : Nat) (held : List (Nat × Nat)) : List Nat :=
  ((span 0 (limit / unit + 1)).map (unit * ·)).filter fun o =>
    decide (o + n ≤ limit) && held.all fun h => decide (o + n ≤ h.1) || decide (h.1 + h.2 ≤ o)

/-- The register windows of a core: where each begins, and its size. -/
def State.windows (s : State) (core : Nat) : List (Nat × Nat) :=
  ((s.onCore core).filter fun p => p.2.ctl.st.resident).map fun p => (p.2.ctl.base, windowSize p.2.ctl.vb)

/-- The bases at which a core has room for one more resident warp of a budget in a register region of some bytes (R179; at
most 64 resident). -/
def State.windowBases (s : State) (core vb limit : Nat) : List Nat :=
  if (s.windows core).length < 64 then freeRuns 1024 limit (windowSize vb) (s.windows core) else []
def State.windowFree (s : State) (core vb : Nat) : Bool := !(s.windowBases core vb ((s.core core).split.1 * 16384)).isEmpty

/-- The role of a granule under a split (R179): 0 register, 1 shared, 2 spill, 3 L1. -/
def granuleRole (x : Nat × Nat × Nat) (g : Nat) : Nat :=
  if g < x.1 then 0 else if g < x.1 + x.2.1 then 1 else if g < 96 - x.2.2 then 2 else 3

/-- Whether n bytes of the core store reach into a boundary granule of a repartition that is in progress (R180). -/
def State.atBoundary (s : State) (core off n : Nat) : Bool :=
  match (s.core core).towards with
  | none => false
  | some new => (span (off / 16384) ((off % 16384 + n + 16383) / 16384)).any fun g =>
      granuleRole (s.core core).split g != granuleRole new g

/-- The base that a new window takes (R179, R180): which of the free runs is free, but for those clear of boundary granules
coming first. -/
def State.windowPick (s : State) (k vb : Nat) : Nat :=
  let all := s.windowBases (coreOf k) vb ((s.core (coreOf k)).split.1 * 16384)
  let clear := all.filter fun o => !s.atBoundary (coreOf k) o (windowSize vb)
  let l := if clear.isEmpty then all else clear
  l.getD (s.pick (400000 + k) l.length) 0

/-- The spill bytes a core's parked contexts and helper contexts hold (R44, R309). -/
def State.spillUsed (s : State) (core : Nat) : Nat :=
  (((s.onCore core).filter fun p => !p.2.ctl.st.resident && p.2.ctl.saved && p.2.ctl.frame < 2 ^ 63).map
      fun p => savedSize p.2.ctl.vb).foldl (· + ·) 0
    + 512 * (s.warps.filter fun p => decide (helperBase ≤ p.1) && coreOf p.1 == core).length

/-- The block at whose queue a copy command pushes next (R270, R281). -/
def State.pushBlock (s : State) (c : Copy) : Nat :=
  match c.left with
  | r :: _ => (s.peer (blockOf c.k) r).getD (blockOf c.k)
  | [] => blockOf c.k

/-- The place of a waiter in its queue's line (R278): no earlier waiter of its kind stands at that queue. -/
def State.firstInLine (s : State) (b off seq : Nat) (push : Bool) : Bool :=
  (s.warps.all fun p => blockOf p.1 != b || p.2.ctl.slices.all fun x =>
    match x.wait with
    | some (.push o _ n _) => !(push && o == off && decide (n < seq))
    | some (.pop o _ n _) => !(!push && o == off && decide (n < seq))
    | _ => true)
    && s.copies.all fun c => !(push && s.pushBlock c == b && c.stage == 2 && bits c.desc 255 242 * 64 == off
        && decide (c.seq < seq))
    && s.mats.all fun m => !(push && m.kind == 2 && m.started && blockOf m.k == b && m.off == off && decide (m.a < seq))

/-- Whether every warp of a block that is neither exited nor absent waits at REND (R125). -/
def State.rendFull (s : State) (b : Nat) : Bool :=
  s.warps.all fun p =>
    decide (helperBase ≤ p.1) || blockOf p.1 != b || p.2.ctl.st == .exited ||
      p.2.ctl.slices.any fun x => match x.wait with | some (.rend _) => true | _ => false

/-- A combine buffer of a context. -/
def State.cmb (s : State) (ctx buf : Nat) : Option Cmb := s.cmbs.find? fun x => x.ctx == ctx && x.buf == buf

/-- Whether the tokens lo to hi - 1 of a buffer are all released (R370). -/
def Cmb.releasedIn (x : Cmb) (lo hi : Nat) : Bool := (span lo (hi - lo)).all fun t => x.released.contains t

/-- The copy commands of a core in flight (R261): from issue until complete or discarded. -/
def State.copiesOn (s : State) (core : Nat) : Nat := (s.copies.filter fun c => coreOf c.k == core && c.stage != 5).length

/-- Whether every access that the chip translated before the name n has reached its home (R202): the store queues can drain,
no copy command has a request still to send, and every earlier request is answered. -/
def State.chipQuiet (s : State) (n : Nat) : Bool :=
  s.warps.all (fun p => s.drainable p.1) && s.copies.all (fun c => decide (n ≤ c.id) || c.sends.isEmpty)
    && s.fab.reqs.all fun r => decide (n ≤ r.id)

/-- Whether what a slice waits for has come about (R47). -/
def State.waitOver (s : State) (k : Nat) : Wait → Bool
  | .push off _ seq bad =>
    let h := qHeader (s.sh (blockOf k)) off
    bad != 0 || (decide (h.count < h.cap) && s.firstInLine (blockOf k) off seq true)
  | .pop off _ seq bad =>
    let h := qHeader (s.sh (blockOf k)) off
    bad != 0 || (decide (0 < h.count) && s.firstInLine (blockOf k) off seq false)
  | .bar _ _ ok => ok
  | .abar _ _ ok => ok
  | .word _ _ _ ok => ok
  | .rend _ => s.rendFull (blockOf k)
  | .fired => true
  | .waitc cls n => decide ((s.ctl k).counter cls ≤ n)
  | .combine _ ids => ids.all fun i => !(s.cmbReqs.any fun q => q.id == i && decide (q.stage < 4))
  | .release ctx buf lo hi _ => match s.cmb ctx buf with | none => true | some x => x.releasedIn lo hi
  | .acks n => s.acked n
  | .hjoin _ _ => match (s.ctl k).span with | none => true | some sp => sp.crew.all Option.isNone
  | .escalated _ _ ok => ok
  | .full cls n => decide ((s.ctl k).counter cls + n ≤ 255)
  | .returned => decide ((s.ctl k).join = 0)
  | .replies _ ids => !(s.fab.reqs.any fun r => ids.contains r.id)
  | .swap => (s.ctl k).xswap.isNone
  | .drain => s.drainable k && !s.uncaptured k (s.ctl k)
  | .quiet n => s.chipQuiet n
  | .home pa => s.drainable k && !s.writeWaits pa (s.epochOf k)
  | .owning ids => !(s.fab.reqs.any fun r => ids.contains r.id)
  | .drained ctx buf => !(s.snap.st == 1 && s.postCut (s.epochOf k)) && match s.cmb ctx buf with
    | none => true
    | some x => x.due.isEmpty && x.dueGroups.isEmpty && x.dueLate.isEmpty && x.slots.all fun y => y.st != 4
  | .copies => decide (s.copiesOn (coreOf k) < 64)
  | .blocked => true

/-- Whether a slice of a context could issue, were its warp resident (R43). -/
def State.sliceReady (s : State) (k : Nat) (x : Slice) : Bool :=
  x.regang.isNone && match x.wait with | none => true | some w => s.waitOver k w

/-- Whether every live slice of a warp waits at one REGANG (R120). -/
def gangReady (w : Warp) : Bool :=
  let js := setBits 8 (liveSlices w)
  w.ctl.parted && !js.isEmpty &&
    match (w.ctl.slice (js.headD 0)).regang with
    | none => false
    | some a => js.all fun j => ((w.ctl.slice j).regang.map Prod.fst) == some a.1

/-- The flags in the WAIT field of the clause at which a slice stands that are still busy (R56, R72). -/
def State.waitBusy (s : State) (k j : Nat) : Nat :=
  let c := s.ctl k
  let x := c.slice j
  if x.inClause then 0
  else match s.clauseWords k x.pc.toNat 0 2 with
    | .ok (h :: g :: _, _) => if headerOk h.toNat g.toNat then h0Wait h.toNat &&& c.busy j else 0
    | _ => 0

/-- The live slices of a context, in its handler those that entered it (R391). -/
def Warp.liveNow (w : Warp) : List Nat := setBits 8 (liveSlices w &&& (if w.ctl.priv then w.ctl.hslices else 255))

/-- The join counter that a record of a cause gives (R46): the replies awaited, none for an escalated fault (R206), and one
for a pending XSWAP (R150). -/
def Ctl.joinFor (c : Ctl) (cause : Nat) : Nat :=
  if cause = 7 then 0 else c.join + (if cause = 0x0A && c.xswap.isSome then 1 else 0)

/-- Whether a warp parks or is parked, its window to be given up or gone (R42). -/
def WState.away : WState → Bool
  | .parking | .parkedWaiting | .parkedReady => true
  | _ => false

/-- Whether a warp is ready, counting slices of a parted warp of which a test holds (R47, R43), or is made ready for a
deferred trap (R53, R335). -/
def State.readyIf (s : State) (k : Nat) (p : Slice → Bool) : Bool :=
  let w := s.warp k
  let c := w.ctl
  (w.liveNow.any fun j => !(c.slice j).defer.isEmpty) ||
    if c.parted then
      gangReady w || w.liveNow.any fun j => p (c.slice j) && s.sliceReady k (c.slice j) && s.waitBusy k j == 0
    else if c.st.away then
      decide (c.joinFor c.cause = 0) && ([0, 5, 8, 0x0A].contains c.cause || s.sliceReady k (c.slice (w.liveNow.headD 0)))
    else s.sliceReady k (c.slice (w.liveNow.headD 0))

/-- Whether a warp is ready (R47, R43). -/
def State.ready (s : State) (k : Nat) : Bool := s.readyIf k fun _ => true

/-- Whether an event has made a parking warp ready, which abandons its save (R42); YIELD awaits none (R122). -/
def State.eventReady (s : State) (k : Nat) : Bool :=
  ((s.ctl k).cause != 5 || (s.ctl k).parted) && s.readyIf k fun x => !x.yielded

/-- The effects that make a parked or parking warp ready (R42, R47): a save under way is abandoned, a waiting
record goes to the ready queue. -/
def makeReady (s : State) (k : Nat) : List Effect :=
  let c := s.ctl k
  match c.st with
  | .parking => [.ctl k { c with st := .pending, saved := false }]
  | .parkedWaiting =>
    [.ctl k { c with st := .parkedReady },
     .core (coreOf k) { s.core (coreOf k) with ready := (s.core (coreOf k)).ready ++ [k] }]
  | _ => []

/-- A warp readied by what has come, where it parks or waits parked (R42, R47). -/
def wake (k : Nat) (s : State) : List Effect :=
  if (if (s.ctl k).st = .parking then s.eventReady k else s.ready k) then makeReady s k else []

/-- A trap at a clause boundary (R389): no word traps, and the record's clause is the one that would execute next. -/
def boundaryTrap (s : State) (k sl : Nat) (t : Trap) : Trap :=
  let w := s.warp k
  let m := (w.readM 0).toNat
  let hm := if t.first then t.hm0 else if t.lmask ≠ 0 then t.lmask else m &&& (w.readM 14).toNat
  { t with
    slices := sl, m0 := m, hm0 := hm &&& lanesOf sl
    tpc := if t.word = 0 && t.tpc = 0 then (w.ctl.slice (lowest 8 sl)).pc.toNat else t.tpc }

/-- The trap record of R389, with its translation and extension areas (R390), as a number of 576 bytes. -/
def trapRecord (s : State) (k : Nat) (t : Trap) : Nat :=
  let w := s.warp k
  let b := blockOf k
  let x := s.blk b
  let core := coreOf k
  let slice := match w.ctl.helper with | some h => h.slice | none => lowest 8 t.slices % 8
  pack ((span 0 8).map fun j => (64 * j + 512, 64, recordPc w j)) +
  pack [(448, 64, t.tpc), (384, 64, t.addr), (352, 32, t.word), (320, 32, t.m0), (288, 32, (w.readM 14).toNat),
    (256, 32, t.lmask), (224, 32, x.idx), (192, 32, t.aux), (176, 16, x.domain), (167, 9, s.chip),
    (152, 8, core % 96), (144, 8, warpNo k), (141, 3, b % 8), (140, 1, core / 96), (138, 2, w.ctl.role),
    (137, 1, if w.ctl.priv then 1 else 0), (136, 1, if t.xt = 0 then 0 else 1), (128, 8, t.extk), (120, 8, t.widx),
    (112, 8, slice), (106, 6, x.ctx), (0, 8, t.code), (1024, 2560, t.xt), (3584, 1024, t.ext)]

/-- The entries of a host fault queue item: its head, then its payload (R394). -/
def hfqItem (kind : Nat) (payload : List Byte) : Nat × List Byte :=
  let nent := (64 + payload.length + 1023) / 1024
  let body := leBytes 64 (pack [(0, 8, kind), (32, 32, nent)]) ++ payload
  (nent, body ++ List.replicate (nent * 1024 - body.length) 0)

/-- The 1 KiB entries of an item stored one by one; none if a store fails. -/
def hfqStores (s : State) (ctx base cap tail : Nat) : Nat → List Byte → Option (List Effect)
  | 0, _ => some []
  | n + 1, bytes =>
    let va := base + 1024 + 1024 * (tail % cap)
    match s.device 32 ctx va true with
    | none => none
    | some (pa, es) =>
      let here := es ++ s.physWrite pa (bytes.take 1024) s.deviceEpoch none
      (hfqStores (applyAll here s) ctx base cap (tail + 1) n (bytes.drop 1024)).map fun more => here ++ more

/-- An item of a die's event appended to a context's host fault queue, or dropped and counted (R394); a poisoned header is
not read (R26). -/
def hfqAppend (s : State) (ctx kind : Nat) (payload : List Byte) (die : Nat := 0) : List Effect :=
  let hfq := (s.ctxOf ctx).hfq.toNat
  let lost := fun (s : State) (ovf : Nat) => journal s 7 die (pack [(0, 64, ctx), (64, 32, ovf)])
  if hfq = 0 then lost s 0
  else match (s.device 33 ctx hfq true).filter fun p => !s.poisonedRange p.1 16 with
    | none => lost s 0
    | some (pa, es) =>
      let hd := s.phys pa 16
      let cap := 2 ^ bits hd 15 8
      let used := (bits hd 127 96 + 2 ^ 32 - bits hd 95 64) % 2 ^ 32
      let (nent, body) := hfqItem kind payload
      let drop := fun (s : State) =>
        s.physWrite (pa + 4) (leBytes 4 (bits hd 63 32 + 1)) s.deviceEpoch none
      if cap < used + nent then es ++ chain s [drop, fun s => lost s (bits hd 63 32 + 1)]
      else match hfqStores s ctx hfq cap (bits hd 127 96) nent body with
        | none => es ++ chain s [drop, fun s => lost s (bits hd 63 32 + 1)]
        | some st =>
          es ++ chain s [fun _ => st,
            fun s => s.physWrite (pa + 12) (leBytes 4 (bits hd 127 96 + nent)) s.deviceEpoch none,
            fun s => if bit hd 0 then [.vil { s.vil with msix := s.vil.msix ++ [(ctx, bits hd 31 16)] }] else []]

/-- The codes whose disposition is a handler (R388). -/
def handlerCode (t : Trap) : Bool :=
  (t.code == 0x08 && t.first) || t.code == 0x15 || t.code == 0x16 || t.code == 0x17 || t.code == 0x0F

/-- The address of the trap frame of a context (R390). -/
def State.frameVa (s : State) (k : Nat) : Nat :=
  let j := match (s.ctl k).helper with | none => 0 | some h => h.slice + 1
  (s.ctxOf (s.blk (blockOf k)).ctx).tfbase.toNat + 0x2400 * hostKey k + 0x400 * j

/-- The handler's address of a context: TVEC, or HTVEC for a helper (R391). -/
def State.handlerVa (s : State) (k : Nat) : DWord :=
  let c := s.ctxOf (s.blk (blockOf k)).ctx
  if (s.ctl k).helper.isSome then c.htvec else c.tvec

/-- Whether a trap is taken in the handler (R388): its code, a handler address, user mode, a trap frame. -/
def State.takesHandler (s : State) (k : Nat) (t : Trap) : Bool :=
  handlerCode t && s.handlerVa k != 0 && !(s.ctl k).priv && (s.ctl k).st != .exited
    && (s.device 34 (s.blk (blockOf k)).ctx (s.frameVa k) true).isSome

/-- Whether the entering slices' flags are clear but for remote loads and XSWAP (R391 step 1). -/
def Ctl.quiet (c : Ctl) (sl : Nat) : Bool :=
  c.flagOps.all fun o => o.flag == 15 || (o.slices &&& sl) == 0 || !o.waiting.isEmpty
    || c.xswap.any fun x => x.op == o.id

/-- The resume point of a handler trap (R391 step 3): the trapping word for a page fault of an instruction,
else word 0 of the clause that would have executed next. -/
def resumeAt (c : Ctl) (t : Trap) : Nat × Nat :=
  if t.replay then (t.tpc, t.widx)
  else
    let x := c.slice (lowest 8 t.slices)
    ((if x.inClause && !t.copyOp then x.nextClause else x.pc).toNat, 0)

/-- TRET of a resume point (R391 step 3). -/
def tretOf (p : Nat × Nat) : DWord := dword (p.2 % 32 * 2 ^ 59 + bits p.1 56 3 * 8)

/-- Taking a trap in the context's handler (R391): the record in the frame, TRET, the supervisor copies with
the frame's address, the code and AUX, the handler's m0, and the slices at the handler's address. -/
def enterHandler (s : State) (k : Nat) (t : Trap) : List Effect :=
  let x := s.blk (blockOf k)
  let frame := s.frameVa k
  let base := if (s.ctl k).helper.isSome then 12 else 144
  chain s [
    fun s => deviceWrite s x.ctx frame (leBytes 576 (trapRecord s k t)) (s.epochOf k),
    fun s =>
      let c := s.ctl k
      let tr := resumeAt c t
      [.ctl k { c.onSlices t.slices (fun y =>
          { y with pc := s.handlerVa k, inClause := false, idx := 0, h0 := 0, resv := none, wait := none
                   regang := none, hregang := y.regang, words := if y.hwait.isSome then y.words else [] }) with
        priv := true, tret := tretOf tr, hslices := t.slices, handler := some t.code, trap := none }],
    fun _ => [.sreg k base (word frame), .sreg k (base + 1) (word (frame / 2 ^ 32)), .sreg k (base + 2) (word t.code),
      .sreg k (base + 3) (word t.aux), .mask k 0 (word (t.hm0 &&& lanesOf t.slices))]]

/-- The clause at a resume point (R392): its address, header words and words, and whether its words pass R61. -/
structure Resume where
  va : Nat
  h0 : Word
  h1 : Word
  words : List Word
  ok : Bool
  deriving DecidableEq, Repr

/-- The clause of a resume point: its header passes and the index lies below LEN, else misaligned-target (R392). -/
def State.resumeClause (s : State) (k : Nat) (tret : DWord) : Except Trap (Resume × List Effect) :=
  let low := bits tret.toNat 56 3 * 8
  let va := if bit low 56 then low + (2 ^ 64 - 2 ^ 57) else low
  let w := s.warp k
  match s.clauseWords k va 0 2 with
  | .error e => .error (fetchTrap s w w.ctl.hslices va e)
  | .ok (hs, es) =>
    let h0 := hs.getD 0 0
    if !headerOk h0.toNat (hs.getD 1 0).toNat || decide (h0Len h0.toNat ≤ bits tret.toNat 63 59)
    then .error { code := 0x05, addr := va }
    else match s.clauseWords k va 2 (h0Len h0.toNat) with
      | .error e => .error (fetchTrap s w w.ctl.hslices va e)
      | .ok (ws, fs) => .ok (⟨va, h0, hs.getD 1 0, ws, wordsOk 32 ws⟩, es ++ fs)

/-- A slice at its resume point (R392): at word 0 the clause has not begun, so its mode is that of its header; at a
later word it is the mode as saved. A clause whose words break R61 is reached and raises illegal-clause there. A slice that
entered the handler from a REGANG or a wait at a clause boundary stands there again, and one that entered it from a wait
at this clause's first word waits on: a word that has issued does not execute again (R391; log entry 70). -/
def Slice.resume (r : Resume) (idx : Nat) (x : Slice) : Slice :=
  let y := { x with pc := dword r.va, inClause := false, idx := 0, words := [], h0 := 0, wait := none
                    regang := x.hregang, hregang := none, hwait := none }
  let atEnd := match x.hwait with | some (.combine _ _) | some (.replies _ _) => true | _ => false
  if x.hregang.isSome || !r.ok then y
  else if atEnd && idx = 0 then { y with wait := x.hwait }
  else
    { y with inClause := true, idx, words := r.words, h0 := r.h0
             wait := if idx = 0 && r.words.head? == x.words.head? then x.hwait else none
             mode := if idx = 0 then BitVec.ofNat 16 (bits r.h1.toNat 31 16) else x.mode }

/-- The return from a handler (R392): user copies, user mode, and the slices that entered at TRET in their clause with
its WAIT treated as met. -/
def leaveHandler (s : State) (k : Nat) (r : Resume) : List Effect :=
  let c := s.ctl k
  [.ctl k { c.onSlices c.hslices (Slice.resume r (bits c.tret.toNat 63 59)) with
    priv := false, hslices := 0, handler := none }]

/-- The epoch that a distributor's write acts under: that of the launch concerned, or post-cut once cut (R407). -/
def State.distEpoch (s : State) (epoch : Nat) : Nat := if s.snap.st = 2 then s.snap.n else epoch

/-- A launch's record at an address takes a state and a code (R380). -/
def setLaunchState (s : State) (ctx record epoch st code : Nat) : List Effect :=
  deviceWrite s ctx (record + 60) (leBytes 2 (code % 256 + st % 256 * 256)) (s.distEpoch epoch)

/-- An abort of a collective sent to every other member on every plane (R350). -/
def collAbortPackets (s : State) (x : Coll) (cause unit blk : Nat) : List Packet :=
  (x.members.filter (· ≠ s.chip)).flatMap fun m => s.planes.map fun p =>
    ⟨2, m, p, [1, x.ctx, x.tag, x.seq, cause, s.chip, unit, blk, (s.blk x.b).epoch % 2]⟩

/-- The role, budget, entry offset and lanes of a block's warp (R34, R95). -/
def Image.roleOf (x : Image) (w : Nat) : Nat × Nat × Nat × Nat :=
  if w < 24 then (0, x.vbe, x.entryE, x.lanes w)
  else if w < 32 then (1, x.vbm, x.entryM, 32)
  else (2, x.vbc, x.entryC, 32)

/-- The block warp numbers an image gives a block (R34). -/
def Image.warps (x : Image) : List Nat := span 0 x.ne ++ span 24 x.nm ++ span 32 x.nc

/-- A write of a flag operation as it takes place; `sup` says whose copy a scalar register is (R391). -/
def regEffect (s : State) (k : Nat) (x : RegWrite) (sup : Bool := (s.ctl k).priv) : Effect :=
  match x with
  | .v r l w => .vreg k r l w
  | .s n w => .sregOf k sup n w
  | .m n lanes w => .mask k n (((s.warp k).readM n &&& ~~~ lanes) ||| w)
  | .t i w => .tile (blockOf k) i w
  | .moved r l a j w => .vreg k r l (if s.pick (500000 + 32 * r + l) 2 = 1 then (s.warp k).readV a j else w)

/-- The values of a flag operation that have come: each of a resident warp's is written in its own time (R75), those of a
warp that parks at once (R76). Nothing is written where no such operation is in flight. -/
def deliver (k op : Nat) (ws : List RegWrite) (s : State) : List Effect :=
  let c := s.ctl k
  match c.flagOps.find? fun o => o.id == op with
  | none => []
  | some o =>
    if c.st.away then ws.map fun x => regEffect s k x o.sup
    else [.ctl k { c with flagOps := c.flagOps.map fun o => if o.id = op then { o with writes := o.writes ++ ws } else o }]

/-- What an XSWAP writes from what its partner sent, 0 where it sent nothing (R149, R150). A pair whose partner sent one
register has no stated upper half. -/
def swapWrites (k : Nat) (x : XSwap) (sent : Option (List Word)) (s : State) : List RegWrite :=
  (setBits 32 x.lanes).flatMap fun l =>
    match sent with
    | none => RegWrite.v x.d l 0 :: (if x.pair then [.v (x.d + 1) l 0] else [])
    | some ws => RegWrite.v x.d l (ws.getD l 0) ::
        (if x.pair then [.v (x.d + 1) l (ws.getD (32 + l) (s.freeWord (64 * (k % 64) + l)))] else [])

/-- One side of an XSWAP has its values: its operation ends as they are written, in a warp that parks at once (R76, R150). -/
def swapDone (k : Nat) (x : XSwap) (sent : Option (List Word)) : List (State → List Effect) :=
  [fun s => deliver k x.op (swapWrites k x sent s) s,
   fun s =>
    let c := s.ctl k
    [.ctl k { c with
      xswap := none
      flagOps := if c.st.away then c.flagOps.filter (fun o => o.id ≠ x.op)
        else c.flagOps.map fun o => if o.id = x.op then { o with held := false } else o }],
   mirror k, wake k]

/-- A pending XSWAP pairs with its partner's, where that has been issued (R149). -/
def pairSwap (k : Nat) (s : State) : List Effect :=
  match (s.ctl k).xswap with
  | none => []
  | some x =>
    match (s.ctl x.partner).xswap with
    | none => []
    | some y => if y.partner = k then chain s (swapDone k x (some y.sent) ++ swapDone x.partner y (some x.sent)) else []

/-- A warp created at an entry point (R36, R37): resident if a window is free, else on the ready queue
awaiting one. `live` and `pslot` differ only for a suspended block's warp (R400). The stores of a warp that exited are
still to become visible, a trap of it is still a kernel fault, and its counted operations still complete (R117). -/
def createWarp (s : State) (b w : Nat) (pc : DWord) (live : Nat) (pslot : DWord) : List Effect :=
  let x := s.blk b
  let k := Config.warpsPerBlock * b + w
  let r := x.img.roleOf w
  let old := s.ctl k
  let free := s.windowFree (coreOf k) r.2.1
  let c : Ctl := {
    role := r.1, vb := r.2.1, launched := word (2 ^ r.2.2.2 - 1), slices := List.replicate 8 { pc }
    st := if free then .pending else .parkedReady, cause := if free then 0 else 8, pslot
    storeQ := old.storeQ, trap := old.trap.map fun t => { t with first := false }, acq := old.acq
    base := if free then s.windowPick k r.2.1 else 0 }
  [.newWarp k c (word x.args) (word (x.args / 2 ^ 32)) (word live)] ++
    (if free then [] else
      [.core (coreOf k) { s.core (coreOf k) with ready := (s.core (coreOf k)).ready ++ [k] }])

end Sys2Proof.Machine
end

