-- ==== Sys2Proof/Machine/Operands.lean ====
section
/-! DEFINITION. Operand forms: scalar operands by element type (03 R68 to R70, 06 R133, 07 R160), register
storage by element type (03 R59), vector sources and destinations, access widths (08 R188) and address forms
(08 R187). -/
namespace Sys2Proof.Machine

/-- Element type codes (R58). -/
def tyI32 : Nat := 2
def tyN32 : Nat := 6
def tyB32 : Nat := 8
def tyF16 : Nat := 0x0A
def tyBf16 : Nat := 0x0B
def tyF32 : Nat := 0x0C
def tyF64 : Nat := 0x0D
def tyF16x2 : Nat := 0x14
def tyBf16x2 : Nat := 0x15
def tyI16x2 : Nat := 0x16
def tyI8x4 : Nat := 0x17

/-- Whether a type takes an even:odd pair (R59). -/
def is64 (ty : Nat) : Bool := ty == 3 || ty == 7 || ty == 9 || ty == 13

/-- The bits of an element of a type in a register (R59); the packed types count their elements' width. -/
def elemBits (ty : Nat) : Nat :=
  match ty with
  | 0 => 8
  | 4 => 8
  | 1 => 16
  | 5 => 16
  | 3 => 64
  | 7 => 64
  | 9 => 64
  | 0x0A => 16
  | 0x0B => 16
  | 0x0D => 64
  | 0x0E => 8
  | 0x0F => 8
  | 0x10 => 6
  | 0x11 => 6
  | 0x12 => 4
  | 0x13 => 8
  | 0x14 => 16
  | 0x15 => 16
  | 0x16 => 16
  | 0x17 => 8
  | _ => 32

/-- The number of packed elements of a type: one for unpacked types (R59). -/
def elems (ty : Nat) : Nat :=
  match ty with
  | 0x14 => 2
  | 0x15 => 2
  | 0x16 => 2
  | 0x17 => 4
  | _ => 1

/-- The element type of a packed type; an unpacked type is its own. -/
def elemType (ty : Nat) : Nat :=
  match ty with
  | 0x14 => 0x0A
  | 0x15 => 0x0B
  | 0x16 => 1
  | 0x17 => 0
  | _ => ty

/-- Element h of a value of a type (R59). -/
def elem (ty x h : Nat) : Nat := x / 2 ^ (elemBits ty * h) % 2 ^ elemBits ty

/-- A value from its elements, element 0 lowest. -/
def unelem (w : Nat) : List Nat → Nat
  | [] => 0
  | x :: t => x % 2 ^ w + 2 ^ w * unelem w t

/-- The register pattern of a result of a type (R59): sign- or zero-extended to 32 bits. -/
def storeBits (ty x : Nat) : Nat :=
  match ty with
  | 0 => pattern 32 (signed 8 x)
  | 1 => pattern 32 (signed 16 x)
  | 4 => x % 2 ^ 8
  | 5 => x % 2 ^ 16
  | 0x0A => x % 2 ^ 16
  | 0x0B => x % 2 ^ 16
  | 0x0E => x % 2 ^ 8
  | 0x0F => x % 2 ^ 8
  | 0x13 => x % 2 ^ 8
  | _ => x

/-- The raw source of a type in one lane: the pair for a 64-bit type, else the register (R59). -/
def Issue.vsrc (I : Issue) (ty r l : Nat) : Nat :=
  if is64 ty then (I.vpair r l).toNat else (I.v r l).toNat % (if elems ty = 1 then 2 ^ elemBits ty else 2 ^ 32)

/-- A result of a type in one lane of a vector register (R59). -/
def vout (k ty r l x : Nat) : List Effect :=
  if is64 ty then [.vreg k r l (word x), .vreg k (r + 1) l (word (x / 2 ^ 32))]
  else [.vreg k r l (word (storeBits ty x))]

/-- The same as writes of an operation in flight. -/
def voutW (ty r l x : Nat) : List RegWrite :=
  if is64 ty then [.v r l (word x), .v (r + 1) l (word (x / 2 ^ 32))]
  else [.v r l (word (storeBits ty x))]

/-- The registers that a vector field names under a type (R67). -/
def vregs (ty r : Nat) : List Nat := if is64 ty then [r, r + 1] else [r]

/-- Whether a field is admitted as a register under a type: even under a 64-bit type (R67). -/
def okReg (ty r : Nat) : Bool := !is64 ty || r % 2 == 0

/-- An exact rational as a pattern of a float format, rounded to nearest (R69: a constant of R68 is exact in
every format that admits it). -/
def fpattern (f : Fmt) (neg : Bool) (num den : Nat) : Nat := f.round rnNearest false false 0 (.fin neg num den)

/-- The value of a float constant code 0xF0 + k (R68): sign, numerator, denominator. -/
def fconstVal (k : Nat) : Bool × Nat × Nat :=
  (k % 2 == 1, if k / 2 = 0 then 1 else 2 ^ (k / 2 - 1), if k / 2 = 0 then 2 else 1)

/-- Whether float constants are legal under a type (R68). -/
def admitsF (ty : Nat) : Bool := ty == 0x0A || ty == 0x0B || ty == 0x0C || ty == 0x0D || ty == 0x14 || ty == 0x15

/-- Whether a type admits codes 0xA0 to 0xFF at all (R69). -/
def admitsConst (ty : Nat) : Bool := !(decide (0x0E ≤ ty) && decide (ty ≤ 0x13))

/-- Whether a typed scalar operand is legal under a type (R67 to R70). -/
def opLegal (x : SOp) (ty : Nat) : Bool :=
  match x with
  | .reg n => okReg ty n
  | .const _ => admitsConst ty
  | .fconst _ => admitsF ty
  | .laneid => admitsConst ty
  | .lit w =>
    admitsConst ty &&
      (if ty = 1 ∨ ty = 5 ∨ ty = 0x0A ∨ ty = 0x0B then decide (w.toNat < 2 ^ 16)
       else if ty = 0 ∨ ty = 4 then decide (w.toNat < 2 ^ 8) else true)

/-- An integer as an operand of a type (R69). -/
def constBits (ty : Nat) (c : Int) : Nat :=
  match fmtOf ty with
  | some f =>
    let e := fpattern f (decide (c < 0)) c.natAbs 1
    if elems ty = 2 then e + 65536 * e else e
  | none =>
    let w := elemBits ty
    unelem w (List.replicate (elems ty) (pattern w c))

/-- A typed scalar operand in one lane, as the raw source of the type (R68 to R70). -/
def Issue.sval (I : Issue) (ty l : Nat) : SOp → Nat
  | .reg n => if is64 ty then (I.pair n).toNat
      else (I.rs n).toNat % (if elems ty = 1 then 2 ^ elemBits ty else 2 ^ 32)
  | .const c => constBits ty c
  | .fconst k =>
    match fmtOf ty with
    | some f =>
      let v := fconstVal k
      let e := fpattern f v.1 v.2.1 v.2.2
      if elems ty = 2 then e + 65536 * e else e
    | none => 0
  | .laneid => constBits ty l
  | .lit w =>
    if ty = 3 then pattern 64 (signed 32 w.toNat)
    else if ty = 0x0D then fmtF64.round rnNearest false false 0 (val32 w.toNat)
    else w.toNat

/-- The scalar registers a typed operand names. -/
def opRegsT (x : SOp) (ty : Nat) : List Nat :=
  match x with
  | .reg n => vregs ty n
  | _ => []

/-- A B operand of the vv and vs forms. -/
inductive Opnd where
  | v (r : Nat)
  | s (x : SOp)
  deriving DecidableEq, Repr

/-- The raw source of a B operand under a type in one lane. -/
def Issue.opnd (I : Issue) (ty l : Nat) : Opnd → Nat
  | .v r => I.vsrc ty r l
  | .s x => I.sval ty l x

/-- The vector registers a B operand names under a type. -/
def Opnd.vs (x : Opnd) (ty : Nat) : List Nat := match x with | .v r => vregs ty r | .s _ => []

/-- The scalar registers a B operand names under a type. -/
def Opnd.ss (x : Opnd) (ty : Nat) : List Nat := match x with | .v _ => [] | .s x => opRegsT x ty

/-- Whether a B operand is legal under a type. -/
def Opnd.legal (x : Opnd) (ty : Nat) : Bool := match x with | .v r => okReg ty r | .s x => opLegal x ty

/-- The access width in bytes of a type (R188); 0 where the type is not admitted. -/
def accessBytes (ty : Nat) : Nat :=
  match ty with
  | 0 => 1
  | 4 => 1
  | 0x0E => 1
  | 0x0F => 1
  | 0x13 => 1
  | 1 => 2
  | 5 => 2
  | 0x0A => 2
  | 0x0B => 2
  | 2 => 4
  | 6 => 4
  | 8 => 4
  | 0x0C => 4
  | 0x14 => 4
  | 0x15 => 4
  | 0x16 => 4
  | 0x17 => 4
  | 3 => 8
  | 7 => 8
  | 9 => 8
  | 0x0D => 8
  | _ => 0

/-- The address of a lane under an address form (R187). -/
def Issue.addr (I : Issue) (f : AddrForm) (l : Nat) : Nat :=
  match f with
  | .base a b => (I.pair a + sext64 (I.v b l)).toNat
  | .vec b => (I.vpair b l).toNat

/-- The registers an address form names. -/
def formVs : AddrForm → List Nat
  | .base _ b => [b]
  | .vec b => [b, b + 1]
def formSs : AddrForm → List Nat
  | .base a _ => [a, a + 1]
  | .vec _ => []

/-- The lane and address of every active lane. -/
def Issue.eas (I : Issue) (f : AddrForm) : List (Nat × Nat) := I.act.map fun l => (l, I.addr f l)

end Sys2Proof.Machine
end

