-- ==== Sys2Proof/Machine/Flags.lean ====
section
/-! DEFINITION. Flag computations: relation bits (05 R104, 06 R141, 07 R163), carries and borrows (06 R136),
FCLASS bits stand with the formats. The machine has no condition flags: relations are written to registers and
carries to the mask m13. -/
namespace Sys2Proof.Machine

/-- The relation bits of SCMP (R104). -/
def relation (a b : Word) : Word :=
  word ((if a = b then 1 else 0) + (if a.toInt < b.toInt then 2 else 0) + (if a.toNat < b.toNat then 4 else 0)
    + (if b.toInt < a.toInt then 8 else 0) + (if b.toNat < a.toNat then 16 else 0))

/-- The relation bits of CMP on two integers (R141). -/
def cmpBits (a b : Int) : Nat := if a = b then 1 else if a < b then 2 else 4

/-- The relation bits of FCMP (R163): equal, less, greater, unordered. -/
def fcmpBits (a b : Val) : Nat :=
  match a, b with
  | .nan, _ => 8
  | _, .nan => 8
  | _, _ => if Val.eqv a b then 1 else if Val.lt a b then 2 else 4

/-- The carry out of a 32-bit sum with a carry in (R136). -/
def carryOut (a b c : Nat) : Bool := decide (2 ^ 32 ≤ a + b + c)

/-- The borrow out of a 32-bit difference with a borrow in (R136). -/
def borrowOut (a b c : Nat) : Bool := decide (a < b + c)

end Sys2Proof.Machine
end

