-- ==== Sys2Proof/Machine/Scalar.lean ====
section
/-! DEFINITION. Scalar arithmetic and logic, GETID (05 R101 to R105, R107) and the mask instructions (05
R108, R109). -/
namespace Sys2Proof.Machine

/-- A warp-level word that writes one scalar register from its operands (R101, R102). -/
def scalarOp (d : Nat) (ops : List SOp) (f : Issue → Word) (s : State) : Out :=
  issue (fun _ => { cls := .a, once := true, ss := d :: ops.flatMap opRegs })
    (fun I => .ok ([.sreg I.k d (f I)], .next)) s

/-- Shift left by an unsigned count, 0 from 32 on (R102). -/
def shl32 (a b : Word) : Word := if b.toNat ≥ 32 then 0 else a <<< b.toNat

/-- Logical shift right, 0 from 32 on (R102). -/
def shr32 (a b : Word) : Word := if b.toNat ≥ 32 then 0 else a >>> b.toNat

/-- Arithmetic shift right by at most 31 (R102). -/
def sar32 (a b : Word) : Word := a.sshiftRight (min b.toNat 31)

/-- Signed lesser and greater (R102). -/
def smin32 (a b : Word) : Word := if a.toInt ≤ b.toInt then a else b
def smax32 (a b : Word) : Word := if b.toInt ≤ a.toInt then a else b

/-- The bit field that SBFE extracts (R103). -/
def bfe32 (a b : Word) : Word :=
  let pos := bits b.toNat 4 0
  let n := min (bits b.toNat 13 8) (32 - pos)
  let x := a.toNat / 2 ^ pos % 2 ^ n
  if n = 0 then 0 else if bit b.toNat 16 then BitVec.ofInt 32 (signed n x) else word x

/-- The word with the bit field that SBFI inserts (R103). -/
def bfi32 (d a b : Word) : Word :=
  let pos := bits b.toNat 4 0
  let n := min (bits b.toNat 13 8) (32 - pos)
  let m := word ((2 ^ n - 1) * 2 ^ pos)
  (d &&& ~~~ m) ||| ((a <<< pos) &&& m)

def execSmov (d : Nat) (a : SOp) (s : State) : Out := scalarOp d [a] (fun I => I.op a) s
def execSadd (d : Nat) (a b : SOp) (s : State) : Out := scalarOp d [a, b] (fun I => I.op a + I.op b) s
def execSsub (d : Nat) (a b : SOp) (s : State) : Out := scalarOp d [a, b] (fun I => I.op a - I.op b) s
def execSmul (d : Nat) (a b : SOp) (s : State) : Out := scalarOp d [a, b] (fun I => I.op a * I.op b) s
def execSmulh (d : Nat) (a b : SOp) (s : State) : Out :=
  scalarOp d [a, b] (fun I => word ((I.op a).toNat * (I.op b).toNat / 2 ^ 32)) s
def execSand (d : Nat) (a b : SOp) (s : State) : Out := scalarOp d [a, b] (fun I => I.op a &&& I.op b) s
def execSor (d : Nat) (a b : SOp) (s : State) : Out := scalarOp d [a, b] (fun I => I.op a ||| I.op b) s
def execSxor (d : Nat) (a b : SOp) (s : State) : Out := scalarOp d [a, b] (fun I => I.op a ^^^ I.op b) s
def execSshl (d : Nat) (a b : SOp) (s : State) : Out := scalarOp d [a, b] (fun I => shl32 (I.op a) (I.op b)) s
def execSshr (d : Nat) (a b : SOp) (s : State) : Out := scalarOp d [a, b] (fun I => shr32 (I.op a) (I.op b)) s
def execSsar (d : Nat) (a b : SOp) (s : State) : Out := scalarOp d [a, b] (fun I => sar32 (I.op a) (I.op b)) s
def execSmin (d : Nat) (a b : SOp) (s : State) : Out := scalarOp d [a, b] (fun I => smin32 (I.op a) (I.op b)) s
def execSmax (d : Nat) (a b : SOp) (s : State) : Out := scalarOp d [a, b] (fun I => smax32 (I.op a) (I.op b)) s
def execScmp (d : Nat) (a b : SOp) (s : State) : Out := scalarOp d [a, b] (fun I => relation (I.op a) (I.op b)) s

/-- SSEL reads s[D] before it writes it (R104). -/
def execSsel (d : Nat) (a b : SOp) (s : State) : Out :=
  scalarOp d [a, b] (fun I => if I.rs d ≠ 0 then I.op a else I.op b) s
def execSbfe (d : Nat) (a b : SOp) (s : State) : Out := scalarOp d [a, b] (fun I => bfe32 (I.op a) (I.op b)) s
def execSbfi (d : Nat) (a b : SOp) (s : State) : Out :=
  scalarOp d [a, b] (fun I => bfi32 (I.rs d) (I.op a) (I.op b)) s
def execSpopc (d : Nat) (a : SOp) (s : State) : Out :=
  scalarOp d [a] (fun I => word (popcount 32 (I.op a).toNat)) s
def execSclz (d : Nat) (a : SOp) (s : State) : Out := scalarOp d [a] (fun I => word (clz 32 (I.op a).toNat)) s

/-- A 64-bit value written to a scalar pair, low half in the even register (R59). -/
def pairOut (k d : Nat) (x : DWord) : List Effect :=
  [.sreg k d (x.setWidth 32), .sreg k (d + 1) ((x >>> 32).setWidth 32)]

/-- SADDP (R105). -/
def execSaddp (d a : Nat) (b : SOp) (s : State) : Out :=
  issue (fun _ => { cls := .a, once := true, ss := [d, d + 1, a, a + 1] ++ opRegs b })
    (fun I => .ok (pairOut I.k d (I.pair a + sext64 (I.op b)), .next)) s

/-- The identity value of a selector (R41, R107). A helper has its host's (R310). -/
def Issue.ident (I : Issue) (sel : Nat) : Nat :=
  let b := blockOf I.k
  match sel with
  | 0 => I.lane
  | 1 => lowest 8 I.sl
  | 2 => warpNo I.k
  | 3 => I.c.role
  | 4 => I.blk.idx
  | 5 => b / 8 % 96 % 16
  | 6 => b / 8 % 96
  | 7 => b / 8 / 96
  | _ => I.s.chip

def execGetid (d sel : Nat) (s : State) : Out := scalarOp d [] (fun I => word (I.ident sel)) s

/-- A mask write: all bits by a gang, only the issuing lanes' bits by a parted slice (R40, R109). -/
def Issue.maskOut (I : Issue) (d : Nat) (x : Word) : List Effect :=
  if d < 14 then
    let l := word I.lanes
    [.mask I.k d (if I.c.parted then (I.w.readM d &&& ~~~ l) ||| (x &&& l) else x)]
  else []

/-- The helpers that a host's write of m0 asks back: those on a lent slice that gets a live lane (R318). -/
def Issue.recall (I : Issue) (d : Nat) (x : Word) : List Effect :=
  if d ≠ 0 then []
  else
    let new := (if I.c.parted then x.toNat &&& I.lanes else x.toNat) &&& (I.m 14).toNat
    (I.s.lent I.k).filterMap fun p =>
      match p.2.ctl.helper with
      | some h => if bits new (4 * h.slice + 3) (4 * h.slice) ≠ 0 && !h.recalled
          then some (.ctl p.1 { p.2.ctl with helper := some { h with asked := true, recalled := true } }) else none
      | none => none

/-- A mask instruction that writes a mask (R108); a write to m14 or m15 is discarded. -/
def maskOp (d : Nat) (ss : List Nat) (f : Issue → Word) (s : State) : Out :=
  issue (fun _ => { cls := .a, once := true, ss })
    (fun I => .ok (I.maskOut d (f I) ++ I.recall d (f I), .next)) s

def execMand (d a b : Nat) (s : State) : Out := maskOp d [] (fun I => I.m a &&& I.m b) s
def execMor (d a b : Nat) (s : State) : Out := maskOp d [] (fun I => I.m a ||| I.m b) s
def execMxor (d a b : Nat) (s : State) : Out := maskOp d [] (fun I => I.m a ^^^ I.m b) s
def execMandn (d a b : Nat) (s : State) : Out := maskOp d [] (fun I => I.m a &&& ~~~ I.m b) s
def execMnot (d a : Nat) (s : State) : Out := maskOp d [] (fun I => ~~~ I.m a) s
def execMmov (d a : Nat) (s : State) : Out := maskOp d [] (fun I => I.m a) s
def execMset (d : Nat) (a : SOp) (s : State) : Out := maskOp d (opRegs a) (fun I => I.op a) s
def execMpopc (d a : Nat) (s : State) : Out := scalarOp d [] (fun I => word (popcount 32 (I.m a).toNat)) s
def execMffs (d a : Nat) (s : State) : Out := scalarOp d [] (fun I => word (lowest 32 (I.m a).toNat)) s
def execMget (d a : Nat) (s : State) : Out := scalarOp d [] (fun I => I.m a) s

end Sys2Proof.Machine
end

