-- ==== Sys2Proof/Machine/VecInt.lean ====
section
/-! DEFINITION. Vector integer instructions (06 R133 to R142). -/
namespace Sys2Proof.Machine

/-- The type groups of R133. -/
def isI (ty : Nat) : Bool := decide (ty < 8)
def isB (ty : Nat) : Bool := ty == 8 || ty == 9
def isP (ty : Nat) : Bool := ty == 0x16 || ty == 0x17

/-- Width and signedness of an element under a type of I, B or P (R133). -/
def intElem (ty : Nat) : Nat × Bool :=
  match intType (elemType ty) with
  | some p => p
  | none => (elemBits ty, false)

/-- Element h of a source as an integer (R133). -/
def ielem (ty x h : Nat) : Int :=
  let p := intElem ty
  if p.2 then signed p.1 (elem ty x h) else (elem ty x h : Int)

/-- A result element written by R135: clamped under SAT for I and P types, else reduced. -/
def fitElem (ty : Nat) (sat : Bool) (x : Int) : Nat :=
  let p := intElem ty
  fitInt p.1 p.2 (sat && !isB ty) x

/-- A lane-wise word: what it admits, the registers it names and writes, and its effect on one active lane
(R7, R134). -/
def lanewise (legal : Issue → Bool) (vs ss dst : Issue → List Nat) (out : Issue → Nat → List Effect) (s : State) :
    Out :=
  issue (fun I => { cls := .e, legal := legal I, vs := vs I, ss := ss I, dst := dst I })
    (fun I => .ok (I.act.flatMap (out I), .next)) s

/-- The two-operand form under TYPE: destination, A and B name registers or pairs of the type (R67). `f` gives
the raw result from the sources in one lane. -/
def vecOp (ok : Nat → Bool) (d a : Nat) (b : Opnd) (f : Issue → Nat → Nat → Nat → Nat) (s : State) : Out :=
  lanewise (fun I => ok I.ty && okReg I.ty d && okReg I.ty a && b.legal I.ty)
    (fun I => vregs I.ty d ++ vregs I.ty a ++ b.vs I.ty) (fun I => b.ss I.ty) (fun I => vregs I.ty d)
    (fun I l => vout I.k I.ty d l (f I (I.vsrc I.ty d l) (I.vsrc I.ty a l) (I.opnd I.ty l b))) s

/-- Each element computed on its own (R135 step 5) from d, a and b. -/
def byElem (ty : Nat) (f : Nat → Nat) : Nat := unelem (elemBits ty) ((span 0 (elems ty)).map f)

/-- An integer operation of R134 on exact elements. -/
def intOp (ok : Nat → Bool) (d a : Nat) (b : Opnd) (f : Int → Int → Int → Int) (s : State) : Out :=
  vecOp ok d a b (fun I z x y =>
    byElem I.ty fun h => fitElem I.ty I.sat (f (ielem I.ty x h) (ielem I.ty y h) (ielem I.ty z h))) s

/-- An operation on element patterns whose result is never out of range (R134, R137). -/
def patOp (ok : Nat → Bool) (d a : Nat) (b : Opnd) (f : Nat → Nat → Nat → Nat) (s : State) : Out :=
  vecOp ok d a b (fun I _ x y =>
    byElem I.ty fun h => f (elemBits I.ty) (elem I.ty x h) (elem I.ty y h)) s

def okIBP (ty : Nat) : Bool := isI ty || isB ty || isP ty
def okIP (ty : Nat) : Bool := isI ty || isP ty
def okMulh (ty : Nat) : Bool := ty == 2 || ty == 6 || ty == 0x16
def okMad (ty : Nat) : Bool := ty == 2 || ty == 6 || ty == 8 || ty == 0x16
def ok32 (ty : Nat) : Bool := ty == 2 || ty == 6 || ty == 8

def execAddVv (d a b : Nat) (s : State) : Out := intOp okIBP d a (.v b) (fun x y _ => x + y) s
def execAddVs (d a : Nat) (b : SOp) (s : State) : Out := intOp okIBP d a (.s b) (fun x y _ => x + y) s
def execSubVv (d a b : Nat) (s : State) : Out := intOp okIBP d a (.v b) (fun x y _ => x - y) s
def execSubVs (d a : Nat) (b : SOp) (s : State) : Out := intOp okIBP d a (.s b) (fun x y _ => x - y) s
def execMulVv (d a b : Nat) (s : State) : Out := intOp okIBP d a (.v b) (fun x y _ => x * y) s
def execMulVs (d a : Nat) (b : SOp) (s : State) : Out := intOp okIBP d a (.s b) (fun x y _ => x * y) s

/-- MULH: the high half of the product (R134). -/
def mulh (d a : Nat) (b : Opnd) (s : State) : Out :=
  vecOp okMulh d a b (fun I _ x y =>
    byElem I.ty fun h => fitElem I.ty false (ielem I.ty x h * ielem I.ty y h / 2 ^ elemBits I.ty)) s
def execMulhVv (d a b : Nat) (s : State) : Out := mulh d a (.v b) s
def execMulhVs (d a : Nat) (b : SOp) (s : State) : Out := mulh d a (.s b) s

def execMadVv (d a b : Nat) (s : State) : Out := intOp okMad d a (.v b) (fun x y z => x * y + z) s
def execMadVs (d a : Nat) (b : SOp) (s : State) : Out := intOp okMad d a (.s b) (fun x y z => x * y + z) s

/-- ABSD with its exception to the clamping of R135 (step 4). -/
def absd (d a : Nat) (b : Opnd) (s : State) : Out :=
  vecOp okIP d a b (fun I _ x y =>
    byElem I.ty fun h =>
      let n := (ielem I.ty x h - ielem I.ty y h).natAbs
      let p := intElem I.ty
      if I.sat && p.2 then min n (2 ^ (p.1 - 1) - 1) else n % 2 ^ p.1) s
def execAbsdVv (d a b : Nat) (s : State) : Out := absd d a (.v b) s
def execAbsdVs (d a : Nat) (b : SOp) (s : State) : Out := absd d a (.s b) s

def execMinVv (d a b : Nat) (s : State) : Out := intOp okIP d a (.v b) (fun x y _ => min x y) s
def execMinVs (d a : Nat) (b : SOp) (s : State) : Out := intOp okIP d a (.s b) (fun x y _ => min x y) s
def execMaxVv (d a b : Nat) (s : State) : Out := intOp okIP d a (.v b) (fun x y _ => max x y) s
def execMaxVs (d a : Nat) (b : SOp) (s : State) : Out := intOp okIP d a (.s b) (fun x y _ => max x y) s

def execAndVv (d a b : Nat) (s : State) : Out := patOp okIBP d a (.v b) (fun _ x y => x &&& y) s
def execAndVs (d a : Nat) (b : SOp) (s : State) : Out := patOp okIBP d a (.s b) (fun _ x y => x &&& y) s
def execOrVv (d a b : Nat) (s : State) : Out := patOp okIBP d a (.v b) (fun _ x y => x ||| y) s
def execOrVs (d a : Nat) (b : SOp) (s : State) : Out := patOp okIBP d a (.s b) (fun _ x y => x ||| y) s
def execXorVv (d a b : Nat) (s : State) : Out := patOp okIBP d a (.v b) (fun _ x y => x ^^^ y) s
def execXorVs (d a : Nat) (b : SOp) (s : State) : Out := patOp okIBP d a (.s b) (fun _ x y => x ^^^ y) s

/-- DP4: the packed dot product added to d as i32 (R134). -/
def dp4 (d a : Nat) (b : Opnd) (s : State) : Out :=
  vecOp isP d a b (fun I z x y =>
    fitInt 32 true I.sat
      ((span 0 (elems I.ty)).foldl (fun t h => t + ielem I.ty x h * ielem I.ty y h) (signed 32 z))) s
def execDp4Vv (d a b : Nat) (s : State) : Out := dp4 d a (.v b) s
def execDp4Vs (d a : Nat) (b : SOp) (s : State) : Out := dp4 d a (.s b) s

/-- A carry chain word (R136): the sum or difference with m13, and each active lane's bit of m13. -/
def carryOp (sub : Bool) (d a : Nat) (b : Opnd) (s : State) : Out :=
  issue (fun I => { cls := .e, legal := ok32 I.ty && b.legal I.ty, vs := [d, a] ++ b.vs I.ty, ss := b.ss I.ty
                    dst := [d] })
    (fun I =>
      let c := fun l => if (I.m 13).getLsbD l then 1 else 0
      let x := fun l => I.vsrc I.ty a l
      let y := fun l => I.opnd I.ty l b
      let out := maskOf (I.act.filter fun l =>
        if sub then borrowOut (x l) (y l) (c l) else carryOut (x l) (y l) (c l))
      .ok (I.act.flatMap (fun l =>
          [.vreg I.k d l (if sub then word (x l) - word (y l) - word (c l) else word (x l + y l + c l))])
        ++ [.mask I.k 13 ((I.w.readM 13 &&& ~~~ word I.active) ||| word out)], .next)) s
def execAddcVv (d a b : Nat) (s : State) : Out := carryOp false d a (.v b) s
def execAddcVs (d a : Nat) (b : SOp) (s : State) : Out := carryOp false d a (.s b) s
def execSubbVv (d a b : Nat) (s : State) : Out := carryOp true d a (.v b) s
def execSubbVs (d a : Nat) (b : SOp) (s : State) : Out := carryOp true d a (.s b) s

/-- The shift count: the low 32 bits of b, or its element, unsigned (R137). -/
def shiftCount (ty y h : Nat) : Nat := if isP ty then elem ty y h else y % 2 ^ 32

/-- SHL (R137): a × 2^c written by R135; from c = w on it is 0, or the bound of a's sign under SAT. -/
def shl (d a : Nat) (b : Opnd) (s : State) : Out :=
  vecOp okIBP d a b (fun I _ x y =>
    byElem I.ty fun h =>
      fitElem I.ty I.sat (ielem I.ty x h * 2 ^ min (shiftCount I.ty y h) (elemBits I.ty))) s
def execShlVv (d a b : Nat) (s : State) : Out := shl d a (.v b) s
def execShlVs (d a : Nat) (b : SOp) (s : State) : Out := shl d a (.s b) s

/-- SHR and SAR on the pattern of a (R137). -/
def shr (arith : Bool) (d a : Nat) (b : Opnd) (s : State) : Out :=
  vecOp okIBP d a b (fun I _ x y =>
    byElem I.ty fun h =>
      let w := elemBits I.ty
      let n : Nat := 2 ^ min (shiftCount I.ty y h) w
      if arith then pattern w (signed w (elem I.ty x h) / (n : Int)) else elem I.ty x h / n) s
def execShrVv (d a b : Nat) (s : State) : Out := shr false d a (.v b) s
def execShrVs (d a : Nat) (b : SOp) (s : State) : Out := shr false d a (.s b) s
def execSarVv (d a b : Nat) (s : State) : Out := shr true d a (.v b) s
def execSarVs (d a : Nat) (b : SOp) (s : State) : Out := shr true d a (.s b) s

/-- BFE: signedness from TYPE (R138). -/
def bfe (d a : Nat) (b : Opnd) (s : State) : Out :=
  vecOp ok32 d a b (fun I _ x y =>
    (bfe32 (word x) (word (y % 2 ^ 16 + (if I.ty = tyI32 then 2 ^ 16 else 0)))).toNat) s
def execBfeVv (d a b : Nat) (s : State) : Out := bfe d a (.v b) s
def execBfeVs (d a : Nat) (b : SOp) (s : State) : Out := bfe d a (.s b) s

/-- BFI reads v[D] before it writes it (R138). -/
def bfi (d a : Nat) (b : Opnd) (s : State) : Out :=
  vecOp ok32 d a b (fun _ z x y => (bfi32 (word z) (word x) (word y)).toNat) s
def execBfiVv (d a b : Nat) (s : State) : Out := bfi d a (.v b) s
def execBfiVs (d a : Nat) (b : SOp) (s : State) : Out := bfi d a (.s b) s

/-- A single-source word on the bits of a register or pair (R139). -/
def bitsOp (d : Nat) (a : Opnd) (f : Nat → Nat → Nat) (s : State) : Out :=
  lanewise (fun I => isB I.ty && okReg I.ty d && a.legal I.ty)
    (fun I => vregs I.ty d ++ a.vs I.ty) (fun I => a.ss I.ty) (fun I => vregs I.ty d)
    (fun I l => vout I.k I.ty d l (f (elemBits I.ty) (I.opnd I.ty l a))) s

/-- The bits of a w-bit pattern in reverse order (R139). -/
def brev (w x : Nat) : Nat := maskOf ((setBits w x).map fun i => w - 1 - i)

def execPopcVv (d a : Nat) (s : State) : Out := bitsOp d (.v a) popcount s
def execPopcVs (d : Nat) (b : SOp) (s : State) : Out := bitsOp d (.s b) popcount s
def execClzVv (d a : Nat) (s : State) : Out := bitsOp d (.v a) clz s
def execClzVs (d : Nat) (b : SOp) (s : State) : Out := bitsOp d (.s b) clz s
def execBrevVv (d a : Nat) (s : State) : Out := bitsOp d (.v a) brev s
def execBrevVs (d : Nat) (b : SOp) (s : State) : Out := bitsOp d (.s b) brev s

/-- MOV in the vv form copies the register, or the pair, unchanged (R139). -/
def execMovVv (d a : Nat) (s : State) : Out :=
  lanewise (fun I => decide (I.ty < 0x18) && okReg I.ty d && okReg I.ty a)
    (fun I => vregs I.ty d ++ vregs I.ty a) (fun _ => []) (fun I => vregs I.ty d)
    (fun I l => ((vregs I.ty d).zip (vregs I.ty a)).map fun p => .vreg I.k p.1 l (I.v p.2 l)) s

/-- MOV in the vs form writes the decoded operand by R59 (R139). -/
def execMovVs (d : Nat) (b : SOp) (s : State) : Out :=
  lanewise (fun I => decide (I.ty < 0x18) && okReg I.ty d && opLegal b I.ty)
    (fun I => vregs I.ty d) (fun I => opRegsT b I.ty) (fun I => vregs I.ty d)
    (fun I l => vout I.k I.ty d l (I.sval I.ty l b)) s

/-- The byte that PRMT places (R140): byte n of b:a, or its sign spread. -/
def prmtByte (x sel k : Nat) : Nat :=
  let y := x / 2 ^ (8 * bits sel (4 * k + 2) (4 * k)) % 256
  if bit sel (4 * k + 3) then (if bit y 7 then 0xFF else 0) else y

/-- PRMT: the selector is the old v[D] (R140). -/
def prmt (d a : Nat) (b : Opnd) (s : State) : Out :=
  vecOp (· == 8) d a b (fun _ z x y => unelem 8 ((span 0 4).map (prmtByte (x + 2 ^ 32 * y) z))) s
def execPrmtVv (d a b : Nat) (s : State) : Out := prmt d a (.v b) s
def execPrmtVs (d a : Nat) (b : SOp) (s : State) : Out := prmt d a (.s b) s

/-- SEL on the old v[D] (R141). -/
def sel (d a : Nat) (b : Opnd) (s : State) : Out :=
  vecOp isB d a b (fun _ z x y => if z ≠ 0 then x else y) s
def execSelVv (d a b : Nat) (s : State) : Out := sel d a (.v b) s
def execSelVs (d a : Nat) (b : SOp) (s : State) : Out := sel d a (.s b) s

/-- CMP's relation of two sources, element by element (R141). -/
def cmpResult (ty x y : Nat) : Nat :=
  byElem ty fun h => cmpBits (ielem ty x h) (ielem ty y h)

/-- CMP writes the relation zero-extended, to the even register of a pair (R141). -/
def cmpOp (d a : Nat) (b : Opnd) (s : State) : Out :=
  lanewise (fun I => okIP I.ty && okReg I.ty d && okReg I.ty a && b.legal I.ty)
    (fun I => vregs I.ty d ++ vregs I.ty a ++ b.vs I.ty) (fun I => b.ss I.ty) (fun I => vregs I.ty d)
    (fun I l =>
      .vreg I.k d l (word (cmpResult I.ty (I.vsrc I.ty a l) (I.opnd I.ty l b)))
        :: (if is64 I.ty then [.vreg I.k (d + 1) l 0] else [])) s
def execCmpVv (d a b : Nat) (s : State) : Out := cmpOp d a (.v b) s
def execCmpVs (d a : Nat) (b : SOp) (s : State) : Out := cmpOp d a (.s b) s

/-- Whether the register a B field names is even under a 64-bit TYPE (R67, R160). -/
def Opnd.evenUnder (x : Opnd) (ty : Nat) : Bool :=
  match x with
  | .v r => okReg ty r
  | .s (.reg n) => okReg ty n
  | .s _ => true

/-- A conversion whose target type t stands in a register or a scalar operand (R142, R167): the lanes' target
types, with the faults of a type outside those admitted, an odd D under a 64-bit target, and a D beyond the
budget. `dec` reads t from the raw B value of a lane. -/
def convert (okSrc : Nat → Bool) (okDst : Nat → Bool) (dec : Nat → Nat) (d a : Nat) (b : Opnd) (bty : Nat → Nat)
    (rounds : Bool) (conv : Issue → Nat → Nat → Nat → Nat) (pre : Issue → List Effect) (s : State) : Out :=
  issue (fun I =>
      { cls := .e
        legal := okSrc I.ty && okReg I.ty a && b.legal (bty I.ty) && b.evenUnder I.ty && (!rounds || decide (I.rnd < 6))
        vs := d :: vregs I.ty a ++ b.vs (bty I.ty), ss := b.ss (bty I.ty)
        dst := if I.act.any (fun l => is64 (dec (I.opnd (bty I.ty) l b))) then [d, d + 1] else [d] })
    (fun I =>
      let t := fun l => dec (I.opnd (bty I.ty) l b)
      let uniform := match b with | .s .laneid => false | .s _ => true | .v _ => false
      if uniform && !okDst (t 0) then .error { code := 0x01 }
      else match I.act.filter fun l => !okDst (t l) || (is64 (t l) && d % 2 == 1) with
        | l :: ls => .error { code := 0x01, lmask := maskOf (l :: ls) }
        | [] =>
          match I.act.filter fun l => is64 (t l) && decide (I.c.vbudget ≤ d + 1) with
          | l :: ls => .error { code := 0x04, lmask := maskOf (l :: ls) }
          | [] => .ok (pre I ++ I.act.flatMap fun l => vout I.k (t l) d l (conv I l (I.vsrc I.ty a l) (t l)), .next)) s

/-- CVTI narrows an integer to another integer type (R142). -/
def cvti (dec : Nat → Nat) (bty : Nat → Nat) (d a : Nat) (b : Opnd) (s : State) : Out :=
  convert isI isI dec d a b bty false
    (fun I _ x t =>
      match intType t with
      | some p => fitInt p.1 p.2 I.sat (ielem I.ty x 0)
      | none => 0) (fun _ => []) s
def execCvtiVv (d a b : Nat) (s : State) : Out := cvti (· % 8) (fun _ => tyB32) d a (.v b) s
def execCvtiVs (d a : Nat) (b : SOp) (s : State) : Out := cvti id id d a (.s b) s

end Sys2Proof.Machine
end

