-- ==== Sys2Proof/Machine/FloatOps.lean ====
section
/-! DEFINITION. Floating-point arithmetic, comparisons, conversions and packing (07 R156 to R170). -/
namespace Sys2Proof.Machine

/-- The type group F of the arithmetic entries (07). -/
def isF (ty : Nat) : Bool := admitsF ty

/-- The four unpacked float types of the conversions (R167). -/
def isF4 (ty : Nat) : Bool := decide (0x0A ≤ ty) && decide (ty ≤ 0x0D)

/-- The ten types FCVT admits (R167). -/
def isCvt (ty : Nat) : Bool := decide (0x0A ≤ ty) && decide (ty ≤ 0x13)

/-- The float format of a type of F. -/
def fmtF (ty : Nat) : Fmt := (fmtOf ty).getD fmtF32

/-- The LFSR state a rounding word draws on: stepped once under rs (R84). -/
def Issue.drawState (I : Issue) : Word := lfsrStep I.w.lfsr

/-- The stochastic draw of element h of lane l (R84). -/
def Issue.draw (I : Issue) (l h : Nat) : Nat := lfsrDraw I.drawState l h

/-- The step of the LFSR by a rounding word under rs (R84). -/
def Issue.stepLfsr (I : Issue) : List Effect := if I.rnd = rnStoch then [.lfsr I.k I.drawState] else []

/-- round of R83 in a format under the mode. -/
def Issue.round (I : Issue) (f : Fmt) (l h : Nat) (x : Val) : Nat := f.round I.rnd I.sat I.fz (I.draw l h) x

/-- narrow of R85 into a type under the mode. -/
def Issue.narrow (I : Issue) (ty l h : Nat) (x : Val) : Nat := narrowTo ty I.rnd I.sat I.fz (I.draw l h) x

/-- Element h of a source under the float TYPE, flushed under FZ (R158). -/
def Issue.fval (I : Issue) (x h : Nat) : Val := (fmtF I.ty).read I.fz (elem I.ty x h)

/-- Whether an integer operand is legal: decoded as under b32, its register even under a 64-bit TYPE (R160). -/
def Opnd.intLegal (x : Opnd) (ty : Nat) : Bool := x.legal tyB32 && x.evenUnder ty

/-- A lane-wise word on float elements: `float` says that B is a float operand, `rounds` that it rounds;
`f` gives the result from the raw d, a and b of a lane. -/
def floatOp (ok : Nat → Bool) (float rounds : Bool) (d a : Nat) (b : Opnd)
    (f : Issue → Nat → Nat → Nat → Nat → Nat) (s : State) : Out :=
  issue (fun I =>
      let bt := if float then I.ty else tyB32
      { cls := .e
        legal := ok I.ty && okReg I.ty d && okReg I.ty a && b.legal bt && b.evenUnder I.ty
          && (!rounds || decide (I.rnd < 6))
        vs := vregs I.ty d ++ vregs I.ty a ++ b.vs bt, ss := b.ss bt, dst := vregs I.ty d })
    (fun I =>
      .ok ((if rounds then I.stepLfsr else []) ++ I.act.flatMap fun l =>
        vout I.k I.ty d l (f I l (I.vsrc I.ty d l) (I.vsrc I.ty a l)
          (I.opnd (if float then I.ty else tyB32) l b)), .next)) s

/-- An arithmetic word of R161: each element rounded once from its exact value. -/
def farith (d a : Nat) (b : Opnd) (f : Bool → Val → Val → Val → Val) (s : State) : Out :=
  floatOp isF true true d a b (fun I l z x y =>
    byElem I.ty fun h =>
      I.round (fmtF I.ty) l h (f (I.rnd == rnDown) (I.fval x h) (I.fval y h) (I.fval z h))) s

/-- The exact a × b + d, NaN for 0 × ∞ whatever d (R161). -/
def fmaVal (down : Bool) (a b d : Val) : Val := Val.add down (Val.mul a b) d

def execFaddVv (d a b : Nat) (s : State) : Out := farith d a (.v b) (fun r x y _ => Val.add r x y) s
def execFaddVs (d a : Nat) (b : SOp) (s : State) : Out := farith d a (.s b) (fun r x y _ => Val.add r x y) s
def execFsubVv (d a b : Nat) (s : State) : Out := farith d a (.v b) (fun r x y _ => Val.add r x y.neg) s
def execFsubVs (d a : Nat) (b : SOp) (s : State) : Out := farith d a (.s b) (fun r x y _ => Val.add r x y.neg) s
def execFmulVv (d a b : Nat) (s : State) : Out := farith d a (.v b) (fun _ x y _ => Val.mul x y) s
def execFmulVs (d a : Nat) (b : SOp) (s : State) : Out := farith d a (.s b) (fun _ x y _ => Val.mul x y) s
def execFfmaVv (d a b : Nat) (s : State) : Out := farith d a (.v b) (fun r x y z => fmaVal r x y z) s
def execFfmaVs (d a : Nat) (b : SOp) (s : State) : Out := farith d a (.s b) (fun r x y z => fmaVal r x y z) s

/-- The selection of R162 on flushed patterns: `num` for the number forms, `greater` for the maxima. -/
def fselect (f : Fmt) (num greater : Bool) (x y : Nat) : Nat :=
  match f.value x, f.value y with
  | .nan, .nan => f.nanBits
  | .nan, _ => if num then y else f.nanBits
  | _, .nan => if num then x else f.nanBits
  | a, b => if Val.lt a b == greater then y else x

/-- A minimum or maximum (R162): the flushed operands, never rounded. -/
def fminmax (num greater : Bool) (d a : Nat) (b : Opnd) (s : State) : Out :=
  floatOp isF true false d a b (fun I _ _ x y =>
    byElem I.ty fun h =>
      let f := fmtF I.ty
      fselect f num greater (f.flush I.fz (elem I.ty x h)) (f.flush I.fz (elem I.ty y h))) s

def execFminVv (d a b : Nat) (s : State) : Out := fminmax false false d a (.v b) s
def execFminVs (d a : Nat) (b : SOp) (s : State) : Out := fminmax false false d a (.s b) s
def execFmaxVv (d a b : Nat) (s : State) : Out := fminmax false true d a (.v b) s
def execFmaxVs (d a : Nat) (b : SOp) (s : State) : Out := fminmax false true d a (.s b) s
def execFminnmVv (d a b : Nat) (s : State) : Out := fminmax true false d a (.v b) s
def execFminnmVs (d a : Nat) (b : SOp) (s : State) : Out := fminmax true false d a (.s b) s
def execFmaxnmVv (d a b : Nat) (s : State) : Out := fminmax true true d a (.v b) s
def execFmaxnmVs (d a : Nat) (b : SOp) (s : State) : Out := fminmax true true d a (.s b) s

/-- FCMP (R163). -/
def fcmp (d a : Nat) (b : Opnd) (s : State) : Out :=
  floatOp isF true false d a b (fun I _ _ x y => byElem I.ty fun h => fcmpBits (I.fval x h) (I.fval y h)) s
def execFcmpVv (d a b : Nat) (s : State) : Out := fcmp d a (.v b) s
def execFcmpVs (d a : Nat) (b : SOp) (s : State) : Out := fcmp d a (.s b) s

/-- FCLASS (R164): the operand as its bits stand. -/
def fclass (d a : Nat) (b : Opnd) (s : State) : Out :=
  floatOp isF false false d a b (fun I _ _ x y =>
    byElem I.ty fun h => (fmtF I.ty).classOf (elem I.ty x h) &&& (y % 1024)) s
def execFclassVv (d a b : Nat) (s : State) : Out := fclass d a (.v b) s
def execFclassVs (d a : Nat) (b : SOp) (s : State) : Out := fclass d a (.s b) s

/-- A value times 2^n (R165). -/
def Val.scale (n : Int) : Val → Val
  | .fin neg num den => if num = 0 then .fin neg 0 1 else let v := scale2 num den n; .fin neg v.1 v.2
  | x => x

/-- The value scaled so that rounding it says the same of every n at or beyond the bounds (R165): no format
reaches past 2^1024 or below 2^(-1074), so a count past ±4000 acts as ±4000. -/
def clampScale (n : Int) : Int := max (-4000) (min n 4000)

/-- FSCALE (R165). -/
def fscale (d a : Nat) (b : Opnd) (s : State) : Out :=
  floatOp isF false true d a b (fun I l _ x y =>
    byElem I.ty fun h =>
      I.round (fmtF I.ty) l h ((I.fval x h).scale (clampScale (signed 32 y)))) s
def execFscaleVv (d a b : Nat) (s : State) : Out := fscale d a (.v b) s
def execFscaleVs (d a : Nat) (b : SOp) (s : State) : Out := fscale d a (.s b) s

/-- FGETX of one value at an integer width (R166). -/
def getx (w : Nat) : Val → Nat
  | .nan => 2 ^ (w - 1) - 1
  | .inf _ => 2 ^ (w - 1) - 1
  | .fin _ n d => if n = 0 then 2 ^ (w - 1) else pattern w (ilog2 n d)

/-- The width of FGETX's result under a type (R166). -/
def getxBits (ty : Nat) : Nat := if ty = 0x0D then 64 else if elems ty = 2 then 16 else 32

/-- A word of one operand, in A of the vv form or B of the vs form (R166). -/
def floatOne (rounds : Bool) (d : Nat) (a : Opnd) (f : Issue → Nat → Nat → Nat) (s : State) : Out :=
  issue (fun I =>
      { cls := .e
        legal := isF I.ty && okReg I.ty d && a.legal I.ty && (!rounds || decide (I.rnd < 6))
        vs := vregs I.ty d ++ a.vs I.ty, ss := a.ss I.ty, dst := vregs I.ty d })
    (fun I =>
      .ok ((if rounds then I.stepLfsr else []) ++ I.act.flatMap fun l =>
        let x := f I l (I.opnd I.ty l a)
        if is64 I.ty then [.vreg I.k d l (word x), .vreg I.k (d + 1) l (word (x / 2 ^ 32))]
        else [.vreg I.k d l (word x)], .next)) s

/-- FGETX (R166). -/
def fgetx (d : Nat) (a : Opnd) (s : State) : Out :=
  floatOne false d a (fun I _ x =>
    unelem (getxBits I.ty) ((span 0 (elems I.ty)).map fun h => getx (getxBits I.ty) (I.fval x h))) s
def execFgetxVv (d a : Nat) (s : State) : Out := fgetx d (.v a) s
def execFgetxVs (d : Nat) (b : SOp) (s : State) : Out := fgetx d (.s b) s

/-- A value rounded to an integer in its format, a zero result keeping the operand's sign (R166). -/
def frndVal (f : Fmt) (rnd : Nat) (fz : Bool) (rv : Nat) : Val → Nat
  | .fin neg n d => f.round rnZero false fz 0 (.fin neg (roundInt rnd rv neg n d) 1)
  | x => f.round rnZero false fz 0 x

/-- FRND (R166). -/
def frnd (d : Nat) (a : Opnd) (s : State) : Out :=
  floatOne true d a (fun I l x =>
    byElem I.ty fun h => frndVal (fmtF I.ty) I.rnd I.fz (I.draw l h) (I.fval x h)) s
def execFrndVv (d a : Nat) (s : State) : Out := frnd d (.v a) s
def execFrndVs (d : Nat) (b : SOp) (s : State) : Out := frnd d (.s b) s

/-- A float conversion: narrow of the operand's value into the type t (R167). -/
def fconvert (okSrc okDst : Nat → Bool) (d a : Nat) (b : Opnd) (s : State) : Out :=
  convert okSrc okDst id d a b (fun _ => tyB32) true
    (fun I l x t => I.narrow t l 0 (valOf I.ty I.fz x)) Issue.stepLfsr s
def execFtoiVv (d a b : Nat) (s : State) : Out := fconvert isF4 isI d a (.v b) s
def execFtoiVs (d a : Nat) (b : SOp) (s : State) : Out := fconvert isF4 isI d a (.s b) s
def execItofVv (d a b : Nat) (s : State) : Out := fconvert isI isF4 d a (.v b) s
def execItofVs (d a : Nat) (b : SOp) (s : State) : Out := fconvert isI isF4 d a (.s b) s
def execFcvtVv (d a b : Nat) (s : State) : Out := fconvert isCvt isCvt d a (.v b) s
def execFcvtVs (d a : Nat) (b : SOp) (s : State) : Out := fconvert isCvt isCvt d a (.s b) s

/-- The types FPACK admits (R168). -/
def okPack (ty : Nat) : Bool := ty == 0x14 || ty == 0x15 || ty == 0x0E || ty == 0x0F || ty == 0x12

/-- FPACK's result from the old d and the narrowed a and b (R168). -/
def packResult (ty z x y : Nat) : Nat :=
  if elems ty = 2 then x + 2 ^ 16 * y
  else if ty = 0x12 then x + 2 ^ 4 * y + 2 ^ 8 * (z % 2 ^ 24)
  else x + 2 ^ 8 * y + 2 ^ 16 * (z % 2 ^ 16)

/-- FPACK: a and b read as f32 (R168). -/
def fpack (d a : Nat) (b : Opnd) (s : State) : Out :=
  issue (fun I =>
      { cls := .e, legal := okPack I.ty && b.legal tyF32 && decide (I.rnd < 6)
        vs := [d, a] ++ b.vs tyF32, ss := b.ss tyF32, dst := [d] })
    (fun I =>
      .ok (I.stepLfsr ++ I.act.map fun l =>
        let nar := fun x h => I.narrow (elemType I.ty) l h (fmtF32.read I.fz x)
        .vreg I.k d l (word (packResult I.ty (I.v d l).toNat (nar (I.v a l).toNat 0)
          (nar (I.opnd tyF32 l b) 1))), .next)) s
def execFpackVv (d a b : Nat) (s : State) : Out := fpack d a (.v b) s
def execFpackVs (d a : Nat) (b : SOp) (s : State) : Out := fpack d a (.s b) s

/-- The types FUNPACK admits (R169). -/
def okUnpack (ty : Nat) : Bool := ty == 0x14 || ty == 0x15 || (decide (0x0E ≤ ty) && decide (ty ≤ 0x13))

/-- The element FUNPACK takes (R169). -/
def unpackElem (ty x k : Nat) : Nat :=
  let w := elemBits ty
  let n := if elems ty = 2 then k % 2 else if w = 4 then k % 8 else k % 4
  x / 2 ^ (w * n) % 2 ^ w

/-- The exact f32 of an element; under FZ a subnormal element is a zero of its sign, and e8m0 0x00 is +0
(R169). -/
def widen32 (ty : Nat) (fz : Bool) (x : Nat) : Nat :=
  if fz && ty = 0x13 && x = 0 then 0 else fmtF32.round rnNearest false false 0 (valOf (elemType ty) fz x)

/-- FUNPACK (R169). -/
def funpack (d a : Nat) (b : Opnd) (s : State) : Out :=
  lanewise (fun I => okUnpack I.ty && b.legal tyB32) (fun _ => [d, a] ++ b.vs tyB32) (fun _ => b.ss tyB32)
    (fun _ => [d])
    (fun I l => [.vreg I.k d l (word (widen32 I.ty I.fz (unpackElem I.ty (I.v a l).toNat (I.opnd tyB32 l b))))]) s
def execFunpackVv (d a b : Nat) (s : State) : Out := funpack d a (.v b) s
def execFunpackVs (d a : Nat) (b : SOp) (s : State) : Out := funpack d a (.s b) s

/-- FDOT2: two products and the f32 accumulator, one rounding (R170). -/
def fdot2 (d a : Nat) (b : Opnd) (s : State) : Out :=
  issue (fun I =>
      { cls := .e, legal := (I.ty == 0x14 || I.ty == 0x15) && b.legal I.ty && decide (I.rnd < 6)
        vs := [d, a] ++ b.vs I.ty, ss := b.ss I.ty, dst := [d] })
    (fun I =>
      .ok (I.stepLfsr ++ I.act.map fun l =>
        let x := I.vsrc I.ty a l
        let y := I.opnd I.ty l b
        .vreg I.k d l (word (I.round fmtF32 l 0 (Val.sum (I.rnd == rnDown)
          [fmtF32.read I.fz (I.v d l).toNat, Val.mul (I.fval x 0) (I.fval y 0),
           Val.mul (I.fval x 1) (I.fval y 1)]))), .next)) s
def execFdot2Vv (d a b : Nat) (s : State) : Out := fdot2 d a (.v b) s
def execFdot2Vs (d a : Nat) (b : SOp) (s : State) : Out := fdot2 d a (.s b) s

end Sys2Proof.Machine
end

