-- ==== Sys2Proof/Machine/Sfu.lean ====
section
/-! DEFINITION. The special functions (07 R171 to R173): the exact values of R173, and elsewhere a fixed free
choice among the f32 values within the bound of R172. Exact results are approximated by rationals with errors
far below a unit in the last place. -/
namespace Sys2Proof.Machine

/-- The fixed point of the approximations: 128 fraction bits. -/
def fx : Nat := 2 ^ 128

/-- π and ln 2 in fixed point. -/
def piFx : Nat := 1069028584064966747859680373161870783300
def ln2Fx : Nat := 235865763225513294137944142764154484399

/-- The exponential series from term k on: y is the argument and t the current term, in fixed point. -/
def expGo : Nat → Nat → Nat → Nat → Nat
  | 0, _, _, _ => 0
  | n + 1, k, t, y => t + expGo n (k + 1) (t * y / fx / (k + 1)) y

/-- e^y in fixed point, for y from 0 to 20. -/
def expFx (y : Nat) : Nat := expGo 130 0 fx y

/-- The alternating series whose term k has the divisor (2k + a)(2k + a + 1): y2 is the square of the
argument. -/
def altGo : Nat → Nat → Nat → Nat → Int
  | 0, _, _, _ => 0
  | n + 1, a, t, y2 => (t : Int) - altGo n (a + 2) (t * y2 / fx / (a * (a + 1))) y2

/-- The square root of a natural number, rounded down, found bit by bit from bit n. -/
def isqrtGo : Nat → Nat → Nat → Nat
  | 0, _, r => r
  | n + 1, x, r =>
    let c := r + 2 ^ n
    isqrtGo n x (if c * c ≤ x then c else r)
def isqrt (x : Nat) : Nat := isqrtGo (x.log2 / 2 + 1) x 0

/-- Bits of the binary logarithm of m / 2^256, m / 2^256 in [1, 2), by repeated squaring. -/
def logGo : Nat → Nat → Nat → Nat
  | 0, _, acc => acc
  | n + 1, m, acc =>
    let q := m * m / 2 ^ 256
    if q ≥ 2 ^ 257 then logGo n (q / 2) (2 * acc + 1) else logGo n q (2 * acc)

/-- sin(π t) for 0 ≤ t = n / d ≤ 1/2, as a rational. -/
def sinRat (n d : Nat) : Nat × Nat :=
  let y := piFx * n / d
  (piFx * n * (altGo 40 2 fx (y * y / fx)).toNat, d * fx * fx)

/-- cos(π t) for 0 < t = n / d ≤ 1/2, as a rational: by sine above 1/4. A value within 2^-48 of 1 stands for every one there:
it lies below 1, where the unit in the last place is half as large as above. -/
def cosRat (n d : Nat) : Nat × Nat :=
  if 4 * n ≤ d then
    let y := piFx * n / d
    (min (altGo 40 1 fx (y * y / fx)).toNat (fx - 2 ^ 80), fx)
  else sinRat (d - 2 * n) (2 * d)

/-- The integer nearest n / d, and the distance to it. -/
def nearInt (n d : Nat) : Nat × Nat :=
  let q := (2 * n + d) / (2 * d)
  (q, if n ≥ q * d then n - q * d else q * d - n)

/-- An exact or approximated result: a pattern that R173 fixes, or a sign, a rational and R172's bound in
units of the last place. -/
inductive Sfu where
  | exact (x : Nat)
  | near (neg : Bool) (num den : Nat) (ulps : Nat)
  deriving DecidableEq, Repr

/-- f32 patterns: the canonical NaN, infinities, and an exact value. -/
def nan32 : Nat := 0x7FC00000
def inf32 (neg : Bool) : Nat := if neg then 0xFF800000 else 0x7F800000
def f32Of (neg : Bool) (num den : Nat) : Nat := fmtF32.round rnNearest false false 0 (.fin neg num den)
def one32 (neg : Bool) : Nat := if neg then 0xBF800000 else 0x3F800000
def zero32 (neg : Bool) : Nat := if neg then 0x80000000 else 0

/-- Whether n / d, n not 0, is a power of two. -/
def isPow2 (n d : Nat) : Bool := n.log2 == (2 * n - 1).log2 && d.log2 == (2 * d - 1).log2

/-- RCP. -/
def rcpOf : Val → Sfu
  | .nan => .exact nan32
  | .inf g => .exact (zero32 g)
  | .fin g n d =>
    if n = 0 || n * 2 ^ 128 ≤ d then .exact (inf32 g)
    else if isPow2 n d then .exact (f32Of g d n)
    else .near g d n 1

/-- A rational square root of n / d with 160 bits after the binary point of a quotient near 1. -/
def sqrtRat (n d : Nat) : Nat × Nat :=
  let sh := 160 + 2 * d.log2
  (isqrt (n * 2 ^ (2 * sh) / d), 2 ^ sh)

/-- RSQ. -/
def rsqOf : Val → Sfu
  | .nan => .exact nan32
  | .inf g => .exact (if g then nan32 else 0)
  | .fin g n d =>
    if n = 0 then .exact (inf32 g)
    else if g then .exact nan32
    else
      let q := sqrtRat d n
      if q.1 * q.1 * n = d * q.2 * q.2 && isPow2 n d then .exact (f32Of false q.1 q.2)
      else .near false q.1 q.2 2

/-- SQRT. -/
def sqrtOf : Val → Sfu
  | .nan => .exact nan32
  | .inf g => .exact (if g then nan32 else inf32 false)
  | .fin g n d =>
    if n = 0 then .exact (zero32 g)
    else if g then .exact nan32
    else
      let q := sqrtRat n d
      let p := f32Of false q.1 q.2
      match val32 p with
      | .fin _ a b => if a * a * d = n * b * b then .exact p else .near false q.1 q.2 1
      | _ => .near false q.1 q.2 1

/-- 2^(n / d) for a negative or positive argument, as a rational. For an argument below 2^-40 a value as near to 1, on its
side of it, stands for the result. -/
def exp2Rat (g : Bool) (n d : Nat) : Nat × Nat :=
  if n * 2 ^ 40 < d then (if g then 2 ^ 48 - 1 else 2 ^ 48 + 1, 2 ^ 48) else
  let e : Int := if g then -((n + d - 1) / d : Nat) else (n / d : Nat)
  let r := if g then (n + d - 1) / d * d - n else n % d
  scale2 (expFx (ln2Fx * r / d)) fx e

/-- EXP2. -/
def exp2Of : Val → Sfu
  | .nan => .exact nan32
  | .inf g => .exact (if g then 0 else inf32 false)
  | .fin g n d =>
    if n = 0 then .exact (one32 false)
    else if !g && 128 * d ≤ n then .exact (inf32 false)
    else if g && 150 * d ≤ n then .exact 0
    else if n % d = 0 then let v := scale2 1 1 (toInt g (n / d)); .exact (f32Of false v.1 v.2)
    else let v := exp2Rat g n d; .near false v.1 v.2 2

/-- LOG2: a subnormal operand has the wider bound. -/
def log2Of (sub : Bool) : Val → Sfu
  | .nan => .exact nan32
  | .inf g => .exact (if g then nan32 else inf32 false)
  | .fin g n d =>
    if n = 0 then .exact (inf32 true)
    else if g then .exact nan32
    else
      let e := ilog2 n d
      if isPow2 n d then .exact (f32Of (decide (e < 0)) e.natAbs 1)
      else
        let m := scale2 (n * 2 ^ 256) d (-e)
        let x : Int := e * 2 ^ 110 + logGo 110 (m.1 / m.2) 0
        .near (decide (x < 0)) x.natAbs (2 ^ 110) (if sub then 3 else 2)

/-- SINPI. -/
def sinpiOf : Val → Sfu
  | .nan => .exact nan32
  | .inf _ => .exact nan32
  | .fin g n d =>
    if n % d = 0 then .exact (zero32 g)
    else if 2 * n % d = 0 then .exact (one32 (g != (n / d % 2 == 1)))
    else
      let q := nearInt n d
      let v := sinRat q.2 d
      .near (g != ((q.1 % 2 == 1) != decide (n < q.1 * d))) v.1 v.2 2

/-- COSPI. -/
def cospiOf : Val → Sfu
  | .nan => .exact nan32
  | .inf _ => .exact nan32
  | .fin _ n d =>
    if n % d = 0 then .exact (one32 (n / d % 2 == 1))
    else if 2 * n % d = 0 then .exact 0
    else
      let q := nearInt n d
      let v := cosRat q.2 d
      .near (q.1 % 2 == 1) v.1 v.2 2

/-- TANH. -/
def tanhOf : Val → Sfu
  | .nan => .exact nan32
  | .inf g => .exact (one32 g)
  | .fin g n d =>
    if n * 4096 < d then .exact (f32Of g n d)
    else if 10 * d ≤ n then .exact (one32 g)
    else
      let e := expFx (2 * fx * n / d)
      .near g (e - fx) (e + fx) 2

/-- The special function of an opcode on an f32 value. -/
def sfuOf (op : Nat) (sub : Bool) (x : Val) : Sfu :=
  match op with
  | 0xA8 => rcpOf x
  | 0xA9 => rsqOf x
  | 0xAA => sqrtOf x
  | 0xAB => exp2Of x
  | 0xAC => log2Of sub x
  | 0xAD => sinpiOf x
  | 0xAE => cospiOf x
  | _ => tanhOf x

/-- Whether an f32 magnitude pattern lies within some units of the last place of num / den, the unit being that
of the f32 grid at num / den (R172). The approximation's own error, below 2^-62 of a unit, is allowed for by 2^-60:
an f32 pattern that misses the bound of RCP, RSQ or SQRT misses it by more. -/
def withinUlps (p num den ulps : Nat) : Bool :=
  match fmtF32.value p with
  | .fin _ a b =>
    let u := scale2 1 1 (max (ilog2 num den) (-126) - 23)
    decide ((toInt false (a * den) - toInt false (num * b)).natAbs * u.2 * 2 ^ 60
      ≤ (ulps * 2 ^ 60 + 1) * u.1 * b * den)
  | _ => false

/-- The result of a special function on an f32 pattern (R171): a fixed function of the pattern and FZ. Where
R173 fixes no value it is a free one of those within the bound. -/
def sfuResult (op : Nat) (fz : Bool) (x : Nat) : Nat :=
  let p :=
    match sfuOf op (fmtF32.subnormal x) (fmtF32.read fz x) with
    | .exact y => y
    | .near neg num den ulps =>
      let base := fmtF32.round rnZero false false 0 (.fin false num den)
      -- below a power of two the grid is half as fine, so twice as many patterns lie within the bound there
      let l := (span (base - (2 * ulps + 1)) (3 * ulps + 3)).filter fun y => withinUlps y num den ulps
      zero32 neg + l.getD ((Config.sfuBits op (word x) fz).toNat % max l.length 1) base
  fmtF32.flush fz p

/-- A special-function word (R171): f32 only, bound to SETA. -/
def sfu (op d a : Nat) (s : State) : Out :=
  issue (fun I => { cls := .e, legal := I.ty == tyF32, vs := [d, a], dst := [d] })
    (fun I =>
      .ok (bindOp I.s I.k I.sl I.seta
        (I.act.map fun l => .v d l (word (sfuResult op I.fz (I.v a l).toNat))) [] false, .next)) s

def execRcp (d a : Nat) (s : State) : Out := sfu 0xA8 d a s
def execRsq (d a : Nat) (s : State) : Out := sfu 0xA9 d a s
def execSqrt (d a : Nat) (s : State) : Out := sfu 0xAA d a s
def execExp2 (d a : Nat) (s : State) : Out := sfu 0xAB d a s
def execLog2 (d a : Nat) (s : State) : Out := sfu 0xAC d a s
def execSinpi (d a : Nat) (s : State) : Out := sfu 0xAD d a s
def execCospi (d a : Nat) (s : State) : Out := sfu 0xAE d a s
def execTanh (d a : Nat) (s : State) : Out := sfu 0xAF d a s

end Sys2Proof.Machine
end

