-- ==== Sys2Proof/Machine/Exchange.lean ====
section
/-! DEFINITION. Lane exchange: shuffles, VOTE, BALLOT, REDLANE and XSWAP (06 R143 to R150). -/
namespace Sys2Proof.Machine

/-- A lane's source under R143: the pair or the whole register, and 0 in a never-launched lane. -/
def Issue.swapSrc (I : Issue) (ty r l : Nat) : Nat :=
  if !I.c.launched.getLsbD l then 0
  else if is64 ty then (I.vpair r l).toNat else (I.v r l).toNat

/-- A moved value as writes: a pair or the whole register (R143). -/
def swapOut (ty d l x : Nat) : List RegWrite :=
  if is64 ty then [.v d l (word x), .v (d + 1) l (word (x / 2 ^ 32))] else [.v d l (word x)]

/-- A moved value of a lane j of another slice that does not issue: its slice may write it while it moves (R143). -/
def movedOut (ty d l a j x : Nat) : List RegWrite :=
  if is64 ty then [.moved d l a j (word x), .moved (d + 1) l (a + 1) j (word (x / 2 ^ 32))] else [.moved d l a j (word x)]

/-- The writes of an exchange: bound to SETA when a lane reads a lane of another slice, else made at once
(R73). -/
def Issue.exchange (I : Issue) (across : Bool) (ws : List RegWrite) : List Effect :=
  if across then bindOp I.s I.k I.sl I.seta ws [] false else ws.map (regEffect I.s I.k)

/-- A scalar operand of an exchange (R145, R147): a register code gives the register's 32 bits under every type, of a pair
the even one; any other code its typed value as `f` gives it (log entry 59). -/
def Issue.whole (I : Issue) (ty l : Nat) (f : Nat → Nat) : SOp → Nat
  | .reg n => (I.rs n).toNat
  | b => f (I.sval ty l b)

/-- A shuffle (R143 to R145): `src` gives lane i's source and whether it lies in the segment; `bad` marks a
segment code that R145 refuses. Code 0xFE is the typed lane index like any vs-form operand's (log entry 59). -/
def shuffle (d a : Nat) (b : Opnd) (bty : Nat → Nat) (bad : Nat → Bool) (src : Nat → Nat → Nat × Bool) (s : State) :
    Out :=
  issue (fun I =>
      { cls := .e
        legal := decide (I.ty < 0x18) && okReg I.ty d && okReg I.ty a && b.legal (bty I.ty)
        vs := vregs I.ty d ++ vregs I.ty a ++ b.vs (bty I.ty), ss := b.ss (bty I.ty), dst := vregs I.ty d })
    (fun I =>
      let y := fun l => match b with | .v r => (I.v r l).toNat | .s x => I.whole (bty I.ty) l id x % 2 ^ 32
      let uniform := match b with | .s .laneid => false | .s _ => true | .v _ => false
      if uniform && bad (y 0) then .error { code := 0x01 }
      else match I.act.filter fun l => bad (y l) with
        | l :: ls => .error { code := 0x01, lmask := maskOf (l :: ls) }
        | [] =>
          let at_ := fun l => src l (y l)
          let from_ := fun l => if (at_ l).2 then (at_ l).1 else l
          let ws := I.act.flatMap fun l =>
            let x := I.swapSrc I.ty a (from_ l)
            if bit I.lanes (from_ l) || !I.c.launched.getLsbD (from_ l) then swapOut I.ty d l x
            else movedOut I.ty d l a (from_ l) x
          let mark := maskOf (I.act.filter fun l => (at_ l).2 && I.c.launched.getLsbD (at_ l).1)
          .ok (I.exchange (I.act.any fun l => (at_ l).2 && (at_ l).1 / 4 != l / 4)
            (ws ++ (if I.sat then [.m 13 (word I.lanes) (word mark)] else [])), .next)) s

def execShfl (d a b : Nat) (s : State) : Out :=
  shuffle d a (.v b) (fun _ => tyB32) (fun _ => false) (fun _ y => (y % 32, true)) s

/-- Whether a segment code is refused, the segment width, and whether two lanes share a segment (R145). -/
def badSegment (y : Nat) : Bool := decide (bits y 10 8 ≥ 6)
def segment (y l : Nat) : Nat := l / (32 / 2 ^ bits y 10 8)

def execShflup (d a : Nat) (b : SOp) (s : State) : Out :=
  shuffle d a (.s b) id badSegment
    (fun l y => (l - y % 32, decide (y % 32 ≤ l) && segment y (l - y % 32) == segment y l)) s
def execShfldn (d a : Nat) (b : SOp) (s : State) : Out :=
  shuffle d a (.s b) id badSegment
    (fun l y => ((l + y % 32) % 32, decide (l + y % 32 < 32) && segment y (l + y % 32) == segment y l)) s
def execShflx (d a : Nat) (b : SOp) (s : State) : Out :=
  shuffle d a (.s b) id (fun _ => false) (fun l y => (l ^^^ (y % 32), true)) s

/-- VOTE (R146): kind 0 any, 1 all, 2 eq. -/
def execVote (d a kind : Nat) (s : State) : Out :=
  issue (fun _ => { cls := .e, ss := [d] })
    (fun I =>
      let ts := I.act.map fun l => (I.m a).getLsbD l
      let r := match kind with
        | 0 => ts.any id
        | 1 => ts.all id
        | _ => ts.all id || ts.all not
      .ok ([.sreg I.k d (if r then 1 else 0)], .next)) s

/-- BALLOT (R147): a mask write that leaves the lanes that are not issuing. -/
def execBallot (d a : Nat) (b : SOp) (s : State) : Out :=
  issue (fun I =>
      { cls := .e, legal := decide (I.ty < 0x18) && okReg I.ty a && opLegal b I.ty, vs := vregs I.ty a
        ss := opRegsT b I.ty })
    (fun I =>
      let hit := I.act.filter fun l =>
        if is64 I.ty then (I.vpair a l).toNat &&& I.sval I.ty l b ≠ 0
        else (I.v a l).toNat &&& (I.whole I.ty l (storeBits I.ty) b) ≠ 0
      let x := (I.w.readM d &&& ~~~ word I.lanes) ||| word (maskOf hit)
      .ok ((if d < 14 then [Effect.mask I.k d x] else []) ++ I.recall d x, .next)) s

/-- The combination of two contributions of REDLANE (R148): 0 add, 1 min, 2 max, 3 and, 4 or, 5 xor. An
integer sum stays exact until it is written. -/
def redComb (I : Issue) (op : Nat) (x y : Int) : Int :=
  let f := fun (g : Nat → Nat → Nat) => ((g x.toNat y.toNat : Nat) : Int)
  if I.ty = tyF32 then
    match op with
    | 0 => f fun x y => I.round fmtF32 0 0 (Val.add (I.rnd == rnDown) (fmtF32.read I.fz x) (fmtF32.read I.fz y))
    | 1 => f fun x y => fselect fmtF32 false false (fmtF32.flush I.fz x) (fmtF32.flush I.fz y)
    | _ => f fun x y => fselect fmtF32 false true (fmtF32.flush I.fz x) (fmtF32.flush I.fz y)
  else match op with
    | 0 => x + y
    | 1 => min x y
    | 2 => max x y
    | 3 => f fun x y => x &&& y
    | 4 => f fun x y => x ||| y
    | _ => f fun x y => x ^^^ y

/-- One level of the tree of R148: neighbours combined, in pairs. -/
def redLevel (comb : Int → Int → Int) : List (Option Int) → List (Option Int)
  | x :: y :: t =>
    (match x, y with
      | some a, some b => some (comb a b)
      | some a, none => some a
      | none, z => z) :: redLevel comb t
  | l => l

/-- The value at the root of the tree of R148. -/
def redTree (comb : Int → Int → Int) (l : List (Option Int)) : Option Int :=
  ((redLevel comb (redLevel comb (redLevel comb (redLevel comb (redLevel comb l))))).headD none)

/-- The types REDLANE admits for an operation (R148). -/
def okRed (op ty : Nat) : Bool :=
  ty == tyI32 || ty == tyN32 || (if op < 3 then ty == tyF32 else ty == tyB32)

/-- REDLANE (R148). -/
def execRedlane (d a op : Nat) (s : State) : Out :=
  issue (fun I =>
      { cls := .e
        legal := okRed op I.ty && !(I.ty == tyF32 && (I.rnd == rnStoch || (op == 0 && decide (I.rnd ≥ 6))))
        vs := [d, a], dst := [d] })
    (fun I =>
      let arith := decide (op < 3) && I.ty == tyI32
      let val := fun l => let x := (I.v a l).toNat; if arith then signed 32 x else (x : Int)
      let root := redTree (redComb I op) ((span 0 32).map fun l =>
        if bit I.active l then some (val l) else none)
      let x := match root with
        | none => 0
        | some r => if op = 0 && I.ty ≠ tyF32 then fitInt 32 (I.ty == tyI32) I.sat r else pattern 32 r
      .ok (I.exchange (I.act.any fun l => l / 4 != lowest 32 I.active / 4)
        (I.act.map fun l => .v d l (word x)), .next)) s

/-- XSWAP (R149, R150): the partner is named by rank and warp number. -/
def execXswap (d a : Nat) (b : SOp) (s : State) : Out :=
  issue (fun I =>
      { cls := .e, helper := false
        legal := decide (I.ty < 0x18) && okReg I.ty d && okReg I.ty a && opLegal b I.ty
        vs := vregs I.ty d ++ vregs I.ty a, ss := opRegsT b I.ty, dst := vregs I.ty d })
    (fun I =>
      let y := I.sval I.ty I.lane b
      let warp := bits y 13 8
      if I.c.parted then .error { code := 0x01 }
      else match I.s.peer (blockOf I.k) (bits y 3 0) with
        | none => .error { code := 0x09 }
        | some p =>
          let partner := Config.warpsPerBlock * p + warp
          if warp ≥ 24 || !I.s.exists partner then .error { code := 0x09 }
          else if I.c.xswap.isSome then .ok ([], .wait .swap)
          else
            let vals := (span 0 32).map fun l => I.swapSrc I.ty a l
            if partner = I.k then
              .ok (bindOp I.s I.k I.sl I.seta
                (I.act.flatMap fun l => swapOut I.ty d l (vals.getD l 0)) [] false, .next)
            else
              let lo := vals.map fun x => word x
              let hi := if is64 I.ty then vals.map fun x => word (x / 2 ^ 32) else []
              .ok (chain I.s [
                fun s => [.ctl I.k { s.ctl I.k with
                  xswap := some { partner, d, lanes := I.active, pair := is64 I.ty, sent := lo ++ hi, op := s.ids } }],
                fun s => bindOp s I.k I.sl I.seta [] [] true], .next)) s

end Sys2Proof.Machine
end

