-- ==== Sys2Proof/Machine/MemAccess.lean ====
section
/-! DEFINITION. Loads, stores, prefetch, cache control, reservations and page-table writes (05 R106, 08 R187 to
R203, 10 R241 to R245). -/
namespace Sys2Proof.Machine

/-- Writes of a loaded or returned value of a type to a vector register in a lane, or, for lane 32, to a
scalar register or pair (R59). -/
def regOut (ty lane r x : Nat) : List RegWrite :=
  if lane < 32 then voutW ty r lane x
  else if is64 ty then [.s r (word x), .s (r + 1) (word (x / 2 ^ 32))] else [.s r (word x)]

/-- The bytes a load takes from a place: a management register by R13, else memory (R216). -/
def State.loadBytes (s : State) (k : Nat) (ps : List (Place × Nat)) : List Byte :=
  ps.flatMap fun p =>
    if p.1.mgmt then leBytes p.2 (s.mgmtRead (p.1.off - 0x7FF00000000) p.2) else s.readPlace k p.1 p.2

/-- The poison that a warp's load meets: that of memory with the warp's own queued stores in it (R190, R216). -/
def State.asSeen (s : State) (k : Nat) : State :=
  let l := (s.ctl k).storeQ.flatMap QStore.cure
  { s with
    poison := s.poison.filter fun q => !l.contains (none, q)
    shPoison := s.shPoison.filter fun p => !l.contains (some p.1, p.2) }

/-- The other chip and the address there that a lane's access names. -/
def LaneAccess.remote (x : LaneAccess) : Option (Nat × Nat) :=
  match x.pieces with
  | (p, _) :: _ => match p.sp with | .remote c => some (c, p.off) | _ => none
  | [] => none

/-- Whether a lane's access goes to host memory (R355). -/
def LaneAccess.host (x : LaneAccess) : Bool :=
  x.pieces.any fun p => p.1.sp == .phys && !p.1.mgmt && region p.1.off == .host

/-- The first place of a lane's access. -/
def LaneAccess.place (x : LaneAccess) : Place := (x.pieces.headD (⟨.phys, 0, 0, false, false⟩, 0)).1

/-- Whether an access must wait for a warp that is being saved (R177). -/
def State.waitsSave (s : State) (rows : List LaneAccess) : Bool :=
  rows.any fun x => x.pieces.any fun p => match p.1.sp with | .reg j => (s.ctl j).st == .parking | _ => false

/-- Whether the chip may send a request for a warp now: with its keys installed (R329, R424), no plane change (R333) and no
spent budget (R387). -/
def State.maySend (s : State) (k : Nat) : Bool :=
  s.vil.keys && !s.fab.changing && s.meterOk 1 (dieOf k) (s.blk (blockOf k)).ctx (s.blk (blockOf k)).path

/-- The name of the flag operation bound last. -/
def Ctl.lastOp (c : Ctl) : Nat := (c.flagOps.getLast?.map FlagOp.id).getD 0

/-- A flag operation changed. -/
def Ctl.onOp (c : Ctl) (id : Nat) (f : FlagOp → FlagOp) : Ctl :=
  { c with flagOps := c.flagOps.map fun o => if o.id = id then f o else o }

/-- A request to another chip that a flag operation awaits: JOIN rises and the warp is to park at the end of
its clause with cause 0 (R192, R240). -/
def askRemote (k sl waddr : Nat) (r : Req) (chip : Nat) (body : List Nat) (s : State) : List Effect :=
  let c := s.ctl k
  let op := c.lastOp
  sendReq s { r with op } chip body ++
    [.ctl k { (c.onOp op fun o => { o with waiting := o.waiting ++ [s.ids] }).onSlices sl (fun x =>
        let p := x.park.getD (0, waddr, [])
        { x with park := some (p.1, p.2.1, p.2.2 ++ [s.ids]) }) with
      join := c.join + 1 }]

/-- Whether the core of a context owns the line of an address of host memory in its L1 (R232). -/
def State.ownsLine (s : State) (k pa : Nat) : Bool := s.owned.contains (coreOf k, pa / 128)

/-- A request to host memory outstanding for a flag operation (R356); it takes its line from the other cores that own it. -/
def askHost (r : Req) (s : State) : List Effect :=
  [.owned (s.disowned r.pa 1 (some (coreOf r.k))), .fab { s.fab with reqs := s.fab.reqs ++ [{ r with
      id := s.ids, plane := 0xFE, op := (s.ctl r.k).lastOp, pa := s.chip * 2 ^ 43 + r.pa }] }, .ids 1]

/-- The rows in groups of one key, the groups in order of their first rows. -/
def groupRows {α : Type} (key : α → Nat) (rows : List α) : List (List α) :=
  (rows.map key).eraseDups.map fun x => rows.filter fun r => key r == x

/-- Lanes of a list of accesses as a mask: a scalar access stands for the lane it names. -/
def laneMask (rows : List LaneAccess) : Nat := maskOf (rows.map LaneAccess.lane)

/-- One part of a lane's load: its lane, address, place and size, and the register it writes. -/
structure LoadPart where
  lane : Nat
  ea : Nat
  place : Place
  n : Nat
  r : Nat
  deriving DecidableEq, Repr

/-- The parts of a lane's load to a register: one, or the two 4-byte accesses of an 8-byte stack access (R178). -/
def LaneAccess.parts (r : Nat) (x : LaneAccess) : List LoadPart :=
  x.pieces.mapIdx fun i p => ⟨x.lane, x.ea + 4 * i, p.1, p.2, r + i⟩

/-- The other chip that a part lies on. -/
def LoadPart.chip (p : LoadPart) : Option Nat := match p.place.sp with | .remote c => some c | _ => none

/-- Whether a part lies in host memory (R355). -/
def LoadPart.host (p : LoadPart) : Bool := p.place.sp == .phys && !p.place.mgmt && region p.place.off == .host

/-- The type of a part: its own, or for half of a 64-bit value 32 bits. -/
def LoadPart.ty (ty : Nat) (p : LoadPart) : Nat := if p.n < accessBytes ty then tyB32 else ty

/-- Where the parts of a request go in its reply (R192): registers of 32 bits for a 64-bit value. -/
def LoadPart.dest (scalar : Bool) (p : LoadPart) : List (Nat × Nat × Nat) :=
  let reg := if scalar then 32 else p.lane
  (reg, p.r, p.place.off % 256) :: (if p.n = 8 then [(reg, p.r + 1, p.place.off % 256 + 4)] else [])

/-- The bytes of the parts of one request. -/
def partBytes (g : List LoadPart) : Nat := (g.map LoadPart.n).foldl (· + ·) 0

/-- A load that passed its checks (R189, R190, R192): values are taken now and delivered when the flag
operation completes; lanes of one 256-byte block of another chip go in one request; a poisoned sector writes
no lane and defers uncorrectable-error. `scalar` says that register r is a scalar one. A register of the management range
is read once the warp's own stores to that range have acted (R13, R216). -/
def Issue.load (I : Issue) (ty r : Nat) (scalar : Bool) (rows : List LaneAccess) (es : List Effect)
    (after : State → List Effect) : List Effect × Flow :=
  let parts := rows.flatMap (LaneAccess.parts r)
  let far := parts.filter fun p => p.chip.isSome
  let near := parts.filter fun p => p.chip.isNone
  let regs := near.any fun p => p.place.mgmt
  let first := !far.isEmpty || regs
  if I.s.waitsSave rows || (first && !I.s.drainable I.k) || (!far.isEmpty && !I.s.maySend I.k) then ([], .again)
  else if regs && I.c.storeQ.any (fun q => q.sp == .phys && region q.off == .mgmt) then (drainAll I.s I.k, .again)
  else
    let bad := near.filter fun p => (I.s.asSeen I.k).placePoisoned p.place p.n
    let trap := bad.head?.map fun p =>
      (lowest 8 I.sl, I.fill false { code := 0x12, addr := p.ea, lmask := 2 ^ p.lane })
    let base : Req := { id := 0, k := I.k, sl := lowest 8 I.sl, kind := 0, pa := 0, size := 0, lanes := 0, plane := 0
                        op := 0, dest := [], ty := if is64 ty then tyB32 else ty, copy := 0, src := I.fill false { code := 0 } }
    let made := fun (g : List LoadPart) => { base with
      size := partBytes g, lanes := maskOf (g.map LoadPart.lane), eas := g.map fun (p : LoadPart) => (p.lane, p.ea) }
    let first_ := fun (g : List LoadPart) => ((g.map fun p => p.place.off).headD 0)
    (chain I.s (
      [fun _ => es,
       fun s => if first then drainAll s I.k else [],
       fun s =>
        let ws := if bad.isEmpty then near.flatMap fun p =>
            regOut (p.ty ty) (if scalar then 32 else p.lane) p.r (ofBytes (s.loadBytes I.k [(p.place, p.n)])) else []
        let c := s.ctl I.k
        [.ctl I.k { c with flagOps := c.flagOps ++
          [{ id := s.ids, flag := I.seta, slices := I.sl, writes := ws, trap, sup := c.priv }] }, .ids 1]] ++
      (groupRows (fun (p : LoadPart) => p.place.off / 128) (near.filter fun p => p.host && !I.s.ownsLine I.k p.place.off)).map
        (fun g => askHost { made g with pa := first_ g }) ++
      (groupRows (fun (p : LoadPart) => (p.chip.getD 0) * 2 ^ 40 + p.place.off / 256) far).map (fun g =>
        let chip := ((g.map fun p => p.chip.getD 0).headD 0)
        askRemote I.k I.sl ((far.map LoadPart.ea).headD 0)
          { made g with pa := chip * 2 ^ 43 + first_ g
                        dest := if bad.isEmpty then g.flatMap (LoadPart.dest scalar) else [] }
          chip (g.map fun p => p.place.off)) ++
      [after]), .next)

/-- The stores of an access, one for each piece of each lane, in lane order (R190). -/
def storeRows (I : Issue) (n : Nat) (data : Nat → Nat) (rows : List LaneAccess) : List QStore :=
  rows.flatMap fun x =>
    let bs := leBytes n (data x.lane)
    x.pieces.mapIdx fun i p =>
      { sp := p.1.sp, off := p.1.off, bytes := (bs.drop (4 * i)).take p.2, sl := x.lane / 4 % 8
        epoch := I.s.epochOf I.k, lane := x.lane
        src := I.fill false { code := 0, addr := x.ea, lmask := 2 ^ x.lane } }

/-- The bytes that stores write in one space. -/
def bytesIn (sp : Space) (qs : List QStore) : List Nat :=
  (qs.filter fun q => q.sp == sp).flatMap fun q => span q.off q.bytes.length

/-- The poisoned sectors that stores write whole together (R190). -/
def State.curedBy (s : State) (qs : List QStore) : List (Option Nat × Nat) :=
  ((s.poison.filter fun x => (span (32 * x) 32).all fun a => (bytesIn .phys qs).contains a).map fun x => (none, x)) ++
    ((s.shPoison.filter fun x => (span (32 * x.2) 32).all fun a => (bytesIn (.shared x.1) qs).contains a).map fun x =>
      (some x.1, x.2))

/-- Stores put in the warp's queue (R216), named in order. -/
def Issue.enqueue (I : Issue) (qs : List QStore) (s : State) : List Effect :=
  let cure := s.curedBy qs
  let named := qs.mapIdx fun i q =>
    { q with id := s.ids + i, cure := if i + 1 = qs.length then cure else [] }
  [.ctl I.k { s.ctl I.k with storeQ := (s.ctl I.k).storeQ ++ named }, .ids qs.length]

/-- LD (R187 to R192). -/
def execLd (d : Nat) (f : AddrForm) (s : State) : Out :=
  issue (fun I =>
      { cls := .e, legal := accessBytes I.ty != 0 && okReg I.ty d, vs := vregs I.ty d ++ formVs f, ss := formSs f
        dst := vregs I.ty d })
    (fun I =>
      match I.s.lanesAccess I.k (accessBytes I.ty) 0 0 I.ty (I.eas f) with
      | .error t => .error t
      | .ok (rows, es) => .ok (I.load I.ty d false rows es fun _ => [])) s

/-- ST (R187 to R191). -/
def execSt (d : Nat) (f : AddrForm) (s : State) : Out :=
  issue (fun I =>
      { cls := .e, legal := accessBytes I.ty != 0 && okReg I.ty d, vs := vregs I.ty d ++ formVs f, ss := formSs f })
    (fun I =>
      match I.s.lanesAccess I.k (accessBytes I.ty) 1 0 I.ty (I.eas f) with
      | .error t => .error t
      | .ok (rows, es) =>
        let qs := storeRows I (accessBytes I.ty) (fun l => I.vsrc I.ty d l) rows
        .ok (chain I.s [fun _ => es, I.enqueue qs], .next)) s

/-- The check of an offset of the block's own shared memory for n bytes (R189). -/
def Issue.sharedAt (I : Issue) (off n : Nat) : Checked :=
  if off % n ≠ 0 then .error { code := 0x06 }
  else if off < I.blk.img.shblk then .ok ([({ sp := .shared (blockOf I.k), off }, n)], [])
  else .error protection

/-- The lanes of an LDS or STS with their checks (R189). -/
def Issue.sharedRows (I : Issue) (a : Nat) (b : SOp) (kind : Nat) : Except Trap (List LaneAccess × List Effect) :=
  gather I.s kind 0 I.ty (I.act.map fun l =>
    let off := (I.v a l + I.op b).toNat
    (l, apertureAddr (blockOf I.k) off, I.sharedAt off (accessBytes I.ty)))

/-- LDS (R189). -/
def execLds (d a : Nat) (b : SOp) (s : State) : Out :=
  issue (fun I =>
      { cls := .e, legal := accessBytes I.ty != 0 && okReg I.ty d && okReg I.ty a, vs := vregs I.ty d ++ [a], ss := opRegs b
        dst := vregs I.ty d })
    (fun I =>
      match I.sharedRows a b 0 with
      | .error t => .error t
      | .ok (rows, es) => .ok (I.load I.ty d false rows es fun _ => [])) s

/-- STS (R189). -/
def execSts (d a : Nat) (b : SOp) (s : State) : Out :=
  issue (fun I =>
      { cls := .e, legal := accessBytes I.ty != 0 && okReg I.ty d && okReg I.ty a, vs := vregs I.ty d ++ [a], ss := opRegs b })
    (fun I =>
      match I.sharedRows a b 1 with
      | .error t => .error t
      | .ok (rows, _) =>
        .ok (I.enqueue (storeRows I (accessBytes I.ty) (fun l => I.vsrc I.ty d l) rows) I.s, .next)) s

/-- PREF has no architectural effect and faults only in decoding (R193). -/
def execPref (_lvl : Nat) (f : AddrForm) (s : State) : Out :=
  issue (fun _ => { cls := .e, vs := formVs f, ss := formSs f }) (fun _ => .ok ([], .next)) s

/-- The address of a warp-level access: a pair plus a sign-extended scalar operand (R106). -/
def Issue.sea (I : Issue) (a : Nat) (b : SOp) : Nat := (I.pair a + sext64 (I.op b)).toNat

/-- The check of one access made once for the issuing slices: the lane it names is the lowest live one. -/
def Issue.onceAccess (I : Issue) (ea n kind op ty : Nat) (refuse : List (Place × Nat) → Option LaneFault) :
    Except Trap (List LaneAccess × List Effect) :=
  gather I.s kind op ty [(I.lane, ea,
    match I.s.access I.k I.lane ea n kind with
    | .error e => .error e
    | .ok (p, es) => match refuse p with | some e => .error e | none => .ok (p, es))]

/-- SLD (R106). -/
def execSld (d a : Nat) (b : SOp) (s : State) : Out :=
  issue (fun _ => { cls := .a, once := true, ss := [d, a, a + 1] ++ opRegs b })
    (fun I =>
      match I.onceAccess (I.sea a b) 4 0 0 tyB32 (fun _ => none) with
      | .error t => .error t
      | .ok (rows, es) => .ok (I.load tyB32 d true rows es fun _ => [])) s

/-- SST (R106). -/
def execSst (d a : Nat) (b : SOp) (s : State) : Out :=
  issue (fun _ => { cls := .a, once := true, ss := [d, a, a + 1] ++ opRegs b })
    (fun I =>
      match I.onceAccess (I.sea a b) 4 1 0 tyB32 (fun _ => none) with
      | .error t => .error t
      | .ok (rows, es) =>
        .ok (chain I.s [fun _ => es, I.enqueue (storeRows I 4 (fun _ => (I.rs d).toNat) rows)], .next)) s

/-- The key of a word in a port's constant cache: three ports to a core, one for each role. -/
def ccKey (k role pa : Nat) : Nat := (3 * coreOf k + role) * 2 ^ 50 + pa / 4

/-- The check of an LDC address: the apertures raise protection (R106). -/
def Issue.constAccess (I : Issue) (ea : Nat) : Except Trap (List LaneAccess × List Effect) :=
  gather I.s 0 0 tyB32 [(I.lane, ea,
    if ea % 4 ≠ 0 then .error { code := 0x06 }
    else if bits ea 63 60 = 8 ∨ bits ea 63 60 = 9 ∨ bits ea 63 60 = 10 then .error protection
    else I.s.access I.k I.lane ea 4 0)]

/-- LDC (R106): the word now in memory, or freely the word that the port's constant cache holds. -/
def execLdc (d a : Nat) (b : SOp) (s : State) : Out :=
  issue (fun _ => { cls := .a, once := true, ss := [d, a, a + 1] ++ opRegs b })
    (fun I =>
      match I.constAccess (I.sea a b) with
      | .error t => .error t
      | .ok (rows, es) =>
        let key := ccKey I.k I.c.role ((rows.map fun x => x.place.off).headD 0)
        match find I.s.ccache key, rows.any fun x => x.remote.isSome || x.place.mgmt with
        | some w, false =>
          if w ≠ word (I.s.phys ((rows.map fun x => x.place.off).headD 0) 4) && I.s.pick 16600 2 = 1 then
            .ok (chain I.s [fun _ => es, fun s => bindOp s I.k I.sl I.seta [.s d w] [] false], .next)
          else .ok (I.load tyB32 d true rows es fun _ => [])
        | none, false =>
          .ok (I.load tyB32 d true rows es fun s =>
            [.ccache (put s.ccache key (word (s.phys ((rows.map fun x => x.place.off).headD 0) 4)))])
        | _, true => .ok (I.load tyB32 d true rows es fun _ => [])) s

/-- The target class of an atomic or reservation lane by its address and place, coded as TCLASS of R234: 0 L1,
1 own shared, 2 peer shared, 3 slice, 4 remote, and from 5 on the places of class None (R232). -/
def atomClass (k ea n : Nat) (ps : List (Place × Nat)) : Nat :=
  let p := (ps.headD (⟨.phys, 0, 0, false, false⟩, 0)).1
  match p.sp with
  | .shared b => if b = blockOf k then 1 else 2
  | .reg _ => 5
  | .remote _ => if bits ea 63 60 = 10 && n = 8 then 6 else 4
  | .phys =>
    if bits ea 63 60 = 10 && n = 8 then 6
    else if p.mgmt then 8
    else match region p.off with
      | .host => if p.attr = 2 then 7 else 0
      | .hbm => if p.attr = 2 then 3 else 0
      | _ => 3

/-- The check of a lane of LDRSV or STCND: only classes L1 and own shared admit it (R241). -/
def Issue.resvAccess (I : Issue) (n kind l ea : Nat) : Checked :=
  match I.s.access I.k l ea n kind with
  | .error e => .error e
  | .ok (ps, es) =>
    let c := atomClass I.k ea n ps
    if c ≤ 1 then .ok (ps, es) else .error { code := 0x0A, tclass := c }

/-- The lanes of a slice in a list of accesses. -/
def ofSlice (j : Nat) (rows : List LaneAccess) : List LaneAccess := rows.filter fun x => x.lane / 4 == j

/-- The reservations that an LDRSV sets (R242). -/
def reserve (I : Issue) (rows : List LaneAccess) (s : State) : List Effect :=
  let c := s.ctl I.k
  let at_ := fun (j : Nat) => (ofSlice j rows).head?.map fun r => ⟨r.place.sp, r.place.off / 64 * 64, 0⟩
  [.ctl I.k { c with slices := c.slices.mapIdx fun j x => if bit I.sl j then { x with resv := at_ j } else x }]

/-- LDRSV (R242). -/
def execLdrsv (d : Nat) (f : AddrForm) (s : State) : Out :=
  issue (fun I =>
      { cls := .e, legal := decide (4 ≤ accessBytes I.ty) && okReg I.ty d, vs := vregs I.ty d ++ formVs f
        ss := formSs f, dst := vregs I.ty d })
    (fun I =>
      match gather I.s 0 0xF I.ty ((I.eas f).map fun p => (p.1, p.2, I.resvAccess (accessBytes I.ty) 0 p.1 p.2)) with
      | .error t => .error t
      | .ok (rows, es) => .ok (I.load I.ty d false rows es (reserve I rows))) s

/-- Whether a slice's reservation covers its lanes' bytes, within the window of 32 words (R243, R245). -/
def Slice.holds (x : Slice) (n : Nat) (rows : List LaneAccess) : Bool :=
  match x.resv with
  | none => false
  | some r => decide (r.count ≤ 32) && rows.all fun q =>
      q.place.sp == r.sp && decide (r.gran ≤ q.place.off) && decide (q.place.off + n ≤ r.gran + 64)

/-- The stores and statuses of the slices of an STCND, one after another (R243): each decides by its reservation
as the slices before it leave it. -/
def condSlices (I : Issue) (n d : Nat) (rows : List LaneAccess) :
    List Nat → State → List Effect × List RegWrite
  | [], _ => ([], [])
  | j :: js, s =>
    let mine := ofSlice j rows
    let ok := ((s.ctl I.k).slice j).holds n mine
    let here := chain s ((if ok then (storeRows I n (fun l => I.vsrc I.ty d l) mine).map fun q => fun s =>
        performStore s I.k q else []) ++
      [fun s => [.ctl I.k ((s.ctl I.k).onSlices (2 ^ j) fun x => { x with resv := none })]])
    let rest := condSlices I n d rows js (applyAll here s)
    let st := mine.flatMap fun q =>
      .v d q.lane (if ok then 1 else 0) :: (if is64 I.ty then [.v (d + 1) q.lane 0] else [])
    (here ++ rest.1, st ++ rest.2)

/-- Whether no place of a list of accesses holds back a write of the warp (R410, R411), and the pages that it pins. -/
def pinRows (I : Issue) (rows : List LaneAccess) : Bool × List Effect :=
  let held := rows.filter fun x => x.place.sp == .phys && I.s.writeWaits x.place.off (I.s.epochOf I.k)
  (held.isEmpty, chain I.s (held.map fun x => fun s => pinPage s x.place.off (s.epochOf I.k)))

/-- The accesses of an STCND to lines of host memory that its core does not own (R232, R356). -/
def Issue.unowned (I : Issue) (rows : List LaneAccess) : List LaneAccess :=
  rows.filter fun x => x.host && !I.s.ownsLine I.k x.place.off

/-- Ownership requested for the lines of an STCND, before it decides (R243, R356). -/
def Issue.own (I : Issue) (rows : List LaneAccess) : List Effect × Flow :=
  let es := chain I.s ([fun s => [.ctl I.k { s.ctl I.k with flagOps := (s.ctl I.k).flagOps ++
      [{ id := s.ids, flag := 15, slices := I.sl, writes := [] }] }, .ids 1]] ++
    (groupRows (fun x : LaneAccess => x.place.off / 128) rows).map fun g => askHost
      { id := 0, k := I.k, sl := lowest 8 I.sl, kind := 1, pa := (g.map fun x => x.place.off).headD 0, size := 0
        lanes := laneMask g, plane := 0, op := 0, dest := [], ty := 0, copy := 0, src := I.fill false { code := 0 }
        eas := g.map fun x => (x.lane, x.ea) })
  (es, .wait (.owning (((applyAll es I.s).fab.reqs.filter fun r => decide (I.s.ids ≤ r.id)).map Req.id)))

/-- Whether the ownership that an STCND asked for timed out (R356): its remote-error is to come at the clause's end. -/
def Issue.ownLost (I : Issue) : Bool :=
  (match I.slice.wait with | some (.owning _) => true | _ => false) &&
    I.slice.defer.any fun t => t.code == 0x14 && t.widx == I.slice.idx && t.word == I.clauseWord

/-- STCND (R243): its stores come after those queued before it, and its lines of host memory are owned first; the slices of a
line whose request timed out write nothing (R356). -/
def execStcnd (d : Nat) (f : AddrForm) (s : State) : Out :=
  issue (fun I =>
      { cls := .e, legal := decide (4 ≤ accessBytes I.ty) && okReg I.ty d, vs := vregs I.ty d ++ formVs f
        ss := formSs f, dst := vregs I.ty d })
    (fun I =>
      let n := accessBytes I.ty
      match gather I.s 1 0xF I.ty ((I.eas f).map fun p => (p.1, p.2, I.resvAccess n 1 p.1 p.2)) with
      | .error t => .error t
      | .ok (rows, es) =>
        let far := I.unowned rows
        if !I.s.drainable I.k then .ok ([], .again)
        else if !(pinRows I rows).1 then .ok ((pinRows I rows).2, .again)
        else if !far.isEmpty && !I.ownLost then .ok (I.own far)
        else
          let lost := fun (j : Nat) => far.any fun x => x.lane / 4 == j
          let drop : Effect := .ctl I.k (I.c.onSlices (maskOf ((setBits 8 I.sl).filter lost)) fun x => { x with resv := none })
          let pre := chain I.s [fun _ => es, fun _ => if far.isEmpty then [] else [drop], fun s => drainAll s I.k]
          let r := condSlices I n d rows ((setBits 8 I.sl).filter fun j => !lost j) (applyAll pre I.s)
          let s2 := applyAll r.1 (applyAll pre I.s)
          .ok (pre ++ r.1 ++ bindOp s2 I.k I.sl I.seta r.2 [] false, .next)) s

/-- CCTL.cinv: the constant caches of the core's three ports are invalidated (R194). -/
def execCctlCinv (s : State) : Out :=
  issue (fun _ => { cls := .a, once := true })
    (fun I => .ok ([.ccache (I.s.ccache.filter fun p => p.1 / 2 ^ 50 / 3 != coreOf I.k)], .next)) s

/-- A range operation of CCTL (R194): the base is checked; no value that a load can read changes. -/
def cctlRange (a : Nat) (b : SOp) (s : State) : Out :=
  issue (fun _ => { cls := .a, once := true, ss := [a, a + 1] ++ opRegs b })
    (fun I =>
      let ea := (I.pair a).toNat
      match generic ea with
      | .virt _ => .ok ([], .next)
      | _ =>
        if bits ea 63 60 = 8 ∨ bits ea 63 60 = 9 ∨ bits ea 63 60 = 10
        then .error { code := 0x09, addr := ea, xt := xtArea 0 [(I.lane, ea, protection)] }
        else .error { code := 0x07, addr := ea }) s

def execCctlEvl1 (a : Nat) (b : SOp) (s : State) : Out := cctlRange a b s
def execCctlWbl2 (a : Nat) (b : SOp) (s : State) : Out := cctlRange a b s
def execCctlEvl1all (s : State) : Out := issue (fun _ => { cls := .a, once := true }) (fun _ => .ok ([], .next)) s

/-- The pages of 4 KiB of a virtual range with the frames of this chip they map to (R195): unmapped pages are skipped. -/
def State.frames4k (s : State) (ctx va n : Nat) : List (Nat × Nat) :=
  (span (va / 4096) ((va + n - 1) / 4096 + 1 - va / 4096)).filterMap fun p =>
    let w := s.walk ctx (4096 * p)
    if w.kind = .leaf && w.target (4096 * p) / 2 ^ 43 = s.chip then some (p, w.target (4096 * p) % 2 ^ 43 / 4096) else none

/-- Whether the line of 128 bytes of a physical address overlaps n bytes from a virtual address on. -/
def lineIn (frames : List (Nat × Nat)) (va n pa : Nat) : Bool :=
  frames.any fun q =>
    let line := 4096 * q.1 + pa % 4096 / 128 * 128
    q.2 == pa / 4096 && decide (line < va + n) && decide (va < line + 128)

/-- ICINV (R195, R196): the cached clauses with a line in a range, or with length 0 all, are gone on both dies; a base that
is no generic address names none (log entry 87). -/
def execIcinv (a : Nat) (b : SOp) (s : State) : Out :=
  issue (fun _ => { cls := .s, once := true, ss := [a, a + 1] ++ opRegs b })
    (fun I =>
      let ea := (I.pair a).toNat
      let n := (I.op b).toNat
      if n = 0 then .ok ([.icache []], .next)
      else match generic ea with
        | .virt _ =>
          let fs := I.s.frames4k I.blk.ctx ea n
          .ok ([.icache (I.s.icache.filter fun p => !(p.2.any fun q => lineIn fs ea n q.1))], .next)
        | _ => .ok ([], .next)) s

/-- The queued stores of every warp become visible (R202: every access translated so far reaches its home). -/
def drainEvery (s : State) : List Effect := chain s ((s.warps.map Prod.fst).map fun k => fun s => drainAll s k)

/-- TLBINV (R202): it waits for every access translated before it. Kind 0 the entries of every size that map an address of a
context, 1 a context's, 2 all. -/
def execTlbinv (a : Nat) (b : SOp) (s : State) : Out :=
  issue (fun _ => { cls := .s, once := true, ss := [a, a + 1] ++ opRegs b })
    (fun I =>
      let x := (I.op b).toNat
      let kind := bits x 1 0
      let ctx := bits x 13 8
      let ea := (I.pair a).toNat
      let hit := fun (t : Tlb) => kind == 2 || (t.ctx == ctx &&
        (kind == 1 || t.base == ea / (t.walk).size * (t.walk).size))
      if kind = 3 || (kind ≠ 0 && a ≠ 0) then .error { code := 0x01 }
      else
      let since := match I.slice.wait with | some (.quiet n) => n | _ => I.s.ids
      if !I.s.chipQuiet since then .ok (drainEvery I.s, .wait (.quiet since))
      else .ok (chain I.s [drainEvery, fun s => [.tlb (s.tlb.filter fun t => !hit t)]], .next)) s

/-- PTWR (R203): an entry is written unless a valid one would replace a valid one; a poisoned entry, one of a fenced stack or
slice, is consumed (R26). -/
def execPtwr (a b : Nat) (s : State) : Out :=
  issue (fun _ => { cls := .s, once := true, ss := [a, a + 1, b, b + 1] })
    (fun I =>
      let pa := (I.pair a).toNat
      let ok := decide (pa < 2 ^ 43) && (region pa == .hbm || region pa == .host ||
        (match region pa with | .vault j => I.s.vaultFault pa j != some 0x09 | _ => false))
      if pa % 8 ≠ 0 then .error { code := 0x06, addr := pa }
      else if ok && I.s.poisonedRange pa 8 then .error { code := 0x12, addr := pa }
      else if !ok then .error { code := 0x09, addr := pa, xt := xtArea 2 [(I.lane, pa, protection)] }
      else if !I.s.drainable I.k then .ok ([], .wait (.home pa))
      else if I.s.writeWaits pa (I.s.epochOf I.k) then .ok (pinPage I.s pa (I.s.epochOf I.k), .wait (.home pa))
      else
        .ok (chain I.s [
          fun s => drainAll s I.k,
          fun s =>
            let old := s.phys pa 8
            let new := (I.pair b).toNat
            let put := !bit new 0 || !bit old 0
            (if put then s.physWrite pa (leBytes 8 new) (s.epochOf I.k) (some (I.k, lowest 8 I.sl)) else []) ++
              pairOut I.k b (dword (if put then new else old))], .next)) s

end Sys2Proof.Machine
end

