-- ==== Sys2Proof/Machine/Atomics.lean ====
section
/-! DEFINITION. ATOM, ATOMS and RED (10 R232 to R240). -/
namespace Sys2Proof.Machine

/-- How far a combination of operation and type is admitted (R233): 3 at every class, 2 at all but peer shared,
1 at L1 and own shared only, 0 nowhere. Operations: 0 add, 1 min, 2 max, 3 and, 4 or, 5 xor, 6 exch, 7 cas, 8
inc-wrap. -/
def atomReach (op ty : Nat) : Nat :=
  let i32 := ty == 2 || ty == 6
  let i64 := ty == 3 || ty == 7
  match op with
  | 0 => if i32 then 3 else if i64 || ty == 0x0C then 2 else if ty == 0x0D || ty == 0x14 || ty == 0x15 then 1 else 0
  | 1 => if i32 then 3 else if i64 then 2 else if ty == 0x0C then 1 else 0
  | 2 => if i32 then 3 else if i64 then 2 else if ty == 0x0C then 1 else 0
  | 8 => if ty == 6 then 3 else if ty == 7 then 2 else 0
  | _ =>
    if i32 || ty == 8 then 3 else if i64 || ty == 9 then 2
    else if op == 6 && (ty == 0x0C || ty == 0x0D) then 1 else 0

/-- Whether a class (as TCLASS of R234) admits a reach (R233). -/
def classAdmits (reach cls : Nat) : Bool :=
  match cls with
  | 0 => true
  | 1 => true
  | 2 => reach == 3
  | 3 => decide (2 ≤ reach)
  | 4 => decide (2 ≤ reach)
  | _ => false

/-- A float sum of an atomic (R237): to nearest, subnormals kept. -/
def atomFadd (f : Fmt) (x y : Nat) : Nat := f.round rnNearest false false 0 (Val.add false (f.value x) (f.value y))

/-- The operation function of R237 on w-bit patterns. -/
def atomFn (op ty old v c : Nat) : Nat :=
  let w := if is64 ty then 64 else 32
  let sg := ty == 2 || ty == 3
  let lt := fun (x y : Nat) => if sg then decide (signed w x < signed w y) else decide (x < y)
  match op with
  | 0 =>
    match fmtOf ty with
    | some f => unelem (elemBits ty) ((span 0 (elems ty)).map fun h => atomFadd f (elem ty old h) (elem ty v h))
    | none => (old + v) % 2 ^ w
  | 1 => if ty = tyF32 then minNum32 old v else if lt v old then v else old
  | 2 => if ty = tyF32 then maxNum32 old v else if lt old v then v else old
  | 3 => old &&& v
  | 4 => old ||| v
  | 5 => old ^^^ v
  | 6 => v
  | 7 => if old = c then v else old
  | _ => if v ≤ old then 0 else old + 1

/-- An ATOMS operand code below 0xF0 (R235): a register or pair, or a sign-extended constant. -/
def Issue.atomOperand (I : Issue) (ty code : Nat) : Nat :=
  if code < 160 then (if is64 ty then (I.pair code).toNat else (I.rs code).toNat)
  else pattern (if is64 ty then 64 else 32) (if code < 0xE0 then (code : Int) - 0xA0 else (code : Int) - 0xF0)

/-- Whether an ordering code releases, and whether it acquires (R212). -/
def ordRel (ord : Nat) : Bool := ord == 2 || ord == 3
def ordAcq (ord : Nat) : Bool := ord == 1 || ord == 3

/-- The check of a lane of an atomic, with its class (R238). -/
def Issue.atomAccess (I : Issue) (op ty l ea : Nat) : Checked :=
  match I.s.access I.k l ea (accessBytes ty) 2 with
  | .error e => .error e
  | .ok (ps, es) =>
    let c := atomClass I.k ea (accessBytes ty) ps
    if classAdmits (atomReach op ty) c then .ok (ps, es) else .error { code := 0x0A, tclass := c }

/-- The local lanes of an atomic in ascending order (R238): each reads what the lane before it left, and a
poisoned one leaves memory unchanged (R240). The values read come with their lanes. -/
def atomLanes (I : Issue) (op ty : Nat) (arg : Nat → Nat × Nat) :
    List LaneAccess → State → List Effect × List (Nat × Nat)
  | [], _ => ([], [])
  | x :: xs, s =>
    if s.piecesPoisoned x.pieces then atomLanes I op ty arg xs s
    else
      let old := ofBytes (s.loadBytes I.k x.pieces)
      let new := atomFn op ty old (arg x.lane).1 (arg x.lane).2
      let here := performStore s I.k
        { sp := x.place.sp, off := x.place.off, bytes := leBytes (accessBytes ty) new, sl := x.lane / 4 % 8
          epoch := s.epochOf I.k, lane := x.lane }
      let rest := atomLanes I op ty arg xs (applyAll here s)
      (here ++ rest.1, (x.lane, old) :: rest.2)

/-- A request of an atomic to another chip (R240), one for each lane. -/
def Issue.farAtom (I : Issue) (x : Ext) (ty kind : Nat) (dest : List (Nat × Nat × Nat)) (arg : Nat × Nat)
    (row : LaneAccess) : Req × Nat × List Nat :=
  let at_ := row.remote.getD (0, 0)
  ({ id := 0, k := I.k, sl := lowest 8 I.sl, kind, pa := at_.1 * 2 ^ 43 + at_.2, size := accessBytes ty
     lanes := 2 ^ row.lane, plane := 0, op := 0, dest, ty, copy := 0, src := I.fill false { code := 0 }
     eas := [(row.lane, row.ea)] }, at_.1, [x.op, ty, arg.1, arg.2])

/-- An atomic that passed its checks. `ret` gives the register of a lane's returned value, none for RED. The warp's queued
stores come first (R239); a release at pod scope or beyond waits for every acknowledgement (R230); host lanes whose line the
core does not own are performed when their ownership request completes (R232, R356), and the warp issues nothing before
that, nor before the replies that an acquire waits for (R218, R230, R239). -/
def Issue.atomic (I : Issue) (x : Ext) (ty : Nat) (ret : Option (Nat → Nat × Nat)) (arg : Nat → Nat × Nat)
    (rows : List LaneAccess) (es : List Effect) : List Effect × Flow :=
  let far := rows.filter fun r => r.remote.isSome
  let host := rows.filter fun r => r.remote.isNone && r.host && !I.s.ownsLine I.k r.place.off
  let near := rows.filter fun r => r.remote.isNone && (!r.host || I.s.ownsLine I.k r.place.off)
  let pinned := pinRows I (rows.filter fun r => r.remote.isNone)
  let wide := ordRel x.ord && decide (5 ≤ x.scope)
  if ordRel x.ord && I.holdBack.isSome then ([], I.holdBack.getD .again)
  else if !I.s.drainable I.k || (!far.isEmpty && !I.s.maySend I.k) then ([], .again)
  else if !pinned.1 then (pinned.2, .again)
  else if wide && !I.acksIn then I.awaitAcks
  else
    let pre := chain I.s [fun _ => es, fun s => drainAll s I.k]
    let s1 := applyAll pre I.s
    let bad := near.filter fun r => s1.piecesPoisoned r.pieces
    let trap := bad.head?.map fun r =>
      (lowest 8 I.sl, I.fill false { code := 0x12, addr := r.ea, lmask := 2 ^ r.lane })
    let done := atomLanes I x.op ty arg near s1
    let out := fun (p : Nat × Nat) => match ret with | none => [] | some f => regOut ty (f p.1).1 (f p.1).2 p.2
    let dest := fun (r : LaneAccess) => match ret with | none => [] | some f => [((f r.lane).1, (f r.lane).2, 0)]
    let kind := if ret.isSome then 2 else 3
    let bind := fun (s : State) => if ret.isNone && host.isEmpty then
        (match trap with | none => [] | some t => deferTrap s I.k t.1 t.2)
      else
        [.ctl I.k { s.ctl I.k with flagOps := (s.ctl I.k).flagOps ++
          [{ id := s.ids, flag := if ret.isSome then I.seta else 15, slices := I.sl
             writes := done.2.flatMap out, trap, sup := I.c.priv }] }, .ids 1]
    let hosts := host.map fun r => askHost
      { id := 0, k := I.k, sl := lowest 8 I.sl, kind, pa := r.place.off, size := accessBytes ty, lanes := 2 ^ r.lane
        plane := 0, op := 0, ty, copy := 0, src := I.fill false { code := 0 }, eas := [(r.lane, r.ea)]
        dest := (dest r).headD (0, 0, 0) :: [(x.op, (arg r.lane).1, (arg r.lane).2)] }
    let fars := far.map fun r =>
      let q := I.farAtom x ty kind (dest r) (arg r.lane) r
      if ret.isSome then askRemote I.k I.sl ((far.map LaneAccess.ea).headD 0) q.1 q.2.1 q.2.2
      else fun s => sendReq s q.1 q.2.1 q.2.2
    let hold := holdFor I.k fun r => r.k == I.k && decide (s1.ids ≤ r.id) && (r.plane == 0xFE || ordAcq x.ord)
    (pre ++ done.1 ++ chain (applyAll done.1 s1) ([bind] ++ hosts ++ fars ++ [hold]), .next)

/-- Whether an atomic's type and registers are admitted (R233, R235). -/
def atomLegal (x : Ext) (ty : Nat) (regs : List Nat) : Bool :=
  atomReach x.op ty != 0 && (x.v :: (if x.op = 7 then [x.c] else []) ++ regs).all (okReg ty)

/-- The vector registers that V and C name. -/
def atomVs (x : Ext) (ty : Nat) : List Nat := vregs ty x.v ++ (if x.op = 7 then vregs ty x.c else [])

/-- The data and compare operands of a lane of ATOM or RED. -/
def Issue.atomArg (I : Issue) (x : Ext) (l : Nat) : Nat × Nat :=
  (I.vsrc I.ty x.v l, if x.op = 7 then I.vsrc I.ty x.c l else 0)

/-- ATOM (R235 to R240). -/
def execAtom (d : Nat) (f : AddrForm) (x : Ext) (s : State) : Out :=
  issue (fun I =>
      { cls := .e, legal := atomLegal x I.ty [d], vs := vregs I.ty d ++ atomVs x I.ty ++ formVs f, ss := formSs f
        dst := vregs I.ty d })
    (fun I =>
      match gather I.s 2 (32 + x.op) I.ty ((I.eas f).map fun p => (p.1, p.2, I.atomAccess x.op I.ty p.1 p.2)) with
      | .error t => .error t
      | .ok (rows, es) => .ok (I.atomic x I.ty (some fun l => (l, d)) (I.atomArg x) rows es)) s

/-- RED (R236, R238). -/
def execRed (f : AddrForm) (x : Ext) (s : State) : Out :=
  issue (fun I =>
      { cls := .e, legal := atomLegal x I.ty [], vs := atomVs x I.ty ++ formVs f, ss := formSs f })
    (fun I =>
      match gather I.s 2 (48 + x.op) I.ty ((I.eas f).map fun p => (p.1, p.2, I.atomAccess x.op I.ty p.1 p.2)) with
      | .error t => .error t
      | .ok (rows, es) => .ok (I.atomic x I.ty none (I.atomArg x) rows es)) s

/-- The scalar registers that an ATOMS operand code names. -/
def codeRegs (ty code : Nat) : List Nat := if code < 160 then vregs ty code else []

/-- ATOMS: once for the issuing slices, under the type of the mode (R238). -/
def execAtoms (d a : Nat) (b : SOp) (x : Ext) (s : State) : Out :=
  issue (fun I =>
      { cls := .a, once := true
        legal := atomReach x.op I.ty != 0 && okReg I.ty d && (codeRegs I.ty x.v).all (fun r => decide (r < 160))
          && (decide (160 ≤ x.v) || okReg I.ty x.v) && (x.op != 7 || decide (160 ≤ x.c) || okReg I.ty x.c)
        ss := vregs I.ty d ++ [a, a + 1] ++ opRegs b ++ codeRegs I.ty x.v ++
          (if x.op = 7 then codeRegs I.ty x.c else []) })
    (fun I =>
      let ea := I.sea a b
      match gather I.s 2 (32 + x.op) I.ty [(I.lane, ea, I.atomAccess x.op I.ty I.lane ea)] with
      | .error t => .error t
      | .ok (rows, es) =>
        .ok (I.atomic x I.ty (some fun _ => (32, d))
          (fun _ => (I.atomOperand I.ty x.v, if x.op = 7 then I.atomOperand I.ty x.c else 0)) rows es)) s

end Sys2Proof.Machine
end

