-- ==== Sys2Proof/Machine/Control.lean ====
section
/-! DEFINITION. Control flow: branches, calls, NOP, MODE, PART, REGANG, YIELD, WAITW and REND (05 R110
to R126, 03 R81). EXIT stands with the collectives it may fire, FORK with the rendezvous that may fork again. -/
namespace Sys2Proof.Machine

/-- A class A word that executes once (R101). -/
def chkA (ss : List Nat) : Issue → Chk := fun _ => { cls := .a, once := true, ss }

/-- The transfer to a target, an exact sum (R6), checked before control moves (R110): one outside the 64-bit addresses is
none of the canonical ones. -/
def Issue.transfer (I : Issue) (to_ : Int) : Except Trap (List Effect × Flow) :=
  let pc := BitVec.ofInt 64 to_
  if to_ < 0 ∨ 2 ^ 64 ≤ to_ then .error { code := 0x07, addr := pc.toNat }
  else match I.target pc with
    | .error t => .error t
    | .ok es => .ok (es, .goto pc)

/-- A signed number of 8-byte units from an address, and from the clause (R110). -/
def unitsFrom (a : DWord) (x : Word) : Int := a.toNat + 8 * x.toInt
def Issue.rel (I : Issue) (x : Word) : Int := unitsFrom I.slice.pc x

/-- BRA: a 24-bit signed offset (R111). -/
def execBra (o : Nat) (s : State) : Out :=
  issue (chkA []) (fun I => I.transfer (I.rel (BitVec.ofInt 32 (signed 24 o)))) s

/-- BRC (R112). -/
def execBrc (nz : Bool) (a b : SOp) (s : State) : Out :=
  issue (chkA (opRegs a ++ opRegs b))
    (fun I => if (I.op a ≠ 0) = nz then I.transfer (I.rel (I.op b)) else .ok ([], .ends)) s

/-- The mask that BRZM and BRNZM test (R113). -/
def Issue.tested (I : Issue) (m : Nat) : Nat := (I.m m &&& I.m 14).toNat &&& I.lanes

def execBrzm (m : Nat) (b : SOp) (s : State) : Out :=
  issue (chkA (opRegs b))
    (fun I => if I.tested m = 0 then I.transfer (I.rel (I.op b)) else .ok ([], .ends)) s

def execBrnzm (m : Nat) (b : SOp) (s : State) : Out :=
  issue (chkA (opRegs b))
    (fun I => if I.tested m ≠ 0 then I.transfer (I.rel (I.op b)) else .ok ([], .ends)) s

/-- JMP (R114). -/
def execJmp (a : Nat) (b : SOp) (s : State) : Out :=
  issue (chkA ([a, a + 1] ++ opRegs b)) (fun I => I.transfer (unitsFrom (I.pair a) (I.op b))) s

/-- CALL: the link is written only when the transfer takes place (R114). -/
def execCall (d : Nat) (b : SOp) (s : State) : Out :=
  issue (chkA ([d, d + 1] ++ opRegs b))
    (fun I => match I.transfer (I.rel (I.op b)) with
      | .error t => .error t
      | .ok (es, f) => .ok (es ++ pairOut I.k d I.slice.nextClause, f)) s

/-- RET (R114). -/
def execRet (a : Nat) (s : State) : Out :=
  issue (chkA [a, a + 1]) (fun I => I.transfer (I.pair a).toNat) s

/-- NOP (R118). -/
def execNop (s : State) : Out := issue (chkA []) (fun _ => .ok ([], .next)) s

/-- MODE: the issuing slices' mode for the rest of the clause (R81). -/
def execMode (mode : Nat) (s : State) : Out :=
  issue (chkA [])
    (fun I => .ok ([.ctl I.k (I.c.onSlices I.sl fun x =>
      if I.c.priv then { x with modeSup := BitVec.ofNat 16 mode } else { x with mode := BitVec.ofNat 16 mode })],
      .next)) s

/-- PART: every live slice of a ganged warp gets its own program counter at the next clause, and a copy of the flags (R119,
R40). -/
def execPart (s : State) : Out :=
  issue (fun _ => { cls := .a, once := true, helper := false })
    (fun I => .ok (if I.c.parted then [] else [.ctl I.k { I.c.shareFlags (liveSlices I.w) with parted := true }], .ends)) s

/-- The address of the word a slice executes. -/
def Slice.wordAddr (x : Slice) : Nat := (x.pc + dword (8 + 4 * x.idx)).toNat

/-- A slice waiting at its REGANG: its clause has ended; the wait names the word and its clause (R120). -/
def Slice.atRegang (step : Bool) (x : Slice) : Slice :=
  { x.leave step x.nextClause with regang := some (x.wordAddr, x.pc.toNat) }

/-- The addresses at which the live slices of a warp wait at REGANG. -/
def regangs (w : Warp) (c : Ctl) : List (Option Nat) :=
  (setBits 8 (liveSlices w)).map fun j => (c.slice j).regang.map Prod.fst

/-- Whether every live slice waits at REGANG, not all at one (R121). -/
def regangClashes (w : Warp) (c : Ctl) : Bool :=
  (regangs w c).all Option.isSome && decide (1 < (regangs w c).eraseDups.length)

/-- The trap of REGANG waits at different addresses (R121): it names the REGANG of the lowest slice. -/
def regangTrap (w : Warp) (c : Ctl) : Trap :=
  let a := ((c.slice (lowest 8 (liveSlices w))).regang).getD (0, 0)
  { code := 0x01, word := 0x2B000000, widx := (a.1 - a.2 - 8) / 4
    tpc := a.2, slices := liveSlices w
    m0 := (w.readM 0).toNat, lmask := 2 ^ lowest 32 (w.readM 14).toNat }

/-- REGANG: a parted slice waits here until every live slice waits at the same one (R120, R121). -/
def execRegang (s : State) : Out :=
  issue (fun _ => { cls := .a, once := true, helper := false })
    (fun I =>
      if !I.c.parted then .ok ([], .ends)
      else
        let c := I.c.onSlices I.sl (Slice.atRegang (I.c.steps (lowest 8 I.sl)))
        .ok ([.ctl I.k (if regangClashes I.w c then { c with trap := some (regangTrap I.w c) } else c)], .placed)) s

/-- YIELD: the warp gives way at the end of the clause, or the parted slice is marked as yielded (R122). A clause that has
sent a remote request keeps that cause (log entry 71). -/
def execYield (s : State) : Out :=
  issue (fun _ => { cls := .a, once := true, helper := false })
    (fun I => .ok ([.ctl I.k (I.c.onSlices I.sl fun x =>
      { x with park := some (x.park.getD (5, 0, [])), yielded := I.c.parted })], .ends)) s

/-- WAITW: waits on a word of the block's shared memory (R123). -/
def execWaitw (eq : Bool) (a b : SOp) (s : State) : Out :=
  issue (fun _ => { cls := .a, once := true, helper := false, ss := opRegs a ++ opRegs b })
    (fun I =>
      let off := (I.op a).toNat
      let blk := blockOf I.k
      if off % 4 ≠ 0 then .error { code := 0x06, addr := apertureAddr blk off }
      else if I.blk.img.shblk ≤ off then .error { code := 0x09, addr := apertureAddr blk off }
      else
        let v := ofBytes (I.s.readPlace I.k { sp := .shared blk, off } 4)
        if (v == (I.op b).toNat) == eq then .ok ([], .ends)
        else .ok ([], .wait (.word off eq (I.op b).toNat false))) s

/-- REND: arrival is a release; the warp waits until the rendezvous fires, and then goes on (R125, R126). -/
def execRend (refork : Bool) (s : State) : Out :=
  issue (fun _ => { cls := .b, once := true })
    (fun I =>
      if I.slice.wait == some .fired then .ok ([], .ends)
      else if I.c.parted || I.m 0 != I.m 14 then .error { code := 0x0B }
      else .ok (I.release [] (.wait (.rend refork)))) s

end Sys2Proof.Machine
end

