-- ==== Sys2Proof/Machine/Sync.lean ====
section
/-! DEFINITION. Barrier words, asynchronous barriers, FENCE and WAITC (10 R246 to R254). -/
namespace Sys2Proof.Machine

/-- A barrier word's fields: malformed as R247 says, phase, expected and arrived. -/
def barBad (w : Nat) : Bool :=
  bits w 30 22 != 0 || bits w 15 6 != 0 || bits w 21 16 == 0 || decide (36 < bits w 21 16)
    || decide (bits w 21 16 ≤ bits w 5 0)

/-- A barrier word after an arrival (R247). -/
def barArrive (w : Nat) : Nat :=
  if bits w 5 0 + 1 = bits w 21 16 then (if bit w 31 then 0 else 2 ^ 31) + bits w 21 16 * 2 ^ 16 else w + 1

/-- An arrival on a barrier word (R247): `waits` for BAR. -/
def arrive (waits : Bool) (a : SOp) (s : State) : Out :=
  issue (fun _ => { cls := .a, once := true, helper := false, ss := opRegs a })
    (fun I =>
      let off := (I.op a).toNat
      let b := blockOf I.k
      let at_ := apertureAddr b off
      if I.c.parted || I.m 0 != I.m 14 then .error { code := 0x0B, addr := at_ }
      else if off % 4 ≠ 0 then .error { code := 0x06, addr := at_ }
      else if I.blk.img.shblk < off + 4 then .error { code := 0x09, addr := at_ }
      else
        let w := ofBytes (I.s.readPlace I.k { sp := .shared b, off } 4)
        if barBad w then .error { code := 0x0C, addr := at_ }
        else
          let last := bits w 5 0 + 1 == bits w 21 16
          .ok (I.release [fun s =>
              [.store (.shared b) off (leBytes 4 (barArrive (shWord (s.sh b) off))) (some (I.k, lowest 8 I.sl))]]
            (if waits && !last then .wait (.bar off (bit w 31) false) else .next))) s

def execBar (a : SOp) (s : State) : Out := arrive true a s
def execBara (a : SOp) (s : State) : Out := arrive false a s

/-- An asynchronous barrier's fields (R249) and whether it is malformed (R251). -/
def abExpect (x : Nat) : Nat := bits x 47 32
def abPending (x : Nat) : Nat := bits x 15 0
def abBad (x : Nat) : Bool :=
  bits x 62 48 != 0 || bits x 31 16 != 0 || abExpect x == 0 || abPending x == 0 || decide (abExpect x < abPending x)

/-- An asynchronous barrier after an arrival with a count (R251). -/
def abArrive (x n : Nat) : Nat :=
  if abPending x = n then (if bit x 63 then 0 else 2 ^ 63) + abExpect x * 2 ^ 32 + abExpect x else x - n

/-- The object of ABINIT, ABARR and ABWAIT, with the checks of its offset (R250). -/
def Issue.abObject (I : Issue) (off : Nat) : Except Trap Nat :=
  let at_ := apertureAddr (blockOf I.k) off
  if off % 8 ≠ 0 then .error { code := 0x06, addr := at_ }
  else if I.blk.img.shblk < off + 8 then .error { code := 0x09, addr := at_ }
  else .ok (ofBytes (I.s.readPlace I.k { sp := .shared (blockOf I.k), off } 8))

/-- The object written at the bank. -/
def Issue.abWrite (I : Issue) (off x : Nat) (_s : State) : List Effect :=
  [.store (.shared (blockOf I.k)) off (leBytes 8 x) (some (I.k, lowest 8 I.sl))]

/-- ABINIT (R251). -/
def execAbinit (a b : SOp) (s : State) : Out :=
  issue (fun _ => { cls := .a, once := true, ss := opRegs a ++ opRegs b })
    (fun I =>
      let off := (I.op a).toNat
      let n := (I.op b).toNat
      match I.abObject off with
      | .error t => .error t
      | .ok _ =>
        if n = 0 || 65535 < n then .error { code := 0x0C, addr := apertureAddr (blockOf I.k) off }
        else .ok (I.release [I.abWrite off (n * 2 ^ 32 + n)] .next)) s

/-- ABARR (R251). -/
def execAbarr (d : Nat) (a b : SOp) (s : State) : Out :=
  issue (fun _ => { cls := .a, once := true, ss := d :: opRegs a ++ opRegs b })
    (fun I =>
      let off := (I.op a).toNat
      let n := (I.op b).toNat
      match I.abObject off with
      | .error t => .error t
      | .ok x =>
        if abBad x || n = 0 || abPending x < n then .error { code := 0x0C, addr := apertureAddr (blockOf I.k) off }
        else .ok (I.release [I.abWrite off (abArrive x n),
          fun _ => [.sreg I.k d (if bit x 63 then 1 else 0)]] .next)) s

/-- ABWAIT (R251). -/
def execAbwait (a b : SOp) (s : State) : Out :=
  issue (fun _ => { cls := .a, once := true, helper := false, ss := opRegs a ++ opRegs b })
    (fun I =>
      let off := (I.op a).toNat
      let p := bit (I.op b).toNat 0
      match I.abObject off with
      | .error t => .error t
      | .ok x =>
        if abBad x then .error { code := 0x0C, addr := apertureAddr (blockOf I.k) off }
        else .ok ([], if bit x 63 != p then .next else .wait (.abar off p false))) s

/-- FENCE (R221, R253): 1 acq, 2 rel, 3 ar, 4 sc. Loads take their values as they issue, so only replies from
other chips are waited for on the read side; the write side drains the store queue, and at pod or system scope
waits for the acknowledgements of R230; meanwhile it stalls the warp (R253). -/
def execFence (ord scope : Nat) (s : State) : Out :=
  issue (fun _ => { cls := .a, once := true })
    (fun I =>
      if I.c.farPending then
        .ok (holdFor I.k (fun r => I.c.flagOps.any fun o => o.waiting.contains r.id) I.s, .wait .returned)
      else if ord = 1 then .ok ([], .next)
      else if I.holdBack.isSome || !I.s.drainable I.k then .ok ([], .wait .drain)
      else if 5 ≤ scope && !I.acksIn then .ok I.awaitAcks
      else .ok (drainAll I.s I.k, .next)) s

/-- WAITC (R224, R254). -/
def execWaitc (cls n : Nat) (s : State) : Out :=
  issue (fun _ => { cls := .a, once := true })
    (fun I => .ok ([], if I.c.counter cls ≤ n then .next else .wait (.waitc cls n))) s

end Sys2Proof.Machine
end

