-- ==== Sys2Proof/Machine/Queues.lean ====
section
/-! DEFINITION. Skip queues and guard slots (11 R272 to R279). -/
namespace Sys2Proof.Machine

/-- The header of the queue at an offset of a block. -/
def State.queue (s : State) (b off : Nat) : QHeader := qHeader (s.sh b) off

/-- The push step of R277 on a well-formed header. -/
def pushStep (s : State) (b off h : Nat) (who : Option (Nat × Nat)) : List Effect :=
  let q := s.queue b off
  [.store (.shared b) (off + 64 + 4 * ((q.head + q.count) % q.cap)) (leBytes 4 h) who,
   .store (.shared b) (off + 8) (leBytes 4 (q.count + 1)) who]

/-- The handle at the head, and the pop step of R277. -/
def State.headHandle (s : State) (b off : Nat) : Nat := shWord (s.sh b) (off + 64 + 4 * (s.queue b off).head)
def popStep (s : State) (b off : Nat) (who : Option (Nat × Nat)) : List Effect :=
  let q := s.queue b off
  [.store (.shared b) (off + 4) (leBytes 4 ((q.head + 1) % q.cap) ++ leBytes 4 (q.count - 1)) who]

/-- A queue word at an offset (R276): the offset's checks; then, its earlier stores made visible and, for a
push, what a release waits for done, the header's checks and the step. `push` is the handle pushed, if a push step is
made: one of a foreign epoch is refused at once (log entry 89). -/
def queueWord (helper : Bool) (ss : List Nat) (a : SOp) (rel : Bool) (push : Issue → State → Option Nat)
    (step : Issue → Nat → State → List Effect × Flow) (s : State) : Out :=
  issue (fun _ => { cls := .a, once := true, helper, ss := ss ++ opRegs a })
    (fun I =>
      let off := (I.op a).toNat
      let b := blockOf I.k
      let at_ := apertureAddr b off
      if off % 64 ≠ 0 then .error { code := 0x06, addr := at_ }
      else if I.blk.img.shblk < off + 64 then .error { code := 0x09, addr := at_ }
      else if rel && I.holdBack.isSome then .ok ([], I.holdBack.getD .again)
      else if !I.s.drainable I.k then .ok ([], .again)
      else
        let pre := drainAll I.s I.k
        let s1 := applyAll pre I.s
        match qFault (s1.sh b) I.blk.img.shblk off (push I s1) with
        | 0 => let r := step I off s1; .ok (pre ++ r.1, r.2)
        | code => .error { code, addr := at_ }) s

/-- QINIT: a store of the whole header in the warp's program order (R276). -/
def execQinit (e : Nat) (a b : SOp) (s : State) : Out :=
  issue (fun _ => { cls := .a, once := true, ss := opRegs a ++ opRegs b })
    (fun I =>
      let off := (I.op a).toNat
      let n := (I.op b).toNat
      let at_ := apertureAddr (blockOf I.k) off
      if off % 64 ≠ 0 then .error { code := 0x06, addr := at_ }
      else if I.blk.img.shblk < off + 64 then .error { code := 0x09, addr := at_ }
      else if n < 2 || 64 < n then .error { code := 0x0C, addr := at_ }
      else
        .ok (I.enqueue [{ sp := .shared (blockOf I.k), off, bytes := leBytes 64 (n + e * 2 ^ 24)
                          sl := lowest 8 I.sl, epoch := I.s.epochOf I.k }] I.s, .next)) s

/-- QPUSH waits for room in the line of waiting pushes (R278). -/
def execQpush (a b : SOp) (s : State) : Out :=
  queueWord false (opRegs b) a true (fun I _ => some (I.op b).toNat) (fun I off s =>
    let k := blockOf I.k
    let h := (I.op b).toNat
    if (s.queue k off).count < (s.queue k off).cap && s.firstInLine k off s.ids true
    then (pushStep s k off h (some (I.k, lowest 8 I.sl)), .next)
    else ([.ids 1], .wait (.push off h s.ids 0))) s

/-- QPOP waits for a handle in the line of waiting pops (R278). -/
def execQpop (d : Nat) (a : SOp) (s : State) : Out :=
  queueWord false [d] a false (fun _ _ => none) (fun I off s =>
    let k := blockOf I.k
    if 0 < (s.queue k off).count && s.firstInLine k off s.ids false
    then (popStep s k off (some (I.k, lowest 8 I.sl)) ++ [.sreg I.k d (word (s.headHandle k off))], .next)
    else ([.ids 1], .wait (.pop off d s.ids 0))) s

/-- Whether a queue has room for a push and no push waits there (R279). -/
def State.pushRoom (s : State) (b off : Nat) : Bool :=
  decide ((s.queue b off).count < (s.queue b off).cap) && s.firstInLine b off s.ids true

/-- QTRYPUSH (R279): the push step, with its check of the epoch, only where there is room and no push waits. -/
def execQtrypush (d : Nat) (a b : SOp) (s : State) : Out :=
  queueWord true (d :: opRegs b) a true
    (fun I s => if s.pushRoom (blockOf I.k) (I.op a).toNat then some (I.op b).toNat else none) (fun I off s =>
    let k := blockOf I.k
    if s.pushRoom k off
    then (pushStep s k off (I.op b).toNat (some (I.k, lowest 8 I.sl)) ++ [.sreg I.k d 1], .next)
    else ([.sreg I.k d 0], .next)) s

/-- QTRYPOP (R279). -/
def execQtrypop (d : Nat) (a : SOp) (s : State) : Out :=
  queueWord true [d, d + 1] a false (fun _ _ => none) (fun I off s =>
    let k := blockOf I.k
    if 0 < (s.queue k off).count && s.firstInLine k off s.ids false
    then (popStep s k off (some (I.k, lowest 8 I.sl)) ++
      [.sreg I.k d (word (s.headHandle k off)), .sreg I.k (d + 1) 1], .next)
    else ([.sreg I.k d 0, .sreg I.k (d + 1) 0], .next)) s

/-- A guard slot of the block written (R272). -/
def setGuard (n : Nat) (v : Option Bool) (I : Issue) : List Effect :=
  let x := I.blk
  [.block (blockOf I.k) { x with guards := ((List.range 16).map fun i => x.guards.getD i none).set n v }]

/-- GSET and GCLR (R272). A true guard releases to the commands that wait on it (R273), so the warp's stores
come first. -/
def execGset (n : Nat) (b : SOp) (s : State) : Out :=
  issue (fun _ => { cls := .a, once := true, ss := opRegs b })
    (fun I => .ok (I.release [fun _ => setGuard n (some (decide (I.op b ≠ 0))) I] .next)) s
def execGclr (n : Nat) (s : State) : Out :=
  issue (fun _ => { cls := .a, once := true }) (fun I => .ok (setGuard n none I, .next)) s

end Sys2Proof.Machine
end

