-- ==== Sys2Proof/Machine/Copy.lean ====
section
/-! DEFINITION. Copy commands: their checks at issue (11 R261 to R268), the regions they move (R265 to R267,
12 R287, R288), and what the engine does when a command starts, pushes and completes (R269 to R273, R281, R283). -/
namespace Sys2Proof.Machine

/-- The fields of a copy descriptor (R264). -/
def dQoff (d : Nat) : Nat := bits d 255 242 * 64
def dBoff (d : Nat) : Nat := bits d 241 225 * 8
def dBen (d : Nat) : Bool := bit d 224
def dLayout (d : Nat) : Nat := bits d 223 221
def dEtype (d : Nat) : Nat := bits d 220 216
def dPitch2 (d : Nat) : Nat := bits d 215 192
def dCmask (d : Nat) : Nat := bits d 207 192
def dDim2 (d : Nat) : Nat := bits d 191 184
def dPitch1 (d : Nat) : Nat := bits d 183 160
def dMx (d : Nat) : Nat := bits d 159 158
def dEngq (d : Nat) : Nat := bits d 157 156
def dDim1 (d : Nat) : Nat := bits d 155 144
def dDim0 (d : Nat) : Nat := bits d 143 128
def dDst (d : Nat) : Nat := bits d 127 64
def dSrc (d : Nat) : Nat := bits d 63 0

/-- The command of an instruction word: 0 CPLD, 1 CPST, 2 CPMC, 3 CPGA, 4 CPSC, 5 CPFL, 6 CPRM, 7 CPPF (R263). -/
def copyKind (w : Nat) : Nat := bits w 31 24 - 0xD8
def copyPen (w : Nat) : Bool := bit w 18
def copyGuard (w : Nat) : Option Nat := if bit w 19 then some (bits w 23 20) else none

/-- The counter class of a command (R267): copy, gather or remote. -/
def copyClass (kind : Nat) : Nat := if kind = 3 ∨ kind = 4 then 1 else if kind = 6 then 2 else 0

/-- The bits of an element in memory (R265). -/
def copyBits (ty : Nat) : Nat := if elems ty = 1 then elemBits ty else 32

/-- The bytes of a row (R265). -/
def rowBytes (d : Nat) : Nat := if dMx d = 1 then dDim0 d / 32 else dDim0 d * copyBits (dEtype d) / 8

/-- The K of the shape whose operand has an element type (R266); 0 for a refused type. -/
def shapeK (ty : Nat) : Nat :=
  match ty with
  | 0x0A => 32
  | 0x0B => 32
  | 0x0E => 64
  | 0x0F => 64
  | 0 => 64
  | 4 => 64
  | 0x10 => 128
  | 0x11 => 128
  | 0x12 => 128
  | _ => 0

/-- The W of an operand (R287): registers of half a fragment. -/
def fragW (ty : Nat) : Nat := shapeK ty * copyBits ty / 32

/-- The bytes of the packed side: a fragment image under a layout, else the rows (R265, R266). -/
def packedBytes (d : Nat) : Nat :=
  if dLayout d = 0 then dDim2 d * dDim1 d * rowBytes d
  else if dMx d = 1 then 256 else 256 * fragW (dEtype d)

/-- Whether an element type is one of an MX tensor (R155). -/
def isMx (ty : Nat) : Bool := decide (0x0E ≤ ty) && decide (ty ≤ 0x12)

/-- The classes of a side (R267): 0 global, 1 own shared, 2 peer shared, 3 window, 4 another. -/
def sideClass (b ea : Nat) : Nat :=
  match bits ea 63 60 with
  | 8 => if bits ea 59 56 = b / 8 % 96 % 16 then 1 else 2
  | 9 => 3
  | 10 => 4
  | _ => 0

/-- The classes that a command admits for its source and its destination (R267). -/
def srcAdmits (kind cls : Nat) : Bool :=
  match kind with
  | 0 => decide (cls < 3)
  | 1 => cls == 1 || cls == 3
  | 4 => cls == 1
  | 6 => decide (cls < 2)
  | _ => cls == 0
def dstAdmits (kind cls : Nat) : Bool :=
  match kind with
  | 0 => decide (1 ≤ cls) && decide (cls ≤ 3)
  | 2 => cls == 1 || cls == 3
  | 3 => cls == 1
  | 5 => decide (cls < 4)
  | _ => cls == 0

/-- The descriptor checks of R268 step 2; both sides packed are refused (log entry 89). -/
def descBad (kind b d : Nat) : Bool :=
  let ty := dEtype d
  let src := sideClass b (dSrc d)
  let dst := sideClass b (dDst d)
  decide (2 < dLayout d) || decide (1 < dMx d) || decide (0x18 ≤ ty) || dDim0 d == 0 || dDim1 d == 0 || dDim2 d == 0
    || (dMx d == 0 && dDim0 d * copyBits ty % 8 != 0)
    || (dMx d == 1 && (!isMx ty || dDim0 d % 32 != 0))
    || (dLayout d != 0 && (!(kind == 0 || kind == 2 || kind == 5) || dDim1 d != 64 || dDim2 d != 1
        || shapeK ty == 0 || dDim0 d != shapeK ty || (kind != 5 && src != 0) || dst == 0))
    || (kind == 5 && dMx d == 1) || (kind == 6 && dst == 3)
    || ((kind == 3 || kind == 4) && dDim2 d != 1) || (kind == 7 && dDst d != 0)
    || (kind == 2 && (bits d 215 208 != 0 || dCmask d == 0))

/-- The check of one side's address (R268 steps 3 and 4): alignment, canonical form, class. -/
def sideBad (b ea align : Nat) (admits : Nat → Bool) (step : Nat) : Option Trap :=
  if step = 3 then (if ea % align ≠ 0 then some { code := 0x06, addr := ea } else none)
  else match generic ea with
    | .bad => some { code := 0x07, addr := ea }
    | _ => if admits (sideClass b ea) then none else some { code := 0x09, addr := ea }

/-- The bounds of a packed side (R268 step 5): its block's shared memory, or the window budget of its role. -/
def State.packedBad (s : State) (b ea n : Nat) : Bool :=
  match generic ea with
  | .shared rank off => match s.peer b rank with | none => true | some p => decide ((s.blk p).img.shblk < off + n)
  | .reg warp r l byte =>
    decide (36 ≤ warp) || decide (128 * ((s.blk b).img.roleOf warp).2.1 < 128 * r + 4 * l + byte + n)
  | _ => false

/-- A packed address as it stands at a rank of the cluster group (R281). -/
def atRank (ea r : Nat) : Nat := if bits ea 63 60 = 8 then ea - bits ea 59 56 * 2 ^ 56 + r * 2 ^ 56 else ea

/-- The checks of R268 from step 2 on, in order; in step 4 the source comes wholly first (log entry 89). -/
def State.copyBad (s : State) (kind b d : Nat) (pen : Bool) : Option Trap :=
  let hasSrc := kind != 5
  let hasDst := kind != 7
  let da := if dLayout d = 0 then 16 else 128
  let shblk := (s.blk b).img.shblk
  let ranks := if kind = 2 then setBits 16 (dCmask d) else []
  let at_ := fun (st : Nat) =>
    (if hasSrc then sideBad b (dSrc d) 16 (srcAdmits kind) st else none).or
      (if hasDst then sideBad b (dDst d) da (dstAdmits kind) st else none)
  if descBad kind b d then some { code := 0x01 }
  else match at_ 3 with
    | some t => some t
    | none =>
      if (kind = 3 || kind = 4) && dPitch2 d % 4 ≠ 0 then some { code := 0x06, addr := dPitch2 d }
      else match at_ 4 with
        | some t => some t
        | none =>
          if hasSrc && s.packedBad b (dSrc d) (packedBytes d) then some { code := 0x09, addr := dSrc d }
          else if hasDst && s.packedBad b (dDst d) (packedBytes d) then some { code := 0x09, addr := dDst d }
          else if (kind = 3 || kind = 4) && shblk < dPitch2 d + 4 * dDim1 d
          then some { code := 0x09, addr := apertureAddr b (dPitch2 d) }
          else if ranks.any fun r => match s.peer b r with
              | none => true
              | some p => s.packedBad p (atRank (dDst d) r) (packedBytes d)
          then some { code := 0x09, addr := dDst d }
          else if (pen && shblk < dQoff d + 64) || (dBen d && shblk < dBoff d + 8) then some { code := 0x09 }
          else none

/-- The descriptor that eight registers hold, s[A] lowest (R264). -/
def Issue.desc (I : Issue) (a : Nat) : Nat :=
  ((span 0 8).map fun i => (I.rs (a + i)).toNat * 2 ^ (32 * i)).foldl (· + ·) 0

/-- Whether an operation counted in a class must wait for its counter (R39). -/
def Issue.counterFull (I : Issue) (cls : Nat) : Bool := decide (255 ≤ I.c.counter cls)

/-- An operation counted in a class (R223), under the name it is given. -/
def count (k cls id : Nat) (s : State) : List Effect :=
  [.ctl k { s.ctl k with outs := (s.ctl k).outs ++ [{ cls, id, done := false }] }]

/-- A copy command's word (R263). -/
def copyWordOf (kind ks : Nat) (gen pen : Bool) (a : Nat) (b : SOp) : Nat :=
  pack [(24, 8, 0xD8 + kind), (20, 4, ks), (19, 1, if gen then 1 else 0), (18, 1, if pen then 1 else 0), (8, 8, a),
    (0, 8, b.code)]

/-- A copy command at issue (R262, R263, R268). -/
def copyCommand (kind ks : Nat) (gen pen : Bool) (a : Nat) (b : SOp) (s : State) : Out :=
  issue (fun _ => { cls := .c, once := true, ss := span a 8 ++ (if pen then opRegs b else []) })
    (fun I =>
      let d := I.desc a
      match I.s.copyBad kind (blockOf I.k) d pen with
      | some t => .error t
      | none =>
        if 64 ≤ I.s.copiesOn (coreOf I.k) then .ok ([], .wait .copies)
        else if I.counterFull (copyClass kind) then .ok ([], .wait (.full (copyClass kind) 1))
        else
          .ok (I.release [
            fun s => count I.k (copyClass kind) s.ids s ++
              [.copies (s.copies ++ [{ id := s.ids, k := I.k, wordv := copyWordOf kind ks gen pen a b, desc := d
                                       handle := if pen then (I.op b).toNat else 0, priv := I.c.priv, stage := 0
                                       seq := 0
                                       left := if kind = 2 then setBits 16 (dCmask d) else [] }]), .ids 1]]
            .next)) s

def execCpld (ks : Nat) (gen pen : Bool) (a : Nat) (b : SOp) (s : State) : Out := copyCommand 0 ks gen pen a b s
def execCpst (ks : Nat) (gen pen : Bool) (a : Nat) (b : SOp) (s : State) : Out := copyCommand 1 ks gen pen a b s
def execCpmc (ks : Nat) (gen pen : Bool) (a : Nat) (b : SOp) (s : State) : Out := copyCommand 2 ks gen pen a b s
def execCpga (ks : Nat) (gen pen : Bool) (a : Nat) (b : SOp) (s : State) : Out := copyCommand 3 ks gen pen a b s
def execCpsc (ks : Nat) (gen pen : Bool) (a : Nat) (b : SOp) (s : State) : Out := copyCommand 4 ks gen pen a b s
def execCpfl (ks : Nat) (gen pen : Bool) (a : Nat) (b : SOp) (s : State) : Out := copyCommand 5 ks gen pen a b s
def execCprm (ks : Nat) (gen pen : Bool) (a : Nat) (b : SOp) (s : State) : Out := copyCommand 6 ks gen pen a b s
def execCppf (ks : Nat) (gen pen : Bool) (a : Nat) (b : SOp) (s : State) : Out := copyCommand 7 ks gen pen a b s

end Sys2Proof.Machine
end

