-- ==== Sys2Proof/Machine/CopyEngine.lean ====
section
/-! DEFINITION. The copy engine at work: what a command moves when it starts, its pushes, its arrival and its
end (11 R265 to R273, R281, R283; 12 R287, R288). -/
namespace Sys2Proof.Machine

/-- The reader of engine accesses: a key that has no store queue. -/
def engineKey : Nat := 2 ^ 60

/-- Whether the domain of a warp's block is frozen on its die (R258). -/
def State.frozenAt (s : State) (k : Nat) : Bool :=
  let x := s.blk (blockOf k)
  s.frozen.any fun f => f.1 == x.ctx && f.2.1 == x.domain && f.2.2 == dieOf k

/-- A range cut where it crosses multiples of a unit; the first argument bounds the number of cuts. -/
def cutRange (unit : Nat) : Nat → Nat → Nat → List (Nat × Nat)
  | 0, _, _ => []
  | f + 1, va, n =>
    let m := unit - va % unit
    if n = 0 then [] else if n ≤ m then [(va, n)] else (va, m) :: cutRange unit f (va + m) (n - m)

/-- The rows of a region in order: plane, then row (R265). -/
def regionRows (d : Nat) : List (Nat × Nat) :=
  (span 0 (dDim2 d)).flatMap fun p => (span 0 (dDim1 d)).map fun r => (p, r)

/-- The indices of a gather or scatter (R267). -/
def State.indices (s : State) (b d : Nat) : List Nat := (span 0 (dDim1 d)).map fun r => shWord (s.sh b) (dPitch2 d + 4 * r)

/-- The ranges of one side in region order (R265, R267; a CPMC's plane pitch: log entry 89): rows of a strided side, cut at
pages, or the one range of a packed side. `idx` holds the indices of a gathered or scattered side. -/
def sideRanges (b kind d base : Nat) (idx : Option (List Nat)) : List (Nat × Nat) :=
  let unit := if kind = 6 then 256 else 4096
  if sideClass b base = 0 then
    (regionRows d).flatMap fun q =>
      let at_ := match idx with
        | some l => 16 * (l.getD q.2 0 * dPitch1 d)
        | none => 16 * (q.2 * dPitch1 d + q.1 * dPitch2 d)
      cutRange unit (rowBytes d / unit + 2) (base + at_) (rowBytes d)
  else [(base, packedBytes d)]

/-- The ranges a command reads, and those it writes at a base (R267). -/
def Copy.srcRanges (c : Copy) : List (Nat × Nat) :=
  let kind := copyKind c.wordv
  if kind = 5 then [] else sideRanges (blockOf c.k) kind c.desc (dSrc c.desc) (if kind = 3 then some c.idx else none)
def Copy.dstRanges (c : Copy) (base : Nat) : List (Nat × Nat) :=
  let kind := copyKind c.wordv
  if kind = 7 then [] else sideRanges (blockOf c.k) kind c.desc base (if kind = 4 then some c.idx else none)

/-- An engine access of a range for a command's issuer (R269, R271, R464), seen from a block of its cluster
group; only CPRM reaches another chip. -/
def State.engineAt (s : State) (c : Copy) (b i ea n : Nat) (write : Bool) :
    Except LaneFault (Place × List Effect) :=
  match generic ea with
  | .shared rank off =>
    match s.peer b rank with
    | some p => if off + n ≤ (s.blk p).img.shblk then .ok ({ sp := .shared p, off }, []) else .error protection
    | none => .error protection
  | .reg warp r l byte =>
    let k := Config.warpsPerBlock * b + warp
    let off := 128 * r + 4 * l + byte
    let view := match (s.ctl k).span with
      | some sp => write && (span off n).any fun a => a % 128 / 4 == sp.lane && decide (a / 128 < viewSize (s.ctl k))
      | none => false
    if warp < Config.warpsPerBlock && s.exists k && off + n ≤ 128 * (s.ctl k).vb && !view
    then .ok ({ sp := .reg k, off }, []) else .error protection
  | .virt va =>
    match s.virt (64 + i) (s.blk (blockOf c.k)).ctx va (if write then 1 else 0) (!c.priv) (coreOf c.k) with
    | .error e => if e.code = 0x14 && copyKind c.wordv ≠ 6 then .error protection else .error e
    | .ok (p, es) =>
      match p.sp with
      | .remote _ => if copyKind c.wordv = 6 then .ok (p, es) else .error protection
      | _ => .ok (p, es)
  | _ => .error protection

/-- A range of an engine access: its generic address, its place, its bytes. -/
structure Piece where
  ea : Nat
  p : Place
  n : Nat
  deriving DecidableEq, Repr

/-- The pieces of ranges, or the first address that fails. -/
def State.engineSide (s : State) (c : Copy) (b : Nat) (write : Bool) :
    Nat → List (Nat × Nat) → Except (Nat × LaneFault) (List Piece × List Effect)
  | _, [] => .ok ([], [])
  | i, (ea, n) :: t =>
    match s.engineAt c b i ea n write, s.engineSide c b write (i + 1) t with
    | .error e, _ => .error (ea, e)
    | _, .error e => .error e
    | .ok (p, es), .ok (ps, fs) => .ok (⟨ea, p, n⟩ :: ps, es ++ fs)

/-- The generic address of the first poisoned sector of a piece. -/
def State.spoiledAt (s : State) (x : Piece) : Option Nat :=
  ((cutRange 32 (x.n / 32 + 2) x.p.off x.n).find? fun q => s.placePoisoned { x.p with off := q.1 } q.2).map fun q =>
    (x.ea + (q.1 - x.p.off)) % 2 ^ 64

/-- The bytes of a place as an engine reads them; the management range reads zero (R13; log entry 79). -/
def State.engineRead (s : State) (p : Place × Nat) : List Byte :=
  if p.1.mgmt then List.replicate p.2 0 else s.readPlace engineKey p.1 p.2

/-- Bytes written at a place by an engine (R226, R269): a lane never launched discards its bytes (R177), and the
management range ignores them (log entry 79). -/
def enginePut (epoch : Nat) (p : Place) (bytes : List Byte) (s : State) : List Effect :=
  match p.sp with
  | .phys => if p.mgmt then [] else s.physWrite p.off bytes epoch none
  | .shared _ => [.store p.sp p.off bytes none]
  | .remote _ => []
  | .reg j =>
    let lanes := if (s.ctl j).role ≠ 0 then 32 else (s.blk (blockOf j)).img.lanes (warpNo j)
    chain s [
      fun _ => if lanes = 32 then [.store p.sp p.off bytes none]
        else (cutRange 4 (bytes.length / 4 + 2) p.off bytes.length).filterMap fun q =>
          if q.1 % 128 / 4 < lanes then some (.store p.sp q.1 ((bytes.drop (q.1 - p.off)).take q.2) none) else none,
      mirror j]

/-- Writes of bytes from a place on in units that lie in an aligned 4 bytes each (R269); the first argument bounds their
number. -/
def unitsAt (sp : Space) : Nat → Nat → List Byte → List (Space × Nat × List Byte)
  | 0, _, _ => []
  | f + 1, off, bytes =>
    if bytes.isEmpty then []
    else (sp, off, bytes.take (4 - off % 4)) :: unitsAt sp f (off + (4 - off % 4)) (bytes.drop (4 - off % 4))

/-- The writes of bytes at a place: none in the management range (R13; log entry 79). -/
def Place.units (p : Place) (bytes : List Byte) : List (Space × Nat × List Byte) :=
  if p.mgmt then [] else unitsAt p.sp bytes.length p.off bytes

/-- The writes of bytes dealt to places in order. -/
def dealUnits : List (Place × Nat) → List Byte → List (Space × Nat × List Byte)
  | [], _ => []
  | (p, n) :: t, bytes => p.units (bytes.take n) ++ dealUnits t (bytes.drop n)

/-- Bytes dealt to places in order. -/
def dealBytes (epoch : Nat) : List (Place × Nat) → List Byte → List (State → List Effect)
  | [], _ => []
  | (p, n) :: t, bytes => enginePut epoch p (bytes.take n) :: dealBytes epoch t (bytes.drop n)

/-- The bytes of a fill (R267): every element of every row holds the pattern. -/
def fillBytes (d : Nat) : List Byte :=
  let z := copyBits (dEtype d)
  let row := leBytes (rowBytes d)
    (((span 0 (dDim0 d)).map fun i => dSrc d % 2 ^ z * 2 ^ (z * i)).foldl (· + ·) 0)
  (List.replicate (dDim1 d * dDim2 d) row).flatten

/-- The fragment image of 64 rows (R287), or of their scales (R288). -/
def fragImage (d : Nat) (bytes : List Byte) : List Byte :=
  let a := bytes.toArray
  let w := fragW (dEtype d)
  if dMx d = 1 then
    (span 0 256).map fun o =>
      let m := o / 128 * 32 + o % 128 / 4
      if o % 4 < rowBytes d then a.getD (m * rowBytes d + o % 4) 0 else 0
  else
    (span 0 (256 * w)).map fun o =>
      let r := o / 128
      let m := r / w * 32 + o % 128 / 4
      a.getD (m * (4 * w) + 4 * (r % w) + o % 4) 0

/-- The bytes on the packed side of a command from those it read (R266). -/
def arrange (d : Nat) (bytes : List Byte) : List Byte := if dLayout d = 0 then bytes else fragImage d bytes

/-- The rest of a piece after its first m bytes, before other pieces. -/
def Piece.after (x : Piece) (m : Nat) (l : List Piece) : List Piece :=
  if x.n = m then l else ⟨x.ea + m, { x.p with off := x.p.off + m }, x.n - m⟩ :: l

/-- Two lists of pieces cut to common lengths. -/
def zipPieces : Nat → List Piece → List Piece → List (Piece × Piece × Nat)
  | 0, _, _ => []
  | _, [], _ => []
  | _, _, [] => []
  | f + 1, x :: xs, y :: ys =>
    let m := min x.n y.n
    (x, y, m) :: zipPieces f (x.after m xs) (y.after m ys)

/-- The other chip that a place lies on. -/
def Place.chip (p : Place) : Option Nat := match p.sp with | .remote c => some c | _ => none

/-- A copy command changed, by its name. -/
def onCopy (id : Nat) (f : Copy → Copy) (s : State) : List Effect :=
  [.copies (s.copies.map fun y => if y.id = id then f y else y)]

/-- One piece of a CPRM (R267): to be written here, or a request to another chip, to be sent. -/
def remotePiece (c : Copy) (x : Piece × Piece × Nat) (s : State) : List Effect :=
  let later := fun (q : Send) => onCopy c.id (fun y => { y with sends := y.sends ++ [q] }) s
  let dest := match x.2.1.p.chip with | some chip => (chip + 1, x.2.1.p.off, x.2.1.ea) | none => (0, x.2.1.p.off, x.2.1.ea)
  match x.1.p.chip, x.2.1.p.chip with
  | some chip, _ => later ⟨chip, x.1.p.off, x.2.2, x.1.ea, [], some dest⟩
  | none, some chip => later ⟨chip, x.2.1.p.off, x.2.2, x.2.1.ea, s.engineRead (x.1.p, x.2.2), none⟩
  | none, none =>
    onCopy c.id (fun y => { y with lands := y.lands ++ x.2.1.p.units (s.engineRead (x.1.p, x.2.2)) }) s

/-- A request that an engine operation sends to another chip: kind 4 reads, kind 5 writes (R336). -/
def sendEngine (c : Copy) (q : Send) (s : State) : List Effect :=
  sendReq s
    { id := 0, k := c.k, sl := 8, kind := if q.dest.isSome then 4 else 5, pa := q.chip * 2 ^ 43 + q.off, size := q.n
      lanes := 1, plane := 0, op := 0, dest := q.dest.toList, ty := 0, copy := c.id, eas := [(0, q.ea)] }
    q.chip (q.bytes.map BitVec.toNat)

/-- A command's record replaced, or gone. -/
def setCopy (s : State) (c : Copy) : Effect := .copies (s.copies.map fun x => if x.id = c.id then c else x)
def dropCopy (s : State) (c : Copy) : List Effect :=
  [.copies (s.copies.filter fun x => x.id ≠ c.id), .ctl c.k ((s.ctl c.k).complete c.id)]

/-- The copy extension of R271. -/
def engineExt (desc wordv handle addr code stage : Nat) : Nat :=
  pack [(512, 256, desc), (480, 32, wordv), (448, 32, handle), (384, 64, addr), (376, 8, code), (368, 8, stage)]
def copyExt (c : Copy) (addr code stage : Nat) : Nat := engineExt c.desc c.wordv c.handle addr code stage

/-- The trap of an engine access's fault, in the lowest of a warp's unexited lanes (R271), with the copy extension, or for a
remote-error that of R336 (log entry 24). -/
def engineTrap (lanes write addr : Nat) (e : LaneFault) (ext : Nat) : Trap :=
  let lane := lowest 32 lanes
  let far := e.code == 0x14
  { code := e.code, addr, lmask := if lane < 32 then 2 ^ lane else 0, copyOp := true
    first := e.cause == 1 && lane < 32, hm0 := if e.cause = 1 && lane < 32 then 2 ^ lane else 0
    xt := if e.cause = 0 then 0 else xtArea (4 + write) [(0, addr, e)]
    extk := if far then 4 else 2
    ext := if far then remoteExt e.rpa 1 e.plane e.rcause (4 + write) else ext }
def copyTrap (s : State) (c : Copy) (stage write addr : Nat) (e : LaneFault) : Trap :=
  engineTrap ((s.warp c.k).readM 14).toNat write addr e (copyExt c addr e.code stage)

/-- The slice that takes a trap raised for an engine operation: the lowest that holds an unexited lane. -/
def engineSlice (s : State) (k : Nat) : Nat := lowest 8 (liveSlices (s.warp k)) % 8

/-- A command that meets a fault (R271): it stops at a first-touch page, else it fails. -/
def copyFault (c : Copy) (write addr : Nat) (e : LaneFault) (s : State) : List Effect :=
  let t := copyTrap s c 0 write addr e
  if t.first then setCopy s { c with stage := 3 } :: deferTrap s c.k (engineSlice s c.k) t
  else chain s [fun s => dropCopy s c, fun s => deferTrap s c.k (engineSlice s c.k) t]

/-- The commands of the same engine queue issued before one. -/
def State.before (s : State) (c : Copy) : List Copy :=
  s.copies.filter fun x => blockOf x.k == blockOf c.k && dEngq x.desc == dEngq c.desc && decide (x.id < c.id)

/-- Whether a place cannot take a write now: its warp is being saved (R177), or the write must wait (R207, R410, R411). -/
def State.placeWaits (s : State) (epoch : Nat) (p : Place) : Bool :=
  match p.sp with
  | .reg j => (s.ctl j).st == .parking
  | .phys => !p.mgmt && s.writeWaits p.off epoch
  | _ => false

/-- The destinations of a command: its block, or the blocks at the ranks of CMASK (R281), with the address as it
stands there. -/
def State.copyDests (s : State) (c : Copy) : List (Nat × Nat) :=
  let b := blockOf c.k
  if copyKind c.wordv = 2 then
    (setBits 16 (dCmask c.desc)).filterMap fun r => (s.peer b r).map fun p => (p, atRank (dDst c.desc) r)
  else [(b, dDst c.desc)]

/-- Whether a window that a command reads from is being saved (R177, R269). -/
def State.sourceWaits (s : State) (x : Piece) : Bool := match x.p.sp with | .reg j => (s.ctl j).st == .parking | _ => false

/-- The accesses of a command that has started: every one is checked first; then it reads, and its writes are to take place in
no fixed order (R265 to R269). -/
def copyMove (c : Copy) (s : State) : List Effect :=
  let kind := copyKind c.wordv
  let b := blockOf c.k
  let d := c.desc
  match s.engineSide c b false 0 c.srcRanges with
  | .error (a, e) => copyFault c 0 a e s
  | .ok (ps, es) =>
    match (s.copyDests c).mapM fun x => s.engineSide c x.1 true 4096 (c.dstRanges x.2) with
    | .error (a, e) => copyFault c 1 a e s
    | .ok qs =>
      let walks := es ++ qs.flatMap Prod.snd
      match if kind = 7 then none else ps.findSome? s.spoiledAt with
      | some a => walks ++ copyFault c 0 a { code := 0x12 } (applyAll walks s)
      | none =>
        if ps.any s.sourceWaits then []
        else if kind = 6 then
          let to_ := qs.flatMap Prod.fst
          chain s ([fun _ => walks, fun s => [setCopy s { c with stage := 1 }]] ++
            (zipPieces (ps.length + to_.length) ps to_).map (remotePiece c))
        else
          let data := arrange d (if kind = 5 then fillBytes d else ps.flatMap fun x => s.engineRead (x.p, x.n))
          walks ++ [setCopy s { c with
            stage := 1, lands := qs.flatMap fun q => dealUnits (q.1.map fun x => (x.p, x.n)) data }]

/-- A command sends its next request to another chip, unless the plane set changes or the fabric budget is spent (R333,
R387). -/
def copySend (c : Copy) (s : State) : List Effect :=
  match c.sends with
  | q :: rest => if s.maySend c.k then chain s [fun s => [setCopy s { c with sends := rest }], sendEngine c q] else []
  | [] => []

/-- A command at the head of its engine queue starts (R261, R267, R273, R283): its guard decides by the first value it is
found to have, its meters must allow, its indices are read, its bytes are charged. -/
def copyBegin (c : Copy) (s : State) : List Effect :=
  let x := s.blk (blockOf c.k)
  let die := dieOf c.k
  let g := match copyGuard c.wordv with | none => some true | some n => c.gate.or (x.guards.getD n none)
  match g with
  | none => []
  | some false => [setCopy s { c with stage := 5, gate := g }]
  | some true =>
    if !s.meterOk 0 die x.ctx x.path then (if c.gate = g then [] else [setCopy s { c with gate := g }])
    else
      let kind := copyKind c.wordv
      [.dist (s.charge 0 die x.ctx (dDim2 c.desc * dDim1 c.desc * rowBytes c.desc) x.path),
       setCopy s { c with stage := 6, gate := g
                          idx := if kind = 3 || kind = 4 then s.indices (blockOf c.k) c.desc else [] }]

/-- COPY_START (R261, R273, R283): a command at the head of its engine queue starts; one that has started makes its
accesses, or after a first-touch page resumes them once the handler has returned (R271), and sends its requests. -/
def execCopyStart (id : Nat) (s : State) : Out :=
  match s.copies.find? fun c => c.id == id with
  | none => commit s []
  | some c =>
    if c.stage = 3 then
      let w := s.ctl c.k
      if w.priv || w.trap.isSome || w.slices.any fun y => y.defer.any Trap.copyOp then commit s []
      else commit s (copyMove c s)
    else if c.stage = 6 then commit s (copyMove c s)
    else if c.stage = 1 then commit s (copySend c s)
    else if c.stage ≠ 0 || (s.before c).any (fun y => y.stage == 0) || s.frozenAt c.k then commit s []
    else commit s (copyBegin c s)

/-- Whether a command's accesses are all performed: its requests to other chips sent and answered. -/
def State.landed (s : State) (c : Copy) : Bool :=
  c.sends.isEmpty && s.fab.reqs.all fun r => r.copy != c.id || !(r.kind == 4 || r.kind == 5)

/-- One of a command's writes takes place (R226, R269). -/
def landUnit (epoch : Nat) (x : Space × Nat × List Byte) : State → List Effect := enginePut epoch { sp := x.1, off := x.2.1 } x.2.2

/-- The writes of a command that must wait now: for a window being saved (R177), for a pinned page or a vault (R410, R411). -/
def State.heldUnits (s : State) (c : Copy) : List (Space × Nat × List Byte) :=
  c.lands.filter fun x => s.placeWaits (s.epochOf c.k) { sp := x.1, off := x.2.1 }

/-- A command whose writes are all to take place: those that remain do; or where some must wait, their pages are pinned
(R410), and nothing follows. -/
def finishLanding (c : Copy) (rest : List (State → List Effect)) (s : State) : List Effect :=
  let held := s.heldUnits c
  if held.isEmpty then
    chain s (c.lands.map (landUnit (s.epochOf c.k)) ++ onCopy c.id (fun y => { y with lands := [] }) :: rest)
  else chain s ((held.filter fun x => x.1 == .phys).map fun x => fun s => pinPage s x.2.1 (s.epochOf c.k))

/-- Whether every earlier command of a command's queue has completed, been discarded or failed (R269). -/
def State.turnOf (s : State) (c : Copy) : Bool := (s.before c).all fun y => y.stage == 5

/-- One push-on-land (R270, R281) into a block; a refused handle is discarded and its trap deferred. -/
def landPush (c : Copy) (p : Nat) (s : State) : Option (List Effect) :=
  let off := dQoff c.desc
  match qFault (s.sh p) (s.blk p).img.shblk off (some c.handle) with
  | 0 =>
    if (s.queue p off).count < (s.queue p off).cap
        && s.firstInLine p off (if c.stage = 2 then c.seq else s.ids) true
    then some (pushStep s p off c.handle none) else none
  | code =>
    let t := { copyTrap s c 1 0 (apertureAddr p off) { code } with lmask := 0 }
    some (deferTrap s c.k (engineSlice s c.k) t)

/-- PUSH_ON_LAND (R269, R270): the command's writes have taken place, and the engine pushes the handle, or waits in the line
of pushes for room. -/
def execPushOnLand (id : Nat) (s : State) : Out :=
  match s.copies.find? fun c => c.id == id with
  | none => commit s []
  | some c =>
    if !copyPen c.wordv || !(c.stage == 1 || c.stage == 2) || !s.landed c || !s.turnOf c then commit s []
    else
      commit s (finishLanding c [fun s =>
        match landPush c (s.pushBlock c) s with
        | none => if c.stage = 2 then [] else [setCopy s { c with lands := [], stage := 2, seq := s.ids }, .ids 1]
        | some es =>
          let left := c.left.drop 1
          es ++ [setCopy s { c with lands := [], left, stage := if left.isEmpty then 4 else 1 }]] s)

/-- A trap of an engine's arrival (R252): raised at once in a warp that is parked, else at its next clause boundary. -/
def arrivalTrap (s : State) (k : Nat) (t : Trap) : List Effect :=
  let j := engineSlice s k
  if (s.ctl k).st = .parkedWaiting ∨ (s.ctl k).st = .parkedReady then raise s k (boundaryTrap s k (2 ^ j) t)
  else deferTrap s k j t

/-- An engine's arrival on an asynchronous barrier of a block (R252): on a malformed object queue-misuse in the issuing
warp. -/
def engineArrive (k b off extk ext : Nat) (s : State) : List Effect :=
  let x := ofBytes ((s.sh b).bytes off 8)
  if abBad x then
    arrivalTrap s k { code := 0x0C, addr := apertureAddr b off, copyOp := true, extk, ext }
  else [.store (.shared b) off (leBytes 8 (abArrive x 1)) none]

/-- The completion of a command (R269): the barrier arrival, then the counter. -/
def copyDone (c : Copy) : List (State → List Effect) :=
  [fun s => chain s ((if dBen c.desc then s.copyDests c else []).map fun x =>
      engineArrive c.k x.1 (dBoff c.desc) 2 (copyExt c (apertureAddr x.1 (dBoff c.desc)) 0x0C 2)),
   fun s => dropCopy s c]

/-- COPY_COMPLETE (R269, R273): the command's writes have taken place, the barrier arrival in the command's turn, then the
counter; a discarded command arrives too. -/
def execCopyComplete (id : Nat) (s : State) : Out :=
  match s.copies.find? fun c => c.id == id with
  | none => commit s []
  | some c =>
    if !(c.stage == 4 || c.stage == 5 || (c.stage == 1 && !copyPen c.wordv)) || !s.landed c || (dBen c.desc && !s.turnOf c)
    then commit s []
    else commit s (finishLanding c (copyDone c) s)

/-- METER_PERIOD (R283, R387): each bounded count falls by its budget, to no less than 0. -/
def execMeterPeriod (die ctx rcb : Nat) (s : State) : Out :=
  let l := s.rcb ctx rcb
  let fall := fun (n which : Nat) => if bounds 64 (rcbBytes l which) then n - rcbBytes l which else n
  commit s [.dist { s.dist with meters := s.dist.meters.map fun m =>
    if m.die = die ∧ m.ctx = ctx ∧ m.rcb = rcb
    then { m with copy := fall m.copy 0, fab := fall m.fab 1, coll := fall m.coll 2 } else m }]

end Sys2Proof.Machine
end

