-- ==== Sys2Proof/Machine/Matrix.lean ====
section
/-! DEFINITION. The matrix array, MREL, and the epilogue's access to acc tiles (12 R285 to R304). -/
namespace Sys2Proof.Machine

/-- The element type of B under a TYPE and BT, where R290 admits the pair. -/
def mmaTypeB (mx : Bool) (ty bt : Nat) : Option Nat :=
  let same := decide (bt = 0)
  let eight := decide (bt = 1 ∨ bt = 2)
  let small := decide (3 ≤ bt) && decide (bt ≤ 5)
  let e8 := ty == 0x0E || ty == 0x0F
  let ok := if mx then (e8 && (same || eight)) || ((ty == 0x10 || ty == 0x11 || ty == 0x12) && (same || small))
    else ((ty == tyBf16 || ty == tyF16 || ty == 0) && same) || (e8 && (same || eight))
  if ok then some (if same then ty else 0x0D + bt) else none

/-- The registers of an operand: its fragment, and the scale fragment of MMAX (R287, R288). -/
def operandRegs (mx : Bool) (ty : Nat) : Nat := 2 * fragW ty + (if mx then 2 else 0)

/-- Whether two operations act on one tile. -/
def Mat.sameTile (x y : Mat) : Bool := blockOf x.k == blockOf y.k && x.tile == y.tile

/-- The operations of a chain that issued before one (R293). -/
def State.chainBefore (s : State) (x : Mat) : List Mat :=
  s.mats.filter fun m => m.kind != 2 && m.sameTile x && decide (m.id < x.id)

/-- The operations that have started on the matrix array of a core and not completed (R285): a suspended one has released it
(R295). -/
def State.arrayHeld (s : State) (core : Nat) : List Mat :=
  s.mats.filter fun m => coreOf m.k == core && m.kind != 2 && m.started && !m.suspended

/-- With those that are about to start: an operation behind a suspended one of its chain is not (R285, R295). -/
def State.arrayOps (s : State) (core : Nat) : List Mat :=
  s.mats.filter fun m => coreOf m.k == core && m.kind != 2 && !m.suspended
    && (m.started || !(s.chainBefore m).any Mat.suspended)

/-- Whether the array of a core can start an operation on a tile of a block (R285): it holds fewer than four, and no operation
of the tile's chain is suspended. -/
def State.arrayStarts (s : State) (core b tile : Nat) : Bool :=
  decide ((s.arrayOps core).length < 4) && !s.mats.any fun m => m.kind != 2 && m.suspended && blockOf m.k == b && m.tile == tile

/-- MMA and MMAX at issue (R289, R290, R293): counted, bound to SETB, a release at block scope, once the array can start it
(R285). -/
def matrixOp (mx : Bool) (bt : Nat) (za : Bool) (tile a b : Nat) (s : State) : Out :=
  issue (fun I =>
      match mmaTypeB mx I.ty bt with
      | none => { cls := .m, legal := false, once := true }
      | some tb => { cls := .m, once := true, tiles := [tile]
                     vs := span a (operandRegs mx I.ty) ++ span b (operandRegs mx tb) })
    (fun I =>
      if !I.s.arrayStarts (coreOf I.k) (blockOf I.k) tile then .ok ([], .again)
      else if I.counterFull 5 then .ok ([], .wait (.full 5 1))
      else
        .ok (I.release [
          fun s => count I.k 5 s.ids s,
          fun s => [.mats (s.mats ++ [{
            id := s.ids, k := I.k, kind := if mx then 1 else 0, tile, ty := I.ty, bt := (mmaTypeB mx I.ty bt).getD 0
            za, a, b, off := 0, handle := 0, started := false, opA := [], opB := [], shadow := [], shadowPoison := []
            result := [], replayed := false, failed := false }])],
          fun s => bindOp s I.k I.sl I.setb [] [] true] .next)) s

def execMma (bt : Nat) (za : Bool) (tile a b : Nat) (s : State) : Out := matrixOp false bt za tile a b s
def execMmax (bt : Nat) (za : Bool) (tile a b : Nat) (s : State) : Out := matrixOp true bt za tile a b s

/-- The lane string of R287 in captured registers, word 32 r + l. -/
def laneString (ops : List Word) (na l : Nat) : Nat :=
  ((span 0 na).map fun r => (ops.getD (32 * r + l) 0).toNat * 2 ^ (32 * r)).foldl (· + ·) 0

/-- Element k of a row of A, or of a column of B (R287). -/
def fragElem (ops : List Word) (ty row k : Nat) : Val :=
  let w := fragW ty
  let z := copyBits ty
  valOf ty false (laneString ops (2 * w) (row % 32) / 2 ^ (row / 32 * 32 * w + k * z) % 2 ^ z)

/-- The scale code of block j of a row (R288). -/
def fragScale (ops : List Word) (ty row j : Nat) : Nat :=
  (ops.getD (32 * (2 * fragW ty + row / 32) + row % 32) 0).toNat / 2 ^ (8 * j) % 256

/-- One element of the result (R291, R292): groups in ascending order, each sum exact before its rounding. -/
def mmaCell (x : Mat) (m n c : Nat) : Nat :=
  let g := if shapeK x.ty = 32 then 16 else 32
  (span 0 (shapeK x.ty / g)).foldl (fun c j =>
    let sum := Val.sum false ((span (g * j) g).map fun k => Val.mul (fragElem x.opA x.ty m k) (fragElem x.opB x.bt n k))
    let sum := if x.kind = 1
      then Val.mul (Val.mul sum (valE8m0 (fragScale x.opA x.ty m j))) (valE8m0 (fragScale x.opB x.bt n j)) else sum
    add32 c (round32 sum)) c

/-- The result of an operation whose operands and C are captured; a poisoned element of C keeps what it holds. -/
def mmaResult (x : Mat) : Sparse 32 :=
  (span 0 4096).filterMap fun i =>
    let c := x.shadow.get i
    let w := if !x.za && x.shadowPoison.contains i then c
      else word (mmaCell x (i / 64) (i % 64) (if x.za then 0 else c.toNat))
    if w = 0 then none else some (i, w)

/-- The poisoned elements that an operation leaves (R296). -/
def Mat.poisonOut (x : Mat) : List Nat := if x.za then [] else x.shadowPoison

/-- A matrix operation's record replaced. -/
def setMat (s : State) (x : Mat) : Effect := .mats (s.mats.map fun m => if m.id = x.id then x else m)

/-- A matrix operation leaves the array: its flag and its counter follow (R72, R224). -/
def dropMat (s : State) (x : Mat) : List Effect :=
  let c := (s.ctl x.k).complete x.id
  [.mats (s.mats.filter fun m => m.id ≠ x.id), .ctl x.k { c with flagOps := c.flagOps.filter fun o => o.id ≠ x.id }]

/-- Uncorrectable-error for the warp of a matrix operation at its next clause boundary (R296). -/
def matError (x : Mat) (s : State) : List Effect := deferTrap s x.k (engineSlice s x.k) { code := 0x12 }

/-- The values in flight to the elements of a block's tiles, as a warp meets them (R75, R304): its own, which its reads
take in program order, and those of others. -/
def State.tileWrites (s : State) (k b : Nat) (mine : Bool) : List (Nat × Word) :=
  (s.warps.filter fun p => blockOf p.1 == b && (p.1 == k) == mine).flatMap fun p => p.2.ctl.flagOps.flatMap fun o =>
    o.writes.filterMap fun | .t i w => some (i, w) | _ => none

/-- The values on their way to an element of a tile (R304 items 2 and 4): results, and the +0 with which an operation with ZA
begins its sum (R293, R436). -/
def State.matWrites (s : State) (b i : Nat) : List Word :=
  (s.mats.filter fun m => m.kind != 2 && m.started && blockOf m.k == b && m.tile == i / 4096).flatMap fun m =>
    m.result.get (i % 4096) :: (if m.za then [0] else [])

/-- An element of a block's tiles as a warp reads it: what it holds, with the warp's own writes in place; or freely the
value of a write in flight that nothing orders (R304). -/
def State.readAcc (s : State) (k b i : Nat) : Word :=
  let own := ((s.tileWrites k b true).filter fun p => p.1 == i).getLast?.map Prod.snd
  let held := own.getD ((s.acc b).get i)
  let racing := ((s.tileWrites k b false).filter fun p => p.1 == i).map Prod.snd ++ s.matWrites b i
  (held :: racing).getD (s.pick (700000 + i) (racing.length + 1)) held

/-- Whether an element is poisoned as a warp reads it: not where a write of its own is on its way. -/
def State.accPoisoned (s : State) (k b i : Nat) : Bool :=
  s.tilePoison.contains (b, i) && !(s.tileWrites k b true).any fun p => p.1 == i

/-- The start of an operation (R293): C comes from the operation before in the chain, or from the tile, and the operand
registers are read once. -/
def Mat.begin (x : Mat) (s : State) : Mat :=
  let before := s.chainBefore x
  let b := blockOf x.k
  let regs := fun (f ty : Nat) => (span 0 (operandRegs (x.kind == 1) ty)).flatMap fun r =>
    (span 0 32).map fun l => s.readV x.k (f + r) l
  let racing := (s.tileWrites x.k b false).filter fun p => p.1 / 4096 == x.tile
  let tile : Sparse 32 := (span 0 4096).filterMap fun i =>
    let w := if racing.isEmpty then (s.acc b).get (4096 * x.tile + i) else s.readAcc x.k b (4096 * x.tile + i)
    if w = 0 then none else some (i, w)
  let poison := (span 0 4096).filter fun i => s.tilePoison.contains (b, 4096 * x.tile + i)
  { x with
    started := true, opA := regs x.a x.ty, opB := regs x.b x.bt
    shadow := (before.getLast?.map Mat.result).getD tile
    shadowPoison := (before.getLast?.map Mat.poisonOut).getD poison
    failed := x.failed || before.any Mat.failed }

/-- MMA_START (R293): operations on one tile start in the order of issue. A suspended operation restarts from its operand
buffer, in chain order (R295); the array holds at most four (R285). -/
def execMmaStart (id : Nat) (s : State) : Out :=
  match s.mats.find? fun m => m.id == id && m.kind != 2 && (!m.started || m.suspended) with
  | none => commit s []
  | some x =>
    if (s.chainBefore x).any (fun m => !m.started || m.suspended) || 4 ≤ (s.arrayHeld (coreOf x.k)).length then commit s []
    else if x.suspended then commit s [setMat s { x with suspended := false }]
    else
      let y := x.begin s
      let z : Mat := { y with result := if y.failed then y.shadow else mmaResult y }
      commit s (chain s [
        fun s => [setMat s z],
        fun s => if !z.za && !z.shadowPoison.isEmpty && !z.failed then matError z s else []])

/-- A tile written from 4096 values; the listed elements are then poisoned. -/
def writeTile (b t : Nat) (vals : Sparse 32) (poison : List Nat) : List Effect :=
  (span 0 4096).map (fun i => .tile b (4096 * t + i) (vals.get i)) ++
    poison.map fun i => .tilePoison b (4096 * t + i) true

/-- MMA_COMPLETE (R293 step 3): the tile takes the result, in chain order; poisoned elements stay so, and a failed
operation leaves the whole tile restored and poisoned (R296). -/
def execMmaComplete (id : Nat) (s : State) : Out :=
  match s.mats.find? fun m => m.id == id && m.kind != 2 && m.started && !m.suspended with
  | none => commit s []
  | some x =>
    if !(s.chainBefore x).isEmpty then commit s []
    else
      commit s (chain s [
        fun _ => writeTile (blockOf x.k) x.tile (if x.failed then x.shadow else x.result)
          (if x.failed then span 0 4096 else x.poisonOut),
        fun s => dropMat s x])

/-- An operation fails (R296): the tile is restored and poisoned, the later ones of its chain share the failure, and so do
the MRELs that await them. -/
def failMat (x : Mat) (s : State) : List Effect :=
  chain s [
    fun s => if (s.chainBefore x).isEmpty then writeTile (blockOf x.k) x.tile x.shadow (span 0 4096) else [],
    fun s => [.mats (s.mats.map fun m =>
      if m.sameTile x && decide (x.id ≤ m.id) then { m with failed := true } else m)],
    matError x]

/-- MMA_REPLAY (R293, R294, R296): the first time the tile is rewritten from the shadow and the operation runs again
from its operand buffer, to the same bits; a second time is a failure, as is a second error of the capture, with which an
operation starts. -/
def execMmaReplay (id : Nat) (s : State) : Out :=
  match s.mats.find? fun m => m.id == id && m.kind != 2 && !m.failed && !m.suspended with
  | none => commit s []
  | some x =>
    if !x.started then
      if (s.chainBefore x).any (fun m => !m.started || m.suspended) || 4 ≤ (s.arrayHeld (coreOf x.k)).length then commit s []
      else
        let y := x.begin s
        let z : Mat := { y with result := y.shadow }
        commit s (chain s [fun s => [setMat s z], failMat z])
    else if !x.replayed then
      commit s ((if (s.chainBefore x).isEmpty then writeTile (blockOf x.k) x.tile x.shadow x.shadowPoison else []) ++
        [setMat s { x with replayed := true }])
    else commit s (failMat x s)

/-- A started operation of a diverted warp is suspended, and the later ones of its chain that have started with it (R295):
the tile is restored as for a replay, which it counts as, and they release the array, to run again from their operand
buffers. -/
def suspendMat (x : Mat) (s : State) : List Effect :=
  (if (s.chainBefore x).isEmpty then writeTile (blockOf x.k) x.tile x.shadow x.shadowPoison else []) ++
    [.mats (s.mats.map fun m =>
      if m.id = x.id then { m with replayed := true, suspended := true }
      else if m.kind != 2 && m.sameTile x && m.started && decide (x.id < m.id) then { m with suspended := true } else m)]

/-- The operations that a warp's diversion suspends (R295): freely any that have started and not replayed. -/
def suspendMats (k : Nat) (s : State) : List Effect :=
  let xs := s.mats.filter fun m => m.k == k && m.kind != 2 && m.started && !m.replayed && !m.failed && !m.suspended
  chain s ((xs.zipIdx.filter fun p => s.pick (20100 + p.2) 2 == 1).map fun p => suspendMat p.1)

/-- MREL at issue (R297): counted, bound to SETB, and never a stall for the push. -/
def execMrel (tile : Nat) (a h : SOp) (s : State) : Out :=
  issue (fun _ => { cls := .m, once := true, tiles := [tile], ss := opRegs a ++ opRegs h })
    (fun I =>
      let off := (I.op a).toNat
      let at_ := apertureAddr (blockOf I.k) off
      if off % 64 ≠ 0 then .error { code := 0x06, addr := at_ }
      else if I.blk.img.shblk < off + 64 then .error { code := 0x09, addr := at_ }
      else if I.counterFull 5 then .ok ([], .wait (.full 5 1))
      else
        .ok (chain I.s [
          fun s => count I.k 5 s.ids s,
          fun s => [.mats (s.mats ++ [{
            id := s.ids, k := I.k, kind := 2, tile, ty := 0, bt := 0, za := false, a := 0, b := 0, off
            handle := (I.op h).toNat, started := false, opA := [], opB := [], shadow := [], shadowPoison := []
            result := [], replayed := false
            failed := I.s.mats.any fun m =>
              m.kind != 2 && m.failed && blockOf m.k == blockOf I.k && m.tile == tile }])],
          fun s => bindOp s I.k I.sl I.setb [] [] true], .next)) s

/-- MREL_PUSH (R297, R298): once every earlier operation on the tile has completed, and the warp's earlier loads and
operand captures, its stores become visible and the handle is pushed in the queue's line; a refused handle is discarded and
its trap deferred. -/
def execMrelPush (id : Nat) (s : State) : Out :=
  match s.mats.find? fun m => m.id == id && m.kind == 2 with
  | none => commit s []
  | some x =>
    let b := blockOf x.k
    if !(s.chainBefore x).isEmpty then commit s []
    else if x.failed then commit s (dropMat s x)
    else if !s.drainable x.k || (s.ctl x.k).farPending
        || s.mats.any (fun m => m.k == x.k && m.kind != 2 && !m.started && decide (m.id < x.id)) then commit s []
    else
      let pre := drainAll s x.k
      let s1 := applyAll pre s
      match qFault (s1.sh b) (s1.blk b).img.shblk x.off (some x.handle) with
      | 0 =>
        if (s1.queue b x.off).count < (s1.queue b x.off).cap
            && s1.firstInLine b x.off (if x.started then x.a else s1.ids) true
        then commit s (pre ++ chain s1 [fun s => pushStep s b x.off x.handle none, fun s => dropMat s x])
        else if x.started then commit s pre
        else commit s (pre ++ [setMat s1 { x with started := true, a := s1.ids }, .ids 1])
      | code =>
        commit s (pre ++ chain s1 [fun s => dropMat s x,
          fun s => deferTrap s x.k (engineSlice s x.k) { code, addr := apertureAddr b x.off }])

/-- The fields of a tile descriptor (R299). -/
def tdRows (d : Nat) : Nat := bits d 20 16 + 1
def tdAdd (d : Nat) : Bool := bit d 11
def tdHalf (d : Nat) : Nat := bits d 10 10
def tdRow0 (d : Nat) : Nat := bits d 9 4
def tdTile (d : Nat) : Nat := bits d 3 0

/-- The checks of a tile descriptor for a first register (R303): 0 where it passes. -/
def Issue.tileFault (I : Issue) (load : Bool) (r x : Nat) : Nat :=
  if bits x 31 21 ≠ 0 || bits x 15 12 ≠ 0 || (load && tdAdd x) || decide (64 < tdRow0 x + tdRows x)
      || (elems I.ty == 2 && tdHalf x == 1) then 0x01
  else if I.blk.img.tiles ≤ tdTile x || I.c.vbudget < r + tdRows x then 0x04
  else 0

/-- The type lists of TLD (R301) and TST (R302). -/
def okTld (ty : Nat) : Bool := [0x0C, 0x0A, 0x0B, 0x14, 0x15, 0x0E, 0x0F, 0, 2].contains ty
def okTst (ty : Nat) : Bool := [0x0C, 0x0A, 0x0B, 0x14, 0x15, 2].contains ty

/-- The elements of a window that a word moves, in the order of R301: register, lane, element, and the number of
the element in its tile. -/
def Issue.window (I : Issue) (x : Nat) : List (Nat × Nat × Nat × Nat) :=
  (span 0 (tdRows x)).flatMap fun r => I.act.flatMap fun l => (span 0 (elems I.ty)).map fun e =>
    (r, l, e, 4096 * tdTile x + 64 * (tdRow0 x + r) + (if elems I.ty = 2 then 2 * l + e else 32 * tdHalf x + l))

/-- The scale in a lane: an f32, flushed under FZ (R300). -/
def Issue.tileScale (I : Issue) (b : SOp) (l : Nat) : Val := fmtF32.read I.fz (I.sval tyF32 l b)

/-- A tile element as TLD and TST read it: a subnormal is zero under FZ (R301). -/
def Issue.tileVal (I : Issue) (i : Nat) : Val := fmtF32.read I.fz (I.s.readAcc I.k (blockOf I.k) i).toNat

/-- The deferred trap of a window that reads a poisoned element (R303), if one does: with the lowest such lane (R190). -/
def Issue.tilePoisoned (I : Issue) (x : Nat) : Option (Nat × Trap) :=
  match (I.window x).filter fun w => I.s.accPoisoned I.k (blockOf I.k) w.2.2.2 with
  | [] => none
  | bad => some (lowest 8 I.sl, I.fill false { code := 0x12, lmask := 2 ^ lowest 32 (maskOf (bad.map fun w => w.2.1)) })

/-- TLD and TST: their decoder checks, then the descriptor's (R300, R303). -/
def tileWord (load : Bool) (d a : Nat) (b : SOp) (body : Issue → Nat → List Effect) (s : State) : Out :=
  issue (fun I =>
      let x := (I.rs a).toNat
      { cls := .e, legal := (if load then okTld I.ty else okTst I.ty) && opLegal b tyF32 && decide (I.rnd < 6)
        vs := [d], ss := a :: opRegsT b tyF32
        dst := if load && I.tileFault load d x == 0 then span d (tdRows x) else [] })
    (fun I =>
      let x := (I.rs a).toNat
      match I.tileFault load d x with
      | 0 => .ok (body I x, .next)
      | code => .error { code }) s

/-- The registers that a TLD writes (R301): each element scaled exactly and narrowed once. -/
def Issue.tileLoad (I : Issue) (d : Nat) (b : SOp) (x : Nat) : List RegWrite :=
  let base := 4096 * tdTile x + 64 * tdRow0 x
  (span 0 (tdRows x)).flatMap fun r => I.act.flatMap fun l =>
    voutW I.ty (d + r) l (unelem (elemBits I.ty) ((span 0 (elems I.ty)).map fun e =>
      let col := if elems I.ty = 2 then 2 * l + e else 32 * tdHalf x + l
      I.narrow (elemType I.ty) l (2 * r + e) (Val.mul (I.tileScale b l) (I.tileVal (base + 64 * r + col)))))

/-- TLD (R300, R301, R303). -/
def execTld (d a : Nat) (b : SOp) (s : State) : Out :=
  tileWord true d a b (fun I x =>
    let trap := I.tilePoisoned x
    let ws := if trap.isSome then [] else I.tileLoad d b x
    I.stepLfsr ++ [.ctl I.k { I.c with flagOps := I.c.flagOps ++
      [{ id := I.s.ids, flag := I.seta, slices := I.sl, writes := ws, trap, sup := I.c.priv }] }, .ids 1]) s

/-- The elements that a TST writes (R302): each result rounded once into f32. -/
def Issue.tileStore (I : Issue) (d : Nat) (b : SOp) (x : Nat) : List RegWrite :=
  (I.window x).map fun w =>
    let r := w.1
    let l := w.2.1
    let e := w.2.2.1
    let y := valOf (elemType I.ty) I.fz (elem I.ty (I.vsrc I.ty (d + r) l) e)
    let p := Val.mul (I.tileScale b l) y
    let v := if tdAdd x then Val.add (I.rnd == rnDown) (I.tileVal w.2.2.2) p else p
    .t w.2.2.2 (word (I.round fmtF32 l (2 * r + e) v))

/-- TST (R300, R302, R303). -/
def execTst (d a : Nat) (b : SOp) (s : State) : Out :=
  tileWord false d a b (fun I x =>
    let trap := if tdAdd x then I.tilePoisoned x else none
    I.stepLfsr ++ [.ctl I.k { I.c with flagOps := I.c.flagOps ++
      [{ id := I.s.ids, flag := I.setb, slices := I.sl, writes := if trap.isSome then [] else I.tileStore d b x, trap }] },
      .ids 1]) s

/-- TZERO (R302): +0 in every element, and no poison left. -/
def execTzero (tile : Nat) (s : State) : Out :=
  issue (fun _ => { cls := .e, once := true, tiles := [tile] })
    (fun I => .ok (bindOp I.s I.k I.sl I.setb ((span 0 4096).map fun i => .t (4096 * tile + i) 0) [] false, .next)) s

end Sys2Proof.Machine
end

