-- ==== Sys2Proof/Machine/Recruit.lean ====
section
/-! DEFINITION. Helper recruitment: spans, helpers, streams (13 R306 to R324). -/
namespace Sys2Proof.Machine

/-- A stream that starts (R314). -/
def Stream.fresh (holder : Option Nat) : Stream := ⟨0, 0, 0, holder⟩

/-- The number of iterations of a span; none where lo is not below hi (R309). -/
def Span.count (x : Span) : Nat := x.hi - x.lo

/-- Whether stream number t has iterations left (R314). -/
def Span.left (x : Span) (t : Nat) : Bool :=
  decide (32 * (x.streams.getD t (.fresh none)).next + t < x.count)

/-- The lowest-numbered stream with iterations left that a holder has (R315). -/
def Span.first (x : Span) (holder : Option Nat) : Option Nat :=
  (span 0 32).find? fun t => (x.streams.getD t (.fresh none)).holder == holder && x.left t

/-- A stream of a span changed. -/
def Span.onStream (x : Span) (t : Nat) (f : Stream → Stream) : Span :=
  { x with streams := x.streams.mapIdx fun i y => if i = t then f y else y }

/-- The crew lanes of the helpers of a crew, in rank order (R314, R319). -/
def crewLanes (crew : List (Option Nat)) : List Nat :=
  (crew.mapIdx fun r x => if x.isSome then span (4 * r) 4 else []).flatten

/-- The helper of a rank leaves the crew and the streams it holds are dealt again (R319). -/
def Span.pass (x : Span) (rank : Nat) : Span :=
  let crew := x.crew.mapIdx fun r y => if r = rank then none else y
  let lanes := crewLanes crew
  { x with
    crew
    streams := x.streams.mapIdx fun t y =>
      if y.holder.any fun q => q / 4 == rank then { y with holder := lanes[t % max lanes.length 1]? } else y }

/-- Whether a slice of a host is idle for a span that a foreman's warp asks for (R307). -/
def State.idleSlice (s : State) (foreman k j : Nat) : Bool :=
  let w := s.warp k
  w.ctl.role == 0 && w.ctl.st.resident && !w.ctl.parted && !w.ctl.priv && (k == foreman || w.ctl.span.isNone)
    && bits (w.readM 0 &&& w.readM 14).toNat (4 * j + 3) (4 * j) == 0
    && !(s.warps.any fun p => p.1 == helperKey k j)

/-- The idle slices in the order of R307: the foreman's own warp first, then the block's other epilogue warps. -/
def State.idleSlices (s : State) (foreman own : Nat) : List (Nat × Nat) :=
  let b := blockOf foreman
  let others := (s.warps.filter fun p =>
    decide (p.1 < helperBase) && blockOf p.1 == b && p.1 != foreman && decide (warpNo p.1 < 24)).map Prod.fst
  ((foreman :: others).flatMap fun k => (span 0 8).map fun j => (k, j)).filter fun x =>
    !(x.1 == foreman && x.2 == own) && s.idleSlice foreman x.1 x.2

/-- The helper contexts of 512 bytes that a core's spill area has room for (R309). -/
def State.helperRoom (s : State) (core : Nat) : Nat :=
  let parked := (s.onCore core).filter fun p =>
    !p.2.ctl.st.resident && p.2.ctl.saved && decide (p.2.ctl.frame < 2 ^ 63)
  let used := (parked.map fun p => roundUp (savedSize p.2.ctl.vb) 512).foldl (· + ·) 0
    + 512 * (s.warps.filter fun p => decide (helperBase ≤ p.1) && coreOf p.1 == core).length
  (spillBytes (s.core core).split - used) / 512

/-- Whether the lead warp has not executed FORK in a block that has other warps (R309). -/
def Issue.beforeFork (I : Issue) : Bool :=
  I.c.role == 0 && warpNo I.k == 0 && !I.blk.forked && decide (1 < I.blk.img.warps.length)

/-- The code that refuses a RECRUIT outright (R309). -/
def Issue.recruitCode (I : Issue) : Option Nat :=
  if I.c.priv || I.beforeFork then some 7
  else if I.c.span.isSome || I.c.helper.isSome then some 5
  else if I.c.parted then some 4
  else if I.act.length ≠ 1 then some 6
  else none

/-- A helper context at its entry (R310), on a slice of a host that stays resident (R323). -/
def grantSlice (foreman entry rank : Nat) (x : Nat × Nat) (s : State) : List Effect :=
  let c : Ctl := {
    role := 0, vb := 16, launched := word (15 * 2 ^ (4 * x.2)), slices := List.replicate 8 { pc := dword entry }
    st := .active
    helper := some { foreman, rank, host := x.1, slice := x.2, cur := [none, none, none, none], asked := false
                     recalled := false, clauses := 0 } }
  let h := s.ctl x.1
  .newWarp (helperKey x.1 x.2) c (word rank) (word (warpNo x.1 * 8 + x.2)) (word (15 * 2 ^ (4 * x.2))) ::
    (if h.st = .parking then [.ctl x.1 { h with st := .pending, saved := false }] else [])

/-- RECRUIT (R308, R309). -/
def execRecruit (d a md ask : Nat) (rk : Bool) (s : State) : Out :=
  issue (fun _ => { cls := .e, once := true, ss := d :: span a 4 })
    (fun I =>
      match I.recruitCode with
      | some code => .ok (.sreg I.k d (word code) :: I.maskOut md 0, .next)
      | none =>
        match I.target (I.pair a) with
        | .error t => .error t
        | .ok es =>
          let lane := I.act.headD 0
          let idle := I.s.idleSlices I.k (lane / 4)
          let room := I.s.helperRoom (coreOf I.k)
          let g := min (ask + 1) (min idle.length room)
          let got := idle.take g
          let code := if g = ask + 1 then 0 else if 0 < g then 1 else if idle.isEmpty then 2 else 3
          let x : Span := {
            lane, entry := (I.pair a).toNat, lo := (I.rs (a + 2)).toNat, hi := (I.rs (a + 3)).toNat, i32 := rk
            crew := got.map fun p => some (helperKey p.1 p.2)
            streams := (span 0 32).map fun t => .fresh (if g = 0 then none else some (t % (4 * g))), cur := none }
          .ok (I.release ([
            fun _ => es,
            fun s => [.ctl I.k { s.ctl I.k with span := some x }]] ++
            got.mapIdx (fun r p => grantSlice I.k (I.pair a).toNat r p) ++
            [fun _ => .sreg I.k d (word code) :: I.maskOut md (word (2 ^ (4 * g) - 1))]) .next)) s

/-- The warp whose span an issue works on: the helper's foreman, or the warp itself (R306). -/
def Issue.foreman (I : Issue) : Nat := match I.c.helper with | some h => h.foreman | none => I.k

/-- The span that an issue works on. -/
def Issue.openSpan (I : Issue) : Option Span := (I.s.ctl I.foreman).span

/-- The lanes that HIDX acts for (R315), and the holder that stands for one of them. -/
def Issue.dealt (I : Issue) : List Nat :=
  match I.c.helper, I.c.span with
  | some h, _ => span (4 * h.slice) 4
  | none, some x => [x.lane]
  | none, none => []
def Issue.holder (I : Issue) (l : Nat) : Option Nat := I.c.helper.map fun h => 4 * h.rank + l % 4

/-- The current stream of a lane (R315). -/
def Issue.curStream (I : Issue) (l : Nat) : Option Nat :=
  match I.c.helper, I.c.span with
  | some h, _ => h.cur.getD (l % 4) none
  | none, some x => if l = x.lane then x.cur else none
  | none, none => none

/-- HRD (R313): a view register of the foreman lane, bound to SETA. -/
def execHrd (d n : Nat) (s : State) : Out :=
  issue (fun I => { cls := .e, legal := I.c.helper.isSome || I.c.span.isSome, vs := [d], dst := [d] })
    (fun I =>
      match I.openSpan with
      | none => .error { code := 0x01 }
      | some x =>
        if viewSize (I.s.ctl I.foreman) ≤ n then .error { code := 0x04 }
        else
          let w := I.s.readV I.foreman n x.lane
          .ok (bindOp I.s I.k I.sl I.seta (I.act.map fun l => .v d l w) [] false, .next)) s

/-- The end of a helper (R317, R319): its streams pass, and its slice and its context are free; what it has sent and is not
answered is its foreman's from then on (R322). -/
def endHelper (k : Nat) (h : Helper) (s : State) : List Effect :=
  let f := s.ctl h.foreman
  let left := fun (r : Req) => if r.k = k then { r with k := h.foreman, crew := some (warpNo h.host, h.slice, h.rank) } else r
  [.ctl h.foreman { f with span := f.span.map fun (x : Span) => x.pass h.rank },
   .fab { s.fab with reqs := s.fab.reqs.map left }, .delWarp k]

/-- A helper ends of itself (R315, R317): a release at block scope (R324), once its operations are over; a fault that one of
them met is its foreman's (R322). -/
def Issue.leave (I : Issue) (h : Helper) : List Effect × Flow :=
  match I.holdBack, I.slice.defer with
  | some f, _ => ([], f)
  | none, t :: _ => (chargeForeman I.s I.k h t, .placed)
  | none, [] => if I.c.flagOps.isEmpty then I.release [endHelper I.k h] .placed else ([], .again)

/-- The current iterations of a helper's lanes taken back (R318): partials as checkpointed, and the iterations at
the front of their streams again. -/
def rollback (h : Helper) (x : Span) : Span :=
  (h.cur.filterMap id).foldl (fun (x : Span) t => x.onStream t fun y => { y with part := y.check, next := y.next - 1 }) x

/-- HEND (R317). -/
def execHend (s : State) : Out :=
  issue (fun I => { cls := .e, once := true, legal := I.c.helper.isSome })
    (fun I =>
      match I.c.helper with
      | none => .error { code := 0x01 }
      | some h => .ok (I.leave h)) s

/-- One lane of HIDX (R315): the span and the lane's stream with the iteration it gets. -/
def Span.deal (x : Span) (holder : Option Nat) : Span × Option (Nat × Nat) :=
  match x.first holder with
  | none => (x, none)
  | some t =>
    let n := (x.streams.getD t (.fresh none)).next
    (x.onStream t fun y => { y with check := y.part, next := y.next + 1 }, some (t, x.lo + 32 * n + t))

/-- HIDX for lanes in ascending order: the span after it, and what each lane gets. -/
def dealLanes (holder : Nat → Option Nat) : List Nat → Span → Span × List (Nat × Option (Nat × Nat))
  | [], x => (x, [])
  | l :: ls, x =>
    let r := x.deal (holder l)
    let rest := dealLanes holder ls r.1
    (rest.1, (l, r.2) :: rest.2)

/-- HIDX (R315): whatever m0 and the guard hold; under a release request it ends the helper. -/
def execHidx (d m : Nat) (s : State) : Out :=
  issue (fun I => { cls := .e, legal := I.c.helper.isSome || I.c.span.isSome, vs := [d], dst := [d]
                    dlanes := some (maskOf I.dealt) })
    (fun I =>
      match I.openSpan with
      | none => .error { code := 0x01 }
      | some x =>
        match I.c.helper with
        | some h =>
          if h.asked then .ok (I.leave h)
          else
            let r := dealLanes I.holder I.dealt x
            let got := r.2.filter fun p => p.2.isSome
            let new := (I.w.readM m &&& ~~~ word (maskOf I.dealt)) ||| word (maskOf (got.map Prod.fst))
            .ok ([.ctl h.foreman { I.s.ctl h.foreman with span := some r.1 },
              .ctl I.k { I.c with helper := some { h with cur := r.2.map fun p => p.2.map Prod.fst } }] ++
              (got.map fun p => .vreg I.k d p.1 (word ((p.2.map Prod.snd).getD 0))) ++ [.mask I.k m new], .next)
        | none =>
          let r := dealLanes I.holder I.dealt x
          let got := r.2.filter fun p => p.2.isSome
          let new := (I.w.readM m &&& ~~~ word (maskOf I.dealt)) ||| word (maskOf (got.map Prod.fst))
          .ok ([.ctl I.k { I.c with span := some { r.1 with cur := (r.2.headD (0, none)).2.map Prod.fst } }] ++
            (got.map fun p => .vreg I.k d p.1 (word ((p.2.map Prod.snd).getD 0))) ++ [.mask I.k m new] ++
            I.recall m new, .next)) s

/-- A value added into a stream's partial (R316). -/
def Span.add (x : Span) (t : Nat) (w : Word) : Span :=
  x.onStream t fun y => { y with part := if x.i32 then y.part + w else word (add32 y.part.toNat w.toNat) }

/-- HRED (R316). -/
def execHred (a : Nat) (s : State) : Out :=
  issue (fun I => { cls := .e, legal := I.c.helper.isSome || I.c.span.isSome, vs := [a] })
    (fun I =>
      match I.openSpan, I.act.filter fun l => (I.curStream l).isNone with
      | none, _ => .error { code := 0x01 }
      | some _, l :: ls => .error { code := 0x01, lmask := maskOf (l :: ls) }
      | some x, [] =>
        let y := I.act.foldl (fun (x : Span) l => x.add ((I.curStream l).getD 0) (I.v a l)) x
        .ok ([.ctl I.foreman { I.s.ctl I.foreman with span := some y }], .next)) s

/-- DISMISS (R320): asks for the release of every helper of the span. -/
def execDismiss (s : State) : Out :=
  issue (fun _ => { cls := .e, once := true, helper := false })
    (fun I =>
      let crew := ((I.c.span.map Span.crew).getD []).filterMap id
      .ok (crew.map fun q =>
        .ctl q { I.s.ctl q with helper := (I.s.ctl q).helper.map fun (h : Helper) => { h with asked := true } }, .next)) s

/-- The sum of the partials in stream order (R321). -/
def Span.total (x : Span) : Word :=
  match x.streams.map Stream.part with
  | [] => 0
  | p :: ps => ps.foldl (fun r y => if x.i32 then r + y else word (add32 r.toNat y.toNat)) p

/-- HJOIN (R321): waits for the crew; status 0 with iterations left, else the sum and the end of the span. With status 0 a
destination in the view is refused (R312); with status 1 the span closes first. -/
def execHjoin (d e : Nat) (s : State) : Out :=
  issue (fun I => { cls := .e, once := true, helper := false, legal := I.c.span.isSome, vs := [d], ss := [e] })
    (fun I =>
      match I.c.span with
      | none => .error { code := 0x01 }
      | some x =>
        if x.crew.any Option.isSome then .ok ([], .wait (.hjoin d e))
        else if (span 0 32).any x.left then
          (if !I.c.priv && d < viewSize I.c then .error { code := 0x0D } else .ok ([.sreg I.k e 0], .next))
        else .ok ([.ctl I.k { I.c with span := none }, .vreg I.k d x.lane x.total, .sreg I.k e 1], .next)) s

/-- Whether a helper's operations are over, faults with them, and its stores can become visible (R324). -/
def State.helperOver (s : State) (k j : Nat) : Bool :=
  s.drainable k && (s.ctl k).flagOps.isEmpty && ((s.ctl k).slice j).defer.isEmpty && (s.ctl k).trap.isNone

/-- HELPER_FORCED_RELEASE (R318, R324): after 256 clauses under a release request without HIDX, a release at block scope. -/
def execHelperForcedRelease (k : Nat) (s : State) : Out :=
  match (s.ctl k).helper with
  | none => commit s []
  | some h =>
    if !h.asked || h.clauses < 256 || ((s.ctl k).slice h.slice).inClause || !s.helperOver k h.slice then commit s []
    else
      commit s (chain s [
        fun s => drainAll s k,
        fun s =>
          let f := s.ctl h.foreman
          [.ctl h.foreman { f with span := f.span.map (rollback h) }],
        endHelper k h])

end Sys2Proof.Machine
end

