-- ==== Sys2Proof/Machine/Snap.lean ====
section
/-! DEFINITION. The steps of a snapshot that packets and writes bring about: arming, its channels and their logs, its
completion and its failure (17 R402 to R405, R410 to R415). -/
namespace Sys2Proof.Machine

/-- The KEY of a channel: sending chip, plane, class (R412, R415). -/
def channelKey (chip plane cls : Nat) : Nat := chip * 65536 + plane * 256 + cls

/-- The channels of a chip's planes, in the four classes of R331. -/
def channelsOf (chip : Nat) (planes : List Nat) : List Nat :=
  planes.flatMap fun p => (span 0 4).map (channelKey chip p)

/-- The chips that the routing table reaches, this one apart (R328). -/
def State.routed (s : State) : List Nat :=
  (span 0 512).filter fun c => c != s.chip && (s.mgmt.routing.get c).getLsbD 15

/-- The planes out of service. -/
def State.planesOut (s : State) : List Nat := (span 0 Config.planes).filter fun p => !s.fab.planes.getLsbD p

/-- The channels whose canary has not arrived (R414). -/
def State.openChannels (s : State) : List Nat :=
  (s.routed.flatMap fun c => channelsOf c (span 0 Config.planes)).filter fun k => !s.snap.closed.contains k

/-- VAULTG as a manifest's header gives it (R415): that of both dies; where they differ the manual gives no value. -/
def State.vaultg (s : State) : Nat :=
  let a := (s.mgmt.split.getD 0 (0, 0)).1
  let b := (s.mgmt.split.getD 1 (0, 0)).1
  if a = b then a else Config.splitVaults a b % 65536

/-- A snapshot step in the command journal (R427). -/
def snapStep (s : State) : List Effect := journal s 3 0 (pack [(0, 32, s.snap.n), (32, 8, s.snap.st), (40, 64, s.snap.cut)])

/-- A snapshot is armed (R404, R405): its cut is the index of the next record; the channels of planes out of service count
as closed (R413). -/
def armSnap (tag : Nat) (s : State) : List Effect :=
  chain s [
    fun s => [.snap { s.snap with
      n := s.snap.n + 1, st := 1, tag, cut := s.dist.jnext, logs := []
      closed := s.routed.flatMap fun c => channelsOf c s.planesOut
      mans := s.snap.mans ++
        [⟨s.snap.n + 1, tag, s.dist.jnext, 0, false, 0, [], [], 0, 0⟩] }],
    snapStep]

/-- Whether a chip may arm a further snapshot on a packet (R405): snapshots are enabled, and its latest one is complete
or it has none. -/
def State.mayArm (s : State) : Bool := s.snapOn && (s.snap.st == 0 || s.snap.st == 3 || s.snap.st == 4)

/-- Writes queued at their home slices are performed in arrival order, those that must still wait queued again (R410,
R411). -/
def replayBlocked (s : State) : List Effect :=
  .snap { s.snap with blocked := [] } :: s.snap.blocked.flatMap fun q =>
    s.physWrite q.off q.bytes q.epoch (if q.sl < 8 then some (q.k, q.sl) else none)

/-- A manifest changed by its snapshot's number. -/
def onManifest (n : Nat) (f : Manifest → Manifest) (l : List Manifest) : List Manifest :=
  l.map fun m => if m.n = n then f m else m

/-- The pages of a snapshot (R414, R415): those it holds, and those already in the ring. -/
def State.pagesOf (s : State) (n : Nat) : List Nat :=
  let done := (s.snap.mans.filter fun m => m.n == n).flatMap fun m =>
    (m.entries.filter fun e => e.kind == 0).map fun e => e.key / 65536
  (done ++ (s.snap.pages.filter fun p => p.st != 0 && p.n == n).map SnapPage.page).eraseDups

/-- The latest snapshot fails or is aborted (R414): its pages become normal and DIRTY, its frames are free, its manifest
is closed with STATUS 1, and the queued writes go on. -/
def endSnap (st : Nat) (s : State) : List Effect :=
  let n := s.snap.n
  let pages := (s.pagesOf n).foldl (fun l p => setPage l ⟨p, 0, true, [], 0⟩) s.snap.pages
  chain s [
    fun s => [.snap { s.snap with
      st, pages, logs := []
      mans := onManifest n (fun m => { m with items := [], pos := 0, closed := true, status := 1 }) s.snap.mans }],
    snapStep, replayBlocked]

/-- The latest snapshot is complete (R414) once every channel is closed and no page is clean or pinned: its logs become
items of its manifest, whose table may follow. -/
def settleSnap (s : State) : List Effect :=
  if s.snap.st = 2 && s.openChannels.isEmpty && s.snap.pages.all fun p => p.st != 1 && p.st != 2 then
    let items := s.snap.logs.map fun l =>
      let bytes := logBytes l.2
      let d := channelDie l.1
      let f := framesFor bytes.length
      (⟨3, l.1, bytes, if d = 0 then (f, 0) else (0, f), []⟩ : SnapItem)
    chain s [
      fun s => [.snap { s.snap with
        st := 3, logs := []
        mans := onManifest s.snap.n (fun m => { m with items := m.items ++ items, closed := true }) s.snap.mans
        made := s.snap.made ++ s.snap.logs.map fun l => (3, logBytes l.2, l.2) }],
      snapStep]
  else []

/-- A packet of a channel arrives with the parity of its sender's epoch (R402, R405): the parity of the next snapshot
arms it, or fails the latest while that one is not complete. While a snapshot is armed or cut, the other parity on a
channel whose canary has come is that of the next one. -/
def packetArrives (key parity : Nat) (s : State) : List Effect :=
  let other := decide (parity % 2 ≠ s.snap.n % 2)
  if s.snap.st = 1 || s.snap.st = 2 then (if other && s.snap.closed.contains key then endSnap 5 s else [])
  else if other && s.mayArm then armSnap 0 s else []

/-- Whether a request that changes memory is to be logged (R413): after the local cut, with the parity of the snapshot
before, on a channel still open. -/
def State.toLog (s : State) (key parity : Nat) : Bool :=
  s.snap.st == 2 && decide (parity % 2 ≠ s.snap.n % 2) && !s.snap.closed.contains key

/-- A request appended to its channel's log (R413); with no frame free the snapshot fails. -/
def logRequest (key : Nat) (q : List Nat) (s : State) : List Effect :=
  let old := ((s.snap.logs.find? fun l => l.1 == key).map Prod.snd).getD []
  let d := channelDie key
  let more := framesFor (logBytes (old ++ [q])).length - framesFor (logBytes old).length
  if s.frames d < s.usedFrames d + more then endSnap 5 s
  else [.snap { s.snap with logs := (s.snap.logs.filter fun l => l.1 ≠ key) ++ [(key, old ++ [q])] }]

/-- A collective-class packet arrives (R405, R413): one that would be logged fails the snapshot. -/
def collPacket (key parity : Nat) (s : State) : List Effect :=
  if s.toLog key parity then endSnap 5 s else packetArrives key parity s

end Sys2Proof.Machine
end

