-- ==== Sys2Proof/Machine/Collective.lean ====
section
/-! DEFINITION. COLL, COLLQ and the work of the port sequencers (14 R342 to R353). -/
namespace Sys2Proof.Machine

/-- The fields of a collective's descriptor (R343). -/
def cBoff (d : Nat) : Nat := bits d 255 239 * 8
def cBen (d : Nat) : Bool := bit d 238
def cRoot (d : Nat) : Nat := bits d 237 229
def cCount (d : Nat) : Nat := bits d 223 192
def cGroup (d : Nat) : Nat := bits d 191 128
def cDst (d : Nat) : Nat := bits d 127 64
def cSrc (d : Nat) : Nat := bits d 63 0

/-- Whether FORM, TSRC and OP admit a TYPE (R342). -/
def okCollType (form : Nat) (tsrc op : Bool) (ty : Nat) : Bool :=
  if tsrc then form == 0 && !op && ty == tyF32
  else if form < 2 then ty == tyF32 || ty == tyBf16 || ty == tyF16 || ty == tyI32 || ty == tyN32
  else accessBytes ty != 0

/-- The checks of an arrival (R345 step 1), after those of its registers and tile. -/
def Issue.collBad (I : Issue) (form : Nat) (tsrc op : Bool) (d : Nat) : Option Trap :=
  let size := if tsrc then 4 else accessBytes I.ty
  let canon := fun (x : Nat) => match generic x with
    | .virt _ => none
    | .bad => some ({ code := 0x07, addr := x } : Trap)
    | _ => some { code := 0x09, addr := x }
  if bits d 228 224 ≠ 0 || (form != 3 && cRoot d != 0) || (tsrc && (cSrc d != 0 || cDst d != 0))
      || cGroup d % 8 ≠ 0 || !okCollType form tsrc op I.ty || 5 ≤ I.rnd || I.c.parted then some { code := 0x01 }
  else if cSrc d % size ≠ 0 then some { code := 0x06, addr := cSrc d }
  else if cDst d % size ≠ 0 then some { code := 0x06, addr := cDst d }
  else match canon (cSrc d), canon (cDst d), canon (cGroup d) with
    | some t, _, _ => some t
    | none, some t, _ => some t
    | none, none, some t => some t
    | none, none, none =>
      if cBen d && I.blk.img.shblk < cBoff d + 8 then some { code := 0x09, addr := apertureAddr (blockOf I.k) (cBoff d) }
      else none

/-- The places of n bytes at a virtual address as an engine reaches them for a block (R271, R464), this chip only, or the
first address that fails. -/
def State.enginePlaces (s : State) (ctx : Nat) (user write : Bool) :
    Nat → List (Nat × Nat) → Except (Nat × LaneFault) (List Piece × List Effect)
  | _, [] => .ok ([], [])
  | i, (va, n) :: t =>
    match generic va with
    | .virt _ =>
      match s.virt i ctx va (if write then 1 else 0) user, s.enginePlaces ctx user write (i + 1) t with
      | .error e, _ => .error (va, if e.code = 0x14 then protection else e)
      | _, .error e => .error e
      | .ok (p, es), .ok (ps, fs) =>
        match p.sp with
        | .phys => .ok (⟨va, p, n⟩ :: ps, es ++ fs)
        | _ => .error (va, protection)
    | _ => .error (va, protection)

/-- Bytes read by an engine at a virtual address: the address of the first poisoned sector, and what the walker does. -/
def State.engineBytes (s : State) (ctx : Nat) (user : Bool) (va n : Nat) :
    Except (Nat × LaneFault) (List Byte × Option Nat × List Effect) :=
  match s.enginePlaces ctx user false 8192 (cutRange 4096 (n / 4096 + 2) va n) with
  | .error e => .error e
  | .ok (ps, es) => .ok (ps.flatMap fun x => s.engineRead (x.p, x.n), ps.findSome? s.spoiledAt, es)

/-- Bytes written by an engine at a virtual address. -/
def State.engineStore (s : State) (ctx : Nat) (user : Bool) (epoch va : Nat) (bytes : List Byte) :
    Except (Nat × LaneFault) (List Effect) :=
  match s.enginePlaces ctx user true 12288 (cutRange 4096 (bytes.length / 4096 + 2) va bytes.length) with
  | .error e => .error e
  | .ok (ps, es) => .ok (chain s ((fun _ => es) :: dealBytes epoch (ps.map fun x => (x.p, x.n)) bytes))

/-- The places of an engine's write of n bytes that must wait now (R410, R411). -/
def State.engineHeld (s : State) (ctx : Nat) (user : Bool) (epoch va n : Nat) : List Nat :=
  match s.enginePlaces ctx user true 12288 (cutRange 4096 (n / 4096 + 2) va n) with
  | .error _ => []
  | .ok (ps, _) => (ps.filter fun x => s.placeWaits epoch x.p).map fun x => x.p.off

/-- The pages of places pinned (R410). -/
def pinAll (epoch : Nat) (l : List Nat) (s : State) : List Effect := chain s (l.map fun off => fun s => pinPage s off epoch)

/-- A name of a block that no other block of the chip's time has: its launch and its index. -/
def State.blockName (s : State) (b : Nat) : Nat := (s.blk b).launch * 2 ^ 32 + (s.blk b).idx + 1

/-- The ring size, and the element type of a collective. -/
def Coll.n (c : Coll) : Nat := c.members.length
def Coll.ty (c : Coll) : Nat := bits c.mode 15 11

/-- The bytes of an element. -/
def Coll.size (c : Coll) : Nat := if c.tsrc then 4 else accessBytes c.ty

/-- The elements of a block, and the units of one (R346). -/
def Coll.blockSize (c : Coll) : Nat := if c.form = 3 then c.count else c.count / max c.n 1
def Coll.units (c : Coll) : Nat := (c.blockSize + 63) / 64

/-- The blocks by number: a broadcast's one block has the number of its root (R346). -/
def Coll.blocks (c : Coll) : List Nat := if c.form = 3 then [c.root] else span 0 c.n

/-- The first element of a unit in the whole vector and the number of its elements (R346). -/
def Coll.unit (c : Coll) (r u : Nat) : Nat × Nat :=
  let base := if c.form = 3 then 0 else r * c.blockSize
  (base + 64 * u, min 64 (c.blockSize - 64 * u))

/-- Every part that a chip has in a collective: block, unit and pass (R346). -/
def Coll.parts (c : Coll) : List (Nat × Nat × Nat) :=
  c.blocks.flatMap fun r => (span 0 c.units).flatMap fun u =>
    (if c.form < 2 then [(r, u, 0)] else []) ++ (if c.form = 1 then [] else [(r, u, 1)])

/-- A collective by its name; its record changed; its record gone. -/
def State.coll (s : State) (id : Nat) : Option Coll := s.colls.find? fun c => c.id == id
def onColl (id : Nat) (f : Coll → Coll) (s : State) : List Effect :=
  [.colls (s.colls.map fun c => if c.id = id then f c else c)]

/-- The lead warp of a block. -/
def leadOf (b : Nat) : Nat := Config.warpsPerBlock * b

/-- The extension of R350. -/
def collExt (seq tag dchip unit blk cause : Nat) : Nat :=
  pack [(480, 32, seq), (464, 16, tag), (448, 16, dchip), (416, 32, unit), (400, 16, blk), (392, 8, cause)]

/-- The counters of the arrivals decrement (R349, R350). -/
def countDown (arrivals : List (Nat × Nat)) : List (State → List Effect) :=
  arrivals.map fun a => fun s => [.ctl a.1 ((s.ctl a.1).complete a.2)]

/-- A collective ends on this chip with a trap: its counters decrement and the trap comes to the lead warp at its next clause
boundary. -/
def collStop (c : Coll) (t : Trap) (s : State) : List Effect :=
  chain s ([fun (s : State) => [Effect.colls (s.colls.filter fun x => x.id ≠ c.id)]] ++ countDown c.arrivals ++
    [fun s => deferTrap s (leadOf c.b) (engineSlice s (leadOf c.b)) t])

/-- A collective ends aborted on this chip (R350), with collective-error; an abort has no effect on one that is complete
here. -/
def collEnd (c : Coll) (cause dchip unit blk : Nat) (s : State) : List Effect :=
  if c.finished then []
  else collStop c { code := 0x13, extk := 5, ext := collExt c.seq c.tag dchip unit blk cause } s

/-- This chip detects a failure: it aborts the collective on every member (R350). -/
def collFail (c : Coll) (cause unit blk : Nat) (s : State) : List Effect :=
  chain s [
    fun s => [.fab { s.fab with sent := s.fab.sent ++ collAbortPackets s c cause unit blk }],
    collEnd c cause s.chip unit blk]

/-- The plane of a unit (R346). -/
def State.unitPlane (s : State) (r u : Nat) : Nat := s.planes.getD ((u + r) % max s.planes.length 1) 0

/-- The plane of a unit of a collective: where a plane's loss put it, else that of R346 (R351). -/
def State.planeFor (s : State) (c : Coll) (r u : Nat) : Nat :=
  ((c.moved.find? fun m => m.1 == r && m.2.1 == u).map fun m => m.2.2).getD (s.unitPlane r u)

/-- The die of a block. -/
def blockDie (b : Nat) : Nat := b / Config.blocksPerCore / Config.coresPerDie

/-- The retries of a unit that this chip knows of (R350). -/
def Coll.triesOf (c : Coll) (r u : Nat) : Nat := ((c.tries.find? fun t => t.1 == r && t.2.1 == u).map fun t => t.2.2).getD 0

/-- This chip learns how often a unit has been retried (R350). -/
def knowTries (r u n : Nat) (c : Coll) : State → List Effect :=
  onColl c.id fun x => if n ≤ x.triesOf r u then x
    else { x with tries := (r, u, n) :: x.tries.filter fun t => !(t.1 == r && t.2.1 == u) }

/-- A chunk sent to a ring position, charged to the collective meters (R346, R387), with its unit's retries (R350; log entry
82); a poisoned one has no values. -/
def collSend (c : Coll) (pos r u pass : Nat) (vals : Option (List Nat)) (s : State) : List Effect :=
  let n := (c.unit r u).2
  [.fab { s.fab with sent := s.fab.sent ++
      [⟨2, c.members.getD (pos % max c.n 1) 0, s.planeFor c r u,
        [0, c.ctx, c.tag, c.seq, r, u, pass, (s.blk c.b).epoch % 2, c.triesOf r u, if vals.isNone then 1 else 0] ++
          vals.getD (List.replicate n 0)⟩] },
   .dist (s.charge 2 (blockDie c.b) c.ctx (n * (if c.form < 2 then 4 else c.size)) (s.blk c.b).path)]

/-- The first ring position of a unit's pass (R346). -/
def Coll.firstPos (c : Coll) (r pass : Nat) : Nat := if pass = 0 then (r + 1) % max c.n 1 else r

/-- A retry of a unit, the n-th, that this chip has seen (R350), for the block since its placement (R353). -/
def collTried (c : Coll) (r u n : Nat) (s : State) : List Effect :=
  chain s (knowTries r u n c :: (s.blocks.filter fun p => s.blockName p.1 == c.home).map fun p => fun s =>
    [.block p.1 { s.blk p.1 with retries := min ((s.blk p.1).retries + 1) (2 ^ 32 - 1) }])

/-- A poisoned arrival or read (R350): a retry request to the pass's first position, or at the third an abort. -/
def collPoisoned (c : Coll) (r u pass : Nat) (s : State) : List Effect :=
  if 2 ≤ c.triesOf r u then collFail c 2 u r s
  else
    let first := c.firstPos r pass
    let mine := decide (first = c.pos)
    let n := c.triesOf r u + 1
    chain s [
      collTried c r u n,
      onColl c.id fun c => { c with again := c.again ++ (if mine then [(r, u, pass)] else []) },
      fun s => if mine then [] else
        [.fab { s.fab with sent := s.fab.sent ++
          [⟨2, c.members.getD first 0, s.planeFor c r u, [2, c.ctx, c.tag, c.seq, r, u, pass, (s.blk c.b).epoch % 2, n]⟩] }]]

/-- This chip's contribution to a unit, or its own block (R347, R348): wire values, whether one is poisoned, and
what the walker does. -/
def State.contribution (s : State) (c : Coll) (r u : Nat) : Except (Nat × LaneFault) (List Nat × Bool × List Effect) :=
  let at_ := c.unit r u
  if c.tsrc then
    let es := (span at_.1 at_.2).map fun e => 4096 * c.tile + e
    .ok (es.map fun e => (s.readAcc engineKey c.b e).toNat, es.any fun e => s.accPoisoned engineKey c.b e, [])
  else
    let first := if c.form = 2 then at_.1 - r * c.blockSize else at_.1
    match s.engineBytes c.ctx (!c.priv) (c.src + first * c.size) (at_.2 * c.size) with
    | .error e => .error e
    | .ok (bytes, bad, es) =>
      let raw := (span 0 at_.2).map fun i => ofBytes ((bytes.drop (i * c.size)).take c.size)
      let wire := fun (x : Nat) => if c.form < 2 then
          (match fmtOf c.ty with | some f => round32 (f.value x) | none => x) else x
      .ok (raw.map wire, bad.isSome, es)

/-- The combination of a partial with a contribution (R347). -/
def collComb (c : Coll) (a x : Nat) : Nat :=
  if (fmtOf c.ty).isSome then (if c.op then maxNum32 a x else add32 a x)
  else if !c.op then (a + x) % 2 ^ 32
  else if c.ty = tyI32 then (if signed 32 a < signed 32 x then x else a) else max a x

/-- The bytes of a result (R347): narrowed once under the mode's RND and SAT, never under FZ. -/
def collNarrow (c : Coll) (v : Nat) : List Byte :=
  let x := if c.form < 2 && (c.ty == tyF16 || c.ty == tyBf16)
    then (fmtF c.ty).round (bits c.mode 10 8) (bit c.mode 1) false 0 (val32 v) else v
  leBytes c.size x

/-- The result of a unit written on this chip (R348), once; a fault aborts the collective. One whose page is pinned waits
(R410). -/
def collWrite (c : Coll) (r u : Nat) (vals : List Nat) (s : State) : List Effect :=
  let at_ := c.unit r u
  let keep := onColl c.id fun c => { c with late := (r, u, vals) :: c.late.filter fun x => !(x.1 == r && x.2.1 == u) }
  let mark := onColl c.id fun c => { c with written := if c.written.contains (r, u) then c.written else (r, u) :: c.written }
  if c.written.contains (r, u) then []
  else if c.tsrc then
    chain s [fun _ => vals.mapIdx fun i v => .tile c.b (4096 * c.tile + at_.1 + i) (word v), mark]
  else
    let first := if c.form = 1 then at_.1 - c.pos * c.blockSize else at_.1
    let bytes := vals.flatMap (collNarrow c)
    let epoch := (s.blk c.b).epoch
    match s.engineStore c.ctx (!c.priv) epoch (c.dst + first * c.size) bytes with
    | .error _ => collFail c 3 u r s
    | .ok es =>
      let held := s.engineHeld c.ctx (!c.priv) epoch (c.dst + first * c.size) bytes.length
      if held.isEmpty then chain s [fun _ => es, mark] else chain s [keep, pinAll epoch held]

/-- Something done for a collective that has not ended meanwhile. -/
def ifColl (id : Nat) (f : Coll → State → List Effect) (s : State) : List Effect :=
  match s.coll id with
  | none => []
  | some c => f c s

/-- This chip's part of a unit's pass is done. -/
def collMark (r u pass : Nat) (c : Coll) : State → List Effect :=
  onColl c.id fun c => { c with passed := if c.passed.contains (r, u, pass) then c.passed else (r, u, pass) :: c.passed }

/-- The owner holds a unit's final values, writes its own result and starts the distribution pass (R346, R348). -/
def collOwn (id r u : Nat) (vals : List Nat) : List (State → List Effect) :=
  [onColl id fun c => { c with finals := if c.finals.any fun x => x.1 == r && x.2.1 == u then c.finals
      else (r, u, vals) :: c.finals },
   ifColl id fun c => collWrite c r u vals,
   ifColl id fun c => if 1 < c.n then collSend c (c.pos + 1) r u 1 (some vals) else fun _ => [],
   ifColl id (collMark r u 1)]

/-- One step of a unit's reduction pass on this chip (R346, R347); none as partial at the pass's first position. A
contribution that is poisoned poisons the chunk sent on; where no chunk has come, or none goes on, it counts as a poisoned
arrival (R350). -/
def collReduce (id r u : Nat) (acc : Option (List Nat)) : State → List Effect :=
  ifColl id fun c s =>
    match s.contribution c r u with
    | .error _ => collFail c 3 u r s
    | .ok (_, true, es) => chain s [fun _ => es, ifColl id fun c =>
        if acc.isSome && c.pos ≠ r then collSend c (c.pos + 1) r u 0 none else collPoisoned c r u 0]
    | .ok (vals, false, es) =>
      let out := match acc with
        | none => vals
        | some a => List.zipWith (collComb c) a vals
      chain s ((fun _ => es) ::
        (if c.pos ≠ r then [ifColl id fun c => collSend c (c.pos + 1) r u 0 (some out)]
         else if c.form = 1 then [ifColl id fun c => collWrite c r u out]
         else collOwn id r u out) ++ [ifColl id (collMark r u 0)])

/-- The start of a unit's distribution pass at its owner (R346, R350): the held unit, or its own block. -/
def collDistribute (id r u : Nat) : State → List Effect :=
  ifColl id fun c s =>
    match c.finals.find? fun x => x.1 == r && x.2.1 == u with
    | some x => chain s (collOwn id r u x.2.2)
    | none =>
      match s.contribution c r u with
      | .error _ => collFail c 3 u r s
      | .ok (_, true, es) => chain s [fun _ => es, ifColl id fun c => collPoisoned c r u 1]
      | .ok (vals, false, es) => chain s ((fun _ => es) :: collOwn id r u vals)

/-- A unit's values arrive in its distribution pass (R346, R348). -/
def collDeliver (id r u : Nat) (vals : List Nat) (s : State) : List Effect :=
  chain s [
    ifColl id fun c => collWrite c r u vals,
    ifColl id fun c => if (c.pos + 1) % max c.n 1 ≠ r then collSend c (c.pos + 1) r u 1 (some vals) else fun _ => [],
    ifColl id (collMark r u 1)]

/-- The arrivals of one round, the first of each warp, and those that stay (R345). -/
def firstRound : List Nat → List (Nat × Nat × Nat × Nat × Bool) →
    List (Nat × Nat × Nat × Nat × Bool) × List (Nat × Nat × Nat × Nat × Bool)
  | _, [] => ([], [])
  | seen, a :: t =>
    let r := firstRound (a.1 :: seen) t
    if seen.contains a.1 then (r.1, a :: r.2) else (a :: r.1, r.2)

/-- A firing that fails (R345): collective-error in every warp that arrived, and every counter decrements. -/
def fireFail (arrivals : List (Nat × Nat)) (cause tag seq : Nat) (s : State) : List Effect :=
  chain s (countDown arrivals ++ arrivals.map fun a => fun s => deferTrap s a.1 (engineSlice s a.1)
    { code := 0x13, extk := 5, ext := collExt seq tag s.chip 0xFFFFFFFF 0xFFFF cause })

/-- The firings of a context with a tag so far (R352), where the chip holds their count. -/
def State.fired (s : State) (ctx tag : Nat) : Option Nat :=
  (s.collSeq.find? fun x => x.1 == ctx && x.2.1 == tag).map fun x => x.2.2

/-- Whether a firing needs a pair that the chip has no room for (R352). -/
def State.noPair (s : State) (ctx tag : Nat) : Bool := (s.fired ctx tag).isNone && decide (1024 ≤ s.collSeq.length)

/-- A firing takes its sequence number, whether or not its checks hold (R352). -/
def takeSeq (s : State) (ctx tag : Nat) : Effect :=
  .collSeq ((ctx, tag, (s.fired ctx tag).getD 0 + 1) :: s.collSeq.filter fun x => !(x.1 == ctx && x.2.1 == tag))

/-- The group descriptor at an address (R344): its header and its entries, and what the walker does. -/
def State.group (s : State) (ctx : Nat) (user : Bool) (va : Nat) : Option (Nat × List Nat × List Effect) :=
  match s.engineBytes ctx user va 8 with
  | .ok (hd, none, es) =>
    let h := ofBytes hd
    if bits h 15 0 = 0 || 512 < bits h 15 0 then some (h, [], es)
    else match s.engineBytes ctx user (va + 8) (2 * bits h 15 0) with
      | .ok (bs, none, fs) =>
        some (h, (span 0 (bits h 15 0)).map fun i => ofBytes ((bs.drop (2 * i)).take 2), es ++ fs)
      | _ => none
  | _ => none

/-- The checks of a firing on the group and the descriptor (R345). -/
def State.fireOk (s : State) (c : Coll) (h : Nat) : Bool :=
  let len := fun (f : Nat) => if c.form = f then c.count / max c.n 1 else c.count
  bits h 63 32 == 0 && c.n == bits h 15 0 && c.n != 0 && c.members.eraseDups == c.members
    && c.members.contains s.chip
    && c.members.all (fun m => (s.mgmt.routing.get m).getLsbD 15 && decide (m < 512))
    && c.count != 0 && (c.form == 3 || c.count % c.n == 0) && (c.form != 3 || decide (c.root < c.n))
    && (!c.tsrc || c.count == 4096)
    && (c.tsrc || c.src == c.dst || decide (c.src + len 2 * c.size ≤ c.dst) || decide (c.dst + len 1 * c.size ≤ c.src))

/-- A round fires (R345, R352). -/
def collFire (b : Nat) (round : List (Nat × Nat × Nat × Nat × Bool)) (s : State) : List Effect :=
  let a := round.headD (0, 0, 0, 0, false)
  let who := round.map fun x => (x.1, x.2.1)
  let priv := (round.getLast?.map fun x => x.2.2.2.2).getD false
  let ctx := (s.blk b).ctx
  let w := a.2.2.1 / 65536
  let d := a.2.2.2.1
  let differ := round.any fun x => x.2.2.1 ≠ a.2.2.1 || x.2.2.2.1 ≠ d
  match s.group ctx (!priv) (cGroup d) with
    | none => fireFail who (if differ then 0 else 1) 0 0 s
    | some (h, ms, es) =>
      let tag := bits h 31 16
      let n := (s.fired ctx tag).getD 0 + 1
      let c : Coll := {
        id := s.ids, b, ctx, tag, seq := n, form := bits w 23 22, tsrc := bit w 21, op := bit w 20, tile := bits w 19 16
        mode := a.2.2.1 % 65536, src := cSrc d, dst := cDst d, count := cCount d, root := cRoot d
        bar := if cBen d then some (cBoff d) else none, members := ms, pos := ms.findIdx (· == s.chip), priv
        arrivals := who, home := s.blockName b }
      let cause := if differ then some 0 else if !s.fireOk c h then some 1 else none
      if s.noPair ctx tag then chain s [fun _ => es, fireFail who (cause.getD 5) tag 0]
      else match cause with
        | some x => chain s [fun _ => es, fun s => [takeSeq s ctx tag], fireFail who x tag n]
        | none => es ++ [takeSeq s ctx tag, .colls (s.colls ++ [c]), .ids 1]

/-- Rounds that every warp of the block has arrived at fire (R345 step 3); the first argument bounds them. -/
def collTry (b : Nat) : Nat → State → List Effect
  | 0, _ => []
  | n + 1, s =>
    let x := s.blk b
    let live := (s.warps.filter fun p => decide (p.1 < helperBase) && blockOf p.1 == b && p.2.ctl.st != .exited).map Prod.fst
    if x.coll.isEmpty || !(live.all fun k => x.coll.any fun a => a.1 == k) then []
    else
      let r := firstRound [] x.coll
      let es := .block b { x with coll := r.2 } :: collFire b r.1 s
      es ++ collTry b n (applyAll es s)

/-- COLL (R342, R343, R345): an arrival, which may fire the collective. -/
def execColl (form : Nat) (tsrc op : Bool) (tile a : Nat) (s : State) : Out :=
  issue (fun I => { cls := .b, once := true, ss := span a 8
                    legal := okCollType form tsrc op I.ty && decide (I.rnd < 5) && !I.c.parted
                    tiles := if tsrc then [tile] else [] })
    (fun I =>
      let d := I.desc a
      match I.collBad form tsrc op d with
      | some t => .error t
      | none =>
        if I.counterFull 3 then .ok ([], .wait (.full 3 1))
        else
          let w := pack [(24, 8, 0xF0), (22, 2, form), (21, 1, if tsrc then 1 else 0), (20, 1, if op then 1 else 0),
            (16, 4, tile), (8, 8, a)]
          let b := blockOf I.k
          .ok (I.release [
            fun s => count I.k 3 s.ids s,
            fun s => [.block b { s.blk b with
              coll := (s.blk b).coll ++ [(I.k, s.ids, w * 65536 + I.mode, d, I.c.priv)] }, .ids 1],
            fun s => collTry b ((s.blk b).coll.length + 1) s] .next)) s

/-- The collectives of a block not yet complete here, oldest first. -/
def State.openColls (s : State) (b : Nat) : List Coll := s.colls.filter fun c => c.b == b && !c.finished

/-- COLLQ (R353). With no collective incomplete, selectors 1 and 2 name a value that nothing states: it is free. -/
def execCollq (d : Nat) (a : SOp) (s : State) : Out :=
  issue (fun _ => { cls := .a, once := true, ss := d :: opRegs a })
    (fun I =>
      let b := blockOf I.k
      let open_ := I.s.openColls b
      let out := fun (w : Word) => .ok ([.sreg I.k d w], .next)
      match (I.op a).toNat, open_ with
      | 0, _ => out (word open_.length)
      | 1, c :: _ => out (word c.written.length)
      | 1, [] => out (I.s.freeWord 1)
      | 2, c :: _ => out (word (if c.form = 1 ∨ c.form = 3 then c.units else c.n * c.units))
      | 2, [] => out (I.s.freeWord 1)
      | 3, _ => out (word I.blk.retries)
      | 4, _ => out (word I.s.planes.length)
      | _, _ => .error { code := 0x01 }) s

/-- Whether the domain of a collective is frozen on its die (R258). -/
def State.collFrozen (s : State) (c : Coll) : Bool := s.frozenAt (leadOf c.b)

/-- The block whose units begin at this chip, if it is the first position of one (R346). -/
def Coll.startBlock (c : Coll) : Option Nat :=
  if c.form < 2 then some ((c.pos + c.n - 1) % max c.n 1)
  else if c.form = 2 then some c.pos
  else if c.pos = c.root then some c.root
  else none

/-- A unit that begins here takes its first step, once the meters allow (R387). -/
def startUnit (id u : Nat) : State → List Effect :=
  ifColl id fun c s =>
    match c.startBlock with
    | none => []
    | some r =>
      if !c.starts.contains u || !s.meterOk 2 (blockDie c.b) c.ctx (s.blk c.b).path then []
      else chain s [
        onColl id fun c => { c with starts := c.starts.filter (· ≠ u) },
        if c.form < 2 then collReduce id r u none else collDistribute id r u]

/-- COLL_UNIT_START (R346, R352, R387): fewer than 16 are active, earlier firings have started, no plane change is in
progress; the chip takes the first step of every unit that starts at it, as its meters allow. -/
def execCollUnitStart (id : Nat) (s : State) : Out :=
  match s.coll id with
  | none => commit s []
  | some c =>
    let begins := fun (us : List Nat) => us.map (startUnit id)
    if c.finished || s.fab.changing || s.collFrozen c || !s.vil.keys then commit s []
    else if c.active then commit s (chain s (begins c.starts))
    else if 16 ≤ (s.colls.filter fun y => y.active && !y.finished).length
        || s.colls.any (fun y => !y.active && !y.finished && decide (y.id < id)) then commit s []
    else
      let us := if c.startBlock.isSome then span 0 c.units else []
      commit s (chain s (onColl id (fun c => { c with active := true, starts := us }) :: begins us))

/-- The bytes of chunks that wait for one plane's sequencer (R352). -/
def State.chunkBytes (s : State) (plane : Nat) : Nat :=
  ((s.fab.chunks.filter fun q => s.unitPlane q.blk q.unit == plane).map fun q => q.size * q.vals.length).foldl (· + ·) 0

/-- A chunk held in its sequencer; a full sequencer withholds the credit, and the chunk has not arrived. -/
def holdChunk (q : Chunk) (s : State) : List Effect :=
  if s.fab.chunks.contains q || 65536 ≤ s.chunkBytes (s.unitPlane q.blk q.unit) then []
  else [.fab { s.fab with chunks := s.fab.chunks ++ [q] }]

/-- What a chunk does to the collective that it is for (R346 to R350, R352), or where it waits. -/
def chunkStep (q : Chunk) (s : State) : List Effect :=
  let took := fun (s : State) => if s.fab.chunks.contains q
    then [Effect.fab { s.fab with chunks := s.fab.chunks.filter (· ≠ q) }] else []
  match s.colls.find? fun c => c.ctx == q.ctx && c.tag == q.tag && c.seq == q.seq with
  | none =>
    if q.seq ≤ (s.fired q.ctx q.tag).getD 0 then took s else holdChunk q s
  | some c =>
    let first := q.tries = 0 && !(c.passed.any fun p => p.1 == q.blk && p.2.1 == q.unit)
    if !c.active || (first && !s.meterOk 2 (blockDie c.b) c.ctx (s.blk c.b).path) then holdChunk q s
    else chain s [took, ifColl c.id (knowTries q.blk q.unit q.tries),
      if q.poison then ifColl c.id fun c => collPoisoned c q.blk q.unit q.pass
      else if q.pass = 0 then collReduce c.id q.blk q.unit (some q.vals)
      else collDeliver c.id q.blk q.unit q.vals]

/-- The channel that a chunk arrives on: from the ring position before this chip's. -/
def State.chunkChannel (s : State) (q : Chunk) : Nat :=
  match s.colls.find? fun c => c.ctx == q.ctx && c.tag == q.tag && c.seq == q.seq with
  | none => channelKey s.chip (s.unitPlane q.blk q.unit) 2
  | some c => channelKey (c.members.getD ((c.pos + c.n - 1) % max c.n 1) 0) (s.planeFor c q.blk q.unit) 2

/-- COLL_UNIT_STEP (R346 to R350, R352): a chunk that arrives, or one that waited in its sequencer; none flows without keys
(R329). -/
def execCollUnitStep (q : Chunk) (s : State) : Out :=
  if !s.vil.keys then commit s []
  else commit s (chain s [
    fun s => if s.fab.chunks.contains q then [] else collPacket (s.chunkChannel q) q.parity s,
    chunkStep q])

/-- A pass of a unit restarted from its first position, where this chip stands there (R350, R351). -/
def collRestart (id blk unit pass : Nat) (s : State) : List Effect :=
  ifColl id (fun (c : Coll) (s : State) =>
    if c.firstPos blk pass ≠ c.pos then ([] : List Effect)
    else if pass = 0 then collReduce id blk unit none s else collDistribute id blk unit s) s

/-- COLL_RETRY (R350): the restart of a unit whose poisoned read was this chip's own, or a retry request of another chip
(R405, R413); where the unit has had its two, an abort. -/
def execCollRetry (id blk unit : Nat) (pass : RetryAt) (s : State) : Out :=
  let again := (s.coll id).any fun c => c.firstPos blk pass.pass == c.pos && c.again.contains (blk, unit, pass.pass)
  if again then
    commit s (chain s [
      onColl id fun c => { c with again := c.again.filter (· ≠ (blk, unit, pass.pass)) },
      collRestart id blk unit pass.pass])
  else if !s.vil.keys then commit s []
  else commit s (chain s [
    collPacket (channelKey pass.via.chip pass.via.plane 2) pass.via.parity,
    ifColl id fun c =>
      if c.firstPos blk pass.pass ≠ c.pos then fun _ => []
      else if 2 ≤ c.triesOf blk unit then collFail c 2 unit blk
      else fun s => chain s [collTried c blk unit (max (c.triesOf blk unit + 1) pass.tries), collRestart id blk unit pass.pass]])

/-- COLL_ABORT (R350, R405, R413): an abort from another member; it has no effect once the collective is complete here. -/
def execCollAbort (id cause : Nat) (chip : AbortAt) (s : State) : Out :=
  if !s.vil.keys then commit s []
  else commit s (chain s [
    collPacket (channelKey chip.chip chip.plane 2) chip.parity,
    ifColl id fun c => collEnd c cause chip.chip chip.unit chip.blk])

/-- Whether no retry of a unit that this chip has passed on can reach it still (R349): for a reduce-scatter the unit's pass
has ended at its owner, another chip, when that is being free (log entry 29). -/
def State.past (s : State) (c : Coll) : Bool := c.form ≠ 1 || c.n = 1 || s.pick (30000 + c.id % 1000) 2 = 1

/-- COLL_COMPLETE (R349): every part of this chip is done; the barrier arrival, then the counters. The record stays
where this chip may have to distribute again (R350). Results that waited for a pinned page are written first (R410). -/
def execCollComplete (id : Nat) (s : State) : Out :=
  match s.coll id with
  | none => commit s []
  | some c =>
    if !c.late.isEmpty then
      commit s (chain s (onColl id (fun c => { c with late := [] }) ::
        c.late.map fun x => ifColl id fun c => collWrite c x.1 x.2.1 x.2.2))
    else if !c.active || c.finished || !c.again.isEmpty || !(c.parts.all fun p => c.passed.contains p) || !s.past c then commit s []
    else
      commit s (chain s (
        (c.bar.toList.map fun off => engineArrive (leadOf c.b) c.b off 0 0) ++
        countDown c.arrivals ++
        [fun (s : State) => [Effect.colls (if c.form = 1 ∨ c.n = 1 then s.colls.filter fun y => y.id ≠ id
          else s.colls.map fun y => if y.id = id then { y with finished := true } else y)]]))

end Sys2Proof.Machine
end

