-- ==== Sys2Proof/Machine/Combine.lean ====
section
/-! DEFINITION. Combine buffers: CMBCFG, CMBDISP, CMBPUT, CMBWAIT, CMBQ, CMBDRAIN, and the work of the home slices
(15 R358 to R372, R465). -/
namespace Sys2Proof.Machine

/-- The fields of a buffer's descriptor (R361). -/
def bLloff (d : Nat) : Nat := bits d 255 240 * 64
def bLlen (d : Nat) : Bool := bit d 239
def bBoff (d : Nat) : Nat := bits d 223 207 * 8
def bBen (d : Nat) : Bool := bit d 206
def bSubst (d : Nat) : Nat := bits d 205 204
def bAny (d : Nat) : Bool := bit d 203
def bOsat (d : Nat) : Bool := bit d 202
def bOtype (d : Nat) : Nat := bits d 201 197
def bAtype (d : Nat) : Nat := bits d 196 192
def bRg (d : Nat) : Nat := bits d 191 176 + 1
def bRowlen (d : Nat) : Nat := bits d 175 163
def bK (d : Nat) : Nat := bits d 162 160 + 1
def bNtok (d : Nat) : Nat := bits d 159 144 + 1
def bNslot (d : Nat) : Nat := bits d 143 128
def bTimeout (d : Nat) : Nat := bits d 127 96
def bOstride (d : Nat) : Nat := bits d 95 64
def bOut (d : Nat) : Nat := bits d 63 0

/-- The bytes of an element of a type, and of an arriving row. -/
def elemSize (ty : Nat) : Nat := elemBits ty / 8
def bRowBytes (d : Nat) : Nat := bRowlen d * elemSize (bAtype d)

/-- The fields of a buffer name (R359). -/
def nameChip (n : Nat) : Nat := bits n 31 23
def nameBuf (n : Nat) : Nat := bits n 22 18

/-- The checks of CMBCFG in order (R362). -/
def Issue.cfgBad (I : Issue) (d : Nat) : Option Trap :=
  let oty := bOtype d
  let osz := elemSize oty
  let shblk := I.blk.img.shblk
  if bits d 238 224 ≠ 0 || bSubst d == 3 || !([0x0C, 0x0B, 0x0A, 0x0E, 0x0F].contains oty)
      || !([0x0C, 0x0B, 0x0A].contains (bAtype d)) || bRowlen d == 0 || decide (4096 < bRowlen d) || bNslot d == 0
      || decide (bRowBytes d % 4 ≠ 0) || decide (bOstride d < bRowlen d * osz) || decide (bOstride d % osz ≠ 0)
  then some { code := 0x01 }
  else if bOut d % osz ≠ 0 || (oty == tyF32 && decide (bOstride d % 4 ≠ 0)) then some { code := 0x06, addr := bOut d }
  else match generic (bOut d) with
    | .bad => some { code := 0x07, addr := bOut d }
    | .virt _ =>
      if bBen d && shblk < bBoff d + 8 then some { code := 0x09, addr := apertureAddr (blockOf I.k) (bBoff d) }
      else if bLlen d && shblk < bLloff d + 1024 then some { code := 0x09, addr := apertureAddr (blockOf I.k) (bLloff d) }
      else none
    | _ => some { code := 0x09, addr := bOut d }

/-- The slices in service, die 0 first (R360). -/
def State.slicesInService (s : State) : List Nat :=
  (span 0 (Config.dies * Config.slicesPerDie)).filter fun j =>
    !s.isFenced 1 (j / Config.slicesPerDie) (j % Config.slicesPerDie)

/-- The bytes that a buffer reserves on each slice (R360). -/
def bReserve (d : Nat) : Nat :=
  bNslot d * roundUp (64 + bK d * bRowBytes d) 64 + roundUp ((bNtok d + 7) / 8) 64

/-- Whether a slice has room for a buffer (R184, R360). -/
def State.combineRoom (s : State) (d slice : Nat) : Bool :=
  let held := ((s.cmbs.filter fun x => x.homes.contains slice).map fun x => bReserve x.desc).foldl (· + ·) 0
  decide (held + bReserve d ≤ (s.mgmt.split.getD (slice / Config.slicesPerDie) (0, 0)).2 * 65536)

/-- The owner number of a combine buffer that no block owns (R419). -/
def unowned : Nat := 1000000

/-- CMBCFG (R362); an unowned buffer with an identical descriptor is adopted (R419). -/
def execCmbcfg (d a : Nat) (b : SOp) (s : State) : Out :=
  issue (fun _ => { cls := .l, once := true, ss := d :: span a 8 ++ opRegs b })
    (fun I =>
      let x := I.desc a
      let n := (I.op b).toNat
      let ctx := I.blk.ctx
      match I.cfgBad x with
      | some t => .error t
      | none =>
        if I.s.snap.st = 1 && I.s.postCut (I.s.epochOf I.k) then .ok ([], .again) else
        let homes := I.s.slicesInService
        let free := (I.s.cmb ctx n).filter fun y => y.owner == unowned && y.desc == x
        let adopt := fun (y : Cmb) => if y.ctx = ctx ∧ y.buf = n then { y with owner := blockOf I.k, priv := I.c.priv } else y
        let code : Nat := if free.isSome then 0 else if 31 < n || (I.s.cmb ctx n).isSome then 1
          else if homes.all (I.s.combineRoom x) then 0 else 2
        let new : Cmb := { ctx, buf := n, owner := blockOf I.k, desc := x, homes, priv := I.c.priv }
        .ok ((if free.isSome then [Effect.cmbs (I.s.cmbs.map adopt)]
            else if code = 0 then [Effect.cmbs (I.s.cmbs ++ [new])] else []) ++ [.sreg I.k d (word code)], .next)) s

/-- A buffer's home of a token, as a place in its list of slices (R360). -/
def Cmb.home (x : Cmb) (t : Nat) : Nat := (t ^^^ (t / 32) ^^^ (x.buf * 0x2B)) % max x.homes.length 1

/-- The slot of a token, and the slots with one replaced or freed. -/
def Cmb.slot (x : Cmb) (t : Nat) : Option Slot := x.slots.find? fun y => y.tok == t
def Cmb.setSlot (x : Cmb) (y : Slot) : Cmb := { x with slots := x.slots.filter (fun z => z.tok ≠ y.tok) ++ [y] }
def Cmb.freeSlot (x : Cmb) (t : Nat) : Cmb := { x with slots := x.slots.filter fun z => z.tok ≠ t }

/-- Whether a home has a slot free. -/
def Cmb.roomAt (x : Cmb) (h : Nat) : Bool := decide ((x.slots.filter fun y => x.home y.tok == h).length < bNslot x.desc)

/-- The arrival bitmap of a slot (R363). -/
def Slot.bitmap (y : Slot) : Nat :=
  match y.disp with
  | none => 0
  | some (es, _) => maskOf ((span 0 es.length).filter fun j => y.rows.any fun r => r.arrived && es[j]? == some r.expert)

/-- A slot whose dispatch is present and whose bitmap is full becomes Ready (R363). -/
def Slot.settle (y : Slot) : Slot :=
  match y.disp with
  | none => y
  | some (es, _) => if y.st < 3 && y.bitmap = 2 ^ es.length - 1 then { y with st := 3, present := y.bitmap } else y

/-- A home slice's decision on a request (R366). -/
inductive Verdict where
  | held
  | discarded
  | late
  | refused (cause : Nat)
  | waits
  deriving DecidableEq, Repr

/-- The row that a put brings. -/
def CmbReq.asRow (q : CmbReq) (bytes : List Byte) : Row :=
  { expert := q.experts.headD 0, bytes, arrived := q.chip == 0, k := q.k, sl := q.sl, lane := q.lane, chip := q.chip
    tag := q.id, src := q.tag }

/-- A request held in a slot, with the rows that a dispatch refuses after all (R366). -/
def Slot.hold (y : Slot) (q : CmbReq) (bytes : List Byte) : Slot × List Row :=
  if q.put then ({ y with rows := y.rows ++ [q.asRow bytes] }.settle, [])
  else
    ({ y with disp := some (q.experts, q.weights), rows := y.rows.filter fun r => q.experts.contains r.expert }.settle,
      y.rows.filter fun r => !q.experts.contains r.expert)

/-- The decision of R366: `line` says that others wait before the request for a slot of its home. -/
def Cmb.judge (x : Cmb) (q : CmbReq) (line : Bool) : Verdict :=
  let e := q.experts.headD 0
  let free := fun (_ : Unit) => if line || !x.roomAt (x.home q.tok) then Verdict.waits else .held
  if x.draining || x.lost then .refused 0
  else if bNtok x.desc ≤ q.tok then .refused 1
  else if q.put then
    if x.released.contains q.tok then .late
    else match x.slot q.tok with
      | none => free ()
      | some y =>
        let listed := y.disp.any fun d => d.1.contains e
        let bitSet := y.disp.any fun d => bit y.present (d.1.findIdx (· == e))
        if 3 ≤ y.st && listed && !bitSet then .late
        else if y.rows.any fun r => r.expert == e then .discarded
        else if y.disp.isSome && !listed then .refused 2
        else if y.disp.isNone && bK x.desc ≤ y.rows.length then .refused 2
        else .held
  else if x.released.contains q.tok || (x.slot q.tok).any fun y => y.disp.isSome then .refused 3
  else if q.experts.eraseDups.length ≠ q.experts.length then .refused 4
  else if (x.slot q.tok).isNone then free () else .held

/-- A buffer with a request held in its slot, opened if need be. -/
def Cmb.accept (x : Cmb) (q : CmbReq) (bytes : List Byte) : Cmb × List Row :=
  let y := (x.slot q.tok).getD ⟨q.tok, 1, [], none, 0, false⟩
  let r := y.hold q bytes
  (x.setSlot r.1, r.2)

/-- A buffer's record replaced. -/
def setCmb (x : Cmb) (s : State) : List Effect :=
  [.cmbs (s.cmbs.map fun y => if y.ctx = x.ctx ∧ y.buf = x.buf then x else y)]

/-- The extension of R371. -/
def cmbExt (name lmask tok expert cause present disp : Nat) (experts : List Nat) : Nat :=
  pack ([(480, 32, name), (448, 32, lmask), (432, 16, tok), (416, 16, expert), (408, 8, cause), (400, 8, present),
    (399, 1, disp)] ++ experts.mapIdx fun j e => (256 + 16 * j, 16, e))

/-- Combine-misuse of one lane for its warp's next clause boundary (R366); lanes refused before the trap is taken
share its record (R371). -/
def refuseLane (k sl lane name cause tok expert : Nat) (s : State) : List Effect :=
  let c := s.ctl k
  let same := fun (t : Trap) => t.code == 0x10 && bits t.ext 511 480 == name
  match c.st, (c.slice sl).defer.find? same with
  | .exited, _ => deferTrap s k sl
      { code := 0x10, addr := name, lmask := 2 ^ lane, extk := 6, ext := cmbExt name (2 ^ lane) tok expert cause 0 0 [] }
  | _, none => deferTrap s k sl
      { code := 0x10, addr := name, lmask := 2 ^ lane, extk := 6, ext := cmbExt name (2 ^ lane) tok expert cause 0 0 [] }
  | _, some t =>
    let lm := t.lmask ||| 2 ^ lane
    let ext := if lane < lowest 32 t.lmask then cmbExt name lm tok expert cause 0 0 []
      else t.ext - bits t.ext 479 448 * 2 ^ 448 + lm * 2 ^ 448
    [.ctl k (c.onSlices (2 ^ sl) fun y =>
      { y with defer := y.defer.map fun u => if same u then { u with lmask := lm, ext } else u })]

/-- A request's record changed, or gone. -/
def setReq (q : CmbReq) (s : State) : List Effect := [.cmbReqs (s.cmbReqs.map fun r => if r.id = q.id then q else r)]
def dropReq (q : CmbReq) (s : State) : List Effect := [.cmbReqs (s.cmbReqs.filter fun r => r.id ≠ q.id)]

/-- The acceptance of a request decrements JOIN where it counts there (R47, R365). -/
def joinDown (q : CmbReq) (s : State) : List Effect :=
  if q.joins && q.stage < 4 then [.ctl q.k { s.ctl q.k with join := (s.ctl q.k).join - 1 }] else []

/-- A request of this chip's warps ends: accepted if it was not, and its counter share complete (R365, R366). -/
def endReq (q : CmbReq) (s : State) : List Effect :=
  chain s [joinDown q, dropReq q, fun s => [.ctl q.k ((s.ctl q.k).complete q.id)]]

/-- The answer to another chip's request, with the parity of this chip's epoch (R402): 0 held, with the row's bytes; 1
discarded; 2 and the cause, refused. -/
def answerPut (q : CmbReq) (code len : Nat) (s : State) : List Effect :=
  [.fab { s.fab with sent := s.fab.sent ++ [⟨1, q.chip - 1, q.plane,
    [q.tag, s.deviceEpoch % 2, 0, 0, code] ++ (leBytes 4 len).map BitVec.toNat⟩] }]

/-- A decision made known to the request's sender. -/
def decided (q : CmbReq) (v : Verdict) (len : Nat) (s : State) : List Effect :=
  if q.chip = 0 then
    chain s [endReq q, fun s =>
      match v with
      | .refused m => refuseLane q.k q.sl q.lane q.name m q.tok (if q.put then q.experts.headD 0 else 0) s
      | _ => []]
  else
    chain s [if v = .held then setReq { q with stage := 5 } else dropReq q,
      answerPut q (match v with | .held => 0 | .refused m => m + 2 | _ => 1) len]

/-- A request of another chip whose row is held here until its bytes come. -/
def CmbReq.promised (q : CmbReq) (id : Nat) : Bool := q.id == id && q.chip != 0 && q.stage == 5

/-- The owner number of the buffers of a suspended block, and the suspended block that it names. -/
def suspendedOwner (ctx sb : Nat) : Nat := 2000000 + 4096 * ctx + sb
def State.sleeper (s : State) (owner : Nat) : Option Suspended :=
  s.dist.suspended.find? fun x => suspendedOwner x.block.ctx x.sb == owner

/-- Whether an owner is suspended, or placed again while its lead warp has not come back to its safe clause: its shared memory
and its lead warp take nothing yet (R367, R400). -/
def State.asleep (s : State) (owner : Nat) : Bool := (s.sleeper owner).isSome || (s.blk owner).restoring.isSome

/-- A late row (R369): its entry in the late log, then the count; for an owner that is asleep both come after. -/
def lateRow (ctx buf tok expert chip : Nat) (s : State) : List Effect :=
  match s.cmb ctx buf with
  | none => []
  | some x =>
    if bLlen x.desc && s.asleep x.owner then setCmb { x with dueLate := x.dueLate ++ [(tok, expert, chip)] } s
    else
      let off := bLloff x.desc + 16 * (x.late % 64)
      let e := pack [(96, 32, x.late), (48, 9, chip), (16, 16, expert), (0, 16, tok)]
      (if bLlen x.desc && (find s.blocks x.owner).isSome then [Effect.store (.shared x.owner) off (leBytes 16 e) none] else []) ++
        setCmb { x with late := x.late + 1 } s

/-- Whether a request that has not reached its slot waits there for the local cut (R411). -/
def State.cutWaits (s : State) (q : CmbReq) : Bool := s.snap.st == 1 && q.stage == 0 && s.postCut q.epoch

/-- Whether requests wait before one for a slot of its home (R365). -/
def State.inLine (s : State) (q : CmbReq) : Bool :=
  s.cmbReqs.any fun r => r.id != q.id && r.stage == 1 && r.ctx == q.ctx && r.name == q.name &&
    (match s.cmb q.ctx (nameBuf q.name) with
     | none => false
     | some x => x.home r.tok == x.home q.tok && (x.slot r.tok).isNone)

/-- Whether the warp of a stopped row is still to take, or is in, the handler of a trap (R271). -/
def State.handling (s : State) (k : Nat) : Bool :=
  let c := s.ctl k
  c.priv || c.trap.isSome || c.slices.any fun y => y.defer.any fun t => t.copyOp || t.first

/-- The unexited lanes of the lead warp of an owner. -/
def State.leadLanes (s : State) (owner : Nat) : Nat :=
  match s.sleeper owner with
  | some x => ((x.live.find? fun w => w.1 == 0).map fun w => w.2.2).getD 0
  | none => ((s.warp (leadOf owner)).readM 14).toNat

/-- A trap for the lead warp of a buffer's owner (R367, R368): at its next clause boundary, or for a suspended owner after its
restore. One whose lead warp is no more has it due at once (`settleDue`). -/
def ownerTrap (ctx buf : Nat) (t : Trap) (s : State) : List Effect :=
  match s.cmb ctx buf with
  | none => []
  | some x =>
    if s.asleep x.owner || (find s.warps (leadOf x.owner)).isNone then setCmb { x with due := x.due ++ [t] } s
    else deferTrap s (leadOf x.owner) (engineSlice s (leadOf x.owner)) t

/-- CMB_SLOT_TIMEOUT (R367). -/
def execCmbSlotTimeout (ctx buf tok : Nat) (s : State) : Out :=
  match s.cmb ctx buf with
  | none => commit s []
  | some x =>
    match x.slot tok with
    | none => commit s []
    | some y =>
      if y.st ≠ 1 || bTimeout x.desc = 0 then commit s []
      else if y.disp.isSome && bSubst x.desc < 2 then
        commit s (setCmb { x.setSlot { y with st := 3, present := y.bitmap, renorm := bSubst x.desc == 1 } with
          subs := x.subs + 1 } s)
      else
        let present := match y.disp with | none => 2 ^ (y.rows.filter Row.arrived).length - 1 | some _ => y.bitmap
        let name := s.chip * 2 ^ 23 + buf * 2 ^ 18
        commit s (chain s [
          setCmb (x.setSlot { y with st := 2 }),
          ownerTrap ctx buf
            { code := 0x0F, addr := name, extk := 6
              ext := cmbExt name 0 tok 0 0xFF present (if y.disp.isSome then 1 else 0)
                ((y.disp.map Prod.fst).getD []) }])

/-- The terms of a release in ascending order of expert: weight and row (R368). -/
def Slot.terms (y : Slot) : List (Word × List Byte) :=
  match y.disp with
  | none => []
  | some (es, ws) =>
    let js := (span 0 es.length).filter fun j => bit y.present j
    let order := js.mergeSort fun a b => decide (es.getD a 0 ≤ es.getD b 0)
    order.map fun j => (ws.getD j 0, ((y.rows.find? fun r => some r.expert == es[j]?).map Row.bytes).getD [])

/-- A sum of f32 patterns rounded at each step (R368). -/
def sum32 : List Nat → Nat
  | [] => 0
  | x :: t => t.foldl add32 x

/-- An element of the output row (R368). -/
def cmbElem (d : Nat) (y : Slot) (i : Nat) : Val :=
  let z := elemSize (bAtype d)
  let terms := y.terms
  match terms with
  | [] => .fin false 0 1
  | _ =>
    let acc := sum32 (terms.map fun t =>
      round32 (Val.mul (val32 t.1.toNat) (valOf (bAtype d) false (ofBytes ((t.2.drop (z * i)).take z)))))
    if y.renorm then
      let total := val32 (sum32 (terms.map fun t => t.1.toNat))
      if Val.eqv total (.fin false 0 1) then .fin false 0 1 else Val.div (val32 acc) total
    else val32 acc

/-- The bytes of the output row (R368). -/
def cmbRow (d : Nat) (y : Slot) : List Byte :=
  (span 0 (bRowlen d)).flatMap fun i => leBytes (elemSize (bOtype d)) (narrowTo (bOtype d) rnNearest (bOsat d) false 0 (cmbElem d y i))

/-- The tokens of a release group (R361). -/
def groupOf (d g : Nat) : List Nat := span (g * bRg d) (min ((g + 1) * bRg d) (bNtok d) - g * bRg d)

/-- Whether a token's turn has come (R368). -/
def Cmb.turn (x : Cmb) (t : Nat) : Bool :=
  bAny x.desc || (groupOf x.desc (t / bRg x.desc)).all fun u => decide (t ≤ u) || x.released.contains u

/-- A group's arrival on the completion barrier, once (R368, R372); an owner that is asleep has it later. -/
def groupArrive (ctx buf g : Nat) (s : State) : List Effect :=
  match s.cmb ctx buf with
  | none => []
  | some x =>
    let x' := { x with arrivedGroups := g :: x.arrivedGroups }
    if !bBen x.desc || x.arrivedGroups.contains g then []
    else if s.asleep x.owner then setCmb { x' with dueGroups := x.dueGroups ++ [g] } s
    else if (find s.blocks x.owner).isNone then []
    else chain s [setCmb x', engineArrive (leadOf x.owner) x.owner (bBoff x.desc) 0 0]

/-- The trap of a fault when a token's row is written (R368, R371). -/
def rowLost (x : Cmb) (y : Slot) (va : Nat) (e : LaneFault) (s : State) : Trap :=
  let name := s.chip * 2 ^ 23 + x.buf * 2 ^ 18
  { engineTrap (s.leadLanes x.owner) 1 va e 0 with lmask := 0, extk := 6, ext := cmbExt name 0 y.tok 0 0xFE 0 0 [] }

/-- A fault when a token's row is written holds the token (R368, R371). -/
def rowHeld (x : Cmb) (y : Slot) (va : Nat) (e : LaneFault) (s : State) : List Effect :=
  chain s [setCmb (x.setSlot { y with st := 4 }), fun s => ownerTrap x.ctx x.buf (rowLost x y va e s) s]

/-- The address and the size of a token's output row (R361). -/
def Cmb.rowVa (x : Cmb) (t : Nat) : Nat := bOut x.desc + t * bOstride x.desc
def Cmb.rowSize (x : Cmb) : Nat := bRowlen x.desc * elemSize (bOtype x.desc)

/-- The places of a token's row whose writes must wait now (R410, R411). -/
def State.rowWaits (s : State) (x : Cmb) (t : Nat) : List Nat :=
  s.engineHeld x.ctx (!x.priv) s.deviceEpoch (x.rowVa t) x.rowSize

/-- The release of a token whose slot is Ready (R368): its row written, its slot free, its release bit set, and the
group's arrival when it is the last; or the fault of the row's write. -/
def releaseRow (x : Cmb) (y : Slot) (s : State) : Except (Nat × LaneFault) (List Effect) :=
  match s.engineStore x.ctx (!x.priv) s.deviceEpoch (x.rowVa y.tok) (cmbRow x.desc y) with
  | .error e => .error e
  | .ok es =>
    let x' := { x.freeSlot y.tok with
      released := y.tok :: x.released
      stale := x.stale ++ (y.rows.filter fun r => !r.arrived).map fun r => (y.tok, r) }
    let g := y.tok / bRg x.desc
    .ok (chain s [
      fun _ => es, setCmb x',
      fun s => if (groupOf x.desc g).all fun u => x'.released.contains u then groupArrive x.ctx x.buf g s else []])

/-- A token released, or held by the fault of its row's write (R368). One whose page is pinned waits (R410). -/
def releaseToken (x : Cmb) (y : Slot) (s : State) : List Effect :=
  if !(s.rowWaits x y.tok).isEmpty then pinAll s.deviceEpoch (s.rowWaits x y.tok) s
  else match releaseRow x y s with
    | .error e => rowHeld x y e.1 e.2 s
    | .ok es => es

/-- Whether a token stopped by the fault of its row's write is not to be tried again: its trap is not yet handled. -/
def State.rowHandling (s : State) (x : Cmb) : Bool := !x.due.isEmpty || s.handling (leadOf x.owner)

/-- CMB_RELEASE (R368): a Ready token at its turn; one stopped by a fault of its row's write is tried again once the
owner's handler has returned. -/
def execCmbRelease (ctx buf tok : Nat) (s : State) : Out :=
  match s.cmb ctx buf with
  | none => commit s []
  | some x =>
    match x.slot tok with
    | none => commit s []
    | some y =>
      if (y.st = 3 || (y.st = 4 && !s.rowHandling x)) && x.turn tok && !x.lost
      then commit s (releaseToken x y s) else commit s []

/-- Where a drain stands: the tokens discarded, what has been done, and the token that it cannot release now: its slot and
the fault of its row's write, or none where the write must wait. -/
structure Drain where
  count : Nat
  effs : List Effect
  stop : Option (Slot × Option (Nat × LaneFault)) := none
  deriving DecidableEq, Repr

/-- The slot of a token that a drain releases (R372 step 3). -/
def Cmb.drainSlot (x : Cmb) (t : Nat) : Option Slot :=
  match if x.lost then none else x.slot t with
  | none => none
  | some y =>
    if 3 ≤ y.st then some y
    else if y.disp.isSome && bSubst x.desc < 2 then some { y with st := 3, present := y.bitmap, renorm := bSubst x.desc == 1 }
    else none

/-- The tokens of a drain in ascending order (R372 step 3), up to one that cannot be released now; at the end of its owner's
domain such a one is discarded. -/
def drainTokens (ctx buf : Nat) (force : Bool) : List Nat → State → Drain
  | [], _ => ⟨0, [], none⟩
  | t :: ts, s =>
    match s.cmb ctx buf with
    | none => ⟨0, [], none⟩
    | some x =>
      let rest := fun (n : Nat) (es : List Effect) =>
        let d := drainTokens ctx buf force ts (applyAll es s)
        { d with count := n + d.count, effs := es ++ d.effs }
      if x.released.contains t then rest 0 []
      else match x.drainSlot t with
        | none => rest 1 []
        | some y =>
          if !force && !(s.rowWaits x t).isEmpty then ⟨0, [], some (y, none)⟩
          else match releaseRow x y s with
            | .ok es => rest 0 es
            | .error e => if force then rest 1 [] else ⟨0, [], some (y, some e)⟩

/-- CMBDRAIN's steps 2 to 5 (R372): a lost buffer refuses what waits, and has nothing to release (R360). The buffer stands,
draining, while a token is held or its owner has still to take what came for it. -/
def drainBuffer (x : Cmb) (force : Bool) (s : State) : Drain :=
  let waiting := s.cmbReqs.filter fun q => q.stage == 1 && q.ctx == x.ctx && nameBuf q.name == x.buf
    && (q.chip != 0 || nameChip q.name == s.chip)
  let pre := (if x.draining then [] else setCmb { x with draining := true } s) ++
    chain s (waiting.map fun q => decided q (if x.lost then .refused 0 else .discarded) 0)
  let s1 := applyAll pre s
  let r := drainTokens x.ctx x.buf force (span 0 (bNtok x.desc)) s1
  if r.stop.isSome then { r with effs := pre ++ r.effs }
  else
    let s2 := applyAll r.effs s1
    let groups := chain s2 (if x.lost then [] else
      (span 0 ((bNtok x.desc + bRg x.desc - 1) / bRg x.desc)).map (groupArrive x.ctx x.buf))
    let wakes := (s.cmb x.ctx x.buf).any fun y => !force && s.asleep y.owner && (bBen y.desc || !y.dueLate.isEmpty) && !x.lost
    if wakes && !((applyAll groups s2).cmb x.ctx x.buf).all (fun y => y.dueGroups.isEmpty && y.dueLate.isEmpty) then
      { r with effs := pre ++ r.effs ++ groups, stop := some (⟨0, 0, [], none, 0, false⟩, none) }
    else
      { r with effs := pre ++ r.effs ++ groups ++
          [Effect.cmbs ((applyAll groups s2).cmbs.filter fun y => !(y.ctx == x.ctx && y.buf == x.buf))] }

/-- What a stopped drain leaves to come: the pages of the writes that wait pinned (R410), or the trap of a row's write in the
owner's lead warp, once (R368). -/
def drainStop (x : Cmb) (stop : Slot × Option (Nat × LaneFault)) (s : State) : List Effect :=
  match s.cmb x.ctx x.buf with
  | none => []
  | some y => match stop.2 with
    | none => pinAll s.deviceEpoch (s.rowWaits y stop.1.tok) s
    | some e => if stop.1.st = 4 && s.rowHandling y then [] else rowHeld y stop.1 e.1 e.2 s

/-- The buffer that a name gives an instruction on this chip, or combine-misuse (R364, R370, R371). -/
def Issue.buffer (I : Issue) (name lmask tok expert : Nat) : Except Trap Cmb :=
  let bad := fun (m : Nat) => Except.error ({ code := 0x10, addr := name, lmask, extk := 6
                                              ext := cmbExt name lmask tok expert m 0 0 [] } : Trap)
  if nameChip name ≠ I.s.chip then bad 5
  else match if bits name 17 0 = 0 then I.s.cmb I.blk.ctx (nameBuf name) else none with
    | none => bad 0
    | some x => if x.lost || x.draining then bad 0 else .ok x

/-- Requests sent for the active lanes: counted one by one, and waited for at the clause's end (R364, R365). -/
def Issue.sendLanes (I : Issue) (qs : List CmbReq) (remote : Bool) (name : Nat) : List Effect × Flow :=
  I.release ((qs.map fun q => fun (s : State) =>
      chain s [
        fun s => count I.k 4 s.ids s,
        fun s => [.cmbReqs (s.cmbReqs ++ [{ q with id := s.ids, tag := s.blockName (blockOf I.k) }]),
          .ctl I.k ((s.ctl I.k).onSlices I.sl fun y =>
            { y with cmb := some ((y.cmb.map Prod.fst).getD name, ((y.cmb.map Prod.snd).getD []) ++ [s.ids]) }), .ids 1],
        fun s => if remote then
            sendReq s { id := 0, k := I.k, sl := lowest 8 I.sl, kind := 6, pa := nameChip name * 2 ^ 43, size := 0
                        lanes := 2 ^ q.lane, plane := 0, op := 0, dest := [], ty := 0, copy := s.ids - 1 }
              (nameChip name) [name, q.ctx, q.tok, q.experts.headD 0]
          else []]) ++
    [fun s => if remote && !qs.isEmpty then
        [.ctl I.k { (s.ctl I.k).onSlices I.sl (fun x => { x with park := some (x.park.getD (6, name, [])) }) with
          join := (s.ctl I.k).join + qs.length }]
      else []]) .next

/-- Whether the combine counter has no room for n more operations (R39). -/
def Issue.countRoom (I : Issue) (n : Nat) : Bool := decide (I.c.counter 4 + n ≤ 255)

/-- CMBDISP (R364). -/
def execCmbdisp (t x : Nat) (b : SOp) (s : State) : Out :=
  issue (fun _ => { cls := .e, helper := false, vs := [t, x], ss := opRegs b })
    (fun I =>
      let name := (I.op b).toNat
      let tok := fun (l : Nat) => (I.v t l).toNat % 65536
      match I.buffer name I.active (tok (I.act.headD 0)) 0 with
      | .error e => .error e
      | .ok m =>
        let k := bK m.desc
        if I.c.vbudget < x + 2 * k then .error { code := 0x04 }
        else if !I.countRoom I.act.length then .ok ([], .wait (.full 4 I.act.length))
        else
          .ok (I.sendLanes (I.act.map fun l =>
            { id := 0, k := I.k, sl := lowest 8 I.sl, lane := l, put := false, ctx := I.blk.ctx, name, tok := tok l
              experts := (span 0 k).map fun j => (I.v (x + j) l).toNat % 65536
              weights := (span 0 k).map fun j => I.v (x + k + j) l
              rowAddr := 0, len := 0, priv := I.c.priv, stage := 0, joins := false, chip := 0, plane := 0, tag := 0
              epoch := I.s.epochOf I.k, wordv := I.clauseWord })
            false name)) s

/-- The check of a put's row address as a copy command's source (R364, R268 steps 3 to 5). -/
def Issue.rowBad (I : Issue) (ea n : Nat) : Option Trap :=
  match sideBad (blockOf I.k) ea 16 (fun c => decide (c < 2)) 3 with
  | some t => some t
  | none =>
    match sideBad (blockOf I.k) ea 16 (fun c => decide (c < 2)) 4 with
    | some t => some t
    | none =>
      match generic ea with
      | .shared _ off => if I.blk.img.shblk < off + n then some { code := 0x09, addr := ea } else none
      | _ => none

/-- Requests for a chip that is not routed end at once with remote-error cause 0, for the next clause boundary (R335). -/
def Issue.noRoute (I : Issue) (chip : Nat) (s : State) : List Effect :=
  if I.active = 0 then []
  else deferTrap s I.k (lowest 8 I.sl)
    { I.fill false { code := 0x14 } with lmask := I.active, extk := 4, ext := remoteExt (chip * 2 ^ 43) I.active 0xFF 0 5 }

/-- CMBPUT (R364, R465). -/
def execCmbput (t v : Nat) (b : SOp) (s : State) : Out :=
  issue (fun _ => { cls := .e, helper := false, vs := [t, t + 1, v, v + 1], ss := opRegs b })
    (fun I =>
      let name := (I.op b).toNat
      let remote := decide (nameChip name ≠ I.s.chip)
      let n := if remote then 1 else match I.s.cmb I.blk.ctx (nameBuf name) with
        | some x => if bits name 17 0 = 0 then bRowBytes x.desc else 1
        | none => 1
      if v % 2 ≠ 0 then .error { code := 0x04 }
      else match I.act.filterMap fun l => (I.rowBad (I.vpair v l).toNat n).map fun e => (l, e) with
      | (l, e) :: rest =>
        .error { e with lmask := maskOf (l :: (rest.filter fun p => p.2.code == e.code).map Prod.fst) }
      | [] =>
        if remote && !(I.s.mgmt.routing.get (nameChip name)).getLsbD 15 then .ok (I.release [I.noRoute (nameChip name)] .next)
        else if !I.countRoom I.act.length then .ok ([], .wait (.full 4 I.act.length))
        else if remote && !I.s.maySend I.k then .ok ([], .again)
        else
          .ok (I.sendLanes (I.act.map fun l =>
            { id := 0, k := I.k, sl := lowest 8 I.sl, lane := l, put := true, ctx := I.blk.ctx, name
              tok := (I.v t l).toNat % 65536, experts := [(I.v (t + 1) l).toNat % 65536], weights := []
              rowAddr := (I.vpair v l).toNat, len := n, priv := I.c.priv, stage := 0, joins := remote, chip := 0
              plane := 0, tag := 0, epoch := I.s.epochOf I.k, wordv := I.clauseWord }) remote name)) s

/-- CMBWAIT (R370). -/
def execCmbwait (n : Nat) (a b : SOp) (s : State) : Out :=
  issue (fun _ => { cls := .a, once := true, helper := false, ss := n :: opRegs a ++ opRegs b })
    (fun I =>
      let name := (I.rs n).toNat
      let lo := (I.op a).toNat
      let hi := (I.op b).toNat
      match I.buffer name 0 0 0 with
      | .error e => .error { e with lmask := 0 }
      | .ok x =>
        if bNtok x.desc < hi then
          .error { code := 0x10, addr := name, extk := 6, ext := cmbExt name 0 0 0 1 0 0 [] }
        else if lo ≥ hi || x.releasedIn lo hi then .ok ([], .next)
        else
          let first := ((span lo (hi - lo)).find? fun t => !x.released.contains t).getD lo
          .ok ([], .wait (.release x.ctx x.buf lo hi ((bOut x.desc + first * bOstride x.desc) % 2 ^ 64)))) s

/-- CMBQ (R370). -/
def execCmbq (d : Nat) (a b : SOp) (s : State) : Out :=
  issue (fun _ => { cls := .a, once := true, ss := d :: opRegs a ++ opRegs b })
    (fun I =>
      let sel := (I.op b).toNat
      if 5 < sel then .error { code := 0x01 }
      else match I.buffer (I.op a).toNat 0 0 0 with
        | .error e => .error { e with lmask := 0 }
        | .ok x =>
          let v := match sel with
            | 0 => x.released.length
            | 1 => x.slots.length
            | 2 => x.dup
            | 3 => x.late
            | 4 => x.subs
            | _ => (x.slots.filter fun y => y.st == 2).length
          .ok ([.sreg I.k d (word v)], .next)) s

/-- CMBDRAIN (R372). A fault of a row's write holds its token and the drain; where the owner's lead warp itself drains, it
takes the trap at this word, and drains on after its handler (log entry 83). -/
def execCmbdrain (d : Nat) (b : SOp) (s : State) : Out :=
  issue (fun _ => { cls := .l, once := true, ss := d :: opRegs b })
    (fun I =>
      match I.s.cmb I.blk.ctx (I.op b).toNat with
      | none => .ok ([.sreg I.k d 0xFFFFFFFF], .next)
      | some x =>
        let name := I.s.chip * 2 ^ 23 + x.buf * 2 ^ 18
        if x.lost then .error { code := 0x10, addr := name, extk := 6, ext := cmbExt name 0 0 0 0 0 0 [] }
        else if I.s.snap.st = 1 && I.s.postCut (I.s.epochOf I.k) then .ok ([], .wait (.drained x.ctx x.buf))
        else
          let r := drainBuffer x false I.s
          match r.stop with
          | none => .ok (r.effs ++ [.sreg I.k d (word r.count)], .next)
          | some st =>
            match if I.k = leadOf x.owner && !I.s.asleep x.owner then st.2 else none with
            | some e =>
              if r.effs.isEmpty then .error (rowLost x st.1 e.1 e.2 I.s) else .ok (r.effs, .wait (.drained x.ctx x.buf))
            | none => .ok (r.effs ++ drainStop x st (applyAll r.effs I.s), .wait (.drained x.ctx x.buf))) s

/-- The buffers that a block owns freed as by CMBDRAIN, the count discarded (R358); where its fault domain ends (`force`), at
once. -/
def freeBuffers (force : Bool) (b : Nat) (s : State) : List Effect :=
  chain s ((s.cmbs.filter fun x => x.owner == b).map fun x => fun s =>
    match s.cmb x.ctx x.buf with
    | none => []
    | some y =>
      let r := drainBuffer y force s
      r.effs ++ match r.stop with | none => [] | some st => drainStop y st (applyAll r.effs s))

end Sys2Proof.Machine
end

