-- ==== Sys2Proof/Machine/Domain.lean ====
section
/-! DEFINITION. The end of a fault domain: kernel faults (16 R395), the progress monitor's freeze and its stall
record (10 R255 to R260), and what a block's end does to PREQ and its context (16 R374, R397). -/
namespace Sys2Proof.Machine

/-- Whether a block belongs to a fault domain of a context. -/
def Block.inDomain (x : Block) (ctx dom : Nat) : Bool := x.ctx == ctx && x.domain == dom

/-- The die of a block. -/
def dieOfBlock (b : Nat) : Nat := b / Config.blocksPerCore / Config.coresPerDie

/-- PREQ of each die reads GO = 1 until every block of its context on the die is suspended or ended (R397). -/
def settlePreq (s : State) : List Effect :=
  let done := fun (d : Nat) (x : Word) =>
    bit x.toNat 31 && !(s.blocks.any fun p => dieOfBlock p.1 == d && p.2.ctx == x.toNat % 64)
  [.mgmt { s.mgmt with preq := s.mgmt.preq.mapIdx fun d x => if done d x then word (x.toNat % 64) else x }]

/-- Those of the contexts that are invalid and have no resident block left are freed, with their buffers and
all that the distributor holds for them (R374, R419). -/
def freeContexts (cs : List Nat) (s : State) : List Effect :=
  let gone := fun (c : Nat) => cs.contains c && !(s.ctxOf c).valid && !(s.blocks.any fun p => p.2.ctx == c)
  [.cmbs (s.cmbs.filter fun x => !gone x.ctx),
   .dist { s.dist with
     launches := s.dist.launches.filter fun l => !gone l.ctx
     suspended := s.dist.suspended.filter fun x => !gone x.block.ctx
     pass := s.dist.pass.filter fun x => !gone x.1
     meters := s.dist.meters.filter fun m => !gone m.ctx
     trees := s.dist.trees.filter fun r => !gone r.ctx
     woken := s.dist.woken.filter fun x => !gone x.1
     reading := s.dist.reading.filter fun x => !gone x.1
     taken := s.dist.taken.filter fun x => !gone x.1 },
   .colls (s.colls.filter fun x => !(x.finished && gone x.ctx))]

/-- The writes queued at home slices for warps that are no more go on without their makers (R410). -/
def orphan (inB : Nat → Bool) (s : State) : List Effect :=
  [.snap { s.snap with blocked := s.snap.blocked.map fun q => if q.sl < 8 && inB q.k then { q with k := 0, sl := 9 } else q }]

/-- Blocks leave the chip with everything that is theirs alone; what they have sent to other chips and is not acknowledged
stays outstanding, no warp's any more (R230). -/
def removeBlocks (bs : List Nat) (s : State) : List Effect :=
  let inB := fun (k : Nat) => bs.contains (blockOf k)
  let cs := bs.map fun b => b / Config.blocksPerCore
  let ctxs := bs.map fun b => (s.blk b).ctx
  let orphanReq := fun (r : Req) => if inB r.k then { r with k := engineKey } else r
  chain s [
    fun s =>
      [.fab { s.fab with reqs := (s.fab.reqs.filter fun r => !inB r.k || r.changes).map orphanReq },
       .colls (s.colls.filter fun x => x.finished || !bs.contains x.b),
       .cmbReqs (s.cmbReqs.filter fun q => q.chip != 0 || !inB q.k),
       .copies (s.copies.filter fun c => !inB c.k),
       .mats (s.mats.filter fun m => !inB m.k)],
    orphan inB,
    fun s => cs.flatMap fun c =>
      [.core c { s.core c with ready := (s.core c).ready.filter fun k => !inB k }],
    fun _ => bs.map Effect.delBlock,
    settlePreq, freeContexts ctxs]

/-- The end of the blocks of a fault domain (R395 steps 3 and 4): the stores made so far become visible, its buffers
are freed, its collectives are aborted on the other members, its launches take STATE 4, and every operation of the
blocks is gone with them. -/
def endDomain (s : State) (ctx dom code : Nat) : List Effect :=
  let bs := (s.blocks.filter fun p => p.2.inDomain ctx dom).map Prod.fst
  let ks := (s.warps.filter fun p => bs.contains (blockOf p.1)).map Prod.fst
  let ls := s.dist.launches.filter fun l => l.ctx == ctx && l.domain == dom
  chain s (
    (ks.map fun k => fun s => drainAll s k) ++
    (bs.map (freeBuffers true)) ++
    ((s.dist.suspended.filter fun x => x.block.inDomain ctx dom).map fun x =>
      freeBuffers true (suspendedOwner x.block.ctx x.sb)) ++
    (ls.map fun l => fun s => chain s [
      fun s => setLaunchState s ctx l.record l.epoch 4 code,
      fun s => journal s 2 0 (pack [(0, 64, l.jidx), (64, 8, 4), (72, 8, code)])]) ++
    [fun s =>
      let gone := s.colls.filter fun x => bs.contains x.b && !x.finished
      [.dist { s.dist with
          launches := s.dist.launches.filter fun l => !(l.ctx == ctx && l.domain == dom)
          suspended := s.dist.suspended.filter fun x => !x.block.inDomain ctx dom },
       .fab { s.fab with
          sent := s.fab.sent ++ gone.flatMap fun x => collAbortPackets s x 4 0xFFFFFFFF 0xFFFF },
       .frozen (s.frozen.filter fun x => !(x.1 == ctx && x.2.1 == dom))],
     removeBlocks bs])

/-- The traps raised in a fault domain and not yet taken (R395 step 2), and those of them that are kernel faults. -/
def State.trapsOf (s : State) (ctx dom : Nat) : List (Nat × Trap) :=
  s.warps.filterMap fun p =>
    if (s.blk (blockOf p.1)).inDomain ctx dom then p.2.ctl.trap.map fun u => (p.1, u) else none
def State.domainTraps (s : State) (ctx dom : Nat) : List (Nat × Trap) :=
  (s.trapsOf ctx dom).filter fun p => !s.takesHandler p.1 p.2

/-- Whether operations of a fault domain that have started are still to make accesses (R258, R395): copy commands with
accesses or requests to come, and rows promised to other chips. -/
def State.running (s : State) (ctx dom : Nat) : Bool :=
  let mine := fun (k : Nat) => (s.blk (blockOf k)).inDomain ctx dom
  (s.copies.any fun c => mine c.k && (c.stage == 6 || (c.stage == 1 && !(s.landed c && c.lands.isEmpty))))
    || s.cmbReqs.any fun q => q.chip == 0 && q.stage == 4 && mine q.k && !s.handling q.k

/-- A fault domain frozen on both dies (R258, R395). -/
def freezeBoth (ctx dom : Nat) (s : State) : List Effect :=
  [.frozen (s.frozen ++ ((span 0 2).map fun d => (ctx, dom, d)).filter fun x => !s.frozen.contains x)]

/-- A kernel fault (R395): the domain freezes on both dies; once what it has started is done, the faulting warp's record,
then that of every other trap raised in the domain, go to the host fault queue, and the domain ends. -/
def kernelFault (s : State) (k : Nat) (t : Trap) : List Effect :=
  let x := s.blk (blockOf k)
  chain s [
    fun s => [.ctl k { s.ctl k with trap := some t }],
    freezeBoth x.ctx x.domain,
    fun s =>
      let others := (s.trapsOf x.ctx x.domain).filter fun p => p.1 ≠ k
      if s.running x.ctx x.domain then []
      else chain s (((k, t) :: others).map (fun p => fun s => hfqAppend s x.ctx 0 (leBytes 576 (trapRecord s p.1 p.2)) (dieOf p.1)) ++
        [fun s => endDomain s x.ctx x.domain t.code])]

/-- KERNEL_FAULT (R395): the pending trap of a warp whose disposition is no handler; again, when what its domain has started
is done. -/
def execKernelFault (k : Nat) (s : State) : Out :=
  match (s.ctl k).trap with
  | none => commit s []
  | some t => if s.takesHandler k t then commit s [] else commit s (kernelFault s k t)

/-- What came for the owner of a buffer while it was asleep, once it takes it (R367 to R369): the late rows, the groups'
arrivals, the traps; an owner without a lead warp ends its domain at the first trap. -/
def settleDue (ctx buf : Nat) (s : State) : List Effect :=
  match s.cmb ctx buf with
  | none => []
  | some x =>
    let lead := leadOf x.owner
    let domain := match s.sleeper x.owner with | some y => y.block.domain | none => (s.blk x.owner).domain
    let noLead := match s.sleeper x.owner with
      | some y => !(y.live.any fun w => w.1 == 0)
      | none => (s.blk x.owner).restoring.isNone && (find s.warps lead).isNone
    if x.due.isEmpty && x.dueGroups.isEmpty && x.dueLate.isEmpty then []
    else if noLead && !x.due.isEmpty then
      (if s.running ctx domain then [] else endDomain s ctx domain ((x.due.map Trap.code).headD 0))
    else if s.asleep x.owner then []
    else
      chain s ([setCmb { x with due := [], dueGroups := [], dueLate := [] }] ++
        (x.dueLate.map fun r => lateRow ctx buf r.1 r.2.1 r.2.2) ++
        (x.dueGroups.map fun _ => engineArrive lead x.owner (bBoff x.desc) 0 0) ++
        x.due.map fun t => fun s => deferTrap s lead (engineSlice s lead) t)

/-- A block whose lead warp has come back to its safe clause is restored (R400). -/
def wakeOwner (b : Nat) (s : State) : List Effect :=
  let c := s.ctl (leadOf b)
  match (s.blk b).restoring with
  | none => []
  | some va =>
    if !c.priv && c.slices.any fun x => !x.inClause && x.pc.toNat == va then [.block b { s.blk b with restoring := none }] else []

/-- The waiting flags that a pending XSWAP keeps busy (R150). -/
def Ctl.swapFlag (c : Ctl) : Nat :=
  match c.xswap with
  | none => 0
  | some x => maskOf ((c.flagOps.filter fun o => o.id == x.op && o.flag != 15).map FlagOp.flag)

/-- The partner of a pending XSWAP as WADDR names it (R46): its warp number and its cluster rank. -/
def XSwap.addr (x : XSwap) : Nat := warpNo x.partner * 256 + coreOf x.partner % 16

/-- WADDR of a wait for a token range as it stands (R46): the output row of its first token not released. -/
def State.waddrNow (s : State) (k j : Nat) (cw : Nat × Nat) : Nat × Nat :=
  match ((s.ctl k).slice j).wait with
  | some (.release ctx buf lo hi _) =>
    match s.cmb ctx buf with
    | none => cw
    | some x =>
      match (span lo (hi - lo)).find? fun t => !x.released.contains t with
      | none => cw
      | some t => (cw.1, (bOut x.desc + t * bOstride x.desc) % 2 ^ 64)
  | _ => cw

/-- CAUSE and WADDR of a slice as a record of R46 gives them, busy WAIT flags included. -/
def State.causeOf (s : State) (k j : Nat) : Nat × Nat :=
  let c := s.ctl k
  let x := c.slice j
  let busy := s.waitBusy k j
  if x.stalled || x.yielded || busy = 0 then s.waddrNow k j (x.cause (blockOf k))
  else match c.xswap with
    | some y => if busy &&& c.swapFlag ≠ 0 then (0x0A, y.addr) else (0x0C, busy)
    | none => (0x0C, busy)

/-- The continuation record of a warp (R46); for a resident warp as for parking, FRAME 0 (R260). -/
def crec (s : State) (k : Nat) : Nat :=
  let c := s.ctl k
  let j := lowest 8 (liveSlices (s.warp k)) % 8
  let cw := if c.st = .active || c.st = .pending then s.causeOf k j else (c.cause, c.waddr)
  pack [(192, 64, cw.2), (128, 64, (c.slice j).pc.toNat), (64, 64, if c.st.resident then 0 else if 2 ^ 63 ≤ c.frame then 2 ^ 63 + c.frame % 2 ^ 63 else c.frame),
    (48, 16, c.joinFor cw.1), (40, 8, cw.1), (32, 8, warpNo k), (29, 3, blockOf k % 8), (16, 6, (s.blk (blockOf k)).ctx)]

/-- The number of a warp's state in a stall record (R260). -/
def WState.code : WState → Nat
  | .active => 0
  | .pending => 1
  | .parking => 2
  | .parkedWaiting => 3
  | .parkedReady => 4
  | .exited => 5

/-- An entry of a stall record (R260). -/
def stallEntry (s : State) (k : Nat) : Nat :=
  let c := s.ctl k
  let j := lowest 8 (liveSlices (s.warp k)) % 8
  pack [(256, 256, crec s k), (224, 32, (s.blk (blockOf k)).idx), (216, 8, coreOf k % 96), (208, 8, c.st.code),
    (200, 8, maskOf ((span 0 8).filter fun j => (c.slice j).regang.isSome)), (188, 12, c.busy j)]

/-- The unexited warps of a fault domain on a die. -/
def State.domainWarps (s : State) (ctx dom die : Nat) : List Nat :=
  (s.warps.filter fun p => decide (p.1 < helperBase) && dieOf p.1 == die && p.2.ctl.st != .exited
    && (s.blk (blockOf p.1)).inDomain ctx dom).map Prod.fst

/-- The engine operations of a fault domain outstanding on a die. -/
def State.domainOps (s : State) (ctx dom die : Nat) : Nat :=
  let mine := fun (b : Nat) => dieOfBlock b == die && (s.blk b).inDomain ctx dom
  (s.copies.filter fun c => mine (blockOf c.k)).length + (s.mats.filter fun m => mine (blockOf m.k)).length
    + (s.colls.filter fun x => !x.finished && mine x.b).length
    + (s.cmbReqs.filter fun q => q.chip == 0 && q.stage != 6 && mine (blockOf q.k)).length

/-- A stall record (R259): the times are counts of the die's own management clock (log entry 7). -/
def stallRecord (s : State) (ctx dom die : Nat) (first : Bool) : List Byte :=
  let ks := s.domainWarps ctx dom die
  let last := Config.freeNat (1048576 * s.fresh + 1000001 + die)
  leBytes 64 (pack [(448, 64, s.mcycle), (384, 64, last), (352, 32, ks.length),
    (336, 16, min 65535 (s.domainOps ctx dom die)), (320, 16, dom), (312, 8, die), (304, 8, if first then 1 else 0)])
    ++ ks.flatMap fun k => leBytes 64 (stallEntry s k)

/-- Whether a domain is frozen on a die (R258). -/
def State.isFrozen (s : State) (ctx dom die : Nat) : Bool := s.frozen.contains (ctx, dom, die)

/-- What holds the idle count still (R257): a warp escalated to the host, or stopped at a debugger's trap. -/
def State.idleHeld (s : State) (ctx dom die : Nat) : Bool :=
  !(s.mgmt.pmcfg.getD die 0).getLsbD 0 || (s.warps.any fun p =>
    dieOf p.1 == die && (s.blk (blockOf p.1)).inDomain ctx dom &&
      ((!p.2.ctl.st.resident && p.2.ctl.cause == 7 && p.2.ctl.st != .exited)
        || p.2.ctl.handler == some 0x15 || p.2.ctl.handler == some 0x17
        || (p.2.ctl.helper.isSome && p.2.ctl.slices.any fun x =>
              match x.wait with | some (.escalated _ _ _) => true | _ => false)))

/-- Whether a resident warp of a domain on a die, or a helper (R323), has a word to issue: such a one completes a clause
before any window passes (R51, R255, R256). A slice whose word cannot take place has none. -/
def State.domainBusy (s : State) (ctx dom die : Nat) : Bool :=
  let helpers := (s.warps.filter fun p => decide (helperBase ≤ p.1) && dieOf p.1 == die
    && (s.blk (blockOf p.1)).inDomain ctx dom).map Prod.fst
  (s.domainWarps ctx dom die ++ helpers).any fun k =>
    let c := s.ctl k
    (c.st == .active || c.st == .pending) && c.trap.isNone &&
      (setBits 8 (liveSlices (s.warp k))).any fun j =>
        s.sliceReady k (c.slice j) && (c.slice j).wait != some .blocked && s.waitBusy k j == 0

/-- MONITOR_FREEZE (R256 to R258): the die's monitor freezes a domain that has work and completes nothing, and writes
its stall record. -/
def execMonitorFreeze (ctx dom die : Nat) (s : State) : Out :=
  if s.idleHeld ctx dom die || s.domainBusy ctx dom die || s.isFrozen ctx dom die
      || ((s.domainWarps ctx dom die).isEmpty && s.domainOps ctx dom die = 0) then commit s []
  else
    commit s (chain s [
      fun s => [.frozen ((ctx, dom, die) :: s.frozen)],
      fun s => hfqAppend s ctx 1 (stallRecord s ctx dom die true) die])

/-- A stall ends its domain (R258), once what the domain has started is done. -/
def stallEnd (ctx dom : Nat) (s : State) : List Effect :=
  if s.running ctx dom then []
  else chain s (((s.trapsOf ctx dom).map fun p => fun s => hfqAppend s ctx 0 (leBytes 576 (trapRecord s p.1 p.2)) (dieOf p.1)) ++
    [fun s => endDomain s ctx dom 0x11])

/-- FREEZE_SIGNAL (R258): the other die freezes the domain, unless its own monitor has, and writes its stall record; the
domain's blocks end, at once or by this step again. A domain that a kernel fault has frozen ends by that. -/
def execFreezeSignal (ctx dom die : Nat) (s : State) : Out :=
  if !s.isFrozen ctx dom (1 - die) then commit s []
  else if s.isFrozen ctx dom die then commit s (if (s.domainTraps ctx dom).isEmpty then stallEnd ctx dom s else [])
  else
    commit s (chain s [
      fun s => [Effect.frozen ((ctx, dom, die) :: s.frozen)],
      fun s => hfqAppend s ctx 1 (stallRecord s ctx dom die false) die,
      stallEnd ctx dom])

end Sys2Proof.Machine
end

