-- ==== Sys2Proof/Machine/Exit.lean ====
section
/-! DEFINITION. EXIT (05 R117) and the save exit of a diverted warp (16 R399). -/
namespace Sys2Proof.Machine

/-- Whether the counters and flags of a warp let it save-exit (R399). -/
def Ctl.settled (c : Ctl) : Bool := c.outs.isEmpty && c.flagOps.all fun o => o.flag == 15

/-- The slices after lanes have exited: those with no lane left drop their reservations (R117), and the traps deferred
to them are the lowest live slice's, or, in a warp that has exited, the warp's own (R335). -/
def Ctl.dropDead (c : Ctl) (live : Nat) : Ctl :=
  let orphans := (setBits 8 (255 - live % 256)).flatMap fun j => (c.slice j).defer
  let c := c.onSlices (255 - live % 256) fun y => { y with resv := none, defer := [] }
  match setBits 8 live with
  | j :: _ => c.onSlices (2 ^ j) fun y => { y with defer := y.defer ++ orphans }
  | [] => { c with trap := c.trap.orElse fun _ => orphans.head? }

/-- A REGANG whose waiting slices, now that others have exited, all wait at different addresses (R121). -/
def regangClash (k : Nat) (s : State) : List Effect :=
  let w := s.warp k
  if w.ctl.parted && regangClashes w w.ctl && w.ctl.trap.isNone
  then [.ctl k { w.ctl with trap := some (regangTrap w w.ctl) }] else []

/-- Lanes of a warp exit; the warp is Exited when none is left, which may fire a collective (R117, R345). -/
def exitLanes (k lanes : Nat) (save : Bool) (s : State) : List Effect :=
  chain s [
    fun s => [.live k ((s.warp k).readM 14 &&& ~~~ word lanes), .mask k 0 ((s.warp k).readM 0 &&& ~~~ word lanes)],
    fun s =>
      let w := s.warp k
      let live := liveSlices w
      let c := w.ctl.dropDead live
      [.ctl k (if w.readM 14 = 0 then { c with st := .exited, ended := save } else c)],
    regangClash k,
    fun s => if (s.ctl k).st = .exited
      then collTry (blockOf k) ((s.blk (blockOf k)).coll.length + 1) s else []]

/-- EXIT (R117, R312): in a diverted warp an EXIT with m0 = m14 is a save exit, which waits for the warp's counters and
flags; any other raises illegal-instruction there (R399). -/
def execExit (s : State) : Out :=
  issue (fun _ => { cls := .a, helper := false })
    (fun I =>
      if I.c.span.any fun x => bit I.active x.lane then .error { code := 0x01 }
      else if I.c.divert.isSome then
        if I.m 0 ≠ I.m 14 then .error { code := 0x01 }
        else if !I.c.settled then .ok ([], .again)
        else .ok (exitLanes I.k (I.m 14).toNat true I.s, .ends)
      else .ok (exitLanes I.k I.active false I.s, .ends)) s

end Sys2Proof.Machine
end

