-- ==== Sys2Proof/Machine/System.lean ====
section
/-! DEFINITION. TRAP, BRK, SRD, SWR, SRET, LAUNCH and JOIN (16 R375, R376, R385, R386, R392, R393). -/
namespace Sys2Proof.Machine

/-- TRAP and BRK (R393): the number is AUX. -/
def execTrap (b : SOp) (s : State) : Out :=
  issue (chkA (opRegs b)) (fun I => .error { code := 0x16, aux := (I.op b).toNat }) s
def execBrk (b : SOp) (s : State) : Out :=
  issue (chkA (opRegs b)) (fun I => .error { code := 0x15, aux := (I.op b).toNat }) s

/-- The numbers of R375, those of 64 bits, those a user-mode warp may read, and those no one may write. -/
def sysNumbers : List Nat :=
  [0x00, 0x01, 0x02, 0x03, 0x04, 0x10, 0x12, 0x14, 0x16, 0x18, 0x1A, 0x1C, 0x1E, 0x20, 0x22, 0x24, 0x26, 0x28]
def sysWide (n : Nat) : Bool := decide (0x10 ≤ n)
def sysUserRead (n : Nat) : Bool := [0x00, 0x01, 0x02, 0x24, 0x26].contains n
def sysReadOnly (n : Nat) : Bool := [0x00, 0x01, 0x24, 0x26].contains n

/-- The bits of a register that hold what is written; the others read zero (R49, R129, R178, R197, R206, R375, R391). -/
def sysKept (n : Nat) (x : DWord) : DWord :=
  let k := fun (m : DWord) => x &&& m
  if n = 0x03 then k 0xF
  else if n = 0x04 then k 0xFFFF
  else if n = 0x12 then k 0x01FFFFFFFFFFFFFF
  else if n = 0x14 then k 0x000007FFFFFFF000
  else if n = 0x18 then k 0x81FFFFFFFFFFFFFC
  else if n = 0x1E then k 0xF9FFFFFFFFFFFFF8
  else if n = 0x22 then k 0xFFFFFFFFFFFF0000
  else x

/-- CORE_ID (R375). -/
def Issue.coreId (I : Issue) : Nat := I.s.chip * 512 + dieOf I.k * 256 + coreOf I.k % Config.coresPerDie

/-- A system register as the issuing context reads it (R375). -/
def Issue.sysRead (I : Issue) (n : Nat) : DWord :=
  let x := I.s.ctxOf I.blk.ctx
  match n with
  | 0x00 => dword I.coreId
  | 0x01 => dword I.blk.ctx
  | 0x02 => I.w.lfsr.setWidth 64
  | 0x03 => I.c.dbgctl.setWidth 64
  | 0x04 => (I.s.core (coreOf I.k)).parkDelay.setWidth 64
  | 0x10 => x.saveArea
  | 0x12 => x.stkcfg
  | 0x14 => x.ptroot
  | 0x16 => x.ftpool
  | 0x18 => I.c.ftesc
  | 0x1A => x.tvec
  | 0x1C => x.tfbase
  | 0x1E => I.c.tret
  | 0x20 => x.hfq
  | 0x22 => x.pscfg
  | 0x24 => I.c.pslot
  | 0x26 => dword (I.s.core (coreOf I.k)).cycle
  | _ => x.htvec

/-- The core's cycle count moved on by an unknown number of cycles, at least one since it was last read (log entry 8). -/
def Issue.passCycles (I : Issue) : List Effect :=
  let x := I.s.core (coreOf I.k)
  [.core (coreOf I.k) { x with cycle := (x.cycle + 1 + Config.freeNat (1048576 * I.s.fresh + 1000010)) % 2 ^ 64 }]

/-- SRD (R376). -/
def execSrd (d n : Nat) (s : State) : Out :=
  issue (fun _ => { cls := .a, once := true, legal := sysNumbers.contains n && (!sysWide n || d % 2 == 0)
                    priv := !sysUserRead n, ss := if sysWide n then [d, d + 1] else [d] })
    (fun I =>
      let pre := if n = 0x26 then I.passCycles else []
      let x := ({ I with s := applyAll pre I.s } : Issue).sysRead n
      .ok (pre ++ (if sysWide n then pairOut I.k d x else [.sreg I.k d (x.setWidth 32)]), .next)) s

/-- A system register written (R376): context-scope registers for every warp of the context. -/
def Issue.sysWrite (I : Issue) (n : Nat) (x : DWord) : List Effect :=
  let c := I.s.ctxOf I.blk.ctx
  let ctx := fun (y : Ctx) => [Effect.ctx I.blk.ctx y]
  match n with
  | 0x02 => [.lfsr I.k (x.setWidth 32)]
  | 0x03 => [.ctl I.k { I.c with dbgctl := x.setWidth 32 }]
  | 0x04 => [.core (coreOf I.k) { I.s.core (coreOf I.k) with parkDelay := x.setWidth 32 }]
  | 0x10 => ctx { c with saveArea := x }
  | 0x12 => ctx { c with stkcfg := x }
  | 0x14 => ctx { c with ptroot := x }
  | 0x16 => ctx { c with ftpool := x }
  | 0x18 => [.ctl I.k { I.c with ftesc := x }]
  | 0x1A => ctx { c with tvec := x }
  | 0x1C => ctx { c with tfbase := x }
  | 0x1E => [.ctl I.k { I.c with tret := x }]
  | 0x20 => ctx { c with hfq := x }
  | 0x22 => ctx { c with pscfg := x }
  | _ => ctx { c with htvec := x }

/-- The alignment that a written value must have (R376). -/
def sysAlign (n : Nat) : Nat :=
  if n = 0x10 || n = 0x1C then 65536 else if n = 0x20 then 1024 else if n = 0x1A || n = 0x28 then 8 else 1

/-- Whether SWR's operand is one its register admits (R376): a 64-bit register needs an even scalar register. -/
def sysOperand (n : Nat) (a : SOp) : Bool :=
  !sysWide n || (match a with | .reg r => r % 2 == 0 && decide (r ≤ 158) | _ => false)

/-- The registers that SWR's operand names. -/
def sysRegs (n : Nat) (a : SOp) : List Nat :=
  match a with | .reg r => if sysWide n then [r, r + 1] else [r] | _ => []

/-- The value of SWR's operand. -/
def Issue.sysVal (I : Issue) (n : Nat) (a : SOp) : DWord :=
  match a with | .reg r => if sysWide n then I.pair r else (I.rs r).setWidth 64 | _ => (I.op a).setWidth 64

/-- SWR (R376). -/
def execSwr (n : Nat) (a : SOp) (s : State) : Out :=
  issue (fun _ => { cls := .a, once := true
                    legal := sysNumbers.contains n && !sysReadOnly n && sysOperand n a
                    priv := n != 0x02, ss := sysRegs n a })
    (fun I =>
      let x := I.sysVal n a
      if x.toNat % sysAlign n ≠ 0 then .error { code := 0x06, addr := x.toNat }
      else .ok (I.sysWrite n (sysKept n x), .next)) s

/-- The resolution word of an escalation (R206): its virtual address. -/
def resolutionVa (ftesc : DWord) : Nat :=
  let low := bits ftesc.toNat 56 2 * 4
  if bit low 56 then low + (2 ^ 64 - 2 ^ 57) else low

/-- An escalating SRET (R206): the warp parks with CAUSE 0x07 until the word is nonzero, and then the SRET completes; a
slice of a parted warp stalls, and its warp parks as R43 says; a helper, or a warp that lends slices or has a span, stalls
(R322, R323). A resolution word on another chip raises protection (log entry 87). -/
def Issue.escalate (I : Issue) : Except Trap (List Effect × Flow) :=
  let va := resolutionVa I.c.ftesc
  match I.s.virt 0 I.blk.ctx va 0 false (coreOf I.k) with
  | .error e => .error (lanesTrap I.s 0 0 0 [(I.lane, va, e)])
  | .ok (p, es) =>
    if p.sp ≠ .phys then .error (lanesTrap I.s 0 0 0 [(I.lane, va, protection)])
    else
      let ok := decide (I.s.phys p.off 4 ≠ 0)
      let c := { (I.c.onSlices I.sl fun x => { x with park := if I.c.parted then some (7, va, []) else none }) with
        ftesc := I.c.ftesc &&& 0x7FFFFFFFFFFFFFFF }
      let stay := c.parted || c.helper.isSome || c.span.isSome || !(I.s.lent I.k).isEmpty
      .ok (es ++ [.ctl I.k (if stay then c else c.park 7 va)], .wait (.escalated va p.off ok))

/-- SRET (R392, R206). -/
def execSret (s : State) : Out :=
  issue (fun _ => { cls := .s, once := true })
    (fun I =>
      if I.c.ftesc.getLsbD 63 then I.escalate
      else match I.s.resumeClause I.k I.c.tret with
        | .error t => .error t
        | .ok (r, es) =>
          .ok (chain I.s [
            fun _ => es,
            fun s => leaveHandler s I.k r,
            fun s => [.ctl I.k ((s.ctl I.k).endClause I.sl (!(s.lent I.k).isEmpty))]], .placed)) s

/-- The address checks of LAUNCH and JOIN (R385): alignment, canonical, no aperture, then translation for an atomic
update of n bytes at an offset; the structure must lie in this chip's memory (log entry 9). -/
def Issue.recordAt (I : Issue) (va align off n : Nat) : Except Trap (Place × List Effect) :=
  if va % align ≠ 0 then .error { code := 0x06, addr := va }
  else match generic va with
    | .bad => .error { code := 0x07, addr := va }
    | .virt _ =>
      match I.s.virt 0 I.blk.ctx (va + off) 2 (!I.c.priv) (coreOf I.k) with
      | .error e => .error (lanesTrap I.s 2 0 0 [(I.lane, va + off, e)])
      | .ok (p, es) =>
        if p.sp = .phys && !p.mgmt then
          (if I.s.poisonedRange p.off n then .error { code := 0x12, addr := va } else .ok (p, es))
        else .error (lanesTrap I.s 2 0 0 [(I.lane, va + off, protection)])
    | _ => .error (lanesTrap I.s 2 0 0 [(I.lane, va, protection)])

/-- The line 0 that a LAUNCH reads (R377, R385). -/
def Issue.line0At (I : Issue) (va : Nat) : Except Trap Nat :=
  match I.s.virt 1 I.blk.ctx va 0 (!I.c.priv) (coreOf I.k) with
  | .error e => .error (lanesTrap I.s 0 0 0 [(I.lane, va, e)])
  | .ok (p, _) => if p.sp = .phys then .ok (I.s.phys p.off 128)
      else .error (lanesTrap I.s 0 0 0 [(I.lane, va, protection)])

/-- The three steps of an append at line 1 (R379, R385): the entry, then TAIL. -/
def appendRecord (who : Nat × Nat) (line1 entry rec tail : Nat) (s : State) : List Effect :=
  chain s [
    fun s => s.physWrite entry (leBytes 8 rec) (s.epochOf who.1) (some who),
    fun s => s.physWrite (line1 + 4) (leBytes 4 (tail + 1)) (s.epochOf who.1) (some who)]

/-- LAUNCH (R385): a release at device scope, then the append of the record to the region's launch queue. -/
def execLaunch (d a b : Nat) (s : State) : Out :=
  issue (fun _ => { cls := .l, once := true, ss := [d, a, a + 1, b, b + 1] })
    (fun I =>
      let rec_ := (I.pair a).toNat
      let rcb := (I.pair b).toNat
      if rec_ % 128 ≠ 0 then .error { code := 0x06, addr := rec_ }
      else if !I.c.storeQ.isEmpty then .ok (I.release [] .again)
      else match I.recordAt rcb 256 128 8, (match generic rec_ with
          | .bad => some ({ code := 0x07, addr := rec_ } : Trap)
          | .virt _ => none
          | _ => some (lanesTrap I.s 2 0 0 [(I.lane, rec_, protection)])) with
        | _, some t => .error t
        | .error t, _ => .error t
        | .ok (p, es), none =>
          match I.line0At rcb with
          | .error t => .error t
          | .ok line =>
            let head := I.s.phys p.off 4
            let tail := I.s.phys (p.off + 4) 4
            let cap := 2 ^ rcbQcapl line
            if rcbQcapl line = 0 || cap ≤ (tail + 2 ^ 32 - head) % 2 ^ 32 then
              .ok (I.release [fun _ => es ++ [.sreg I.k d 0]] .next)
            else match I.recordAt (rcbQbase line + 8 * (tail % cap)) 8 0 8 with
              | .error t => .error t
              | .ok (q, fs) =>
                if I.s.writeWaits p.off (I.s.epochOf I.k) || I.s.writeWaits q.off (I.s.epochOf I.k) then
                  .ok (chain I.s [fun s => pinPage s p.off (s.epochOf I.k), fun s => pinPage s q.off (s.epochOf I.k)], .again)
                else
                  .ok (I.release [
                    fun _ => es ++ fs,
                    appendRecord (I.k, lowest 8 I.sl) p.off q.off rec_ tail,
                    fun _ => [.sreg I.k d 1]] .next)) s

/-- Every region of a context with a queue is to be read again: a record of it has become ready (R379, R386). -/
def wakeContext (ctx : Nat) (s : State) : List Effect :=
  let new := (s.dist.trees.filter fun r => r.ctx == ctx && rcbQcapl r.line != 0).map fun r => (r.ctx, r.addr)
  [.dist { s.dist with reading := s.dist.reading ++ new.filter fun x => !s.dist.reading.contains x }]

/-- JOIN (R386): a release at device scope, then one read-modify-write of the record's JOIN word. -/
def execJoin (d a : Nat) (b : SOp) (s : State) : Out :=
  issue (fun _ => { cls := .a, once := true, ss := [d, a, a + 1] ++ opRegs b })
    (fun I =>
      match I.recordAt (I.pair a).toNat 128 76 4 with
      | .error t => .error t
      | .ok (p, es) =>
        if I.s.writeWaits p.off (I.s.epochOf I.k) then .ok (pinPage I.s p.off (I.s.epochOf I.k), .again)
        else
          .ok (I.release [
            fun _ => es,
            fun s =>
              let old := s.phys p.off 4
              let n := (I.op b).toNat
              chain s [
                fun s => if n ≤ old then
                    s.physWrite p.off (leBytes 4 (old - n)) (s.epochOf I.k) (some (I.k, lowest 8 I.sl)) else [],
                fun s => if n = old || old = 0 then wakeContext I.blk.ctx s else [],
                fun _ => [.sreg I.k d (word old)]]] .next)) s

end Sys2Proof.Machine
end

