-- ==== Sys2Proof/Machine/Launch.lean ====
section
/-! DEFINITION. Launch queues and records: reading the region tree, taking and checking a record, and the end of a
block and of a launch (16 R374, R377, R379 to R381; 04 R95 to R98; 02 R36). -/
namespace Sys2Proof.Machine

/-- A launch-error item (R394): the address concerned, the cause of R381, and for cause 7 the completing record
(log entry 10). -/
def launchError (ctx addr cause rec : Nat) (s : State) : List Effect :=
  hfqAppend s ctx 2 (leBytes 8 addr ++ leBytes 8 cause ++ leBytes 8 rec)

/-- The regions of a tree (R377), depth first: what was read, the region control blocks that were skipped, and what
the walker did. The first argument bounds the regions read. -/
def readTree (ctx : Nat) : Nat → List (Nat × List Nat) → State → List Rcb × List Nat × List Effect
  | 0, _, _ => ([], [], [])
  | _, [], _ => ([], [], [])
  | n + 1, (a, path) :: rest, s =>
    if a = 0 then readTree ctx n rest s
    else match if a % 256 ≠ 0 then none else (s.device 31 ctx a false).filter fun p => !s.poisonedRange p.1 256 with
      | none =>
        let r := readTree ctx n rest s
        (r.1, a :: r.2.1, r.2.2)
      | some (pa, es) =>
        let line := s.phys pa 128
        let r := readTree ctx n ((rcbChild line, a :: path) :: (rcbSib line, path) :: rest) (applyAll es s)
        (⟨ctx, a, a :: path, line, pa + 128⟩ :: r.1, r.2.1, es ++ r.2.2)

/-- The tree of a context read again (R377): its queues are then served, and each region skipped gives an item. -/
def rereadTree (ctx : Nat) (s : State) : List Effect :=
  let root := (s.ctxOf ctx).root.toNat
  let r := readTree ctx 65536 [(root, [])] s
  chain s ([
    fun _ => r.2.2,
    fun s => [.dist { s.dist with
      trees := s.dist.trees.filter (fun x => x.ctx ≠ ctx) ++ r.1
      woken := s.dist.woken.filter fun x => x ≠ (ctx, root) }],
    wakeContext ctx] ++ r.2.1.map fun a => launchError ctx a 6 0)

/-- TREE_REREAD (R377): after a write to line 1 of the root. -/
def execTreeReread (ctx : Nat) (s : State) : Out :=
  if (s.ctxOf ctx).valid && s.dist.woken.contains (ctx, (s.ctxOf ctx).root.toNat)
  then commit s (rereadTree ctx s) else commit s []

/-- A region's queue is to be read (R379). -/
def startReading (ctx rcb : Nat) (s : State) : List Effect :=
  [.dist { s.dist with
    woken := s.dist.woken.filter fun x => x ≠ (ctx, rcb)
    reading := if s.dist.reading.contains (ctx, rcb) || rcbQcapl (s.rcb ctx rcb) = 0 then s.dist.reading
      else s.dist.reading ++ [(ctx, rcb)] }]

/-- QUEUE_WAKE (R379): a write to line 1 of a region wakes the distributor to read its queue; of the root, to read the tree
again and with it every queue (R377). -/
def execQueueWake (ctx rcb : Nat) (s : State) : Out :=
  if !s.dist.woken.contains (ctx, rcb) then commit s []
  else if (s.ctxOf ctx).valid && rcb = (s.ctxOf ctx).root.toNat then commit s (rereadTree ctx s)
  else commit s (startReading ctx rcb s)

/-- HEAD and TAIL of a region's queue as its line 1 holds them (R377). -/
def State.queueHead (s : State) (r : Rcb) : Nat := s.phys r.line1 4
def State.queueTail (s : State) (r : Rcb) : Nat := s.phys (r.line1 + 4) 4

/-- The queue indices that the distributor considers: the first 64 from HEAD (R379). -/
def State.queueSpan (s : State) (r : Rcb) : List Nat :=
  (span (s.queueHead r) (min 64 ((s.queueTail r + 2 ^ 32 - s.queueHead r) % 2 ^ 32))).map (· % 2 ^ 32)

/-- The address of a queue's entry. -/
def Rcb.entryVa (r : Rcb) (n : Nat) : Nat := rcbQbase r.line + 8 * (n % 2 ^ rcbQcapl r.line)

/-- The region of a context at an address, as last read. -/
def State.region? (s : State) (ctx addr : Nat) : Option Rcb := s.dist.trees.find? fun r => r.ctx == ctx && r.addr == addr

/-- QUEUE_RECHECK (R379): claimed entries that held 0 are read again. -/
def execQueueRecheck (ctx rcb : Nat) (s : State) : Out :=
  match s.region? ctx rcb with
  | none => commit s []
  | some r =>
    if (s.queueSpan r).any fun n =>
        !s.dist.taken.contains (ctx, rcb, n) && s.deviceRead ctx (r.entryVa n) 8 == some 0
    then commit s (startReading ctx rcb s) else commit s []

/-- The bytes of a context's memory as the distributor reads them; none on a fault or poison. No byte is read of none. -/
def State.ctxBytes (s : State) (ctx va n : Nat) : Option (Nat × List Effect) :=
  if n = 0 then some (0, [])
  else match generic va, generic (va + n - 1) with
  | .virt _, .virt _ =>
    match s.engineBytes ctx false va n with
    | .ok (bytes, none, es) => some (ofBytes bytes, es)
    | _ => none
  | _, _ => none

/-- The ranges and alignments of a kernel image header's fields (R95), and the fields that must be zero. -/
def headerFields (h : Nat) : Bool :=
  let f := bits h
  let within := fun (x lo hi : Nat) => decide (lo ≤ x) && decide (x ≤ hi)
  let vb := fun (x lo : Nat) => within x lo 256 && x % 8 == 0
  f 31 0 == 0x4E4C4B31 && f 47 32 == 1
    && f 1023 752 == 0 && f 575 560 == 0 && f 447 432 == 0 && f 287 272 == 0 && f 63 48 == 0
    && within (f 503 496) 0 4 && (if f 503 496 = 4 then within (f 511 504) 1 128 else f 511 504 == 0)
    && f 495 480 % 8 == 0 && decide (f 495 480 ≤ 4096) && f 479 448 % 256 == 0 && decide (f 479 448 ≤ 1048576)
    && decide (8 ≤ f 431 416) && decide (f 383 376 ≤ 16) && decide (f 375 368 ≤ 16)
    && vb (f 367 352) 0 && vb (f 351 336) 8 && vb (f 335 320) 8 && within (f 319 312) 1 32
    && decide (f 311 304 ≤ 4) && decide (f 303 296 ≤ 8) && within (f 295 288) 1 24
    && f 735 704 % 16 == 0 && (f 751 736 != 0 || f 735 704 == 0) && f 671 640 % 64 == 0 && f 607 576 % 16 == 0
    && f 543 512 % 8 == 0 && f 255 224 % 16 == 0 && decide (0x80 ≤ f 127 96) && f 127 96 % 8 == 0

/-- The sizes of an image's parts (R96): splits, sections and tables within the image, an empty table's offset too (log
entry 85). -/
def headerSizes (h : Nat) : Bool :=
  let f := bits h
  let sz := f 95 64
  decide (f 127 96 ≤ f 671 640)
    && decide (f 399 384 + f 415 400 + f 431 416 ≤ 96)
    && decide (128 * max (f 335 320) (max (f 351 336) (f 367 352)) ≤ f 399 384 * 16384)
    && decide (f 479 448 ≤ f 415 400 * 16384)
    && decide (f 671 640 + f 703 672 ≤ sz) && decide (f 607 576 + 16 * f 639 608 ≤ sz)
    && decide (f 543 512 + 8 * f 559 544 ≤ sz) && decide (f 255 224 + 16 * f 271 256 ≤ sz)
    && decide (f 735 704 + 16 * f 751 736 ≤ sz)

/-- An object of the shared-object table (R98): its offset and bytes, if its entry is admitted. -/
def sharedObject (shblk e : Nat) : Option (Nat × Nat) :=
  let k := bits e 63 56
  let p := bits e 55 40
  let off := bits e 19 0
  let size := if k = 0 then 64 + 4 * p else if k = 1 then 4 else 8
  let lo := if k = 0 then 2 else 1
  let hi := if k = 0 then 64 else if k = 1 then 36 else 65535
  let al := if k = 0 then 64 else if k = 1 then 4 else 8
  if k ≤ 2 && bits e 39 20 = 0 && lo ≤ p && p ≤ hi && off % al = 0 && off + size ≤ shblk then some (off, size) else none

/-- Whether the objects of a table are admitted and do not overlap (R98). -/
def objectsOk (shblk : Nat) (es : List Nat) : Bool :=
  let os := es.map (sharedObject shblk)
  let xs := os.filterMap id
  os.all Option.isSome && (span 0 xs.length).all fun i => (span 0 i).all fun j =>
    let a := xs.getD i (0, 0)
    let b := xs.getD j (0, 0)
    decide (a.1 + a.2 ≤ b.1) || decide (b.1 + b.2 ≤ a.1)

/-- The image that a header describes, at a base (R95). -/
def imageOf (base h : Nat) : Image :=
  let f := bits h
  { base, ne := f 295 288, nm := f 303 296, nc := f 311 304, lastl := f 319 312, vbe := f 335 320, vbm := f 351 336
    vbc := f 367 352, tiles := f 375 368, shblk := f 479 448, entryE := f 159 128, entryM := f 191 160
    entryC := f 223 192, cgsize := f 383 376, regg := f 399 384, shg := f 415 400, l1g := f 431 416
    curve := f 503 496, swzw := f 511 504, safeoff := f 255 224, safecnt := f 271 256 }

/-- Whether an entry offset of a role is admitted (R96): zero without warps, else a clause start in the code section;
none where its words cannot be read. -/
def State.entryOk (s : State) (ctx base h count entry : Nat) : Option Bool :=
  if count = 0 then some (entry == 0)
  else if (base + entry) % 8 ≠ 0 || entry < bits h 127 96 || bits h 671 640 < entry + 8 then some false
  else (s.ctxBytes ctx (base + entry) 8).map fun x => headerOk (x.1 % 2 ^ 32) (x.1 / 2 ^ 32)

/-- The check of a kernel image (R96): RCODE 3 where it cannot be read, 1 where it fails. -/
def State.imageCheck (s : State) (ctx base : Nat) : Except Nat Image :=
  match s.ctxBytes ctx base 128 with
  | none => .error 3
  | some (h, _) =>
    if !headerFields h || !headerSizes h then .error 1
    else
      let f := bits h
      match s.ctxBytes ctx (base + f 543 512) (8 * f 559 544), s.entryOk ctx base h (f 295 288) (f 159 128),
          s.entryOk ctx base h (f 303 296) (f 191 160), s.entryOk ctx base h (f 311 304) (f 223 192) with
      | some (objs, _), some a, some b, some c =>
        if a && b && c && objectsOk (f 479 448) ((span 0 (f 559 544)).map fun i => bits objs (64 * i + 63) (64 * i))
        then .ok (imageOf base h) else .error 1
      | _, _, _, _ => .error 3

/-- The fields of a launch record (R380). -/
def recSucc (r n : Nat) : Nat := bits r (831 + 64 * n) (768 + 64 * n)
def recKimg (r : Nat) : Nat := bits r 767 704
def recArgs (r : Nat) : Nat := bits r 703 640
def recJoin (r : Nat) : Nat := bits r 639 608
def recNext (r : Nat) : Nat := bits r 607 576
def recGy (r : Nat) : Nat := bits r 543 528
def recGx (r : Nat) : Nat := bits r 527 512
def recSwzw (r : Nat) : Nat := bits r 511 504
def recCurve (r : Nat) : Nat := bits r 503 501
def recOver (r : Nat) : Bool := bit r 500

/-- Whether a record's own fields are admitted (RCODE 2 of R381). -/
def recordOk (r : Nat) : Bool :=
  bits r 499 496 == 0 && bits r 479 0 == 0 && recGx r != 0 && recGy r != 0 &&
    (!recOver r || (decide (recCurve r ≤ 4) &&
      (if recCurve r = 4 then decide (1 ≤ recSwzw r) && decide (recSwzw r ≤ 128) else recSwzw r == 0)))

/-- Whether a core, or its cluster, is fenced (R26). -/
def State.coreFenced (s : State) (core : Nat) : Bool :=
  s.isFenced 0 (core / 96) (core % 96) || s.isFenced 2 (core / 96) (core % 96 / 16)

/-- Whether some budget on a path is smaller than one block's charge (RCODE 5 of R381). -/
def State.budgetShort (s : State) (ctx : Nat) (x : Image) (path : List Nat) : Bool :=
  path.any fun a =>
    let l := s.rcb ctx a
    !roomIn 32 (rcbCskib l) 0 x.cskib || !roomIn 32 (rcbTskib l) 0 x.tskib

/-- The checks of a taken record (R381): its image, or the refusal's code. The order of the checks is log entry 10. -/
def State.recordCheck (s : State) (ctx rec : Nat) (path : List Nat) : Except Nat (Nat × Image) :=
  match if rec % 128 ≠ 0 then none else s.ctxBytes ctx rec 128 with
  | none => .error 3
  | some (r, _) =>
    if !recordOk r then .error 2
    else match s.imageCheck ctx (recKimg r) with
      | .error e => .error e
      | .ok x =>
        if (span 0 192).all s.coreFenced then .error 4
        else if s.budgetShort ctx x path then .error 5
        else .ok (r, if recOver r then { x with curve := recCurve r, swzw := recSwzw r } else x)

/-- Whether a queued record is ready (R379): its JOIN is 0; one that cannot be read is taken and refused. -/
def State.recordReady (s : State) (ctx rec : Nat) : Bool :=
  match if rec % 128 ≠ 0 then none else s.ctxBytes ctx rec 128 with
  | none => true
  | some (r, _) => recJoin r == 0

/-- The first ready record among those considered (R379): its index and address. -/
def State.firstReady (s : State) (r : Rcb) : Option (Nat × Nat) :=
  (s.queueSpan r).findSome? fun n =>
    if s.dist.taken.contains (r.ctx, r.addr, n) then none
    else match s.deviceRead r.ctx (r.entryVa n) 8 with
      | none => none
      | some 0 => none
      | some rec => if s.recordReady r.ctx rec then some (n, rec) else none

/-- The number of leading members of a list that a test admits. -/
def leading (p : Nat → Bool) : List Nat → Nat
  | [] => 0
  | x :: t => if p x then leading p t + 1 else 0

/-- HEAD advances over entries that have been taken (R379). -/
def advanceHead (r : Rcb) (epoch : Nat) (s : State) : List Effect :=
  let done := leading (fun n => s.dist.taken.contains (r.ctx, r.addr, n)) (s.queueSpan r)
  if done = 0 then []
  else
    let gone := (s.queueSpan r).take done
    chain s [
      fun s => s.physWrite r.line1 (leBytes 4 (s.queueHead r + done)) (s.distEpoch epoch) none,
      fun s => [.dist { s.dist with
        taken := s.dist.taken.filter fun x => !(x.1 == r.ctx && x.2.1 == r.addr && gone.contains x.2.2) }]]

/-- The epoch of a record at a journal index (R402). -/
def State.epochAt (s : State) (jidx : Nat) : Nat :=
  if s.snap.n = 0 then 0 else if s.snap.cut ≤ jidx then s.snap.n else s.snap.n - 1

/-- A record that passes its checks (R381): STATE 1, REMAIN, and the launch runs. -/
def startLaunch (r : Rcb) (rec jidx epoch raw : Nat) (x : Image) (s : State) : List Effect :=
  let gx := recGx raw
  let gy := recGy raw
  chain s [
    fun s => deviceWrite s r.ctx (rec + 68) (leBytes 4 (gx * gy)) (s.distEpoch epoch),
    fun s => setLaunchState s r.ctx rec epoch 1 0,
    fun s => [.dist { s.dist with launches := s.dist.launches ++ [{
      ctx := r.ctx, rcb := r.addr, path := r.path, record := rec, jidx, epoch, img := x, args := recArgs raw, gx, gy
      curve := x.curve, swzw := x.swzw, domain := s.domainOf r.ctx r.path, next := recNext raw, remain := gx * gy
      succ := (span 0 4).map (recSucc raw) }] }]]

/-- The side of the square that a Morton or Hilbert curve fills: the least power of two not below either (R383). -/
def curveSide (gx gy : Nat) : Nat := let m := max gx gy; if m ≤ 1 then 1 else 2 ^ ((m - 1).log2 + 1)

/-- The tile of a position of the Hilbert curve (R383): x, y, what is left of the position, and the scale. -/
def hilbert : Nat → Nat → Nat → Nat → Nat → Nat × Nat
  | 0, x, y, _, _ => (x, y)
  | n + 1, x, y, t, s =>
    let rx := t / 2 % 2
    let ry := (t % 2 + rx) % 2
    let f := if rx = 1 then (s - 1 - x, s - 1 - y) else (x, y)
    let q := if ry = 0 then (f.2, f.1) else (x, y)
    hilbert n (q.1 + s * rx) (q.2 + s * ry) (t / 4) (2 * s)

/-- The bits of a number at even places, gathered (R383). -/
def evenBits (p : Nat) : Nat := maskOf ((span 0 32).filter fun i => bit p (2 * i))

/-- The tile of a curve position (R383). -/
def tileAt (curve p gx gy w : Nat) : Nat × Nat :=
  match curve with
  | 0 => (p % gx, p / gx)
  | 1 => (p / gy, p % gy)
  | 2 => (evenBits p, evenBits (p / 2))
  | 3 => hilbert (curveSide gx gy).log2 0 0 p 1
  | _ =>
    let q := p / (w * gy)
    let v := min w (gx - q * w)
    let r := p % (w * gy)
    (q * w + r % v, r / v)

/-- The number of positions of a launch's curve (R383). -/
def Launch.positions (l : Launch) : Nat :=
  if l.curve = 2 || l.curve = 3 then curveSide l.gx l.gy * curveSide l.gx l.gy else l.gx * l.gy

/-- Whether a position is ever issued (R383). -/
def Launch.issues (l : Launch) (p : Nat) : Bool :=
  let t := tileAt l.curve p l.gx l.gy l.swzw
  decide (t.1 < l.gx) && decide (t.2 < l.gy)

/-- Up to `want` issuable positions among the `left` from p on, ascending (R383, R384). -/
def Launch.issuable (l : Launch) : Nat → Nat → Nat → List Nat
  | 0, _, _ => []
  | left + 1, want, p =>
    if want = 0 then []
    else if l.issues p then p :: l.issuable left (want - 1) (p + 1) else l.issuable left want (p + 1)

/-- The next positions that a launch issues, at most n. -/
def Launch.upcoming (l : Launch) (n : Nat) : List Nat := l.issuable (l.positions - l.next) n l.next

/-- RECORD_TAKE (R379, R381, R402): the first ready record of a queue is taken, numbered, journalled and checked. -/
def execRecordTake (ctx rcb : Nat) (s : State) : Out :=
  match s.region? ctx rcb with
  | none => commit s []
  | some r =>
    if !s.dist.reading.contains (ctx, rcb) || !(s.ctxOf ctx).valid
        || (s.dist.launches.any fun l => l.ctx == ctx && l.rcb == rcb && !(l.upcoming 1).isEmpty) then commit s []
    else match s.firstReady r with
      | none => commit s [.dist { s.dist with reading := s.dist.reading.filter fun x => x ≠ (ctx, rcb) }]
      | some (n, rec) =>
        let j := s.dist.jnext
        let e := s.epochAt j
        commit s (chain s [
          fun s => deviceWrite s ctx (r.entryVa n) (leBytes 8 0) (s.distEpoch e),
          fun s => [.dist { s.dist with jnext := j + 1, taken := (ctx, rcb, n) :: s.dist.taken }],
          advanceHead r e,
          fun s => journal s 1 0 (pack [(0, 64, j), (64, 64, rec), (128, 8, ctx)]),
          fun s => match s.recordCheck ctx rec r.path with
            | .ok (raw, x) => startLaunch r rec j e raw x s
            | .error code => chain s [
                fun s => setLaunchState s ctx rec e 3 code,
                launchError ctx rec code 0,
                fun s => journal s 2 0 (pack [(0, 64, j), (64, 8, 3), (72, 8, code)])]])

/-- The JOIN of a successor decremented by 1 (R381): cause 7 where it is 0 already; none where it is poisoned (R26). -/
def joinSuccessor (l : Launch) (succ : Nat) (s : State) : List Effect :=
  if succ = 0 then []
  else match s.device 31 l.ctx (succ + 76) true with
    | none => []
    | some (pa, es) =>
      let old := s.phys pa 4
      if s.poisonedRange pa 4 then es
      else if old = 0 then launchError l.ctx succ 7 l.record s
      else chain s [
        fun _ => es,
        fun s => s.physWrite pa (leBytes 4 (old - 1)) (s.distEpoch l.epoch) none,
        fun s => if old = 1 then wakeContext l.ctx s else []]

/-- The completion of a launch (R381): STATE 2, then its successors in order. -/
def completeLaunch (l : Launch) (s : State) : List Effect :=
  chain s ([
    fun s => setLaunchState s l.ctx l.record l.epoch 2 0,
    fun s => journal s 2 0 (pack [(0, 64, l.jidx), (64, 8, 2)]),
    fun s => [Effect.dist { s.dist with launches := s.dist.launches.filter fun m => m.jidx ≠ l.jidx }]] ++
    l.succ.map (joinSuccessor l))

/-- A block of a launch has ended (R36, R381). -/
def blockGone (jidx : Nat) (s : State) : List Effect :=
  match s.dist.launches.find? fun l => l.jidx == jidx with
  | none => []
  | some l =>
    let l' := { l with remain := l.remain - 1 }
    chain s [
      fun s => [.dist { s.dist with launches := s.dist.launches.map fun m => if m.jidx = jidx then l' else m }],
      fun s => deviceWrite s l.ctx (l.record + 68) (leBytes 4 l'.remain) (s.distEpoch l.epoch),
      fun s => if l'.remain = 0 then completeLaunch l' s else []]

/-- The warps of a block. -/
def State.blockWarps (s : State) (b : Nat) : List (Nat × Warp) :=
  s.warps.filter fun p => decide (p.1 < helperBase) && blockOf p.1 == b

/-- Whether every warp of a block has exited and every outstanding operation of it is complete (R36, R399), and every one
of another block that lands in it (R281). -/
def State.blockDone (s : State) (b : Nat) : Bool :=
  let ws := s.blockWarps b
  let mine := fun (k : Nat) => blockOf k == b
  !ws.isEmpty && (ws.all fun p => p.2.ctl.st == .exited && p.2.ctl.storeQ.isEmpty && p.2.ctl.outs.isEmpty
      && p.2.ctl.flagOps.isEmpty && p.2.ctl.xswap.isNone && p.2.ctl.trap.isNone && p.2.ctl.join == 0)
    && !(s.warps.any fun p => decide (helperBase ≤ p.1) && mine p.1)
    && !(s.fab.reqs.any fun r => mine r.k)
    && !(s.copies.any fun c => mine c.k || (s.copyDests c).any fun d => d.1 == b) && !(s.mats.any fun m => mine m.k)
    && !(s.colls.any fun x => x.b == b && !x.finished) && !(s.cmbReqs.any fun q => q.chip == 0 && q.stage != 6 && mine q.k)
    && !(s.snap.blocked.any fun q => decide (q.sl < 8) && mine q.k)

/-- BLOCK_END (R36): the buffers it owns are freed, its resources released, and its launch's count decremented. While a buffer
holds a token the block stands (R358, R368). -/
def execBlockEnd (b : Nat) (s : State) : Out :=
  if !s.blockDone b || (s.blockWarps b).any (fun p => p.2.ctl.ended) then commit s []
  else
    commit s (chain s [
      fun s => freeBuffers false b s,
      fun s => if s.cmbs.any fun x => x.owner == b then [] else chain s [
        fun s => blockGone (s.blk b).launch s, removeBlocks [b]]])

end Sys2Proof.Machine
end

