-- ==== Sys2Proof/Machine/Place.lean ====
section
/-! DEFINITION. The work distributor's placement, repartition, pre-emption and suspension, and what the host asks of it:
PREQ, the context table and SLCFG (16 R374, R382 to R384, R397 to R401; 08 R180, R181, R184; 02 R35). -/
namespace Sys2Proof.Machine

/-- The split that an image needs (R95, R180). -/
def Image.split (x : Image) : Nat × Nat × Nat := (x.regg, x.shg, x.l1g)

/-- The blocks of a core. -/
def State.blocksOn (s : State) (core : Nat) : List (Nat × Block) :=
  s.blocks.filter fun p => p.1 / Config.blocksPerCore == core

/-- The places in a core's shared region, under a split, for the shared memory of one more block (R179). -/
def State.sharedBases (s : State) (core : Nat) (x : Image) : List Nat :=
  let held := (s.blocksOn core).map fun p => (p.2.shBase - x.regg * 16384, p.2.img.shblk)
  (freeRuns 256 (x.shg * 16384) x.shblk (held.filter fun h => h.2 ≠ 0)).map (x.regg * 16384 + ·)

/-- Whether a core has room for a block of an image beside what it holds (R33, R35, R179). -/
def State.coreRoom (s : State) (core : Nat) (x : Image) : Bool :=
  let bs := (s.blocksOn core).map Prod.snd
  let sum := fun (f : Image → Nat) => (bs.map fun b => f b.img).foldl (· + ·) 0
  decide (bs.length < Config.blocksPerCore)
    && !(s.sharedBases core x).isEmpty
    && decide (sum Image.tiles + x.tiles ≤ 16)
    && decide (sum (fun i => i.warps.length) + x.warps.length ≤ 192)
    && !(s.windowBases core x.vbe (x.regg * 16384)).isEmpty

/-- Whether a die places blocks: not while SLCFG's APPLY reads 1 (R184). -/
def State.diePlaces (s : State) (die : Nat) : Bool := !(s.mgmt.slcfg.getD die 0).getLsbD 0

/-- Whether a core qualifies for a block of an image in a region (R35, R180, R378). -/
def State.fits (s : State) (ctx : Nat) (path : List Nat) (x : Image) (core : Nat) : Bool :=
  !s.coreFenced core && s.diePlaces (core / 96) && (s.core core).towards.isNone
    && ((s.blocksOn core).isEmpty || (s.core core).split == x.split)
    && s.coreRoom core x && s.budgetRoom ctx [core] x path

/-- What the distributor may place next for a region (R382): a suspended block, or a launch's next blocks. -/
inductive Work where
  | again (x : Suspended)
  | more (l : Launch)
  deriving DecidableEq, Repr

/-- The parts of a work item: its context, region's path and image. -/
def Work.ctx : Work → Nat
  | .again x => x.block.ctx
  | .more l => l.ctx
def Work.path : Work → List Nat
  | .again x => x.block.path
  | .more l => l.path
def Work.img : Work → Image
  | .again x => x.block.img
  | .more l => l.img
def Work.rcb (w : Work) : Nat := w.path.headD 0

/-- The blocks that a work item would place together at most (R384). -/
def Work.want : Work → List Nat
  | .again x => [x.block.idx]
  | .more l => l.upcoming (if l.img.cgsize = 0 then 16 else l.img.cgsize)

/-- The longest prefix of qualifying cores whose blocks the budgets allow together. -/
def State.affordable (s : State) (w : Work) : List Nat → List Nat → List Nat
  | got, [] => got
  | got, c :: cs =>
    if s.budgetRoom w.ctx (got ++ [c]) w.img w.path then s.affordable w (got ++ [c]) cs else got

/-- The cores of a cluster that a claim would take (R29, R384): for a cluster group those at its ranks, all or none; for a
suspended block of one the core of its rank, in the cluster where its group is (log entry 11). -/
def State.clusterPick (s : State) (w : Work) (cl : Nat) : List Nat :=
  let cores := span (16 * cl) 16
  let ok := cores.filter (s.fits w.ctx w.path w.img)
  let n := w.want.length
  match w with
  | .again x =>
    if x.block.gsize = 0 then ok.take 1
    else
      let core := 16 * cl + x.block.rank
      let mate := fun (p : Nat × Block) => p.2.gsize != 0 && p.2.group == x.block.group
      let clash := s.blocks.any fun p =>
        if mate p then p.1 / 128 != cl else p.1 / 128 == cl && p.2.gsize != 0 && p.2.launch == x.block.launch
      if ok.contains core && !clash then [core] else []
  | .more l =>
    if l.img.cgsize = 0 then s.affordable w [] (ok.take n)
    else
      let pick := cores.take n
      let other := s.blocks.any fun p => p.1 / 128 == cl && p.2.gsize != 0 && p.2.launch == l.jidx
      if pick.all ok.contains && !other && s.budgetRoom w.ctx pick w.img w.path then pick else []

/-- The claim of a work item (R384): the cluster with the most qualifying cores that can take it, die 0 and the lower
cluster first. -/
def State.claim (s : State) (w : Work) : List Nat :=
  if w.want.isEmpty then []
  else
    let all := (span 0 12).map fun cl =>
      (s.clusterPick w cl, ((span (16 * cl) 16).filter (s.fits w.ctx w.path w.img)).length)
    let most := ((all.filter fun p => !p.1.isEmpty).map Prod.snd).foldl max 0
    ((all.find? fun p => !p.1.isEmpty && p.2 == most).map Prod.fst).getD []

/-- The work items of the valid contexts, each region's suspended blocks first (R382); none below a region that the last
reading of the tree skipped (R377). -/
def State.works (s : State) : List Work :=
  ((s.dist.suspended.map Work.again) ++ (s.dist.launches.map Work.more)).filter fun w =>
    (s.ctxOf w.ctx).valid && !w.want.isEmpty && (w.path.all fun a => (s.region? w.ctx a).isSome) && !(s.frozen.any fun f =>
      f.1 == w.ctx && f.2.1 == (match w with | .again x => x.block.domain | .more l => l.domain))

/-- The priority of a work item's region. -/
def State.workPrio (s : State) (w : Work) : Nat := s.prioOf w.ctx w.path

/-- The pass value of a region; one that first becomes eligible takes the lowest of its level (R382). -/
def State.passOf (s : State) (level : List Work) (ctx rcb : Nat) : Nat :=
  let have_ := fun (c r : Nat) => (s.dist.pass.find? fun p => p.1 == c && p.2.1 == r).map fun p => p.2.2
  match have_ ctx rcb with
  | some v => v
  | none =>
    match level.filterMap fun w => have_ w.ctx w.rcb with
    | [] => 0
    | x :: xs => xs.foldl min x

/-- The next work item (R382): the highest priority with something that fits, then the lowest pass, then the lower
region address. -/
def State.choose (s : State) : Option Work :=
  let ws := s.works.filter fun w => !(s.claim w).isEmpty
  let top := (ws.map s.workPrio).foldl max 0
  let level := ws.filter fun w => s.workPrio w == top
  let key := fun (w : Work) => (s.passOf level w.ctx w.rcb, w.rcb, w.ctx)
  let less := fun (a b : Work) =>
    decide ((key a).1 < (key b).1) || ((key a).1 == (key b).1 &&
      (decide ((key a).2.1 < (key b).2.1) || ((key a).2.1 == (key b).2.1 && decide ((key a).2.2 < (key b).2.2))))
  match level with
  | [] => none
  | w :: rest => some (rest.foldl (fun a b => if less b a then b else a) w)

/-- A region is served (R382): its pass rises, and the level's other eligible regions have theirs. -/
def serveRegion (w : Work) (s : State) : List Effect :=
  let level := s.works.filter fun v => !(s.claim v).isEmpty && s.workPrio v == s.workPrio w
  let regions := (level.map fun v => (v.ctx, v.rcb)).eraseDups
  let vals := regions.map fun r => (r.1, r.2, s.passOf level r.1 r.2 +
    (if r = (w.ctx, w.rcb) then 65536 / s.weightOf w.ctx w.path else 0))
  [.dist { s.dist with
    pass := vals ++ s.dist.pass.filter fun p => !regions.contains (p.1, p.2.1) }]

/-- A block position of a core that is free. -/
def State.freePos (s : State) (core : Nat) : Nat :=
  ((span 0 8).find? fun p => (find s.blocks (8 * core + p)).isNone).getD 0

/-- A block on a core (R35, R36, R180): an empty core adopts its split; shared memory, tiles and guards are cleared. -/
def putBlock (core : Nat) (x : Block) (s : State) : List Effect :=
  let b := 8 * core + s.freePos core
  [.core core { s.core core with split := x.img.split }, .clearBlock b,
   .block b { x with
     guards := List.replicate 16 none, preempt := false, sb := 0, coll := [], born := s.ids
     shBase := (s.sharedBases core x.img).getD (s.pick (460000 + b) (s.sharedBases core x.img).length) 0 }, .ids 1]

/-- A new block of a launch and its lead warp (R36, R37). -/
def placeNew (l : Launch) (gsize group rank core pos : Nat) (s : State) : List Effect :=
  let b := 8 * core + s.freePos core
  chain s [
    putBlock core {
      ctx := l.ctx, rcb := l.rcb, launch := l.jidx, path := l.path, domain := l.domain, idx := pos, rank, gsize, group
      args := l.args, img := l.img, epoch := l.epoch },
    fun s => createWarp s b 0 (dword (l.img.base + l.img.entryE)) (2 ^ l.img.lanes 0 - 1) 0]

/-- A suspended block placed again (R400): its live warps at their restore routines, its number free. -/
def placeAgain (x : Suspended) (core : Nat) (s : State) : List Effect :=
  let b := 8 * core + s.freePos core
  let ctx := x.block.ctx
  let size := bits (s.ctxOf ctx).pscfg.toNat 63 32
  let slot := fun (w : Nat) => (s.ctxOf ctx).saveArea + 0x800000000 + dword ((36 * x.sb + w) * size)
  chain s ([
    putBlock core { x.block with restoring := x.safe },
    fun s => [.cmbs (s.cmbs.map fun y => if y.owner = suspendedOwner ctx x.sb then { y with owner := b } else y),
      .dist { s.dist with suspended := s.dist.suspended.filter fun y => !(y.block.ctx == ctx && y.sb == x.sb) }]] ++
    (x.live.map fun w => fun s => createWarp s b w.1 (dword w.2.1) w.2.2 (slot w.1)))

/-- The placement of a work item on the cores it claims (R382 to R384): NEXT is claimed, and with a launch's first
block its stores so far are in the constant caches (R106). -/
def placeWork (w : Work) (cores : List Nat) (s : State) : List Effect :=
  match w with
  | .again x => chain s [serveRegion w, placeAgain x (cores.headD 0)]
  | .more l =>
    let got := l.upcoming cores.length
    let next := got.getLast?.getD l.next + 1
    let gsize := if l.img.cgsize = 0 then 0 else cores.length
    let group := s.ids
    chain s ([
      serveRegion w,
      fun _ => if l.next = 0 then [.ccache []] else [],
      fun s => [.dist { s.dist with launches := s.dist.launches.map fun m => if m.jidx = l.jidx then { m with next } else m }],
      fun s => deviceWrite s l.ctx (l.record + 72) (leBytes 4 next) (s.distEpoch l.epoch)] ++
      (cores.zip got).mapIdx fun i p => placeNew l gsize group i p.1 p.2)

/-- The lowest free suspended-block number of a context (R399). -/
def State.freeSb (s : State) (ctx : Nat) : Option Nat :=
  let used := (s.dist.suspended.filter fun x => x.block.ctx == ctx).map Suspended.sb ++
    (s.blocks.filter fun p => p.2.ctx == ctx && p.2.preempt).map fun p => p.2.sb
  (span 0 (bits (s.ctxOf ctx).pscfg.toNat 31 16)).find? fun n => !used.contains n

/-- A block is pre-empted (R397): not when its context has no free suspended-block number. -/
def preemptBlock (b : Nat) (s : State) : List Effect :=
  let x := s.blk b
  match find s.blocks b, s.freeSb x.ctx with
  | some _, some n => if x.preempt then [] else [.block b { x with preempt := true, sb := n }]
  | _, _ => []

/-- Whether a block's end would free its core for a work item (R397). -/
def State.frees (s : State) (w : Work) (b : Nat) : Bool :=
  ({ s with blocks := del s.blocks b, warps := s.warps.filter fun q => blockOf q.1 ≠ b } : State).fits
    w.ctx w.path w.img (b / 8)

/-- Whether a block is being pre-empted already whose end frees a core for a work item. -/
def State.freeing (s : State) (w : Work) : Bool := s.blocks.any fun p => p.2.preempt && s.frees w p.1

/-- The block whose pre-emption would free a core for a work item (R397): of a region with PRE = 1 and a lower
priority, the lowest priority first, then the latest placed; none while one that frees a core is being pre-empted. -/
def State.victim (s : State) (w : Work) : Option Nat :=
  let cands := if s.freeing w then [] else s.blocks.filter fun p =>
    let x := p.2
    s.preOf x.ctx x.path && decide (s.prioOf x.ctx x.path < s.workPrio w) && !x.preempt && (s.freeSb x.ctx).isSome
      && s.frees w p.1
  let better := fun (a b : Nat × Block) =>
    decide (s.prioOf a.2.ctx a.2.path < s.prioOf b.2.ctx b.2.path)
      || (s.prioOf a.2.ctx a.2.path == s.prioOf b.2.ctx b.2.path && decide (b.2.born < a.2.born))
  match cands with
  | [] => none
  | c :: cs => some (cs.foldl (fun a b => if better b a then b else a) c).1

/-- The virtual address of a warp's park slot (R45). -/
def State.parkVa (s : State) (k : Nat) : Nat :=
  (s.ctxOf (s.blk (blockOf k)).ctx).saveArea.toNat + k * 0x8400

/-- A warp's context stored in its slot in the save area, and what follows with its FRAME; a fault ends the domain (R45). -/
def saveOut (k : Nat) (f : Nat → State → List Effect) (s : State) : List Effect :=
  let w := s.warp k
  let va := s.parkVa k
  let live := liveSlices w
  match s.engineStore (s.blk (blockOf k)).ctx false (s.epochOf k) va (savedImage w) with
  | .error (a, e) =>
    chain s [
      fun s => [.ctl k { s.ctl k with st := if (s.ctl k).st = .parking then .pending else (s.ctl k).st }],
      fun s => kernelFault s k
        { code := e.code, addr := a, lmask := 1, slices := live, xt := xtArea 1 [(0, va, e)], m0 := (w.readM 0).toNat
          tpc := (w.ctl.slice (lowest 8 live)).pc.toNat }]
  | .ok es => chain s [fun _ => es, f (2 ^ 63 + va)]

/-- The parked contexts held in boundary granules of the spill area move to the save area (R180 step 2). -/
def spillMove (core : Nat) (s : State) : List Effect :=
  let x := (s.core core).split
  let moves := (s.onCore core).filter fun p =>
    let c := p.2.ctl
    !c.st.resident && c.saved && decide (c.frame < 2 ^ 63)
      && s.atBoundary core ((x.1 + x.2.1) * 16384 + c.frame) (savedSize c.vb)
  chain s (moves.map fun p => saveOut p.1 fun frame s => [.ctl p.1 { s.ctl p.1 with frame }])

/-- The core that a repartition for a work item would take (R181): the fewest blocks, the lowest number; at most one
repartition in a cluster, and none where the split is already on its way. -/
def State.repartCore (s : State) (w : Work) : Option Nat :=
  let busy := fun (c : Nat) => (span (c / 16 * 16) 16).any fun d => (s.core d).towards.isSome
  let cands := (span 0 192).filter fun c =>
    !s.coreFenced c && s.diePlaces (c / 96) && !(s.blocksOn c).isEmpty && (s.core c).split != w.img.split && !busy c
      && s.budgetRoom w.ctx [c] w.img w.path
  if (span 0 192).any fun c => (s.core c).towards == some w.img.split then none
  else match cands with
    | [] => none
    | c :: cs => some (cs.foldl (fun a b => if (s.blocksOn b).length < (s.blocksOn a).length then b else a) c)

/-- The work item of the highest priority among those that fit nowhere (R181, R397). -/
def State.blockedWork (s : State) : Option Work :=
  match s.works.filter fun w => (s.claim w).isEmpty with
  | [] => none
  | w :: ws => some (ws.foldl (fun a b => if s.workPrio a < s.workPrio b then b else a) w)

/-- The pre-emption that comes before any placement (R397): for a blocked work item of a higher priority than every one that
fits. -/
def State.displaced (s : State) : Option (Work × Nat) :=
  match s.blockedWork with
  | none => none
  | some v =>
    if s.choose.any fun w => decide (s.workPrio v ≤ s.workPrio w) then none else (s.victim v).map fun b => (v, b)

/-- BLOCK_PLACE (R382 to R384): the distributor pre-empts a block of a lower priority for work that fits nowhere (R397), or
places the next blocks; when nothing fits and no core is being freed it starts a repartition (R181). -/
def execBlockPlace (ctx : Nat) (s : State) : Out :=
  match s.displaced, s.choose, s.blockedWork with
  | some (v, b), _, _ => commit s (if v.ctx = ctx then preemptBlock b s else [])
  | none, some w, _ => commit s (if w.ctx = ctx then placeWork w (s.claim w) s else [])
  | none, none, some w =>
    if w.ctx ≠ ctx || s.freeing w then commit s []
    else match s.repartCore w with
      | some c => commit s (chain s [
          fun s => [.core c { s.core c with towards := some w.img.split }],
          spillMove c])
      | none => commit s []
  | none, none, none => commit s []

/-- Whether every boundary granule of a repartition in progress is free (R180 step 3): no register window and no shared
memory of a resident block reaches into one. -/
def State.boundaryFree (s : State) (core : Nat) : Bool :=
  ((s.windows core).all fun w => !s.atBoundary core w.1 w.2)
    && (s.blocksOn core).all fun p => p.2.img.shblk == 0 || !s.atBoundary core p.2.shBase p.2.img.shblk

/-- SPLIT_ADOPT (R180 step 4): offsets in the spill area are then counted from its new start. -/
def execSplitAdopt (core : Nat) (s : State) : Out :=
  let x := s.core core
  match x.towards with
  | none => commit s []
  | some new =>
    if !s.boundaryFree core then commit s []
    else
      let spill := fun (c : Ctl) => !c.st.resident && c.saved && decide (c.frame < 2 ^ 63)
      commit s (.core core { x with split := new, towards := none } ::
        ((s.onCore core).filter fun p => spill p.2.ctl).map fun p =>
          .ctl p.1 { p.2.ctl with
            frame := p.2.ctl.frame + (x.split.1 + x.split.2.1) * 16384 - (new.1 + new.2.1) * 16384 })

/-- The pre-emption slot of a warp (R399). -/
def State.slotVa (s : State) (k : Nat) : DWord :=
  let x := s.blk (blockOf k)
  let c := s.ctxOf x.ctx
  c.saveArea + 0x800000000 + dword ((36 * x.sb + warpNo k) * bits c.pscfg.toNat 63 32)

/-- BLOCK_SUSPEND (R399): every warp has save-exited or had exited, and every operation is complete; its buffers keep
their rows under the suspended block's name (log entry 11). -/
def execBlockSuspend (b : Nat) (s : State) : Out :=
  let ws := s.blockWarps b
  let x := s.blk b
  if !s.blockDone b || !x.preempt || !(ws.any fun p => p.2.ctl.ended) then commit s []
  else
    let live := ws.filterMap fun p =>
      if p.2.ctl.ended then p.2.ctl.divert.map fun d => (warpNo p.1, d.2.1, d.2.2) else none
    let gone := ws.filter fun p => !p.2.ctl.ended
    commit s (chain s ((gone.map fun p => fun s =>
        deviceWrite s x.ctx (s.slotVa p.1).toNat (List.replicate 64 0) x.epoch) ++ [
      fun s => [.dist { s.dist with suspended := s.dist.suspended ++ [⟨x.sb, x, live,
          (ws.filter fun p => p.1 == leadOf b && p.2.ctl.ended).findSome? fun p => p.2.ctl.divert.map Prod.fst⟩] },
        .cmbs (s.cmbs.map fun y => if y.owner = b then { y with owner := suspendedOwner x.ctx x.sb } else y)],
      removeBlocks [b]]))

/-- PREEMPT_DEADLINE (R401): a warp of a pre-empted block that has not save-exited raises preemption-deadline. -/
def execPreemptDeadline (k : Nat) (s : State) : Out :=
  let c := s.ctl k
  if !(s.blk (blockOf k)).preempt || c.st = .exited || helperBase ≤ k || !(find s.warps k).isSome then commit s []
  else
    let live := liveSlices (s.warp k)
    commit s (kernelFault s k
      { code := 0x19, tpc := (c.slice (lowest 8 live)).pc.toNat, slices := live, m0 := ((s.warp k).readM 0).toNat })

/-- PREQ_GO (R397): every block of a context on a die is pre-empted. -/
def execPreqGo (die v : Nat) (s : State) : Out :=
  let old := s.mgmt.preq.getD die 0
  let ctx := v % 64
  if bit v 31 then
    let bs := (s.blocks.filter fun p => dieOfBlock p.1 == die && p.2.ctx == ctx).map Prod.fst
    commit s (chain s ([fun s => [Effect.mgmt { s.mgmt with preq := s.mgmt.preq.set die (word (2 ^ 31 + ctx)) }]] ++
      bs.map preemptBlock ++ [settlePreq]))
  else commit s (if old.getLsbD 31 then [] else [.mgmt { s.mgmt with preq := s.mgmt.preq.set die (word ctx) }])

/-- SLCFG_APPLY (R184): a write of SLCFG; a request with APPLY = 1 is checked at the write, one with APPLY = 0 is not (log
entry 88). -/
def execSlcfgApply (die v : Nat) (s : State) : Out :=
  let old := (s.mgmt.slcfg.getD die 0).toNat
  let put := fun (x : Nat) => [Effect.mgmt { s.mgmt with slcfg := s.mgmt.slcfg.set die (word x) }]
  let fields := bits v 23 8 * 256
  if bit v 0 then
    commit s (put (fields + (if 24 < bits v 15 8 || 32 < bits v 15 8 + bits v 23 16 then 2 else 1)))
  else commit s (put (fields + old % 4))

/-- The split of a die's slices applied (R184): the bytes that become vault read as zero, combine slots are clear. -/
def applySplit (die : Nat) (s : State) : List Effect :=
  let w := (s.mgmt.slcfg.getD die 0).toNat
  let old := s.mgmt.split.getD die (0, 0)
  let grow := fun (j : Nat) =>
    Effect.zero (0x60000000000 + (96 * die + j) * 0x400000 + old.1 * 65536) ((bits w 15 8 - old.1) * 65536)
  (if old.1 < bits w 15 8 then (span 0 96).map grow else []) ++
  [.mgmt { s.mgmt with
     slcfg := s.mgmt.slcfg.set die (word (bits w 23 8 * 256))
     split := s.mgmt.split.set die (bits w 15 8, bits w 23 16) },
   .cmbs (s.cmbs.map fun x => { x with slots := x.slots.filter fun y => x.homes.getD (x.home y.tok) 0 / 96 ≠ die })]

/-- The slices of a die that are in service now take over its lines (R26, R183). -/
def rehash (die : Nat) (s : State) : List Effect :=
  [.vil { s.vil with slicesIn := s.vil.slicesIn.set die ((span 0 96).filter fun j => !s.isFenced 1 die j) }]

/-- CONTEXT_BOUNDARY (R183, R184): the first moment at which no block is resident on the die; a split is applied in full
service only (R424). -/
def execContextBoundary (die : Nat) (s : State) : Out :=
  if s.blocks.any fun p => dieOfBlock p.1 == die then commit s []
  else commit s (chain s [rehash die, fun s =>
    if (s.mgmt.slcfg.getD die 0).getLsbD 0 && s.mgmt.devst.toNat % 8 == 3 then applySplit die s else []])

/-- A context register's initial value in its table entry (R374). -/
def State.tabReg (s : State) (ctx n : Nat) : DWord :=
  sysKept n (dword (ofBytes (s.mgmt.ctxtab.bytes (256 * ctx + 4 * n) 8)))

/-- A context becomes valid (R374): its registers hold their initial values, its sequence counts start empty, and the
distributors read its tree. -/
def validate (ctx : Nat) (s : State) : List Effect :=
  chain s [
    fun s => [
      .mgmt { s.mgmt with ctxtab := s.mgmt.ctxtab.set (256 * ctx + 0xF0) ((s.mgmt.ctxtab.get (256 * ctx + 0xF0)) ||| 1) },
      .ctx ctx {
        valid := true, saveArea := s.tabReg ctx 0x10, stkcfg := s.tabReg ctx 0x12, ptroot := s.tabReg ctx 0x14
        ftpool := s.tabReg ctx 0x16, tvec := s.tabReg ctx 0x1A, tfbase := s.tabReg ctx 0x1C, hfq := s.tabReg ctx 0x20
        pscfg := s.tabReg ctx 0x22, htvec := s.tabReg ctx 0x28, root := s.tabReg ctx 0x3E },
      .collSeq (s.collSeq.filter fun x => x.1 ≠ ctx)],
    rereadTree ctx]

/-- CONTEXT_VALID_SET (R374, R424): held until full service; nothing is set anew in a context that is valid. -/
def execContextValidSet (ctx : Nat) (s : State) : Out :=
  let st := s.mgmt.devst.toNat % 8
  if (s.ctxOf ctx).valid then commit s []
  else if st = 3 then commit s (validate ctx s)
  else if st = 4 then commit s []
  else commit s [.vil { s.vil with held := if s.vil.held.contains ctx then s.vil.held else s.vil.held ++ [ctx] }]

/-- CONTEXT_VALID_CLEAR (R374): placement stops; the entry is freed once no block is resident. -/
def execContextValidClear (ctx : Nat) (s : State) : Out :=
  commit s (chain s [
    fun s => [
      .mgmt { s.mgmt with ctxtab := s.mgmt.ctxtab.set (256 * ctx + 0xF0) ((s.mgmt.ctxtab.get (256 * ctx + 0xF0)) &&& 0xFE) },
      .ctx ctx { s.ctxOf ctx with valid := false },
      .vil { s.vil with held := s.vil.held.filter (· ≠ ctx) }],
    freeContexts [ctx]])

end Sys2Proof.Machine
end

