-- ==== Sys2Proof/Machine/Turns.lean ====
section
/-! DEFINITION. Whose turn it is: between the slices of a warp (05 R128, R130; 02 R52; 10 R245; 13 R323) and between the
warps of an issue port (03 R64; 05 R127). -/
namespace Sys2Proof.Machine

/-- The slices that issue together with a slice: the gang of a warp that is not parted (R40), in a handler those that
entered it (R391). -/
def Ctl.gang (c : Ctl) (live j : Nat) : Nat :=
  if c.parted then 2 ^ j else live &&& (if c.priv then c.hslices else 255)

/-- The slices that issue together with a slice of a context. -/
def State.gangOf (s : State) (k j : Nat) : Nat := (s.ctl k).gang (liveSlices (s.warp k)) j

/-- The trap of single-step that a slice's next clause raises (R130): the slices that stop. In a parted warp the focus
slice steps; when it has exited the trap comes at once. -/
def Ctl.stepTrap (c : Ctl) (live j : Nat) : Bool :=
  c.dbgctl.getLsbD 0 && !c.priv &&
    (if c.parted then (j == c.focus && (c.slice j).stepped) || (!bit live c.focus && j == lowest 8 live)
     else (setBits 8 live).any fun i => (c.slice i).stepped)

/-- Whether single-step holds a slice of a parted warp (R130): all but the focus slice, until that waits at REGANG; every
slice at a clause boundary, until the trap is raised, where the focus slice has exited. -/
def Ctl.stepHolds (c : Ctl) (live j : Nat) : Bool :=
  c.dbgctl.getLsbD 0 && !c.priv && c.parted && j != c.focus &&
    (if bit live c.focus then (c.slice c.focus).regang.isNone else !(c.slice j).inClause)

/-- Whether debug-step is due since the focus slice of a parted warp has exited (R130). -/
def Ctl.stepLost (c : Ctl) (live : Nat) : Bool := c.dbgctl.getLsbD 0 && !c.priv && c.parted && !bit live c.focus

/-- DBGCTL with its focus on the lowest live slice where the focus slice has exited (R130). -/
def Ctl.refocus (c : Ctl) (live : Nat) : Ctl :=
  if bit live c.focus then c else { c with dbgctl := (c.dbgctl &&& 1) ||| word (2 * lowest 8 live) }

/-- Whether a slice's wait lets it begin a clause (R192, R365; R65 for a wait at the first word of a clause that it is to
execute from its header). -/
def State.waitClear (s : State) (k : Nat) (x : Slice) : Bool :=
  match x.wait with | none => true | some w => s.waitOver k w

/-- Whether no slice of a mask has a trap to raise (R190). -/
def Ctl.deferClear (c : Ctl) (mask : Nat) : Bool := (setBits 8 mask).all fun j => (c.slice j).defer.isEmpty

/-- Whether a host warp stalls for the return of slices whose release its own write of m0 asked for (R318). -/
def State.recalls (s : State) (k : Nat) : Bool :=
  (s.lent k).any fun p => p.2.ctl.helper.any fun h => h.recalled

/-- Whether a helper has issued the last clause that a release request leaves it (R318). -/
def Ctl.spent (c : Ctl) : Bool := c.helper.any fun h => h.asked && decide (256 ≤ h.clauses)

/-- Whether a fence of another slice of a warp holds a slice back: it stalls the warp (R253). -/
def State.fenced (s : State) (k j : Nat) : Bool :=
  (s.warp k).liveNow.any fun i => !bit (s.gangOf k j) i && ((s.ctl k).slice i).wait == some .drain

/-- Whether a slice of a context is ready: its next word can issue, or its clause begin, but for the turns of others (R52,
R86, R120, R127, R130, R318, R391). -/
def State.canTake (s : State) (k j : Nat) : Bool :=
  let c := s.ctl k
  let x := c.slice j
  let live := liveSlices (s.warp k)
  bit live j && c.trap.isNone && x.regang.isNone && (!c.priv || bit c.hslices j) && !c.stepHolds live j
    && !s.heldBack k && !s.fenced k j && !s.recalls k && s.waitClear k x && x.wait != some .blocked
    && (x.inClause || (s.waitBusy k j == 0 && c.deferClear (c.gang live j) && !c.spent))

/-- Whether a slice stands at a word of its clause that waits for nothing. -/
def Slice.mid (x : Slice) : Bool := x.inClause && x.wait.isNone && x.regang.isNone

/-- Those that take turns on a warp (R128, R323), by slice: its slices where it is parted, else its gang by its lowest
slice, and each helper on its slices. -/
def State.players (s : State) (k : Nat) : List (Nat × Nat) :=
  let h := hostKey k
  let w := s.warp h
  let own := if w.ctl.parted then w.liveNow else w.liveNow.take 1
  let lent := (s.lent h).filterMap fun p => p.2.ctl.helper.map fun x => (x.slice, p.1)
  (span 0 8).flatMap fun j => (if own.contains j then [(j, h)] else []) ++ lent.filter fun p => p.1 == j

/-- The one in the middle of a clause that nothing stalls: it goes on before any other (R64). -/
def State.midway (s : State) (k : Nat) : Option (Nat × Nat) :=
  (s.players k).find? fun p => s.canTake p.2 p.1 && ((s.ctl p.2).slice p.1).mid

/-- The slice that issued the last word of a warp, its helpers' with it (R128, R323). -/
def State.lastTurn (s : State) (k : Nat) : Nat :=
  let h := hostKey k
  let cs := (s.ctl h) :: (s.lent h).map fun p => p.2.ctl
  (cs.foldl (fun a c => if a.issued < c.issued then c else a) (s.ctl h)).turn

/-- The member of a list of slices that has been passed over most often, the first of equals. -/
def State.mostPassed (s : State) (l : List (Nat × Nat)) : Option (Nat × Nat) :=
  match l with
  | [] => none
  | p :: ps =>
    let n := fun (q : Nat × Nat) => ((s.ctl q.2).slice q.1).passed
    some (ps.foldl (fun a q => if n a < n q then q else a) p)

/-- Whose turn it is on a warp (R128): one in the middle of a clause; else, of those passed over for 56 clauses of their warp,
the one passed over longest, so that none of eight waits for more than 63 (R52); else the one whose reservation keeps its turn
(R245), unless it has yielded; else the next that has not yielded, in ascending order from the slice that issued last,
wrapping; else the next. -/
def State.nextTurn (s : State) (k : Nat) : Option (Nat × Nat) :=
  match s.midway k with
  | some p => some p
  | none =>
    let last := s.lastTurn k
    let can := (s.players k).filter fun p => s.canTake p.2 p.1
    let ring := (can.filter fun p => decide (last < p.1)) ++ can.filter fun p => decide (p.1 ≤ last)
    let at_ := fun (p : Nat × Nat) => (s.ctl p.2).slice p.1
    let due := s.mostPassed (ring.filter fun p => decide (56 ≤ (at_ p).passed))
    let holder := ring.find? fun p =>
      p.1 == last && !(at_ p).yielded && (at_ p).resv.any fun r => decide (r.count < 32)
    due <|> holder <|> (ring.find? fun p => !(at_ p).yielded) <|> ring.head?

/-- Whether it is the turn of a slice, or of the gang it belongs to. -/
def State.hasTurn (s : State) (k j : Nat) : Bool :=
  s.nextTurn k == some ((if (s.ctl k).parted then j else lowest 8 (s.gangOf k j)), k)

/-- The moment at which a warp last issued, its helpers with it (R127, R323). -/
def State.lastIssue (s : State) (k : Nat) : Nat :=
  ((s.players k).map fun p => (s.ctl p.2).issued).foldl max (s.ctl k).issued

/-- The other warps in the active set of a warp's port. -/
def State.portMates (s : State) (k : Nat) : List Nat :=
  let h := hostKey k
  ((s.onCore (coreOf h)).filter fun p =>
    p.1 != h && p.2.ctl.role == (s.ctl h).role && p.2.ctl.st == .active && !s.frozenAt p.1).map Prod.fst

/-- Whether a port has a warp in the middle of a clause other than this one (R64). -/
def State.portHeld (s : State) (k : Nat) : Bool := (s.portMates k).any fun g => (s.midway g).isSome

/-- Whether a warp's port is free for it: no other warp stands in the middle of a clause (R64), and, unless it does so
itself, none whose next word can issue has gone longer without issuing (R127; log entry 65). -/
def State.hasPort (s : State) (k : Nat) : Bool :=
  !s.portHeld k && ((s.midway k).isSome ||
    (s.portMates k).all fun g => decide (s.lastIssue (hostKey k) ≤ s.lastIssue g) || (s.nextTurn g).isNone)

/-- The clauses that the others which are ready have let pass grow by one as a slice begins its clause (R52). -/
def passOver (k j : Nat) (s : State) : List Effect :=
  let others := (s.players k).filter fun p => !(p.1 == j && p.2 == k) && s.canTake p.2 p.1
  chain s (others.map fun p => fun s => [.ctl p.2 ((s.ctl p.2).onSlices (2 ^ p.1) fun x => { x with passed := x.passed + 1 })])

end Sys2Proof.Machine
end

