-- ==== Sys2Proof/Machine/Boundary.lean ====
section
/-! DEFINITION. Steps at a clause's start and of a warp's own: starting a clause, diversion to a save routine, traps
taken, waits that end, flags that clear, gangs, parking and restoring (02 R40 to R53; 03 R61 to R65, R72; 05 R120, R127
to R130; 16 R391, R398). -/
namespace Sys2Proof.Machine

/-- Whether a context exists, is resident in an active set, and is neither trapped nor frozen (R42, R86, R258). -/
def State.runs (s : State) (k : Nat) : Bool :=
  (find s.warps k).isSome && (s.ctl k).st == .active && (s.ctl k).trap.isNone && !s.frozenAt k

/-- A wait that a slice returns to from a handler: that of a word that has issued and is not to execute again, and one at
a clause boundary (R391). A waiting queue instruction, REND or counter wait starts anew. -/
def Wait.survives : Wait → Bool
  | .bar _ _ _ | .abar _ _ _ | .word _ _ _ _ | .combine _ _ | .replies _ _ | .fired => true
  | _ => false

/-- A slice that a trap stops at a clause boundary, or at the first word of a clause. -/
def Slice.stop (x : Slice) : Slice :=
  let w := x.wait.filter Wait.survives
  { x with inClause := false, idx := 0, words := if w.isSome then x.words else [], h0 := 0, wait := none, hwait := w
           stepped := false }

/-- A trap raised at a clause boundary: the slices stand at the clause that would execute next. -/
def raiseAt (s : State) (k sl : Nat) (t : Trap) : List Effect :=
  chain s [
    fun s => [.ctl k ((s.ctl k).onSlices sl Slice.stop)],
    fun s => raise s k (boundaryTrap s k sl t)]

/-- The safe-point entry of a clause of a block (R97): its save and restore routines' offsets. -/
def State.safeEntry (s : State) (b va : Nat) : Option (Nat × Nat) :=
  let x := s.blk b
  (span 0 x.img.safecnt).findSome? fun i =>
    match s.ctxBytes x.ctx (x.img.base + x.img.safeoff + 16 * i) 16 with
    | some (e, _) => if x.img.base + bits e 31 0 = va then some (bits e 63 32, bits e 95 64) else none
    | none => none

/-- Whether a slice stands where it may be diverted (R398): it has reached a clause, or waits at its first word. One that
waits at the end of the clause before has not reached it. -/
def State.atStart (s : State) (k : Nat) (x : Slice) : Bool :=
  (!x.inClause || (x.idx == 0 && x.wait.isSome)) && x.regang.isNone && match x.wait with
    | some (.combine n ids) => s.waitOver k (.combine n ids)
    | some (.replies a ids) => s.waitOver k (.replies a ids)
    | _ => true

/-- The diversion of a warp at a clause (R398): where to, if all its conditions hold. A parted warp's slices are diverted one
by one as they reach the same clause (log entry 37). -/
def State.divertTo (s : State) (k j : Nat) : Option (Nat × Nat × Nat) :=
  let c := s.ctl k
  let x := c.slice j
  let b := blockOf k
  if !(s.blk b).preempt || c.priv || c.helper.isSome || c.span.isSome || !(s.lent k).isEmpty || (c.divert.any fun d => !c.parted || d.1 != x.pc.toNat)
      || c.st = .exited || c.trap.isSome || !s.atStart k x then none
  else match s.clauseWords k x.pc.toNat 0 1 with
    | .ok (h :: _, _) =>
      if h0Safe h.toNat then (s.safeEntry b x.pc.toNat).map fun e => (x.pc.toNat, e) else none
    | _ => none

/-- A warp, or a parted warp's slice, is diverted to its save routine (R398, R399): its slot names the safe clause, the
restore routine and m14, its reservation is dropped (R244), matrix operations may be suspended (R295), and a parked warp is
made ready. -/
def divert (k sl safe save restore : Nat) (s : State) : List Effect :=
  let x := s.blk (blockOf k)
  let m14 := ((s.warp k).readM 14).toNat
  let slot := s.slotVa k
  chain s [
    fun s => deviceWrite s x.ctx slot.toNat
      (leBytes 64 (pack [(0, 64, safe), (64, 64, x.img.base + restore), (128, 32, m14), (160, 1, 1)])) x.epoch,
    fun s => [.ctl k { (s.ctl k).onSlices sl (fun y =>
        { y with pc := dword (x.img.base + save), inClause := false, idx := 0, words := [], h0 := 0, wait := none
                 resv := none, yielded := false }) with
      pslot := slot, divert := some (safe, x.img.base + restore, m14) }],
    suspendMats k,
    fun s => makeReady s k]

/-- A slice at the first word of a clause whose header and words pass (R55 to R57). One that its warp's parking took from a
wait at this word waits on (R65). -/
def Slice.begin (priv : Bool) (h0 h1 : Word) (ws : List Word) (x : Slice) : Slice :=
  let m := BitVec.ofNat 16 (bits h1.toNat 31 16)
  let back := match x.wait with | some (.combine _ _) | some (.replies _ _) => false | _ => true
  { x with inClause := true, idx := 0, h0, words := ws, park := none, passed := 0
           wait := if back && ws.head? == x.words.head? then x.wait else none
           mode := if priv then x.mode else m, modeSup := if priv then m else x.modeSup }

/-- A clause begins: its words, its mode, the turn; a helper under a release request counts it (R318). -/
def beginClause (k sl : Nat) (h0 h1 : Word) (ws : List Word) (s : State) : List Effect :=
  let c := s.ctl k
  let helper := c.helper.map fun (h : Helper) => if h.asked then { h with clauses := h.clauses + 1 } else h
  chain s [passOver k (lowest 8 sl),
    fun s => [.ctl k { (s.ctl k).onSlices sl (Slice.begin c.priv h0 h1 ws) with helper }]]

/-- An active warp whose clause waits on busy flags has met a long-latency stall, once its other slices are stalled too
(R42, R127: the flags stay busy for 32 cycles). -/
def stallFlags (k : Nat) (s : State) : List Effect :=
  let w := s.warp k
  let c := w.ctl
  let idle := fun (j : Nat) => (c.slice j).stalled || (c.slice j).yielded || s.waitBusy k j != 0
  if helperBase ≤ k || c.span.isSome || !(s.lent k).isEmpty || !(w.liveNow.all idle) then []
  else [.ctl k { c with st := .pending, stalled := s.fresh }]

/-- The address of the word at which the fetch of n words from an address on fails first. -/
def State.faultAt (s : State) (k va n : Nat) : Nat :=
  ((span 0 n).find? fun i => (match s.fetchAt k (va + 4 * i) with | .error _ => true | .ok _ => false)).elim va
    fun i => va + 4 * i

/-- The start of a clause (R61, R72, R110): the header is fetched and checked, then the WAIT flags must be clear, then
the words are fetched and checked. -/
def startClause (k j : Nat) (s : State) : List Effect :=
  let c := s.ctl k
  let sl := s.gangOf k j
  let pc := (c.slice j).pc.toNat
  let fault := fun (s : State) (va n : Nat) (e : LaneFault) => raiseAt s k sl (fetchTrap s (s.warp k) sl (s.faultAt k va n) e)
  match s.clauseWords k pc 0 2 with
  | .error e => fault s pc 2 e
  | .ok (hs, es) =>
    let h0 := hs.getD 0 0
    let h1 := hs.getD 1 0
    if !headerOk h0.toNat h1.toNat then es ++ raiseAt (applyAll es s) k sl { code := 0x02 }
    else match s.clauseWords k pc 2 (h0Len h0.toNat) with
      | .error e => fault s (pc + 8) (h0Len h0.toNat) e
      | .ok (ws, fs) =>
        if !wordsOk 32 ws then es ++ raiseAt (applyAll es s) k sl { code := 0x02 }
        else chain s [fun _ => es ++ fs, fun s => s.cacheClause k pc (2 + ws.length), beginClause k sl h0 h1 ws]

/-- Debug-step at a slice's next clause (R130): every mark of a completed step is used up. -/
def stepStop (k mask live : Nat) (s : State) : List Effect :=
  chain s [
    fun s => [.ctl k (((s.ctl k).refocus live).onSlices 255 fun x => { x with stepped := false })],
    fun s => raiseAt s k mask { code := 0x17 }]

/-- CLAUSE_START (R72, R128, R130, R398): a slice whose turn it is begins a clause; it is diverted to its save routine, stops
for single-step, or stalls on the flags its clause waits for. -/
def execClauseStart (k sl : Nat) (s : State) : Out :=
  let c := s.ctl k
  let live := liveSlices (s.warp k)
  let x := c.slice sl
  let mask := s.gangOf k sl
  if !bit live sl then commit s []
  else match s.divertTo k sl with
    | some d => commit s (divert k mask d.1 d.2.1 d.2.2 s)
    | none =>
      if !s.runs k || x.inClause || !bit mask sl || (c.priv && !bit c.hslices sl) then commit s []
      else if c.stepTrap live sl && (x.regang.isNone || !bit live c.focus) && c.deferClear mask && (x.wait.isNone || s.waitClear k x)
      then commit s (stepStop k mask live s)
      else if x.regang.isNone && s.waitBusy k sl ≠ 0 && s.waitClear k x && c.deferClear mask then commit s (stallFlags k s)
      else if !s.canTake k sl || !s.hasTurn k sl || !s.hasPort k then commit s []
      else commit s (startClause k sl s)

/-- The opcodes whose instructions execute once for the issuing slices (R101, R389): a word of one that no form of its
opcode admits names their lowest live lane. -/
def onceOpcode (op : Nat) : Bool :=
  (1 ≤ op && op ≤ 0x18) || (0x20 ≤ op && op ≤ 0x39 && op != 0x27) || op == 0xBF || op == 0xC0 || op == 0xC2
    || (0xC8 ≤ op && op ≤ 0xD5) || (0xD8 ≤ op && op ≤ 0xE2) || op == 0xE5 || op == 0xE8
    || (0xEC ≤ op && op ≤ 0xEE) || (0xF0 ≤ op && op ≤ 0xF2) || (0xF5 ≤ op && op ≤ 0xFE)

/-- UNASSIGNED_OPCODE (R80): an instruction word that matches no instruction. -/
def execUnassignedOpcode (w : Nat) (s : State) : Out :=
  issue (fun _ => { cls := .a, legal := false, once := onceOpcode (w / 16777216) }) (fun _ => .error { code := 0x01 }) s

/-- Whether a slice holds until its warp's handler has returned (R391): a slice of the warp that has not entered it. -/
def Ctl.holds (c : Ctl) (j : Nat) : Bool := c.priv && !bit c.hslices j

/-- Whether a trap deferred to a slice is not to be raised yet: a refusal while the slice's other combine requests on this
chip are undecided (R365, R371), and a copy command's trap while that command completes (R270). -/
def State.deferHeld (s : State) (k : Nat) (x : Slice) (t : Trap) : Bool :=
  (t.code == 0x10 && match x.wait with
    | some (.combine _ ids) => s.cmbReqs.any fun q => ids.contains q.id && q.stage == 0 && nameChip q.name == s.chip
    | _ => false)
  || (t.copyOp && s.copies.any fun c => c.k == k && c.stage == 4)

/-- The outcome of a trap deferred to a slice (R190, R271, R335): raised at its next clause boundary, or where it waits
at a clause's first word; a helper's fault at once in HJOIN (R322). In a handler it is raised there, where no other handler
takes it (R388); a slice that holds for its warp's handler raises it after (R391). -/
def execDeferredTrap (k sl : Nat) (s : State) : Out :=
  let c := s.ctl k
  let x := c.slice sl
  let joins := match x.wait with | some (.hjoin _ _) => true | _ => false
  let here := !x.inClause || (x.idx == 0 && x.wait.isSome) || joins
  match x.defer with
  | [] => commit s []
  | t :: rest =>
    if !here || !c.st.resident || c.st = .parking || c.trap.isSome || s.frozenAt k || c.holds sl || s.deferHeld k x t
    then commit s []
    else
      commit s (chain s [
        fun s => [.ctl k ((s.ctl k).onSlices (2 ^ sl) fun y => { y with defer := rest })],
        fun s => raiseAt s k (s.gangOf k sl) t])

/-- Whether the two words at a context's handler fail the header checks (R376), as supervisor mode fetches them. -/
def State.handlerBad (s : State) (k : Nat) : Bool :=
  match (s.onWarp k fun w => { w with ctl := { w.ctl with priv := true } }).clauseWords k (s.handlerVa k).toNat 0 2 with
  | .ok (hs, _) => !headerOk (hs.getD 0 0).toNat (hs.getD 1 0).toNat
  | .error _ => false

/-- Misaligned-target at handler entry, in place of the trap that was to be handled (R376). -/
def entryTrap (s : State) (k : Nat) (t : Trap) : Trap :=
  let va := (s.handlerVa k).toNat
  { code := 0x05, addr := va, tpc := va, slices := t.slices, m0 := t.m0 }

/-- HANDLER_ENTRY (R391): once the entering slices' flags are clear. A handler whose first words are no clause header
makes it a kernel fault (R376). -/
def execHandlerEntry (k : Nat) (s : State) : Out :=
  match (s.ctl k).trap with
  | none => commit s []
  | some t =>
    if !s.takesHandler k t || !(s.ctl k).quiet t.slices || s.frozenAt k then commit s []
    else if s.handlerBad k then
      commit s (if (s.ctl k).helper.isSome then chain s [fun s => [.ctl k { s.ctl k with trap := none }],
          fun s => raise s k (entryTrap s k t)]
        else [.ctl k { s.ctl k with trap := some (entryTrap s k t) }])
    else commit s (enterHandler s k t)

/-- STORE_DRAIN (R216): the head store of a warp becomes visible, unless what holds it back still does. -/
def execStoreDrain (k : Nat) (s : State) : Out := commit s (drainHead s k)

/-- Whether a request is an atomic, with a poisoned sector (R240). -/
def Req.spoiled (s : State) (r : Req) : Bool := (r.kind == 2 || r.kind == 3) && s.poisonedRange (r.pa % 2 ^ 43) r.size

/-- The host requests of a flag operation complete (R356): its atomics are performed, in lane order, each by the slice of
its lane (R244), and their values returned; one that meets poison changes nothing (R240). Their lines, and those that an STCND
asked for, stay owned in the core's L1 (R232). -/
def hostAtomics (k : Nat) (sup : Bool) (rs : List Req) : List (State → List Effect) :=
  ((rs.filter fun r => 1 ≤ r.kind).map fun r => fun (s : State) =>
    let line := r.pa % 2 ^ 43 / 128
    [Effect.owned ((coreOf k, line) :: s.owned.filter fun x => x.2 ≠ line)]) ++
  (rs.filter fun r => r.kind == 2 || r.kind == 3).map fun r => fun (s : State) =>
    let pa := r.pa % 2 ^ 43
    let arg := r.dest.getD 1 (0, 0, 0)
    let old := s.phys pa r.size
    let dst := r.dest.headD (0, 0, 0)
    let lane := (r.eas.headD (0, 0)).1
    if r.spoiled s then []
    else s.physWrite pa (leBytes r.size (atomFn arg.1 r.ty old arg.2.1 arg.2.2)) (s.epochOf k) (some (k, lane / 4 % 8)) ++
      (if r.kind = 2 then (regOut r.ty dst.1 dst.2.1 old).map (fun x => regEffect s k x sup) else [])

/-- The trap of a flag operation: the one it has, or that of its first host atomic that meets poison (R240). -/
def FlagOp.trapOf (o : FlagOp) (s : State) (hosts : List Req) : Option (Nat × Trap) :=
  o.trap <|> ((hosts.find? fun r => r.spoiled s).map fun r =>
    (r.sl, { r.src with code := 0x12, addr := (r.eas.headD (0, 0)).2, lmask := 2 ^ (r.eas.headD (0, 0)).1 }))

/-- The requests to host memory that a flag operation of a context has outstanding. -/
def State.hostsOf (s : State) (k id : Nat) : List Req := s.fab.reqs.filter fun r => r.plane == 0xFE && r.k == k && r.op == id

/-- A flag operation ends: what it has still to write takes place, its host requests are performed, its flag falls, and a
trap of it is deferred. -/
def endOp (k : Nat) (o : FlagOp) (s : State) : List Effect :=
  let hosts := s.hostsOf k o.id
  let trap := o.trapOf s hosts
  let last : List (State → List Effect) := [
    fun s => [.fab { s.fab with reqs := s.fab.reqs.filter fun r => !(r.plane == 0xFE && r.k == k && r.op == o.id) },
      .ctl k { s.ctl k with flagOps := (s.ctl k).flagOps.filter fun p => p.id ≠ o.id }],
    fun s => (trap.toList.flatMap fun t => deferTrap s k t.1 t.2),
    mirror k]
  chain s ((fun s => o.writes.map fun x => regEffect s k x o.sup) :: hostAtomics k o.sup hosts ++ last)

/-- Whether a flag operation has writes to tiles that come after those of an earlier one (R304). -/
def Ctl.tileBehind (c : Ctl) (o : FlagOp) : Bool := o.inTile && c.flagOps.any fun p => p.inTile && decide (p.id < o.id)

/-- FLAG_OP_COMPLETE (R72, R75): the writes of a flag-bound operation that are left take place, those to tiles in program
order (R304), and its flag clears when none is left in flight. -/
def execFlagOpComplete (k id : Nat) (s : State) : Out :=
  match (s.ctl k).flagOps.find? fun o => o.id == id with
  | none => commit s []
  | some o => if !o.waiting.isEmpty || o.held || (s.ctl k).tileBehind o then commit s [] else commit s (endOp k o s)

/-- A wait that ends: the slices go on after their word, with what the word writes. -/
def endWait (k sl : Nat) (f : Flow) (es : State → List Effect) (s : State) : List Effect :=
  chain s [
    es,
    fun s => [.ctl k ((s.ctl k).onSlices sl fun x => { x with wait := none })],
    fun s => advance s k sl f]

/-- Whether a slice of an active warp may go on at the word it stands at: its turn, its port (R64, R127, R128), and no
diversion that comes before (R398). -/
def State.mayResume (s : State) (k j : Nat) : Bool :=
  s.runs k && (!(s.ctl k).priv || bit (s.ctl k).hslices j) && s.hasTurn k j && s.hasPort k && (s.divertTo k j).isNone

/-- A step that ends the wait of a slice: for an active warp, in its turn, the word it stalled at completes (R64); a
parked or parking warp is made ready (R47). -/
def release (k j : Nat) (isOver : Wait → Bool) (f : Flow) (es : Wait → State → List Effect) (s : State) : Out :=
  let c := s.ctl k
  match (c.slice j).wait with
  | none => commit s []
  | some w =>
    if !isOver w || !bit (liveSlices (s.warp k)) j || s.frozenAt k || c.trap.isSome then commit s []
    else if c.st.away then commit s (wake k s)
    else if (c.slice j).inClause && s.mayResume k j then commit s (endWait k (s.gangOf k j) f (es w) s)
    else commit s []

/-- A queue wait of a slice: in its turn it is performed, or raises what its header asks (R277, R278). -/
def serve (k j bad off : Nat) (w : Wait) (es : State → List Effect) (s : State) : Out :=
  if bad ≠ 0 && (s.ctl k).st.resident && !(s.ctl k).st.away && (s.ctl k).trap.isNone then
    commit s (raise s k ((⟨s, k, s.gangOf k j, s.warp k⟩ : Issue).fill true
      { code := bad, addr := apertureAddr (blockOf k) off }))
  else release k j (fun v => s.waitOver k v && decide (v = w)) .next (fun _ => es) s

/-- QUEUE_STEP_SERVED (R277, R278): a waiting push or pop is performed in its turn, or raises what its header asks. -/
def execQueueStepServed (k sl : Nat) (s : State) : Out :=
  let b := blockOf k
  match ((s.ctl k).slice sl).wait with
  | some (.push off h n bad) => serve k sl bad off (.push off h n bad) (fun s => pushStep s b off h (some (k, sl))) s
  | some (.pop off d n bad) =>
    serve k sl bad off (.pop off d n bad)
      (fun s => .sreg k d (word (s.headHandle b off)) :: popStep s b off (some (k, sl))) s
  | _ => commit s []

/-- BAR_RELEASE (R248): a new PHASE value has been seen. -/
def execBarRelease (k sl : Nat) (s : State) : Out :=
  release k sl (fun w => match w with | .bar _ _ ok => ok | _ => false) .next (fun _ _ => []) s

/-- ABWAIT_RELEASE (R251). -/
def execAbwaitRelease (k sl : Nat) (s : State) : Out :=
  release k sl (fun w => match w with | .abar _ _ ok => ok | _ => false) .next (fun _ _ => []) s

/-- WAITW_RELEASE (R123): the wait ends its clause. -/
def execWaitwRelease (k sl : Nat) (s : State) : Out :=
  release k sl (fun w => match w with | .word _ _ _ ok => ok | _ => false) .ends (fun _ _ => []) s

/-- WAITC_SATISFIED (R224, R254). -/
def execWaitcSatisfied (k sl : Nat) (s : State) : Out :=
  release k sl (fun w => match w with | .waitc cls n => decide ((s.ctl k).counter cls ≤ n) | _ => false) .next
    (fun _ _ => []) s

/-- The warps of a block that wait at REND, and whether a wait asks for the re-fork. -/
def State.atRend (s : State) (b : Nat) : List (Nat × Bool) :=
  (s.blockWarps b).filterMap fun p => p.2.ctl.slices.findSome? fun x =>
    match x.wait with | some (.rend r) => some (p.1, r) | _ => none

/-- What an exited warp that is to be created anew has in flight comes to its end (R117, R149): its flag operations but for
replies still to come, its XSWAP, and the XSWAPs that wait for it in vain. -/
def laidToRest (k : Nat) (s : State) : List Effect :=
  let ops := (s.ctl k).flagOps.filter fun o => !o.held
  chain s ([pairSwap k] ++
    (ops.map fun o => fun s => if o.waiting.isEmpty then endOp k o s
      else o.trap.toList.flatMap fun t => deferTrap s k t.1 t.2) ++
    (s.warps.map Prod.fst).map fun g => fun s => match (s.ctl g).xswap with
      | some x => if x.partner = k then chain s (swapDone g x none) else []
      | none => [])

/-- Every non-lead warp of a block that does not exist is created at its role's entry point (R124, R125). -/
def createRest (s : State) (b : Nat) : List Effect :=
  let x := s.blk b
  let new := (x.img.warps.filter (· ≠ 0)).filter fun w => !s.exists (Config.warpsPerBlock * b + w)
  chain s ((new.map fun w => laidToRest (Config.warpsPerBlock * b + w)) ++ new.map fun w => fun s =>
    let r := x.img.roleOf w
    createWarp s b w (dword (x.img.base + r.2.2.1)) (2 ^ r.2.2.2 - 1) 0)

/-- FORK: a release at block scope, then every warp of the block that does not exist is created (R124). -/
def execFork (s : State) : Out :=
  issue (fun _ => { cls := .l, once := true })
    (fun I => .ok (I.release [
      fun s => [.block (blockOf I.k) { s.blk (blockOf I.k) with forked := true }],
      fun s => createRest s (blockOf I.k)] .ends)) s

/-- A slice whose rendezvous has fired: its warp continues at the clause after its REND when it issues next. -/
def Slice.fire (x : Slice) : Slice := match x.wait with | some (.rend _) => { x with wait := some .fired } | _ => x

/-- REND_FIRE (R125): every waiting warp may continue, and a re-fork creates what is absent. The block's copy commands that
have pushed have completed by then (R269, R435; log entry 80). -/
def execRendFire (b : Nat) (s : State) : Out :=
  let ws := s.atRend b
  if ws.isEmpty || !s.rendFull b || s.frozenAt (leadOf b) then commit s []
  else
    let pushed := s.copies.filter fun c => c.stage == 4 && blockOf c.k == b
    commit s (chain s (pushed.flatMap copyDone ++ (ws.map fun p => fun s => [.ctl p.1 ((s.ctl p.1).onSlices 255 Slice.fire)]) ++
      (ws.map fun p => wake p.1) ++
      [fun s => if ws.any Prod.snd then createRest s b else []]))

/-- GANG_FORM (R120): the slices form one gang at the clause after their REGANG, and their flags merge (R40);
a debug-step that is due comes first (R130). -/
def execGangForm (k : Nat) (s : State) : Out :=
  let w := s.warp k
  let c := w.ctl
  if !gangReady w || !(c.st = .active || c.st = .pending) || c.trap.isSome || s.frozenAt k || c.stepLost (liveSlices w)
  then commit s []
  else commit s [.ctl k { (c.onSlices 255 fun x => { x with regang := none }).shareFlags (liveSlices w) with parted := false }]

/-- XSWAP_PAIR (R149, R150): matching XSWAPs pair, though a side may have exited since; one whose partner is gone without
having issued its match receives zeros. -/
def execXswapPair (k : Nat) (s : State) : Out :=
  match (s.ctl k).xswap with
  | none => commit s []
  | some x =>
    let pair := pairSwap k s
    if pair.isEmpty && !s.exists x.partner then commit s (chain s (swapDone k x none)) else commit s pair

/-- Whether a slice waits where its warp may park after PARK_DELAY (R49, R65): for the acceptance of combine requests only
while one of them waits for a slot (R365); for flags, where a pending XSWAP keeps one busy (R150). -/
def State.parkable (s : State) (k j : Nat) : Bool :=
  let c := s.ctl k
  let x := c.slice j
  match x.wait with
  | some (.combine _ ids) => x.mayPark && s.cmbReqs.any fun q => ids.contains q.id && q.stage == 1
  | some (.replies _ _) => c.parted && x.mayPark
  | some (.escalated _ _ _) => c.parted
  | _ => x.mayPark || (x.regang.isNone && x.wait.isNone && !x.inClause && (s.waitBusy k j &&& c.swapFlag) != 0)

/-- A warp moves to Parking for what its lowest live slice waits on (R42, R46). -/
def startParking (k : Nat) (s : State) : List Effect :=
  let cw := s.causeOf k (lowest 8 (liveSlices (s.warp k)) % 8)
  [.ctl k ((s.ctl k).park cw.1 cw.2)]

/-- Whether a parted warp parks now (R43, R122): one of its slices asked for it, and every live slice is stalled where it may
park, or has yielded, or holds for a handler at a clause boundary. -/
def State.partsNow (s : State) (k : Nat) : Bool :=
  let w := s.warp k
  let c := w.ctl
  let js := setBits 8 (liveSlices w)
  let idle := fun (j : Nat) =>
    let x := c.slice j
    (x.mayPark && (x.yielded || x.regang.isSome || !s.sliceReady k x)) || (!x.inClause && (s.waitBusy k j != 0 || c.holds j))
  decide (k < helperBase) && c.parted && c.st.resident && !c.st.away && c.span.isNone && (s.lent k).isEmpty && c.trap.isNone
    && (js.any fun j => (c.slice j).park.isSome) && !gangReady w && js.all idle

/-- Whether some slice of a warp could issue, busy WAIT flags counted. -/
def State.couldIssue (s : State) (k : Nat) : Bool :=
  s.ready k && (s.warp k).liveNow.any fun j => s.waitBusy k j == 0

/-- Whether a resident warp may park now (R42, R43, R65, R323): it has left its port's active set. -/
def State.canPark (s : State) (k : Nat) : Bool :=
  let c := s.ctl k
  let live := setBits 8 (liveSlices (s.warp k))
  c.st == .pending && c.helper.isNone && c.span.isNone && (s.lent k).isEmpty && c.trap.isNone
    && !live.isEmpty && (live.all fun j => s.parkable k j) && !s.frozenAt k && !s.couldIssue k

/-- PARK_DELAY_EXPIRY (R49): a wait has lasted PARK_DELAY core cycles. -/
def execParkDelayExpiry (k : Nat) (s : State) : Out :=
  if s.canPark k then commit s (startParking k s) else commit s []

/-- The offsets of a core's spill area free for a context of n bytes (R45): multiples of 1 KiB clear of the others, and of
the boundary granules of a repartition in progress, whose contexts have moved out (R180). -/
def State.spillFree (s : State) (core n : Nat) : List Nat :=
  let x := (s.core core).split
  let held := (s.onCore core).filterMap fun p =>
    let c := p.2.ctl
    if !c.st.resident && c.saved && c.frame < 2 ^ 63 then some (c.frame, savedSize c.vb) else none
  if spillBytes x < s.spillUsed core + n then []
  else (freeRuns 1024 (spillBytes x) n held).filter fun o => !s.atBoundary core ((x.1 + x.2.1) * 16384 + o) n

/-- A saved warp is parked: waiting, or ready where its wait is over (R42). -/
def parked (k frame : Nat) (s : State) : List Effect :=
  let c := s.ctl k
  if s.ready k then
    [.ctl k { c with st := .parkedReady, saved := true, frame },
     .core (coreOf k) { s.core (coreOf k) with ready := (s.core (coreOf k)).ready ++ [k] }]
  else [.ctl k { c with st := .parkedWaiting, saved := true, frame }]

/-- PARK_SAVE_COMPLETE (R42, R44, R45, R76): the context goes to the spill area, or to its slot in the save area, where
a fault ends the domain. A warp made ready meanwhile stays resident; one that yielded is saved all the same. -/
def execParkSaveComplete (k : Nat) (s : State) : Out :=
  let c := s.ctl k
  if c.st ≠ .parking || !(c.flagOps.all fun o => !o.waiting.isEmpty || c.xswap.any fun x => x.op == o.id) then commit s []
  else if s.eventReady k then commit s (makeReady s k)
  else
    let free := s.spillFree (coreOf k) (savedSize c.vb)
    commit s (if free.isEmpty then saveOut k (parked k) s else parked k (free.getD (s.pick 20000 free.length) 0) s)

/-- The records of a core that are ready, in the order in which they leave the queue (R48): that in which they entered. -/
def State.readyQueue (s : State) (core : Nat) : List Nat := (s.core core).ready

/-- The resident warps that a core may park to make room (R48): Pending, not ready, and where parking is allowed. -/
def State.parkVictims (s : State) (core : Nat) : List Nat :=
  ((s.onCore core).filter fun p => p.2.ctl.st == .pending && s.canPark p.1).map Prod.fst

/-- The member of a list of warps with the least measure, the earlier one of equals. -/
def leastBy (f : Nat → Nat) : List Nat → Option Nat
  | [] => none
  | k :: ks => match leastBy f ks with
    | none => some k
    | some m => if f k ≤ f m then some k else some m

/-- A slice of a warp that comes back from parking: one that waited at the first word of a clause executes the clause from
its header (R65). An SRET that escalated completes where it stands (R206). -/
def Slice.restored (x : Slice) : Slice :=
  match x.wait with
  | some (.escalated _ _ _) => x
  | _ => { x with inClause := false, idx := 0, h0 := 0 }

/-- WARP_RESTORE (R42, R48): the head of the ready queue takes a free window, or the resident warp with the oldest stall
that may park makes room for it. -/
def execWarpRestore (core : Nat) (s : State) : Out :=
  match s.readyQueue core with
  | [] => commit s []
  | k :: _ =>
    let c := s.ctl k
    if s.frozenAt k then commit s []
    else if s.windowFree core c.vb then
      commit s [.ctl k { (c.onSlices 255 Slice.restored) with
          st := .pending, saved := false, base := s.windowPick k c.vb },
        .core core { s.core core with ready := (s.core core).ready.filter (· ≠ k) }]
    else match leastBy (fun v => (s.ctl v).stalled) (s.parkVictims core) with
      | none => commit s []
      | some v => commit s (startParking v s)

/-- The size of a role's active set (01 R10): 8 vector, 4 maths, 4 copy. -/
def activeSet (role : Nat) : Nat := if role = 0 then 8 else 4

/-- Whether a Pending warp is ready to issue (R42): a slice could issue, no WAIT flag of its clause busy. -/
def State.pendingReady (s : State) (k : Nat) : Bool :=
  let w := s.warp k
  w.ctl.st == .pending && w.liveNow.any fun j => s.sliceReady k (w.ctl.slice j) && s.waitBusy k j == 0

/-- The other warps of a warp's core and role of which a test holds. -/
def State.peersOf (s : State) (k : Nat) (p : Nat → Bool) : List Nat :=
  ((s.onCore (coreOf k)).filter fun q => q.1 != k && q.2.ctl.role == (s.ctl k).role && p q.1).map Prod.fst

/-- Whether a warp's port has a place free in its active set. -/
def State.portFree (s : State) (k : Nat) : Bool :=
  decide ((s.peersOf k fun g => (s.ctl g).st == .active).length < activeSet (s.ctl k).role)

/-- WARP_ACTIVATE (R42, R127): the oldest ready Pending warp of a port enters a free place of its active set. -/
def execWarpActivate (k : Nat) (s : State) : Out :=
  let c := s.ctl k
  if !s.pendingReady k || s.frozenAt k || !s.portFree k
      || ((s.peersOf k fun g => s.pendingReady g && !s.frozenAt g).any fun g => decide ((s.ctl g).issued < c.issued))
  then commit s []
  else commit s [.ctl k { c with st := .active }]

/-- AGE_PROMOTION (R51, R127): a warp unissued for 192 cycles while ready goes ahead of every other choice: an active one
issues next, and a Pending one takes the next free place of its port's set, the oldest or not (log entry 12). -/
def execAgePromotion (k : Nat) (s : State) : Out :=
  let c := s.ctl k
  if s.pendingReady k then
    if s.frozenAt k || !s.portFree k then commit s [] else commit s [.ctl k { c with st := .active }]
  else match (s.warp k).liveNow.find? fun j => (c.slice j).inClause && s.sliceReady k (c.slice j) with
    | some j => if s.runs k then commit s [.sched (.issue k j :: s.sched)] else commit s []
    | none => commit s []

/-- RESERVATION_EXPIRE (R245). -/
def execReservationExpire (k sl : Nat) (s : State) : Out :=
  let c := s.ctl k
  match (c.slice sl).resv with
  | none => commit s []
  | some r =>
    if r.count < 32 then commit s []
    else commit s [.ctl k (c.onSlices (2 ^ sl) fun x => { x with resv := none })]

end Sys2Proof.Machine
end

