-- ==== Sys2Proof/Machine/CombineArrive.lean ====
section
/-! DEFINITION. Requests before the home slice of a combine buffer: dispatches, puts of this chip and of another, the bytes
of a held row, cancels and slots granted (15 R364 to R366, R369, R465). -/
namespace Sys2Proof.Machine

/-- A held row refused after all (R366): combine-misuse in its sender; where the block of the sender has ended, its
fault domain ends. -/
def revoke (name tok : Nat) (r : Row) (s : State) : List Effect :=
  if r.chip ≠ 0 then
    chain s [fun s => [.cmbReqs (s.cmbReqs.filter fun q => !q.promised r.tag)],
      fun s => [.fab { s.fab with sent := s.fab.sent ++ [⟨1, r.chip - 1, s.spray (r.chip - 1) 0,
        [r.src, s.deviceEpoch % 2, 0, 0, 4]⟩] }]]
  else if (find s.blocks (blockOf r.k)).isSome && s.blockName (blockOf r.k) == r.src then
    refuseLane r.k r.sl r.lane name 2 tok r.expert s
  else match s.dist.launches.find? fun l => l.jidx == r.src / 2 ^ 32 with
    | none => []
    | some l => endDomain s l.ctx l.domain 0x10

/-- A request before the home slice, its row's bytes at hand (R366). -/
def applyReq (q : CmbReq) (line : Bool) (bytes : List Byte) (s : State) : List Effect :=
  match if bits q.name 17 0 = 0 then s.cmb q.ctx (nameBuf q.name) else none with
  | none => decided q (.refused 0) 0 s
  | some x =>
    match x.judge q line with
    | .waits => if q.stage = 1 then [] else
        [.cmbReqs ((s.cmbReqs.filter fun r => r.id ≠ q.id) ++ [{ q with stage := 1 }])]
    | .held =>
      let r := x.accept q bytes
      chain s ([setCmb r.1, decided q .held (bRowBytes x.desc)] ++ r.2.map fun y => revoke q.name q.tok y)
    | .late => chain s [lateRow x.ctx x.buf q.tok (q.experts.headD 0) (if q.chip = 0 then s.chip else q.chip - 1),
        decided q .late 0]
    | .discarded => chain s [setCmb { x with dup := x.dup + 1 }, decided q .discarded 0]
    | .refused m => decided q (.refused m) 0 s

/-- The row of a put read by the copy engine (R364, R271), its own shared memory or global: the address of the first
poisoned sector, or of the first page that fails. -/
def State.readRow (s : State) (q : CmbReq) (n : Nat) : Except (Nat × LaneFault) (List Byte × Option Nat × List Effect) :=
  let b := blockOf q.k
  match generic q.rowAddr with
  | .shared _ off =>
    let x : Piece := ⟨q.rowAddr, { sp := .shared b, off }, n⟩
    if off + n ≤ (s.blk b).img.shblk then .ok (s.engineRead (x.p, n), s.spoiledAt x, []) else .error (q.rowAddr, protection)
  | .virt va => s.engineBytes q.ctx (!q.priv) va n
  | _ => .error (q.rowAddr, protection)

/-- The trap of a row's read (R271) at the address that failed, named by the lane. A put has no descriptor, so DESC of the
copy extension is free. -/
def rowTrap (s : State) (q : CmbReq) (addr : Nat) (e : LaneFault) : Trap :=
  let desc := Config.freeNat (1048576 * s.fresh + 800000) % 2 ^ 256
  { engineTrap ((s.warp q.k).readM 14).toNat 0 addr e (engineExt desc q.wordv 0 addr e.code 0) with lmask := 2 ^ q.lane }

/-- A put's row meets a fault: `stop` is the stage at a first-touch page, `fail` what another fault leads to. -/
def rowFault (q : CmbReq) (stop : Nat) (fail : State → List Effect) (addr : Nat) (e : LaneFault) (s : State) : List Effect :=
  let t := rowTrap s q addr e
  chain s [if t.first then setReq { q with stage := stop } else fail,
    fun s => deferTrap s q.k (if t.first then engineSlice s q.k else q.sl) t]

/-- A put's row is read and given on, or its fault taken. -/
def withRow (q : CmbReq) (n stop : Nat) (fail : State → List Effect) (f : List Byte → State → List Effect) (s : State) :
    List Effect :=
  match s.readRow q n with
  | .error e => rowFault q stop fail e.1 e.2 s
  | .ok (_, some a, es) => chain s [fun _ => es, rowFault q stop fail a { code := 0x12 }]
  | .ok (bytes, none, es) => chain s [fun _ => es, f bytes]

/-- CMB_DISPATCH_ARRIVE (R366). -/
def execCmbDispatchArrive (id : Nat) (s : State) : Out :=
  match s.cmbReqs.find? fun q => q.id == id && !q.put && q.stage == 0 with
  | none => commit s []
  | some q => if s.cutWaits q then commit s [] else commit s (applyReq q (s.inLine q) [] s)

/-- A put whose row cannot be read tells the chip that holds its place (R465). -/
def cancelRow (q : CmbReq) (s : State) : List Effect :=
  let chip := nameChip q.name
  chain s [endReq q, fun s => [.fab { s.fab with sent := s.fab.sent ++ 
    [⟨0, chip, s.spray chip 0, [q.tag, 8, 0, 0, q.epoch % 2]⟩] }]]

/-- The bytes of an accepted put sent to the chip that holds its place (R465 part 2), or a cancel. -/
def sendRow (q : CmbReq) (s : State) : List Effect :=
  let chip := nameChip q.name
  if !s.maySend q.k then setReq { q with stage := 4 } s
  else
    withRow q q.len 4 (cancelRow q)
      (fun bytes s => chain s [setReq { q with stage := 5 }, fun s =>
        sendReq s { id := 0, k := q.k, sl := q.sl, kind := 7, pa := chip * 2 ^ 43, size := q.len, lanes := 2 ^ q.lane
                    plane := 0, op := 0, dest := [], ty := 0, copy := q.id } chip (bytes.map BitVec.toNat)]) s

/-- CMB_PUT_ARRIVE (R364 to R366): a put reaches its home slice, the row of this chip's sender read by its copy
engine; for one accepted on another chip, its stopped row is read again (R465). -/
def execCmbPutArrive (id : Nat) (s : State) : Out :=
  match s.cmbReqs.find? fun q => q.id == id && q.put with
  | none => commit s []
  | some q =>
    if s.cutWaits q && (decide (q.chip ≠ 0) || nameChip q.name == s.chip) then commit s []
    else if q.chip ≠ 0 then commit s (if q.stage = 0 then applyReq q (s.inLine q) [] s else [])
    else if nameChip q.name ≠ s.chip then commit s (if q.stage = 4 && !s.handling q.k then sendRow q s else [])
    else if q.stage = 0 || (q.stage = 3 && !s.handling q.k) then
      let n := match s.cmb q.ctx (nameBuf q.name) with
        | some x => if bits q.name 17 0 = 0 then bRowBytes x.desc else 0
        | none => 0
      commit s (withRow q n 3 (endReq q) (fun bytes s => applyReq q (s.inLine q) bytes s) s)
    else commit s []

/-- CMB_SLOT_GRANT (R365): a waiting request takes a slot that a release freed, or one its token has by now; the list of
requests keeps those that wait in the order of their arrival. -/
def execCmbSlotGrant (id : Nat) (s : State) : Out :=
  match s.cmbReqs.find? fun q => q.id == id && q.stage == 1 with
  | none => commit s []
  | some q =>
    match s.cmb q.ctx (nameBuf q.name) with
    | none => commit s (decided q (.refused 0) 0 s)
    | some x =>
      let line := (s.cmbReqs.takeWhile fun r => r.id != q.id).any fun r => r.stage == 1 && r.ctx == q.ctx && r.name == q.name
        && x.home r.tok == x.home q.tok && (x.slot r.tok).isNone
      if x.judge q line = .waits then commit s []
      else if q.put && q.chip == 0 then
        commit s (withRow q (bRowBytes x.desc) 1 (endReq q) (fun bytes s => applyReq q line bytes s) s)
      else commit s (applyReq q line [] s)

/-- A row of a buffer that waits for its bytes, by the name of its request. -/
def State.rowOf (s : State) (id : Nat) : Option (Cmb × Slot × Row) :=
  s.cmbs.findSome? fun x => x.slots.findSome? fun y =>
    (y.rows.find? fun r => r.tag == id && !r.arrived).map fun r => (x, y, r)

/-- The bytes of a held row come (R465): at a slot made Ready or released meanwhile the row is late. -/
def landRow (id : Nat) (bytes : List Byte) (s : State) : List Effect :=
  match s.rowOf id with
  | some (x, y, r) =>
    let rest := y.rows.filter fun z => z.tag ≠ id
    if 3 ≤ y.st then chain s [setCmb (x.setSlot { y with rows := rest }), lateRow x.ctx x.buf y.tok r.expert (r.chip - 1)]
    else setCmb (x.setSlot { y with rows := rest ++ [{ r with bytes, arrived := true }] }.settle) s
  | none =>
    match s.cmbs.findSome? fun x => (x.stale.find? fun p => p.2.tag == id).map fun p => (x, p) with
    | none => []
    | some (x, t, r) =>
      chain s [setCmb { x with stale := x.stale.filter fun p => p.2.tag ≠ id }, lateRow x.ctx x.buf t r.expert (r.chip - 1)]

/-- The chip whose row a name stands for, plus one. -/
def State.rowChip (s : State) (id : Nat) : Nat := ((s.cmbReqs.find? (·.promised id)).map CmbReq.chip).getD 0

/-- The request of a row whose bytes have come is gone, and its sender has its acknowledgement (R230, R465). -/
def ackRow (id plane : Nat) (s : State) : List Effect :=
  match s.cmbReqs.find? (·.promised id) with
  | none => []
  | some q => chain s [dropReq q,
      fun s => [.fab { s.fab with sent := s.fab.sent ++ 
        [⟨1, q.chip - 1, plane, [q.tag, s.deviceEpoch % 2, 0, 0]⟩] }]]

/-- CMB_ROW_BYTES (R465): the bytes of a put of another chip arrive; a post-cut row waits for the local cut (R411), a
pre-cut one after it is logged (R413). -/
def execCmbRowBytes (id : Nat) (bytes : List Byte) (plane parity : Nat) (s : State) : Out :=
  let key := channelKey (s.rowChip id - 1) plane 0
  let s1 := applyAll (packetArrives key parity s) s
  if !s.vil.keys then commit s []
  else if s1.snap.st = 1 && decide (parity % 2 = s1.snap.n % 2) then commit s (packetArrives key parity s)
  else commit s (chain s [
    packetArrives key parity,
    fun s => if s.toLog key parity then logRequest key (7 :: id :: bytes.map BitVec.toNat) s else [],
    landRow id bytes, ackRow id plane])

/-- The place held for a row is dropped, as if the row had never arrived (R465). -/
def dropPlace (id : Nat) (s : State) : List Effect :=
  match s.rowOf id with
  | none => [.cmbs (s.cmbs.map fun x => { x with stale := x.stale.filter fun p => p.2.tag ≠ id })]
  | some (x, y, _) =>
    let rest := y.rows.filter fun z => z.tag ≠ id
    setCmb (if rest.isEmpty && y.disp.isNone && y.st < 3 then x.freeSlot y.tok else x.setSlot { y with rows := rest }) s

/-- CMB_CANCEL (R465, R405): the sender of a row could not read it. -/
def execCmbCancel (id : CancelOf) (s : State) : Out :=
  if !s.vil.keys then commit s []
  else commit s (chain s [
    packetArrives (channelKey id.via.chip id.via.plane 0) id.via.parity,
    fun s => match s.cmbReqs.find? (·.promised id.id) with
      | none => []
      | some q => chain s [dropReq q, dropPlace id.id]])

end Sys2Proof.Machine
end

