-- ==== Sys2Proof/Machine/Fabric.lean ====
section
/-! DEFINITION. What comes from the fabric and from the host: replies, requests of other chips, acknowledgements, timeouts,
link training and the loss of a plane, host accesses and snoops (14 R326 to R339, R351, R354 to R356; 09 R231; 17 R413). -/
namespace Sys2Proof.Machine

/-- An outstanding request by its name. -/
def State.req (s : State) (id : Nat) : Option Req := s.fab.reqs.find? fun r => r.id == id

/-- A request is outstanding no more. -/
def dropRequest (id : Nat) (s : State) : List Effect :=
  [.fab { s.fab with reqs := s.fab.reqs.filter fun r => r.id ≠ id }]

/-- The KIND of R336 of a request: the parts of a put are engine writes. -/
def Req.errKind (r : Req) : Nat := min r.kind 5

/-- The address of a lane of a request. -/
def Req.ea (r : Req) (l : Nat) : Nat := ((r.eas.find? fun p => p.1 == l).map Prod.snd).getD r.src.addr

/-- The flag operation of a context that awaits a request: none where the context has been created anew since (R117). -/
def State.awaiting (s : State) (r : Req) : Bool := (s.ctl r.k).flagOps.any fun o => o.id == r.op && o.waiting.contains r.id

/-- An answer to a request that a flag operation awaits (R47, R72): JOIN and the operation's wait fall. -/
def answered (r : Req) (s : State) : List Effect :=
  let c := s.ctl r.k
  if s.awaiting r then
    [.ctl r.k { c.onOp r.op (fun o => { o with waiting := o.waiting.filter (· ≠ r.id) }) with join := c.join - 1 }]
  else []

/-- The registers that a reply's bytes are written to. -/
def Req.writes (r : Req) (bytes : List Byte) : List RegWrite :=
  r.dest.flatMap fun d => regOut r.ty d.1 d.2.1 (ofBytes ((bytes.drop d.2.2).take (accessBytes r.ty)))

/-- A fault of a request that an ended helper left, charged to its foreman (R322); no stream is the helper's any more. -/
def chargeLate (r : Req) (x : Nat × Nat × Nat) (code addr : Nat) : State → List Effect :=
  crewFault r.k addr (helperExt r.src.tpc addr 0 0xFF x.1 x.2.1 x.2.2 code)

/-- Remote-error of a request (R335, R336); lanes of the same word that fail alike before the trap is taken share its
record. -/
def remoteError (r : Req) (cause : Nat) (s : State) : List Effect :=
  let t : Trap := { r.src with
    code := 0x14, addr := r.ea (lowest 32 r.lanes), lmask := r.lanes, extk := 4
    ext := remoteExt r.pa r.lanes r.plane cause r.errKind }
  let same := fun (u : Trap) => u.code == 0x14 && u.tpc == r.src.tpc && u.widx == r.src.widx && u.word == r.src.word
    && bits u.ext 391 376 == bits t.ext 391 376
  match r.crew, (s.ctl r.k).st, ((s.ctl r.k).slice r.sl).defer.find? same with
  | some x, _, _ => chargeLate r x 0x14 t.addr s
  | none, .exited, _ => deferTrap s r.k r.sl t
  | none, _, none => deferTrap s r.k r.sl t
  | none, _, some u =>
    let lm := u.lmask ||| r.lanes
    let low := if lowest 32 r.lanes < lowest 32 u.lmask then t else u
    let both := { low with lmask := lm, ext := low.ext - bits low.ext 447 416 * 2 ^ 416 + lm * 2 ^ 416 }
    [.ctl r.k ((s.ctl r.k).onSlices (2 ^ r.sl) fun y => { y with defer := y.defer.map fun v => if same v then both else v })]

/-- Uncorrectable-error of a request whose reply is poisoned (R190, R240, R334), in its lowest poisoned lane. -/
def remotePoison (r : Req) (lanes : Nat) (s : State) : List Effect :=
  let l := lowest 32 (if lanes % 2 ^ 32 = 0 then r.lanes else lanes)
  match r.crew with
  | some x => chargeLate r x 0x12 (r.ea l) s
  | none => deferTrap s r.k r.sl { r.src with code := 0x12, addr := r.ea l, lmask := 2 ^ l }

/-- A request of a copy command meets a fault (R271, R335), at the generic address of its access. -/
def engineFails (r : Req) (e : LaneFault) (s : State) : List Effect :=
  match s.copies.find? fun c => c.id == r.copy with
  | none => []
  | some c => copyFault c (r.kind - 4) (r.ea 0) e s

/-- A request of a copy command fails it (R271, R335); one of a put ends it (R465); any other is the warp's. -/
def failRequest (r : Req) (cause : Nat) (s : State) : List Effect :=
  if r.kind = 4 || r.kind = 5 then engineFails r { code := 0x14, rpa := r.pa, plane := r.plane, rcause := cause } s
  else if 6 ≤ r.kind then
    match s.cmbReqs.find? fun q => q.id == r.copy with
    | none => []
    | some q => chain s [endReq q, remoteError r cause]
  else remoteError r cause s

/-- A request ends with an error (R335): its lanes write nothing, its JOIN share falls. -/
def errRequest (r : Req) (cause : Nat) (s : State) : List Effect :=
  chain s [dropRequest r.id, answered r, failRequest r cause, mirror r.k, wake r.k]

/-- The bytes that an engine read brings are written where they are bound for (R267); those for another chip are a request
still to be sent. -/
def engineLands (r : Req) (bytes : List Byte) (s : State) : List Effect :=
  match s.copies.find? fun c => c.id == r.copy with
  | none => []
  | some c =>
    match r.dest with
    | (0, off, _) :: _ => onCopy c.id (fun y => { y with lands := y.lands ++ unitsAt .phys r.size off (bytes.take r.size) }) s
    | (chip, off, ea) :: _ => [setCopy s { c with sends := c.sends ++ [⟨chip - 1, off, r.size, ea, bytes.take r.size, none⟩] }]
    | [] => []

/-- The answer to the first part of a put (R465): 0 and the row's length where it is held, 1 discarded, 2 and the cause
refused. -/
def putAnswered (r : Req) (bytes : List Byte) (s : State) : List Effect :=
  match s.cmbReqs.find? fun q => q.id == r.copy with
  | none => []
  | some q =>
    let code := (bytes.headD 0).toNat
    let len := ofBytes ((bytes.drop 1).take 4)
    if code = 0 then
      let q' := { q with stage := 4, len, tag := r.id, plane := r.plane }
      chain s [joinDown q, setReq q', sendRow q']
    else if code = 1 then decided q .discarded 0 s
    else decided q (.refused (code - 2)) 0 s

/-- A reply or an acknowledgement without an error takes effect (R334, R230, R465). -/
def takeReply (r : Req) (a : Reply) (s : State) : List Effect :=
  if a.poison ≠ 0 then
    if r.kind = 4 || r.kind = 5 then engineFails r { code := 0x12 } s
    else remotePoison r a.poison s
  else if r.kind = 0 || r.kind = 2 then (if s.awaiting r then deliver r.k r.op (r.writes a.bytes) s else [])
  else if r.kind = 4 then engineLands r a.bytes s
  else if r.kind = 6 then putAnswered r a.bytes s
  else if r.kind = 7 then
    match s.cmbReqs.find? fun q => q.id == r.copy with
    | none => []
    | some q => chain s [setReq { q with stage := 6 }, fun s => [.ctl q.k ((s.ctl q.k).complete q.id)]]
  else []

/-- A row that another chip held and refuses after all (R366): its bytes are awaited there no more. -/
def lateRefusal (q : CmbReq) (s : State) : List Effect :=
  chain s [
    fun s => [.fab { s.fab with reqs := s.fab.reqs.filter fun r => !(r.kind == 7 && r.copy == q.id) }],
    if q.stage = 6 then dropReq q else endReq q,
    refuseLane q.k q.sl q.lane q.name 2 q.tok (q.experts.headD 0),
    mirror q.k, wake q.k]

/-- The put of this chip that another chip's answer names after its first part has been answered (R465). -/
def State.heldPut (s : State) (id : Nat) : Option CmbReq :=
  s.cmbReqs.find? fun q => q.put && q.chip == 0 && decide (4 ≤ q.stage) && q.tag == id && nameChip q.name != s.chip

/-- What comes over the fabric in the request, response and collective classes: nothing without keys (R329, R424). -/
def secured (s : State) (es : State → List Effect) : Out := commit s (if s.vil.keys then es s else [])

/-- REMOTE_REPLY (R192, R240, R334, R335): a reply of another chip, or its refusal of a row it held; one that comes too
late is discarded, but for what its packet does to a snapshot (R405). -/
def execRemoteReply (id : Nat) (a : Reply) (s : State) : Out :=
  match s.req id with
  | none =>
    secured s (fun s => chain s [
      packetArrives (channelKey a.chip a.plane 1) a.parity,
      fun s => match s.heldPut id with
        | some q => if a.err = 0 && a.bytes.head? == some 4#8 then lateRefusal q s else []
        | none => []])
  | some r =>
    if r.plane = 0xFE then commit s []
    else
      secured s (fun s => chain s [
        packetArrives (channelKey (r.pa / 2 ^ 43) r.plane 1) a.parity,
        fun s => if a.err ≠ 0 then errRequest r (a.err - 1) s
          else chain s [dropRequest id, takeReply r a, answered r, mirror r.k, wake r.k]])

/-- REMOTE_ACK (R230): a posted store, RED or engine write, or the bytes of a row, has been performed. -/
def execRemoteAck (id : Nat) (parity : Via) (s : State) : Out :=
  match s.req id with
  | none => secured s (packetArrives (channelKey parity.chip parity.plane 1) parity.parity)
  | some r =>
    if r.plane = 0xFE || r.kind = 0 || r.kind = 2 || r.kind = 4 || r.kind = 6 then commit s []
    else
      secured s (fun s => chain s [
        packetArrives (channelKey (r.pa / 2 ^ 43) r.plane 1) parity.parity,
        dropRequest id, takeReply r { bytes := [], poison := 0, err := 0, parity := parity.parity }, wake r.k])

/-- REMOTE_TIMEOUT (R335): no reply within REQTO. -/
def execRemoteTimeout (id : Nat) (s : State) : Out :=
  match s.req id with
  | none => commit s []
  | some r => if r.plane = 0xFE then commit s [] else commit s (errRequest r 2 s)

/-- A read sent again on another plane (R333): the spray hash over the planes given. -/
def resend (r : Req) (planes : List Nat) (s : State) : List Effect :=
  let chip := r.pa / 2 ^ 43
  let b := bits r.pa 42 8
  let plane := planes.getD ((b ^^^ (b / 4096) ^^^ (b / 16777216) ^^^ (chip * 0x25)) % max planes.length 1) 0
  [.fab { s.fab with
    reqs := s.fab.reqs.map fun q => if q.id = r.id then { q with plane } else q
    sent := s.fab.sent ++ [⟨0, chip, plane, [r.id, r.kind, r.pa, r.size, s.epochOf r.k % 2]⟩] }]

/-- A request on a plane that is lost is settled (R333 step 2): a read goes again, any other ends with cause 3. -/
def settleRequest (planes : List Nat) (id : Nat) (s : State) : List Effect :=
  match s.req id with
  | none => []
  | some r => if r.kind = 0 || r.kind = 4 then resend r planes s else errRequest r 3 s

/-- UNDELIVERABLE_REPORT (R339): the request is settled as on a plane that has left service. -/
def execUndeliverableReport (id : Nat) (s : State) : Out :=
  match s.req id with
  | none => commit s []
  | some r =>
    if r.plane = 0xFE then commit s [] else commit s (settleRequest (s.planes.filter (· ≠ r.plane)) id s)

/-- A change of the plane set begins (R333 steps 1 and 2): nothing new is sent, and the requests on planes that leave are
settled. -/
def startPlaneChange (s : State) : List Effect :=
  let new := s.mgmt.planeen
  if new = s.fab.planes && !s.fab.changing then []
  else
    let ps := setBits 96 new.toNat
    let gone := s.fab.reqs.filter fun r => r.plane != 0xFE && !new.getLsbD r.plane
    chain s ((fun s => [.fab { s.fab with changing := true }]) :: gone.map fun r => settleRequest ps r.id)

/-- PLANEEN_WRITE (R333): a write of one word of PLANEEN. -/
def execPlaneenWrite (w v : Nat) (s : State) : Out :=
  let old := s.mgmt.planeWord w
  commit s (chain s [
    fun s => [.mgmt { s.mgmt with
      planeen := BitVec.ofNat 96 (s.mgmt.planeen.toNat - old * 2 ^ (32 * w) + v % 2 ^ 32 * 2 ^ (32 * w)) }],
    startPlaneChange])

/-- The units of a collective that are in flight here, each with the plane it goes on once the plane set changes (R351): the
one it has, or if that leaves the next one above it that stays, wrapping. -/
def Coll.movedBy (c : Coll) (s : State) (new : List Nat) : List (Nat × Nat × Nat) :=
  (c.passed.map fun p => (p.1, p.2.1)).eraseDups.map fun p =>
    let old := s.planeFor c p.1 p.2
    (p.1, p.2, if new.contains old then old else ((new.filter fun q => decide (old < q)) ++ new).headD 0)

/-- The pass of a unit that this chip restarts where its plane leaves service (R351), if any: a reduction that has not ended
here, or the distribution of its owner. One whose results are complete here may still be under way: whether it is, is free
(log entry 29). -/
def State.passToRestart (s : State) (c : Coll) (r u : Nat) : Option Nat :=
  let owner := c.pos == r
  if c.finished then
    (if owner && c.form != 1 && 1 < c.n && s.pick (31000 + (64 * r + u) % 30000) 2 = 1 then some 1 else none)
  else if c.form < 2 && !(owner && c.passed.contains (r, u, 0)) then (if c.passed.contains (r, u, 1) then none else some 0)
  else if c.form = 1 then none
  else if owner then some 1
  else none

/-- The units of collectives on planes that leave restart their passes (R351); the others in flight keep their planes. -/
def restartUnits (new : List Nat) (s : State) : List (State → List Effect) :=
  (s.colls.filter Coll.active).flatMap fun c =>
    let moved := c.movedBy s new
    (onColl c.id fun c => { c with moved }) ::
      (moved.filter fun m => m.2.2 ≠ s.planeFor c m.1 m.2.1).filterMap fun m =>
        (s.passToRestart c m.1 m.2.1).map fun pass => collRestart c.id m.1 m.2.1 pass

/-- PLANE_CHANGE_APPLY (R333 steps 3 and 4, R351, R413): once every request is answered the new plane set applies, units
on planes that left restart, and the channels of those planes count as closed. -/
def execPlaneChangeApply (s : State) : Out :=
  if !s.fab.changing || !(s.fab.reqs.all fun r => r.plane == 0xFE) then commit s []
  else
    let new := setBits 96 s.mgmt.planeen.toNat
    let gone := s.planes.filter fun p => !new.contains p
    commit s (chain s (
      [fun s => [.fab { s.fab with planes := s.mgmt.planeen, changing := false }]] ++ restartUnits new s ++
      [fun s => if s.snap.st = 1 || s.snap.st = 2 then
          [.snap { s.snap with closed := s.snap.closed ++ s.routed.flatMap fun c => channelsOf c gone }] else [],
       settleSnap]))

/-- Fields of PORTST (R337). -/
def portState (x : Nat) : Nat := bits x 3 0
def portTrains (x : Nat) : Nat := bits x 23 16

/-- PORTST of a port written by the device. -/
def setPort (port trains err st : Nat) (s : State) : List Effect :=
  [.mgmt { s.mgmt with portst := s.mgmt.portst.set port (word (trains * 65536 + err * 256 + st)) }]

/-- A unit is fenced and the journal says so (R26, R27, R427). -/
def fenceUnit (kind die n cause : Nat) (s : State) : List Effect :=
  if s.isFenced kind die n then []
  else chain s [
    fun s => [.vil { s.vil with fenced := s.vil.fenced ++ [⟨kind, die, n⟩] }],
    fun s => journal s 4 die (pack [(0, 8, kind), (8, 8, die), (16, 16, n), (32, 8, cause)])]

/-- A plane's bit of PLANEEN cleared, which starts a change of the plane set (R333, R339). -/
def losePlane (p : Nat) (s : State) : List Effect :=
  if s.mgmt.planeen.getLsbD p then
    chain s [fun s => [.mgmt { s.mgmt with planeen := s.mgmt.planeen &&& ~~~(BitVec.ofNat 96 (2 ^ p)) }], startPlaneChange]
  else []

/-- A port is in STATE 4 (R339): its plane leaves service and notices go out on every other plane. -/
def portGone (port err : Nat) (s : State) : List Effect :=
  chain s [
    fun s => setPort port (portTrains (s.mgmt.portst.get port).toNat) err 4 s,
    losePlane port,
    fun s => [.fab { s.fab with sent := s.fab.sent ++ s.routed.flatMap fun c =>
      ((span 0 96).filter fun p => p ≠ port && s.mgmt.planeen.getLsbD p).map fun p => ⟨3, c, p, [1, port]⟩ }]]

/-- A port fails (R338): it is fenced and the journal says so. -/
def portFail (port err : Nat) (s : State) : List Effect :=
  chain s [
    portGone port err,
    fun s => journal s 6 (port / 48) (pack [(0, 8, port), (8, 8, err)]),
    fenceUnit 5 (port / 48) port 0]

/-- LINK_TRAIN_DONE (R337, R338): a training of a port has ended and the two ends exchange their views, or that exchange has
ended: the port is up, or where the views differ it retrains, and after its third retraining fails. TRAINS counts a training
from its start. -/
def execLinkTrainDone (port err : Nat) (s : State) : Out :=
  let x := (s.mgmt.portst.get port).toNat
  let n := portTrains x
  if s.mgmt.devst.toNat % 8 = 4 || 96 ≤ port || 3 ≤ portState x || s.isFenced 5 (port / 48) port then commit s []
  else if portState x < 2 then commit s (setPort port (max n 1) (bits x 15 8) 2 s)
  else if err = 0 then commit s (setPort port n (bits x 15 8) 3 s)
  else if n < 4 then commit s (setPort port (n + 1) err 1 s)
  else commit s (portFail port err s)

/-- LINK_DROP (R338): an up link drops, which counts as a training; it retrains, or at the limit fails. -/
def execLinkDrop (port err : Nat) (s : State) : Out :=
  let x := (s.mgmt.portst.get port).toNat
  if s.mgmt.devst.toNat % 8 = 4 || portState x ≠ 3 then commit s []
  else if portTrains x < 4 then commit s (setPort port (portTrains x + 1) err 1 s)
  else commit s (portFail port err s)

/-- BAD_PACKET (R330): a discarded packet never reaches the crossbar; link-level replay recovers it. -/
def execBadPacket (_port : Nat) (s : State) : Out := commit s []

/-- PLANE_NOTICE (R339): another chip has lost a plane; the plane's bit is cleared here too. -/
def execPlaneNotice (plane : Nat) (s : State) : Out :=
  if s.mgmt.devst.toNat % 8 = 4 then commit s [] else commit s (losePlane plane s)

/-- The bytes of a request of another chip: those read, written or exchanged. -/
def reqLen (q : RemoteReq) : Nat :=
  if q.kind = 0 || q.kind = 4 then q.v
  else if q.kind = 2 || q.kind = 3 then accessBytes q.ty
  else q.bytes.length

/-- Whether a request changes memory (R413). -/
def reqChanges (q : RemoteReq) : Bool := q.kind != 0 && q.kind != 4

/-- Whether the target address of a request exists for other chips (R186, R335 cause 1). -/
def State.servable (s : State) (q : RemoteReq) : Bool :=
  match region q.pa, region (q.pa + reqLen q - 1) with
  | .hbm, .hbm => true
  | .vault j, .vault i => i == j && s.vaultFault q.pa j != some 0x09 && s.vaultFault (q.pa + reqLen q - 1) j != some 0x09
  | _, _ => false

/-- Whether a request meets poison: a marked sector, a fenced stack, or the vault of a fenced slice (R26, R396). -/
def State.poisonedReq (s : State) (q : RemoteReq) : Bool :=
  s.poisonedRange q.pa (reqLen q)

/-- The epoch that a request acts under (R407): a pre-cut request after the cut is logged and then post-cut. -/
def State.packetEpoch (s : State) (parity : Nat) : Nat :=
  if s.snap.st = 2 || decide (parity % 2 = s.snap.n % 2) then s.snap.n else s.snap.n - 1

/-- The request of a put as its home slice holds it (R465). -/
def reqPut (q : RemoteReq) (id epoch : Nat) (chip : Nat) : CmbReq :=
  { id, k := 0, sl := 0, lane := 0, put := true, ctx := q.ty, name := chip * 2 ^ 23 + q.op * 2 ^ 18, tok := q.v % 65536
    experts := [q.c % 65536], weights := [], rowAddr := 0, len := 0, priv := false, stage := 0, joins := false
    chip := q.chip + 1, plane := q.plane, tag := q.tag, epoch }

/-- A request of another chip performed at its home slice (R334), with its reply: an error cause plus one, the poison,
and the bytes. -/
def performRemote (q : RemoteReq) (s : State) : List Effect × Nat × Nat × List Byte :=
  if 7 ≤ q.kind || !s.servable q then ([], 2, 0, [])
  else if q.kind = 0 || q.kind = 4 then
    ([], 0, if s.poisonedReq q then 1 else 0, Sparse.bytes s.mem q.pa (reqLen q))
  else if q.kind = 1 || q.kind = 5 then (s.physWrite q.pa q.bytes (s.packetEpoch q.parity) none, 0, 0, [])
  else if s.poisonedReq q then ([], 0, 1, [])
  else
    let old := s.phys q.pa (reqLen q)
    (s.physWrite q.pa (leBytes (reqLen q) (atomFn q.op q.ty old q.v q.c)) (s.packetEpoch q.parity) none, 0, 0,
      leBytes (reqLen q) old)

/-- A logged request as its channel's log holds it (R413). -/
def reqLog (q : RemoteReq) (id : Nat) : List Nat :=
  [q.kind, q.pa, q.op, q.ty, q.v, q.c, q.chip, q.plane, id] ++ q.bytes.map BitVec.toNat

/-- REMOTE_REQUEST (R334, R407, R413): a request of another chip; its packet may arm or fail a snapshot, it is logged where
R413 says so, and it waits where its page or vault does. -/
def execRemoteRequest (q : RemoteReq) (s : State) : Out :=
  let key := channelKey q.chip q.plane 0
  let pre := packetArrives key q.parity s
  let s1 := applyAll pre s
  if !s.vil.keys || 512 ≤ q.chip || 96 ≤ q.plane then commit s []
  else if q.kind ≠ 6 && reqChanges q && s1.servable q && s1.writeWaits q.pa (s1.packetEpoch q.parity)
  then commit s (pre ++ pinPage s1 q.pa (s1.packetEpoch q.parity))
  else
    let log := fun (id : Nat) (s : State) =>
      if s.toLog key q.parity && (q.kind == 6 || (reqChanges q && s.servable q)) then logRequest key (reqLog q id) s else []
    if q.kind = 6 then
      commit s (pre ++ chain s1 [
        log s1.ids,
        fun s => [.cmbReqs (s.cmbReqs ++ [reqPut q s.ids (s.packetEpoch q.parity) s.chip]), .ids 1]])
    else
      commit s (pre ++ chain s1 [
        log q.tag,
        fun s =>
          let r := performRemote q s
          chain s [fun _ => r.1, fun s =>
            [.fab { s.fab with sent := s.fab.sent ++
              [⟨1, q.chip, q.plane, [q.tag, s.deviceEpoch % 2, r.2.1, r.2.2.1] ++ r.2.2.2.map BitVec.toNat⟩] }]]])

/-- A request to host memory ends with cause 2 (R356): its lanes write nothing. -/
def hostGone (r : Req) (s : State) : List Effect :=
  let keep := fun (w : RegWrite) => match w with | .v _ l _ => !bit r.lanes l | _ => false
  chain s [
    dropRequest r.id,
    fun s => [.ctl r.k ((s.ctl r.k).onOp r.op fun o => { o with writes := o.writes.filter keep })],
    remoteError r 2]

/-- A store to host memory whose ownership request timed out is not performed (R356). -/
def hostStoreGone (k : Nat) (q : QStore) (s : State) : List Effect :=
  chain s [
    fun s => [.ctl k { s.ctl k with storeQ := (s.ctl k).storeQ.filter fun x => x.id ≠ q.id }],
    remoteError { id := 0, k, sl := q.sl, kind := 1, pa := s.chip * 2 ^ 43 + q.off, size := q.bytes.length
                  lanes := 2 ^ q.lane, plane := 0xFE, op := 0, dest := [], ty := 0, copy := 0, src := q.src
                  eas := [(q.lane, q.src.addr)] } 2]

/-- Remote-error of a request to a line of host memory that timed out (R336, R356). -/
def State.hostLate (s : State) (off : Nat) : LaneFault :=
  { code := 0x14, rpa := s.chip * 2 ^ 43 + off, plane := 0xFE, rcause := 2 }

/-- The first piece of an engine access that lies in host memory. -/
def hostPiece (ps : List Piece) : Option Piece := ps.find? fun x => x.p.sp == .phys && region x.p.off == .host

/-- The first access of a copy command in host memory: 0 read or 1 written. -/
def State.hostSide (s : State) (c : Copy) : Option (Nat × Piece) :=
  let b := blockOf c.k
  let at_ := fun (write : Bool) (ranges : List (Nat × Nat)) =>
    match s.engineSide c b write 0 ranges with
    | .error _ => none
    | .ok (ps, _) => (hostPiece ps).map fun x => ((if write then 1 else 0), x)
  (at_ false c.srcRanges).or (at_ true (c.dstRanges (dDst c.desc)))

/-- The first access of n bytes at a virtual address of an engine in host memory. -/
def State.hostAt (s : State) (ctx : Nat) (user write : Bool) (va n : Nat) : Option Piece :=
  match s.enginePlaces ctx user write 8192 (cutRange 4096 (n / 4096 + 2) va n) with
  | .error _ => none
  | .ok (ps, _) => hostPiece ps

/-- The names of the requests of HOST_TIMEOUT that no counter names (log entry 24): the write of a token's row, and the fetch
of a slice's clause. -/
def rowName (ctx buf tok : Nat) : Nat := 2 ^ 40 + (32 * ctx + buf) * 65536 + tok
def fetchName (k j : Nat) : Nat := 2 ^ 48 + 8 * k + j

/-- A row's write to host memory that timed out holds its token (R356, R368). -/
def hostRowGone (id : Nat) (s : State) : List Effect :=
  match s.cmbs.findSome? fun x => (x.slots.find? fun y => decide (3 ≤ y.st) && rowName x.ctx x.buf y.tok == id).map fun y => (x, y) with
  | none => []
  | some (x, y) =>
    match s.hostAt x.ctx (!x.priv) true (bOut x.desc + y.tok * bOstride x.desc) (bRowlen x.desc * elemSize (bOtype x.desc)) with
    | none => []
    | some p => rowHeld x y p.ea (s.hostLate p.p.off) s

/-- A put's row in host memory that could not be read in time (R356, R364, R465). -/
def hostPutGone (q : CmbReq) (s : State) : List Effect :=
  let far := decide (nameChip q.name ≠ s.chip)
  let n := if far then q.len else ((s.cmb q.ctx (nameBuf q.name)).map fun x => bRowBytes x.desc).getD 0
  match s.hostAt q.ctx (!q.priv) false q.rowAddr n with
  | none => []
  | some p => rowFault q q.stage (if far then cancelRow q else endReq q) p.ea (s.hostLate p.p.off) s

/-- An access of a collective to host memory that timed out ends it here with remote-error in the lead warp (R336, R356), and
aborts it on the other members, as the end of the block's domain would (R350; log entry 24). -/
def hostCollGone (c : Coll) (s : State) : List Effect :=
  let n := max c.blockSize (c.n * c.blockSize) * c.size
  let at_ := ((s.hostAt c.ctx (!c.priv) false c.src n).map fun x => (0, x)).or
    ((s.hostAt c.ctx (!c.priv) true c.dst n).map fun x => (1, x))
  match if c.active && !c.finished && !c.tsrc then at_ else none with
  | none => []
  | some (write, x) => chain s [
      fun s => [.fab { s.fab with sent := s.fab.sent ++ collAbortPackets s c 4 0xFFFFFFFF 0xFFFF }],
      collStop c (engineTrap ((s.warp (leadOf c.b)).readM 14).toNat write x.ea (s.hostLate x.p.off) 0)]

/-- A fetch from host memory that timed out (R356): remote-error at the clause that would execute next. -/
def hostFetchGone (id : Nat) (s : State) : List Effect :=
  let k := (id - 2 ^ 48) / 8
  let j := (id - 2 ^ 48) % 8
  let x := (s.ctl k).slice j
  let ctx := (s.blk (blockOf k)).ctx
  match s.virt 40 ctx x.pc.toNat 3 (!(s.ctl k).priv) (coreOf k) with
  | .ok (p, _) =>
    if s.runs k && !x.inClause && bit (liveSlices (s.warp k)) j && region p.off == .host then
      raiseAt s k (s.gangOf k j) { fetchTrap s (s.warp k) (s.gangOf k j) x.pc.toNat (s.hostLate p.off) with
        ext := remoteExt (s.chip * 2 ^ 43 + p.off) (((s.warp k).readM 14).toNat &&& lanesOf (s.gangOf k j)) 0xFE 2 0 }
    else []
  | .error _ => []

/-- What a timeout of a copy command's, a put's or a collective's access in host memory does (R356), by its name. -/
def hostEngineGone (id : Nat) (s : State) : List Effect :=
  match s.copies.find? fun c => c.id == id && (c.stage == 6 || c.stage == 3) with
  | some c => match s.hostSide c with
    | some (write, x) => copyFault c write x.ea (s.hostLate x.p.off) s
    | none => []
  | none => match s.cmbReqs.find? fun q => q.id == id && q.put && q.chip == 0 && (q.stage == 0 || q.stage == 3 || q.stage == 4) with
    | some q => if nameChip q.name = s.chip || q.stage = 4 then hostPutGone q s else []
    | none => match s.coll id with
      | some c => hostCollGone c s
      | none => []

/-- HOST_TIMEOUT (R356): a load or atomic to host memory by its request, a queued store by its name, an engine operation with
an access there, a row to be written there, or a fetch from there. -/
def execHostTimeout (id : Nat) (s : State) : Out :=
  match s.fab.reqs.find? fun r => r.id == id && r.plane == 0xFE with
  | some r => commit s (hostGone r s)
  | none =>
    match s.warps.findSome? fun p => (p.2.ctl.storeQ.find? fun q =>
        q.id == id && q.sp == .phys && region q.off == .host && !s.ownsLine p.1 q.off).map fun q => (p.1, q) with
    | some (k, q) => commit s (hostStoreGone k q s)
    | none =>
      commit s (if 2 ^ 48 ≤ id then hostFetchGone id s else if 2 ^ 40 ≤ id then hostRowGone id s else hostEngineGone id s)

/-- Warps that what has just been written makes ready leave their parking (R47, R206). -/
def wakeAll (s : State) : List Effect :=
  chain s (((s.warps.filter fun p => p.2.ctl.st == .parkedWaiting || p.2.ctl.st == .parking).map Prod.fst).map wake)

/-- The answer to a host's access on the host link (R354): 0 and a read's bytes, 1 where they are poisoned, 2 an error
completion. -/
def hostAnswer (pa code : Nat) (bytes : List Byte) (s : State) : List Effect :=
  [.fab { s.fab with sent := s.fab.sent ++ [⟨4, s.chip, 0xFE, [pa, code] ++ bytes.map BitVec.toNat⟩] }]

/-- HOST_MEM_ACCESS (R231, R354, R424): an access through CXL.mem to the HBM range, in full service; in reduced service it is
refused with an error completion. -/
def execHostMemAccess (write : Bool) (pa : Nat) (bytes : List Byte) (s : State) : Out :=
  if s.mgmt.devst.toNat % 8 = 2 then commit s (hostAnswer pa 2 [] s)
  else if s.mgmt.devst.toNat % 8 ≠ 3 || region pa ≠ .hbm || region (pa + bytes.length - 1) ≠ .hbm then commit s []
  else if write then commit s (chain s [fun s => s.physWrite pa bytes s.deviceEpoch none, wakeAll])
  else if s.snap.blocked.any fun q => q.sl == 9 && decide (q.off < pa + bytes.length) && decide (pa < q.off + q.bytes.length)
  then commit s []
  else
    commit s (hostAnswer pa (if s.poisonedRange pa bytes.length then 1 else 0) (Sparse.bytes s.mem pa bytes.length) s)

/-- HOST_SNOOP (R231, R354): a snoop takes a host line back; no value that a load can read changes until the host, owning
the line after an invalidation, writes it. -/
def execHostSnoop (pa : Nat) (inv : Bool) (bytes : List Byte) (s : State) : Out :=
  if s.mgmt.devst.toNat % 8 = 2 then commit s (hostAnswer pa 2 [] s)
  else if region pa ≠ .host || region (pa + bytes.length - 1) ≠ .host || s.mgmt.devst.toNat % 8 ≠ 3 then commit s []
  else if !inv then commit s [.owned (s.disowned pa bytes.length none)]
  else commit s (chain s [fun s => s.physWrite pa bytes s.deviceEpoch none, wakeAll])

end Sys2Proof.Machine
end

