-- ==== Sys2Proof/Machine/Snapshot.lean ====
section
/-! DEFINITION. SNAP and SNAPQ, canaries, the local cut, the drain engines, and rollback (17 R404 to R420). -/
namespace Sys2Proof.Machine

/-- SNAP (R404). -/
def execSnap (a : Nat) (b : SOp) (s : State) : Out :=
  issue (fun _ => { cls := .l, once := true, ss := [a, a + 1] ++ opRegs b })
    (fun I =>
      let s := I.s
      if !s.snapOn || s.snap.st = 5 then .ok (pairOut I.k a (dword (2 ^ 64 - 1)), .next)
      else if s.snap.st = 1 || s.snap.st = 2 then .ok (pairOut I.k a (dword s.snap.cut), .next)
      else .ok (chain s [armSnap (I.op b).toNat, fun _ => pairOut I.k a (dword s.dist.jnext)], .next)) s

/-- SNAPQ (R417). With no snapshot the cut index is not stated: it is free. -/
def execSnapq (a : Nat) (b : SOp) (s : State) : Out :=
  issue (fun _ => { cls := .a, once := true, ss := a :: opRegs b })
    (fun I =>
      let s := I.s
      let x := s.snap
      let free := (s.frames 0 - s.usedFrames 0) + (s.frames 1 - s.usedFrames 1)
      let out := fun (w : Word) => .ok ([.sreg I.k a w], .next)
      match (I.op b).toNat with
      | 0 => out (word x.n)
      | 1 => out (word x.st)
      | 2 => out (word (x.pages.filter fun p => p.st == 1 || p.st == 2).length)
      | 3 => out (word (if x.n = 0 || x.st = 3 || x.st = 4 then 0 else s.openChannels.length))
      | 4 => out (word free)
      | 5 => out (if x.n = 0 then s.freeWord 5 else word x.cut)
      | 6 => out (if x.n = 0 then s.freeWord 6 else word (x.cut / 2 ^ 32))
      | _ => .error { code := 0x01 }) s

/-- CANARY_ARRIVE (R405, R412 to R414): a canary of the next snapshot arms it, or fails the latest while that one is not
complete; a canary of the latest closes its channel. -/
def execCanaryArrive (n chip plane cls : Nat) (s : State) : Out :=
  if 512 ≤ chip || 96 ≤ plane || 4 ≤ cls then commit s []
  else
  let close := fun (s : State) =>
    if s.snap.n = n && (s.snap.st = 1 || s.snap.st = 2) && !s.snap.closed.contains (channelKey chip plane cls) then
      chain s [fun s => [.snap { s.snap with closed := channelKey chip plane cls :: s.snap.closed }], settleSnap]
    else []
  commit s (chain s [
    fun s =>
      if n ≠ s.snap.n + 1 then []
      else if s.snap.st = 1 || s.snap.st = 2 then endSnap 5 s
      else if s.mayArm then armSnap 0 s else [],
    close])

/-- A combine buffer as its image holds it (R411): descriptor, homes, release bitmap and counts, then its slots. -/
def Cmb.fields (x : Cmb) : List (List Nat) :=
  let row := fun (y : Slot) (r : Row) =>
    [2, y.tok, r.expert, if r.arrived then 1 else 0, r.chip, r.tag] ++ r.bytes.map BitVec.toNat
  let slot := fun (y : Slot) =>
    [[1, y.tok, y.st, y.present, if y.renorm then 1 else 0] ++
      (match y.disp with | none => [] | some d => d.1.length :: d.1 ++ d.2.map BitVec.toNat)] ++ y.rows.map (row y)
  [[0, x.ctx, x.buf, x.desc, x.dup, x.late, x.subs], x.homes, x.released] ++ x.slots.flatMap slot

/-- A slot of an image. -/
def slotOf (l : List Nat) : Slot :=
  let k := l.getD 5 0
  { tok := l.getD 1 0, st := l.getD 2 0, present := l.getD 3 0, renorm := l.getD 4 0 == 1, rows := []
    disp := if l.length ≤ 5 then none else some ((l.drop 6).take k, (l.drop (6 + k)).map word) }

/-- One further list of an image put into its buffer. -/
def Cmb.addField (x : Cmb) (l : List Nat) : Cmb :=
  match l.headD 0 with
  | 1 => x.setSlot (slotOf l)
  | 2 =>
    match x.slot (l.getD 1 0) with
    | none => x
    | some y => x.setSlot { y with rows := y.rows ++
        [{ expert := l.getD 2 0, arrived := l.getD 3 0 == 1, chip := l.getD 4 0, tag := l.getD 5 0, k := 0, sl := 0
           lane := 0, src := 0, bytes := (l.drop 6).map (BitVec.ofNat 8) }] }
  | _ => x

/-- A buffer that an image restores, unowned (R419); the groups whose tokens are all released have arrived. -/
def cmbOfFields (l : List (List Nat)) : Cmb :=
  let h := l.getD 0 []
  let d := h.getD 3 0
  let rel := l.getD 2 []
  let groups := (span 0 ((bNtok d + bRg d - 1) / bRg d)).filter fun g => (groupOf d g).all fun t => rel.contains t
  (l.drop 3).foldl Cmb.addField
    { ctx := h.getD 1 0, buf := h.getD 2 0, owner := unowned, desc := d, homes := l.getD 1 [], priv := false
      released := rel, arrivedGroups := groups, dup := h.getD 4 0, late := h.getD 5 0, subs := h.getD 6 0 }

/-- The first byte of a slice's vault (R185). -/
def vaultBase (j : Nat) : Nat := 0x60000000000 + j * 0x400000

/-- The vault images of the local cut (R411), one for each slice in service that has vault bytes. -/
def State.vaultItems (s : State) : List SnapItem :=
  s.slicesInService.filterMap fun j =>
    let g := (s.mgmt.split.getD (j / 96) (0, 0)).1
    if g = 0 then none
    else some ⟨1, j, Sparse.bytes s.mem (vaultBase j) (g * 65536), if j < 96 then (g, 0) else (0, g), [j]⟩

/-- The combine images of the local cut (R411): each die's slices take frames for what they reserve for the buffer. -/
def State.combineItems (s : State) : List SnapItem :=
  s.cmbs.map fun (x : Cmb) =>
    let on := fun (d : Nat) => framesFor (bReserve x.desc * (x.homes.filter fun j => j / 96 == d).length)
    ⟨2, 32 * x.ctx + x.buf, Config.combineImage x.fields, (on 0, on 1), x.homes⟩

/-- The canaries of the local cut (R412): on each plane in service, in each class, to every routed chip. -/
def State.canaries (s : State) : List Packet :=
  s.routed.flatMap fun c => s.planes.flatMap fun p => (span 0 4).map fun cls => ⟨8 + cls, c, p, [s.chip, s.snap.n]⟩

/-- Whether a launch of the snapshot's earlier epoch still runs, or holds an engine operation (R406). -/
def State.cutHeld (s : State) : Bool :=
  let old := fun (e : Nat) => decide (e < s.snap.n)
  (s.dist.launches.any fun l => old l.epoch) || s.copies.any (fun c => old (s.epochOf c.k))
    || s.mats.any (fun m => old (s.epochOf m.k)) || s.cmbReqs.any (fun q => q.chip == 0 && q.stage != 6 && old q.epoch)
    || s.colls.any fun c => !c.finished && old (s.blk c.b).epoch

/-- The pages at the local cut (R408): a dirty normal page becomes clean. -/
def SnapPage.atCut (n : Nat) (p : SnapPage) : SnapPage :=
  if p.st = 0 && p.dirty then { p with st := 1, dirty := false, n } else p

/-- LOCAL_CUT (R406): page states, images, canaries; then the writes that waited for it (R411). Without frames for the
images the snapshot fails. -/
def execLocalCut (s : State) : Out :=
  if s.snap.st ≠ 1 || s.cutHeld then commit s []
  else
    let items := s.vaultItems ++ s.combineItems
    let need := fun (d : Nat) => (items.map fun x => onDie x.frames d).foldl (· + ·) 0
    commit s (chain s [
      fun s => [.snap { s.snap with st := 2, pages := s.snap.pages.map (SnapPage.atCut s.snap.n) }],
      snapStep,
      fun s =>
        if s.frames 0 < s.usedFrames 0 + need 0 || s.frames 1 < s.usedFrames 1 + need 1 then endSnap 5 s
        else [.snap { s.snap with
          mans := onManifest s.snap.n (fun m => { m with items, vaultg := s.vaultg }) s.snap.mans
          made := s.snap.made ++ s.cmbs.map fun x => (2, Config.combineImage x.fields, x.fields) }],
      fun s => if s.snap.st = 2 then [.fab { s.fab with sent := s.fab.sent ++ s.canaries }] else [],
      replayBlocked, settleSnap])

/-- TAIL and HEAD of the manifest ring (R416), in units. -/
def State.ringTail (s : State) : Nat := s.mgmt.snapring.toNat % 2 ^ 32
def State.ringHead (s : State) : Nat := s.mgmt.snapring.toNat / 2 ^ 32

/-- The units that the ring has free (R416): one stays empty, which tells a full ring from an empty one. -/
def State.ringFree (s : State) : Nat :=
  let n := s.ringUnits
  if n = 0 then 0 else n - 1 - (s.ringTail + n - s.ringHead % n) % n

/-- The address of a unit of the ring. -/
def State.ringAddr (s : State) (u : Nat) : Nat := s.ringBase + u % max s.ringUnits 1 * 65536

/-- One unit written at the ring's tail, and TAIL advanced past it. -/
def ringUnit (bytes : List Byte) (s : State) : List Effect :=
  .zero (s.ringAddr s.ringTail) 65536 ::
    s.physWrite (s.ringAddr s.ringTail) bytes s.deviceEpoch none ++
    [.mgmt { s.mgmt with snapring := dword (s.ringHead * 2 ^ 32 + (s.ringTail + 1) % max s.ringUnits 1) }]

/-- Bytes written as units one after another; the first argument bounds them. -/
def ringUnits : Nat → List Byte → State → List Effect
  | 0, _, _ => []
  | n + 1, bytes, s =>
    let here := ringUnit (bytes.take 65536) s
    here ++ ringUnits n (bytes.drop 65536) (applyAll here s)

/-- The oldest manifest that is being written. -/
def State.manifest (s : State) : Option Manifest := s.snap.mans.head?

/-- The manifest being written, changed. -/
def setManifest (m : Manifest) (s : State) : List Effect := [.snap { s.snap with mans := onManifest m.n (fun _ => m) s.snap.mans }]

/-- A page's data goes to the ring (R408, R410, R416): from its frame, or for a pinned page from the live page; then the
page is normal and the writes queued for it go on. -/
def drainPage (m : Manifest) (p : SnapPage) (s : State) : List Effect :=
  let bytes := if p.st = 3 then p.frame else Sparse.bytes s.mem (p.page * 65536) 65536
  chain s [
    setManifest { m with entries := m.entries ++ [⟨p.page * 65536, s.ringAddr s.ringTail, 65536, 0⟩] },
    ringUnit bytes,
    fun s => [.snap { s.snap with
      pages := setPage s.snap.pages ⟨p.page, 0, if p.st = 2 then false else p.dirty, [], 0⟩ }],
    replayBlocked, settleSnap]

/-- One unit of an image or a log goes to the ring; its last unit frees its frames. -/
def drainItem (m : Manifest) (x : SnapItem) (s : State) : List Effect :=
  let start := if m.pos = 0 then s.ringAddr s.ringTail else m.start
  let done := decide (x.bytes.length ≤ m.pos + 65536)
  chain s [
    setManifest (if done then
        { m with items := m.items.drop 1, pos := 0, entries := m.entries ++ [⟨x.key, start, x.bytes.length, x.kind⟩] }
      else { m with pos := m.pos + 65536, start }),
    ringUnit ((x.bytes.drop m.pos).take 65536)]

/-- The entries of a manifest in the order of its table (R415). -/
def Manifest.table (m : Manifest) : List ManEntry :=
  m.entries.mergeSort fun a b => decide (a.kind < b.kind) || (a.kind == b.kind && decide (a.key ≤ b.key))

/-- A table entry as bytes (R415). -/
def ManEntry.bytes (e : ManEntry) : List Byte :=
  leBytes 32 (pack [(192, 64, e.key), (128, 64, e.data), (96, 32, e.len), (88, 8, e.kind)])

/-- A manifest's header (R415). -/
def State.manHeader (s : State) (m : Manifest) (table : Nat) : List Byte :=
  leBytes 256 (pack [(2016, 32, 0x4D414E31), (2000, 16, 1), (1991, 9, s.chip), (1984, 7, m.status), (1952, 32, m.n),
    (1920, 32, m.tag), (1856, 64, m.cut), (1792, 64, s.snap.lastMan), (1728, 64, table), (1696, 32, m.entries.length),
    (1680, 16, m.vaultg)])

/-- The next unit of a manifest's table, or after all of it the header (R416, a release at system scope); the manifest is then
done. `pos` counts the bytes of the table that are in the ring. -/
def drainTail (m : Manifest) (s : State) : List Effect :=
  let here := s.ringAddr s.ringTail
  let start := if m.pos = 0 then here else m.start
  let table := m.table.flatMap ManEntry.bytes
  if m.pos < table.length then
    chain s [setManifest { m with pos := m.pos + 65536, start }, ringUnit ((table.drop m.pos).take 65536)]
  else
    chain s [
      ringUnit (s.manHeader m start),
      fun s => [.snap { s.snap with
        mans := s.snap.mans.drop 1
        lastMan := if m.status = 0 then here else s.snap.lastMan
        st := if s.snap.n = m.n && s.snap.st = 3 then 4 else s.snap.st }],
      fun s => if s.snap.n = m.n && s.snap.st = 4 then snapStep s else []]

/-- Whether nothing but a manifest's table and header is left to write: it is closed, and no page of it is copied. -/
def State.tailOnly (s : State) (m : Manifest) : Bool :=
  m.closed && m.items.isEmpty && s.snap.pages.all fun p => p.st != 3 || p.n != m.n

/-- What the drain engines write next of the oldest manifest: a page that is pinned or copied for it, else a unit of an
image or a log, else a unit of its table, else its header (R416). They wait while the ring is full, and for the local cut
(R408, R409). -/
def drainNext (page : Nat) (s : State) : List Effect :=
  match s.manifest with
  | none => []
  | some m =>
    let p := s.snapPage page
    if s.ringFree = 0 || (s.snap.st = 1 && m.n = s.snap.n) then []
    else if m.pos = 0 && (p.st = 2 || p.st = 3) && p.n = m.n then drainPage m p s
    else match m.items with
      | x :: _ => drainItem m x s
      | [] => if s.tailOnly m then drainTail m s else []

/-- DRAIN_WRITE (R416). -/
def execDrainWrite (page : Nat) (s : State) : Out := commit s (drainNext page s)

/-- PAGE_RETIRE (R408, R410): a drain engine takes a clean page, which is pinned until its data is in the ring. -/
def execPageRetire (page : Nat) (s : State) : Out :=
  let p := s.snapPage page
  if p.st = 1 then commit s [.snap { s.snap with pages := setPage s.snap.pages { p with st := 2 } }] else commit s []

/-- COPY_ON_WRITE (R409, R410): the page operation by itself. -/
def execCopyOnWrite (page : Nat) (s : State) : Out :=
  if s.needsCow (page * 65536) s.snap.n then commit s [.snap (s.cow page)] else commit s []

/-- SNAPRING_WRITE (R416): HEAD advances, and the drain engines find room. -/
def execSnapringWrite (head : Nat) (s : State) : Out :=
  commit s [.mgmt { s.mgmt with snapring := dword (head % 2 ^ 32 * 2 ^ 32 + s.ringTail) }]

/-- SNAPCMD after a command: OP and MAN as written, ERR where it was refused (R418). -/
def cmdDone (err : Bool) (s : State) : List Effect :=
  [.mgmt { s.mgmt with snapcmd := dword (s.mgmt.snapcmd.toNat / 65536 * 65536 + if err then 2 else 0) }]

/-- SNAPCMD_INVALID (R418). -/
def execSnapcmdInvalid (_op : Nat) (s : State) : Out := commit s (cmdDone true s)

/-- SNAPCMD_ABORT (R420). -/
def execSnapcmdAbort (s : State) : Out :=
  if s.snap.st = 1 || s.snap.st = 2 then commit s (chain s [endSnap 6, cmdDone false]) else commit s (cmdDone true s)

/-- A manifest header as read back from the ring: its address, and the number its bytes are. -/
def State.manAt (s : State) (a : Nat) : Nat := s.phys a 256

/-- Whether a header is one that a rollback may restore (R419), its sequence number below a bound. -/
def State.manOk (s : State) (h bound : Nat) : Bool :=
  bits h 2047 2016 == 0x4D414E31 && bits h 2015 2000 == 1 && bits h 1999 1991 == s.chip && bits h 1990 1984 == 0
    && bits h 1695 1680 == s.vaultg && decide (bits h 1983 1952 < bound)

/-- The headers of a chain, newest first, or none where one is refused (R419); the first argument bounds the walk. -/
def State.manChain (s : State) : Nat → Nat → Nat → Option (List Nat)
  | 0, _, _ => none
  | n + 1, a, bound =>
    let h := s.manAt a
    if !s.manOk h bound then none
    else if bits h 1855 1792 = 0 then some [h]
    else (s.manChain n (bits h 1855 1792) (bits h 1983 1952)).map fun t => h :: t

/-- Bytes that lie in the ring from an address on, on over its end where they wrap (R415). -/
def State.ringBytes (s : State) (a n : Nat) : List Byte :=
  let u := (a - s.ringBase) / 65536
  (((span 0 (n / 65536 + 2)).flatMap fun i => Sparse.bytes s.mem (s.ringAddr (u + i)) 65536).drop ((a - s.ringBase) % 65536)).take n

/-- The table entries of a header: KIND, KEY, and the bytes. -/
def State.manEntries (s : State) (h : Nat) : List (Nat × Nat × List Byte) :=
  (span 0 (bits h 1727 1696)).map fun i =>
    let e := ofBytes (s.ringBytes (s.ringAddr ((bits h 1791 1728 - s.ringBase) / 65536 + i / 2048) + 32 * (i % 2048)) 32)
    (bits e 95 88, bits e 255 192, s.ringBytes (bits e 191 128) (bits e 127 96))

/-- The newest data of each page and vault on a chain (R419 steps 2 and 3). -/
def newest (kind : Nat) : List (List (Nat × Nat × List Byte)) → List (Nat × List Byte)
  | [] => []
  | m :: older =>
    let here := (m.filter fun e => e.1 == kind).map fun e => (e.2.1, e.2.2)
    here ++ (newest kind older).filter fun e => !(here.any fun x => x.1 == e.1)

/-- The snap-tracked ranges of HBM: what lies outside the checkpoint areas (R403). -/
def State.hbmRanges (s : State) : List (Nat × Nat) :=
  (span 0 2).flatMap fun d =>
    let lo := d * 2 ^ 38
    let a := s.ckBase d
    let n := s.frames d * 65536
    if n = 0 || a < lo || lo + 2 ^ 38 < a + n then [(lo, 2 ^ 38)] else [(lo, a - lo), (a + n, lo + 2 ^ 38 - (a + n))]

/-- What the bytes of an image or a log stand for: what this device wrote as those bytes, else as it would read them (R411,
R413, R419; log entry 55). -/
def State.made (s : State) (kind : Nat) (bytes : List Byte) : List (List Nat) :=
  ((s.snap.made.find? fun x => x.1 == kind && x.2.1 == bytes).map fun x => x.2.2).getD
    (if kind = 2 then Config.combineFields bytes else Config.channelRequests bytes)

/-- A logged request performed again, any reply discarded (R419 step 4). -/
def replayRequest (l : List Nat) (s : State) : List Effect :=
  match l with
  | 7 :: id :: bytes => chain s [landRow id (bytes.map (BitVec.ofNat 8)),
      fun s => [.cmbReqs (s.cmbReqs.filter fun q => !q.promised id)]]
  | kind :: pa :: op :: ty :: v :: c :: chip :: plane :: tag :: bytes =>
    let q : RemoteReq := { kind, pa, bytes := bytes.map (BitVec.ofNat 8), op, ty, v, c, chip, plane, parity := 0, tag }
    if kind = 6 then
      chain s [
        fun s => [.cmbReqs (s.cmbReqs ++ [reqPut q tag 0 s.chip])],
        fun s => applyReq (reqPut q tag 0 s.chip) (s.inLine (reqPut q tag 0 s.chip)) [] s,
        fun s => [.fab { s.fab with sent := s.fab.sent.filter fun x => !(x.cls == 1 && x.body.head? == some tag) }]]
    else (performRemote q s).1
  | _ => []

/-- A rollback's steps (R419). -/
def rollbackTo (man : Nat) (chainOf : List Nat) (s : State) : List Effect :=
  let h := chainOf.headD 0
  let all := chainOf.map s.manEntries
  let mine := all.headD []
  let logs := ((mine.filter fun e => e.1 == 3).mergeSort fun a b => decide (a.2.1 ≤ b.2.1)).flatMap fun e =>
    s.made 3 e.2.2
  let zeros := (s.hbmRanges ++ (span 0 192).map fun j => (vaultBase j, 0x400000)).map fun (r : Nat × Nat) =>
    Effect.zero r.1 r.2
  let blank : Snap := {
    n := bits h 1983 1952, st := 4, tag := bits h 1951 1920, cut := bits h 1919 1856, lastMan := man, made := s.snap.made }
  chain s ([
    fun _ => [.tlb [], .cmbs [], .cmbReqs []] ++ zeros,
    fun _ => ((newest 0 all).map fun e => Effect.store .phys e.1 e.2 none) ++
      (newest 1 all).map fun e => .store .phys (vaultBase e.1) e.2 none,
    fun _ => [.cmbs ((mine.filter fun e => e.1 == 2).map fun e => cmbOfFields (s.made 2 e.2.2)), .snap blank]] ++
    logs.map replayRequest ++
    [fun s => [.dist { s.dist with jnext := bits h 1919 1856 }]])

/-- SNAPCMD_ROLLBACK (R418, R419): refused unless every context is invalid, no block is resident, and every header on the
chain from MAN is in order. -/
def execSnapcmdRollback (man : Nat) (s : State) : Out :=
  let idle := s.ctxs.all (fun c => !c.2.valid) && s.blocks.isEmpty
  match if idle then s.manChain (bits (s.manAt man) 1983 1952 + 1) man (2 ^ 32) else none with
  | none => commit s (cmdDone true s)
  | some l => commit s (chain s [rollbackTo man l, cmdDone false])

end Sys2Proof.Machine
end

