-- ==== Sys2Proof/Machine/Housekeeping.lean ====
section
/-! DEFINITION. Boot, service states, power and heat, the mailbox, fencing, and the page agents and walkers by themselves
(01 R13, R26; 08 R199, R207; 16 R396; 18 R422 to R432). -/
namespace Sys2Proof.Machine

/-- DEVST.STATE (R423). -/
def State.devState (s : State) : Nat := s.mgmt.devst.toNat % 8

/-- DEVST written by the device; a change of STATE is journalled (R423, R427). -/
def setDev (st cause : Nat) (s : State) : List Effect :=
  .mgmt { s.mgmt with devst := word (cause * 256 + st) } ::
    (if s.devState = st then [] else chain { s with mgmt := { s.mgmt with devst := word (cause * 256 + st) } }
      [fun s => journal s 0 0 (pack [(0, 8, st), (8, 8, cause)])])

/-- The units that train beside the fabric ports (R424): the HBM stacks, the die bridges and the host modules. -/
def trainees : List Fenced :=
  (span 0 2).flatMap fun d => (span 0 4).map (⟨3, d, ·⟩) ++ (span 0 8).map (⟨4, d, ·⟩) ++ [⟨6, d, 0⟩]

/-- The verified image runs and reduced service begins (R423, R424): Vilvon trains the units, every slice runs at 1.0 GHz, and
no report or key of another image stands (R426). -/
def reducedService (s : State) : List Effect :=
  chain s ([setDev 1 0, setDev 2 0, fun s => [.vil { s.vil with
      sliceClk := List.replicate 192 20, reports := [], keys := false
      training := trainees.filter fun u => !s.isFenced u.kind u.die u.n }]] ++
    ((span 0 Config.planes).filter fun p => portState (s.mgmt.portst.get p).toNat == 0).map fun p => setPort p 1 0 1)

/-- The step of R422 at which an image fails, 0 for none: the key, the signature, or the version below the fused minimum. -/
def State.failsAt (s : State) (step version : Nat) : Nat := if step = 0 && version < s.vil.svn then 3 else step

/-- DEVICE_RESET (R422 to R424): with both images verified the device comes to reduced service; a failed step of either
die, 1 to 3, leads to recovery. -/
def execDeviceReset (pass : Nat) (s : State) : Out :=
  if 3 < pass then commit s []
  else
    let step := s.failsAt pass s.vil.image.version
    commit s (chain s [fun _ => [.wipe], if step = 0 then reducedService else setDev 4 step])

/-- Units in training that are done: each when it will be (R424; log entry 84). -/
def trained (s : State) : List Effect :=
  if s.vil.training.isEmpty then []
  else
    let done := fun (i : Nat) => Config.freeNat (2 ^ 64 * (s.fresh + 1) + 2 ^ 62 + i) % 2 == 1
    [.vil { s.vil with training := (s.vil.training.zipIdx.filter fun p => !done p.2).map Prod.fst }]

/-- Whether a die has a cluster in service, and an HBM stack (R425). -/
def State.dieServes (s : State) (d : Nat) : Bool :=
  ((span 0 6).any fun k => !s.isFenced 2 d k && (span (16 * k) 16).any fun c => !s.isFenced 0 d c)
    && (span 0 4).any fun k => !s.isFenced 3 d k

/-- Whether every unit has trained or been fenced (R425); a port that failed is. -/
def State.allTrained (s : State) : Bool :=
  (s.vil.training.all fun u => s.isFenced u.kind u.die u.n) && (span 0 Config.planes).all fun p =>
    decide (3 ≤ portState (s.mgmt.portst.get p).toNat) || s.isFenced 5 (p / 48) p

/-- ENTER_FULL_SERVICE (R424, R425): once every unit has trained or is fenced; pending splits apply, and held contexts become
valid. A die without a cluster or a stack leads to recovery, in which no key serves. -/
def execEnterFullService (s : State) : Out :=
  if s.devState ≠ 2 || !s.allTrained then commit s []
  else if !(s.dieServes 0 && s.dieServes 1) then
    commit s (chain s [setDev 4 0, fun s => [.vil { s.vil with keys := false }]])
  else
    commit s (chain s ([setDev 3 0] ++
      ((span 0 2).map fun d => fun (s : State) => if (s.mgmt.slcfg.getD d 0).getLsbD 0 then applySplit d s else []) ++
      s.vil.held.map validate ++ [fun s => [.vil { s.vil with held := [] }]]))

/-- MAILBOX_IMAGE (R422, R423): in recovery a new image is verified, its security version among the checks, and booted. -/
def execMailboxImage (step : Nat) (image : BootImage) (s : State) : Out :=
  if s.devState ≠ 4 || 3 < step then commit s []
  else
    let step := s.failsAt step image.version
    commit s (if step = 0 then chain s [fun s => [.vil { s.vil with image }], reducedService] else setDev 4 step s)

/-- Whether Vilvon serves mailbox commands: in reduced and in full service. -/
def State.vilvonUp (s : State) : Bool := s.devState == 2 || s.devState == 3

/-- MAILBOX_ATTEST (R426): a report for a nonce of 32 bytes. -/
def execMailboxAttest (nonce : List Byte) (s : State) : Out :=
  if !s.vilvonUp || nonce.length ≠ 32 then commit s []
  else
    let report := Config.attestation nonce s.chip s.vil.svn s.vil.image.digest (s.vil.fenced.map fun f => (f.kind, f.die, f.n))
    commit s [.vil { s.vil with reports := s.vil.reports ++ [report] }]

/-- MAILBOX_RAISE_SVN (R422): the fused minimum only rises. -/
def execMailboxRaiseSvn (v : Nat) (s : State) : Out :=
  if s.vilvonUp then commit s [.vil { s.vil with svn := max s.vil.svn v }] else commit s []

/-- KEY_INSTALL (R426): after a report of the image that runs, which the host accepts by this step (log entry 40). -/
def execKeyInstall (s : State) : Out :=
  if s.vilvonUp && !s.vil.reports.isEmpty then commit s [.vil { s.vil with keys := true }] else commit s []

/-- Fields of CLKCTL (R429). -/
def clkReq (x : Word) : Nat := bits x.toNat 7 0
def clkCur (x : Word) : Nat := bits x.toNat 15 8

/-- CLKCTL with a current frequency. -/
def withCur (x : Word) (cur : Nat) : Word := word (cur * 256 + clkReq x)

/-- CLKCTL_WRITE (R429): REQ is clamped into 16 to 44; CUR is the device's. -/
def execClkctlWrite (cl v : Nat) (s : State) : Out :=
  let x := s.mgmt.clkctl.getD cl 0
  commit s [.mgmt { s.mgmt with clkctl := s.mgmt.clkctl.set cl (word (clkCur x * 256 + max 16 (min 44 (v % 256)))) }]

/-- PLIM_WRITE (R429). -/
def execPlimWrite (v : Nat) (s : State) : Out := commit s [.mgmt { s.mgmt with plim := word (v % 65536) }]

/-- The frequency that the caps in force admit (R431). -/
def State.capCur (s : State) : Nat := if bit s.vil.cap 1 then 16 else if bit s.vil.cap 0 then 32 else 44

/-- The cluster that a reduction takes from (R430): the highest CUR above the floor, of equals the highest number. -/
def highest (l : List Nat) : Option Nat :=
  let m := l.foldl max 0
  if m ≤ 16 then none else ((span 0 l.length).filter fun i => l.getD i 0 == m).getLast?

/-- Frequencies lowered 50 MHz at a time until the package power is within a limit (R430); the first argument bounds the
steps. -/
def underLimit (power : List Nat → Nat) (limit : Nat) : Nat → List Nat → List Nat
  | 0, l => l
  | n + 1, l =>
    if power l ≤ limit then l
    else match highest l with
      | none => l
      | some i => underLimit power limit n (l.set i (l.getD i 0 - 1))

/-- The clocks that Vilvon gives the slices (R22, R429, R431): free within 1.0 to 2.0 GHz, and 1.0 GHz under the emergency
cap (log entry 57). -/
def State.sliceClocks (s : State) : List Nat :=
  (span 0 192).map fun j => if bit s.vil.cap 1 then 20 else 20 + s.pick (470000 + j) 21

/-- POWER_INTERVAL (R22, R430): every CUR as high as REQ, the caps and the power limit admit, the slices' clocks as Vilvon
has them; a change that has lasted an interval is journalled. -/
def execPowerInterval (s : State) : Out :=
  if s.devState ≠ 3 then commit s []
  else
    let l := s.mgmt.clkctl
    let now := l.map clkCur
    let power := fun (l : List Nat) => Config.packagePower s.fresh l s.sliceClocks
    let new := underLimit power (min 2200 s.mgmt.plim.toNat) 336 (l.map fun x => min (clkReq x) s.capCur)
    let lasted := decide (new = now) && decide (now ≠ s.vil.journalled)
    commit s (chain s [
      fun s => [.mgmt { s.mgmt with clkctl := List.zipWith withCur l new }, .vil { s.vil with sliceClk := s.sliceClocks }],
      fun s => if lasted then
          journal s 8 0 (pack ((0, 8, 0) :: new.mapIdx fun i x => (8 + 8 * i, 8, x))) ++
            [.vil { (applyAll (journal s 8 0 (pack ((0, 8, 0) :: new.mapIdx fun i x => (8 + 8 * i, 8, x)))) s).vil with
              journalled := now }]
        else []])

/-- A thermal action (R431): the caps in force, every CUR within them, and its journal entry; none in recovery (R423). -/
def thermal (code cap : Nat) (s : State) : List Effect :=
  if s.devState = 4 then [] else chain s [
    fun s => [.vil { s.vil with cap, sliceClk := if bit cap 1 then List.replicate 192 20 else s.vil.sliceClk }],
    fun s => [.mgmt { s.mgmt with clkctl := s.mgmt.clkctl.map fun x => withCur x (min (clkCur x) s.capCur) }],
    fun s => journal s 8 0 (pack [(0, 8, code)])]

/-- THERMAL_CAP (R431): 105 °C. -/
def execThermalCap (s : State) : Out := commit s (thermal 1 (s.vil.cap ||| 1) s)

/-- THERMAL_EMERGENCY (R431): 110 °C, above both thresholds; every cluster goes to 0.8 GHz and every slice to 1.0 GHz. -/
def execThermalEmergency (s : State) : Out := commit s (thermal 2 (s.vil.cap ||| 3) s)

/-- THERMAL_TRIP (R431): 110 °C has persisted; the entry for the reset is written before it takes place. -/
def execThermalTrip (s : State) : Out :=
  if !bit s.vil.cap 1 then commit s []
  else commit s (chain s [fun s => journal s 8 0 (pack [(0, 8, 3)]), fun _ => [.wipe], setDev 4 4])

/-- THERMAL_RECOVER (R431): the temperature has fallen 5 °C below a threshold, and what it set is lifted: the cap of 110 °C at
105 °C, both at 100 °C. -/
def execThermalRecover (thr : Nat) (s : State) : Out :=
  if thr = 105 && s.vil.cap ≠ 0 then commit s (thermal 4 0 s)
  else if thr = 110 && bit s.vil.cap 1 then commit s (thermal 4 (s.vil.cap % 2) s)
  else commit s []

/-- REGISTER_WRITE (R13): a write through CXL.io; a register whose write is a step of its own has that step follow. -/
def execRegisterWrite (off width v : Nat) (s : State) : Out := commit s (mgmtWrite s off width v)

/-- What fencing a unit takes from manifests still being written (R411, R414): the items that a slice holds, or the pages
and the frames that may lie in an HBM stack. -/
def Manifest.loses (m : Manifest) (s : State) (kind die n : Nat) : Bool :=
  if kind = 1 then m.items.any fun x => x.slices.contains (96 * die + n)
  else if kind = 3 then
    let stack := 4 * die + n
    let used := s.usedFrames die
    (s.snap.pages.any fun p => p.st != 0 && p.n == m.n && hbmStack (p.page * 65536) == stack)
      || (decide (0 < used) && decide (hbmStack (s.ckBase die) ≤ stack)
          && decide (stack ≤ hbmStack (s.ckBase die + s.frames die * 65536 - 1)))
  else false

/-- The snapshots that fencing a unit fails (R414). -/
def loseSnaps (kind die n : Nat) (s : State) : List Effect :=
  let lost := s.snap.mans.filter fun m => m.loses s kind die n
  chain s (lost.map fun m => fun s =>
    if m.n = s.snap.n && s.snap.st ≤ 3 then endSnap 5 s
    else [.snap { s.snap with
      pages := (s.pagesOf m.n).foldl (fun l p => setPage l ⟨p, 0, true, [], 0⟩) s.snap.pages
      mans := onManifest m.n (fun x => { x with items := [], pos := 0, closed := true, status := 1 }) s.snap.mans }])

/-- Whether an address lies at a unit: a slice that it is homed on, an HBM stack, or a die's host module (R26, R355). -/
def State.atUnit (s : State) (kind die n pa : Nat) : Bool :=
  match kind with
  | 1 => s.homeSlice pa == some (96 * die + n)
  | 3 => region pa == .hbm && hbmStack pa == 4 * die + n
  | 6 => region pa == .host && bits pa 12 12 == die
  | _ => false

/-- Whether pieces of an engine's access lie at a unit. -/
def State.reaches (s : State) (kind die n : Nat) (x : Except (Nat × LaneFault) (List Piece × List Effect)) : Bool :=
  match x with
  | .ok (ps, _) => ps.any fun y => y.p.sp == .phys && s.atUnit kind die n y.p.off
  | .error _ => false

/-- The places of an engine's access of n bytes at a virtual address (R271). -/
def State.rangeOf (s : State) (ctx : Nat) (user write : Bool) (va n : Nat) :
    Except (Nat × LaneFault) (List Piece × List Effect) := s.enginePlaces ctx user write 0 (cutRange 4096 (n / 4096 + 2) va n)

/-- Whether a copy command has an access on its way to a unit: one of its ranges, a write that has still to take place, or one
that a read of another chip is to bring. -/
def State.copyUses (s : State) (kind die n : Nat) (c : Copy) : Bool :=
  let b := blockOf c.k
  let home := fun (d : Nat × Nat × Nat) => d.1 == 0 && s.atUnit kind die n d.2.1
  ((c.stage == 6 || c.stage == 3) && (s.reaches kind die n (s.engineSide c b false 0 c.srcRanges) ||
      (s.copyDests c).any fun x => s.reaches kind die n (s.engineSide c x.1 true 4096 (c.dstRanges x.2))))
    || (c.lands.any fun x => x.1 == .phys && s.atUnit kind die n x.2.1)
    || (c.sends.any fun x => x.dest.any home)
    || s.fab.reqs.any fun r => r.kind == 4 && r.copy == c.id && r.dest.any home

/-- Whether a collective reads or writes at a unit. -/
def State.collUses (s : State) (kind die n : Nat) (c : Coll) : Bool :=
  let len := max c.blockSize (c.n * c.blockSize) * c.size
  c.active && !c.finished && !c.tsrc &&
    (s.reaches kind die n (s.rangeOf c.ctx (!c.priv) false c.src len) || s.reaches kind die n (s.rangeOf c.ctx (!c.priv) true c.dst len))

/-- The fault domains that are using a unit (R26, R396): those with blocks on its cores, those with an access of a warp or an
engine on its way there, and those with a request on its plane. -/
def State.domainsOn (s : State) (kind die n : Nat) : List (Nat × Nat) :=
  let on := fun (c : Nat) => c / 96 == die && ((kind == 0 && c % 96 == n) || (kind == 2 && c % 96 / 16 == n))
  let sent := (s.warps.filter fun p => p.2.ctl.storeQ.any fun q => q.sp == .phys && s.atUnit kind die n q.off).map Prod.fst
  let held := (s.snap.blocked.filter fun q => decide (q.sl < 8) && s.atUnit kind die n q.off).map Blocked.k
  let asked := (s.fab.reqs.filter fun r =>
    (r.plane == 0xFE && s.atUnit kind die n (r.pa % 2 ^ 43)) || (kind == 5 && r.plane == n)).map Req.k
  let rows := (s.cmbReqs.filter fun q => q.put && q.chip == 0 && q.stage < 5 &&
    s.reaches kind die n (s.rangeOf q.ctx (!q.priv) false q.rowAddr q.len)).map CmbReq.k
  let out := (s.cmbs.filter fun x => x.slots.any fun y => 3 ≤ y.st &&
    s.reaches kind die n (s.rangeOf x.ctx (!x.priv) true (x.rowVa y.tok) x.rowSize)).map Cmb.owner
  (((s.blocks.filter fun p => on (p.1 / Config.blocksPerCore)).map Prod.fst ++
    (sent ++ held ++ asked ++ (s.copies.filter (s.copyUses kind die n)).map Copy.k ++ rows).map blockOf ++
    (s.colls.filter (s.collUses kind die n)).map Coll.b ++ out.filter fun b => (find s.blocks b).isSome).map
      fun b => ((s.blk b).ctx, (s.blk b).domain)).eraseDups

/-- A fault domain ends as by a kernel fault of a warp of one of its blocks, the lead warp where it exists (R395, R396). -/
def endAs (code : Nat) (cd : Nat × Nat) (s : State) : List Effect :=
  match (s.blocks.filter fun p => p.2.inDomain cd.1 cd.2).head? with
  | none => []
  | some p =>
    let k := if (find s.warps (leadOf p.1)).isSome then leadOf p.1 else ((s.blockWarps p.1).headD (leadOf p.1, {})).1
    kernelFault s k { code, slices := liveSlices (s.warp k) }

/-- The buffers with slots on a slice are lost (R360): uncorrectable-error comes to the owners' lead warps. -/
def loseBuffers (j : Nat) (s : State) : List Effect :=
  let gone := s.cmbs.filter fun x => x.homes.contains j && !x.lost
  chain s ((fun s => [.cmbs (s.cmbs.map fun x => if x.homes.contains j then { x with lost := true } else x)]) ::
    (gone.filter fun x => x.owner != unowned).map fun x => ownerTrap x.ctx x.buf { code := 0x12 })

/-- Whether a unit of a kind has a number on a die (R5, R11, R26, R355): 96 cores, 96 slices, 6 clusters, 4 HBM stacks, 8
bridge ports, its half of the fabric ports, one host module. -/
def isUnit (kind die n : Nat) : Bool :=
  decide (die < 2) && match kind with
    | 0 => decide (n < 96)
    | 1 => decide (n < 96)
    | 2 => decide (n < 6)
    | 3 => decide (n < 4)
    | 4 => decide (n < 8)
    | 5 => n / 48 == die
    | 6 => n == 0
    | _ => false

/-- UNIT_FENCE (R26, R339, R360, R396, R414): 0 core, 1 slice, 2 cluster, 3 HBM stack, 4 bridge port, 5 fabric port, 6 host
module. -/
def execUnitFence (kind die n : Nat) (s : State) : Out :=
  if s.isFenced kind die n || !isUnit kind die n then commit s []
  else
    commit s (chain s (
      [fenceUnit kind die n 0, loseSnaps kind die n] ++
      (if kind = 2 then (span (16 * n) 16).map fun c => fenceUnit 0 die c 0 else []) ++
      (if kind = 1 then [loseBuffers (96 * die + n)] else []) ++
      (if kind = 5 then [fun s => portGone n (bits (s.mgmt.portst.get n).toNat 15 8) s] else []) ++
      (s.domainsOn kind die n).map (endAs 0x12)))

/-- ECC_ERROR (R396, R427): kind 0 a corrected error of number b of the units of kind and
die a = 2 kind + die; an uncorrectable one poisons a sector of physical memory
(1: address a) or of a block's shared memory (2: block a, offset b) or a tile element (3: block a, element b), is met by the
register read of the word at which slice b of warp a stands (4), or fences a unit (5: as 0). -/
def execEccError (kind a b : Nat) (s : State) : Out :=
  match kind with
  | 0 =>
    let u := a * 65536 + b % 65536
    let n := ((s.vil.corrected.find? fun p => p.1 == u).map Prod.snd).getD 0 + 1
    let put := fun (s : State) (n : Nat) =>
      [Effect.vil { s.vil with corrected := (u, n) :: s.vil.corrected.filter fun p => p.1 ≠ u }]
    if n < 1024 then commit s (put s n)
    else commit s (chain s [fun s => journal s 5 (a % 2) (pack [(0, 32, u), (32, 32, n)]), fun s => put s 0])
  | 1 => commit s [.poison (a / 32) true]
  | 2 => if (find s.blocks a).isSome then commit s [.shPoison a (b / 32) true] else commit s []
  | 3 => if (find s.blocks a).isSome then commit s [.tilePoison a b true] else commit s []
  | 4 =>
    let c := s.ctl a
    if s.runs a && (c.slice b).inClause && bit (liveSlices (s.warp a)) b then
      commit s (raise s a ((⟨s, a, s.gangOf a b, s.warp a⟩ : Issue).fill true { code := 0x12 }))
    else commit s []
  | _ => execUnitFence (a / 2) (a % 2) b s

/-- PAGE_WALK (R197 to R199): a walk by itself: at a leaf A, and D for a write that the leaf permits, are set and the
TLBs loaded; any other end changes nothing. -/
def execPageWalk (ctx va : Nat) (write : Bool) (s : State) : Out :=
  match generic va with
  | .virt _ =>
    let w := s.walk ctx va
    if w.kind = .leaf then commit s (s.useLeaf ctx va (write && pteW w.entry) w) else commit s []
  | _ => commit s []

/-- The data of a page at its new frame, poison with it; whole snap pages take their states and frames along (R409), and a
normal page is DIRTY where it is now. -/
def movePage (q : Migration) (s : State) : List Effect :=
  let bytes := Sparse.bytes s.mem q.src q.size
  let marked := if s.isFenced 3 (hbmStack q.src / 4) (hbmStack q.src % 4) then span (q.src / 32) (q.size / 32)
    else s.poison.filter fun x => decide (q.src ≤ 32 * x) && decide (32 * x < q.src + q.size)
  let bad := marked.map fun x => x + q.dst / 32 - q.src / 32
  let whole := q.size % 65536 = 0 && q.src % 65536 = 0 && q.dst % 65536 = 0
  let moved := fun (p : SnapPage) =>
    if q.src / 65536 ≤ p.page && p.page < (q.src + q.size) / 65536 then { p with page := p.page + q.dst / 65536 - q.src / 65536 }
    else p
  let inDst := fun (p : SnapPage) => decide (q.dst / 65536 ≤ p.page) && decide (p.page < (q.dst + q.size) / 65536)
  let written := fun (l : List SnapPage) => (span (q.dst / 65536) (q.size / 65536)).foldl (fun l n =>
    let p : SnapPage := (l.find? fun p => p.page == n).getD ⟨n, 0, false, [], 0⟩
    if p.st = 0 then setPage l { p with dirty := true } else l) l
  chain s [
    fun s => if whole then [.store .phys q.dst bytes none] else s.physWrite q.dst bytes s.deviceEpoch none,
    fun s => if whole then [.snap { s.snap with pages := written ((s.snap.pages.filter fun p => !inDst p).map moved) }] else [],
    fun _ => bad.map fun x => .poison x true]

/-- The leaf entries that a move replaces, each with the frame it then names: all 16 of a 64 KiB group (R199). -/
def leavesOf (q : Migration) : List (Nat × Nat) :=
  if q.leaf = 0 then []
  else if q.size = 65536 then (span 0 16).map fun i => (q.leaf / 128 * 128 + 8 * i, q.dst + 4096 * i)
  else [(q.leaf, q.dst)]

/-- A leaf entry replaced by one that names another frame of this chip, its other bits kept (R207). -/
def moveLeaf (x : Nat × Nat) (s : State) : List Effect :=
  let entry := s.phys x.1 8
  s.physWrite x.1 (leBytes 8 (entry - bits entry 51 12 * 4096 + (s.chip * 2 ^ 43 + x.2))) s.deviceEpoch none

/-- An address on a page that moves, as it is after the move. -/
def movedTo (q : Migration) (pa : Nat) : Nat := if q.src ≤ pa && pa < q.src + q.size then pa + q.dst - q.src else pa

/-- What was on its way to a page that moves goes to its new place (R207 steps 2 to 4): stores and writes not yet performed,
what engine reads bring, the words that escalated warps watch (R206), and the lines that the distributor watches (R379). -/
def retarget (q : Migration) (s : State) : List Effect :=
  let wait := fun (w : Wait) => match w with
    | .escalated va pa ok => Wait.escalated va (movedTo q pa) ok
    | w => w
  let land := fun (d : Nat × Nat × Nat) => if d.1 = 0 then (0, movedTo q d.2.1, d.2.2) else d
  [.snap { s.snap with blocked := s.snap.blocked.map fun x => { x with off := movedTo q x.off } },
   .copies (s.copies.map fun c => { c with
     lands := c.lands.map fun x => if x.1 = .phys then (x.1, movedTo q x.2.1, x.2.2) else x
     sends := c.sends.map fun x => { x with dest := x.dest.map land } }),
   .fab { s.fab with reqs := s.fab.reqs.map fun r => if r.kind = 4 then { r with dest := r.dest.map land } else r },
   .dist { s.dist with trees := s.dist.trees.map fun r => { r with line1 := movedTo q r.line1 } }] ++
  s.warps.map fun p => .ctl p.1 { p.2.ctl with
    storeQ := p.2.ctl.storeQ.map fun x => if x.sp = .phys then { x with off := movedTo q x.off } else x
    slices := p.2.ctl.slices.map fun x => { x with wait := x.wait.map wait } }

/-- PAGE_MIGRATION (R207, R409): the page is copied; for a move the leaf is replaced, its translations are removed, the
reservations on the page are cleared, and what was on its way goes to the new place. It waits while the page is pinned, or a
snapshot has still to take what its new frame held (log entry 81); nothing moves where a leaf entry is poisoned (R26). -/
def execPageMigration (q : Migration) (s : State) : Out :=
  let inHbm := fun (a : Nat) => region a == .hbm && region (a + q.size - 1) == .hbm && a % q.size == 0
  let sizes := q.size == 4096 || q.size == 65536 || q.size == 2 ^ 21 || q.size == 2 ^ 30
  let any := fun (a : Nat) (f : Nat → Bool) => (span (a / 65536) (framesFor q.size)).any fun p => f (s.snapPage p).st
  if !sizes || !inHbm q.src || !inHbm q.dst || any q.src (· == 2) || any q.dst (· != 0) || s.devState ≠ 3
      || (leavesOf q).any (fun x => s.poisonedRange x.1 8) then commit s []
  else
    commit s (chain s ([movePage q] ++ (leavesOf q).map moveLeaf ++ [
      fun s => if q.leaf = 0 then [] else retarget q s,
      fun s => if q.leaf = 0 then [] else
        [.tlb (s.tlb.filter fun t => !(q.ctxs.contains t.ctx && (leavesOf q).any fun x => x.1 == t.pa || (t.level == 0 && x.1 / 128 == t.pa / 128))),
         .unreserve q.src q.size]]))

end Sys2Proof.Machine
end

