-- ==== Sys2Proof/Machine/Dispatch.lean ====
section
/-! DEFINITION. One arm per constructor of Instr: a direct call of its meaning. -/
namespace Sys2Proof.Machine

def exec (i : Instr) (s : State) : Host.Outcome State Fault Refusal :=
  match i with
  | .smov d a => Sys2Proof.Machine.execSmov d a s
  | .sadd d a b => Sys2Proof.Machine.execSadd d a b s
  | .ssub d a b => Sys2Proof.Machine.execSsub d a b s
  | .smul d a b => Sys2Proof.Machine.execSmul d a b s
  | .smulh d a b => Sys2Proof.Machine.execSmulh d a b s
  | .sand d a b => Sys2Proof.Machine.execSand d a b s
  | .sor d a b => Sys2Proof.Machine.execSor d a b s
  | .sxor d a b => Sys2Proof.Machine.execSxor d a b s
  | .sshl d a b => Sys2Proof.Machine.execSshl d a b s
  | .sshr d a b => Sys2Proof.Machine.execSshr d a b s
  | .ssar d a b => Sys2Proof.Machine.execSsar d a b s
  | .smin d a b => Sys2Proof.Machine.execSmin d a b s
  | .smax d a b => Sys2Proof.Machine.execSmax d a b s
  | .scmp d a b => Sys2Proof.Machine.execScmp d a b s
  | .ssel d a b => Sys2Proof.Machine.execSsel d a b s
  | .sbfe d a b => Sys2Proof.Machine.execSbfe d a b s
  | .sbfi d a b => Sys2Proof.Machine.execSbfi d a b s
  | .spopc d a => Sys2Proof.Machine.execSpopc d a s
  | .sclz d a => Sys2Proof.Machine.execSclz d a s
  | .saddp d a b => Sys2Proof.Machine.execSaddp d a b s
  | .sld d a b => Sys2Proof.Machine.execSld d a b s
  | .sst d a b => Sys2Proof.Machine.execSst d a b s
  | .ldc d a b => Sys2Proof.Machine.execLdc d a b s
  | .getid d sel => Sys2Proof.Machine.execGetid d sel s
  | .bra o => Sys2Proof.Machine.execBra o s
  | .brc nz a b => Sys2Proof.Machine.execBrc nz a b s
  | .brzm m b => Sys2Proof.Machine.execBrzm m b s
  | .brnzm m b => Sys2Proof.Machine.execBrnzm m b s
  | .jmp a b => Sys2Proof.Machine.execJmp a b s
  | .call d b => Sys2Proof.Machine.execCall d b s
  | .ret a => Sys2Proof.Machine.execRet a s
  | .exit => Sys2Proof.Machine.execExit s
  | .nop => Sys2Proof.Machine.execNop s
  | .mode mode => Sys2Proof.Machine.execMode mode s
  | .part => Sys2Proof.Machine.execPart s
  | .regang => Sys2Proof.Machine.execRegang s
  | .yield => Sys2Proof.Machine.execYield s
  | .waitw eq a b => Sys2Proof.Machine.execWaitw eq a b s
  | .fork => Sys2Proof.Machine.execFork s
  | .rend refork => Sys2Proof.Machine.execRend refork s
  | .mand d a b => Sys2Proof.Machine.execMand d a b s
  | .mor d a b => Sys2Proof.Machine.execMor d a b s
  | .mxor d a b => Sys2Proof.Machine.execMxor d a b s
  | .mandn d a b => Sys2Proof.Machine.execMandn d a b s
  | .mnot d a => Sys2Proof.Machine.execMnot d a s
  | .mmov d a => Sys2Proof.Machine.execMmov d a s
  | .mpopc d a => Sys2Proof.Machine.execMpopc d a s
  | .mffs d a => Sys2Proof.Machine.execMffs d a s
  | .mset d a => Sys2Proof.Machine.execMset d a s
  | .mget d a => Sys2Proof.Machine.execMget d a s
  | .addVv d a b => Sys2Proof.Machine.execAddVv d a b s
  | .addVs d a b => Sys2Proof.Machine.execAddVs d a b s
  | .addcVv d a b => Sys2Proof.Machine.execAddcVv d a b s
  | .addcVs d a b => Sys2Proof.Machine.execAddcVs d a b s
  | .subVv d a b => Sys2Proof.Machine.execSubVv d a b s
  | .subVs d a b => Sys2Proof.Machine.execSubVs d a b s
  | .subbVv d a b => Sys2Proof.Machine.execSubbVv d a b s
  | .subbVs d a b => Sys2Proof.Machine.execSubbVs d a b s
  | .mulVv d a b => Sys2Proof.Machine.execMulVv d a b s
  | .mulVs d a b => Sys2Proof.Machine.execMulVs d a b s
  | .mulhVv d a b => Sys2Proof.Machine.execMulhVv d a b s
  | .mulhVs d a b => Sys2Proof.Machine.execMulhVs d a b s
  | .madVv d a b => Sys2Proof.Machine.execMadVv d a b s
  | .madVs d a b => Sys2Proof.Machine.execMadVs d a b s
  | .absdVv d a b => Sys2Proof.Machine.execAbsdVv d a b s
  | .absdVs d a b => Sys2Proof.Machine.execAbsdVs d a b s
  | .minVv d a b => Sys2Proof.Machine.execMinVv d a b s
  | .minVs d a b => Sys2Proof.Machine.execMinVs d a b s
  | .maxVv d a b => Sys2Proof.Machine.execMaxVv d a b s
  | .maxVs d a b => Sys2Proof.Machine.execMaxVs d a b s
  | .andVv d a b => Sys2Proof.Machine.execAndVv d a b s
  | .andVs d a b => Sys2Proof.Machine.execAndVs d a b s
  | .orVv d a b => Sys2Proof.Machine.execOrVv d a b s
  | .orVs d a b => Sys2Proof.Machine.execOrVs d a b s
  | .xorVv d a b => Sys2Proof.Machine.execXorVv d a b s
  | .xorVs d a b => Sys2Proof.Machine.execXorVs d a b s
  | .shlVv d a b => Sys2Proof.Machine.execShlVv d a b s
  | .shlVs d a b => Sys2Proof.Machine.execShlVs d a b s
  | .shrVv d a b => Sys2Proof.Machine.execShrVv d a b s
  | .shrVs d a b => Sys2Proof.Machine.execShrVs d a b s
  | .sarVv d a b => Sys2Proof.Machine.execSarVv d a b s
  | .sarVs d a b => Sys2Proof.Machine.execSarVs d a b s
  | .bfeVv d a b => Sys2Proof.Machine.execBfeVv d a b s
  | .bfeVs d a b => Sys2Proof.Machine.execBfeVs d a b s
  | .bfiVv d a b => Sys2Proof.Machine.execBfiVv d a b s
  | .bfiVs d a b => Sys2Proof.Machine.execBfiVs d a b s
  | .popcVv d a => Sys2Proof.Machine.execPopcVv d a s
  | .popcVs d b => Sys2Proof.Machine.execPopcVs d b s
  | .clzVv d a => Sys2Proof.Machine.execClzVv d a s
  | .clzVs d b => Sys2Proof.Machine.execClzVs d b s
  | .brevVv d a => Sys2Proof.Machine.execBrevVv d a s
  | .brevVs d b => Sys2Proof.Machine.execBrevVs d b s
  | .prmtVv d a b => Sys2Proof.Machine.execPrmtVv d a b s
  | .prmtVs d a b => Sys2Proof.Machine.execPrmtVs d a b s
  | .selVv d a b => Sys2Proof.Machine.execSelVv d a b s
  | .selVs d a b => Sys2Proof.Machine.execSelVs d a b s
  | .cmpVv d a b => Sys2Proof.Machine.execCmpVv d a b s
  | .cmpVs d a b => Sys2Proof.Machine.execCmpVs d a b s
  | .cvtiVv d a b => Sys2Proof.Machine.execCvtiVv d a b s
  | .cvtiVs d a b => Sys2Proof.Machine.execCvtiVs d a b s
  | .movVv d a => Sys2Proof.Machine.execMovVv d a s
  | .movVs d b => Sys2Proof.Machine.execMovVs d b s
  | .dp4Vv d a b => Sys2Proof.Machine.execDp4Vv d a b s
  | .dp4Vs d a b => Sys2Proof.Machine.execDp4Vs d a b s
  | .faddVv d a b => Sys2Proof.Machine.execFaddVv d a b s
  | .faddVs d a b => Sys2Proof.Machine.execFaddVs d a b s
  | .fsubVv d a b => Sys2Proof.Machine.execFsubVv d a b s
  | .fsubVs d a b => Sys2Proof.Machine.execFsubVs d a b s
  | .fmulVv d a b => Sys2Proof.Machine.execFmulVv d a b s
  | .fmulVs d a b => Sys2Proof.Machine.execFmulVs d a b s
  | .ffmaVv d a b => Sys2Proof.Machine.execFfmaVv d a b s
  | .ffmaVs d a b => Sys2Proof.Machine.execFfmaVs d a b s
  | .fminVv d a b => Sys2Proof.Machine.execFminVv d a b s
  | .fminVs d a b => Sys2Proof.Machine.execFminVs d a b s
  | .fmaxVv d a b => Sys2Proof.Machine.execFmaxVv d a b s
  | .fmaxVs d a b => Sys2Proof.Machine.execFmaxVs d a b s
  | .fminnmVv d a b => Sys2Proof.Machine.execFminnmVv d a b s
  | .fminnmVs d a b => Sys2Proof.Machine.execFminnmVs d a b s
  | .fmaxnmVv d a b => Sys2Proof.Machine.execFmaxnmVv d a b s
  | .fmaxnmVs d a b => Sys2Proof.Machine.execFmaxnmVs d a b s
  | .fcmpVv d a b => Sys2Proof.Machine.execFcmpVv d a b s
  | .fcmpVs d a b => Sys2Proof.Machine.execFcmpVs d a b s
  | .fclassVv d a b => Sys2Proof.Machine.execFclassVv d a b s
  | .fclassVs d a b => Sys2Proof.Machine.execFclassVs d a b s
  | .fscaleVv d a b => Sys2Proof.Machine.execFscaleVv d a b s
  | .fscaleVs d a b => Sys2Proof.Machine.execFscaleVs d a b s
  | .fgetxVv d a => Sys2Proof.Machine.execFgetxVv d a s
  | .fgetxVs d b => Sys2Proof.Machine.execFgetxVs d b s
  | .frndVv d a => Sys2Proof.Machine.execFrndVv d a s
  | .frndVs d b => Sys2Proof.Machine.execFrndVs d b s
  | .ftoiVv d a b => Sys2Proof.Machine.execFtoiVv d a b s
  | .ftoiVs d a b => Sys2Proof.Machine.execFtoiVs d a b s
  | .itofVv d a b => Sys2Proof.Machine.execItofVv d a b s
  | .itofVs d a b => Sys2Proof.Machine.execItofVs d a b s
  | .fcvtVv d a b => Sys2Proof.Machine.execFcvtVv d a b s
  | .fcvtVs d a b => Sys2Proof.Machine.execFcvtVs d a b s
  | .fpackVv d a b => Sys2Proof.Machine.execFpackVv d a b s
  | .fpackVs d a b => Sys2Proof.Machine.execFpackVs d a b s
  | .funpackVv d a b => Sys2Proof.Machine.execFunpackVv d a b s
  | .funpackVs d a b => Sys2Proof.Machine.execFunpackVs d a b s
  | .fdot2Vv d a b => Sys2Proof.Machine.execFdot2Vv d a b s
  | .fdot2Vs d a b => Sys2Proof.Machine.execFdot2Vs d a b s
  | .rcp d a => Sys2Proof.Machine.execRcp d a s
  | .rsq d a => Sys2Proof.Machine.execRsq d a s
  | .sqrt d a => Sys2Proof.Machine.execSqrt d a s
  | .exp2 d a => Sys2Proof.Machine.execExp2 d a s
  | .log2 d a => Sys2Proof.Machine.execLog2 d a s
  | .sinpi d a => Sys2Proof.Machine.execSinpi d a s
  | .cospi d a => Sys2Proof.Machine.execCospi d a s
  | .tanh d a => Sys2Proof.Machine.execTanh d a s
  | .shfl d a b => Sys2Proof.Machine.execShfl d a b s
  | .shflup d a b => Sys2Proof.Machine.execShflup d a b s
  | .shfldn d a b => Sys2Proof.Machine.execShfldn d a b s
  | .shflx d a b => Sys2Proof.Machine.execShflx d a b s
  | .vote d a kind => Sys2Proof.Machine.execVote d a kind s
  | .ballot d a b => Sys2Proof.Machine.execBallot d a b s
  | .redlane d a op => Sys2Proof.Machine.execRedlane d a op s
  | .xswap d a b => Sys2Proof.Machine.execXswap d a b s
  | .ld d f => Sys2Proof.Machine.execLd d f s
  | .st d f => Sys2Proof.Machine.execSt d f s
  | .lds d a b => Sys2Proof.Machine.execLds d a b s
  | .sts d a b => Sys2Proof.Machine.execSts d a b s
  | .pref lvl f => Sys2Proof.Machine.execPref lvl f s
  | .ldrsv d f => Sys2Proof.Machine.execLdrsv d f s
  | .stcnd d f => Sys2Proof.Machine.execStcnd d f s
  | .cctlCinv => Sys2Proof.Machine.execCctlCinv s
  | .cctlEvl1 a b => Sys2Proof.Machine.execCctlEvl1 a b s
  | .cctlWbl2 a b => Sys2Proof.Machine.execCctlWbl2 a b s
  | .cctlEvl1all => Sys2Proof.Machine.execCctlEvl1all s
  | .icinv a b => Sys2Proof.Machine.execIcinv a b s
  | .atom d f x => Sys2Proof.Machine.execAtom d f x s
  | .atoms d a b x => Sys2Proof.Machine.execAtoms d a b x s
  | .red f x => Sys2Proof.Machine.execRed f x s
  | .bar a => Sys2Proof.Machine.execBar a s
  | .bara a => Sys2Proof.Machine.execBara a s
  | .abinit a b => Sys2Proof.Machine.execAbinit a b s
  | .abarr d a b => Sys2Proof.Machine.execAbarr d a b s
  | .abwait a b => Sys2Proof.Machine.execAbwait a b s
  | .fence ord scope => Sys2Proof.Machine.execFence ord scope s
  | .waitc cls n => Sys2Proof.Machine.execWaitc cls n s
  | .qinit e a b => Sys2Proof.Machine.execQinit e a b s
  | .qpush a b => Sys2Proof.Machine.execQpush a b s
  | .qpop d a => Sys2Proof.Machine.execQpop d a s
  | .qtrypush d a b => Sys2Proof.Machine.execQtrypush d a b s
  | .qtrypop d a => Sys2Proof.Machine.execQtrypop d a s
  | .gset n b => Sys2Proof.Machine.execGset n b s
  | .gclr n => Sys2Proof.Machine.execGclr n s
  | .cpld kslot gen pen a b => Sys2Proof.Machine.execCpld kslot gen pen a b s
  | .cpst kslot gen pen a b => Sys2Proof.Machine.execCpst kslot gen pen a b s
  | .cpmc kslot gen pen a b => Sys2Proof.Machine.execCpmc kslot gen pen a b s
  | .cpga kslot gen pen a b => Sys2Proof.Machine.execCpga kslot gen pen a b s
  | .cpsc kslot gen pen a b => Sys2Proof.Machine.execCpsc kslot gen pen a b s
  | .cpfl kslot gen pen a b => Sys2Proof.Machine.execCpfl kslot gen pen a b s
  | .cprm kslot gen pen a b => Sys2Proof.Machine.execCprm kslot gen pen a b s
  | .cppf kslot gen pen a b => Sys2Proof.Machine.execCppf kslot gen pen a b s
  | .mma bt za tile a b => Sys2Proof.Machine.execMma bt za tile a b s
  | .mmax bt za tile a b => Sys2Proof.Machine.execMmax bt za tile a b s
  | .mrel tile a h => Sys2Proof.Machine.execMrel tile a h s
  | .tld d a b => Sys2Proof.Machine.execTld d a b s
  | .tst d a b => Sys2Proof.Machine.execTst d a b s
  | .tzero tile => Sys2Proof.Machine.execTzero tile s
  | .recruit d a md ask rk => Sys2Proof.Machine.execRecruit d a md ask rk s
  | .hidx d m => Sys2Proof.Machine.execHidx d m s
  | .hrd d n => Sys2Proof.Machine.execHrd d n s
  | .hred a => Sys2Proof.Machine.execHred a s
  | .hend => Sys2Proof.Machine.execHend s
  | .hjoin d e => Sys2Proof.Machine.execHjoin d e s
  | .dismiss => Sys2Proof.Machine.execDismiss s
  | .coll form tsrc op tile a => Sys2Proof.Machine.execColl form tsrc op tile a s
  | .collq d a => Sys2Proof.Machine.execCollq d a s
  | .cmbcfg d a b => Sys2Proof.Machine.execCmbcfg d a b s
  | .cmbdisp t x b => Sys2Proof.Machine.execCmbdisp t x b s
  | .cmbput t v b => Sys2Proof.Machine.execCmbput t v b s
  | .cmbwait n a b => Sys2Proof.Machine.execCmbwait n a b s
  | .cmbq d a b => Sys2Proof.Machine.execCmbq d a b s
  | .cmbdrain d b => Sys2Proof.Machine.execCmbdrain d b s
  | .trap b => Sys2Proof.Machine.execTrap b s
  | .brk b => Sys2Proof.Machine.execBrk b s
  | .srd d num => Sys2Proof.Machine.execSrd d num s
  | .swr num a => Sys2Proof.Machine.execSwr num a s
  | .sret => Sys2Proof.Machine.execSret s
  | .tlbinv a b => Sys2Proof.Machine.execTlbinv a b s
  | .ptwr a b => Sys2Proof.Machine.execPtwr a b s
  | .launch d a b => Sys2Proof.Machine.execLaunch d a b s
  | .join d a b => Sys2Proof.Machine.execJoin d a b s
  | .snap a b => Sys2Proof.Machine.execSnap a b s
  | .snapq a b => Sys2Proof.Machine.execSnapq a b s
  | .clauseStart k sl => Sys2Proof.Machine.execClauseStart k sl s
  | .flagOpComplete k id => Sys2Proof.Machine.execFlagOpComplete k id s
  | .storeDrain k => Sys2Proof.Machine.execStoreDrain k s
  | .remoteReply id r => Sys2Proof.Machine.execRemoteReply id r s
  | .remoteRequest q => Sys2Proof.Machine.execRemoteRequest q s
  | .remoteTimeout id => Sys2Proof.Machine.execRemoteTimeout id s
  | .hostTimeout id => Sys2Proof.Machine.execHostTimeout id s
  | .hostMemAccess write pa bytes => Sys2Proof.Machine.execHostMemAccess write pa bytes s
  | .parkDelayExpiry k => Sys2Proof.Machine.execParkDelayExpiry k s
  | .parkSaveComplete k => Sys2Proof.Machine.execParkSaveComplete k s
  | .warpRestore core => Sys2Proof.Machine.execWarpRestore core s
  | .warpActivate k => Sys2Proof.Machine.execWarpActivate k s
  | .agePromotion k => Sys2Proof.Machine.execAgePromotion k s
  | .reservationExpire k sl => Sys2Proof.Machine.execReservationExpire k sl s
  | .deferredTrap k sl => Sys2Proof.Machine.execDeferredTrap k sl s
  | .handlerEntry k => Sys2Proof.Machine.execHandlerEntry k s
  | .kernelFault k => Sys2Proof.Machine.execKernelFault k s
  | .monitorFreeze ctx dom die => Sys2Proof.Machine.execMonitorFreeze ctx dom die s
  | .freezeSignal ctx dom die => Sys2Proof.Machine.execFreezeSignal ctx dom die s
  | .recordTake ctx rcb => Sys2Proof.Machine.execRecordTake ctx rcb s
  | .queueWake ctx rcb => Sys2Proof.Machine.execQueueWake ctx rcb s
  | .queueRecheck ctx rcb => Sys2Proof.Machine.execQueueRecheck ctx rcb s
  | .treeReread ctx => Sys2Proof.Machine.execTreeReread ctx s
  | .blockPlace ctx => Sys2Proof.Machine.execBlockPlace ctx s
  | .splitAdopt core => Sys2Proof.Machine.execSplitAdopt core s
  | .blockEnd b => Sys2Proof.Machine.execBlockEnd b s
  | .blockSuspend b => Sys2Proof.Machine.execBlockSuspend b s
  | .preemptDeadline k => Sys2Proof.Machine.execPreemptDeadline k s
  | .contextBoundary die => Sys2Proof.Machine.execContextBoundary die s
  | .queueStepServed k sl => Sys2Proof.Machine.execQueueStepServed k sl s
  | .barRelease k sl => Sys2Proof.Machine.execBarRelease k sl s
  | .abwaitRelease k sl => Sys2Proof.Machine.execAbwaitRelease k sl s
  | .waitwRelease k sl => Sys2Proof.Machine.execWaitwRelease k sl s
  | .rendFire b => Sys2Proof.Machine.execRendFire b s
  | .gangForm k => Sys2Proof.Machine.execGangForm k s
  | .waitcSatisfied k sl => Sys2Proof.Machine.execWaitcSatisfied k sl s
  | .xswapPair k => Sys2Proof.Machine.execXswapPair k s
  | .mrelPush id => Sys2Proof.Machine.execMrelPush id s
  | .mmaStart id => Sys2Proof.Machine.execMmaStart id s
  | .mmaComplete id => Sys2Proof.Machine.execMmaComplete id s
  | .mmaReplay id => Sys2Proof.Machine.execMmaReplay id s
  | .copyStart id => Sys2Proof.Machine.execCopyStart id s
  | .copyComplete id => Sys2Proof.Machine.execCopyComplete id s
  | .pushOnLand id => Sys2Proof.Machine.execPushOnLand id s
  | .meterPeriod die ctx rcb => Sys2Proof.Machine.execMeterPeriod die ctx rcb s
  | .pageWalk ctx va write => Sys2Proof.Machine.execPageWalk ctx va write s
  | .pageMigration q => Sys2Proof.Machine.execPageMigration q s
  | .copyOnWrite page => Sys2Proof.Machine.execCopyOnWrite page s
  | .linkTrainDone port err => Sys2Proof.Machine.execLinkTrainDone port err s
  | .linkDrop port err => Sys2Proof.Machine.execLinkDrop port err s
  | .planeNotice plane => Sys2Proof.Machine.execPlaneNotice plane s
  | .planeChangeApply => Sys2Proof.Machine.execPlaneChangeApply s
  | .collUnitStart id => Sys2Proof.Machine.execCollUnitStart id s
  | .collUnitStep q => Sys2Proof.Machine.execCollUnitStep q s
  | .collRetry id blk unit pass => Sys2Proof.Machine.execCollRetry id blk unit pass s
  | .collAbort id cause chip => Sys2Proof.Machine.execCollAbort id cause chip s
  | .collComplete id => Sys2Proof.Machine.execCollComplete id s
  | .cmbDispatchArrive id => Sys2Proof.Machine.execCmbDispatchArrive id s
  | .cmbPutArrive id => Sys2Proof.Machine.execCmbPutArrive id s
  | .cmbRowBytes id bytes plane parity => Sys2Proof.Machine.execCmbRowBytes id bytes plane parity s
  | .cmbCancel id => Sys2Proof.Machine.execCmbCancel id s
  | .cmbSlotGrant id => Sys2Proof.Machine.execCmbSlotGrant id s
  | .cmbSlotTimeout ctx buf tok => Sys2Proof.Machine.execCmbSlotTimeout ctx buf tok s
  | .cmbRelease ctx buf tok => Sys2Proof.Machine.execCmbRelease ctx buf tok s
  | .helperForcedRelease k => Sys2Proof.Machine.execHelperForcedRelease k s
  | .canaryArrive n chip plane cls => Sys2Proof.Machine.execCanaryArrive n chip plane cls s
  | .localCut => Sys2Proof.Machine.execLocalCut s
  | .drainWrite page => Sys2Proof.Machine.execDrainWrite page s
  | .pageRetire page => Sys2Proof.Machine.execPageRetire page s
  | .snapcmdRollback man => Sys2Proof.Machine.execSnapcmdRollback man s
  | .snapcmdAbort => Sys2Proof.Machine.execSnapcmdAbort s
  | .snapcmdInvalid op => Sys2Proof.Machine.execSnapcmdInvalid op s
  | .snapringWrite head => Sys2Proof.Machine.execSnapringWrite head s
  | .slcfgApply die v => Sys2Proof.Machine.execSlcfgApply die v s
  | .preqGo die v => Sys2Proof.Machine.execPreqGo die v s
  | .planeenWrite w v => Sys2Proof.Machine.execPlaneenWrite w v s
  | .clkctlWrite cl v => Sys2Proof.Machine.execClkctlWrite cl v s
  | .plimWrite v => Sys2Proof.Machine.execPlimWrite v s
  | .contextValidSet ctx => Sys2Proof.Machine.execContextValidSet ctx s
  | .contextValidClear ctx => Sys2Proof.Machine.execContextValidClear ctx s
  | .registerWrite off width v => Sys2Proof.Machine.execRegisterWrite off width v s
  | .deviceReset pass => Sys2Proof.Machine.execDeviceReset pass s
  | .enterFullService => Sys2Proof.Machine.execEnterFullService s
  | .mailboxImage step version => Sys2Proof.Machine.execMailboxImage step version s
  | .mailboxAttest nonce => Sys2Proof.Machine.execMailboxAttest nonce s
  | .mailboxRaiseSvn v => Sys2Proof.Machine.execMailboxRaiseSvn v s
  | .powerInterval => Sys2Proof.Machine.execPowerInterval s
  | .thermalCap => Sys2Proof.Machine.execThermalCap s
  | .thermalEmergency => Sys2Proof.Machine.execThermalEmergency s
  | .thermalTrip => Sys2Proof.Machine.execThermalTrip s
  | .thermalRecover thr => Sys2Proof.Machine.execThermalRecover thr s
  | .unitFence kind die n => Sys2Proof.Machine.execUnitFence kind die n s
  | .unassignedOpcode w => Sys2Proof.Machine.execUnassignedOpcode w s
  | .eccError kind a b => Sys2Proof.Machine.execEccError kind a b s
  | .hostSnoop pa inv bytes => Sys2Proof.Machine.execHostSnoop pa inv bytes s
  | .remoteAck id parity => Sys2Proof.Machine.execRemoteAck id parity s
  | .badPacket port => Sys2Proof.Machine.execBadPacket port s
  | .undeliverableReport id => Sys2Proof.Machine.execUndeliverableReport id s
  | .keyInstall => Sys2Proof.Machine.execKeyInstall s

end Sys2Proof.Machine
end

