-- ==== Sys2Proof/Machine/Schedule.lean ====
section
/-! DEFINITION. What moves next. The schedule of the state names moves; when it names none, a default order of the part's
own steps is followed. The manual fixes no order between warps, engines and units beyond what each meaning checks
(02 R51, R52; 10 R255), so a schedule that names a step which cannot take place now leaves the machine as it is (log entry 1). -/
namespace Sys2Proof.Machine

/-- Whether a slice that stands in a clause may issue its word as its wait has it: it waits for nothing, or its wait is
over and its word executes again. A wait whose end is a step of its own does not issue. -/
def State.reissues (s : State) (k : Nat) (x : Slice) : Bool :=
  match x.wait with
  | none => true
  | some w => w.retries && s.waitOver k w

/-- Whether a slice may issue the next word of its clause (R42, R64, R86, R120, R127, R128, R130, R253, R258, R318, R391,
R398). A word that could not take place when it was tried last is tried whenever no other stands in the middle of a clause.
-/
def State.mayIssue (s : State) (k j : Nat) : Bool :=
  let c := s.ctl k
  let x := c.slice j
  let live := liveSlices (s.warp k)
  s.runs k && bit live j && x.inClause && x.regang.isNone && s.reissues k x && (!c.priv || bit c.hslices j)
    && !c.stepHolds live j && !s.heldBack k && !s.fenced k j && !s.recalls k && (s.divertTo k j).isNone
    && (if x.wait = some .blocked then (s.midway k).isNone && !s.portHeld k else s.hasTurn k j && s.hasPort k)

/-- The words of a slice's clause from its next instruction word on (R55). -/
def State.nextWords (s : State) (k j : Nat) : List Word :=
  let x := (s.ctl k).slice j
  x.words.drop x.idx

/-- A slice's turn: it begins its next clause, or is diverted before the first word of its clause (R398), or the word it
stands at executes for the slices that issue with it. A word that decodes to no instruction raises illegal-instruction
(R80). -/
def issueStep (k j : Nat) (s : State) : Out :=
  if !((s.ctl k).slice j).inClause || (s.divertTo k j).isSome then execClauseStart k j s
  else if !s.mayIssue k j then commit s []
  else
    let s1 := { s with cur := k, slices := s.gangOf k j }
    match decode (s.nextWords k j) with
    | .ok (i, _) => exec i s1
    | .error _ => execUnassignedOpcode ((s.nextWords k j).headD 0).toNat s1

/-- One named move. An instruction word moves only by the issue of a slice. -/
def runMove (m : Move) (s : State) : Out :=
  match m with
  | .issue k j => issueStep k j s
  | .event i => if i.isEvent then exec i s else .refused .notAnEvent

/-- Whether a step left the machine as it was: only the counter of free values advanced. -/
def quiet (s : State) (o : Out) : Bool :=
  match o with
  | .next t => decide (t = { s with fresh := s.fresh + 1 })
  | _ => false

/-- The first step of a list that can take place; the machine as it is when there is none. -/
def firstOf (s : State) : List (State → Out) → Out
  | [] => commit s []
  | f :: fs => if quiet s (f s) then firstOf s fs else f s

/-- The warps and helper contexts, from the one after the last that issued. -/
def State.turnOrder (s : State) : List Nat :=
  let ks := s.warps.map Prod.fst
  (ks.filter fun k => decide (s.cur < k)) ++ ks.filter fun k => decide (k ≤ s.cur)

/-- A list of steps for every slice of every context. -/
def State.perSlice (s : State) (f : Nat → Nat → State → Out) : List (State → Out) :=
  s.turnOrder.flatMap fun k => (span 0 8).map fun j => f k j

/-- The steps of traps: pending traps, freezes signalled from the other die, deferred traps. -/
def trapSteps (s : State) : List (State → Out) :=
  (s.turnOrder.flatMap fun k => [execHandlerEntry k, execKernelFault k]) ++
  (s.frozen.map fun x => execFreezeSignal x.1 x.2.1 (1 - x.2.2)) ++
  s.perSlice execDeferredTrap

/-- The steps of the engines: stores, flag-bound operations, copies, matrix operations, collectives, combines. -/
def engineSteps (s : State) : List (State → Out) :=
  s.turnOrder.map execStoreDrain ++
  (s.turnOrder.flatMap fun k => (s.ctl k).flagOps.map fun o => execFlagOpComplete k o.id) ++
  s.turnOrder.map execXswapPair ++
  (s.copies.flatMap fun c => [execCopyStart c.id, execPushOnLand c.id, execCopyComplete c.id]) ++
  (s.mats.flatMap fun m => [execMmaStart m.id, execMmaComplete m.id, execMrelPush m.id]) ++
  (s.colls.flatMap fun c => (c.again.map fun u => execCollRetry c.id u.1 u.2.1 ⟨u.2.2, 0, ⟨s.chip, 0, 0⟩⟩) ++
    [execCollUnitStart c.id, execCollComplete c.id]) ++
  s.fab.chunks.map execCollUnitStep ++
  (s.cmbReqs.flatMap fun q => [execCmbDispatchArrive q.id, execCmbPutArrive q.id, execCmbSlotGrant q.id]) ++
  (s.cmbs.flatMap fun x => (x.slots.filter fun y => decide (3 ≤ y.st)).map fun y => execCmbRelease x.ctx x.buf y.tok) ++
  (s.snap.pages.filter fun p => decide (p.st ≠ 0)).map (fun p => execDrainWrite p.page) ++
  (s.snap.pages.filter fun p => p.st == 1 && s.fresh % 16 == 0).map (fun p => execPageRetire p.page) ++
  [execDrainWrite 0, execLocalCut, execPlaneChangeApply]

/-- The steps that end waits. -/
def waitSteps (s : State) : List (State → Out) :=
  s.perSlice execQueueStepServed ++ s.perSlice execBarRelease ++ s.perSlice execAbwaitRelease ++
  s.perSlice execWaitwRelease ++ s.perSlice execWaitcSatisfied ++ s.perSlice execReservationExpire ++
  (s.blocks.map fun p => execRendFire p.1) ++ s.turnOrder.map execGangForm ++
  s.turnOrder.map execHelperForcedRelease

/-- The steps of residence, and of the work distributor. -/
def placeSteps (s : State) : List (State → Out) :=
  s.turnOrder.map execParkSaveComplete ++ (s.cores.map fun p => execWarpRestore p.1) ++
  (s.blocks.flatMap fun p => [execBlockEnd p.1, execBlockSuspend p.1]) ++
  (s.dist.woken.map fun x => execQueueWake x.1 x.2) ++ (s.dist.reading.map fun x => execRecordTake x.1 x.2) ++
  (s.ctxs.map fun p => execBlockPlace p.1) ++ (s.cores.map fun p => execSplitAdopt p.1) ++
  [execContextBoundary 0, execContextBoundary 1]

/-- The steps of issue: a ready warp takes a free place of its port's active set, on one step in 128 an aged one goes ahead
(log entry 12); then the next context in turn issues; then what has waited parks. -/
def issueSteps (s : State) : List (State → Out) :=
  s.turnOrder.map execWarpActivate ++
  (if s.fresh % 128 = 0 then (s.turnOrder.filter fun k => s.pendingReady k).map execAgePromotion else []) ++
  s.perSlice issueStep ++ s.turnOrder.map execParkDelayExpiry

/-- The default order. -/
def defaultSteps (s : State) : List (State → Out) :=
  trapSteps s ++ engineSteps s ++ waitSteps s ++ placeSteps s ++ issueSteps s

/-- The writes of flag operations that take place of themselves between two steps: of each operation that is no matrix
operation any of its writes, tiles' in program order (R75, R304; which of them is a free choice, log entry 78). -/
def landed (k : Nat) (o : FlagOp) (s : State) : List Effect :=
  let pick := fun (i : Nat) => Config.freeNat (2 ^ 64 * (s.fresh + 1) + 2 ^ 20 * o.id + i) % 2 == 1
  let ws := o.writes.zipIdx
  let now := ws.filter fun p => pick p.2 && !(p.1.inTile && (s.ctl k).tileBehind o)
  if ws.isEmpty then []
  else now.map (fun p => regEffect s k p.1 o.sup) ++
    [.ctl k ((s.ctl k).onOp o.id fun o => { o with writes := (ws.filter fun p => !now.contains p).map Prod.fst })]

/-- The writes of a copy command that take place of themselves between two steps: any of those that need not wait (R75, R269;
which of them is a free choice, log entry 78). Of the rows of a scatter that overlap the later one stands (R267). -/
def landing (id : Nat) (s : State) : List Effect :=
  match s.copies.find? fun c => c.id == id with
  | none => []
  | some c =>
    let ws := c.lands.zipIdx
    let free := fun (p : (Space × Nat × List Byte) × Nat) =>
      Config.freeNat (2 ^ 64 * (s.fresh + 1) + 2 ^ 63 + 2 ^ 20 * id + p.2) % 2 == 1
        && !s.placeWaits (s.epochOf c.k) { sp := p.1.1, off := p.1.2.1 }
        && !(copyKind c.wordv == 4 && ws.any fun q =>
              decide (q.2 < p.2) && q.1.1 == p.1.1 && q.1.2.1 / 4 == p.1.2.1 / 4)
    let now := ws.filter free
    if now.isEmpty then []
    else chain s (now.map (fun p => landUnit (s.epochOf c.k) p.1) ++
      [onCopy id fun y => { y with lands := (ws.filter fun p => !now.contains p).map Prod.fst }])

/-- What comes about between two steps without one of its own: writes in flight take place (R75, R269), a snapshot whose
last channel is closed and last page has left is complete (R414), units in training are done (R424), what came for a combine
buffer's owner while it was suspended reaches it after its restore (R367), a parted warp whose slices are all stalled or
have yielded parks (R43), and a parked warp that is ready enters its core's ready queue (R47, R53). -/
def between (s : State) : List Effect :=
  chain s (
    (s.warps.flatMap fun p => p.2.ctl.flagOps.map fun o => landed p.1 o) ++
    (s.copies.map fun c => landing c.id) ++ [settleSnap, trained] ++
    (s.blocks.map fun p => wakeOwner p.1) ++ (s.cmbs.map fun x => settleDue x.ctx x.buf) ++
    (s.warps.map Prod.fst).map (fun k => fun s => if s.partsNow k then startParking k s else []) ++
    (s.warps.map Prod.fst).map fun k => fun s =>
      if (s.ctl k).st = .parkedWaiting && s.ready k then makeReady s k else [])

/-- The state in which the next step finds the machine. -/
def State.settled (s : State) : State := applyAll (between s) s

/-- The next step from a state: a step that a write to the management range has asked for (R13), else the next named move,
else by the default order. -/
def stepFrom (s : State) : Out :=
  match s.todo, s.sched with
  | i :: rest, _ => exec i { s with todo := rest }
  | [], m :: rest => runMove m { s with sched := rest }
  | [], [] => firstOf s (defaultSteps s)

/-- The step of the chip. -/
def stepOf (s : State) : Out := stepFrom s.settled

end Sys2Proof.Machine
end

