-- ==== Sys2Proof/Machine/Step.lean ====
section
/-! DEFINITION. The step of the machine, and the state in which it fetches a given instruction next. -/
namespace Sys2Proof.Machine

/-- One step of the chip (Machine/Schedule.lean). -/
def step (s : State) : Out := stepOf s

/-- The words of an instruction whose bits are numbered as the opcode table numbers them, operand words of zeros after
them. -/
def tableWords (nbits w : Nat) : List Word :=
  let n := w % 2 ^ nbits
  [word n, word (n / 2 ^ 32), word (n / 2 ^ 64), 0, 0]

/-- The role whose port a word of the table runs on (R30): copy for the copy commands, maths for the matrix
words, exec else. -/
def wordRole (w : Nat) : Nat :=
  let op := w / 2 ^ 24 % 256
  if 0xD8 ≤ op ∧ op ≤ 0xDF then 2 else if 0xE0 ≤ op ∧ op ≤ 0xE2 then 1 else 0

/-- An element type that a word of the table admits (R58): i32 where it can be. -/
def wordType (w : Nat) : Nat :=
  let op := w / 2 ^ 24 % 256
  if 0xA0 ≤ op ∧ op ≤ 0xA5 then 0x14
  else if 0x80 ≤ op ∧ op ≤ 0xAF then 0x0C
  else if 0x64 ≤ op ∧ op ≤ 0x6D then 8
  else if 0x74 ≤ op ∧ op ≤ 0x75 then 0x17
  else if op = 0xE0 then 0
  else if op = 0xE1 then 0x0E
  else 2

/-- A block of context 0 on core 0 that holds every warp and every resource (R33). -/
def probeBlock : Block :=
  { img := { ne := 24, nm := 8, nc := 4, vbe := 256, vbm := 256, vbc := 256, tiles := 16, shblk := 65536 } }

/-- A warp in the middle of a clause that holds the given words, every lane live and active. -/
def probeWarp (role ty : Nat) (ws : List Word) : Warp :=
  Warp.created {
    role, vb := 256, launched := BitVec.allOnes 32, st := .active
    slices := List.replicate 8 { inClause := true, words := ws, mode := BitVec.ofNat 16 (2048 * ty) } }
    0 0 (BitVec.allOnes 32)

/-- A state with an instruction where the next step fetches it: block 0, its lead, maths or copy warp in a clause that
holds the instruction's words, and that warp's turn (log entry 13). -/
def State.withFetchWord (s : State) (nbits w : Nat) : State :=
  let role := wordRole w
  let k := if role = 2 then 32 else if role = 1 then 24 else 0
  { s with
    blocks := put s.blocks 0 probeBlock
    warps := put s.warps k (probeWarp role (wordType w) (tableWords nbits w))
    todo := [], sched := [.issue k 0] }

end Sys2Proof.Machine
end

