-- ==== Sys2Proof/Safety.lean ====
section
/-! DEFINITION. What the claims call a sound state, and the terms in which they say what a word does and what it leaves
alone. -/
namespace Sys2Proof.Machine

/-- Every listed address of a sparse store lies below a bound. -/
def Sparse.below {w : Nat} (n : Nat) (m : Sparse w) : Bool := m.all fun p => decide (p.1 < n)

/-- A sound warp or helper context: its register stores are canonical and hold only the registers of R38 (8,192 vector
elements, s0 to s159, m0 to m14, the supervisor copies), and its LFSR state is not zero (R39). -/
def Warp.Ok (w : Warp) : Prop :=
  (w.v.wf ∧ w.v.below 8192) ∧ (w.s.wf ∧ w.s.below 160) ∧ (w.m.wf ∧ w.m.below 15) ∧ (w.sup.wf ∧ w.sup.below 161) ∧
    w.lfsr ≠ 0

/-- A sound state: physical memory, every block's shared memory and acc tiles are in canonical form, and every warp is
sound. -/
def State.Inv (s : State) : Prop :=
  Memory.wf s.mem ∧ (∀ p ∈ s.shared, p.2.wf) ∧ (∀ p ∈ s.tiles, p.2.wf) ∧ ∀ p ∈ s.warps, p.2.Ok

/-- The issuing warp or helper context is there, and sound. -/
def State.Issuing (s : State) (w : Warp) : Prop := find s.warps s.cur = some w ∧ w.Ok

/-- The issue of a word by the issuing slices. -/
def State.at (s : State) (w : Warp) : Issue := ⟨s, s.cur, s.slices, w⟩

/-- The state in which a word takes its effects. -/
def State.ticked (s : State) : State := applyAll (tick s s.cur s.slices) s

/-- The state after a word: its effects, then what follows the word, and the counter of free values advances. A word that
is to issue again has not issued. -/
def State.retire (s : State) (es : List Effect) (f : Flow) : State :=
  let s1 := applyAll es (if f = .again then s else s.ticked)
  apply .fresh (applyAll (follow s s1 s.cur s.slices f) s1)

/-- The issue of a word as its meaning sees it: after the marks of the issuing slices clear (R122, R245). -/
def State.seen (s : State) : Issue := ⟨s.ticked, s.cur, s.slices, s.ticked.warp s.cur⟩

/-- The decoder's checks of a word, one clause for each (R31, R311, R312). -/
structure Chk.Passes (x : Chk) (I : Issue) : Prop where
  legal : x.legal = true
  helper : I.c.helper.isSome = true → x.helper = true ∧ x.cls ≠ .b ∧ x.cls ≠ .l
  copyPort : x.cls = .c → I.c.role = 2
  mathsPort : x.cls = .m → I.c.role = 1
  execPort : x.cls = .e → I.c.role = 0
  lead : x.cls = .l → I.c.role = 0 ∧ warpNo I.k = 0
  mode : x.priv = true ∨ x.cls = .s → I.c.priv = true
  vector : ∀ r ∈ x.vs, r < I.c.vbudget
  scalar : ∀ n ∈ x.ss, n < I.c.sbudget
  tile : ∀ t ∈ x.tiles, t < I.blk.img.tiles
  view : ∀ p, I.c.span = some p → I.c.priv = false → bit (x.dlanes.getD I.active) p.lane = true →
    ∀ r ∈ x.dst, viewSize I.c ≤ r

/-- The issuing context is sound, and may execute a word with these checks. -/
def State.Admits (s : State) (w : Warp) (x : Chk) : Prop := s.Issuing w ∧ x.Passes (s.at w)

/-- Nothing but the listed contexts' records has changed. -/
def State.OnlyContexts (s t : State) (K : Nat → Prop) : Prop :=
  t = { s with warps := t.warps, fresh := s.fresh + 1 } ∧ ∀ k, ¬K k → find t.warps k = find s.warps k

/-- Nothing outside the issuing context has changed: no byte of memory, shared memory or tile, no register of another
context, no system register. -/
def State.OnlyIssuer (s t : State) : Prop := s.OnlyContexts t (· = s.cur)

/-- The issuing context's registers but for the named scalar registers, masks and vector elements are as they were. -/
def State.SameRegs (s t : State) (S M : Nat → Prop) (V : Nat → Nat → Prop) : Prop :=
  (∀ n, ¬S n → (t.warp s.cur).readS n = (s.warp s.cur).readS n) ∧
  (∀ n, ¬M n → (t.warp s.cur).readM n = (s.warp s.cur).readM n) ∧
  (∀ r l, l < 32 → ¬V r l → (t.warp s.cur).readV r l = (s.warp s.cur).readV r l)

/-- The issuing context's control state after a word that changes nothing in it but to leave the word by a flow. -/
def State.leaving (s : State) (f : Flow) : Ctl :=
  ((s.ctl s.cur).ticked s.fresh s.slices).after s.fresh (liveSlices (s.warp s.cur)) s.slices
    (!(s.lent s.cur).isEmpty) f

/-- A word that changes only registers of its context: the named ones, the LFSR to a given state, and what leaving the
word changes. -/
def State.RegWord (s t : State) (S M : Nat → Prop) (V : Nat → Nat → Prop) (f : Flow)
    (q : Word := (s.warp s.cur).lfsr) : Prop :=
  s.OnlyIssuer t ∧ s.SameRegs t S M V ∧ (t.warp s.cur).lfsr = q ∧ t.ctl s.cur = s.leaving f

/-- An instruction of two forms: B a vector register or a scalar operand. -/
def twoForms (vv : Nat → Nat → Nat → Instr) (vs : Nat → Nat → SOp → Instr) (d a : Nat) : Opnd → Instr
  | .v r => vv d a r
  | .s x => vs d a x

/-- An instruction of one source, in its two forms. -/
def oneSource (vv : Nat → Nat → Instr) (vs : Nat → SOp → Instr) (d : Nat) : Opnd → Instr
  | .v r => vv d r
  | .s x => vs d x

/-- The value that a mask write leaves of x: all of it from a gang, only the issuing lanes' bits from a parted slice (R40,
R109), in the bits that the context has. -/
def Issue.maskKept (I : Issue) (d : Nat) (x : Word) : Word :=
  (if I.c.parted then (I.w.readM d &&& ~~~ word I.lanes) ||| (x &&& word I.lanes) else x) &&& maskBits I.c

/-- No register of a kind. -/
def noReg : Nat → Prop := fun _ => False
def noLane : Nat → Nat → Prop := fun _ _ => False

/-- A word completes and writes one value to one scalar register; nothing else changes. -/
def State.GivesScalar (s : State) (i : Instr) (d : Nat) (x : Word) : Prop :=
  ∃ t, exec i s = .next t ∧ (t.warp s.cur).readS d = x ∧ s.RegWord t (· = d) noReg noLane .next

/-- A word completes and writes a 64-bit value to a pair of scalar registers, its low half to the even one; nothing else
changes. -/
def State.GivesPair (s : State) (i : Instr) (d : Nat) (x : DWord) : Prop :=
  ∃ t, exec i s = .next t ∧ (t.warp s.cur).readS (d + 1) ++ (t.warp s.cur).readS d = x ∧
    s.RegWord t (fun n => n = d ∨ n = d + 1) noReg noLane .next

/-- A word completes and writes in every active lane a value to each register of a list, and steps the LFSR to a given
state; nothing else changes. -/
def State.GivesVector (s : State) (w : Warp) (i : Instr) (rs : List Nat) (x : Nat → Nat → Word)
    (q : Word := w.lfsr) : Prop :=
  ∃ t, exec i s = .next t ∧ (∀ r ∈ rs, ∀ l ∈ (s.at w).act, (t.warp s.cur).readV r l = x r l) ∧
    s.RegWord t noReg noReg (fun r l => r ∈ rs ∧ l ∈ (s.at w).act) .next q

/-- The word that a result of a type puts in each of its destination registers (R59). -/
def resultIn (ty d x r : Nat) : Word :=
  if is64 ty then (if r = d then word x else word (x / 2 ^ 32)) else word (storeBits ty x)

/-- A word completes and writes in every active lane a result of TYPE to its destination, a pair for a 64-bit type;
nothing else changes. -/
def State.GivesTyped (s : State) (w : Warp) (i : Instr) (d : Nat) (x : Nat → Nat)
    (q : Word := w.lfsr) : Prop :=
  s.GivesVector w i (vregs (s.at w).ty d) (fun r l => resultIn (s.at w).ty d (x l) r) q

/-- A word completes and writes a value to mask register d; a write to m14 or m15 is discarded. Nothing else changes, but
that a write of m0 may ask the helpers that serve on the warp's slices for their release (R318): of those contexts only
the control state may change. -/
def State.GivesMask (s : State) (w : Warp) (i : Instr) (d : Nat) (x : Word) : Prop :=
  ∃ t, exec i s = .next t ∧ (d < 14 → (t.warp s.cur).readM d = (s.at w).maskKept d x) ∧
    s.OnlyContexts t (fun k => k = s.cur ∨ (d = 0 ∧ k ∈ (s.lent s.cur).map Prod.fst)) ∧
    (∀ k y, k ≠ s.cur → find s.warps k = some y → ∃ c, find t.warps k = some { y with ctl := c }) ∧
    s.SameRegs t noReg (fun n => n = d ∧ d < 14) noLane ∧ (t.warp s.cur).lfsr = w.lfsr ∧ t.ctl s.cur = s.leaving .next

/-- A word completes and does nothing but leave the word by a flow. -/
def State.GivesFlow (s : State) (i : Instr) (f : Flow) : Prop :=
  ∃ t, exec i s = .next t ∧ s.RegWord t noReg noReg noLane f

/-- A word completes with its effects and leaves by a flow. -/
def State.Retires (s : State) (i : Instr) (r : List Effect × Flow) : Prop := exec i s = .next (s.retire r.1 r.2)

/-- A word raises a trap, and nothing but that trap and the counter of free values changes: it is pending in its context,
with the fields its record takes from the word. -/
def State.Traps (s : State) (w : Warp) (i : Instr) (once : Bool) (t : Trap) : Prop :=
  exec i s = commit s (raise s s.cur ((s.at w).fill once t))

/-- What a release waits for inside the chip (R217, R226) is met: loads from other chips have their replies, the warp's
matrix operations have read their operands, and its queued stores can become visible. -/
def State.released (s : State) : Prop := s.seen.holdBack = none ∧ s.ticked.drainable s.cur = true

/-- A word that releases, where it need not wait: the warp's queued stores become visible in order, then its own effects
follow in the state they leave. -/
def State.Releases (s : State) (i : Instr) (rest : List (State → List Effect)) (f : Flow) : Prop :=
  s.released → s.Retires i (chain s.ticked ((fun s' => drainAll s' s.cur) :: rest), f)

/-- The state of the LFSR after a word that rounds: one step under rs, none otherwise (R84). -/
def lfsrAfter (I : Issue) : Word := if I.rnd = 5 then lfsrStep I.w.lfsr else I.w.lfsr

/-- An event completes with its effects. -/
def State.Commits (s : State) (i : Instr) (es : List Effect) : Prop := exec i s = .next (apply .fresh (applyAll es s))

/-- An event takes place with its effects where it can; where it cannot, nothing happens. -/
def State.Event (s : State) (i : Instr) (on : Prop) (es : List Effect) : Prop :=
  (on → s.Commits i es) ∧ (¬on → s.Commits i [])

/-- A place that holds a value: a byte of physical or shared memory, an element of a tile, an element or register of a
context (the supervisor copies apart), its LFSR, a context's system registers, a block, the management registers. -/
inductive Spot where
  | mem (a : Nat)
  | shared (b a : Nat)
  | tile (b i : Nat)
  | vec (k r l : Nat)
  | scalar (k n : Nat)
  | sup (k n : Nat)
  | mask (k n : Nat)
  | lfsr (k : Nat)
  | ctx (c : Nat)
  | block (b : Nat)
  | mgmt
  deriving DecidableEq, Repr

/-- The context whose register a place is. -/
def Spot.key : Spot → Option Nat
  | .vec k _ _ | .scalar k _ | .sup k _ | .mask k _ | .lfsr k => some k
  | _ => none

/-- Two states agree on a place. -/
def State.Same (s t : State) : Spot → Prop
  | .mem a => t.mem.read a = s.mem.read a
  | .shared b a => (t.sh b).get a = (s.sh b).get a
  | .tile b i => (t.acc b).get i = (s.acc b).get i
  | .vec k r l => l < 32 → (t.warp k).readV r l = (s.warp k).readV r l
  | .scalar k n => (t.warp k).s.get n = (s.warp k).s.get n
  | .sup k n => (t.warp k).sup.get n = (s.warp k).sup.get n
  | .mask k n => (t.warp k).m.get n = (s.warp k).m.get n
  | .lfsr k => (t.warp k).lfsr = (s.warp k).lfsr
  | .ctx c => t.ctxOf c = s.ctxOf c
  | .block b => find t.blocks b = find s.blocks b
  | .mgmt => t.mgmt = s.mgmt

/-- The places that an effect may change. -/
def Effect.hits (e : Effect) (x : Spot) : Prop :=
  match e with
  | .vreg k r l _ => x = .vec k r l
  | .sreg k n _ | .sregOf k _ n _ => x = .scalar k n ∨ x = .sup k n
  | .mask k n _ => x = .mask k n ∨ (n = 0 ∧ x = .sup k supM0)
  | .live k _ => x = .mask k 14
  | .lfsr k _ => x = .lfsr k
  | .newWarp k _ _ _ _ => x.key = some k
  | .delWarp k => x.key = some k
  | .block b _ => x = .block b
  | .clearBlock b => (∃ a, x = .shared b a) ∨ ∃ i, x = .tile b i
  | .delBlock b => (∃ a, x = .shared b a) ∨ (∃ i, x = .tile b i) ∨ x = .block b ∨ ∃ k, x.key = some k ∧ blockOf k = b
  | .store sp off bytes _ =>
    match sp with
    | .phys => ∃ i, i < bytes.length ∧ x = .mem (off + i)
    | .shared b => ∃ i, i < bytes.length ∧ x = .shared b (off + i)
    | .reg k => ∃ i, i < bytes.length ∧ x = .vec k ((off + i) / 128) ((off + i) % 128 / 4)
    | .remote _ => False
  | .write off bytes _ _ => ∃ i, i < bytes.length ∧ x = .mem (off + i)
  | .zero off n => ∃ i, i < n ∧ x = .mem (off + i)
  | .tile b i _ => x = .tile b i
  | .ctx c _ => x = .ctx c
  | .mgmt _ => x = .mgmt
  | .wipe => True
  | _ => False

end Sys2Proof.Machine
end

