-- ==== Sys2Proof/Certificates/Slice0/Obligations.lean ====
section
/-! DEFINITION. The statements that the provers are to prove, each named for what it states. -/
open Sys2Proof Sys2Proof.Machine

/-- R102, with the frame: each scalar ALU word completes on every state in which a sound context issues it and its scalar
registers lie within the budget, writes the table's result to s[D], and changes nothing else. -/
def Obligations.ScalarAluWritesTableResult : Prop :=
  ∀ (s : State) (w : Warp) (d : Nat) (a b : SOp), s.Issuing w → (∀ n ∈ d :: (opRegs a ++ opRegs b), n < w.ctl.sbudget) →
    let x := (s.at w).op a
    let y := (s.at w).op b
    s.GivesScalar (.smov d a) d x ∧
    s.GivesScalar (.sadd d a b) d (x + y) ∧
    s.GivesScalar (.ssub d a b) d (x - y) ∧
    s.GivesScalar (.smul d a b) d (x * y) ∧
    s.GivesScalar (.smulh d a b) d (word (x.toNat * y.toNat / 2 ^ 32)) ∧
    s.GivesScalar (.sand d a b) d (x &&& y) ∧
    s.GivesScalar (.sor d a b) d (x ||| y) ∧
    s.GivesScalar (.sxor d a b) d (x ^^^ y) ∧
    s.GivesScalar (.sshl d a b) d (if 32 ≤ y.toNat then 0 else word (x.toNat * 2 ^ y.toNat)) ∧
    s.GivesScalar (.sshr d a b) d (if 32 ≤ y.toNat then 0 else word (x.toNat / 2 ^ y.toNat)) ∧
    s.GivesScalar (.ssar d a b) d (BitVec.ofInt 32 (x.toInt / 2 ^ min y.toNat 31)) ∧
    s.GivesScalar (.smin d a b) d (BitVec.ofInt 32 (min x.toInt y.toInt)) ∧
    s.GivesScalar (.smax d a b) d (BitVec.ofInt 32 (max x.toInt y.toInt)) ∧
    s.GivesScalar (.spopc d a) d (word ((List.range 32).countP fun i => x.getLsbD i)) ∧
    ∃ n, n ≤ 32 ∧ s.GivesScalar (.sclz d a) d (word n) ∧ (∀ i, i < 32 → 32 - n ≤ i → x.getLsbD i = false) ∧
      (n < 32 → x.getLsbD (31 - n) = true)

/-- R103 to R105: SBFE and SBFI bit by bit, SCMP's relation bits, SSEL on the old s[D], and SADDP modulo 2^64 on pairs. -/
def Obligations.ScalarFieldsRelationsAndPairs : Prop :=
  ∀ (s : State) (w : Warp) (d : Nat) (a b : SOp), s.Issuing w → (∀ n ∈ d :: (opRegs a ++ opRegs b), n < w.ctl.sbudget) →
    let x := (s.at w).op a
    let y := (s.at w).op b
    let pos := y.toNat % 32
    let n := min (y.toNat / 2 ^ 8 % 64) (32 - pos)
    (∃ z, s.GivesScalar (.sbfe d a b) d z ∧ ∀ i, i < 32 →
      z.getLsbD i = if i < n then x.getLsbD (pos + i) else decide (0 < n) && y.getLsbD 16 && x.getLsbD (pos + n - 1)) ∧
    (∃ z, s.GivesScalar (.sbfi d a b) d z ∧ ∀ i, i < 32 →
      z.getLsbD i = if pos ≤ i ∧ i < pos + n then x.getLsbD (i - pos) else ((s.at w).rs d).getLsbD i) ∧
    s.GivesScalar (.scmp d a b) d (word ((if x = y then 1 else 0) + (if x.toInt < y.toInt then 2 else 0)
      + (if x.toNat < y.toNat then 4 else 0) + (if y.toInt < x.toInt then 8 else 0)
      + (if y.toNat < x.toNat then 16 else 0))) ∧
    s.GivesScalar (.ssel d a b) d (if (s.at w).rs d = 0 then y else x) ∧
    ∀ p, (∀ n ∈ [d + 1, p, p + 1], n < w.ctl.sbudget) →
      s.GivesPair (.saddp d p b) d ((s.at w).pair p + y.signExtend 64)

/-- R107: GETID's nine selectors, whatever m0, the guard and the mode. -/
def Obligations.GetidNamesTheIssuer : Prop :=
  ∀ (s : State) (w : Warp) (d : Nat), s.Issuing w → d < w.ctl.sbudget →
    s.GivesScalar (.getid d 0) d (word (lowest 32 (((s.at w).m 14).toNat &&& lanesOf s.slices))) ∧
    s.GivesScalar (.getid d 1) d (word (lowest 8 s.slices)) ∧
    s.GivesScalar (.getid d 2) d (word (warpNo s.cur)) ∧
    s.GivesScalar (.getid d 3) d (word w.ctl.role) ∧
    s.GivesScalar (.getid d 4) d (word (s.blk (blockOf s.cur)).idx) ∧
    s.GivesScalar (.getid d 5) d (word (coreOf s.cur % 96 % 16)) ∧
    s.GivesScalar (.getid d 6) d (word (coreOf s.cur % 96)) ∧
    s.GivesScalar (.getid d 7) d (word (dieOf s.cur)) ∧
    s.GivesScalar (.getid d 8) d (word s.chip)

/-- R108, R109: the mask words. A write to m14 or m15 is discarded; a parted slice changes only its own lanes' bits; MPOPC,
MFFS and MGET write the whole scalar register. -/
def Obligations.MaskWordsWriteOneMask : Prop :=
  ∀ (s : State) (w : Warp) (d a b : Nat) (x : SOp), s.Issuing w → (∀ n ∈ opRegs x, n < w.ctl.sbudget) →
    s.GivesMask w (.mand d a b) d ((s.at w).m a &&& (s.at w).m b) ∧
    s.GivesMask w (.mor d a b) d ((s.at w).m a ||| (s.at w).m b) ∧
    s.GivesMask w (.mxor d a b) d ((s.at w).m a ^^^ (s.at w).m b) ∧
    s.GivesMask w (.mandn d a b) d ((s.at w).m a &&& ~~~ (s.at w).m b) ∧
    s.GivesMask w (.mnot d a) d (~~~ (s.at w).m a) ∧
    s.GivesMask w (.mmov d a) d ((s.at w).m a) ∧
    s.GivesMask w (.mset d x) d ((s.at w).op x) ∧
    ∀ r, r < w.ctl.sbudget →
      s.GivesScalar (.mpopc r a) r (word ((List.range 32).countP fun i => ((s.at w).m a).getLsbD i)) ∧
      s.GivesScalar (.mget r a) r ((s.at w).m a) ∧
      ∃ n, n ≤ 32 ∧ s.GivesScalar (.mffs r a) r (word n) ∧ (∀ i, i < n → ((s.at w).m a).getLsbD i = false) ∧
        (n < 32 → ((s.at w).m a).getLsbD n = true)

/-- R101: a warp-level word ignores TYPE, RND, SAT, FZ and the guard: two states that differ only in the modes of the
issuing context's slices give the same value. -/
def Obligations.ScalarWordsIgnoreTheMode : Prop :=
  ∀ (s : State) (w : Warp) (mode : BitVec 16) (d : Nat) (a b : SOp), s.Issuing w →
    (∀ n ∈ d :: (opRegs a ++ opRegs b), n < w.ctl.sbudget) →
    let w' : Warp := { w with ctl := w.ctl.onSlices 255 fun x => { x with mode, modeSup := mode } }
    let s' : State := { s with warps := put s.warps s.cur w' }
    ∀ i ∈ [Instr.smov d a, .sadd d a b, .ssub d a b, .smul d a b, .smulh d a b, .sand d a b, .sor d a b, .sxor d a b,
        .sshl d a b, .sshr d a b, .ssar d a b, .smin d a b, .smax d a b, .scmp d a b, .ssel d a b, .sbfe d a b, .sbfi d a b,
        .spopc d a, .sclz d a],
      ∀ t t', exec i s = .next t → exec i s' = .next t' → (t.warp s.cur).readS d = (t'.warp s.cur).readS d

/-- R133 to R135: the arithmetic words under every type they admit. Each element's exact value is clamped under SAT = 1 for
I and P types, else reduced modulo 2^w, and stored by R59; inactive lanes and every other register keep their values. The
second part says what clamping and reducing give. -/
def Obligations.VectorArithmeticWritesExactElements : Prop :=
  (
  ∀ (s : State) (w : Warp) (d a : Nat) (b : Opnd), d < 256 →
    let I := s.at w
    let ty := I.ty
    s.Admits w { cls := .e, legal := okReg ty d && okReg ty a && b.legal ty
                 vs := vregs ty d ++ vregs ty a ++ b.vs ty, ss := b.ss ty, dst := vregs ty d } →
    let x := fun l h => ielem ty (I.vsrc ty a l) h
    let y := fun l h => ielem ty (I.opnd ty l b) h
    let z := fun l h => ielem ty (I.vsrc ty d l) h
    let fit := fitElem ty I.sat
    let p := intElem ty
    ((isI ty ∨ isB ty ∨ isP ty) →
      s.GivesTyped w (twoForms .addVv .addVs d a b) d (fun l => byElem ty fun h => fit (x l h + y l h)) ∧
      s.GivesTyped w (twoForms .subVv .subVs d a b) d (fun l => byElem ty fun h => fit (x l h - y l h)) ∧
      s.GivesTyped w (twoForms .mulVv .mulVs d a b) d (fun l => byElem ty fun h => fit (x l h * y l h))) ∧
    ((isI ty ∨ isP ty) →
      s.GivesTyped w (twoForms .minVv .minVs d a b) d (fun l => byElem ty fun h => fit (min (x l h) (y l h))) ∧
      s.GivesTyped w (twoForms .maxVv .maxVs d a b) d (fun l => byElem ty fun h => fit (max (x l h) (y l h))) ∧
      s.GivesTyped w (twoForms .absdVv .absdVs d a b) d (fun l => byElem ty fun h =>
        if I.sat = true ∧ p.2 = true then min (x l h - y l h).natAbs (2 ^ (p.1 - 1) - 1)
        else (x l h - y l h).natAbs % 2 ^ p.1)) ∧
    (ty ∈ [2, 6, 8, 0x16] →
      s.GivesTyped w (twoForms .madVv .madVs d a b) d (fun l => byElem ty fun h => fit (x l h * y l h + z l h))) ∧
    (ty ∈ [2, 6, 0x16] →
      s.GivesTyped w (twoForms .mulhVv .mulhVs d a b) d (fun l => byElem ty fun h =>
        fitElem ty false (x l h * y l h / 2 ^ elemBits ty))) ∧
    (isP ty →
      s.GivesTyped w (twoForms .dp4Vv .dp4Vs d a b) d (fun l =>
        fitInt 32 true I.sat ((span 0 (elems ty)).foldl (fun t h => t + x l h * y l h) (signed 32 (I.vsrc ty d l)))))) ∧
  (
  ∀ (ty : Nat) (x : Int), (isI ty ∨ isB ty ∨ isP ty) →
    let w := elemBits ty
    let signedType := ty < 4 ∨ isP ty
    let lo : Int := if signedType then -2 ^ (w - 1) else 0
    let hi : Int := if signedType then 2 ^ (w - 1) - 1 else 2 ^ w - 1
    (fitElem ty false x : Int) = x % 2 ^ w ∧
    (isB ty → fitElem ty true x = fitElem ty false x) ∧
    (isB ty = false → (fitElem ty true x : Int) = max lo (min x hi) % 2 ^ w) ∧
    (isB ty = false → lo ≤ x → x ≤ hi → fitElem ty true x = fitElem ty false x))

/-- R134, R137, R138, R140, R141: the bitwise words, shifts, bit fields, PRMT and SEL, under every type they admit. -/
def Obligations.VectorLogicAndShiftsWritePatterns : Prop :=
  ∀ (s : State) (w : Warp) (d a : Nat) (b : Opnd), d < 256 →
    let I := s.at w
    let ty := I.ty
    s.Admits w { cls := .e, legal := okReg ty d && okReg ty a && b.legal ty
                 vs := vregs ty d ++ vregs ty a ++ b.vs ty, ss := b.ss ty, dst := vregs ty d } →
    let n := elemBits ty
    let x := fun l h => elem ty (I.vsrc ty a l) h
    let y := fun l h => elem ty (I.opnd ty l b) h
    let c := fun l h => min (if isP ty then y l h else I.opnd ty l b % 2 ^ 32) n
    ((isI ty ∨ isB ty ∨ isP ty) →
      s.GivesTyped w (twoForms .andVv .andVs d a b) d (fun l => byElem ty fun h => x l h &&& y l h) ∧
      s.GivesTyped w (twoForms .orVv .orVs d a b) d (fun l => byElem ty fun h => x l h ||| y l h) ∧
      s.GivesTyped w (twoForms .xorVv .xorVs d a b) d (fun l => byElem ty fun h => x l h ^^^ y l h) ∧
      s.GivesTyped w (twoForms .shlVv .shlVs d a b) d (fun l => byElem ty fun h =>
        fitElem ty I.sat (ielem ty (I.vsrc ty a l) h * 2 ^ c l h)) ∧
      s.GivesTyped w (twoForms .shrVv .shrVs d a b) d (fun l => byElem ty fun h => x l h / 2 ^ c l h) ∧
      s.GivesTyped w (twoForms .sarVv .sarVs d a b) d (fun l => byElem ty fun h =>
        pattern n (signed n (x l h) / (2 ^ c l h : Nat)))) ∧
    (ty ∈ [2, 6, 8] →
      s.GivesTyped w (twoForms .bfeVv .bfeVs d a b) d (fun l =>
        let y := I.opnd ty l b
        let m := min (y / 2 ^ 8 % 64) (32 - y % 32)
        let f := I.vsrc ty a l / 2 ^ (y % 32) % 2 ^ m
        if ty = 2 ∧ 0 < m then pattern 32 (signed m f) else f) ∧
      s.GivesTyped w (twoForms .bfiVv .bfiVs d a b) d (fun l =>
        let y := I.opnd ty l b
        let p := y % 32
        let m := min (y / 2 ^ 8 % 64) (32 - p)
        let z := I.vsrc ty d l
        z - z / 2 ^ p % 2 ^ m * 2 ^ p + I.vsrc ty a l % 2 ^ m * 2 ^ p)) ∧
    (ty = 8 →
      s.GivesTyped w (twoForms .prmtVv .prmtVs d a b) d (fun l =>
        unelem 8 ((span 0 4).map fun k =>
          let sel := I.vsrc ty d l / 2 ^ (4 * k) % 16
          let byte := (I.vsrc ty a l + 2 ^ 32 * I.opnd ty l b) / 2 ^ (8 * (sel % 8)) % 256
          if sel < 8 then byte else if byte < 128 then 0 else 255))) ∧
    (isB ty →
      s.GivesTyped w (twoForms .selVv .selVs d a b) d (fun l =>
        if I.vsrc ty d l = 0 then I.opnd ty l b else I.vsrc ty a l))

/-- R139, R141: the single-source words, MOV in both forms and CMP. -/
def Obligations.OneSourceWordsAndCmp : Prop :=
  ∀ (s : State) (w : Warp) (d a : Nat) (b : Opnd), d < 256 →
    let I := s.at w
    let ty := I.ty
    let n := elemBits ty
    (s.Admits w { cls := .e, legal := okReg ty d && b.legal ty, vs := vregs ty d ++ b.vs ty, ss := b.ss ty
                  dst := vregs ty d } →
      (isB ty →
        s.GivesTyped w (oneSource .popcVv .popcVs d b) d (fun l => (List.range n).countP fun i => bit (I.opnd ty l b) i) ∧
        s.GivesTyped w (oneSource .clzVv .clzVs d b) d (fun l =>
          let x := I.opnd ty l b % 2 ^ n
          if x = 0 then n else n - 1 - x.log2) ∧
        ∃ f : Nat → Nat, s.GivesTyped w (oneSource .brevVv .brevVs d b) d f ∧
          ∀ l i, i < n → bit (f l) i = bit (I.opnd ty l b) (n - 1 - i)) ∧
      (∀ x, b = .s x → ty < 0x18 → s.GivesTyped w (.movVs d x) d (fun l => I.sval ty l x))) ∧
    (s.Admits w { cls := .e, legal := okReg ty d && okReg ty a && decide (ty < 0x18), vs := vregs ty d ++ vregs ty a
                  dst := vregs ty d } →
      s.GivesVector w (.movVv d a) (vregs ty d) (fun r l => I.v (if r = d then a else a + 1) l)) ∧
    (s.Admits w { cls := .e, legal := okReg ty d && okReg ty a && b.legal ty
                  vs := vregs ty d ++ vregs ty a ++ b.vs ty, ss := b.ss ty, dst := vregs ty d } → (isI ty ∨ isP ty) →
      s.GivesVector w (twoForms .cmpVv .cmpVs d a b) (vregs ty d) (fun r l =>
        if r = d then word (byElem ty fun h =>
          let x := ielem ty (I.vsrc ty a l) h
          let y := ielem ty (I.opnd ty l b) h
          if x = y then 1 else if x < y then 2 else 4) else 0))

/-- R136: the carry chain. Each active lane writes the sum or difference with its bit of m13, and its bit of m13 is the
carry or the borrow; the other lanes' bits stay. -/
def Obligations.CarryChainUsesMaskThirteen : Prop :=
  ∀ (s : State) (w : Warp) (d a : Nat) (b : Opnd) (sub : Bool), d < 256 →
    let I := s.at w
    let ty := I.ty
    ty ∈ [2, 6, 8] →
    s.Admits w { cls := .e, legal := b.legal ty, vs := [d, a] ++ b.vs ty, ss := b.ss ty, dst := [d] } →
    let x := fun l => I.vsrc ty a l
    let y := fun l => I.opnd ty l b
    let c := fun l => if (I.m 13).getLsbD l then 1 else 0
    ∃ t, exec (if sub then twoForms .subbVv .subbVs d a b else twoForms .addcVv .addcVs d a b) s = .next t ∧
      (∀ l ∈ I.act, (t.warp s.cur).readV d l =
        word (if sub then x l + 2 ^ 33 - y l - c l else x l + y l + c l)) ∧
      (∀ l, l < 32 → (maskBits w.ctl).getLsbD l → ((t.warp s.cur).readM 13).getLsbD l =
        if l ∈ I.act then (if sub then decide (x l < y l + c l) else decide (2 ^ 32 ≤ x l + y l + c l))
        else (w.readM 13).getLsbD l) ∧
      s.RegWord t noReg (· = 13) (fun r l => r = d ∧ l ∈ I.act) .next

/-- R142, R167: the conversions with uniform or per-lane target types that the word admits: each active lane writes its
converted value under its own target type, and the LFSR steps once where the word rounds under rs. The model's readings of
log entry 23: FCVT to its own TYPE rounds too (RND 6 and 7 refused, the LFSR stepped under rs), and the typed lane index
(code 0xFE) is judged in the active lanes. -/
def Obligations.ConversionsWriteEachLanesType : Prop :=
  ∀ (s : State) (w : Warp) (d a : Nat) (b : Opnd), d < 256 →
    let I := s.at w
    let ty := I.ty
    let done := fun (i : Instr) (t : Nat → Nat) (f : Nat → Nat) (q : Word) =>
      ∃ u, exec i s = .next u ∧
        (∀ l ∈ I.act, ∀ r ∈ vregs (t l) d, (u.warp s.cur).readV r l = resultIn (t l) d (f l) r) ∧
        s.RegWord u noReg noReg (fun r l => l ∈ I.act ∧ r ∈ vregs (t l) d) .next q
    let fits := fun (t : Nat → Nat) (ok : Nat → Bool) =>
      (∀ l, ((∃ x, b = .s x ∧ x ≠ .laneid) ∨ l ∈ I.act) → ok (t l)) ∧
      ∀ l ∈ I.act, is64 (t l) → d % 2 = 0 ∧ d + 1 < w.ctl.vbudget
    let chk := fun (bty : Nat) (dst : List Nat) => s.Admits w
      { cls := .e, legal := okReg ty a && b.legal bty && b.evenUnder ty, vs := d :: vregs ty a ++ b.vs bty, ss := b.ss bty, dst }
    let integer := fun (t : Nat → Nat) l => match intType (t l) with
      | some p => fitInt p.1 p.2 I.sat (ielem ty (I.vsrc ty a l) 0)
      | none => 0
    let dst := fun (t : Nat → Nat) => if I.act.any (fun l => is64 (t l)) then [d, d + 1] else [d]
    (isI ty →
      (∀ r, b = .v r →
        let t := fun l => I.opnd 8 l b % 8
        chk 8 (dst t) → fits t isI → done (.cvtiVv d a r) t (integer t) w.lfsr) ∧
      (∀ x, b = .s x →
        let t := fun l => I.opnd ty l b
        chk ty (dst t) → fits t isI → done (.cvtiVs d a x) t (integer t) w.lfsr)) ∧
    (I.rnd < 6 →
      let t := fun l => I.opnd 8 l b
      let f := fun l => I.narrow (t l) l 0 (valOf ty I.fz (I.vsrc ty a l))
      chk 8 (dst t) →
      (ty ∈ [0x0A, 0x0B, 0x0C, 0x0D] → fits t isI → done (twoForms .ftoiVv .ftoiVs d a b) t f (lfsrAfter I)) ∧
      (isI ty → fits t (fun x => [0x0A, 0x0B, 0x0C, 0x0D].contains x) →
        done (twoForms .itofVv .itofVs d a b) t f (lfsrAfter I)) ∧
      (0x0A ≤ ty → ty ≤ 0x13 → fits t (fun x => decide (0x0A ≤ x) && decide (x ≤ 0x13)) →
        done (twoForms .fcvtVv .fcvtVs d a b) t f (lfsrAfter I)))

/-- R161, R165: FADD, FSUB, FMUL, FFMA and FSCALE write the exact value rounded once, under every float type; the LFSR
steps once under rs whatever the mask. -/
def Obligations.FloatArithmeticRoundsOnce : Prop :=
  ∀ (s : State) (w : Warp) (d a : Nat) (b : Opnd), d < 256 →
    let I := s.at w
    let ty := I.ty
    ty ∈ [0x0A, 0x0B, 0x0C, 0x0D, 0x14, 0x15] → I.rnd < 6 →
    let x := fun l h => I.fval (I.vsrc ty a l) h
    let y := fun l h => I.fval (I.opnd ty l b) h
    let z := fun l h => I.fval (I.vsrc ty d l) h
    let down := I.rnd == 2
    let out := fun l (f : Nat → Val) => byElem ty fun h => I.round (fmtF ty) l h (f h)
    (s.Admits w { cls := .e, legal := okReg ty d && okReg ty a && b.legal ty && b.evenUnder ty
                  vs := vregs ty d ++ vregs ty a ++ b.vs ty, ss := b.ss ty, dst := vregs ty d } →
      s.GivesTyped w (twoForms .faddVv .faddVs d a b) d (fun l => out l fun h => Val.add down (x l h) (y l h))
        (lfsrAfter I) ∧
      s.GivesTyped w (twoForms .fsubVv .fsubVs d a b) d (fun l => out l fun h => Val.add down (x l h) (y l h).neg)
        (lfsrAfter I) ∧
      s.GivesTyped w (twoForms .fmulVv .fmulVs d a b) d (fun l => out l fun h => Val.mul (x l h) (y l h))
        (lfsrAfter I) ∧
      s.GivesTyped w (twoForms .ffmaVv .ffmaVs d a b) d
        (fun l => out l fun h => Val.add down (Val.mul (x l h) (y l h)) (z l h)) (lfsrAfter I)) ∧
    (s.Admits w { cls := .e, legal := okReg ty d && okReg ty a && b.legal 8 && b.evenUnder ty
                  vs := vregs ty d ++ vregs ty a ++ b.vs 8, ss := b.ss 8, dst := vregs ty d } →
      s.GivesTyped w (twoForms .fscaleVv .fscaleVs d a b) d
        (fun l => out l fun h => (x l h).scale (clampScale (signed 32 (I.opnd 8 l b)))) (lfsrAfter I))

/-- R162 to R164, R166: the selections, comparisons, classes, exponents and integer roundings of floats. -/
def Obligations.FloatSelectionsAndTests : Prop :=
  ∀ (s : State) (w : Warp) (d a : Nat) (b : Opnd), d < 256 →
    let I := s.at w
    let ty := I.ty
    let f := fmtF ty
    ty ∈ [0x0A, 0x0B, 0x0C, 0x0D, 0x14, 0x15] →
    let x := fun l h => f.flush I.fz (elem ty (I.vsrc ty a l) h)
    let y := fun l h => f.flush I.fz (elem ty (I.opnd ty l b) h)
    let lesser := fun x y => if Val.lt (f.value x) (f.value y) then x else y
    let greater := fun x y => if Val.lt (f.value x) (f.value y) then y else x
    let strict := fun (g : Nat → Nat → Nat) x y =>
      if f.value x = .nan ∨ f.value y = .nan then f.nanBits else g x y
    let number := fun (g : Nat → Nat → Nat) x y =>
      if f.value x = .nan ∧ f.value y = .nan then f.nanBits else if f.value x = .nan then y
      else if f.value y = .nan then x else g x y
    let gives := fun (g : Nat → Nat → Nat) (i : Instr) => s.GivesTyped w i d fun l => byElem ty fun h => g (x l h) (y l h)
    (s.Admits w { cls := .e, legal := okReg ty d && okReg ty a && b.legal ty && b.evenUnder ty
                  vs := vregs ty d ++ vregs ty a ++ b.vs ty, ss := b.ss ty, dst := vregs ty d } →
      gives (strict lesser) (twoForms .fminVv .fminVs d a b) ∧
      gives (strict greater) (twoForms .fmaxVv .fmaxVs d a b) ∧
      gives (number lesser) (twoForms .fminnmVv .fminnmVs d a b) ∧
      gives (number greater) (twoForms .fmaxnmVv .fmaxnmVs d a b) ∧
      s.GivesTyped w (twoForms .fcmpVv .fcmpVs d a b) d (fun l => byElem ty fun h =>
        let x := I.fval (I.vsrc ty a l) h
        let y := I.fval (I.opnd ty l b) h
        if x = .nan ∨ y = .nan then 8 else if Val.eqv x y then 1 else if Val.lt x y then 2 else 4)) ∧
    (s.Admits w { cls := .e, legal := okReg ty d && okReg ty a && b.legal 8 && b.evenUnder ty
                  vs := vregs ty d ++ vregs ty a ++ b.vs 8, ss := b.ss 8, dst := vregs ty d } →
      s.GivesTyped w (twoForms .fclassVv .fclassVs d a b) d (fun l => byElem ty fun h =>
        f.classOf (elem ty (I.vsrc ty a l) h) &&& (I.opnd 8 l b % 1024))) ∧
    (s.Admits w { cls := .e, legal := okReg ty d && b.legal ty, vs := vregs ty d ++ b.vs ty, ss := b.ss ty
                  dst := vregs ty d } →
      s.GivesVector w (oneSource .fgetxVv .fgetxVs d b) (vregs ty d) (fun r l =>
        let n := getxBits ty
        let e := unelem n ((span 0 (elems ty)).map fun h =>
          match I.fval (I.opnd ty l b) h with
          | .fin _ num den => if num = 0 then 2 ^ (n - 1) else pattern n (ilog2 num den)
          | _ => 2 ^ (n - 1) - 1)
        if r = d then word e else word (e / 2 ^ 32)) ∧
      (I.rnd < 6 →
        s.GivesVector w (oneSource .frndVv .frndVs d b) (vregs ty d) (fun r l =>
          let e := byElem ty fun h =>
            match I.fval (I.opnd ty l b) h with
            | .fin neg n den => f.round 1 false I.fz 0 (.fin neg (roundInt I.rnd (I.draw l h) neg n den) 1)
            | v => f.round 1 false I.fz 0 v
          if r = d then word e else word (e / 2 ^ 32)) (lfsrAfter I)))

/-- R168 to R170: FPACK, FUNPACK and FDOT2. -/
def Obligations.PackUnpackAndDotWrite : Prop :=
  ∀ (s : State) (w : Warp) (d a : Nat) (b : Opnd), d < 256 →
    let I := s.at w
    let ty := I.ty
    let wide := fun l => fmtF32.read I.fz (I.v a l).toNat
    (s.Admits w { cls := .e, legal := b.legal 0x0C, vs := [d, a] ++ b.vs 0x0C, ss := b.ss 0x0C, dst := [d] } →
      I.rnd < 6 →
      let lo := fun l => I.narrow (elemType ty) l 0 (wide l)
      let hi := fun l => I.narrow (elemType ty) l 1 (fmtF32.read I.fz (I.opnd 0x0C l b))
      let old := fun l => (I.v d l).toNat
      (ty ∈ [0x14, 0x15] → s.GivesVector w (twoForms .fpackVv .fpackVs d a b) [d]
        (fun _ l => word (lo l + 2 ^ 16 * hi l)) (lfsrAfter I)) ∧
      (ty ∈ [0x0E, 0x0F] → s.GivesVector w (twoForms .fpackVv .fpackVs d a b) [d]
        (fun _ l => word (lo l + 2 ^ 8 * hi l + old l % 2 ^ 16 * 2 ^ 16)) (lfsrAfter I)) ∧
      (ty = 0x12 → s.GivesVector w (twoForms .fpackVv .fpackVs d a b) [d]
        (fun _ l => word (lo l + 2 ^ 4 * hi l + old l % 2 ^ 24 * 2 ^ 8)) (lfsrAfter I))) ∧
    (s.Admits w { cls := .e, legal := b.legal 8, vs := [d, a] ++ b.vs 8, ss := b.ss 8, dst := [d] } →
      ty ∈ [0x14, 0x15, 0x0E, 0x0F, 0x10, 0x11, 0x12, 0x13] →
      s.GivesVector w (twoForms .funpackVv .funpackVs d a b) [d]
        (fun _ l => word (widen32 ty I.fz (unpackElem ty (I.v a l).toNat (I.opnd 8 l b))))) ∧
    (s.Admits w { cls := .e, legal := b.legal ty, vs := [d, a] ++ b.vs ty, ss := b.ss ty, dst := [d] } →
      ty ∈ [0x14, 0x15] → I.rnd < 6 →
      s.GivesVector w (twoForms .fdot2Vv .fdot2Vs d a b) [d]
        (fun _ l =>
          let x := fun h => I.fval (I.vsrc ty a l) h
          let y := fun h => I.fval (I.opnd ty l b) h
          word (I.round fmtF32 l 0 (Val.sum (I.rnd == 2)
            [fmtF32.read I.fz (I.v d l).toNat, Val.mul (x 0) (y 0), Val.mul (x 1) (y 1)]))) (lfsrAfter I))

/-- R171, R173: the special functions take f32 only and deliver their results as one operation bound to SETA; the exact
points of R173 have their values. -/
def Obligations.SpecialFunctionsBindToSeta : Prop :=
  (∀ (s : State) (w : Warp) (d a : Nat),
    let I := s.at w
    s.Admits w { cls := .e, vs := [d, a], dst := [d] } → I.ty = 0x0C →
    let result := fun (op : Nat) =>
      ([.ctl s.cur { s.ticked.ctl s.cur with flagOps := (s.ticked.ctl s.cur).flagOps ++
          [{ id := s.ids, flag := bits I.slice.h0.toNat 19 16, slices := s.slices
             writes := I.act.map fun l => .v d l (word (sfuResult op I.fz (I.v a l).toNat))
             sup := w.ctl.priv }] }, .ids 1], Flow.next)
    s.Retires (.rcp d a) (result 0xA8) ∧ s.Retires (.rsq d a) (result 0xA9) ∧ s.Retires (.sqrt d a) (result 0xAA) ∧
    s.Retires (.exp2 d a) (result 0xAB) ∧ s.Retires (.log2 d a) (result 0xAC) ∧ s.Retires (.sinpi d a) (result 0xAD) ∧
    s.Retires (.cospi d a) (result 0xAE) ∧ s.Retires (.tanh d a) (result 0xAF)) ∧
  (∀ op, 0xA8 ≤ op → op ≤ 0xAF → sfuResult op false 0x7FC00000 = 0x7FC00000) ∧
  sfuResult 0xA8 false 0 = 0x7F800000 ∧ sfuResult 0xA8 false 0x40000000 = 0x3F000000 ∧
  sfuResult 0xA9 false 0x40800000 = 0x3F000000 ∧ sfuResult 0xAA false 0x41100000 = 0x40400000 ∧
  sfuResult 0xAB false 0x41200000 = 0x44800000 ∧ sfuResult 0xAC false 0x3F000000 = 0xBF800000 ∧
  sfuResult 0xAD false 0x3F000000 = 0x3F800000 ∧ sfuResult 0xAE false 0x3F800000 = 0xBF800000 ∧
  sfuResult 0xAF false 0xFF800000 = 0xBF800000

/-- R143 to R145: the shuffles. Each active lane takes its source's value, or its own where the source lies outside its
segment; under SAT = 1 m13 marks the lanes with a launched source; the writes are one operation bound to SETA where an
active lane reads another slice, and take place at once otherwise. The source of a slice that does not issue may be written
while its value moves. The model's readings of log entry 59: a scalar register gives its whole 32 bits under every type, and
code 0xFE the lane index as the type encodes it. -/
def Obligations.ShufflesMoveSourceLanes : Prop :=
  ∀ (s : State) (w : Warp) (d a : Nat),
    let I := s.at w
    let ty := I.ty
    ty < 0x18 →
    let moves := fun (i : Instr) (src : Nat → Nat × Bool) =>
      let mark := maskOf (I.act.filter fun l => (src l).2 && w.ctl.launched.getLsbD (src l).1)
      let ws := (I.act.flatMap fun l =>
          let j := if (src l).2 then (src l).1 else l
          if bit I.lanes j || !w.ctl.launched.getLsbD j then swapOut ty d l (I.swapSrc ty a j)
          else movedOut ty d l a j (I.swapSrc ty a j)) ++
        (if I.sat then [.m 13 (word I.lanes) (word mark)] else [])
      s.Retires i (if I.act.any fun l => (src l).2 && (src l).1 / 4 != l / 4
        then bindOp s.ticked s.cur s.slices (bits I.slice.h0.toNat 19 16) ws [] false
        else ws.map (regEffect s.ticked s.cur), .next)
    let chk := fun (b : Opnd) (bty : Nat) => s.Admits w
      { cls := .e, legal := okReg ty d && okReg ty a && b.legal bty, vs := vregs ty d ++ vregs ty a ++ b.vs bty
        ss := b.ss bty, dst := vregs ty d }
    (∀ r, chk (.v r) 8 → moves (.shfl d a r) (fun l => ((I.v r l).toNat % 32, true))) ∧
    (∀ x, chk (.s x) ty →
      let y := fun l => I.whole ty l id x % 2 ^ 32
      let width := fun l => 32 / 2 ^ (y l / 2 ^ 8 % 8)
      moves (.shflx d a x) (fun l => (l ^^^ (y l % 32), true)) ∧
      ((∀ l, l < 32 → y l / 2 ^ 8 % 8 < 6) →
        moves (.shflup d a x) (fun l =>
          (l - y l % 32, decide (y l % 32 ≤ l) && (l - y l % 32) / width l == l / width l)) ∧
        moves (.shfldn d a x) (fun l =>
          ((l + y l % 32) % 32, decide (l + y l % 32 < 32) && (l + y l % 32) / width l == l / width l))))

/-- R146, R147: VOTE over the active lanes, with its values over none, and BALLOT over the issuing lanes. The model's
reading of log entry 59: BALLOT takes a scalar register's whole 32 bits under every type. -/
def Obligations.VoteAndBallotReadActiveLanes : Prop :=
  ∀ (s : State) (w : Warp) (d a : Nat),
    let I := s.at w
    let ty := I.ty
    (s.Admits w { cls := .e, ss := [d] } →
      s.GivesScalar (.vote d a 0) d (if ∃ l ∈ I.act, (I.m a).getLsbD l = true then 1 else 0) ∧
      s.GivesScalar (.vote d a 1) d (if ∀ l ∈ I.act, (I.m a).getLsbD l = true then 1 else 0) ∧
      s.GivesScalar (.vote d a 2) d
        (if ∀ l ∈ I.act, ∀ k ∈ I.act, (I.m a).getLsbD l = (I.m a).getLsbD k then 1 else 0)) ∧
    ∀ b, s.Admits w { cls := .e, legal := okReg ty a && opLegal b ty, vs := vregs ty a, ss := opRegsT b ty } →
      ty < 0x18 →
      s.GivesMask w (.ballot d a b) d ((w.readM d &&& ~~~ word I.lanes) |||
        word (maskOf (I.act.filter fun l =>
          if is64 ty then (I.vpair a l).toNat &&& I.sval ty l b ≠ 0
          else (I.v a l).toNat &&& I.whole ty l (storeBits ty) b ≠ 0)))

/-- R148: REDLANE combines the active lanes' values in the tree of neighbours and writes the root to every active lane; an
exact sum does not depend on the tree. -/
def Obligations.RedlaneCombinesActiveLanes : Prop :=
  (∀ (s : State) (w : Warp) (d a op : Nat),
    let I := s.at w
    let ty := I.ty
    let i32 := decide (ty = 2)
    s.Admits w { cls := .e, vs := [d, a], dst := [d] } →
    (ty = 2 ∨ ty = 6 ∨ (op < 3 ∧ ty = 0x0C) ∨ (3 ≤ op ∧ ty = 8)) → op < 6 →
    (ty = 0x0C → I.rnd ≠ 5 ∧ (op = 0 → I.rnd < 6)) →
    let root := redTree (redComb I op) ((span 0 32).map fun l => if bit I.active l then
      some (if op < 3 ∧ ty = 2 then signed 32 (I.v a l).toNat else ((I.v a l).toNat : Int)) else none)
    let x := match root with
      | none => 0
      | some r => if op = 0 ∧ ty ≠ 0x0C then fitInt 32 i32 I.sat r else pattern 32 r
    let ws := I.act.map fun l => RegWrite.v d l (word x)
    s.Retires (.redlane d a op) (if I.act.any fun l => l / 4 != lowest 32 I.active / 4
      then bindOp s.ticked s.cur s.slices (bits I.slice.h0.toNat 19 16) ws [] false
      else ws.map (regEffect s.ticked s.cur), .next)) ∧
  ∀ l : List (Option Int), l.length = 32 →
    redTree (· + ·) l = if l.all Option.isNone then none else some ((l.filterMap id).foldl (· + ·) 0)

/-- R149, R150: XSWAP with a partner that exists binds to SETA and leaves the exchange pending with the values sent; with
the warp itself it copies; while an earlier one is pending it waits; without a partner, or parted, it traps. The model's
readings of log entries 59 (the operand cut to its type), 16 (the lane whose laneid counts) and 75. -/
def Obligations.XswapSendsOrCopies : Prop :=
  ∀ (s : State) (w : Warp) (d a : Nat) (b : SOp),
    let I := s.at w
    let ty := I.ty
    s.Admits w { cls := .e, helper := false, legal := okReg ty d && okReg ty a && opLegal b ty
                 vs := vregs ty d ++ vregs ty a, ss := opRegsT b ty, dst := vregs ty d } → ty < 0x18 →
    let y := I.sval ty I.lane b
    let partner := fun p => 36 * p + y / 2 ^ 8 % 64
    let sent := (span 0 32).map fun l => I.swapSrc ty a l
    (w.ctl.parted = true → s.Traps w (.xswap d a b) false { code := 0x01 }) ∧
    (w.ctl.parted = false → s.peer (blockOf s.cur) (y % 16) = none → s.Traps w (.xswap d a b) false { code := 0x09 }) ∧
    ∀ p, w.ctl.parted = false → s.peer (blockOf s.cur) (y % 16) = some p →
      ((24 ≤ y / 2 ^ 8 % 64 ∨ s.exists (partner p) = false) → s.Traps w (.xswap d a b) false { code := 0x09 }) ∧
      (y / 2 ^ 8 % 64 < 24 → s.exists (partner p) = true → w.ctl.xswap ≠ none →
        s.Retires (.xswap d a b) ([], .wait .swap)) ∧
      (y / 2 ^ 8 % 64 < 24 → s.exists (partner p) = true → w.ctl.xswap = none →
        (partner p = s.cur → s.Retires (.xswap d a b)
          (bindOp s.ticked s.cur s.slices (bits I.slice.h0.toNat 19 16)
            (I.act.flatMap fun l => swapOut ty d l (sent.getD l 0)) [] false, .next)) ∧
        (partner p ≠ s.cur → s.Retires (.xswap d a b)
          (chain s.ticked [
            fun s' => [.ctl s.cur { s'.ctl s.cur with
              xswap := some { partner := partner p, d, lanes := I.active, pair := is64 ty
                              sent := sent.map (fun x => word x) ++
                                (if is64 ty then sent.map fun x => word (x / 2 ^ 32) else [])
                              op := s.ids } }],
            fun s' => bindOp s' s.cur s.slices (bits I.slice.h0.toNat 19 16) [] [] true], .next)))

/-- R110 to R114, R62: the transfers. With a target that passes its checks the issuing slices leave for it; a fault of the
target is raised at the transferring word, and so is target-out-of-range where the exact sum (R6) is no 64-bit address; a
branch not taken goes on at the next clause. The second part says which targets the check refuses, and with which trap. The
model's reading of log entry 68: a fetch fault of the target comes before misaligned-target, and ADDR takes the low 64 bits.
-/
def Obligations.TransfersGoToCheckedTargets : Prop :=
  (
  ∀ (s : State) (w : Warp) (d m p o : Nat) (a b : SOp), s.Issuing w →
    (∀ n ∈ [d, d + 1, p, p + 1] ++ opRegs a ++ opRegs b, n < w.ctl.sbudget) →
    let I := s.at w
    let cs : Int := I.slice.pc.toNat
    let off := fun (x : Word) => cs + 8 * x.toInt
    let link := [Effect.sreg s.cur d (I.slice.nextClause.setWidth 32),
      .sreg s.cur (d + 1) ((I.slice.nextClause >>> 32).setWidth 32)]
    let goes := fun (i : Instr) (to_ : Int) (more : List Effect) =>
      ((to_ < 0 ∨ 2 ^ 64 ≤ to_) → s.Traps w i true { code := 0x07, addr := (BitVec.ofInt 64 to_).toNat }) ∧
      ∀ pc : DWord, (pc.toNat : Int) = to_ →
        (∀ es, s.seen.target pc = .ok es → s.Retires i (es ++ more, .goto pc)) ∧
        (∀ t, s.seen.target pc = .error t → s.Traps w i true t)
    let test := fun n => (I.m n &&& I.m 14).toNat &&& I.lanes
    goes (.bra o) (cs + 8 * (BitVec.ofNat 24 o).toInt) [] ∧
    (∀ nz, ((I.op a ≠ 0) = (nz = true) → goes (.brc nz a b) (off (I.op b)) []) ∧
      ((I.op a ≠ 0) ≠ (nz = true) → s.GivesFlow (.brc nz a b) .ends)) ∧
    (test m = 0 → goes (.brzm m b) (off (I.op b)) [] ∧ s.GivesFlow (.brnzm m b) .ends) ∧
    (test m ≠ 0 → goes (.brnzm m b) (off (I.op b)) [] ∧ s.GivesFlow (.brzm m b) .ends) ∧
    goes (.jmp p b) ((I.pair p).toNat + 8 * (I.op b).toInt) [] ∧
    goes (.call d b) (off (I.op b)) link ∧
    goes (.ret p) (I.pair p).toNat []) ∧
  (
  ∀ (I : Issue) (pc : DWord),
    ((∀ va, generic pc.toNat ≠ .virt va) → I.target pc = .error { code := 0x07, addr := pc.toNat }) ∧
    ∀ va, generic pc.toNat = .virt va →
      (∀ e, I.s.clauseWords I.k (pc.toNat / 8 * 8) 0 2 = .error e →
        I.target pc = .error (fetchTrap I.s I.w I.sl pc.toNat e)) ∧
      ∀ hs es, I.s.clauseWords I.k (pc.toNat / 8 * 8) 0 2 = .ok (hs, es) →
        (pc.toNat % 8 ≠ 0 → I.target pc = .error { code := 0x05, addr := pc.toNat }) ∧
        (pc.toNat % 8 = 0 →
          let h0 := (hs.getD 0 0).toNat
          let h1 := (hs.getD 1 0).toNat
          let len := h0 / 2 ^ 7 % 32
          let ok := h0 % 32 = 0 ∧ 1 ≤ len ∧ len ≤ 30 ∧ (h0 / 2 ^ 16 % 16 < 12 ∨ h0 / 2 ^ 16 % 16 = 15) ∧
            (h0 / 2 ^ 12 % 16 < 12 ∨ h0 / 2 ^ 12 % 16 = 15) ∧ h1 % 2 ^ 16 = 0 ∧ h1 / 2 ^ 18 % 4 ≠ 3
          (ok → I.target pc = .ok es) ∧ (¬ok → I.target pc = .error { code := 0x05, addr := pc.toNat })))

/-- R81, R119, R120, R122: MODE, PART, YIELD, and REGANG of a gang and of a parted slice. PART gives every live slice a copy
of the flags (R40); YIELD marks a parted slice as yielded. The model's reading of log entry 71: YIELD keeps the cause and the
address of a parking request that stands. -/
def Obligations.ModePartRegangAndYield : Prop :=
  ∀ (s : State) (w : Warp) (m : Nat), s.Issuing w →
    let c := w.ctl.ticked s.fresh s.slices
    s.Retires (.mode m) ([.ctl s.cur (c.onSlices s.slices fun x =>
      if w.ctl.priv then { x with modeSup := BitVec.ofNat 16 m } else { x with mode := BitVec.ofNat 16 m })], .next) ∧
    (w.ctl.helper = none →
      (w.ctl.parted = false → s.Retires .part ([.ctl s.cur { c.shareFlags (liveSlices w) with parted := true }], .ends)) ∧
      (w.ctl.parted = true → s.GivesFlow .part .ends) ∧
      s.Retires .yield ([.ctl s.cur (c.onSlices s.slices fun x =>
        { x with park := some (x.park.getD (5, 0, [])), yielded := w.ctl.parted })], .ends) ∧
      (w.ctl.parted = false → s.GivesFlow .regang .ends) ∧
      (w.ctl.parted = true →
        let waits := c.onSlices s.slices fun x =>
          { x.leave (w.ctl.steps (lowest 8 s.slices)) x.nextClause with
            regang := some ((x.pc + dword (8 + 4 * x.idx)).toNat, x.pc.toNat) }
        let marks := (setBits 8 (liveSlices w)).map fun j => ((waits.slice j).regang).map Prod.fst
        (none ∈ marks ∨ marks.eraseDups.length ≤ 1 → s.Retires .regang ([.ctl s.cur waits], .placed)) ∧
        (none ∉ marks → 1 < marks.eraseDups.length →
          ∃ t : Trap, t.code = 1 ∧ s.Retires .regang ([.ctl s.cur { waits with trap := some t }], .placed)))) ∧
    ∀ (live : Nat) (o : FlagOp), o ∈ (c.shareFlags live).flagOps → o.slices &&& live ≠ 0 → o.slices = 255

/-- R118, R193, R194: the words with no effect beyond their issue slot. R55, R63, R119, R122: how the issuing slices leave a
word: to the word after it with its extension and literals, to the next clause after the last word or a clause-ending one,
or to a transfer's target; slices that do not issue stay. -/
def Obligations.SlicesLeaveTheirWords : Prop :=
  (
  ∀ (s : State) (w : Warp) (lvl : Nat) (f : AddrForm), s.Issuing w →
    s.GivesFlow .nop .next ∧ s.GivesFlow .cctlEvl1all .next ∧
    (s.Admits w { cls := .e, vs := formVs f, ss := formSs f } → s.GivesFlow (.pref lvl f) .next) ∧
    ∀ a b va, (∀ n ∈ [a, a + 1] ++ opRegs b, n < w.ctl.sbudget) → generic ((s.at w).pair a).toNat = .virt va →
      s.GivesFlow (.cctlEvl1 a b) .next ∧ s.GivesFlow (.cctlWbl2 a b) .next) ∧
  (
  ∀ (c : Ctl) (now live sl j : Nat) (lends : Bool) (f : Flow), c.slices.length = 8 → j < 8 → sl < 256 →
    let x := c.slice j
    let y := (c.after now live sl lends f).slice j
    (bit sl j = false → y.pc = x.pc ∧ y.inClause = x.inClause ∧ y.idx = x.idx ∧ y.words = x.words) ∧
    (bit sl j = true →
      (f = .next → x.idx + x.span < x.words.length → y.pc = x.pc ∧ y.inClause = x.inClause ∧ y.idx = x.idx + x.span) ∧
      (f = .next → x.words.length ≤ x.idx + x.span → y.pc = x.nextClause ∧ y.inClause = false) ∧
      (f = .ends → y.pc = x.nextClause ∧ y.inClause = false) ∧
      (∀ pc, f = .goto pc → y.pc = pc ∧ y.inClause = false) ∧
      (∀ v, f = .wait v → y.pc = x.pc ∧ y.inClause = x.inClause ∧ y.idx = x.idx)))

/-- R123: WAITW goes on at the next clause where the word meets its condition, waits where it does not, and traps on a
misaligned offset or one beyond SHBLK. -/
def Obligations.WaitwTestsItsWord : Prop :=
  ∀ (s : State) (w : Warp) (eq : Bool) (a b : SOp), s.Issuing w → w.ctl.helper = none →
    (∀ n ∈ opRegs a ++ opRegs b, n < w.ctl.sbudget) →
    let off := ((s.at w).op a).toNat
    let blk := blockOf s.cur
    let v := ofBytes (s.ticked.readPlace s.cur { sp := .shared blk, off } 4)
    let met := (v = ((s.at w).op b).toNat) = (eq = true)
    let at_ := apertureAddr blk off
    (off % 4 ≠ 0 → s.Traps w (.waitw eq a b) true { code := 0x06, addr := at_ }) ∧
    (off % 4 = 0 → (s.blk blk).img.shblk ≤ off → s.Traps w (.waitw eq a b) true { code := 0x09, addr := at_ }) ∧
    (off % 4 = 0 → off < (s.blk blk).img.shblk →
      (met → s.GivesFlow (.waitw eq a b) .ends) ∧
      (¬met → s.GivesFlow (.waitw eq a b) (.wait (.word off eq ((s.at w).op b).toNat false))))

/-- R117, R124, R125, R217: EXIT in a warp that is not diverted, FORK, the arrival at REND, and REND once the rendezvous it
waited for has fired. -/
def Obligations.ExitForkAndRend : Prop :=
  ∀ (s : State) (w : Warp) (refork : Bool), s.Issuing w →
    let b := blockOf s.cur
    (w.ctl.helper = none → w.ctl.divert = none →
      (∀ p, w.ctl.span = some p → bit (s.at w).active p.lane = false) →
      s.Retires .exit (exitLanes s.cur (s.at w).active false s.ticked, .ends)) ∧
    (w.ctl.helper = none → w.ctl.role = 0 → warpNo s.cur = 0 →
      s.Releases .fork [fun s' => [.block b { s'.blk b with forked := true }], fun s' => createRest s' b] .ends) ∧
    (w.ctl.helper = none →
      ((s.at w).slice.wait = some .fired → s.GivesFlow (.rend refork) .ends) ∧
      ((s.at w).slice.wait ≠ some .fired → w.ctl.parted = false → (s.at w).m 0 = (s.at w).m 14 →
        s.Releases (.rend refork) [] (.wait (.rend refork))) ∧
      ((s.at w).slice.wait ≠ some .fired → (w.ctl.parted = true ∨ (s.at w).m 0 ≠ (s.at w).m 14) →
        s.Traps w (.rend refork) true { code := 0x0B }))

/-- R247: BAR and BARA. A word in its form takes the arrival after the warp's queued stores: the last arrival turns the
phase and clears the count; an earlier one adds 1, and BAR then waits for the phase to turn. The second part says what an
arrival leaves of every word in the form. -/
def Obligations.BarrierWordsCountArrivals : Prop :=
  (
  ∀ (s : State) (w : Warp) (a : SOp), s.Issuing w → w.ctl.helper = none → (∀ n ∈ opRegs a, n < w.ctl.sbudget) →
    let off := ((s.at w).op a).toNat
    let b := blockOf s.cur
    let at_ := apertureAddr b off
    let v := ofBytes (s.ticked.readPlace s.cur { sp := .shared b, off } 4)
    let expect := v / 2 ^ 16 % 64
    let arrived := v % 64
    let good := v / 2 ^ 22 % 512 = 0 ∧ v / 2 ^ 6 % 1024 = 0 ∧ 1 ≤ expect ∧ expect ≤ 36 ∧ arrived < expect
    let write := fun (s' : State) => [Effect.store (.shared b) off (leBytes 4 (barArrive (shWord (s'.sh b) off)))
      (some (s.cur, lowest 8 s.slices))]
    ((w.ctl.parted = true ∨ (s.at w).m 0 ≠ (s.at w).m 14) →
      s.Traps w (.bar a) true { code := 0x0B, addr := at_ } ∧ s.Traps w (.bara a) true { code := 0x0B, addr := at_ }) ∧
    (w.ctl.parted = false → (s.at w).m 0 = (s.at w).m 14 →
      (off % 4 ≠ 0 →
        s.Traps w (.bar a) true { code := 0x06, addr := at_ } ∧ s.Traps w (.bara a) true { code := 0x06, addr := at_ }) ∧
      (off % 4 = 0 → (s.blk b).img.shblk < off + 4 →
        s.Traps w (.bar a) true { code := 0x09, addr := at_ } ∧ s.Traps w (.bara a) true { code := 0x09, addr := at_ }) ∧
      (off % 4 = 0 → off + 4 ≤ (s.blk b).img.shblk →
        (¬good → s.Traps w (.bar a) true { code := 0x0C, addr := at_ } ∧
          s.Traps w (.bara a) true { code := 0x0C, addr := at_ }) ∧
        (good → s.Releases (.bara a) [write] .next ∧
          s.Releases (.bar a) [write] (if arrived + 1 = expect then .next else .wait (.bar off (bit v 31) false)))))) ∧
  (
  ∀ v, v < 2 ^ 32 → v / 2 ^ 22 % 512 = 0 → v / 2 ^ 6 % 1024 = 0 → 1 ≤ v / 2 ^ 16 % 64 → v % 64 < v / 2 ^ 16 % 64 →
    let u := barArrive v
    u < 2 ^ 32 ∧ u / 2 ^ 22 % 512 = 0 ∧ u / 2 ^ 6 % 1024 = 0 ∧ u / 2 ^ 16 % 64 = v / 2 ^ 16 % 64 ∧
    (v % 64 + 1 = v / 2 ^ 16 % 64 → u % 64 = 0 ∧ bit u 31 = !bit v 31) ∧
    (v % 64 + 1 ≠ v / 2 ^ 16 % 64 → u % 64 = v % 64 + 1 ∧ bit u 31 = bit v 31))

/-- R249 to R251: the asynchronous barrier's words, on an object in its form and inside the block's shared memory. -/
def Obligations.AsynchronousBarrierWords : Prop :=
  ∀ (s : State) (w : Warp) (d : Nat) (a b : SOp), s.Issuing w →
    (∀ n ∈ d :: (opRegs a ++ opRegs b), n < w.ctl.sbudget) →
    let off := ((s.at w).op a).toNat
    let n := ((s.at w).op b).toNat
    let k := blockOf s.cur
    off % 8 = 0 → off + 8 ≤ (s.blk k).img.shblk →
    let x := ofBytes (s.ticked.readPlace s.cur { sp := .shared k, off } 8)
    let pending := x % 2 ^ 16
    let expect := x / 2 ^ 32 % 2 ^ 16
    let phase := bit x 63
    let write := fun (y : Nat) (_ : State) =>
      [Effect.store (.shared k) off (leBytes 8 y) (some (s.cur, lowest 8 s.slices))]
    let good := x / 2 ^ 48 % 2 ^ 15 = 0 ∧ x / 2 ^ 16 % 2 ^ 16 = 0 ∧ 1 ≤ pending ∧ pending ≤ expect
    (1 ≤ n → n ≤ 65535 → s.Releases (.abinit a b) [write (n * 2 ^ 32 + n)] .next) ∧
    (¬(1 ≤ n ∧ n ≤ 65535) → s.Traps w (.abinit a b) true { code := 0x0C, addr := apertureAddr k off }) ∧
    (good → 1 ≤ n → n ≤ pending →
      s.Releases (.abarr d a b)
        [write (if pending = n then (if phase then 0 else 2 ^ 63) + expect * 2 ^ 32 + expect else x - n),
         fun _ => [.sreg s.cur d (if phase then 1 else 0)]] .next) ∧
    (¬(good ∧ 1 ≤ n ∧ n ≤ pending) → s.Traps w (.abarr d a b) true { code := 0x0C, addr := apertureAddr k off }) ∧
    (good → w.ctl.helper = none →
      s.GivesFlow (.abwait a b) (if phase ≠ bit n 0 then .next else .wait (.abar off (bit n 0) false)))

/-- R221, R224, R230, R253, R254: FENCE and WAITC. A fence first waits for the replies of loads from other chips, and no slice
of the warp issues meanwhile; one that releases makes the warp's queued stores visible, stalls the warp until they can, and
at pod scope or beyond first waits for the acknowledgements of the chip's remote stores and atomics. WAITC goes on where its
counter is at most n, and waits otherwise. The model's choice of log entry 17: a releasing fence drains the warp's whole
store queue at every scope. -/
def Obligations.FenceAndWaitc : Prop :=
  ∀ (s : State) (w : Warp) (ord scope cls n : Nat), s.Issuing w →
    let I := s.at w
    (w.ctl.farPending = true → s.Retires (.fence ord scope)
      (holdFor s.cur (fun r => w.ctl.flagOps.any fun o => o.waiting.contains r.id) s.ticked, .wait .returned)) ∧
    (w.ctl.farPending = false → s.GivesFlow (.fence 1 scope) .next) ∧
    (w.ctl.farPending = false → ord ≠ 1 → ¬s.released → s.Retires (.fence ord scope) ([], .wait .drain)) ∧
    (ord ≠ 1 → s.released →
      let answered := (∃ m, I.slice.wait = some (.acks m)) ∨
        ∀ r ∈ s.fab.reqs, r.id < s.ids → r.plane ≠ 0xFE → ¬(1 ≤ r.kind ∧ r.kind ≤ 3)
      ((scope < 5 ∨ answered) → s.Retires (.fence ord scope) (drainAll s.ticked s.cur, .next)) ∧
      (5 ≤ scope → ¬answered →
        let u := applyAll (drainAll s.ticked s.cur) s.ticked
        s.Retires (.fence ord scope)
          (drainAll s.ticked s.cur ++ chain u [holdFor s.cur Req.changes], .wait (.acks u.ids)))) ∧
    ((w.ctl.outs.filter fun o => o.cls == cls).length ≤ n → s.GivesFlow (.waitc cls n) .next) ∧
    (n < (w.ctl.outs.filter fun o => o.cls == cls).length → s.GivesFlow (.waitc cls n) (.wait (.waitc cls n)))

/-- R106, R175, R187 to R192: the loads. Where every active lane's access passes its checks the load completes; on this
chip's memory, unpoisoned, it binds to SETA one operation that will write each lane's bytes as its memory order has them
now, an 8-byte stack access in two halves (R178). Where a lane's check fails the load traps. The second part is the check of
an offset of the block's own shared memory. -/
def Obligations.LoadsBindTheirBytes : Prop :=
  (
  ∀ (s : State) (w : Warp),
    let I := s.seen
    let ty := (s.at w).ty
    let loads := fun (i : Instr) (ty d : Nat) (scalar once : Bool) (r : Except Trap (List LaneAccess × List Effect)) =>
      (∀ t, r = .error t → s.Traps w i once t) ∧
      ∀ rows es, r = .ok (rows, es) →
        s.Retires i (I.load ty d scalar rows es fun _ => []) ∧
        ((∀ x ∈ rows, x.host = false ∧ (∀ p ∈ x.pieces, p.1.mgmt = false ∧ ∀ c, p.1.sp ≠ .remote c) ∧
            (s.ticked.asSeen s.cur).piecesPoisoned x.pieces = false) → s.ticked.waitsSave rows = false →
          let u := applyAll es s.ticked
          s.Retires i (es ++ [.ctl s.cur { u.ctl s.cur with flagOps := (u.ctl s.cur).flagOps ++
            [{ id := u.ids, flag := bits I.slice.h0.toNat 19 16, slices := s.slices
               writes := rows.flatMap fun x => (x.parts d).flatMap fun p =>
                 regOut (p.ty ty) (if scalar then 32 else x.lane) p.r (ofBytes (u.readPlace s.cur p.place p.n))
               sup := w.ctl.priv }] },
            .ids 1], .next))
    (∀ d f, accessBytes ty ≠ 0 →
      s.Admits w { cls := .e, legal := okReg ty d, vs := vregs ty d ++ formVs f, ss := formSs f, dst := vregs ty d } →
      loads (.ld d f) ty d false false (s.ticked.lanesAccess s.cur (accessBytes ty) 0 0 ty (I.eas f))) ∧
    (∀ d a b, accessBytes ty ≠ 0 →
      s.Admits w { cls := .e, legal := okReg ty d && okReg ty a, vs := vregs ty d ++ [a], ss := opRegs b
                   dst := vregs ty d } →
      loads (.lds d a b) ty d false false (I.sharedRows a b 0)) ∧
    (∀ d a b, s.Issuing w → (∀ n ∈ [d, a, a + 1] ++ opRegs b, n < w.ctl.sbudget) →
      let ea := (I.pair a + (I.op b).signExtend 64).toNat
      loads (.sld d a b) 8 d true true (I.onceAccess ea 4 0 0 8 fun _ => none) ∧
      (∀ t, I.constAccess ea = .error t → s.Traps w (.ldc d a b) true t) ∧
      ∀ rows es, I.constAccess ea = .ok (rows, es) →
        let key := ccKey s.cur w.ctl.role ((rows.map fun x => x.place.off).headD 0)
        let now := word (s.phys ((rows.map fun x => x.place.off).headD 0) 4)
        (find s.ccache key = some now →
          s.Retires (.ldc d a b) (I.load 8 d true rows es fun _ => [])) ∧
        (find s.ccache key = none → (∀ x ∈ rows, x.remote = none ∧ x.place.mgmt = false) →
          let fill := fun (s' : State) => [Effect.ccache (put s'.ccache key
            (word (s'.phys ((rows.map fun x => x.place.off).headD 0) 4)))]
          s.Retires (.ldc d a b) (I.load 8 d true rows es fill)) ∧
        ∀ old, find s.ccache key = some old →
          s.Retires (.ldc d a b) (I.load 8 d true rows es fun _ => []) ∨
          s.Retires (.ldc d a b) (chain s.ticked [fun _ => es, fun s' =>
            bindOp s' s.cur s.slices (bits I.slice.h0.toNat 19 16) [.s d old] [] false], .next))) ∧
  (
  ∀ (I : Issue) (off n : Nat),
    (off % n ≠ 0 → I.sharedAt off n = .error { code := 0x06 }) ∧
    (off % n = 0 → I.blk.img.shblk ≤ off → I.sharedAt off n = .error { code := 0x09, cause := 3 }) ∧
    (off % n = 0 → off < I.blk.img.shblk → I.sharedAt off n = .ok ([({ sp := .shared (blockOf I.k), off }, n)], [])))

/-- R106, R189 to R191, R216: the stores. Where every active lane's access passes its checks the store completes: its
bytes stand in the warp's store queue, one entry for each lane's access in lane order, lowest byte first; no register is
written, and an STS changes no memory. Where a lane's check fails the store traps. The second part: when the oldest queued
store becomes visible, its bytes stand at its place and nothing else changes. -/
def Obligations.StoresEnterTheQueueInOrder : Prop :=
  (
  ∀ (s : State) (w : Warp),
    let I := s.seen
    let ty := (s.at w).ty
    let stores := fun (i : Instr) (n : Nat) (data : Nat → Nat) (once : Bool) (r : Except Trap (List LaneAccess × List Effect)) =>
      (∀ t, r = .error t → s.Traps w i once t) ∧
      ∀ rows es, r = .ok (rows, es) →
        s.Retires i (chain s.ticked [fun _ => es, I.enqueue (storeRows I n data rows)], .next) ∧
        (es = [] → ∃ t, exec i s = .next t ∧
          t = { s with warps := t.warps, fresh := s.fresh + 1, ids := s.ids + (storeRows I n data rows).length } ∧
          (∀ k, k ≠ s.cur → find t.warps k = find s.warps k) ∧ s.SameRegs t noReg noReg noLane ∧
          ((t.ctl s.cur).storeQ.map fun q => (q.sp, q.off, q.bytes, q.lane)) =
            (w.ctl.storeQ.map fun q => (q.sp, q.off, q.bytes, q.lane)) ++
              rows.flatMap fun x => x.pieces.mapIdx fun j p =>
                (p.1.sp, p.1.off, ((leBytes n (data x.lane)).drop (4 * j)).take p.2, x.lane))
    (∀ d f, accessBytes ty ≠ 0 →
      s.Admits w { cls := .e, legal := okReg ty d, vs := vregs ty d ++ formVs f, ss := formSs f } →
      stores (.st d f) (accessBytes ty) (fun l => (s.at w).vsrc ty d l) false
        (s.ticked.lanesAccess s.cur (accessBytes ty) 1 0 ty (I.eas f))) ∧
    (∀ d a b, accessBytes ty ≠ 0 →
      s.Admits w { cls := .e, legal := okReg ty d && okReg ty a, vs := vregs ty d ++ [a], ss := opRegs b } →
      (∀ t, I.sharedRows a b 1 = .error t → s.Traps w (.sts d a b) false t) ∧
      ∀ rows es, I.sharedRows a b 1 = .ok (rows, es) →
        s.Retires (.sts d a b) (I.enqueue (storeRows I (accessBytes ty) (fun l => (s.at w).vsrc ty d l) rows) s.ticked, .next)) ∧
    (∀ d a b, s.Issuing w → (∀ n ∈ [d, a, a + 1] ++ opRegs b, n < w.ctl.sbudget) →
      stores (.sst d a b) 4 (fun _ => ((s.at w).rs d).toNat) true
        (I.onceAccess (I.pair a + (I.op b).signExtend 64).toNat 4 1 0 8 fun _ => none))) ∧
  (
  ∀ (s : State) (k b : Nat) (q : QStore) (rest : List QStore), s.Inv → (s.ctl k).storeQ = q :: rest → q.sp = .shared b →
    s.drainable k = true →
    ∃ t, exec (.storeDrain k) s = .next t ∧
      (∀ a, q.off ≤ a → a < q.off + q.bytes.length → (t.sh b).get a = q.bytes.getD (a - q.off) 0) ∧
      (∀ a, (a < q.off ∨ q.off + q.bytes.length ≤ a) → (t.sh b).get a = (s.sh b).get a) ∧
      (∀ c, c ≠ b → t.sh c = s.sh c) ∧ t.mem = s.mem ∧ t.tiles = s.tiles ∧
      (∀ j r l, (t.warp j).readV r l = (s.warp j).readV r l) ∧ (∀ j n, (t.warp j).readS n = (s.warp j).readS n) ∧
      (∀ j n, (t.warp j).readM n = (s.warp j).readM n) ∧
      (t.ctl k).storeQ.map (fun q => (q.sp, q.off, q.bytes)) = rest.map (fun q => (q.sp, q.off, q.bytes)))

/-- R241 to R245: LDRSV and STCND where every lane's access passes. On this chip's unpoisoned memory LDRSV completes: it
binds its bytes to SETA as LD does, and each issuing slice then reserves the granule of its lowest active lane. STCND
completes where the warp's queued stores and its own can become visible and the core owns its host lines (else it asks for
them first, R356): its slices act in turn, one whose reservation covers the access stores its rows and gives 1, one without
stores nothing, changes no byte of memory, and gives 0. A reservation covers an access when it holds the granule of every
byte and at most 32 words of its slice have issued since the LDRSV. -/
def Obligations.ReservationWords : Prop :=
  (
  ∀ (s : State) (w : Warp) (d : Nat) (f : AddrForm),
    let I := s.seen
    let ty := (s.at w).ty
    let n := accessBytes ty
    s.Admits w { cls := .e, legal := okReg ty d, vs := vregs ty d ++ formVs f, ss := formSs f, dst := vregs ty d } → 4 ≤ n →
    let rowsOf := fun kind => gather s.ticked kind 0xF ty ((I.eas f).map fun p => (p.1, p.2, I.resvAccess n kind p.1 p.2))
    (∀ t, rowsOf 0 = .error t → s.Traps w (.ldrsv d f) false t) ∧
    (∀ t, rowsOf 1 = .error t → s.Traps w (.stcnd d f) false t) ∧
    (∀ rows es, rowsOf 0 = .ok (rows, es) →
      s.Retires (.ldrsv d f) (I.load ty d false rows es (reserve I rows)) ∧
      ((∀ x ∈ rows, x.host = false ∧ (∀ p ∈ x.pieces, p.1.mgmt = false ∧ ∀ c, p.1.sp ≠ .remote c) ∧
          (s.ticked.asSeen s.cur).piecesPoisoned x.pieces = false) → s.ticked.waitsSave rows = false →
        s.Retires (.ldrsv d f) (chain s.ticked [fun _ => es, fun u =>
          [.ctl s.cur { u.ctl s.cur with flagOps := (u.ctl s.cur).flagOps ++
            [{ id := u.ids, flag := bits I.slice.h0.toNat 19 16, slices := s.slices
               writes := rows.flatMap fun x => (x.parts d).flatMap fun p =>
                 regOut (p.ty ty) x.lane p.r (ofBytes (u.readPlace s.cur p.place p.n))
               sup := w.ctl.priv }] }, .ids 1], reserve I rows], .next))) ∧
    (∀ rows es, rowsOf 1 = .ok (rows, es) → s.ticked.drainable s.cur = true →
      (∀ x ∈ rows, x.place.sp = .phys → s.ticked.writeWaits x.place.off (s.ticked.epochOf s.cur) = false) →
      (I.unowned rows = [] →
        let pre := chain s.ticked [fun _ => es, fun s' => drainAll s' s.cur]
        let r := condSlices I n d rows (setBits 8 s.slices) (applyAll pre s.ticked)
        s.Retires (.stcnd d f) (pre ++ r.1 ++ bindOp (applyAll r.1 (applyAll pre s.ticked)) s.cur s.slices
          (bits I.slice.h0.toNat 19 16) r.2 [] false, .next)) ∧
      (I.unowned rows ≠ [] → I.ownLost = false → s.Retires (.stcnd d f) (I.own (I.unowned rows)))) ∧
    ∀ rows (u : State),
      let gives := fun (j : Nat) (x : Word) => (ofSlice j rows).flatMap fun q =>
        RegWrite.v d q.lane x :: (if is64 ty then [.v (d + 1) q.lane 0] else [])
      (∀ js, (∀ j ∈ js, ((u.ctl s.cur).slice j).holds n (ofSlice j rows) = false) →
        let r := condSlices I n d rows js u
        let t := applyAll r.1 u
        r.2 = js.flatMap (fun j => gives j 0) ∧ t.mem = u.mem ∧ t.shared = u.shared ∧ t.tiles = u.tiles) ∧
      ∀ j, ((u.ctl s.cur).slice j).holds n (ofSlice j rows) = true →
        let stores := storeRows I n (fun l => (s.seen).vsrc ty d l) (ofSlice j rows)
        let r := condSlices I n d rows [j] u
        r.2 = gives j 1 ∧
        r.1 = chain u (stores.map (fun q s' => performStore s' s.cur q) ++
          [fun s' => [.ctl s.cur ((s'.ctl s.cur).onSlices (2 ^ j) fun x => { x with resv := none })]]) ∧
        (∀ q b, ofSlice j rows = [q] → q.pieces = [(q.place, n)] → q.place.sp = .shared b → u.Inv →
          let t := applyAll r.1 u
          (t.sh b).bytes q.place.off n = leBytes n (s.seen.vsrc ty d q.lane) ∧
          (∀ a, (a < q.place.off ∨ q.place.off + n ≤ a) → (t.sh b).get a = (u.sh b).get a) ∧ t.mem = u.mem) ∧
        ∀ js, let more := condSlices I n d rows js (applyAll r.1 u)
          condSlices I n d rows (j :: js) u = (r.1 ++ more.1, r.2 ++ more.2)) ∧
  (
  ∀ (x : Slice) (n : Nat) (rows : List LaneAccess),
    x.holds n rows = true ↔ ∃ r, x.resv = some r ∧ r.count ≤ 32 ∧
      ∀ q ∈ rows, q.place.sp = r.sp ∧ r.gran ≤ q.place.off ∧ q.place.off + n ≤ r.gran + 64)

/-- R235 to R240: ATOM, ATOMS and RED where every lane's access passes and nothing holds the word back; where a lane's
check fails they trap. One lane's access to the block's shared memory under an integer or pattern type leaves there the
operation's value on the old one, and ATOM and ATOMS bind the old one to their register. R237: what the atomic operations
compute on integer patterns. -/
def Obligations.AtomicWords : Prop :=
  (
  ∀ (s : State) (w : Warp) (d a : Nat) (b : SOp) (f : AddrForm) (x : Ext),
    let I := s.seen
    let ty := (s.at w).ty
    atomReach x.op ty ≠ 0 →
    let rowsOf := fun kind => gather s.ticked 2 (kind + x.op) ty
      ((I.eas f).map fun p => (p.1, p.2, I.atomAccess x.op ty p.1 p.2))
    let ends := fun (i : Instr) (once : Bool) (ret : Option (Nat → Nat × Nat)) (arg : Nat → Nat × Nat)
        (r : Except Trap (List LaneAccess × List Effect)) =>
      (∀ t, r = .error t → s.Traps w i once t) ∧
      ∀ rows es, r = .ok (rows, es) → s.Retires i (I.atomic x ty ret arg rows es) ∧
        ((∀ q ∈ rows, q.remote = none ∧ (q.place.sp = .phys →
            s.ticked.writeWaits q.place.off (s.ticked.epochOf s.cur) = false)) →
          s.ticked.drainable s.cur = true → (x.ord = 0 ∨ x.ord = 1 ∨ (x.scope < 5 ∧ I.holdBack = none)) →
          (I.atomic x ty ret arg rows es).2 = .next) ∧
        ∀ q b, rows = [q] → es = [] → q.pieces = [(q.place, accessBytes ty)] → q.place.sp = .shared b → s.Inv →
          ty ∈ [2, 3, 6, 7, 8, 9] → s.ticked.piecesPoisoned q.pieces = false → w.ctl.storeQ = [] →
          (x.ord = 0 ∨ x.ord = 1 ∨ (x.scope < 5 ∧ I.holdBack = none)) →
          let n := accessBytes ty
          let off := q.place.off
          let old := ofBytes ((s.sh b).bytes off n)
          ∃ t, exec i s = .next t ∧
            ofBytes ((t.sh b).bytes off n) = atomFn x.op ty old (arg q.lane).1 (arg q.lane).2 ∧
            (∀ a, (a < off ∨ off + n ≤ a) → (t.sh b).get a = (s.sh b).get a) ∧ t.mem = s.mem ∧ t.tiles = s.tiles ∧
            ∀ g, ret = some g → ∃ o ∈ (t.ctl s.cur).flagOps, o.id = s.ids ∧ o.flag = bits I.slice.h0.toNat 19 16 ∧
              o.writes = regOut ty (g q.lane).1 (g q.lane).2 old
    let arg := fun l => ((s.at w).vsrc ty x.v l, if x.op = 7 then (s.at w).vsrc ty x.c l else 0)
    (s.Admits w { cls := .e, legal := atomLegal x ty [d], vs := vregs ty d ++ atomVs x ty ++ formVs f, ss := formSs f
                  dst := vregs ty d } →
      ends (.atom d f x) false (some fun l => (l, d)) arg (rowsOf 32)) ∧
    (s.Admits w { cls := .e, legal := atomLegal x ty [], vs := atomVs x ty ++ formVs f, ss := formSs f } →
      ends (.red f x) false none arg (rowsOf 48)) ∧
    (s.Admits w { cls := .a, once := true, ss := vregs ty d ++ [a, a + 1] ++ opRegs b ++ codeRegs ty x.v ++
                    (if x.op = 7 then codeRegs ty x.c else []) } →
      okReg ty d = true → (x.v < 160 → okReg ty x.v = true) → (x.op = 7 → x.c < 160 → okReg ty x.c = true) →
      (∀ r ∈ codeRegs ty x.v, r < 160) →
      let ea := (I.pair a + (I.op b).signExtend 64).toNat
      ends (.atoms d a b x) true (some fun _ => (32, d))
        (fun _ => (I.atomOperand ty x.v, if x.op = 7 then I.atomOperand ty x.c else 0))
        (gather s.ticked 2 (32 + x.op) ty [(I.lane, ea, I.atomAccess x.op ty I.lane ea)]))) ∧
  (
  ∀ (ty old v c : Nat), ty ∈ [2, 3, 6, 7, 8, 9] →
    let w := if ty = 3 ∨ ty = 7 ∨ ty = 9 then 64 else 32
    let sg := ty = 2 ∨ ty = 3
    old < 2 ^ w → v < 2 ^ w → c < 2 ^ w →
    atomFn 0 ty old v c = (old + v) % 2 ^ w ∧
    (sg → (signed w (atomFn 1 ty old v c) = min (signed w old) (signed w v)) ∧
      (signed w (atomFn 2 ty old v c) = max (signed w old) (signed w v))) ∧
    (¬sg → atomFn 1 ty old v c = min old v ∧ atomFn 2 ty old v c = max old v) ∧
    atomFn 3 ty old v c = old &&& v ∧ atomFn 4 ty old v c = old ||| v ∧ atomFn 5 ty old v c = old ^^^ v ∧
    atomFn 6 ty old v c = v ∧ atomFn 7 ty old v c = (if old = c then v else old) ∧
    atomFn 8 ty old v c = (if v ≤ old then 0 else old + 1))

/-- R194 to R196, R202, R203: the cache, TLB and page-table words in the modes that may execute them. TLBINV waits until every
access translated before it has reached its home; the model's choice of log entry 25: it drains every store queue of the
chip. PTWR writes an entry unless a valid one would replace a valid one, and answers the entry that stands; it waits until
the warp's stores and its own can become visible, and consumes a poisoned entry (R26). -/
def Obligations.CacheAndTranslationWords : Prop :=
  ∀ (s : State) (w : Warp) (a b : Nat) (x : SOp), s.Issuing w →
    let I := s.at w
    let pa := (I.pair a).toNat
    s.Retires .cctlCinv ([.ccache (s.ccache.filter fun p => p.1 / 2 ^ 50 / 3 != coreOf s.cur)], .next) ∧
    (w.ctl.priv = true →
      ((∀ n ∈ [a, a + 1] ++ opRegs x, n < w.ctl.sbudget) →
        (I.op x = 0 → s.Retires (.icinv a x) ([.icache []], .next)) ∧
        (∀ va, I.op x ≠ 0 → generic pa = .virt va →
          let fs := s.ticked.frames4k (s.blk (blockOf s.cur)).ctx pa (I.op x).toNat
          s.Retires (.icinv a x)
            ([.icache (s.icache.filter fun p => !(p.2.any fun q => lineIn fs pa (I.op x).toNat q.1))], .next)) ∧
        (let since := match I.slice.wait with | some (.quiet n) => n | _ => s.ids
          let quiet := (∀ p ∈ s.ticked.warps, s.ticked.drainable p.1 = true) ∧
            (∀ c ∈ s.copies, c.id < since → c.sends = []) ∧ ∀ r ∈ s.fab.reqs, since ≤ r.id
          let valid := (I.op x).toNat % 4 = 0 ∨ ((I.op x).toNat % 4 < 3 ∧ a = 0)
          (valid → ¬quiet → s.Retires (.tlbinv a x) (drainEvery s.ticked, .wait (.quiet since))) ∧
          (quiet →
          let ctx := (I.op x).toNat / 2 ^ 8 % 64
          let keep := fun (f : Tlb → Bool) =>
            s.Retires (.tlbinv a x) (chain s.ticked [drainEvery, fun s' => [.tlb (s'.tlb.filter f)]], .next)
          ((I.op x).toNat % 4 = 2 → a = 0 → keep fun _ => false) ∧
          ((I.op x).toNat % 4 = 1 → a = 0 → keep fun t => t.ctx != ctx) ∧
          ((I.op x).toNat % 4 = 0 → keep fun t => !(t.ctx == ctx && t.base == pa / t.walk.size * t.walk.size))))) ∧
      ((∀ n ∈ [a, a + 1, b, b + 1], n < w.ctl.sbudget) →
        (pa % 8 ≠ 0 → s.Traps w (.ptwr a b) true { code := 0x06, addr := pa }) ∧
        (pa % 8 = 0 → pa < 2 ^ 43 → (region pa = .hbm ∨ region pa = .host) → s.ticked.poisonedRange pa 8 = true →
          s.Traps w (.ptwr a b) true { code := 0x12, addr := pa }) ∧
        (pa % 8 = 0 → pa < 2 ^ 43 → (region pa = .hbm ∨ region pa = .host) → s.ticked.poisonedRange pa 8 = false →
          s.ticked.drainable s.cur = false → s.Retires (.ptwr a b) ([], .wait (.home pa))) ∧
        (pa % 8 = 0 → pa < 2 ^ 43 → (region pa = .hbm ∨ region pa = .host) → s.ticked.poisonedRange pa 8 = false →
          s.ticked.drainable s.cur = true → s.ticked.writeWaits pa (s.ticked.epochOf s.cur) = false →
          s.Retires (.ptwr a b) (chain s.ticked [fun s' => drainAll s' s.cur, fun s' =>
            let old := s'.phys pa 8
            let new := (I.pair b).toNat
            if new % 2 = 0 ∨ old % 2 = 0
            then s'.physWrite pa (leBytes 8 new) (s'.epochOf s.cur) (some (s.cur, lowest 8 s.slices)) ++
              pairOut s.cur b (dword new)
            else pairOut s.cur b (dword old)], .next)))) ∧
    (w.ctl.priv = false → w.ctl.helper = none →
      s.Traps w (.icinv a x) true { code := 0x18 } ∧ s.Traps w (.tlbinv a x) true { code := 0x18 } ∧
      s.Traps w (.ptwr a b) true { code := 0x18 } ∧ s.Traps w .sret true { code := 0x18 })

/-- R274 to R279: the queue words on a header in its form with room or a handle, and the guard words. A push puts its
handle after the entries there and counts it; a pop takes the head's, and moves the head on by one modulo the capacity. -/
def Obligations.QueueAndGuardWords : Prop :=
  (
  ∀ (s : State) (w : Warp) (d e n : Nat) (a b : SOp), s.Issuing w →
    (∀ n ∈ [d, d + 1] ++ opRegs a ++ opRegs b, n < w.ctl.sbudget) →
    let I := s.at w
    let off := (I.op a).toNat
    let h := (I.op b).toNat
    let k := blockOf s.cur
    let shblk := (s.blk k).img.shblk
    let pre := drainAll s.ticked s.cur
    let u := applyAll pre s.ticked
    let q := u.queue k off
    let who := some (s.cur, lowest 8 s.slices)
    (off % 64 = 0 → off + 64 ≤ shblk → 2 ≤ h → h ≤ 64 →
      let st : QStore := { sp := .shared k, off, bytes := leBytes 64 (h + e * 2 ^ 24), sl := lowest 8 s.slices,
                           epoch := s.ticked.epochOf s.cur }
      s.Retires (.qinit e a b) (s.seen.enqueue [st] s.ticked, .next)) ∧
    (off % 64 = 0 → off + 64 ≤ shblk → s.released → q.malformed = false → off + 64 + 4 * q.cap ≤ shblk →
      let room := q.count < q.cap ∧ u.firstInLine k off u.ids true = true
      let entry := 0 < q.count ∧ u.firstInLine k off u.ids false = true
      (h / 2 ^ 24 % 256 = q.epoch →
        (room → w.ctl.helper = none → s.Retires (.qpush a b) (pre ++ pushStep u k off h who, .next)) ∧
        (¬room → w.ctl.helper = none → s.Retires (.qpush a b) (pre ++ [.ids 1], .wait (.push off h u.ids 0))) ∧
        (room → s.Retires (.qtrypush d a b) (pre ++ (pushStep u k off h who ++ [.sreg s.cur d 1]), .next))) ∧
      (h / 2 ^ 24 % 256 ≠ q.epoch →
        (w.ctl.helper = none → s.Traps w (.qpush a b) true { code := 0x0C, addr := apertureAddr k off }) ∧
        (room → s.Traps w (.qtrypush d a b) true { code := 0x0C, addr := apertureAddr k off })) ∧
      (¬room → s.Retires (.qtrypush d a b) (pre ++ [.sreg s.cur d 0], .next)) ∧
      (entry → w.ctl.helper = none →
        s.Retires (.qpop d a) (pre ++ (popStep u k off who ++ [.sreg s.cur d (word (u.headHandle k off))]), .next)) ∧
      (¬entry → w.ctl.helper = none → s.Retires (.qpop d a) (pre ++ [.ids 1], .wait (.pop off d u.ids 0))) ∧
      (entry → s.Retires (.qtrypop d a) (pre ++ (popStep u k off who ++
        [.sreg s.cur d (word (u.headHandle k off)), .sreg s.cur (d + 1) 1]), .next)) ∧
      (¬entry → s.Retires (.qtrypop d a) (pre ++ [.sreg s.cur d 0, .sreg s.cur (d + 1) 0], .next))) ∧
    (n < 16 →
      let slots := fun (v : Option Bool) => Effect.block k { s.blk k with
        guards := ((List.range 16).map fun i => (s.blk k).guards.getD i none).set n v }
      s.Releases (.gset n b) [fun _ => [slots (some (decide (I.op b ≠ 0)))]] .next ∧
      s.Retires (.gclr n) ([slots none], .next))) ∧
  (
  ∀ (s : State) (b off h : Nat), s.Inv → h < 2 ^ 32 →
    let q := s.queue b off
    q.malformed = false →
    (q.count < q.cap →
      let t := applyAll (pushStep s b off h none) s
      t.queue b off = { q with count := q.count + 1 } ∧
      shWord (t.sh b) (off + 64 + 4 * ((q.head + q.count) % q.cap)) = h ∧
      ∀ i, i < q.count → shWord (t.sh b) (off + 64 + 4 * ((q.head + i) % q.cap)) =
        shWord (s.sh b) (off + 64 + 4 * ((q.head + i) % q.cap))) ∧
    (0 < q.count →
      let t := applyAll (popStep s b off none) s
      t.queue b off = { q with head := (q.head + 1) % q.cap, count := q.count - 1 } ∧
      ∀ i, i < q.cap → shWord (t.sh b) (off + 64 + 4 * i) = shWord (s.sh b) (off + 64 + 4 * i)))

/-- R261 to R263, R268: each copy word, with a descriptor that passes its checks and room on its core, releases at block
scope and leaves one command of its kind in flight, counted in its class; a descriptor that fails a check traps. -/
def Obligations.CopyWordsIssueCommands : Prop :=
  ∀ (s : State) (w : Warp) (ks a : Nat) (gen pen : Bool) (b : SOp), s.Issuing w → w.ctl.helper = none → w.ctl.role = 2 →
    (∀ n ∈ span a 8 ++ (if pen then opRegs b else []), n < w.ctl.sbudget) →
    let d := (s.at w).desc a
    let issues := fun (kind cls : Nat) (i : Instr) =>
      (∀ t, s.copyBad kind (blockOf s.cur) d pen = some t → s.Traps w i true t) ∧
      (s.copyBad kind (blockOf s.cur) d pen = none → 64 ≤ s.copiesOn (coreOf s.cur) → s.Retires i ([], .wait .copies)) ∧
      (s.copyBad kind (blockOf s.cur) d pen = none → s.copiesOn (coreOf s.cur) < 64 →
        (255 ≤ w.ctl.counter cls → s.Retires i ([], .wait (.full cls 1))) ∧
        (w.ctl.counter cls < 255 →
          s.Releases i [fun s' => [.ctl s.cur { s'.ctl s.cur with outs := (s'.ctl s.cur).outs ++ [⟨cls, s'.ids, false⟩] },
            .copies (s'.copies ++ [{ id := s'.ids, k := s.cur, wordv := copyWordOf kind ks gen pen a b, desc := d,
                                     handle := if pen then ((s.at w).op b).toNat else 0, priv := w.ctl.priv, stage := 0,
                                     seq := 0, left := if kind = 2 then setBits 16 (d / 2 ^ 192 % 2 ^ 16) else [] }]),
            .ids 1]] .next))
    issues 0 0 (.cpld ks gen pen a b) ∧ issues 1 0 (.cpst ks gen pen a b) ∧ issues 2 0 (.cpmc ks gen pen a b) ∧
    issues 3 1 (.cpga ks gen pen a b) ∧ issues 4 1 (.cpsc ks gen pen a b) ∧ issues 5 0 (.cpfl ks gen pen a b) ∧
    issues 6 2 (.cprm ks gen pen a b) ∧ issues 7 0 (.cppf ks gen pen a b)

/-- R289, R290, R293, R297: MMA, MMAX and MREL at issue: one operation in the matrix array, counted and bound to SETB.
R291, R292: what a matrix operation computes. Each of the 4096 elements of its tile is C plus each group's exact sum, scaled
by its blocks' scales in MMAX, rounded to f32, group by group. -/
def Obligations.MatrixWordsAndTheirSums : Prop :=
  (
  ∀ (s : State) (w : Warp) (bt tile a b : Nat) (za : Bool), s.Issuing w →
    let I := s.at w
    let ty := I.ty
    let setb := bits I.slice.h0.toNat 15 12
    let blank : Mat := { id := 0, k := s.cur, kind := 0, tile, ty := 0, bt := 0, za := false, a := 0, b := 0, off := 0,
                         handle := 0, started := false, opA := [], opB := [], shadow := [], shadowPoison := [], result := [],
                         replayed := false, failed := false }
    let joins := fun (m : State → Mat) => [fun s' => count s.cur 5 s'.ids s',
      fun s' => [Effect.mats (s'.mats ++ [{ m s' with id := s'.ids }])],
      fun s' => bindOp s' s.cur s.slices setb [] [] true]
    let array := fun (mx : Bool) (i : Instr) => ∀ tb, mmaTypeB mx ty bt = some tb →
      s.Admits w { cls := .m, tiles := [tile], vs := span a (operandRegs mx ty) ++ span b (operandRegs mx tb) } →
      let starts := (s.arrayOps (coreOf s.cur)).length < 4 ∧
        ∀ m ∈ s.mats, m.suspended = true → blockOf m.k = blockOf s.cur → m.tile = tile → m.kind = 2
      (¬starts → exec i s = .next (s.retire [] .again)) ∧
      (starts → w.ctl.counter 5 < 255 → s.Releases i
        (joins fun _ => { blank with kind := if mx then 1 else 0, ty, bt := tb, za, a, b }) .next) ∧
      (starts → 255 ≤ w.ctl.counter 5 → s.Retires i ([], .wait (.full 5 1)))
    array false (.mma bt za tile a b) ∧ array true (.mmax bt za tile a b) ∧
    ∀ x h : SOp, s.Admits w { cls := .m, tiles := [tile], ss := opRegs x ++ opRegs h } →
      let off := (I.op x).toNat
      let k := blockOf s.cur
      (off % 64 ≠ 0 → s.Traps w (.mrel tile x h) true { code := 0x06, addr := apertureAddr k off }) ∧
      (off % 64 = 0 → (s.blk k).img.shblk < off + 64 →
        s.Traps w (.mrel tile x h) true { code := 0x09, addr := apertureAddr k off }) ∧
      (off % 64 = 0 → off + 64 ≤ (s.blk k).img.shblk → w.ctl.counter 5 < 255 →
        s.Retires (.mrel tile x h) (chain s.ticked (joins fun _ => { blank with
          kind := 2, off, handle := (I.op h).toNat
          failed := s.mats.any fun m => m.kind != 2 && m.failed && blockOf m.k == k && m.tile == tile }), .next))) ∧
  (
  ∀ (x : Mat) (m n : Nat), m < 64 → n < 64 → (x.za = true ∨ 64 * m + n ∉ x.shadowPoison) →
    let g := if shapeK x.ty = 32 then 16 else 32
    let sum := fun j => Val.sum false ((span (g * j) g).map fun k =>
      Val.mul (fragElem x.opA x.ty m k) (fragElem x.opB x.bt n k))
    let scaled := fun j => if x.kind = 1
      then Val.mul (Val.mul (sum j) (valE8m0 (fragScale x.opA x.ty m j))) (valE8m0 (fragScale x.opB x.bt n j)) else sum j
    let c := if x.za then 0 else (x.shadow.get (64 * m + n)).toNat
    (mmaResult x).get (64 * m + n) =
      word ((span 0 (shapeK x.ty / g)).foldl (fun c j => add32 c (round32 (scaled j))) c))

/-- R299 to R303: TLD, TST and TZERO. A descriptor that passes its checks moves its window, as one operation bound to SETA or
SETB; a window that reads a poisoned element moves nothing and defers its trap; a descriptor that fails a check traps. The
model's readings of log entry 28: TLD reads its elements and TST adds onto them as the word issues, and a flush follows FZ. -/
def Obligations.TileWordsMoveWindows : Prop :=
  ∀ (s : State) (w : Warp) (d a tile : Nat) (b : SOp),
    let I := s.at w
    let ty := I.ty
    let x := (I.rs a).toNat
    let seta := bits I.slice.h0.toNat 19 16
    let setb := bits I.slice.h0.toNat 15 12
    let step := if I.rnd = 5 then [Effect.lfsr s.cur (lfsrStep w.lfsr)] else []
    let bind := fun (sup : Bool) (flag : Nat) (ws : List RegWrite) (trap : Option (Nat × Trap)) =>
      [Effect.ctl s.cur { s.ticked.ctl s.cur with flagOps := (s.ticked.ctl s.cur).flagOps ++
        [{ id := s.ids, flag, slices := s.slices, writes := ws, trap, sup }] }, .ids 1]
    (I.rnd < 6 →
      (okTld ty = true →
        s.Admits w { cls := .e, legal := opLegal b 0x0C, vs := [d], ss := a :: opRegsT b 0x0C
                     dst := if I.tileFault true d x = 0 then span d (tdRows x) else [] } →
        (I.tileFault true d x ≠ 0 → s.Traps w (.tld d a b) false { code := I.tileFault true d x }) ∧
        (I.tileFault true d x = 0 → s.seen.tilePoisoned x = none →
          s.Retires (.tld d a b) (step ++ bind w.ctl.priv seta (s.seen.tileLoad d b x) none, .next)) ∧
        (∀ t, I.tileFault true d x = 0 → s.seen.tilePoisoned x = some t →
          s.Retires (.tld d a b) (step ++ bind w.ctl.priv seta [] (some t), .next))) ∧
      (okTst ty = true →
        s.Admits w { cls := .e, legal := opLegal b 0x0C, vs := [d], ss := a :: opRegsT b 0x0C } →
        (I.tileFault false d x ≠ 0 → s.Traps w (.tst d a b) false { code := I.tileFault false d x }) ∧
        (I.tileFault false d x = 0 → (tdAdd x = false ∨ s.seen.tilePoisoned x = none) →
          s.Retires (.tst d a b) (step ++ bind false setb (s.seen.tileStore d b x) none, .next)) ∧
        (∀ t, I.tileFault false d x = 0 → tdAdd x = true → s.seen.tilePoisoned x = some t →
          s.Retires (.tst d a b) (step ++ bind false setb [] (some t), .next)))) ∧
    (s.Admits w { cls := .e, once := true, tiles := [tile] } →
      s.Retires (.tzero tile) (bind w.ctl.priv setb ((span 0 4096).map fun i => .t (4096 * tile + i) 0) none, .next))

/-- R306 to R321: the recruitment words; a helper ends once its flag operations are over, and a fault that one of them met
is its foreman's (R322, R324). The model's reading of log entry 74: HJOIN whose answer 0 goes to a destination in the view
traps with 0x0D. R314, R315: an index dealt to a lane is the next iteration of the lowest-numbered
stream with iterations left that its holder has; index lo + 32 j + t stands at place j of stream t, and is dealt once. -/
def Obligations.RecruitmentWords : Prop :=
  (
  ∀ (s : State) (w : Warp) (d a md ask m e : Nat) (rk : Bool), s.Issuing w → w.ctl.role = 0 →
    let I := s.seen
    let seta := bits I.slice.h0.toNat 19 16
    (s.Admits w { cls := .e, ss := d :: span a 4 } →
      (∀ code, I.recruitCode = some code →
        s.Retires (.recruit d a md ask rk) (.sreg s.cur d (word code) :: I.maskOut md 0, .next)) ∧
      (∀ es, I.recruitCode = none → I.target (I.pair a) = .ok es → s.released →
        let idle := s.ticked.idleSlices s.cur (I.act.headD 0 / 4)
        let g := min (ask + 1) (min idle.length (s.ticked.helperRoom (coreOf s.cur)))
        let code := if g = ask + 1 then 0 else if 0 < g then 1 else if idle = [] then 2 else 3
        let x : Span := {
          lane := I.act.headD 0, entry := (I.pair a).toNat, lo := (I.rs (a + 2)).toNat, hi := (I.rs (a + 3)).toNat, i32 := rk
          crew := (idle.take g).map fun p => some (helperKey p.1 p.2),
          streams := (span 0 32).map fun t => ⟨0, 0, 0, if g = 0 then none else some (t % (4 * g))⟩, cur := none }
        s.Retires (.recruit d a md ask rk) (chain s.ticked ((fun (s' : State) => drainAll s' s.cur) :: (fun (_ : State) => es) ::
          (fun (s' : State) => [Effect.ctl s.cur { s'.ctl s.cur with span := some x }]) ::
          ((idle.take g).mapIdx (fun r p => grantSlice s.cur (I.pair a).toNat r p) ++
            [fun (_ : State) => Effect.sreg s.cur d (word code) :: I.maskOut md (word (2 ^ (4 * g) - 1))])), .next))) ∧
    (∀ x, w.ctl.helper = none → w.ctl.span = some x →
      (s.Admits w { cls := .e, vs := [d], dst := [d], dlanes := some (2 ^ x.lane) } →
        let r := dealLanes (fun _ => none) [x.lane] x
        let got := r.2.filter fun p => p.2.isSome
        let new := (w.readM m &&& ~~~ word (2 ^ x.lane)) ||| word (maskOf (got.map Prod.fst))
        s.Retires (.hidx d m) ([.ctl s.cur { I.c with span := some { r.1 with
            cur := (r.2.headD (0, none)).2.map Prod.fst } }] ++
          (got.map fun p => .vreg s.cur d p.1 (word ((p.2.map Prod.snd).getD 0))) ++ [.mask s.cur m new] ++
          I.recall m new, .next)) ∧
      (s.Admits w { cls := .e, vs := [d], dst := [d] } → m < min w.ctl.vb 32 →
        s.Retires (.hrd d m) (bindOp s.ticked s.cur s.slices seta
          (I.act.map fun l => .v d l (I.v m x.lane)) [] false, .next)) ∧
      (s.Admits w { cls := .e, vs := [a] } → (∀ l ∈ I.act, l = x.lane) → ∀ t, x.cur = some t →
        s.Retires (.hred a) ([.ctl s.cur { I.c with span := some (I.act.foldl (fun x l => x.add t (I.v a l)) x) }], .next)) ∧
      (s.Admits w { cls := .e, helper := false, vs := [d], ss := [e] } →
        ((∃ c ∈ x.crew, c.isSome = true) → s.Retires (.hjoin d e) ([], .wait (.hjoin d e))) ∧
        ((∀ c ∈ x.crew, c = none) → (span 0 32).any x.left = true →
          (w.ctl.priv = true ∨ viewSize w.ctl ≤ d → s.GivesScalar (.hjoin d e) e 0) ∧
          (w.ctl.priv = false → d < viewSize w.ctl → s.Traps w (.hjoin d e) true { code := 0x0D })) ∧
        ((∀ c ∈ x.crew, c = none) → (span 0 32).any x.left = false →
          s.Retires (.hjoin d e)
            ([.ctl s.cur { I.c with span := none }, .vreg s.cur d x.lane x.total, .sreg s.cur e 1], .next)))) ∧
    (w.ctl.helper = none →
      s.Retires .dismiss ((((w.ctl.span.map Span.crew).getD []).filterMap id).map (fun q =>
        .ctl q { s.ticked.ctl q with helper := (s.ticked.ctl q).helper.map fun h => { h with asked := true } }), .next)) ∧
    (∀ h, w.ctl.helper = some h →
      let leaves := fun (i : Instr) =>
        (w.ctl.flagOps = [] → I.slice.defer = [] → s.Releases i [endHelper s.cur h] .placed) ∧
        (I.holdBack = none → w.ctl.flagOps ≠ [] → I.slice.defer = [] → exec i s = .next (s.retire [] .again)) ∧
        ∀ t ts, I.holdBack = none → I.slice.defer = t :: ts →
          s.Retires i (chargeForeman s.ticked s.cur h t, .placed)
      leaves .hend ∧
      ∀ x, (s.ticked.ctl h.foreman).span = some x →
        let lanes := span (4 * h.slice) 4
        (s.Admits w { cls := .e, vs := [d], dst := [d], dlanes := some (maskOf lanes) } →
          (h.asked = true → leaves (.hidx d m)) ∧
          (h.asked = false →
            let r := dealLanes (fun l => some (4 * h.rank + l % 4)) lanes x
            let got := r.2.filter fun p => p.2.isSome
            let new := (w.readM m &&& ~~~ word (maskOf lanes)) ||| word (maskOf (got.map Prod.fst))
            s.Retires (.hidx d m) ([.ctl h.foreman { s.ticked.ctl h.foreman with span := some r.1 },
              .ctl s.cur { I.c with helper := some { h with cur := r.2.map fun p => p.2.map Prod.fst } }] ++
              (got.map fun p => .vreg s.cur d p.1 (word ((p.2.map Prod.snd).getD 0))) ++ [.mask s.cur m new], .next))) ∧
        (s.Admits w { cls := .e, vs := [d], dst := [d] } → m < viewSize (s.ticked.ctl h.foreman) →
          s.Retires (.hrd d m) (bindOp s.ticked s.cur s.slices seta
            (I.act.map fun l => .v d l (s.ticked.readV h.foreman m x.lane)) [] false, .next)) ∧
        (s.Admits w { cls := .e, vs := [a] } → (∀ l ∈ I.act, (h.cur.getD (l % 4) none).isSome = true) →
          s.Retires (.hred a) ([.ctl h.foreman { s.ticked.ctl h.foreman with
            span := some (I.act.foldl (fun x l => x.add ((h.cur.getD (l % 4) none).getD 0) (I.v a l)) x) }], .next)))) ∧
  (
  ∀ (x : Span) (holder : Option Nat), x.streams.length = 32 →
    match x.deal holder with
    | (y, none) => y = x ∧ ∀ t z, x.streams[t]? = some z → z.holder = holder → x.hi - x.lo ≤ 32 * z.next + t
    | (y, some (t, i)) => ∃ st, x.streams[t]? = some st ∧ st.holder = holder ∧ i = x.lo + 32 * st.next + t ∧ i < x.hi ∧
        y = { x with streams := x.streams.set t { st with check := st.part, next := st.next + 1 } } ∧
        ∀ u z, u < t → x.streams[u]? = some z → z.holder = holder → x.hi - x.lo ≤ 32 * z.next + u)

/-- R342, R343, R345, R353: COLL arrives, with a descriptor that passes its checks, and COLLQ reads what R353 lists. With
no collective incomplete the spec states no value for selectors 1 and 2: a free word (log entry 2). -/
def Obligations.CollectiveWords : Prop :=
  ∀ (s : State) (w : Warp) (form d tile a : Nat) (tsrc op : Bool) (b : SOp),
    let I := s.at w
    let blk := blockOf s.cur
    let i : Instr := .coll form tsrc op tile a
    (s.Admits w { cls := .b, legal := okCollType form tsrc op I.ty && decide (I.rnd < 5) && !w.ctl.parted, ss := span a 8
                  tiles := if tsrc then [tile] else [] } →
      (∀ t, I.collBad form tsrc op (I.desc a) = some t → s.Traps w i true t) ∧
      (I.collBad form tsrc op (I.desc a) = none → 255 ≤ w.ctl.counter 3 → s.Retires i ([], .wait (.full 3 1))) ∧
      (I.collBad form tsrc op (I.desc a) = none → w.ctl.counter 3 < 255 →
        let v := pack [(24, 8, 0xF0), (22, 2, form), (21, 1, if tsrc then 1 else 0), (20, 1, if op then 1 else 0),
          (16, 4, tile), (8, 8, a)]
        s.Releases i [fun s' => count s.cur 3 s'.ids s',
          fun s' => [.block blk { s'.blk blk with
            coll := (s'.blk blk).coll ++ [(s.cur, s'.ids, v * 65536 + I.mode, I.desc a, w.ctl.priv)] }, .ids 1],
          fun s' => collTry blk ((s'.blk blk).coll.length + 1) s'] .next)) ∧
    (s.Admits w { cls := .a, ss := d :: opRegs b } →
      let sel := (I.op b).toNat
      let gives := fun (x : Nat) => s.GivesScalar (.collq d b) d (word x)
      (sel = 0 → gives (s.openColls blk).length) ∧
      (∀ c cs, s.openColls blk = c :: cs →
        (sel = 1 → gives c.written.length) ∧
        (sel = 2 → gives (if c.form = 1 ∨ c.form = 3 then c.units else c.n * c.units))) ∧
      (s.openColls blk = [] → sel = 1 ∨ sel = 2 → s.GivesScalar (.collq d b) d (Config.freeWord (1048576 * s.fresh + 1))) ∧
      (sel = 3 → gives (s.blk blk).retries) ∧ (sel = 4 → gives s.planes.length) ∧
      (4 < sel → s.Traps w (.collq d b) true { code := 0x01 }))

/-- R362, R364, R370 to R372: the combine words on this chip. CMBCFG takes its number or says why not; CMBDISP sends one
request for each active lane; CMBPUT also, to the chip that its name gives (one that is not routed ends with the trap of
R335); CMBWAIT, CMBQ and CMBDRAIN read and end a buffer. The model's readings of log entry 30: a name with low bits set names
no buffer, and one LMASK takes in all lanes of a fault. -/
def Obligations.CombineWords : Prop :=
  ∀ (s : State) (w : Warp) (d a t x n : Nat) (b c : SOp),
    let I := s.seen
    let ctx := (s.blk (blockOf s.cur)).ctx
    (s.Admits w { cls := .l, ss := d :: span a 8 ++ opRegs b } →
      let y := I.desc a
      let k := (I.op b).toNat
      let gives := fun (es : List Effect) (code : Word) => s.Retires (.cmbcfg d a b) (es ++ [.sreg s.cur d code], .next)
      (∀ e, I.cfgBad y = some e → s.Traps w (.cmbcfg d a b) true e) ∧
      (I.cfgBad y = none → s.snap.st ≠ 1 →
        let free := (s.cmb ctx k).filter fun z => z.owner == unowned && z.desc == y
        (free.isSome = true → gives [.cmbs (s.cmbs.map fun z =>
          if z.ctx = ctx ∧ z.buf = k then { z with owner := blockOf s.cur, priv := w.ctl.priv } else z)] 0) ∧
        (free = none → 31 < k ∨ (s.cmb ctx k).isSome = true → gives [] 1) ∧
        (k < 32 → s.cmb ctx k = none → s.slicesInService.all (s.combineRoom y) = false → gives [] 2) ∧
        (k < 32 → s.cmb ctx k = none → s.slicesInService.all (s.combineRoom y) = true → gives [.cmbs (s.cmbs ++
          [{ ctx, buf := k, owner := blockOf s.cur, desc := y, homes := s.slicesInService, priv := w.ctl.priv }])] 0))) ∧
    (let name := (I.op b).toNat
     let tok := fun (r l : Nat) => (I.v r l).toNat % 65536
     let req : CmbReq := { id := 0, k := s.cur, sl := lowest 8 s.slices, lane := 0, put := false, ctx, name, tok := 0
                           experts := [], weights := [], rowAddr := 0, len := 0, priv := w.ctl.priv, stage := 0
                           joins := false, chip := 0, plane := 0, tag := 0, epoch := s.epochOf s.cur
                           wordv := (I.slice.words.getD I.slice.idx 0).toNat }
     (s.Admits w { cls := .e, helper := false, vs := [t, x], ss := opRegs b } →
        (∀ e, I.buffer name I.active (tok t (I.act.headD 0)) 0 = .error e → s.Traps w (.cmbdisp t x b) false e) ∧
        ∀ m, I.buffer name I.active (tok t (I.act.headD 0)) 0 = .ok m → x + 2 * bK m.desc ≤ w.ctl.vbudget →
          I.countRoom I.act.length = true → s.released →
          s.Retires (.cmbdisp t x b) (I.sendLanes (I.act.map fun l => { req with
            lane := l, tok := tok t l, experts := (span 0 (bK m.desc)).map fun j => tok (x + j) l
            weights := (span 0 (bK m.desc)).map fun j => I.v (x + bK m.desc + j) l }) false name)) ∧
     (s.Admits w { cls := .e, helper := false, vs := [t, t + 1, x, x + 1], ss := opRegs b } → x % 2 = 0 →
        let remote := decide (nameChip name ≠ s.chip)
        let len := if remote then 1 else match s.cmb ctx (nameBuf name) with
          | some y => if bits name 17 0 = 0 then bRowBytes y.desc else 1
          | none => 1
        let routed := remote = true → (s.mgmt.routing.get (nameChip name)).getLsbD 15 = true
        (∀ l ∈ I.act, I.rowBad (I.vpair x l).toNat len = none) →
        (¬routed → s.Releases (.cmbput t x b) [I.noRoute (nameChip name)] .next) ∧
        (routed → I.countRoom I.act.length = true → s.released →
        (remote = true → s.ticked.maySend s.cur = true) →
        s.Retires (.cmbput t x b) (I.sendLanes (I.act.map fun l => { req with
          put := true, lane := l, tok := tok t l, experts := [tok (t + 1) l], rowAddr := (I.vpair x l).toNat, len
          joins := remote }) remote name)))) ∧
    (s.Admits w { cls := .a, helper := false, ss := n :: opRegs b ++ opRegs c } →
      let lo := (I.op b).toNat
      let hi := (I.op c).toNat
      ∀ y, I.buffer (I.rs n).toNat 0 0 0 = .ok y → hi ≤ bNtok y.desc →
        (hi ≤ lo ∨ y.releasedIn lo hi = true → s.GivesFlow (.cmbwait n b c) .next) ∧
        (lo < hi → y.releasedIn lo hi = false →
          let first := ((span lo (hi - lo)).find? fun t => !y.released.contains t).getD lo
          s.Retires (.cmbwait n b c)
            ([], .wait (.release y.ctx y.buf lo hi ((bOut y.desc + first * bOstride y.desc) % 2 ^ 64))))) ∧
    (s.Admits w { cls := .a, ss := d :: opRegs b ++ opRegs c } → ∀ y, I.buffer (I.op b).toNat 0 0 0 = .ok y →
      let gives := fun (sel : Word) (v : Nat) => I.op c = sel → s.GivesScalar (.cmbq d b c) d (word v)
      gives 0 y.released.length ∧ gives 1 y.slots.length ∧ gives 2 y.dup ∧ gives 3 y.late ∧ gives 4 y.subs ∧
      gives 5 (y.slots.filter fun z => z.st == 2).length) ∧
    (s.Admits w { cls := .l, ss := d :: opRegs b } →
      (s.cmb ctx (I.op b).toNat = none → s.GivesScalar (.cmbdrain d b) d 0xFFFFFFFF) ∧
      ∀ y, s.cmb ctx (I.op b).toNat = some y →
        let r := drainBuffer y false s.ticked
        let name := s.chip * 2 ^ 23 + y.buf * 2 ^ 18
        (y.lost = true → s.Traps w (.cmbdrain d b) true
          { code := 0x10, addr := name, extk := 6, ext := cmbExt name 0 0 0 0 0 0 [] }) ∧
        (y.lost = false → s.snap.st = 1 → s.postCut (s.epochOf s.cur) = true →
          s.Retires (.cmbdrain d b) ([], .wait (.drained y.ctx y.buf))) ∧
        (y.lost = false → (s.snap.st ≠ 1 ∨ s.postCut (s.epochOf s.cur) = false) → r.stop = none →
          s.Retires (.cmbdrain d b) (r.effs ++ [.sreg s.cur d (word r.count)], .next)))

/-- R375, R376, R393: TRAP and BRK raise their traps; SRD reads and SWR writes the system registers, each with the bits
that it keeps; a number that the mode does not admit traps. -/
def Obligations.TrapAndSystemRegisterWords : Prop :=
  ∀ (s : State) (w : Warp) (d : Nat) (a : SOp), s.Issuing w →
    let I := s.at w
    let b := s.blk (blockOf s.cur)
    let c := s.ctxOf b.ctx
    let core := s.core (coreOf s.cur)
    ((∀ n ∈ opRegs a, n < w.ctl.sbudget) →
      s.Traps w (.trap a) true { code := 0x16, aux := (I.op a).toNat } ∧
      s.Traps w (.brk a) true { code := 0x15, aux := (I.op a).toNat }) ∧
    (d < w.ctl.sbudget →
      s.GivesScalar (.srd d 0x00) d (word (s.chip * 512 + dieOf s.cur * 256 + coreOf s.cur % 96)) ∧
      s.GivesScalar (.srd d 0x01) d (word b.ctx) ∧ s.GivesScalar (.srd d 0x02) d w.lfsr ∧
      (w.ctl.priv = true →
        s.GivesScalar (.srd d 0x03) d w.ctl.dbgctl ∧ s.GivesScalar (.srd d 0x04) d core.parkDelay)) ∧
    (d % 2 = 0 → d + 1 < w.ctl.sbudget →
      s.GivesPair (.srd d 0x24) d w.ctl.pslot ∧
      (let later := { core with cycle := (core.cycle + 1 + Config.freeNat (1048576 * s.fresh + 1000010)) % 2 ^ 64 }
       s.Retires (.srd d 0x26) ([.core (coreOf s.cur) later, .sreg s.cur d (word later.cycle),
         .sreg s.cur (d + 1) (word (later.cycle / 2 ^ 32))], .next)) ∧
      (w.ctl.priv = true → ∀ r ∈ [(0x10, c.saveArea), (0x12, c.stkcfg), (0x14, c.ptroot), (0x16, c.ftpool),
          (0x18, w.ctl.ftesc), (0x1A, c.tvec), (0x1C, c.tfbase), (0x1E, w.ctl.tret), (0x20, c.hfq), (0x22, c.pscfg),
          (0x28, c.htvec)], s.GivesPair (.srd d r.1) d r.2)) ∧
    ((∀ n ∈ sysRegs 0x02 a, n < w.ctl.sbudget) →
      s.Retires (.swr 0x02 a) ([.lfsr s.cur ((I.sysVal 0x02 a).setWidth 32)], .next) ∧
      (w.ctl.priv = true →
        s.Retires (.swr 0x03 a) ([.ctl s.cur { s.ticked.ctl s.cur with
          dbgctl := (I.sysVal 0x03 a).setWidth 32 &&& 0xF }], .next) ∧
        s.Retires (.swr 0x04 a) ([.core (coreOf s.cur) { core with
          parkDelay := (I.sysVal 0x04 a).setWidth 32 &&& 0xFFFF }], .next))) ∧
    (∀ n r, a = .reg r → r % 2 = 0 → r + 1 < w.ctl.sbudget → w.ctl.priv = true →
      let x := I.pair r
      let ctx := fun (y : Ctx) => [Effect.ctx b.ctx y]
      ∀ e ∈ [(0x10, 65536, ctx { c with saveArea := x }), (0x12, 1, ctx { c with stkcfg := x &&& 0x01FFFFFFFFFFFFFF }),
          (0x14, 1, ctx { c with ptroot := x &&& 0x000007FFFFFFF000 }), (0x16, 1, ctx { c with ftpool := x }),
          (0x18, 1, [.ctl s.cur { s.ticked.ctl s.cur with ftesc := x &&& 0x81FFFFFFFFFFFFFC }]),
          (0x1A, 8, ctx { c with tvec := x }), (0x1C, 65536, ctx { c with tfbase := x }),
          (0x1E, 1, [.ctl s.cur { s.ticked.ctl s.cur with tret := x &&& 0xF9FFFFFFFFFFFFF8 }]),
          (0x20, 1024, ctx { c with hfq := x }), (0x22, 1, ctx { c with pscfg := x &&& 0xFFFFFFFFFFFF0000 }),
          (0x28, 8, ctx { c with htvec := x })], e.1 = n →
        (x.toNat % e.2.1 = 0 → s.Retires (.swr n a) (e.2.2, .next)) ∧
        (x.toNat % e.2.1 ≠ 0 → s.Traps w (.swr n a) true { code := 0x06, addr := x.toNat })) ∧
    (w.ctl.priv = false → w.ctl.helper = none →
      (∀ n ∈ [0x03, 0x04, 0x10, 0x12, 0x14, 0x16, 0x18, 0x1A, 0x1C, 0x1E, 0x20, 0x22, 0x28],
        (d % 2 = 0 → s.Traps w (.srd d n) true { code := 0x18 }) ∧
        (sysOperand n a = true → s.Traps w (.swr n a) true { code := 0x18 })) ∧
      s.Traps w .sret true { code := 0x18 })

/-- R385, R386, R392, R206: SRET returns to the resume point, or escalates; LAUNCH appends a record where there is room;
JOIN takes its count from a record's JOIN word. The memory must be this chip's (log entry 9). -/
def Obligations.ReturnLaunchAndJoin : Prop :=
  ∀ (s : State) (w : Warp) (d a b : Nat) (x : SOp),
    let I := s.seen
    (s.Admits w { cls := .s } → w.ctl.ftesc.getLsbD 63 = false →
      (∀ t, s.ticked.resumeClause s.cur w.ctl.tret = .error t → s.Traps w .sret true t) ∧
      ∀ r es, s.ticked.resumeClause s.cur w.ctl.tret = .ok (r, es) →
        s.Retires .sret (chain s.ticked [fun _ => es, fun s' => leaveHandler s' s.cur r,
          fun s' => [.ctl s.cur ((s'.ctl s.cur).endClause s.slices (!(s'.lent s.cur).isEmpty))]], .placed)) ∧
    (s.Admits w { cls := .s } → w.ctl.ftesc.getLsbD 63 = true →
      let va := resolutionVa w.ctl.ftesc
      ∀ p es, s.ticked.virt 0 (s.blk (blockOf s.cur)).ctx va 0 false (coreOf s.cur) = .ok (p, es) → p.sp = .phys →
        let c := { (I.c.onSlices s.slices fun x => { x with park := if w.ctl.parted then some (7, va, []) else none }) with
          ftesc := w.ctl.ftesc &&& 0x7FFFFFFFFFFFFFFF }
        let stay := w.ctl.parted || w.ctl.helper.isSome || w.ctl.span.isSome || !(s.lent s.cur).isEmpty
        s.Retires .sret (es ++ [.ctl s.cur (if stay then c else c.park 7 va)],
          .wait (.escalated va p.off (decide (s.phys p.off 4 ≠ 0))))) ∧
    (s.Admits w { cls := .l, ss := [d, a, a + 1, b, b + 1] } →
      let rec_ := (I.pair a).toNat
      let rcb := (I.pair b).toNat
      (rec_ % 128 ≠ 0 → s.Traps w (.launch d a b) true { code := 0x06, addr := rec_ }) ∧
      ∀ v p es line, rec_ % 128 = 0 → w.ctl.storeQ = [] → generic rec_ = .virt v → I.recordAt rcb 256 128 8 = .ok (p, es) →
        I.line0At rcb = .ok line →
        let used := (s.phys (p.off + 4) 4 + 2 ^ 32 - s.phys p.off 4) % 2 ^ 32
        let room := rcbQcapl line ≠ 0 ∧ used < 2 ^ rcbQcapl line
        (¬room → s.Releases (.launch d a b) [fun _ => es ++ [.sreg s.cur d 0]] .next) ∧
        ∀ q fs, room →
          I.recordAt ((rcbQbase line + 8 * (s.phys (p.off + 4) 4 % 2 ^ rcbQcapl line)) % 2 ^ 64) 8 0 8 = .ok (q, fs) →
          s.ticked.writeWaits p.off (s.epochOf s.cur) = false → s.ticked.writeWaits q.off (s.epochOf s.cur) = false →
          s.Releases (.launch d a b) [fun _ => es ++ fs,
            fun s' => chain s' [
              fun s' => s'.physWrite q.off (leBytes 8 rec_) (s'.epochOf s.cur) (some (s.cur, lowest 8 s.slices)),
              fun s' => s'.physWrite (p.off + 4) (leBytes 4 (s.phys (p.off + 4) 4 + 1)) (s'.epochOf s.cur)
                (some (s.cur, lowest 8 s.slices))],
            fun _ => [.sreg s.cur d 1]] .next) ∧
    (s.Admits w { cls := .a, ss := [d, a, a + 1] ++ opRegs x } →
      (∀ t, I.recordAt (I.pair a).toNat 128 76 4 = .error t → s.Traps w (.join d a x) true t) ∧
      ∀ p es, I.recordAt (I.pair a).toNat 128 76 4 = .ok (p, es) → s.ticked.writeWaits p.off (s.epochOf s.cur) = false →
        s.Releases (.join d a x) [fun _ => es, fun s' =>
          let old := s'.phys p.off 4
          let n := (I.op x).toNat
          chain s' [
            fun s' => if n ≤ old then s'.physWrite p.off (leBytes 4 (old - n)) (s'.epochOf s.cur)
              (some (s.cur, lowest 8 s.slices)) else [],
            fun s' => if n = old then wakeContext (s.blk (blockOf s.cur)).ctx s' else [],
            fun _ => [.sreg s.cur d (word old)]]] .next)

/-- R404, R417: SNAP arms a snapshot, or answers why not; SNAPQ reads what R417 lists. With no snapshot the spec states no
cut: a free word (log entry 2). -/
def Obligations.SnapshotWords : Prop :=
  ∀ (s : State) (w : Warp) (a : Nat) (b : SOp),
    let I := s.seen
    let x := s.snap
    (s.Admits w { cls := .l, ss := [a, a + 1] ++ opRegs b } →
      (s.snapOn = false ∨ x.st = 5 → s.GivesPair (.snap a b) a (dword (2 ^ 64 - 1))) ∧
      (s.snapOn = true → x.st = 1 ∨ x.st = 2 → s.GivesPair (.snap a b) a (dword x.cut)) ∧
      (s.snapOn = true → x.st ≠ 1 → x.st ≠ 2 → x.st ≠ 5 →
        s.Retires (.snap a b) (chain s.ticked [armSnap (I.op b).toNat, fun _ =>
          [.sreg s.cur a (word s.dist.jnext), .sreg s.cur (a + 1) (word (s.dist.jnext / 2 ^ 32))]], .next))) ∧
    (s.Admits w { cls := .a, ss := a :: opRegs b } →
      let gives := fun (sel : Nat) (v : Word) => (I.op b).toNat = sel → s.GivesScalar (.snapq a b) a v
      gives 0 (word x.n) ∧ gives 1 (word x.st) ∧ gives 2 (word (x.pages.filter fun p => p.st == 1 || p.st == 2).length) ∧
      gives 3 (word (if x.n = 0 ∨ x.st = 3 ∨ x.st = 4 then 0 else s.openChannels.length)) ∧
      gives 4 (word ((s.frames 0 - s.usedFrames 0) + (s.frames 1 - s.usedFrames 1))) ∧
      gives 5 (if x.n = 0 then Config.freeWord (1048576 * s.fresh + 5) else word x.cut) ∧
      gives 6 (if x.n = 0 then Config.freeWord (1048576 * s.fresh + 6) else word (x.cut / 2 ^ 32)) ∧
      (6 < (I.op b).toNat → s.Traps w (.snapq a b) true { code := 0x01 }))

/-- R31: a word whose checks fail raises one trap, of the first check that fails: its opcode, fields, type and, in a
helper, its class (R311); its role class; supervisor mode; its registers and tiles; then the view of a span (R312). -/
def Obligations.TheFirstFailingCheckTraps : Prop :=
  ∀ (s : State) (w : Warp) (x : Chk) (body : Issue → Except Trap (List Effect × Flow)), find s.warps s.cur = some w →
    let I := s.at w
    let raises := fun (code : Nat) => issue (fun _ => x) body s = commit s (raise s s.cur (I.fill x.once { code }))
    let legal := x.legal = true ∧ (w.ctl.helper.isSome = true → x.helperAdmits = true)
    let role := x.cls.admits w.ctl.role (warpNo s.cur) = true
    let mode := x.priv = true ∨ x.cls = .s → w.ctl.priv = true
    let regs := (∀ r ∈ x.vs, r < w.ctl.vbudget) ∧ (∀ n ∈ x.ss, n < w.ctl.sbudget) ∧ ∀ t ∈ x.tiles, t < I.blk.img.tiles
    (¬legal → raises 0x01) ∧ (legal → ¬role → raises 0x03) ∧ (legal → role → ¬mode → raises 0x18) ∧
    (legal → role → mode → ¬regs → raises 0x04) ∧
    (legal → role → mode → regs → I.viewWrite x = true → raises 0x0D)

/-- The device registers at reset, as their tables give them, and what holds nothing: no valid context, no block, no warp,
no fenced unit, every plane in service, the next journal index 0. That unlisted memory reads 0 is log entry 3. -/
def Obligations.ResetLeavesTheResetValues : Prop :=
  let s := State.reset
  let m := s.mgmt
  m.devst = 0 ∧ m.jptr = 0 ∧ (∀ x ∈ m.clkctl, x = 0x1428) ∧ m.clkctl.length = 12 ∧ m.plim = 2200 ∧ m.slcfg = [0, 0] ∧
  m.pmcfg = [0x0EE6B28000000001, 0x0EE6B28000000001] ∧ m.preq = [0, 0] ∧ m.fabcfg = 0x0098968000000000 ∧
  m.hostcfg = 10000000 ∧ m.planeen = BitVec.allOnes 96 ∧ m.snapcfg = 0 ∧ m.snapring = 0 ∧ m.snapcmd = 0 ∧
  (∀ p, m.portst.get p = 0) ∧ (∀ c, m.routing.get c = 0) ∧ (∀ a, m.ctxtab.get a = 0) ∧ s.dist.jnext = 0 ∧
  (∀ c, (s.ctxOf c).valid = false) ∧ s.blocks = [] ∧ s.warps = [] ∧ s.vil.fenced = [] ∧ s.snap.st = 0 ∧
  (∀ c, (s.core c).parkDelay = 0x200) ∧ ∀ a, s.mem.read a = 0

/-- R37: what a warp holds at creation. Every register is zero but s0:s1, which hold the argument block's address, and m0
and m14, which hold its launched lanes; no flag is busy, no slice is parted or has a reservation, every counter is zero, the
LFSR state is 1, and the warp is in user mode. -/
def Obligations.CreatedWarpsHoldTheirStartingState : Prop :=
  ∀ (s : State) (b n lanes : Nat) (pc slot : DWord),
    let k := 36 * b + n
    let w := (applyAll (createWarp s b n pc lanes slot) s).warp k
    (∀ r l, w.readV r l = 0) ∧ w.readS 0 = word (s.blk b).args ∧ w.readS 1 = word ((s.blk b).args / 2 ^ 32) ∧
    (∀ n, 1 < n → w.readS n = 0) ∧ w.readM 0 = word lanes ∧ w.readM 14 = word lanes ∧
    (∀ n, 0 < n → n < 14 → w.readM n = 0) ∧ (∀ j, w.ctl.busy j = 0) ∧ (∀ cls, w.ctl.counter cls = 0) ∧
    w.ctl.parted = false ∧ (∀ x ∈ w.ctl.slices, x.resv = none ∧ x.pc = pc) ∧ w.lfsr = 1 ∧ w.ctl.priv = false

/-- The invariant holds at reset. -/
def Obligations.ResetIsSound : Prop := State.reset.Inv

/-- Every step of the chip keeps the invariant: memory, shared memory and tiles stay in canonical form, and every warp's
and helper's stores hold only the registers it has, with an LFSR state that is not zero (R38, R39). -/
def Obligations.EveryStepKeepsStateSound : Prop := ∀ s t : State, s.Inv → step s = .next t → t.Inv

/-- Every well-formed word instruction has an encoding, and the words of the encoding, whatever follows them, decode to it;
an event has none. -/
def Obligations.EncodedWordsDecodeToThemselves : Prop :=
  ∀ (i : Instr) (rest : List Word),
    (i.isEvent = true → encode i = none) ∧
    (WellFormed i = true → i.isEvent = false → ∃ ws, encode i = some ws ∧ decode (ws ++ rest) = .ok (i, rest))

/-- Words written out from the encodings of the spec's tables decode to their instructions (a sanity statement). -/
def Obligations.WordsOfTheTablesDecode : Prop :=
  decode [0x020404EF] = .ok (.sadd 4 (.reg 4) (.const (-1)), []) ∧
  decode [0x380DA000] = .ok (.mset 13 (.const 0), []) ∧
  decode [0x210114CC] = .ok (.brc true (.reg 20) (.const 44), []) ∧
  decode [0x42040406] = .ok (.addcVv 4 4 6, []) ∧
  decode [0x851919F3] = .ok (.fmulVs 25 25 (.fconst 3), []) ∧
  decode [0xB9080A02] = .ok (.st 8 (.base 10 2), []) ∧
  decode [0xC3000E02, 0x07000540] = .ok (.red (.base 14 2) ⟨7, 0, 0, 2, 5⟩, []) ∧
  decode [0xCA00FFA4, 0x40, 7] = .ok (.abinit (.lit 0x40) (.const 4), [7]) ∧
  decode [0xD804101D] = .ok (.cpld 0 false true 16 (.reg 29), []) ∧
  decode [0xE0130020] = .ok (.mma 0 true 3 0 32, []) ∧
  decode [0xE814105E] = .ok (.recruit 20 16 5 7 false, []) ∧
  decode [0xF510A0FF, 0x40] = .ok (.cmbwait 16 (.const 0) (.lit 0x40), [])

/-- The step of the chip, from the state in which the step finds the machine: writes in flight that have taken place of
themselves by then, warps readied or parked, are in it already (`settled`; which writes is free, R75, R269, log entry 78).
First comes what a write to the management range asked for, in the order of the writes (R13), then the named move. For a named
issue: where the slice may issue, and the words at its place decode, the step is exec of the decoded instruction by the slices
that issue with it; words that decode to nothing raise illegal-instruction (R80); a slice at a clause boundary begins its next
clause, and one to be diverted at the first word of its clause is (R398); where it may not issue nothing happens. Without a
named move the first step of the default order that changes the machine is taken; that order is the model's (log entry 1). A
machine with nothing in flight, no warp and no collective thing to settle is found as it was left. -/
def Obligations.StepRunsTheDecodedInstruction : Prop :=
  (
  ∀ (s : State) (k j : Nat),
    let z := s.settled
    (∀ i rest, z.todo = i :: rest → step s = exec i { z with todo := rest }) ∧
    (z.todo = [] → ∀ rest, z.sched = .issue k j :: rest →
      let u : State := { z with sched := rest }
      let v : State := { u with cur := k, slices := u.gangOf k j }
      (((u.ctl k).slice j).inClause = true → u.divertTo k j = none →
        (u.mayIssue k j = true →
          (∀ i r, decode (u.nextWords k j) = .ok (i, r) → step s = exec i v) ∧
          (∀ e, decode (u.nextWords k j) = .error e →
            step s = exec (.unassignedOpcode ((u.nextWords k j).headD 0).toNat) v)) ∧
        (u.mayIssue k j = false → step s = commit u [])) ∧
      (((u.ctl k).slice j).inClause = false ∨ (u.divertTo k j).isSome = true → step s = exec (.clauseStart k j) u)) ∧
    (∀ i rest, z.todo = [] → z.sched = .event i :: rest → i.isEvent = true → step s = exec i { z with sched := rest }) ∧
    (∀ pre f post, z.todo = [] → z.sched = [] → defaultSteps z = pre ++ f :: post →
      (∀ g ∈ pre, quiet z (g z) = true) → quiet z (f z) = false → step s = f z)) ∧
  ∀ s : State, s.copies = [] → s.blocks = [] → s.cmbs = [] → s.warps = [] → s.vil.training = [] → s.snap.st ≠ 2 →
    s.settled = s

/-- A list of effects changes only the places that its effects name, and a word that completes with it only those. -/
def Obligations.EffectsChangeOnlyWhatTheyName : Prop :=
  ∀ (s : State) (es : List Effect) (x : Spot), (∀ e ∈ es, ¬e.hits x) →
    s.Same (applyAll es s) x ∧ ∀ f, s.Same (s.retire es f) x

/-- R391: handler entry in a warp whose entering slices are quiet: TRET, the mode, the supervisor copies and m0 as R391
lists them, the entering slices at TVEC; the user copies are held unchanged. R376: a handler that begins with no clause header
gives misaligned-target in place of the trap, which in a helper is charged to its foreman. R395: a pending trap whose
disposition is no handler is a kernel fault: its domain freezes on both dies, and once what the domain has started is done
the records of its kernel faults are written and it ends; the blocks that a domain's end removes are gone, and every warp of
theirs. -/
def Obligations.TrapsAreTakenOrEndTheirDomain : Prop :=
  (
  ∀ (s : State) (k : Nat) (w : Warp) (t : Trap), find s.warps k = some w → w.Ok → w.ctl.helper = none →
    w.ctl.trap = some t → s.takesHandler k t = true → w.ctl.quiet t.slices = true → s.frozenAt k = false → s.handlerBad k = false →
    s.Commits (.handlerEntry k) (enterHandler s k t) ∧
    let v := (applyAll (enterHandler s k t) s).warp k
    let ctx := s.ctxOf (s.blk (blockOf k)).ctx
    v.ctl.priv = true ∧ v.ctl.trap = none ∧ v.ctl.hslices = t.slices ∧ v.ctl.handler = some t.code ∧
    v.ctl.tret = tretOf (resumeAt w.ctl t) ∧
    v.readS 144 = word (s.frameVa k) ∧ v.readS 145 = word (s.frameVa k / 2 ^ 32) ∧ v.readS 146 = word t.code ∧
    v.readS 147 = word t.aux ∧ v.readM 0 = word (t.hm0 &&& lanesOf t.slices) ∧
    (∀ j x, v.ctl.slices[j]? = some x → bit t.slices j = true →
      x.pc = ctx.tvec ∧ x.inClause = false ∧ x.resv = none ∧ x.wait = none ∧ x.regang = none) ∧
    (∀ n, v.s.get n = w.s.get n) ∧ (∀ n, v.m.get n = w.m.get n) ∧ (∀ r l, v.readV r l = w.readV r l) ∧ v.lfsr = w.lfsr) ∧
  (∀ (s : State) (k : Nat) (t : Trap), (s.ctl k).trap = some t → s.takesHandler k t = true →
    (s.ctl k).quiet t.slices = true → s.frozenAt k = false → s.handlerBad k = true →
    ((s.ctl k).helper = none → s.Commits (.handlerEntry k) [.ctl k { s.ctl k with trap := some (entryTrap s k t) }]) ∧
    ((s.ctl k).helper ≠ none → s.Commits (.handlerEntry k) (chain s [
      fun s => [.ctl k { s.ctl k with trap := none }], fun s => raise s k (entryTrap s k t)]))) ∧
  (
  (∀ (s : State) (k : Nat) (t : Trap), (s.ctl k).trap = some t → s.takesHandler k t = false →
    let x := s.blk (blockOf k)
    s.Commits (.kernelFault k) (chain s [
      fun s => [.ctl k { s.ctl k with trap := some t }], freezeBoth x.ctx x.domain,
      fun s => if s.running x.ctx x.domain then [] else chain s (
        ((k, t) :: (s.trapsOf x.ctx x.domain).filter fun p => p.1 ≠ k).map (fun p => fun s =>
          hfqAppend s x.ctx 0 (leBytes 576 (trapRecord s p.1 p.2)) (dieOf p.1)) ++ [fun s => endDomain s x.ctx x.domain t.code])])) ∧
  ∀ (s : State) (bs : List Nat),
    let t := applyAll (removeBlocks bs s) s
    (∀ b, find t.blocks b = if b ∈ bs then none else find s.blocks b) ∧
    ∀ k, find t.warps k = if blockOf k ∈ bs then none else find s.warps k)

/-- 03 R61, R72, R80; 02 R40 to R53; 05 R120, R127, R130; 16 R398: the steps of a warp's own: a clause begins with the words
that its fetch gives, or its warp is diverted, stops, or stalls on the flags that the clause waits for; what is deferred,
drained, completed; residence. The model's readings of log entries 61 (a trap deferred to a slice that waits at the first word
of a clause is raised there), 37 (diversion slice by slice) and 38. -/
def Obligations.WarpStepsTakePlace : Prop :=
  ∀ (s : State) (k j : Nat),
    let w := s.warp k
    let c := w.ctl
    let x := c.slice j
    let live := liveSlices w
    let mask := s.gangOf k j
    (bit live j = true →
      (∀ d, s.divertTo k j = some d → s.Commits (.clauseStart k j) (divert k mask d.1 d.2.1 d.2.2 s)) ∧
      (s.divertTo k j = none → s.runs k = true → x.inClause = false → bit mask j = true → x.regang = none →
        (c.priv = true → bit c.hslices j = true) → c.deferClear mask = true → s.waitClear k x = true →
        (c.stepTrap live j = true → s.Commits (.clauseStart k j) (stepStop k mask live s)) ∧
        (c.stepTrap live j = false →
          (s.waitBusy k j ≠ 0 → s.Commits (.clauseStart k j) (stallFlags k s)) ∧
          (s.canTake k j = true → s.hasTurn k j = true → s.hasPort k = true →
            (∀ e, s.clauseWords k x.pc.toNat 0 2 = .error e →
              s.Commits (.clauseStart k j) (raiseAt s k mask (fetchTrap s w mask (s.faultAt k x.pc.toNat 2) e))) ∧
            ∀ h0 h1 es, s.clauseWords k x.pc.toNat 0 2 = .ok ([h0, h1], es) →
              (headerOk h0.toNat h1.toNat = false →
                s.Commits (.clauseStart k j) (es ++ raiseAt (applyAll es s) k mask { code := 0x02 })) ∧
              (headerOk h0.toNat h1.toNat = true →
                ∀ ws fs, s.clauseWords k x.pc.toNat 2 (h0Len h0.toNat) = .ok (ws, fs) →
                (wordsOk 32 ws = true → s.Commits (.clauseStart k j) (chain s [fun _ => es ++ fs,
                  fun s => s.cacheClause k x.pc.toNat (2 + ws.length), beginClause k mask h0 h1 ws])) ∧
                (wordsOk 32 ws = false →
                  s.Commits (.clauseStart k j) (es ++ raiseAt (applyAll es s) k mask { code := 0x02 }))))))) ∧
    (∀ v, s.Issuing v → ∀ n, s.Traps v (.unassignedOpcode n) (onceOpcode (n / 16777216)) { code := 0x01 }) ∧
    (∀ t rest, x.defer = t :: rest →
      x.inClause = false ∨ (x.idx = 0 ∧ x.wait ≠ none) ∨ (∃ d n, x.wait = some (.hjoin d n)) →
      c.st = .active ∨ c.st = .pending → c.trap = none → s.frozenAt k = false → c.holds j = false →
      s.deferHeld k x t = false →
      s.Commits (.deferredTrap k j) (chain s [
        fun s => [.ctl k ((s.ctl k).onSlices (2 ^ j) fun y => { y with defer := rest })],
        fun s => raiseAt s k (s.gangOf k j) t])) ∧
    s.Commits (.storeDrain k) (drainHead s k) ∧
    (∀ n o, (c.flagOps.find? fun o => o.id == n) = some o → o.waiting = [] → o.held = false →
      (o.inTile = true → ∀ p ∈ c.flagOps, p.inTile = true → o.id ≤ p.id) →
      let hosts := s.fab.reqs.filter fun r => r.plane == 0xFE && r.k == k && r.op == n
      s.Commits (.flagOpComplete k n) (chain s ((fun s => o.writes.map fun y => regEffect s k y o.sup) :: hostAtomics k o.sup hosts ++ [
        fun s => [.fab { s.fab with reqs := s.fab.reqs.filter fun r => !(r.plane == 0xFE && r.k == k && r.op == n) },
          .ctl k { s.ctl k with flagOps := (s.ctl k).flagOps.filter fun p => p.id ≠ n }],
        fun s' => (o.trapOf s hosts).toList.flatMap fun t => deferTrap s' k t.1 t.2, mirror k]))) ∧
    s.Event (.parkDelayExpiry k) (s.canPark k = true) (startParking k s) ∧
    (c.st = .parking → (∀ o ∈ c.flagOps, o.waiting ≠ [] ∨ ∃ y, c.xswap = some y ∧ y.op = o.id) →
      (s.eventReady k = true → s.Commits (.parkSaveComplete k) (makeReady s k)) ∧
      (s.eventReady k = false →
        let free := s.spillFree (coreOf k) (savedSize c.vb)
        (free = [] → s.Commits (.parkSaveComplete k) (saveOut k (parked k) s)) ∧
        (free ≠ [] → s.Commits (.parkSaveComplete k) (parked k (free.getD (s.pick 20000 free.length) 0) s)))) ∧
    (∀ core v vs, s.readyQueue core = v :: vs → s.frozenAt v = false →
      (s.windowFree core (s.ctl v).vb = true →
        s.Commits (.warpRestore core) [.ctl v { ((s.ctl v).onSlices 255 Slice.restored) with
            st := .pending, saved := false, base := s.windowPick v (s.ctl v).vb },
          .core core { s.core core with ready := (s.core core).ready.filter (· ≠ v) }]) ∧
      (s.windowFree core (s.ctl v).vb = false → ∀ u, leastBy (fun g => (s.ctl g).stalled) (s.parkVictims core) = some u →
        s.Commits (.warpRestore core) (startParking u s))) ∧
    s.Event (.warpActivate k) (s.pendingReady k = true ∧ s.frozenAt k = false ∧ s.portFree k = true ∧
        ∀ g ∈ s.peersOf k (fun g => s.pendingReady g && !s.frozenAt g), c.issued ≤ (s.ctl g).issued)
      [.ctl k { c with st := .active }] ∧
    (s.pendingReady k = true → s.Event (.agePromotion k) (s.frozenAt k = false ∧ s.portFree k = true)
      [.ctl k { c with st := .active }]) ∧
    (s.runs k = true → ∀ i, (w.liveNow.find? fun i => (c.slice i).inClause && s.sliceReady k (c.slice i)) = some i →
      s.Commits (.agePromotion k) [.sched (.issue k i :: s.sched)]) ∧
    (∀ r, x.resv = some r → s.Event (.reservationExpire k j) (32 ≤ r.count)
      [.ctl k (c.onSlices (2 ^ j) fun y => { y with resv := none })]) ∧
    s.Event (.gangForm k) (gangReady w = true ∧ (c.st = .active ∨ c.st = .pending) ∧ c.trap = none ∧ s.frozenAt k = false ∧
        c.stepLost live = false)
      [.ctl k { (c.onSlices 255 fun y => { y with regang := none }).shareFlags live with parted := false }]

/-- 05 R123, R125; 06 R149, R150; 10 R224, R248, R251; 11 R277, R278; 13 R318: what ends a wait. An active warp whose wait
is over goes on after its word in its turn, and one that parks or waits parked is made ready; a waiting push or pop is
performed in its turn; a rendezvous, a pair and a helper's forced release take place. The model's choice of log entry 80: a
rendezvous fires once the block's copy commands that have pushed have completed. -/
def Obligations.WaitsEndWhenTheirConditionHolds : Prop :=
  ∀ (s : State) (k j : Nat),
    let c := s.ctl k
    let x := c.slice j
    let b := blockOf k
    let mask := s.gangOf k j
    (bit (liveSlices (s.warp k)) j = true → s.frozenAt k = false → c.trap = none →
      (c.priv = true → bit c.hslices j = true) →
      let goes := fun (i : Instr) (f : Flow) (es : State → List Effect) =>
        (c.st = .active → x.inClause = true → s.hasTurn k j = true → s.hasPort k = true → s.divertTo k j = none →
          s.Commits i (endWait k mask f es s)) ∧
        (c.st = .pending → s.Commits i []) ∧
        (c.st.away = true → s.Commits i (wake k s))
      (∀ off p, x.wait = some (.bar off p true) → goes (.barRelease k j) .next fun _ => []) ∧
      (∀ off p, x.wait = some (.abar off p true) → goes (.abwaitRelease k j) .next fun _ => []) ∧
      (∀ off eq v, x.wait = some (.word off eq v true) → goes (.waitwRelease k j) .ends fun _ => []) ∧
      (∀ cls n, x.wait = some (.waitc cls n) → c.counter cls ≤ n → goes (.waitcSatisfied k j) .next fun _ => []) ∧
      (∀ off h n, x.wait = some (.push off h n 0) → (s.queue b off).count < (s.queue b off).cap →
        s.firstInLine b off n true = true →
        goes (.queueStepServed k j) .next fun s => pushStep s b off h (some (k, j))) ∧
      (∀ off d n, x.wait = some (.pop off d n 0) → 0 < (s.queue b off).count → s.firstInLine b off n false = true →
        goes (.queueStepServed k j) .next fun s =>
          .sreg k d (word (s.headHandle b off)) :: popStep s b off (some (k, j)))) ∧
    (let ws := s.atRend b
     ws ≠ [] → s.rendFull b = true → s.frozenAt (leadOf b) = false →
      let pushed := s.copies.filter fun y => y.stage == 4 && blockOf y.k == b
      s.Commits (.rendFire b) (chain s (pushed.flatMap copyDone ++
        (ws.map fun p => fun s => [.ctl p.1 ((s.ctl p.1).onSlices 255 Slice.fire)]) ++ (ws.map fun p => wake p.1) ++
        [fun s => if ws.any Prod.snd then createRest s b else []]))) ∧
    (∀ y, c.xswap = some y →
      (∀ z, (s.ctl y.partner).xswap = some z → z.partner = k → s.Commits (.xswapPair k)
        (chain s (swapDone k y (some z.sent) ++ swapDone y.partner z (some y.sent)))) ∧
      ((∀ z, (s.ctl y.partner).xswap = some z → z.partner ≠ k) →
        s.Event (.xswapPair k) (s.exists y.partner = false) (chain s (swapDone k y none)))) ∧
    ∀ h, c.helper = some h → s.Event (.helperForcedRelease k)
      (h.asked = true ∧ 256 ≤ h.clauses ∧ (c.slice h.slice).inClause = false ∧ s.drainable k = true ∧
        c.flagOps = [] ∧ (c.slice h.slice).defer = [] ∧ c.trap = none)
      (chain s [fun s => drainAll s k,
        fun s => [.ctl h.foreman { s.ctl h.foreman with span := (s.ctl h.foreman).span.map (rollback h) }],
        endHelper k h])

/-- 11 R261, R265 to R273, R283; 12 R293 to R297: the steps of copy commands, meters and matrix operations. The model's
readings of log entry 27: restart after a suspension, and the failure of an operation that has not started. -/
def Obligations.CopyAndMatrixStepsTakePlace : Prop :=
  ∀ (s : State) (n : Nat),
    (∀ c, (s.copies.find? fun c => c.id == n) = some c →
      let x := s.blk (blockOf c.k)
      let die := dieOf c.k
      let kind := copyKind c.wordv
      let b := blockOf c.k
      let guard := match copyGuard c.wordv with | none => some true | some g => c.gate.or (x.guards.getD g none)
      (c.stage = 0 → (∀ y ∈ s.before c, y.stage ≠ 0) → s.frozenAt c.k = false →
        (guard = none → s.Commits (.copyStart n) []) ∧
        (guard = some false → s.Commits (.copyStart n) [setCopy s { c with stage := 5, gate := guard }]) ∧
        (guard = some true → s.meterOk 0 die x.ctx x.path = true →
          s.Commits (.copyStart n) [.dist (s.charge 0 die x.ctx (dDim2 c.desc * dDim1 c.desc * rowBytes c.desc) x.path),
            setCopy s { c with stage := 6, gate := guard
                               idx := if kind = 3 ∨ kind = 4 then s.indices b c.desc else [] }])) ∧
      (c.stage = 6 → s.Commits (.copyStart n) (copyMove c s)) ∧
      (c.stage = 6 → kind ≠ 6 → ∀ ps es qs, s.engineSide c b false 0 c.srcRanges = .ok (ps, es) →
        ((s.copyDests c).mapM fun y => s.engineSide c y.1 true 4096 (c.dstRanges y.2)) = .ok qs →
        (kind ≠ 7 → ∀ p ∈ ps, s.spoiledAt p = none) → (∀ p ∈ ps, s.sourceWaits p = false) →
        let data := arrange c.desc (if kind = 5 then fillBytes c.desc else ps.flatMap fun y => s.engineRead (y.p, y.n))
        s.Commits (.copyStart n) (es ++ qs.flatMap Prod.snd ++ [setCopy s { c with
          stage := 1, lands := qs.flatMap fun q => dealUnits (q.1.map fun y => (y.p, y.n)) data }])) ∧
      (c.stage = 1 → s.Commits (.copyStart n) (copySend c s)) ∧
      (c.stage = 3 → (s.ctl c.k).priv = false → (s.ctl c.k).trap = none →
        (∀ y ∈ (s.ctl c.k).slices, ∀ t ∈ y.defer, t.copyOp = false) → s.Commits (.copyStart n) (copyMove c s)) ∧
      (let ends := fun (i : Instr) (rest : List (State → List Effect)) =>
        let held := c.lands.filter fun y => s.placeWaits (s.epochOf c.k) { sp := y.1, off := y.2.1 }
        (held = [] → s.Commits i (chain s (c.lands.map (landUnit (s.epochOf c.k)) ++
          onCopy c.id (fun y => { y with lands := [] }) :: rest))) ∧
        (held ≠ [] → s.Commits i (chain s ((held.filter fun y => y.1 == .phys).map fun y => fun s =>
          pinPage s y.2.1 (s.epochOf c.k))))
      (copyPen c.wordv = true → c.stage = 1 ∨ c.stage = 2 → s.landed c = true → s.turnOf c = true →
        ends (.pushOnLand n) [fun s => match landPush c (s.pushBlock c) s with
          | none => if c.stage = 2 then [] else [setCopy s { c with lands := [], stage := 2, seq := s.ids }, .ids 1]
          | some es => es ++ [setCopy s { c with
              lands := [], left := c.left.drop 1, stage := if (c.left.drop 1).isEmpty then 4 else 1 }]]) ∧
      (c.stage = 4 ∨ c.stage = 5 ∨ (c.stage = 1 ∧ copyPen c.wordv = false) → s.landed c = true →
        (dBen c.desc = false → ends (.copyComplete n) [fun _ => [], fun s => dropCopy s c]) ∧
        (dBen c.desc = true → s.turnOf c = true →
          ends (.copyComplete n) [fun s => chain s ((s.copyDests c).map fun y => engineArrive c.k y.1 (dBoff c.desc) 2
            (copyExt c (apertureAddr y.1 (dBoff c.desc)) 0x0C 2)), fun s => dropCopy s c])))) ∧
    (∀ die ctx rcb, let l := s.rcb ctx rcb
      let fall := fun (v which : Nat) => if bounds 64 (rcbBytes l which) then v - rcbBytes l which else v
      s.Commits (.meterPeriod die ctx rcb) [.dist { s.dist with meters := s.dist.meters.map fun m =>
        if m.die = die ∧ m.ctx = ctx ∧ m.rcb = rcb
        then { m with copy := fall m.copy 0, fab := fall m.fab 1, coll := fall m.coll 2 } else m }]) ∧
    (∀ x, (s.mats.find? fun m => m.id == n && m.kind != 2 && m.started && !m.suspended) = some x →
      s.Event (.mmaComplete n) (s.chainBefore x = []) (chain s [
        fun _ => writeTile (blockOf x.k) x.tile (if x.failed then x.shadow else x.result)
          (if x.failed then span 0 4096 else x.poisonOut),
        fun s => dropMat s x])) ∧
    (∀ x, (s.mats.find? fun m => m.id == n && m.kind != 2 && !m.failed && !m.suspended) = some x →
      (x.started = true → x.replayed = false → s.Commits (.mmaReplay n) ((if (s.chainBefore x).isEmpty
        then writeTile (blockOf x.k) x.tile x.shadow x.shadowPoison else []) ++ [setMat s { x with replayed := true }])) ∧
      (x.started = true → x.replayed = true → s.Commits (.mmaReplay n) (failMat x s)) ∧
      (x.started = false → (∀ m ∈ s.chainBefore x, m.started = true ∧ m.suspended = false) →
        (s.arrayHeld (coreOf x.k)).length < 4 →
        let z : Mat := { x.begin s with result := (x.begin s).shadow }
        s.Commits (.mmaReplay n) (chain s [fun s => [setMat s z], failMat z]))) ∧
    (∀ x, (s.mats.find? fun m => m.id == n && m.kind != 2 && (!m.started || m.suspended)) = some x →
      (∀ m ∈ s.chainBefore x, m.started = true ∧ m.suspended = false) → (s.arrayHeld (coreOf x.k)).length < 4 →
      (x.suspended = true →
        s.Commits (.mmaStart n) [setMat s { x with suspended := false }]) ∧
      (x.suspended = false → s.chainBefore x = [] →
        (∀ i, i < 4096 → (blockOf x.k, 4096 * x.tile + i) ∉ s.tilePoison) →
        (∀ p ∈ s.tileWrites x.k (blockOf x.k) false, p.1 / 4096 ≠ x.tile) →
        let regs := fun (f ty : Nat) => (span 0 (operandRegs (x.kind == 1) ty)).flatMap fun r =>
          (span 0 32).map fun l => s.readV x.k (f + r) l
        let tile : Sparse 32 := (span 0 4096).filterMap fun i =>
          let v := (s.acc (blockOf x.k)).get (4096 * x.tile + i)
          if v = 0 then none else some (i, v)
        let y : Mat := { x with started := true, opA := regs x.a x.ty, opB := regs x.b x.bt, shadow := tile, shadowPoison := [] }
        s.Commits (.mmaStart n) [setMat s { y with result := if x.failed then tile else mmaResult y }])) ∧
    ∀ x, (s.mats.find? fun m => m.id == n && m.kind == 2) = some x → s.chainBefore x = [] →
      (x.failed = true → s.Commits (.mrelPush n) (dropMat s x)) ∧
      (x.failed = false → s.drainable x.k = true → (s.ctl x.k).farPending = false →
        (∀ m ∈ s.mats, m.k = x.k → m.kind ≠ 2 → m.id < x.id → m.started = true) →
        let b := blockOf x.k
        let pre := drainAll s x.k
        let u := applyAll pre s
        qFault (u.sh b) (u.blk b).img.shblk x.off (some x.handle) = 0 →
        (u.queue b x.off).count < (u.queue b x.off).cap →
        u.firstInLine b x.off (if x.started then x.a else u.ids) true = true →
        s.Commits (.mrelPush n) (pre ++ chain u [fun s => pushStep s b x.off x.handle none, fun s => dropMat s x]))

/-- 14 R346 to R352; 15 R364 to R368, R465: the steps of collectives and combine buffers. Packets of other chips count for
the snapshot (R405) and come only where the keys are installed (R329). The model's readings of log entry 30: names with low
bits set, late and colliding rows. -/
def Obligations.CollectiveAndCombineStepsTakePlace : Prop :=
  ∀ (s : State) (n : Nat),
    (∀ c, s.coll n = some c →
      (c.finished = false → s.fab.changing = false → s.collFrozen c = false → s.vil.keys = true →
        (c.active = true → s.Commits (.collUnitStart n) (chain s (c.starts.map (startUnit n)))) ∧
        (c.active = false → (s.colls.filter fun y => y.active && !y.finished).length < 16 →
          (∀ y ∈ s.colls, y.active = false → y.finished = false → n ≤ y.id) →
          let us := if c.form < 3 ∨ c.pos = c.root then span 0 c.units else []
          s.Commits (.collUnitStart n) (chain s
            (onColl n (fun c => { c with active := true, starts := us }) :: us.map (startUnit n))))) ∧
      (∀ u, u ∈ c.starts → s.meterOk 2 (blockDie c.b) c.ctx (s.blk c.b).path = true → ∀ r, c.startBlock = some r →
        startUnit n u s = chain s [onColl n fun c => { c with starts := c.starts.filter (· ≠ u) },
          if c.form < 2 then collReduce n r u none else collDistribute n r u]) ∧
      (∀ u, s.meterOk 2 (blockDie c.b) c.ctx (s.blk c.b).path = false → startUnit n u s = []) ∧
      (∀ r u (p : RetryAt), c.firstPos r p.pass = c.pos →
        ((r, u, p.pass) ∈ c.again → s.Commits (.collRetry n r u p) (chain s [
          onColl n fun c => { c with again := c.again.filter (· ≠ (r, u, p.pass)) }, collRestart n r u p.pass])) ∧
        ((r, u, p.pass) ∉ c.again → s.vil.keys = true →
          s.Commits (.collRetry n r u p) (chain s [collPacket (channelKey p.via.chip p.via.plane 2) p.via.parity,
            ifColl n fun c => if c.firstPos r p.pass ≠ c.pos then fun _ => []
              else if 2 ≤ c.triesOf r u then collFail c 2 u r
              else fun s => chain s [collTried c r u (max (c.triesOf r u + 1) p.tries), collRestart n r u p.pass]]))) ∧
      (∀ cause (from_ : AbortAt), s.Event (.collAbort n cause from_) (s.vil.keys = true) (chain s [
        collPacket (channelKey from_.chip from_.plane 2) from_.parity,
        ifColl n fun c => if c.finished then fun _ => [] else collEnd c cause from_.chip from_.unit from_.blk])) ∧
      (∀ y ys, c.late = y :: ys → s.Commits (.collComplete n) (chain s (onColl n (fun c => { c with late := [] }) ::
        c.late.map fun x => ifColl n fun c => collWrite c x.1 x.2.1 x.2.2))) ∧
      (c.late = [] → c.active = true → c.finished = false → c.again = [] → (∀ p ∈ c.parts, p ∈ c.passed) → s.past c = true →
        s.Commits (.collComplete n) (chain s ((c.bar.toList.map fun off => engineArrive (leadOf c.b) c.b off 0 0) ++
          countDown c.arrivals ++ [fun (s : State) => [Effect.colls (if c.form = 1 ∨ c.n = 1
            then s.colls.filter fun y => y.id ≠ n
            else s.colls.map fun y => if y.id = n then { y with finished := true } else y)]])))) ∧
    (∀ q : Chunk, q ∉ s.fab.chunks → s.vil.keys = true → s.Commits (.collUnitStep q) (chain s [collPacket (s.chunkChannel q) q.parity, chunkStep q])) ∧
    (∀ q : Chunk, q ∈ s.fab.chunks → s.vil.keys = true → s.Commits (.collUnitStep q) (chunkStep q s)) ∧
    (∀ q, (s.cmbReqs.find? fun q => q.id == n && !q.put && q.stage == 0) = some q →
      s.Event (.cmbDispatchArrive n) (s.cutWaits q = false) (applyReq q (s.inLine q) [] s)) ∧
    (∀ q, (s.cmbReqs.find? fun q => q.id == n && q.put) = some q → s.cutWaits q = false →
      (q.chip ≠ 0 → q.stage = 0 → s.Commits (.cmbPutArrive n) (applyReq q (s.inLine q) [] s)) ∧
      (q.chip = 0 → nameChip q.name ≠ s.chip → q.stage = 4 → s.handling q.k = false →
        s.Commits (.cmbPutArrive n) (sendRow q s)) ∧
      (q.chip = 0 → nameChip q.name = s.chip → q.stage = 0 ∨ (q.stage = 3 ∧ s.handling q.k = false) →
        let len := match s.cmb q.ctx (nameBuf q.name) with
          | some x => if bits q.name 17 0 = 0 then bRowBytes x.desc else 0
          | none => 0
        s.Commits (.cmbPutArrive n) (withRow q len 3 (endReq q) (fun bytes s => applyReq q (s.inLine q) bytes s) s))) ∧
    (∀ bytes plane parity,
      let key := channelKey (s.rowChip n - 1) plane 0
      let u := applyAll (packetArrives key parity s) s
      s.vil.keys = true →
      (u.snap.st = 1 → parity % 2 = u.snap.n % 2 → s.Commits (.cmbRowBytes n bytes plane parity) (packetArrives key parity s)) ∧
      ((u.snap.st = 1 → parity % 2 ≠ u.snap.n % 2) → s.Commits (.cmbRowBytes n bytes plane parity) (chain s [
        packetArrives key parity,
        fun s => if s.toLog key parity then logRequest key (7 :: n :: bytes.map BitVec.toNat) s else [],
        landRow n bytes, ackRow n plane]))) ∧
    (∀ v : Via, s.Event (.cmbCancel ⟨n, v⟩) (s.vil.keys = true) (chain s [
      packetArrives (channelKey v.chip v.plane 0) v.parity,
      fun s => match s.cmbReqs.find? (·.promised n) with
        | none => []
        | some q => chain s [dropReq q, dropPlace n]])) ∧
    (∀ q x, (s.cmbReqs.find? fun q => q.id == n && q.stage == 1) = some q → s.cmb q.ctx (nameBuf q.name) = some x →
      let line := (s.cmbReqs.takeWhile fun r => r.id != q.id).any fun r => r.stage == 1 && r.ctx == q.ctx &&
        r.name == q.name && x.home r.tok == x.home q.tok && (x.slot r.tok).isNone
      x.judge q line ≠ .waits →
        (q.put = false ∨ q.chip ≠ 0 → s.Commits (.cmbSlotGrant n) (applyReq q line [] s)) ∧
        (q.put = true → q.chip = 0 → s.Commits (.cmbSlotGrant n)
          (withRow q (bRowBytes x.desc) 1 (endReq q) (fun bytes s => applyReq q line bytes s) s))) ∧
    ∀ ctx buf tok x y, s.cmb ctx buf = some x → x.slot tok = some y →
      (y.st = 1 → bTimeout x.desc ≠ 0 →
        (y.disp.isSome = true → bSubst x.desc < 2 →
          s.Commits (.cmbSlotTimeout ctx buf tok) (setCmb { x.setSlot { y with
            st := 3, present := y.bitmap, renorm := bSubst x.desc == 1 } with subs := x.subs + 1 } s)) ∧
        (y.disp = none → s.Commits (.cmbSlotTimeout ctx buf tok) (chain s [
          setCmb (x.setSlot { y with st := 2 }),
          let name := s.chip * 2 ^ 23 + buf * 2 ^ 18
          ownerTrap ctx buf { code := 0x0F, addr := name, extk := 6
                              ext := cmbExt name 0 tok 0 0xFF (2 ^ (y.rows.filter Row.arrived).length - 1) 0 [] }]))) ∧
      (y.st = 3 ∨ (y.st = 4 ∧ x.due = [] ∧ s.handling (leadOf x.owner) = false) → x.turn tok = true → x.lost = false →
        s.Commits (.cmbRelease ctx buf tok) (releaseToken x y s))

/-- 02 R35, R36; 08 R180, R184; 10 R256 to R258; 16 R374, R377 to R384, R397 to R401: the steps of the work distributor
and of a domain's freeze. -/
def Obligations.DistributorStepsTakePlace : Prop :=
  ∀ (s : State) (a b v : Nat),
    let st := s.mgmt.devst.toNat % 8
    s.Event (.queueWake a b) ((a, b) ∈ s.dist.woken)
      (if (s.ctxOf a).valid = true ∧ b = (s.ctxOf a).root.toNat then rereadTree a s else startReading a b s) ∧
    s.Event (.treeReread a) ((s.ctxOf a).valid = true ∧ (a, (s.ctxOf a).root.toNat) ∈ s.dist.woken) (rereadTree a s) ∧
    (∀ r, s.region? a b = some r →
      s.Event (.queueRecheck a b) (∃ n ∈ s.queueSpan r, (a, b, n) ∉ s.dist.taken ∧ s.deviceRead a (r.entryVa n) 8 = some 0)
        (startReading a b s) ∧
      ((a, b) ∈ s.dist.reading → (s.ctxOf a).valid = true →
        (∀ l ∈ s.dist.launches, l.ctx = a → l.rcb = b → l.upcoming 1 = []) →
        (s.firstReady r = none → s.Commits (.recordTake a b)
          [.dist { s.dist with reading := s.dist.reading.filter fun x => x ≠ (a, b) }]) ∧
        ∀ n rec, s.firstReady r = some (n, rec) →
          let j := s.dist.jnext
          let e := s.epochAt j
          s.Commits (.recordTake a b) (chain s [
            fun s => deviceWrite s a (r.entryVa n) (leBytes 8 0) (s.distEpoch e),
            fun s => [.dist { s.dist with jnext := j + 1, taken := (a, b, n) :: s.dist.taken }],
            advanceHead r e,
            fun s => journal s 1 0 (pack [(0, 64, j), (64, 64, rec), (128, 8, a)]),
            fun s => match s.recordCheck a rec r.path with
              | .ok (raw, x) => startLaunch r rec j e raw x s
              | .error code => chain s [
                  fun s => setLaunchState s a rec e 3 code,
                  launchError a rec code 0,
                  fun s => journal s 2 0 (pack [(0, 64, j), (64, 8, 3), (72, 8, code)])]]))) ∧
    (∀ v x, s.displaced = some (v, x) → s.Event (.blockPlace a) (v.ctx = a) (preemptBlock x s)) ∧
    (∀ w, s.displaced = none → s.choose = some w → s.Event (.blockPlace a) (w.ctx = a) (placeWork w (s.claim w) s)) ∧
    (∀ w x, s.displaced = none → s.choose = none → s.blockedWork = some w → w.ctx = a → s.freeing w = false →
      s.repartCore w = some x → s.Commits (.blockPlace a) (chain s [
        fun s => [.core x { s.core x with towards := some w.img.split }], spillMove x])) ∧
    (∀ new, (s.core a).towards = some new → s.Event (.splitAdopt a) (s.boundaryFree a = true)
      (let spill := fun (c : Ctl) => !c.st.resident && c.saved && decide (c.frame < 2 ^ 63)
       .core a { s.core a with split := new, towards := none } ::
        ((s.onCore a).filter fun p => spill p.2.ctl).map fun p => .ctl p.1 { p.2.ctl with
          frame := p.2.ctl.frame + ((s.core a).split.1 + (s.core a).split.2.1) * 16384 - (new.1 + new.2.1) * 16384 })) ∧
    s.Event (.blockEnd b) (s.blockDone b = true ∧ ∀ p ∈ s.blockWarps b, p.2.ctl.ended = false)
      (chain s [fun s => freeBuffers false b s, fun s => if s.cmbs.any fun y => y.owner == b then []
        else chain s [fun s => blockGone (s.blk b).launch s, removeBlocks [b]]]) ∧
    (s.blockDone b = true → (s.blk b).preempt = true → (∃ p ∈ s.blockWarps b, p.2.ctl.ended = true) →
      let x := s.blk b
      s.Commits (.blockSuspend b) (chain s (((s.blockWarps b).filter fun p => !p.2.ctl.ended).map (fun p => fun s =>
          deviceWrite s x.ctx (s.slotVa p.1).toNat (List.replicate 64 0) x.epoch) ++ [
        fun s' => [.dist { s'.dist with suspended := s'.dist.suspended ++ [⟨x.sb, x, (s.blockWarps b).filterMap fun p =>
            if p.2.ctl.ended then p.2.ctl.divert.map fun d => (warpNo p.1, d.2.1, d.2.2) else none,
            ((s.blockWarps b).filter fun p => p.1 == leadOf b && p.2.ctl.ended).findSome? fun p =>
              p.2.ctl.divert.map Prod.fst⟩] },
          .cmbs (s'.cmbs.map fun y => if y.owner = b then { y with owner := suspendedOwner x.ctx x.sb } else y)],
        removeBlocks [b]]))) ∧
    ((s.blk (blockOf a)).preempt = true → (s.ctl a).st ≠ .exited → a < helperBase → (find s.warps a).isSome = true →
      let live := liveSlices (s.warp a)
      s.Commits (.preemptDeadline a) (kernelFault s a {
        code := 0x19, tpc := ((s.ctl a).slice (lowest 8 live)).pc.toNat, slices := live, m0 := ((s.warp a).readM 0).toNat })) ∧
    s.Event (.contextBoundary a) (∀ p ∈ s.blocks, dieOfBlock p.1 ≠ a) (chain s [rehash a, fun s =>
      if (s.mgmt.slcfg.getD a 0).getLsbD 0 = true ∧ s.mgmt.devst.toNat % 8 = 3 then applySplit a s else []]) ∧
    ((s.ctxOf a).valid = true ∨ st = 4 → s.Commits (.contextValidSet a) []) ∧
    ((s.ctxOf a).valid = false → st = 3 → s.Commits (.contextValidSet a) (validate a s)) ∧
    ((s.ctxOf a).valid = false → st < 3 → s.Commits (.contextValidSet a)
      [.vil { s.vil with held := if s.vil.held.contains a then s.vil.held else s.vil.held ++ [a] }]) ∧
    s.Commits (.contextValidClear a) (chain s [
      fun s => [
        .mgmt { s.mgmt with ctxtab := s.mgmt.ctxtab.set (256 * a + 0xF0) ((s.mgmt.ctxtab.get (256 * a + 0xF0)) &&& 0xFE) },
        .ctx a { s.ctxOf a with valid := false }, .vil { s.vil with held := s.vil.held.filter (· ≠ a) }],
      freeContexts [a]]) ∧
    (bit v 31 = true → s.Commits (.preqGo a v) (chain s (
      [fun s => [Effect.mgmt { s.mgmt with preq := s.mgmt.preq.set a (word (2 ^ 31 + v % 64)) }]] ++
      (((s.blocks.filter fun p => dieOfBlock p.1 == a && p.2.ctx == v % 64).map Prod.fst).map preemptBlock) ++
      [settlePreq]))) ∧
    (bit v 31 = false → (s.mgmt.preq.getD a 0).getLsbD 31 = false →
      s.Commits (.preqGo a v) [.mgmt { s.mgmt with preq := s.mgmt.preq.set a (word (v % 64)) }]) ∧
    (let f := bits v 23 8 * 256
     let put := fun (x : Nat) => [Effect.mgmt { s.mgmt with slcfg := s.mgmt.slcfg.set a (word x) }]
     (bit v 0 = false → s.Commits (.slcfgApply a v) (put (f + (s.mgmt.slcfg.getD a 0).toNat % 4))) ∧
     (bit v 0 = true → s.Commits (.slcfgApply a v)
       (put (f + (if 24 < bits v 15 8 ∨ 32 < bits v 15 8 + bits v 23 16 then 2 else 1))))) ∧
    s.Event (.monitorFreeze a b v) (s.idleHeld a b v = false ∧ s.domainBusy a b v = false ∧ s.isFrozen a b v = false ∧
        ¬(s.domainWarps a b v = [] ∧ s.domainOps a b v = 0))
      (chain s [fun s => [.frozen ((a, b, v) :: s.frozen)], fun s => hfqAppend s a 1 (stallRecord s a b v true) v]) ∧
    (s.isFrozen a b (1 - v) = false → s.Commits (.freezeSignal a b v) []) ∧
    (s.isFrozen a b (1 - v) = true →
      (s.isFrozen a b v = false → s.Commits (.freezeSignal a b v) (chain s [
        fun s => [Effect.frozen ((a, b, v) :: s.frozen)], fun s => hfqAppend s a 1 (stallRecord s a b v false) v,
        stallEnd a b])) ∧
      (s.isFrozen a b v = true → s.domainTraps a b = [] → s.Commits (.freezeSignal a b v)
        (if s.running a b then [] else chain s (((s.trapsOf a b).map fun p => fun s =>
          hfqAppend s a 0 (leBytes 576 (trapRecord s p.1 p.2)) (dieOf p.1)) ++ [fun s => endDomain s a b 0x11]))))

/-- 08 R199, R207; 09 R230, R231; 14 R330 to R339, R351, R354 to R356: what comes from the fabric and from the host. The
model's readings of log entries 42 (PLANEEN reads at once), 43 (TRAINS counts a training from its start), 50 (the entries of a
64 KiB page) and 52 (nothing flows without the keys). -/
def Obligations.FabricStepsTakePlace : Prop :=
  ∀ (s : State) (n p e : Nat),
    (∀ r (a : Reply) (v : Via), s.req n = some r → r.plane ≠ 0xFE →
      let key := channelKey (r.pa / 2 ^ 43) r.plane 1
      s.Event (.remoteReply n a) (s.vil.keys = true) (chain s [packetArrives key a.parity,
        fun s => if a.err ≠ 0 then errRequest r (a.err - 1) s
          else chain s [dropRequest n, takeReply r a, answered r, mirror r.k, wake r.k]]) ∧
      s.Commits (.remoteTimeout n) (errRequest r 2 s) ∧
      s.Commits (.undeliverableReport n) (settleRequest (s.planes.filter (· ≠ r.plane)) n s) ∧
      (r.kind = 1 ∨ r.kind = 3 ∨ r.kind = 5 ∨ 6 < r.kind → s.Event (.remoteAck n v) (s.vil.keys = true)
        (chain s [packetArrives key v.parity, dropRequest n, takeReply r { bytes := [], poison := 0, err := 0, parity := v.parity },
          wake r.k]))) ∧
    (s.req n = none → (∀ a : Reply, s.Event (.remoteReply n a) (s.vil.keys = true) (chain s [
          packetArrives (channelKey a.chip a.plane 1) a.parity,
          fun s => match s.heldPut n with
            | some q => if a.err = 0 ∧ a.bytes.head? = some 4#8 then lateRefusal q s else []
            | none => []])) ∧
      (∀ v : Via, s.Event (.remoteAck n v) (s.vil.keys = true) (packetArrives (channelKey v.chip v.plane 1) v.parity s)) ∧
      s.Commits (.remoteTimeout n) [] ∧ s.Commits (.undeliverableReport n) []) ∧
    (∀ q : RemoteReq,
      let key := channelKey q.chip q.plane 0
      let pre := packetArrives key q.parity s
      let u := applyAll pre s
      let held := u.servable q = true ∧ reqChanges q = true ∧ u.writeWaits q.pa (u.packetEpoch q.parity) = true
      let flows := s.vil.keys = true ∧ q.chip < 512 ∧ q.plane < 96
      (¬flows → s.Commits (.remoteRequest q) []) ∧
      (flows → q.kind ≠ 6 → held →
        s.Commits (.remoteRequest q) (pre ++ pinPage u q.pa (u.packetEpoch q.parity))) ∧
      (flows → q.kind ≠ 6 → ¬held → s.Commits (.remoteRequest q) (pre ++ chain u [
        fun s => if s.toLog key q.parity && (reqChanges q && s.servable q) then logRequest key (reqLog q q.tag) s else [],
        fun s => let r := performRemote q s
          chain s [fun _ => r.1, fun s => [.fab { s.fab with sent := s.fab.sent ++
            [⟨1, q.chip, q.plane, [q.tag, s.deviceEpoch % 2, r.2.1, r.2.2.1] ++ r.2.2.2.map BitVec.toNat⟩] }]]])) ∧
      (flows → q.kind = 6 → s.Commits (.remoteRequest q) (pre ++ chain u [
        fun s => if s.toLog key q.parity then logRequest key (reqLog q u.ids) s else [],
        fun s => [.cmbReqs (s.cmbReqs ++ [reqPut q s.ids (s.packetEpoch q.parity) s.chip]), .ids 1]]))) ∧
    (∀ r, (s.fab.reqs.find? fun r => r.id == n && r.plane == 0xFE) = some r → s.Commits (.hostTimeout n) (hostGone r s)) ∧
    ((s.fab.reqs.find? fun r => r.id == n && r.plane == 0xFE) = none →
      (∀ k q, (s.warps.findSome? fun p => (p.2.ctl.storeQ.find? fun q =>
          q.id == n && q.sp == .phys && region q.off == .host && !s.ownsLine p.1 q.off).map fun q => (p.1, q)) = some (k, q) →
        s.Commits (.hostTimeout n) (hostStoreGone k q s)) ∧
      ((∀ p ∈ s.warps, ∀ q ∈ p.2.ctl.storeQ, q.id = n → q.sp = .phys → region q.off = .host → s.ownsLine p.1 q.off = true) →
        s.Commits (.hostTimeout n)
          (if 2 ^ 48 ≤ n then hostFetchGone n s else if 2 ^ 40 ≤ n then hostRowGone n s else hostEngineGone n s))) ∧
    (let st := s.mgmt.devst.toNat % 8
     (∀ pa bytes,
       (∀ write, st = 2 → s.Commits (.hostMemAccess write pa bytes) (hostAnswer pa 2 [] s)) ∧
       (st = 3 → region pa = .hbm → region (pa + bytes.length - 1) = .hbm →
         s.Commits (.hostMemAccess true pa bytes) (chain s [fun s => s.physWrite pa bytes s.deviceEpoch none, wakeAll]) ∧
         s.Event (.hostMemAccess false pa bytes)
           (∀ q ∈ s.snap.blocked, q.sl = 9 → ¬(q.off < pa + bytes.length ∧ pa < q.off + q.bytes.length))
           (hostAnswer pa (if s.poisonedRange pa bytes.length then 1 else 0) (Sparse.bytes s.mem pa bytes.length) s))) ∧
     (∀ pa inv bytes,
       (st = 2 → s.Commits (.hostSnoop pa inv bytes) (hostAnswer pa 2 [] s)) ∧
       (st ≠ 2 → s.Event (.hostSnoop pa inv bytes)
         (st = 3 ∧ region pa = .host ∧ region (pa + bytes.length - 1) = .host)
         (if inv then chain s [fun s => s.physWrite pa bytes s.deviceEpoch none, wakeAll]
          else [.owned (s.disowned pa bytes.length none)])))) ∧
    (let x := (s.mgmt.portst.get p).toNat
     let t := portTrains x
     let up := s.mgmt.devst.toNat % 8 ≠ 4
     (up → p < 96 → s.isFenced 5 (p / 48) p = false →
       (portState x < 2 → s.Commits (.linkTrainDone p e) (setPort p (max t 1) (bits x 15 8) 2 s)) ∧
       (portState x = 2 →
         (e = 0 → s.Commits (.linkTrainDone p e) (setPort p t (bits x 15 8) 3 s)) ∧
         (e ≠ 0 → t < 4 → s.Commits (.linkTrainDone p e) (setPort p (t + 1) e 1 s)) ∧
         (e ≠ 0 → 4 ≤ t → s.Commits (.linkTrainDone p e) (portFail p e s)))) ∧
     (up → portState x = 3 → (t < 4 → s.Commits (.linkDrop p e) (setPort p (t + 1) e 1 s)) ∧
       (4 ≤ t → s.Commits (.linkDrop p e) (portFail p e s)))) ∧
    s.Event (.planeNotice p) (s.mgmt.devst.toNat % 8 ≠ 4) (losePlane p s) ∧ s.Commits (.badPacket p) [] ∧
    s.Commits (.planeenWrite n e) (chain s [
      fun s =>
        let rest := s.mgmt.planeen.toNat - s.mgmt.planeWord n * 2 ^ (32 * n)
        [.mgmt { s.mgmt with planeen := BitVec.ofNat 96 (rest + e % 2 ^ 32 * 2 ^ (32 * n)) }],
      startPlaneChange]) ∧
    (s.fab.changing = true → (∀ r ∈ s.fab.reqs, r.plane = 0xFE) →
      let new := setBits 96 s.mgmt.planeen.toNat
      let gone := s.planes.filter fun p => !new.contains p
      s.Commits .planeChangeApply (chain s (
        [fun s => [.fab { s.fab with planes := s.mgmt.planeen, changing := false }]] ++ restartUnits new s ++
        [fun s => if s.snap.st = 1 || s.snap.st = 2 then
          [.snap { s.snap with closed := s.snap.closed ++ s.routed.flatMap fun c => channelsOf c gone }] else [],
         settleSnap]))) ∧
    (∀ va pa w, generic va = .virt pa → (s.walk n va).kind = .leaf →
      s.Commits (.pageWalk n va w) (s.useLeaf n va (w && pteW (s.walk n va).entry) (s.walk n va))) ∧
    (∀ q : Migration, q.size = 4096 ∨ q.size = 65536 ∨ q.size = 2 ^ 21 ∨ q.size = 2 ^ 30 →
      (∀ a ∈ [q.src, q.dst], region a = .hbm ∧ region (a + q.size - 1) = .hbm ∧ a % q.size = 0) →
      (∀ f ∈ span (q.src / 65536) (framesFor q.size), (s.snapPage f).st ≠ 2) →
      (∀ f ∈ span (q.dst / 65536) (framesFor q.size), (s.snapPage f).st = 0) →
      (∀ x ∈ leavesOf q, s.poisonedRange x.1 8 = false) → s.mgmt.devst.toNat % 8 = 3 →
      s.Commits (.pageMigration q) (chain s ([movePage q] ++ (leavesOf q).map moveLeaf ++ [
        fun s => if q.leaf = 0 then [] else retarget q s,
        fun s => if q.leaf = 0 then [] else
          [.tlb (s.tlb.filter fun t => !(q.ctxs.contains t.ctx && (leavesOf q).any fun x =>
             x.1 == t.pa || (t.level == 0 && x.1 / 128 == t.pa / 128))),
           .unreserve q.src q.size]])))

/-- 17 R404 to R420: the steps of a snapshot. The model's readings of log entries 39, 40 and 45. -/
def Obligations.SnapshotStepsTakePlace : Prop :=
  ∀ (s : State) (n chip plane cls page : Nat),
    let x := s.snap
    let key := channelKey chip plane cls
    let packet := chip < 512 ∧ plane < 96 ∧ cls < 4
    (packet → n = x.n → x.st = 1 ∨ x.st = 2 → key ∉ x.closed → s.Commits (.canaryArrive n chip plane cls)
      (chain s [fun s => [.snap { s.snap with closed := key :: s.snap.closed }], settleSnap])) ∧
    (¬packet → s.Commits (.canaryArrive n chip plane cls) []) ∧
    (packet → n = x.n + 1 → s.Commits (.canaryArrive n chip plane cls) (chain s [
      fun s => if x.st = 1 ∨ x.st = 2 then endSnap 5 s else if s.mayArm then armSnap 0 s else [],
      fun s => if s.snap.n = n && (s.snap.st = 1 || s.snap.st = 2) && !s.snap.closed.contains key then
        chain s [fun s => [.snap { s.snap with closed := key :: s.snap.closed }], settleSnap] else []])) ∧
    (x.st = 1 → s.cutHeld = false →
      let items := s.vaultItems ++ s.combineItems
      let need := fun (d : Nat) => (items.map fun y => onDie y.frames d).foldl (· + ·) 0
      s.Commits .localCut (chain s [
        fun s => [.snap { s.snap with st := 2, pages := s.snap.pages.map (SnapPage.atCut s.snap.n) }],
        snapStep,
        fun s => if s.frames 0 < s.usedFrames 0 + need 0 || s.frames 1 < s.usedFrames 1 + need 1 then endSnap 5 s
          else [.snap { s.snap with
            mans := onManifest s.snap.n (fun m => { m with items, vaultg := s.vaultg }) s.snap.mans
            made := s.snap.made ++ s.cmbs.map fun y => (2, Config.combineImage y.fields, y.fields) }],
        fun s => if s.snap.st = 2 then [.fab { s.fab with sent := s.fab.sent ++ s.canaries }] else [],
        replayBlocked, settleSnap])) ∧
    s.Event (.pageRetire page) ((s.snapPage page).st = 1)
      [.snap { x with pages := setPage x.pages { s.snapPage page with st := 2 } }] ∧
    s.Event (.copyOnWrite page) (s.needsCow (page * 65536) x.n = true) [.snap (s.cow page)] ∧
    (∀ m, s.manifest = some m → s.ringFree ≠ 0 → (x.st = 1 → m.n ≠ x.n) →
      (m.pos = 0 → (s.snapPage page).st = 2 ∨ (s.snapPage page).st = 3 → (s.snapPage page).n = m.n →
        s.Commits (.drainWrite page) (drainPage m (s.snapPage page) s)) ∧
      ((s.snapPage page).st < 2 →
        (∀ i is, m.items = i :: is → s.Commits (.drainWrite page) (drainItem m i s)) ∧
        (m.items = [] → s.Event (.drainWrite page) (s.tailOnly m = true) (drainTail m s)))) ∧
    s.Commits (.snapringWrite n) [.mgmt { s.mgmt with snapring := dword (n % 2 ^ 32 * 2 ^ 32 + s.ringTail) }] ∧
    s.Commits (.snapcmdInvalid n) (cmdDone true s) ∧
    (x.st = 1 ∨ x.st = 2 → s.Commits .snapcmdAbort (chain s [endSnap 6, cmdDone false])) ∧
    (x.st ≠ 1 → x.st ≠ 2 → s.Commits .snapcmdAbort (cmdDone true s)) ∧
    ((∃ c ∈ s.ctxs, c.2.valid = true) ∨ s.blocks ≠ [] → s.Commits (.snapcmdRollback n) (cmdDone true s)) ∧
    ∀ l, (∀ c ∈ s.ctxs, c.2.valid = false) → s.blocks = [] →
      s.manChain (bits (s.manAt n) 1983 1952 + 1) n (2 ^ 32) = some l →
      s.Commits (.snapcmdRollback n) (chain s [rollbackTo n l, cmdDone false])

/-- 01 R13, R26; 16 R396; 18 R422 to R432: service states, the mailbox, power, heat, fencing and errors. The model's readings
of log entries 46, 47, 49 and 51; of 84, when a unit has trained. -/
def Obligations.HousekeepingStepsTakePlace : Prop :=
  ∀ (s : State) (n a b v : Nat),
    let st := s.devState
    let m := s.mgmt
    let wiped := applyAll [.wipe] s
    (wiped = { State.reset with
      mem := s.mem.filter fun p => region p.1 == .host
      vil := { State.reset.vil with svn := s.vil.svn, image := s.vil.image }
      snap := { State.reset.snap with made := s.snap.made }
      sched := s.sched, todo := s.todo, fresh := s.fresh, ids := s.ids }) ∧
    (s.vil.svn ≤ s.vil.image.version → s.Commits (.deviceReset 0) (.wipe :: reducedService wiped)) ∧
    (s.vil.image.version < s.vil.svn → s.Commits (.deviceReset 0) (.wipe :: setDev 4 3 wiped)) ∧
    (∀ step ∈ [1, 2, 3], s.Commits (.deviceReset step) (.wipe :: setDev 4 step wiped)) ∧
    (let t := applyAll (reducedService s) s
     t.devState = 2 ∧ t.vil.keys = false ∧ t.vil.reports = [] ∧ t.vil.sliceClk = List.replicate 192 20 ∧
     ∀ p, p < 96 → (t.mgmt.portst.get p) = (if portState (m.portst.get p).toNat = 0 then 0x10001#32 else m.portst.get p)) ∧
    (∀ cause, (applyAll (setDev v cause s) s).mgmt.devst = word (cause * 256 + v)) ∧
    (st = 2 → s.allTrained = true →
      (s.dieServes 0 = true → s.dieServes 1 = true → s.Commits .enterFullService (chain s ([setDev 3 0] ++
        ((span 0 2).map fun d => fun (s : State) => if (s.mgmt.slcfg.getD d 0).getLsbD 0 then applySplit d s else []) ++
        s.vil.held.map validate ++ [fun s => [.vil { s.vil with held := [] }]]))) ∧
      (¬(s.dieServes 0 = true ∧ s.dieServes 1 = true) →
        s.Commits .enterFullService (chain s [setDev 4 0, fun s => [.vil { s.vil with keys := false }]]))) ∧
    (s.allTrained = true ↔ (∀ u ∈ s.vil.training, s.isFenced u.kind u.die u.n = true) ∧
      ∀ p, p < 96 → 3 ≤ portState (m.portst.get p).toNat ∨ s.isFenced 5 (p / 48) p = true) ∧
    (∀ i : BootImage, st = 4 → a ≤ 3 →
      (a = 0 → s.vil.svn ≤ i.version →
        s.Commits (.mailboxImage a i) (chain s [fun s => [.vil { s.vil with image := i }], reducedService])) ∧
      (a = 0 → i.version < s.vil.svn → s.Commits (.mailboxImage a i) (setDev 4 3 s)) ∧
      (a ≠ 0 → s.Commits (.mailboxImage a i) (setDev 4 a s))) ∧
    (∀ nonce, s.Event (.mailboxAttest nonce) ((st = 2 ∨ st = 3) ∧ nonce.length = 32) [.vil { s.vil with
      reports := s.vil.reports ++ [Config.attestation nonce s.chip s.vil.svn s.vil.image.digest
        (s.vil.fenced.map fun f => (f.kind, f.die, f.n))] }]) ∧
    s.Event (.mailboxRaiseSvn v) (st = 2 ∨ st = 3) [.vil { s.vil with svn := max s.vil.svn v }] ∧
    s.Event .keyInstall ((st = 2 ∨ st = 3) ∧ s.vil.reports ≠ []) [.vil { s.vil with keys := true }] ∧
    s.Commits (.clkctlWrite a v) [.mgmt { m with
      clkctl := m.clkctl.set a (word (clkCur (m.clkctl.getD a 0) * 256 + max 16 (min 44 (v % 256)))) }] ∧
    s.Commits (.plimWrite v) [.mgmt { m with plim := word (v % 65536) }] ∧
    s.Commits (.registerWrite a b v) (mgmtWrite s a b v) ∧
    (st ≠ 3 → s.Commits .powerInterval []) ∧
    (st = 3 →
      let l := underLimit (fun l => Config.packagePower s.fresh l s.sliceClocks) (min 2200 m.plim.toNat) 336
        (m.clkctl.map fun x => min (clkReq x) s.capCur)
      m.clkctl.map clkCur ≠ l ∨ l = s.vil.journalled → s.Commits .powerInterval
        [.mgmt { m with clkctl := List.zipWith withCur m.clkctl l }, .vil { s.vil with sliceClk := s.sliceClocks }]) ∧
    s.Commits .thermalCap (thermal 1 (s.vil.cap ||| 1) s) ∧ s.Commits .thermalEmergency (thermal 2 (s.vil.cap ||| 3) s) ∧
    s.Event .thermalTrip (bit s.vil.cap 1 = true)
      (chain s [fun s => journal s 8 0 (pack [(0, 8, 3)]), fun _ => [.wipe], setDev 4 4]) ∧
    s.Event (.thermalRecover 105) (s.vil.cap ≠ 0) (thermal 4 0 s) ∧
    s.Event (.thermalRecover 110) (bit s.vil.cap 1 = true) (thermal 4 (s.vil.cap % 2) s) ∧
    (st = 4 → ∀ code cap, thermal code cap s = []) ∧
    s.Event (.unitFence n a b) (s.isFenced n a b = false ∧ isUnit n a b = true) (chain s (
      [fenceUnit n a b 0, loseSnaps n a b] ++
      (if n = 2 then (span (16 * b) 16).map fun c => fenceUnit 0 a c 0 else []) ++
      (if n = 1 then [loseBuffers (96 * a + b)] else []) ++
      (if n = 5 then [fun s => portGone b (bits (s.mgmt.portst.get b).toNat 15 8) s] else []) ++
      (s.domainsOn n a b).map (endAs 0x12))) ∧
    s.Commits (.eccError 1 a b) [.poison (a / 32) true] ∧
    s.Event (.eccError 2 a b) ((find s.blocks a).isSome = true) [.shPoison a (b / 32) true] ∧
    s.Event (.eccError 3 a b) ((find s.blocks a).isSome = true) [.tilePoison a b true] ∧
    (s.runs a = true → ((s.ctl a).slice b).inClause = true → bit (liveSlices (s.warp a)) b = true →
      s.Commits (.eccError 4 a b) (raise s a ((⟨s, a, s.gangOf a b, s.warp a⟩ : Issue).fill true { code := 0x12 })))

/-- R183: the home slice of a line of HBM or of host memory among the slices of its die that the last context boundary found
in service, and of a vault line; a context boundary counts the slices in service, and at reset all 96 of a die are. -/
def Obligations.LinesHaveHomeSlices : Prop :=
  (∀ (s : State) (pa d : Nat), (region pa = .hbm ∧ d = bits pa 38 38) ∨ (region pa = .host ∧ d = bits pa 12 12) →
    let js := s.vil.slicesIn.getD d []
    let l := bits pa 37 7
    (h : 0 < js.length) →
      s.homeSlice pa = some (96 * d + js[(l ^^^ (l / 2 ^ 11) ^^^ (l / 2 ^ 22)) % js.length]'(Nat.mod_lt _ h))) ∧
  (∀ (s : State) (pa j : Nat), region pa = .vault j → s.homeSlice pa = some j) ∧
  (∀ (s : State) (d : Nat), d < s.vil.slicesIn.length → (∀ p ∈ s.blocks, dieOfBlock p.1 ≠ d) →
    ∃ t, exec (.contextBoundary d) s = .next t ∧
      t.vil.slicesIn = s.vil.slicesIn.set d ((span 0 96).filter fun j => !s.isFenced 1 d j)) ∧
  ∀ d, d < 2 → State.reset.vil.slicesIn.getD d [] = span 0 96
end

