-- ==== Sys2Proof/Laws/State.lean ====
section
/-! SUPPORT. What each update of the state leaves as it was: one small lemma per field, and the laws of the keyed lists and of
warps read after a change. -/
namespace Sys2Proof.Machine

/-- A keyed list read at the key put in. -/
@[simp] theorem find_put_same {α : Type} (l : List (Nat × α)) (k : Nat) (x : α) : find (put l k x) k = some x := by
  induction l with
  | nil => simp [put, find]
  | cons p t ih =>
    obtain ⟨a, b⟩ := p
    unfold put
    split
    · simp [find]
    · split
      · simp [find]
      · rename_i h
        simp only [find]
        rw [if_neg (fun e => h e.symm), ih]

/-- A keyed list read at another key. -/
theorem find_put_ne {α : Type} (l : List (Nat × α)) {k j : Nat} (x : α) (h : j ≠ k) : find (put l k x) j = find l j := by
  induction l with
  | nil => simp [put, find, Ne.symm h]
  | cons p t ih =>
    obtain ⟨a, b⟩ := p
    unfold put
    split
    · simp [find, Ne.symm h]
    · split
      · rename_i e
        subst e
        simp [find, Ne.symm h]
      · simp only [find, ih]

/-- Two entries put in at one key: the later stands. -/
@[simp] theorem put_put {α : Type} (l : List (Nat × α)) (k : Nat) (x y : α) : put (put l k x) k y = put l k y := by
  induction l with
  | nil => simp [put]
  | cons p t ih =>
    obtain ⟨a, b⟩ := p
    by_cases h1 : k < a
    · simp [put, h1]
    · by_cases h2 : k = a
      · simp [put, h2]
      · simp [put, h1, h2, ih]

/-- An entry of a list with one put in is the new one or an old one. -/
theorem mem_put {α : Type} {l : List (Nat × α)} {k : Nat} {x : α} {p : Nat × α} (h : p ∈ put l k x) :
    p = (k, x) ∨ p ∈ l := by
  induction l with
  | nil => simpa [put] using h
  | cons q t ih =>
    obtain ⟨a, b⟩ := q
    unfold put at h
    split at h
    · simpa using h
    · split at h
      · rename_i e
        subst e
        rcases List.mem_cons.mp h with h | h
        · exact .inl h
        · exact .inr (List.mem_cons_of_mem _ h)
      · rcases List.mem_cons.mp h with h | h
        · exact .inr (h ▸ List.mem_cons_self ..)
        · exact (ih h).imp id (List.mem_cons_of_mem _)

/-- What a keyed list answers is one of its entries. -/
theorem mem_of_find {α : Type} {l : List (Nat × α)} {k : Nat} {x : α} (h : find l k = some x) : (k, x) ∈ l := by
  induction l with
  | nil => simp [find] at h
  | cons p t ih =>
    obtain ⟨a, b⟩ := p
    unfold find at h
    split at h
    · rename_i e
      subst e
      simp_all
    · exact List.mem_cons_of_mem _ (ih h)

/-- A change of a warp that exists. -/
theorem State.onWarp_some {s : State} {k : Nat} {w : Warp} (f : Warp → Warp) (h : find s.warps k = some w) :
    s.onWarp k f = { s with warps := put s.warps k (f w) } := by
  simp [State.onWarp, h]

/-- A change of a warp that does not exist changes nothing. -/
theorem State.onWarp_none {s : State} {k : Nat} (f : Warp → Warp) (h : find s.warps k = none) : s.onWarp k f = s := by
  simp [State.onWarp, h]

@[simp] theorem State.onWarp_mem (s : State) (k : Nat) (f : Warp → Warp) : (s.onWarp k f).mem = s.mem := by
  unfold State.onWarp; split <;> rfl
@[simp] theorem State.onWarp_poison (s : State) (k : Nat) (f : Warp → Warp) : (s.onWarp k f).poison = s.poison := by
  unfold State.onWarp; split <;> rfl
@[simp] theorem State.onWarp_mgmt (s : State) (k : Nat) (f : Warp → Warp) : (s.onWarp k f).mgmt = s.mgmt := by
  unfold State.onWarp; split <;> rfl
@[simp] theorem State.onWarp_ctxs (s : State) (k : Nat) (f : Warp → Warp) : (s.onWarp k f).ctxs = s.ctxs := by
  unfold State.onWarp; split <;> rfl
@[simp] theorem State.onWarp_cores (s : State) (k : Nat) (f : Warp → Warp) : (s.onWarp k f).cores = s.cores := by
  unfold State.onWarp; split <;> rfl
@[simp] theorem State.onWarp_blocks (s : State) (k : Nat) (f : Warp → Warp) : (s.onWarp k f).blocks = s.blocks := by
  unfold State.onWarp; split <;> rfl
@[simp] theorem State.onWarp_shared (s : State) (k : Nat) (f : Warp → Warp) : (s.onWarp k f).shared = s.shared := by
  unfold State.onWarp; split <;> rfl
@[simp] theorem State.onWarp_shPoison (s : State) (k : Nat) (f : Warp → Warp) : (s.onWarp k f).shPoison = s.shPoison := by
  unfold State.onWarp; split <;> rfl
@[simp] theorem State.onWarp_tiles (s : State) (k : Nat) (f : Warp → Warp) : (s.onWarp k f).tiles = s.tiles := by
  unfold State.onWarp; split <;> rfl
@[simp] theorem State.onWarp_tilePoison (s : State) (k : Nat) (f : Warp → Warp) : (s.onWarp k f).tilePoison = s.tilePoison := by
  unfold State.onWarp; split <;> rfl
@[simp] theorem State.onWarp_copies (s : State) (k : Nat) (f : Warp → Warp) : (s.onWarp k f).copies = s.copies := by
  unfold State.onWarp; split <;> rfl
@[simp] theorem State.onWarp_mats (s : State) (k : Nat) (f : Warp → Warp) : (s.onWarp k f).mats = s.mats := by
  unfold State.onWarp; split <;> rfl
@[simp] theorem State.onWarp_colls (s : State) (k : Nat) (f : Warp → Warp) : (s.onWarp k f).colls = s.colls := by
  unfold State.onWarp; split <;> rfl
@[simp] theorem State.onWarp_collSeq (s : State) (k : Nat) (f : Warp → Warp) : (s.onWarp k f).collSeq = s.collSeq := by
  unfold State.onWarp; split <;> rfl
@[simp] theorem State.onWarp_cmbs (s : State) (k : Nat) (f : Warp → Warp) : (s.onWarp k f).cmbs = s.cmbs := by
  unfold State.onWarp; split <;> rfl
@[simp] theorem State.onWarp_cmbReqs (s : State) (k : Nat) (f : Warp → Warp) : (s.onWarp k f).cmbReqs = s.cmbReqs := by
  unfold State.onWarp; split <;> rfl
@[simp] theorem State.onWarp_fab (s : State) (k : Nat) (f : Warp → Warp) : (s.onWarp k f).fab = s.fab := by
  unfold State.onWarp; split <;> rfl
@[simp] theorem State.onWarp_dist (s : State) (k : Nat) (f : Warp → Warp) : (s.onWarp k f).dist = s.dist := by
  unfold State.onWarp; split <;> rfl
@[simp] theorem State.onWarp_frozen (s : State) (k : Nat) (f : Warp → Warp) : (s.onWarp k f).frozen = s.frozen := by
  unfold State.onWarp; split <;> rfl
@[simp] theorem State.onWarp_owned (s : State) (k : Nat) (f : Warp → Warp) : (s.onWarp k f).owned = s.owned := by
  unfold State.onWarp; split <;> rfl
@[simp] theorem State.onWarp_snap (s : State) (k : Nat) (f : Warp → Warp) : (s.onWarp k f).snap = s.snap := by
  unfold State.onWarp; split <;> rfl
@[simp] theorem State.onWarp_vil (s : State) (k : Nat) (f : Warp → Warp) : (s.onWarp k f).vil = s.vil := by
  unfold State.onWarp; split <;> rfl
@[simp] theorem State.onWarp_tlb (s : State) (k : Nat) (f : Warp → Warp) : (s.onWarp k f).tlb = s.tlb := by
  unfold State.onWarp; split <;> rfl
@[simp] theorem State.onWarp_icache (s : State) (k : Nat) (f : Warp → Warp) : (s.onWarp k f).icache = s.icache := by
  unfold State.onWarp; split <;> rfl
@[simp] theorem State.onWarp_ccache (s : State) (k : Nat) (f : Warp → Warp) : (s.onWarp k f).ccache = s.ccache := by
  unfold State.onWarp; split <;> rfl
@[simp] theorem State.onWarp_sched (s : State) (k : Nat) (f : Warp → Warp) : (s.onWarp k f).sched = s.sched := by
  unfold State.onWarp; split <;> rfl
@[simp] theorem State.onWarp_todo (s : State) (k : Nat) (f : Warp → Warp) : (s.onWarp k f).todo = s.todo := by
  unfold State.onWarp; split <;> rfl
@[simp] theorem State.onWarp_cur (s : State) (k : Nat) (f : Warp → Warp) : (s.onWarp k f).cur = s.cur := by
  unfold State.onWarp; split <;> rfl
@[simp] theorem State.onWarp_slices (s : State) (k : Nat) (f : Warp → Warp) : (s.onWarp k f).slices = s.slices := by
  unfold State.onWarp; split <;> rfl
@[simp] theorem State.onWarp_fresh (s : State) (k : Nat) (f : Warp → Warp) : (s.onWarp k f).fresh = s.fresh := by
  unfold State.onWarp; split <;> rfl
@[simp] theorem State.onWarp_ids (s : State) (k : Nat) (f : Warp → Warp) : (s.onWarp k f).ids = s.ids := by
  unfold State.onWarp; split <;> rfl

/-- The warp of a key after a change of it. -/
theorem State.find_onWarp_same {s : State} {k : Nat} {w : Warp} (f : Warp → Warp) (h : find s.warps k = some w) :
    find (s.onWarp k f).warps k = some (f w) := by
  simp [State.onWarp_some f h]

/-- The other warps after a change of one. -/
@[simp] theorem State.find_onWarp_ne (s : State) {k j : Nat} (f : Warp → Warp) (h : j ≠ k) :
    find (s.onWarp k f).warps j = find s.warps j := by
  unfold State.onWarp
  split
  · rfl
  · exact find_put_ne _ _ h

/-- Two changes of one warp. -/
theorem State.onWarp_onWarp (s : State) (k : Nat) (f g : Warp → Warp) :
    (s.onWarp k f).onWarp k g = s.onWarp k fun w => g (f w) := by
  cases h : find s.warps k with
  | none => simp [State.onWarp, h]
  | some w => simp [State.onWarp, h]

/-- A warp as found. -/
theorem State.warp_of_find {s : State} {k : Nat} {w : Warp} (h : find s.warps k = some w) : s.warp k = w := by
  simp [State.warp, h]

/-- Its control state. -/
theorem State.ctl_of_find {s : State} {k : Nat} {w : Warp} (h : find s.warps k = some w) : s.ctl k = w.ctl := by
  simp [State.ctl, State.warp_of_find h]

@[simp] theorem Warp.writeSOf_v (w : Warp) (sup : Bool) (n : Nat) (x : Word) : (w.writeSOf sup n x).v = w.v := by
  simp only [Warp.writeSOf]; repeat (split <;> try rfl)
@[simp] theorem Warp.writeS_v (w : Warp) (n : Nat) (x : Word) : (w.writeS n x).v = w.v :=
  Warp.writeSOf_v ..
@[simp] theorem Warp.writeSOf_m (w : Warp) (sup : Bool) (n : Nat) (x : Word) : (w.writeSOf sup n x).m = w.m := by
  simp only [Warp.writeSOf]; repeat (split <;> try rfl)
@[simp] theorem Warp.writeS_m (w : Warp) (n : Nat) (x : Word) : (w.writeS n x).m = w.m :=
  Warp.writeSOf_m ..
@[simp] theorem Warp.writeSOf_lfsr (w : Warp) (sup : Bool) (n : Nat) (x : Word) : (w.writeSOf sup n x).lfsr = w.lfsr := by
  simp only [Warp.writeSOf]; repeat (split <;> try rfl)
@[simp] theorem Warp.writeS_lfsr (w : Warp) (n : Nat) (x : Word) : (w.writeS n x).lfsr = w.lfsr :=
  Warp.writeSOf_lfsr ..
@[simp] theorem Warp.writeSOf_ctl (w : Warp) (sup : Bool) (n : Nat) (x : Word) : (w.writeSOf sup n x).ctl = w.ctl := by
  simp only [Warp.writeSOf]; repeat (split <;> try rfl)
@[simp] theorem Warp.writeS_ctl (w : Warp) (n : Nat) (x : Word) : (w.writeS n x).ctl = w.ctl :=
  Warp.writeSOf_ctl ..
@[simp] theorem Warp.writeM_v (w : Warp) (n : Nat) (x : Word) : (w.writeM n x).v = w.v := by
  simp only [Warp.writeM]; repeat (split <;> try rfl)
@[simp] theorem Warp.writeM_s (w : Warp) (n : Nat) (x : Word) : (w.writeM n x).s = w.s := by
  simp only [Warp.writeM]; repeat (split <;> try rfl)
@[simp] theorem Warp.writeM_lfsr (w : Warp) (n : Nat) (x : Word) : (w.writeM n x).lfsr = w.lfsr := by
  simp only [Warp.writeM]; repeat (split <;> try rfl)
@[simp] theorem Warp.writeM_ctl (w : Warp) (n : Nat) (x : Word) : (w.writeM n x).ctl = w.ctl := by
  simp only [Warp.writeM]; repeat (split <;> try rfl)
@[simp] theorem Warp.writeV_s (w : Warp) (r l : Nat) (x : Word) : (w.writeV r l x).s = w.s := by
  simp only [Warp.writeV]; repeat (split <;> try rfl)
@[simp] theorem Warp.writeV_m (w : Warp) (r l : Nat) (x : Word) : (w.writeV r l x).m = w.m := by
  simp only [Warp.writeV]; repeat (split <;> try rfl)
@[simp] theorem Warp.writeV_sup (w : Warp) (r l : Nat) (x : Word) : (w.writeV r l x).sup = w.sup := by
  simp only [Warp.writeV]; repeat (split <;> try rfl)
@[simp] theorem Warp.writeV_lfsr (w : Warp) (r l : Nat) (x : Word) : (w.writeV r l x).lfsr = w.lfsr := by
  simp only [Warp.writeV]; repeat (split <;> try rfl)
@[simp] theorem Warp.writeV_ctl (w : Warp) (r l : Nat) (x : Word) : (w.writeV r l x).ctl = w.ctl := by
  simp only [Warp.writeV]; repeat (split <;> try rfl)
@[simp] theorem Warp.writeLive_v (w : Warp) (x : Word) : (w.writeLive x).v = w.v := rfl
@[simp] theorem Warp.writeLive_s (w : Warp) (x : Word) : (w.writeLive x).s = w.s := rfl
@[simp] theorem Warp.writeLive_sup (w : Warp) (x : Word) : (w.writeLive x).sup = w.sup := rfl
@[simp] theorem Warp.writeLive_lfsr (w : Warp) (x : Word) : (w.writeLive x).lfsr = w.lfsr := rfl
@[simp] theorem Warp.writeLive_ctl (w : Warp) (x : Word) : (w.writeLive x).ctl = w.ctl := rfl
@[simp] theorem Warp.writeLfsr_v (w : Warp) (x : Word) : (w.writeLfsr x).v = w.v := rfl
@[simp] theorem Warp.writeLfsr_s (w : Warp) (x : Word) : (w.writeLfsr x).s = w.s := rfl
@[simp] theorem Warp.writeLfsr_m (w : Warp) (x : Word) : (w.writeLfsr x).m = w.m := rfl
@[simp] theorem Warp.writeLfsr_sup (w : Warp) (x : Word) : (w.writeLfsr x).sup = w.sup := rfl
@[simp] theorem Warp.writeLfsr_ctl (w : Warp) (x : Word) : (w.writeLfsr x).ctl = w.ctl := rfl

/-- A write of a register window leaves all but vector registers. -/
@[simp] theorem Warp.writeBytes_ctl (w : Warp) (off : Nat) (l : List Byte) : (w.writeBytes off l).ctl = w.ctl := by
  induction l generalizing w off with
  | nil => rfl
  | cons b t ih => simp [Warp.writeBytes, ih, Warp.writeByte]


end Sys2Proof.Machine
end

