-- ==== Sys2Proof/Laws/Sparse.lean ====
section
/-! SUPPORT. Sparse stores: reading after writing, and that every operation keeps the canonical form. -/
namespace Sys2Proof.Machine

variable {w : Nat}

theorem Sparse.above_mono {m : Sparse w} {a b : Nat} (h : a ≤ b) (hm : Sparse.above b m = true) :
    Sparse.above a m = true := by
  cases m with
  | nil => rfl
  | cons p t =>
    obtain ⟨k, v⟩ := p
    simp only [Sparse.above, Bool.and_eq_true, decide_eq_true_eq] at hm ⊢
    exact ⟨⟨by omega, hm.1.2⟩, hm.2⟩

/-- Reading below every listed address gives 0. -/
theorem Sparse.get_above {m : Sparse w} {a b : Nat} (hm : Sparse.above b m = true) (h : a < b) : m.get a = 0 := by
  induction m generalizing b with
  | nil => rfl
  | cons p t ih =>
    obtain ⟨k, v⟩ := p
    simp only [Sparse.above, Bool.and_eq_true, decide_eq_true_eq] at hm
    simp only [Sparse.get]
    rw [if_neg (by omega)]
    exact ih hm.2 (by omega)

/-- A write at or above a bound keeps every address above it. -/
theorem Sparse.set_above {m : Sparse w} {a b : Nat} (v : BitVec w) (hm : Sparse.above b m = true) (h : b ≤ a) :
    Sparse.above b (m.set a v) = true := by
  induction m generalizing b with
  | nil =>
    unfold Sparse.set
    split
    · rfl
    · rename_i hv
      simp only [Sparse.above, Bool.and_true, Bool.and_eq_true, decide_eq_true_eq]
      exact ⟨h, hv⟩
  | cons p t ih =>
    obtain ⟨k, x⟩ := p
    simp only [Sparse.above, Bool.and_eq_true, decide_eq_true_eq] at hm
    unfold Sparse.set
    split
    · split <;> simp_all [Sparse.above]
    · split
      · split
        · exact Sparse.above_mono (by omega) hm.2
        · simp_all [Sparse.above]
      · simp only [Sparse.above, Bool.and_eq_true, decide_eq_true_eq]
        exact ⟨hm.1, ih hm.2 (by omega)⟩

/-- Writing keeps the canonical form. -/
theorem Sparse.set_wf {m : Sparse w} (a : Nat) (v : BitVec w) (hm : m.wf = true) : (m.set a v).wf = true :=
  Sparse.set_above v hm (Nat.zero_le _)

/-- What a canonical store reads at the address written. -/
theorem Sparse.get_set_same {m : Sparse w} (a : Nat) (v : BitVec w) (hm : m.wf = true) : (m.set a v).get a = v := by
  suffices ∀ b, Sparse.above b m = true → (m.set a v).get a = v from this 0 hm
  clear hm
  induction m with
  | nil =>
    intro b _
    unfold Sparse.set
    split
    · rename_i hv
      rw [hv]
      rfl
    · simp [Sparse.get]
  | cons p t ih =>
    obtain ⟨k, x⟩ := p
    intro b hm
    simp only [Sparse.above, Bool.and_eq_true, decide_eq_true_eq] at hm
    unfold Sparse.set
    split
    · split
      · rename_i hv
        simp only [Sparse.get]
        rw [if_neg (by omega), hv]
        exact Sparse.get_above hm.2 (by omega)
      · simp [Sparse.get]
    · split
      · split
        · rename_i hv
          rw [hv]
          exact Sparse.get_above hm.2 (by omega)
        · simp [Sparse.get]
      · rename_i h
        simp only [Sparse.get]
        rw [if_neg (fun e => h e.symm)]
        exact ih _ hm.2

/-- What any store reads at another address. -/
theorem Sparse.get_set_ne {m : Sparse w} {a c : Nat} (v : BitVec w) (h : c ≠ a) : (m.set a v).get c = m.get c := by
  induction m with
  | nil => unfold Sparse.set; split <;> simp [Sparse.get, Ne.symm h]
  | cons p t ih =>
    obtain ⟨k, x⟩ := p
    unfold Sparse.set
    split
    · split <;> simp [Sparse.get, Ne.symm h]
    · split
      · rename_i e
        subst e
        split <;> simp [Sparse.get, Ne.symm h]
      · simp [Sparse.get, ih]

/-- A store written keeps below a bound that the address is below. -/
theorem Sparse.set_below {m : Sparse w} {n a : Nat} (v : BitVec w) (hm : m.below n = true) (h : a < n) :
    (m.set a v).below n = true := by
  induction m with
  | nil => unfold Sparse.set; split <;> simp [Sparse.below, h]
  | cons p t ih =>
    obtain ⟨k, x⟩ := p
    simp only [Sparse.below, List.all_cons, Bool.and_eq_true, decide_eq_true_eq] at hm ih ⊢
    unfold Sparse.set
    split
    · split <;> simp only [List.all_cons, Bool.and_eq_true, decide_eq_true_eq]
      · exact hm
      · exact ⟨h, hm⟩
    · split
      · split
        · exact hm.2
        · simp only [List.all_cons, Bool.and_eq_true, decide_eq_true_eq]
          exact ⟨h, hm.2⟩
      · simp only [List.all_cons, Bool.and_eq_true, decide_eq_true_eq]
        exact ⟨hm.1, ih hm.2⟩

/-- Dropping entries keeps the canonical form. -/
theorem Sparse.filter_above {m : Sparse w} {b : Nat} (p : Nat × BitVec w → Bool) (hm : Sparse.above b m = true) :
    Sparse.above b (m.filter p) = true := by
  induction m generalizing b with
  | nil => rfl
  | cons q t ih =>
    obtain ⟨k, x⟩ := q
    simp only [Sparse.above, Bool.and_eq_true, decide_eq_true_eq] at hm
    rw [List.filter_cons]
    split
    · simp only [Sparse.above, Bool.and_eq_true, decide_eq_true_eq]
      exact ⟨hm.1, ih hm.2⟩
    · exact ih (Sparse.above_mono (by omega) hm.2)

theorem Sparse.filter_wf {m : Sparse w} (p : Nat × BitVec w → Bool) (hm : m.wf = true) :
    Sparse.wf (m.filter p) = true := Sparse.filter_above p hm

/-- Writing bytes keeps the canonical form. -/
theorem Sparse.setBytes_wf {m : Sparse 8} (a : Nat) (l : List Byte) (hm : m.wf = true) :
    (m.setBytes a l).wf = true := by
  induction l generalizing m a with
  | nil => exact hm
  | cons b t ih => exact ih _ (Sparse.set_wf a b hm)

/-- A byte outside those written reads as before. -/
theorem Sparse.get_setBytes_ne {m : Sparse 8} {a c : Nat} (l : List Byte) (h : c < a ∨ a + l.length ≤ c) :
    (m.setBytes a l).get c = m.get c := by
  induction l generalizing m a with
  | nil => rfl
  | cons b t ih =>
    simp only [List.length_cons] at h
    rw [Sparse.setBytes, ih (by omega), Sparse.get_set_ne b (by omega)]

/-- A byte of those written reads as written. -/
theorem Sparse.get_setBytes_same {m : Sparse 8} {a c : Nat} (l : List Byte) (hm : m.wf = true) (h1 : a ≤ c)
    (h2 : c < a + l.length) : (m.setBytes a l).get c = l.getD (c - a) 0 := by
  induction l generalizing m a with
  | nil => simp only [List.length_nil] at h2; omega
  | cons b t ih =>
    simp only [List.length_cons] at h2
    by_cases e : c = a
    · subst e
      rw [Sparse.setBytes, Sparse.get_setBytes_ne t (.inl (by omega)), Sparse.get_set_same c b hm]
      simp
    · rw [Sparse.setBytes, ih (Sparse.set_wf a b hm) (by omega) (by omega)]
      obtain ⟨d, rfl⟩ : ∃ d, c = a + 1 + d := ⟨c - a - 1, by omega⟩
      have h3 : a + 1 + d - (a + 1) = d := by omega
      have h4 : a + 1 + d - a = d + 1 := by omega
      rw [h3, h4]
      simp

/-- Physical memory: a byte read after it is written, and after another is. -/
theorem Memory.read_write_same {m : Memory} (a : Nat) (b : Byte) (hm : Memory.wf m = true) :
    Memory.read (Memory.write m a b) a = b := Sparse.get_set_same a b hm

theorem Memory.read_write_ne {m : Memory} {a c : Nat} (b : Byte) (h : c ≠ a) :
    Memory.read (Memory.write m a b) c = Memory.read m c := Sparse.get_set_ne b h

/-- A write keeps the canonical form of physical memory. -/
theorem Memory.write_wf {m : Memory} (a : Nat) (b : Byte) (hm : Memory.wf m = true) :
    Memory.wf (Memory.write m a b) = true := Sparse.set_wf a b hm

/-- The state after reset has memory in canonical form. -/
theorem reset_mem_wf : Memory.wf State.reset.mem = true := rfl

end Sys2Proof.Machine
end

