-- ==== Sys2Proof/Laws/Effects.lean ====
section
/-! SUPPORT. What an effect can do to the state: every effect, and so every list of effects, keeps a sound state sound, and
an effect on a warp's registers leaves everything else. -/
namespace Sys2Proof.Machine

/-- Register writes keep a warp sound. -/
theorem Warp.writeSOf_ok {w : Warp} (sup : Bool) (n : Nat) (x : Word) (h : w.Ok) : (w.writeSOf sup n x).Ok := by
  obtain ⟨hv, hs, hm, hp, hl⟩ := h
  unfold Warp.writeSOf
  split
  · rename_i hn
    split
    · exact ⟨hv, hs, hm, ⟨Sparse.set_wf _ _ hp.1, Sparse.set_below _ hp.2 (by omega)⟩, hl⟩
    · exact ⟨hv, ⟨Sparse.set_wf _ _ hs.1, Sparse.set_below _ hs.2 hn⟩, hm, hp, hl⟩
  · exact ⟨hv, hs, hm, hp, hl⟩

theorem Warp.writeS_ok {w : Warp} (n : Nat) (x : Word) (h : w.Ok) : (w.writeS n x).Ok := Warp.writeSOf_ok _ n x h

theorem Warp.writeM_ok {w : Warp} (n : Nat) (x : Word) (h : w.Ok) : (w.writeM n x).Ok := by
  obtain ⟨hv, hs, hm, hp, hl⟩ := h
  unfold Warp.writeM
  split
  · split
    · exact ⟨hv, hs, hm, ⟨Sparse.set_wf _ _ hp.1, Sparse.set_below _ hp.2 (by decide)⟩, hl⟩
    · exact ⟨hv, hs, ⟨Sparse.set_wf _ _ hm.1, Sparse.set_below _ hm.2 (by omega)⟩, hp, hl⟩
  · exact ⟨hv, hs, hm, hp, hl⟩

theorem Warp.writeV_ok {w : Warp} (r l : Nat) (x : Word) (h : w.Ok) : (w.writeV r l x).Ok := by
  obtain ⟨hv, hs, hm, hp, hl⟩ := h
  unfold Warp.writeV
  split
  · rename_i e
    simp only [Bool.and_eq_true, decide_eq_true_eq] at e
    exact ⟨⟨Sparse.set_wf _ _ hv.1, Sparse.set_below _ hv.2 (by omega)⟩, hs, hm, hp, hl⟩
  · exact ⟨hv, hs, hm, hp, hl⟩

theorem Warp.writeLive_ok {w : Warp} (x : Word) (h : w.Ok) : (w.writeLive x).Ok := by
  obtain ⟨hv, hs, hm, hp, hl⟩ := h
  exact ⟨hv, hs, ⟨Sparse.set_wf _ _ hm.1, Sparse.set_below _ hm.2 (by decide)⟩, hp, hl⟩

theorem Warp.writeLfsr_ok {w : Warp} (x : Word) (h : w.Ok) : (w.writeLfsr x).Ok := by
  obtain ⟨hv, hs, hm, hp, -⟩ := h
  refine ⟨hv, hs, hm, hp, ?_⟩
  simp only [Warp.writeLfsr]
  split
  · decide
  · assumption

theorem Warp.writeBytes_ok {w : Warp} (off : Nat) (l : List Byte) (h : w.Ok) : (w.writeBytes off l).Ok := by
  induction l generalizing w off with
  | nil => exact h
  | cons b t ih => exact ih _ (Warp.writeV_ok _ _ _ h)

theorem Warp.ctl_ok {w : Warp} (c : Ctl) (h : w.Ok) : Warp.Ok { w with ctl := c } := h

theorem Warp.created_ok (c : Ctl) (s0 s1 lanes : Word) : (Warp.created c s0 s1 lanes).Ok := by
  refine ⟨⟨rfl, rfl⟩, ⟨?_, ?_⟩, ⟨?_, ?_⟩, ⟨rfl, rfl⟩, show (1 : Word) ≠ 0 by decide⟩
  · exact Sparse.set_wf _ _ (Sparse.set_wf _ _ rfl)
  · exact Sparse.set_below _ (Sparse.set_below _ rfl (by decide)) (by decide)
  · exact Sparse.set_wf _ _ (Sparse.set_wf _ _ rfl)
  · exact Sparse.set_below _ (Sparse.set_below _ rfl (by decide)) (by decide)

/-- A change that keeps a warp sound keeps the state sound. -/
theorem State.onWarp_inv {s : State} {k : Nat} {f : Warp → Warp} (h : s.Inv) (hf : ∀ w : Warp, w.Ok → (f w).Ok) :
    (s.onWarp k f).Inv := by
  unfold State.onWarp
  split
  · exact h
  · rename_i w e
    refine ⟨h.1, h.2.1, h.2.2.1, fun p hp => ?_⟩
    rcases mem_put hp with rfl | hp
    · exact hf w (h.2.2.2 _ (mem_of_find e))
    · exact h.2.2.2 p hp

/-- A change of control states only keeps the warps sound. -/
theorem mapSlices_ok {l : List (Nat × Warp)} {p : Nat → Bool} {f : Nat → Nat → Slice → Slice}
    (h : ∀ q ∈ l, q.2.Ok) (q : Nat × Warp) (hq : q ∈ mapSlices p f l) : q.2.Ok := by
  simp only [mapSlices, List.mem_map] at hq
  obtain ⟨⟨k, w⟩, hw, rfl⟩ := hq
  dsimp only
  split
  · exact Warp.ctl_ok _ (h _ hw)
  · exact h _ hw

theorem State.sh_wf {s : State} (b : Nat) (h : s.Inv) : (s.sh b).wf = true := by
  unfold State.sh
  cases e : find s.shared b with
  | none => rfl
  | some m => exact h.2.1 _ (mem_of_find e)

theorem State.acc_wf {s : State} (b : Nat) (h : s.Inv) : (s.acc b).wf = true := by
  unfold State.acc
  cases e : find s.tiles b with
  | none => rfl
  | some m => exact h.2.2.1 _ (mem_of_find e)

theorem applyStore_inv {s : State} (sp : Space) (off : Nat) (bytes : List Byte) (who : Option (Nat × Nat))
    (h : s.Inv) : (applyStore sp off bytes who s).Inv := by
  cases sp with
  | phys =>
    simp only [applyStore]
    exact ⟨Sparse.setBytes_wf off bytes h.1, h.2.1, h.2.2.1, fun _ hp => by
      dsimp only at hp
      exact mapSlices_ok (mapSlices_ok h.2.2.2) _ hp⟩
  | shared b =>
    simp only [applyStore]
    refine ⟨h.1, fun p hp => ?_, h.2.2.1, fun _ hp => by
      dsimp only at hp
      exact mapSlices_ok (mapSlices_ok h.2.2.2) _ hp⟩
    rcases mem_put hp with rfl | hp
    · exact Sparse.setBytes_wf off bytes (State.sh_wf b h)
    · exact h.2.1 p hp
  | reg k =>
    simp only [applyStore]
    refine State.onWarp_inv ⟨h.1, h.2.1, h.2.2.1, fun _ hp => by
      dsimp only at hp
      exact mapSlices_ok h.2.2.2 _ hp⟩ fun w hw => Warp.writeBytes_ok off bytes hw
  | remote c => exact h

theorem State.copied_inv {s : State} (off e : Nat) (h : s.Inv) : (s.copied off e).Inv := by
  unfold State.copied
  split <;> exact h

theorem applyWrite_inv {s : State} (off : Nat) (bytes : List Byte) (e : Nat) (who : Option (Nat × Nat))
    (h : s.Inv) : (applyWrite off bytes e who s).Inv := by
  have h1 := State.copied_inv off e h
  unfold applyWrite
  dsimp only
  split
  · exact h1
  · exact applyStore_inv .phys off bytes who h1

theorem mem_del {α : Type} {l : List (Nat × α)} {k : Nat} {p : Nat × α} (h : p ∈ del l k) : p ∈ l :=
  (List.mem_filter.mp h).1

/-- Every effect keeps a sound state sound. -/
theorem apply_inv (e : Effect) {s : State} (h : s.Inv) : (apply e s).Inv := by
  cases e with
  | vreg k r l w => exact State.onWarp_inv h fun x hx => Warp.writeV_ok r l w hx
  | sreg k n w => exact State.onWarp_inv h fun x hx => Warp.writeS_ok n w hx
  | sregOf k sup n w => exact State.onWarp_inv h fun x hx => Warp.writeSOf_ok sup n w hx
  | mask k n w => exact State.onWarp_inv h fun x hx => Warp.writeM_ok n w hx
  | live k w => exact State.onWarp_inv h fun x hx => Warp.writeLive_ok w hx
  | lfsr k w => exact State.onWarp_inv h fun x hx => Warp.writeLfsr_ok w hx
  | ctl k c => exact State.onWarp_inv h fun x hx => Warp.ctl_ok c hx
  | newWarp k c s0 s1 lanes =>
    refine ⟨h.1, h.2.1, h.2.2.1, fun p hp => ?_⟩
    rcases mem_put hp with rfl | hp
    · exact Warp.created_ok c s0 s1 lanes
    · exact h.2.2.2 p hp
  | delWarp k => exact ⟨h.1, h.2.1, h.2.2.1, fun p hp => h.2.2.2 p (mem_del hp)⟩
  | clearBlock b =>
    refine ⟨h.1, fun p hp => ?_, fun p hp => ?_, h.2.2.2⟩
    · rcases mem_put hp with rfl | hp
      · rfl
      · exact h.2.1 p hp
    · rcases mem_put hp with rfl | hp
      · rfl
      · exact h.2.2.1 p hp
  | delBlock b =>
    exact ⟨h.1, fun p hp => h.2.1 p (mem_del hp), fun p hp => h.2.2.1 p (mem_del hp),
      fun p hp => h.2.2.2 p (List.mem_filter.mp hp).1⟩
  | store sp off bytes who => exact applyStore_inv sp off bytes who h
  | write off bytes epoch who => exact applyWrite_inv off bytes epoch who h
  | zero off n =>
    simp only [apply, applyZero]
    exact ⟨Sparse.filter_wf _ h.1, h.2.1, h.2.2.1, fun _ hp => by
      dsimp only at hp
      exact mapSlices_ok h.2.2.2 _ hp⟩
  | tile b i w =>
    refine ⟨h.1, h.2.1, fun p hp => ?_, h.2.2.2⟩
    rcases mem_put hp with rfl | hp
    · exact Sparse.set_wf i w (State.acc_wf b h)
    · exact h.2.2.1 p hp
  | unreserve off n =>
    simp only [apply]
    exact ⟨h.1, h.2.1, h.2.2.1, fun _ hp => by
      dsimp only at hp
      exact mapSlices_ok h.2.2.2 _ hp⟩
  | wipe =>
    exact ⟨Sparse.filter_wf _ h.1, by simp [apply, State.wiped, State.reset], by simp [apply, State.wiped, State.reset],
      by simp [apply, State.wiped, State.reset]⟩
  | _ => exact h

/-- Every list of effects keeps a sound state sound. -/
theorem applyAll_inv (es : List Effect) {s : State} (h : s.Inv) : (applyAll es s).Inv := by
  induction es generalizing s with
  | nil => exact h
  | cons e t ih => exact ih (apply_inv e h)

/-- What a meaning commits keeps a sound state sound. -/
theorem commit_inv {s t : State} (es : List Effect) (h : s.Inv) (e : commit s es = .next t) : t.Inv := by
  simp only [commit, Host.Outcome.next.injEq] at e
  subst e
  exact apply_inv .fresh (applyAll_inv es h)

/-- A meaning that commits always answers a next state. -/
theorem commit_next (s : State) (es : List Effect) : ∃ t, commit s es = .next t := ⟨_, rfl⟩

theorem applyAll_nil (s : State) : applyAll [] s = s := rfl

theorem applyAll_cons (e : Effect) (es : List Effect) (s : State) : applyAll (e :: es) s = applyAll es (apply e s) := rfl

theorem applyAll_append (a b : List Effect) (s : State) : applyAll (a ++ b) s = applyAll b (applyAll a s) := by
  simp [applyAll]

/-- Stages in sequence: the state after a chain is that after its stages one by one. -/
theorem applyAll_chain (s : State) (f : State → List Effect) (fs : List (State → List Effect)) :
    applyAll (chain s (f :: fs)) s = applyAll (chain (applyAll (f s) s) fs) (applyAll (f s) s) := by
  simp [chain, applyAll_append]

/-- Whether a word left by a flow is to issue again. -/
def Flow.repeats : Flow → Bool
  | .again => true
  | .wait w => w.retries
  | _ => false

/-- What follows a word that is not to issue again: its slices leave it. -/
theorem follow_advance {f : Flow} (old s : State) (k sl : Nat) (h : f.repeats = false) :
    follow old s k sl f = advance s k sl f := by
  cases f <;> simp_all [follow, Flow.repeats]

/-- A word whose checks pass and whose meaning answers: its effects after the slices' marks clear, then what follows the
word; a word that is to issue again has not issued. -/
theorem issue_done {chk : Issue → Chk} {body : Issue → Except Trap (List Effect × Flow)} {s : State} {w : Warp}
    {es : List Effect} {f : Flow} (hw : find s.warps s.cur = some w)
    (hc : (chk ⟨s, s.cur, s.slices, w⟩).fault ⟨s, s.cur, s.slices, w⟩ = none)
    (hb : body ⟨applyAll (tick s s.cur s.slices) s, s.cur, s.slices, (applyAll (tick s s.cur s.slices) s).warp s.cur⟩
      = .ok (es, f)) :
    issue chk body s =
      commit (applyAll es (if f = .again then s else applyAll (tick s s.cur s.slices) s))
        (follow s (applyAll es (if f = .again then s else applyAll (tick s s.cur s.slices) s)) s.cur s.slices f) := by
  simp [issue, hw, hc, hb]

/-- A word that the decoder's checks refuse raises the trap of the first that fails. -/
theorem issue_refused {chk : Issue → Chk} {body : Issue → Except Trap (List Effect × Flow)} {s : State} {w : Warp}
    {code : Nat} (hw : find s.warps s.cur = some w)
    (hc : (chk ⟨s, s.cur, s.slices, w⟩).fault ⟨s, s.cur, s.slices, w⟩ = some code) :
    issue chk body s = commit s (raise s s.cur
      ((⟨s, s.cur, s.slices, w⟩ : Issue).fill (chk ⟨s, s.cur, s.slices, w⟩).once { code })) := by
  simp [issue, hw, hc]

/-- A word keeps a sound state sound. -/
theorem issue_inv {chk : Issue → Chk} {body : Issue → Except Trap (List Effect × Flow)} {s t : State} (h : s.Inv)
    (e : issue chk body s = .next t) : t.Inv := by
  unfold issue at e
  split at e
  · cases e
  · dsimp only at e
    split at e
    · exact commit_inv _ h e
    · split at e
      · exact commit_inv _ h e
      · split at e
        · exact commit_inv _ (applyAll_inv _ h) e
        · exact commit_inv _ (applyAll_inv _ (applyAll_inv _ h)) e

/-- A word of an issuing warp always answers a next state. -/
theorem issue_next {chk : Issue → Chk} {body : Issue → Except Trap (List Effect × Flow)} {s : State} {w : Warp}
    (hw : find s.warps s.cur = some w) : ∃ t, issue chk body s = .next t := by
  unfold issue
  rw [hw]
  dsimp only
  split
  · exact commit_next _ _
  · split
    · exact commit_next _ _
    · split <;> exact commit_next _ _

end Sys2Proof.Machine
end

