-- ==== Sys2Proof/Laws/Issue.lean ====
section
/-! SUPPORT. What issuing a word leaves as it was for the word to read, and how register effects and leaving a word
combine. -/
namespace Sys2Proof.Machine

theorem Ctl.onSlices_slices (c : Ctl) (sl : Nat) (f : Slice → Slice) :
    (c.onSlices sl f).slices = c.slices.mapIdx fun j x => if bit sl j then f x else x := rfl

/-- A slice of a control state whose slices changed in a way that keeps some view of them. -/
theorem Ctl.onSlices_view {α : Type} (g : Slice → α) (c : Ctl) (sl j : Nat) (f : Slice → Slice)
    (h : ∀ x, g (f x) = g x) : g ((c.onSlices sl f).slice j) = g (c.slice j) := by
  simp only [Ctl.slice, Ctl.onSlices_slices, List.getD_eq_getElem?_getD, List.getElem?_mapIdx]
  cases c.slices[j]? with
  | none => rfl
  | some x =>
    simp only [Option.map_some, Option.getD_some]
    split
    · exact h x
    · rfl

/-- The state after the marks of the issuing slices clear. -/
theorem State.ticked_eq {s : State} {w : Warp} (hw : find s.warps s.cur = some w) :
    s.ticked = { s with warps := put s.warps s.cur { w with ctl := w.ctl.ticked s.fresh s.slices } } := by
  simp [State.ticked, tick, applyAll, apply, State.onWarp_some _ hw, State.ctl_of_find hw, Ctl.ticked]

theorem State.find_ticked {s : State} {w : Warp} (hw : find s.warps s.cur = some w) :
    find s.ticked.warps s.cur = some { w with ctl := w.ctl.ticked s.fresh s.slices } := by
  simp [State.ticked_eq hw]

theorem State.warp_ticked {s : State} {w : Warp} (hw : find s.warps s.cur = some w) :
    s.ticked.warp s.cur = { w with ctl := w.ctl.ticked s.fresh s.slices } := State.warp_of_find (State.find_ticked hw)

theorem Ctl.ticked_mode (c : Ctl) (now sl j : Nat) :
    ((c.ticked now sl).slice j).mode = (c.slice j).mode ∧ ((c.ticked now sl).slice j).modeSup = (c.slice j).modeSup :=
  ⟨Ctl.onSlices_view Slice.mode c sl j _ fun _ => rfl, Ctl.onSlices_view Slice.modeSup c sl j _ fun _ => rfl⟩

section seen
variable {s : State} {w : Warp} (hw : find s.warps s.cur = some w)
include hw

theorem seen_w : s.seen.w = { w with ctl := w.ctl.ticked s.fresh s.slices } := State.warp_ticked hw

theorem seen_c : s.seen.c = w.ctl.ticked s.fresh s.slices := by simp [Issue.c, seen_w hw]

theorem seen_mode : s.seen.mode = (s.at w).mode := by
  have h := Ctl.ticked_mode w.ctl s.fresh s.slices (lowest 8 s.slices)
  simp only [Issue.mode, Issue.slice, seen_c hw]
  change (if w.ctl.priv = true then ((w.ctl.ticked s.fresh s.slices).slice (lowest 8 s.slices)).modeSup
    else ((w.ctl.ticked s.fresh s.slices).slice (lowest 8 s.slices)).mode).toNat = _
  rw [h.1, h.2]
  rfl

theorem seen_ty : s.seen.ty = (s.at w).ty := by simp [Issue.ty, seen_mode hw]
theorem seen_rnd : s.seen.rnd = (s.at w).rnd := by simp [Issue.rnd, seen_mode hw]
theorem seen_gm : s.seen.gm = (s.at w).gm := by simp [Issue.gm, seen_mode hw]
theorem seen_gs : s.seen.gs = (s.at w).gs := by simp [Issue.gs, seen_mode hw]
theorem seen_sat : s.seen.sat = (s.at w).sat := by simp [Issue.sat, seen_mode hw]
theorem seen_fz : s.seen.fz = (s.at w).fz := by simp [Issue.fz, seen_mode hw]

theorem freeWord_ticked (n : Nat) : s.ticked.freeWord n = s.freeWord n := by
  simp only [State.ticked_eq hw]
  rfl

theorem seen_m (n : Nat) : s.seen.m n = (s.at w).m n := by
  simp only [Issue.m, seen_w hw]
  rfl

theorem seen_active : s.seen.active = (s.at w).active := by
  simp only [Issue.active, seen_m hw, seen_gs hw, seen_gm hw]
  rfl

theorem seen_act : s.seen.act = (s.at w).act := by simp [Issue.act, seen_active hw]

theorem readS_ticked (n : Nat) : s.ticked.readS s.cur n = s.readS s.cur n := by
  simp only [State.readS, State.warp_ticked hw, State.warp_of_find hw]
  rfl

theorem readV_ticked (r l : Nat) : s.ticked.readV s.cur r l = s.readV s.cur r l := by
  simp only [State.readV, State.warp_ticked hw, State.warp_of_find hw]
  rfl

theorem seen_rs (n : Nat) : s.seen.rs n = (s.at w).rs n := readS_ticked hw n
theorem seen_v (r l : Nat) : s.seen.v r l = (s.at w).v r l := readV_ticked hw r l
theorem seen_pair (n : Nat) : s.seen.pair n = (s.at w).pair n := by simp [Issue.pair, seen_rs hw]
theorem seen_vpair (r l : Nat) : s.seen.vpair r l = (s.at w).vpair r l := by simp [Issue.vpair, seen_v hw]

theorem seen_op (x : SOp) : s.seen.op x = (s.at w).op x := by cases x <;> simp [Issue.op, seen_rs hw]

theorem seen_vsrc (ty r l : Nat) : s.seen.vsrc ty r l = (s.at w).vsrc ty r l := by
  simp [Issue.vsrc, seen_v hw, seen_vpair hw]

theorem seen_sval (ty l : Nat) (x : SOp) : s.seen.sval ty l x = (s.at w).sval ty l x := by
  cases x <;> simp [Issue.sval, seen_rs hw, seen_pair hw]

theorem seen_opnd (ty l : Nat) (x : Opnd) : s.seen.opnd ty l x = (s.at w).opnd ty l x := by
  cases x <;> simp [Issue.opnd, seen_vsrc hw, seen_sval hw]

theorem seen_lane : s.seen.lane = (s.at w).lane := by
  simp only [Issue.lane, seen_m hw]
  rfl

theorem seen_blk : s.seen.blk = (s.at w).blk := by
  simp only [Issue.blk, State.seen, State.ticked_eq hw]
  rfl

theorem liveSlices_ticked : liveSlices (s.ticked.warp s.cur) = liveSlices w := by rw [State.warp_ticked hw]; rfl

end seen

/-- A word whose checks pass and whose meaning answers retires with its effects. -/
theorem issue_retires {chk : Issue → Chk} {body : Issue → Except Trap (List Effect × Flow)} {s : State} {w : Warp}
    {es : List Effect} {f : Flow} (hw : find s.warps s.cur = some w) (hc : (chk (s.at w)).fault (s.at w) = none)
    (hb : body s.seen = .ok (es, f)) : issue chk body s = .next (s.retire es f) := issue_done hw hc hb

/-- The helper contexts that serve on a host are the same after a change of the host itself. -/
theorem lent_put (s : State) (k : Nat) (x : Warp) : ({ s with warps := put s.warps k x } : State).lent k = s.lent k := by
  have key : ∀ y : Warp, (decide (helperBase ≤ k) && hostKey k == k && y.ctl.helper.isSome) = false := by
    intro y
    by_cases h : helperBase ≤ k
    · have : hostKey k ≠ k := by
        rw [hostKey, if_neg (by omega)]
        simp only [helperBase] at h ⊢
        omega
      simp [this]
    · simp [h]
  unfold State.lent
  dsimp only
  induction s.warps with
  | nil => simp only [put, List.filter_cons, key, List.filter_nil]; rfl
  | cons p t ih =>
    obtain ⟨a, b⟩ := p
    unfold put
    split
    · rw [List.filter_cons]
      simp only [key]
      rfl
    · split
      · rename_i h
        subst h
        rw [List.filter_cons, List.filter_cons]
        simp only [key]
        rfl
      · rw [List.filter_cons, List.filter_cons, ih]

/-- What the register effects are. -/
theorem apply_ctl (k : Nat) (c : Ctl) (s : State) : apply (.ctl k c) s = s.onWarp k fun x => { x with ctl := c } := rfl
theorem apply_sreg (k n : Nat) (x : Word) (s : State) : apply (.sreg k n x) s = s.onWarp k fun w => w.writeS n x := rfl
theorem apply_mask (k n : Nat) (x : Word) (s : State) : apply (.mask k n x) s = s.onWarp k fun w => w.writeM n x := rfl
theorem apply_vreg (k r l : Nat) (x : Word) (s : State) :
    apply (.vreg k r l x) s = s.onWarp k fun w => w.writeV r l x := rfl
theorem apply_fresh (s : State) : apply .fresh s = { s with fresh := s.fresh + 1 } := rfl

/-- A word whose effects are one change of its own warp that keeps its control state and live lanes. -/
theorem retire_onWarp {s : State} {w : Warp} {es : List Effect} {g : Warp → Warp} {f : Flow}
    (hf : f.repeats = false) (hw : find s.warps s.cur = some w) (he : applyAll es s.ticked = s.ticked.onWarp s.cur g)
    (hc : ∀ x : Warp, (g x).ctl = x.ctl) (hl : ∀ x : Warp, liveSlices (g x) = liveSlices x) :
    s.retire es f = { s with
      warps := put s.warps s.cur { g { w with ctl := w.ctl.ticked s.fresh s.slices } with
        ctl := (w.ctl.ticked s.fresh s.slices).after s.fresh (liveSlices w) s.slices (!(s.lent s.cur).isEmpty) f }
      fresh := s.fresh + 1 } := by
  have h1 := State.onWarp_some g (State.find_ticked hw)
  have hfind : find (s.ticked.onWarp s.cur g).warps s.cur = some (g { w with ctl := w.ctl.ticked s.fresh s.slices }) := by
    rw [h1]; simp
  have hlent : (s.ticked.onWarp s.cur g).lent s.cur = s.lent s.cur := by
    rw [h1, lent_put, State.ticked_eq hw, lent_put]
  have ha : f ≠ .again := fun e => by simp [e, Flow.repeats] at hf
  rw [State.retire]
  dsimp only
  rw [if_neg ha, he, follow_advance _ _ _ _ hf, advance, applyAll_cons, applyAll_nil, apply_ctl, apply_fresh]
  rw [State.onWarp_some _ hfind, State.ctl_of_find hfind, State.warp_of_find hfind, hlent, h1, State.ticked_eq hw, hc, hl]
  simp [liveSlices]

end Sys2Proof.Machine
end

