-- ==== Sys2Proof/Laws/Registers.lean ====
section
/-! SUPPORT. Reading registers after they are written and after the slices leave a word, and what the shared scalar and mask
operations do. -/
namespace Sys2Proof.Machine

/-- What leaving a word keeps of a control state: its mode of privilege and, of a helper, its slice. -/
structure Ctl.Alike (a b : Ctl) : Prop where
  priv : a.priv = b.priv
  helper : a.helper.isSome = b.helper.isSome
  slice : a.helper.map Helper.slice = b.helper.map Helper.slice

theorem Ctl.Alike.refl (c : Ctl) : c.Alike c := ⟨rfl, rfl, rfl⟩
theorem Ctl.Alike.trans {a b c : Ctl} (h : a.Alike b) (g : b.Alike c) : a.Alike c :=
  ⟨h.1.trans g.1, h.2.trans g.2, h.3.trans g.3⟩

theorem Ctl.onSlices_alike (c : Ctl) (sl : Nat) (f : Slice → Slice) : (c.onSlices sl f).Alike c := ⟨rfl, rfl, rfl⟩
theorem Ctl.ticked_alike (c : Ctl) (now sl : Nat) : (c.ticked now sl).Alike c := ⟨rfl, rfl, rfl⟩
theorem Ctl.park_alike (c : Ctl) (a b : Nat) : (c.park a b).Alike c := ⟨rfl, rfl, rfl⟩

theorem Ctl.stall_alike (c : Ctl) (now live : Nat) (l : Bool) : (c.stall now live l).Alike c := by
  unfold Ctl.stall
  dsimp only
  split <;> exact ⟨rfl, rfl, rfl⟩

theorem Ctl.endClause_alike (c : Ctl) (sl : Nat) (l : Bool) : (c.endClause sl l).Alike c := by
  unfold Ctl.endClause
  repeat' (first | split | exact ⟨rfl, rfl, rfl⟩)

theorem Ctl.after_alike (c : Ctl) (now live sl : Nat) (l : Bool) (f : Flow) : (c.after now live sl l f).Alike c := by
  unfold Ctl.after
  dsimp only
  refine (Ctl.stall_alike _ _ _ _).trans ?_
  split
  · exact ⟨rfl, rfl, rfl⟩
  · exact (Ctl.endClause_alike _ _ _).trans ⟨rfl, rfl, rfl⟩

theorem banked_alike {a b : Ctl} (h : a.Alike b) (n : Nat) : banked a n = banked b n := by
  have := h.helper
  unfold banked
  cases ha : a.helper <;> cases hb : b.helper <;> simp_all

theorem maskBits_alike {a b : Ctl} (h : a.Alike b) : maskBits a = maskBits b := by
  have := h.slice
  unfold maskBits
  cases ha : a.helper <;> cases hb : b.helper <;> simp_all

/-- Registers read the same under a control state alike. -/
theorem Warp.readS_ctl {w : Warp} {c : Ctl} (h : c.Alike w.ctl) (n : Nat) : Warp.readS { w with ctl := c } n = w.readS n := by
  unfold Warp.readS
  rw [h.priv, banked_alike h]

theorem Warp.readM_ctl {w : Warp} {c : Ctl} (h : c.Alike w.ctl) (n : Nat) : Warp.readM { w with ctl := c } n = w.readM n := by
  unfold Warp.readM
  rw [h.priv, maskBits_alike h]

theorem Warp.readV_ctl {w : Warp} {c : Ctl} (r l : Nat) : Warp.readV { w with ctl := c } r l = w.readV r l := rfl

theorem Warp.ok_ctl {w : Warp} (c : Ctl) (h : w.Ok) : Warp.Ok { w with ctl := c } := h

/-- A scalar register after it is written, and after another is. -/
theorem Warp.readS_writeS_same {w : Warp} {n : Nat} (x : Word) (hw : w.Ok) (hn : n < 160) :
    (w.writeS n x).readS n = x := by
  unfold Warp.writeS Warp.writeSOf
  rw [if_pos hn]
  split
  · rename_i h
    unfold Warp.readS
    dsimp only
    rw [if_pos h]
    exact Sparse.get_set_same n x hw.2.2.2.1.1
  · rename_i h
    unfold Warp.readS
    dsimp only
    rw [if_neg h]
    exact Sparse.get_set_same n x hw.2.1.1

theorem Warp.readS_writeS_ne {w : Warp} {n m : Nat} (x : Word) (hn : m ≠ n) : (w.writeS n x).readS m = w.readS m := by
  unfold Warp.writeS Warp.writeSOf
  split
  · split <;> simp only [Warp.readS, Sparse.get_set_ne x hn]
  · rfl

theorem Warp.readM_writeS {w : Warp} {n : Nat} (x : Word) (m : Nat) (hn : n < 160) :
    (w.writeS n x).readM m = w.readM m := by
  unfold Warp.writeS Warp.writeSOf
  rw [if_pos hn]
  split
  · have h : supM0 ≠ n := by unfold supM0; omega
    simp only [Warp.readM, Sparse.get_set_ne x h]
  · rfl

theorem Warp.readV_writeS {w : Warp} {n : Nat} (x : Word) (r l : Nat) : (w.writeS n x).readV r l = w.readV r l := by
  simp only [Warp.readV, Warp.writeS_v]

/-- A mask register after it is written, in the bits its context has, and after another is. -/
theorem Warp.readM_writeM_same {w : Warp} {n : Nat} (x : Word) (hw : w.Ok) (hn : n < 14) :
    (w.writeM n x).readM n = x &&& maskBits w.ctl := by
  unfold Warp.writeM
  rw [if_pos hn]
  split
  · rename_i h
    unfold Warp.readM
    rw [if_neg (by omega)]
    dsimp only
    rw [if_pos h]
    exact Sparse.get_set_same supM0 _ hw.2.2.2.1.1
  · rename_i h
    unfold Warp.readM
    rw [if_neg (by omega)]
    dsimp only
    rw [if_neg h, Sparse.get_set_same n _ hw.2.2.1.1, BitVec.and_assoc, BitVec.and_self]

theorem Warp.readM_writeM_ne {w : Warp} {n m : Nat} (x : Word) (hn : m ≠ n) : (w.writeM n x).readM m = w.readM m := by
  unfold Warp.writeM
  split
  · split
    · rename_i h
      simp only [Bool.and_eq_true, decide_eq_true_eq] at h
      have hm : m ≠ 0 := by omega
      simp [Warp.readM, hm]
    · simp only [Warp.readM, Sparse.get_set_ne _ hn]
  · rfl

theorem Warp.readS_writeM {w : Warp} {n : Nat} (x : Word) (m : Nat) : (w.writeM n x).readS m = w.readS m := by
  unfold Warp.writeM
  split
  · split
    · simp only [Warp.readS]
      split
      · rename_i h
        have : m ≠ supM0 := by
          simp only [Bool.and_eq_true, banked] at h
          unfold supM0
          split at h <;> simp at h <;> omega
        exact Sparse.get_set_ne _ this
      · rfl
    · rfl
  · rfl

/-- A vector element after it is written, and after another is. -/
theorem Warp.readV_writeV_same {w : Warp} {r l : Nat} (x : Word) (hw : w.Ok) (hr : r < 256) (hl : l < 32) :
    (w.writeV r l x).readV r l = x := by
  unfold Warp.writeV Warp.readV
  simp only [hr, hl, decide_true, Bool.and_self, if_true]
  exact Sparse.get_set_same _ x hw.1.1

theorem Warp.readV_writeV_ne {w : Warp} {r l p q : Nat} (x : Word) (hq : q < 32) (h : p ≠ r ∨ q ≠ l) :
    (w.writeV r l x).readV p q = w.readV p q := by
  unfold Warp.writeV Warp.readV
  split
  · rename_i e
    simp only [Bool.and_eq_true, decide_eq_true_eq] at e
    exact Sparse.get_set_ne x (by omega)
  · rfl

/-- A word whose checks pass, as the claims say them, is not refused by the decoder. -/
theorem Chk.Passes.fault {x : Chk} {I : Issue} (h : x.Passes I) : x.fault I = none := by
  have h1 : (I.c.helper.isSome && !x.helperAdmits) = false := by
    cases e : I.c.helper.isSome with
    | false => rfl
    | true =>
      obtain ⟨a, b, l⟩ := h.helper e
      cases hx : x.cls <;> simp_all [Chk.helperAdmits]
  have h2 : x.cls.admits I.c.role (warpNo I.k) = true := by
    cases e : x.cls <;> simp [Cls.admits, *]
    · exact h.copyPort e
    · exact h.mathsPort e
    · exact h.execPort e
    · exact h.lead e
  have h3 : ((x.priv || x.cls == .s) && !I.c.priv) = false := by
    cases e : I.c.priv with
    | true => simp
    | false =>
      have := h.mode
      simp only [e] at this
      cases p : x.priv <;> cases q : x.cls <;> simp_all
  have h4 : (x.vs.any (fun r => decide (I.c.vbudget ≤ r)) || x.ss.any (fun n => decide (I.c.sbudget ≤ n))
      || x.tiles.any (fun t => decide (I.blk.img.tiles ≤ t))) = false := by
    simp only [Bool.or_eq_false_iff, List.any_eq_false, decide_eq_true_eq, Nat.not_le]
    exact ⟨⟨h.vector, h.scalar⟩, h.tile⟩
  have h5 : I.viewWrite x = false := by
    unfold Issue.viewWrite
    split
    · rfl
    · rename_i p e
      cases hp : I.c.priv with
      | true => simp
      | false =>
        cases hb : bit (x.dlanes.getD I.active) p.lane with
        | false => simp
        | true =>
          simp only [Bool.not_false, Bool.true_and, List.any_eq_false, decide_eq_true_eq, Nat.not_lt]
          exact h.view p e hp hb
  simp [Chk.fault, h.legal, h1, h2, h3, h4, h5]

/-- And a word that the decoder does not refuse passes its checks. -/
theorem Chk.passes_of_fault {x : Chk} {I : Issue} (h : x.fault I = none) : x.Passes I := by
  unfold Chk.fault at h
  split at h
  · exact absurd h (by simp)
  rename_i h1
  split at h
  · exact absurd h (by simp)
  rename_i h2
  split at h
  · exact absurd h (by simp)
  rename_i h3
  split at h
  · exact absurd h (by simp)
  rename_i h4
  split at h
  · exact absurd h (by simp)
  rename_i h5
  simp only [Bool.or_eq_true, Bool.and_eq_true, Bool.not_eq_true', not_or, not_and, Bool.not_eq_true, List.any_eq_true,
    decide_eq_true_eq, not_exists, Nat.not_le] at h1 h2 h3 h4 h5
  refine ⟨by simpa using h1.1, fun e => ?_, fun e => by simpa [e, Cls.admits] using h2, fun e => by simpa [e, Cls.admits] using h2,
    fun e => by simpa [e, Cls.admits] using h2, fun e => by simpa [e, Cls.admits] using h2, fun e => ?_, h4.1.1, h4.1.2, h4.2,
    fun p e hp hb r hr => ?_⟩
  · have g := h1.2 e
    simp only [Chk.helperAdmits, Bool.and_eq_false_imp] at g
    cases hx : x.helper <;> cases hc : x.cls <;> simp_all
  · have g := h3
    rcases e with e | e <;> simpa [e] using g
  · simp only [Issue.viewWrite, e, hp, hb, Bool.not_false, Bool.true_and, List.any_eq_false, decide_eq_true_eq,
      Nat.not_lt] at h5
    exact h5 r hr

/-- Checks that differ only in what says that the word is legal pass alike. -/
theorem Chk.Passes.relegal {x : Chk} {I : Issue} {l : Bool} (h : x.Passes I) (hl : l = true) :
    ({ x with legal := l } : Chk).Passes I :=
  ⟨hl, h.helper, h.copyPort, h.mathsPort, h.execPort, h.lead, h.mode, h.vector, h.scalar, h.tile, h.view⟩

/-- A word of class A that names only scalar registers within the budget passes. -/
theorem chkA_passes {s : State} {w : Warp} {x : Chk} (hc : x.cls = .a) (h1 : x.legal = true) (h2 : x.priv = false)
    (h3 : x.helper = true) (h4 : x.vs = []) (h5 : x.tiles = []) (h6 : x.dst = [])
    (h : ∀ n ∈ x.ss, n < w.ctl.sbudget) : x.Passes (s.at w) := by
  constructor <;> simp_all [State.at, Issue.c]

theorem Ctl.sbudget_le (c : Ctl) : c.sbudget ≤ 160 := by
  unfold Ctl.sbudget
  split <;> omega

/-- The warp of a state whose entry was put in. -/
theorem State.warp_put (s : State) (l : List (Nat × Warp)) (k n : Nat) (x : Warp) :
    ({ s with warps := put l k x, fresh := n } : State).warp k = x := by
  simp [State.warp]

/-- What scalarOp does: a word that writes one scalar register completes with the value its sources give, and leaves all
else. -/
theorem scalarOp_done {s : State} {w : Warp} {d : Nat} {ops : List SOp} {f : Issue → Word} (hw : s.Issuing w)
    (hs : ∀ n ∈ d :: ops.flatMap opRegs, n < w.ctl.sbudget) :
    ∃ t, scalarOp d ops f s = .next t ∧ (t.warp s.cur).readS d = f s.seen ∧
      s.RegWord t (· = d) noReg noLane .next := by
  have hd : d < 160 := Nat.lt_of_lt_of_le (hs d (by simp)) (Ctl.sbudget_le _)
  have ha : ∀ x, Ctl.Alike ((w.ctl.ticked s.fresh s.slices).after s.fresh (liveSlices w) s.slices
      (!(s.lent s.cur).isEmpty) .next) (({ w with ctl := w.ctl.ticked s.fresh s.slices } : Warp).writeS d x).ctl := fun x => by
    rw [Warp.writeS_ctl]
    exact Ctl.after_alike _ _ _ _ _ _
  refine ⟨_, issue_retires hw.1 (chkA_passes rfl rfl rfl rfl rfl rfl rfl hs).fault rfl, ?_⟩
  rw [retire_onWarp (g := fun x => x.writeS d (f s.seen)) rfl hw.1 rfl (by simp) (by simp [liveSlices])]
  refine ⟨?_, ⟨rfl, fun k hk => find_put_ne _ _ hk⟩, ?_, ?_, ?_⟩
  · rw [State.warp_put, Warp.readS_ctl (ha _)]
    exact Warp.readS_writeS_same _ (Warp.ok_ctl _ hw.2) hd
  · simp only [State.SameRegs, State.warp_put, State.warp_of_find hw.1]
    refine ⟨fun n hn => ?_, fun n _ => ?_, fun r l _ _ => ?_⟩
    · rw [Warp.readS_ctl (ha _), Warp.readS_writeS_ne _ hn, Warp.readS_ctl (Ctl.ticked_alike _ _ _)]
    · rw [Warp.readM_ctl (ha _), Warp.readM_writeS _ _ hd, Warp.readM_ctl (Ctl.ticked_alike _ _ _)]
    · simp only [Warp.readV, Warp.writeS_v]
  · simp [State.warp_put, State.warp_of_find hw.1]
  · simp only [State.leaving, State.ctl, State.warp_put, State.warp_of_find hw.1]

end Sys2Proof.Machine
end

