-- ==== Sys2Proof/Laws/RegWords.lean ====
section
/-! SUPPORT. What a list of register effects does to its context, and the state after a word that has no other effects. -/
namespace Sys2Proof.Machine

/-- A warp after a register effect on it. -/
def Effect.regs (w : Warp) (e : Effect) : Warp :=
  match e with
  | .vreg _ r l x => w.writeV r l x
  | .sreg _ n x => w.writeS n x
  | .mask _ n x => w.writeM n x
  | .lfsr _ x => w.writeLfsr x
  | _ => w

/-- Whether an effect is one on the registers of a context. -/
def Effect.isReg (k : Nat) : Effect → Prop
  | .vreg j _ _ _ => j = k
  | .sreg j _ _ => j = k
  | .mask j _ _ => j = k
  | .lfsr j _ => j = k
  | _ => False

/-- A warp after a list of register effects. -/
def regsAll (es : List Effect) (w : Warp) : Warp := es.foldl Effect.regs w

theorem regsAll_nil (w : Warp) : regsAll [] w = w := rfl
theorem regsAll_cons (e : Effect) (es : List Effect) (w : Warp) : regsAll (e :: es) w = regsAll es (e.regs w) := rfl
theorem regsAll_append (a b : List Effect) (w : Warp) : regsAll (a ++ b) w = regsAll b (regsAll a w) := by
  simp [regsAll]

theorem Effect.regs_ctl (w : Warp) (e : Effect) : (e.regs w).ctl = w.ctl := by
  cases e <;> simp [Effect.regs, Warp.writeLfsr]

theorem regsAll_ctl (es : List Effect) (w : Warp) : (regsAll es w).ctl = w.ctl := by
  induction es generalizing w with
  | nil => rfl
  | cons e t ih => rw [regsAll_cons, ih, Effect.regs_ctl]

theorem Effect.regs_live (w : Warp) (e : Effect) : liveSlices (e.regs w) = liveSlices w := by
  have h : (e.regs w).m.get 14 = w.m.get 14 := by
    cases e <;> try rfl
    · simp [Effect.regs]
    · simp [Effect.regs]
    · simp only [Effect.regs, Warp.writeM]
      split
      · split
        · rfl
        · exact Sparse.get_set_ne _ (by omega)
      · rfl
  simp only [liveSlices, h]

theorem regsAll_live (es : List Effect) (w : Warp) : liveSlices (regsAll es w) = liveSlices w := by
  induction es generalizing w with
  | nil => rfl
  | cons e t ih => rw [regsAll_cons, ih, Effect.regs_live]

theorem Effect.regs_ok {w : Warp} (e : Effect) (h : w.Ok) : (e.regs w).Ok := by
  cases e <;> first
    | exact h
    | exact Warp.writeV_ok _ _ _ h
    | exact Warp.writeS_ok _ _ h
    | exact Warp.writeM_ok _ _ h
    | exact Warp.writeLfsr_ok _ h

theorem regsAll_ok {w : Warp} (es : List Effect) (h : w.Ok) : (regsAll es w).Ok := by
  induction es generalizing w with
  | nil => exact h
  | cons e t ih => exact ih (Effect.regs_ok e h)

/-- Register effects of a context that was put in. -/
theorem applyAll_regs {s : State} {k : Nat} {l : List (Nat × Warp)} {w : Warp} {es : List Effect}
    (h : ∀ e ∈ es, e.isReg k) :
    applyAll es { s with warps := put l k w } = { s with warps := put l k (regsAll es w) } := by
  induction es generalizing w with
  | nil => rfl
  | cons e t ih =>
    have he := h e (List.mem_cons_self ..)
    have ht := fun x hx => h x (List.mem_cons_of_mem _ hx)
    rw [applyAll_cons, regsAll_cons, ← ih ht]
    cases e <;> simp only [Effect.isReg] at he
    all_goals subst he; simp [apply, State.onWarp, Effect.regs]

/-- The state after a word with register effects only. -/
theorem retire_regs {s : State} {w : Warp} {es : List Effect} {f : Flow} (ha : f.repeats = false) (hw : find s.warps s.cur = some w)
    (h : ∀ e ∈ es, e.isReg s.cur) :
    s.retire es f = { s with
      warps := put s.warps s.cur { regsAll es { w with ctl := w.ctl.ticked s.fresh s.slices } with ctl := s.leaving f }
      fresh := s.fresh + 1 } := by
  have h1 : applyAll es s.ticked
      = { s with warps := put s.warps s.cur (regsAll es { w with ctl := w.ctl.ticked s.fresh s.slices }) } := by
    rw [State.ticked_eq hw]
    exact applyAll_regs h
  have hf : find (put s.warps s.cur (regsAll es { w with ctl := w.ctl.ticked s.fresh s.slices })) s.cur = some _ :=
    find_put_same _ _ _
  have hl : (State.lent { s with warps := put s.warps s.cur (regsAll es { w with ctl := w.ctl.ticked s.fresh s.slices }) } s.cur)
      = s.lent s.cur := lent_put _ _ _
  have hn : f ≠ .again := fun e => by simp [e, Flow.repeats] at ha
  rw [State.retire]
  dsimp only
  rw [if_neg hn, h1, follow_advance _ _ _ _ ha, advance, applyAll_cons, applyAll_nil, apply_ctl, apply_fresh, State.onWarp_some _ hf]
  dsimp only
  rw [hl, State.ctl_of_find hf, State.warp_of_find hf, regsAll_ctl, regsAll_live]
  simp only [put_put, State.leaving, State.ctl, State.warp_of_find hw]
  rfl

/-- Reading a register that a list of register effects does not write. -/
theorem regsAll_readS_ne {es : List Effect} {n : Nat} (w : Warp) (h : ∀ e ∈ es, ∀ k x, e ≠ .sreg k n x) :
    (regsAll es w).readS n = w.readS n := by
  induction es generalizing w with
  | nil => rfl
  | cons e t ih =>
    rw [regsAll_cons, ih _ fun x hx => h x (List.mem_cons_of_mem _ hx)]
    have he := h e (List.mem_cons_self ..)
    cases e <;> try rfl
    · simp [Effect.regs, Warp.readS]
    · rename_i k m x
      have : n ≠ m := fun e => he k x (by rw [e])
      exact Warp.readS_writeS_ne _ this
    · exact Warp.readS_writeM _ _

theorem regsAll_readM_ne {es : List Effect} {n : Nat} (w : Warp) (h : ∀ e ∈ es, ∀ k x, e ≠ .mask k n x) :
    (regsAll es w).readM n = w.readM n := by
  induction es generalizing w with
  | nil => rfl
  | cons e t ih =>
    rw [regsAll_cons, ih _ fun x hx => h x (List.mem_cons_of_mem _ hx)]
    have he := h e (List.mem_cons_self ..)
    cases e <;> try rfl
    · simp [Effect.regs, Warp.readM]
    · rename_i k m x
      by_cases hm : m < 160
      · exact Warp.readM_writeS _ _ hm
      · simp [Effect.regs, Warp.writeS, Warp.writeSOf, hm]
    · rename_i k m x
      have : n ≠ m := fun e => he k x (by rw [e])
      exact Warp.readM_writeM_ne _ this

theorem regsAll_readV_ne {es : List Effect} {r l : Nat} (w : Warp) (hl : l < 32)
    (h : ∀ e ∈ es, ∀ k x, e ≠ .vreg k r l x) : (regsAll es w).readV r l = w.readV r l := by
  induction es generalizing w with
  | nil => rfl
  | cons e t ih =>
    rw [regsAll_cons, ih _ fun x hx => h x (List.mem_cons_of_mem _ hx)]
    have he := h e (List.mem_cons_self ..)
    cases e <;> try rfl
    · rename_i k p q x
      refine Warp.readV_writeV_ne _ hl ?_
      by_cases hp : r = p
      · right
        intro hq
        exact he k x (by rw [hp, hq])
      · exact .inl hp
    · simp [Effect.regs, Warp.readV]
    · simp only [Effect.regs, Warp.readV, Warp.writeM]
      split
      · split <;> rfl
      · rfl

theorem regsAll_lfsr {es : List Effect} (w : Warp) (h : ∀ e ∈ es, ∀ k x, e ≠ .lfsr k x) :
    (regsAll es w).lfsr = w.lfsr := by
  induction es generalizing w with
  | nil => rfl
  | cons e t ih =>
    rw [regsAll_cons, ih _ fun x hx => h x (List.mem_cons_of_mem _ hx)]
    have he := h e (List.mem_cons_self ..)
    cases e <;> try rfl
    · simp only [Effect.regs, Warp.writeV]; split <;> rfl
    · simp [Effect.regs]
    · simp only [Effect.regs, Warp.writeM]; split
      · split <;> rfl
      · rfl
    · rename_i k x
      exact absurd rfl (he k x)

/-- Reading a register that a list of register effects writes, always to one value. -/
theorem regsAll_readS {es : List Effect} {n : Nat} {x : Word} {w : Warp} (hw : w.Ok) (hn : n < 160)
    (h : ∃ k, .sreg k n x ∈ es) (hx : ∀ j y, .sreg j n y ∈ es → y = x) : (regsAll es w).readS n = x := by
  induction es generalizing w with
  | nil => obtain ⟨_, h⟩ := h; simp at h
  | cons e t ih =>
    rw [regsAll_cons]
    have hx' := fun j y (hy : .sreg j n y ∈ t) => hx j y (List.mem_cons_of_mem _ hy)
    by_cases ht : ∃ j, .sreg j n x ∈ t
    · exact ih (Effect.regs_ok _ hw) ht hx'
    · rw [regsAll_readS_ne _ fun a ha j y he => ht ⟨j, hx' j y (he ▸ ha) ▸ he ▸ ha⟩]
      obtain ⟨k, h⟩ := h
      rcases List.mem_cons.mp h with h | h
      · subst h
        exact Warp.readS_writeS_same _ hw hn
      · exact absurd ⟨k, h⟩ ht

theorem regsAll_readV {es : List Effect} {r l : Nat} {x : Word} {w : Warp} (hw : w.Ok) (hr : r < 256) (hl : l < 32)
    (h : ∃ k, .vreg k r l x ∈ es) (hx : ∀ j y, .vreg j r l y ∈ es → y = x) : (regsAll es w).readV r l = x := by
  induction es generalizing w with
  | nil => obtain ⟨_, h⟩ := h; simp at h
  | cons e t ih =>
    rw [regsAll_cons]
    have hx' := fun j y (hy : .vreg j r l y ∈ t) => hx j y (List.mem_cons_of_mem _ hy)
    by_cases ht : ∃ j, .vreg j r l x ∈ t
    · exact ih (Effect.regs_ok _ hw) ht hx'
    · rw [regsAll_readV_ne _ hl fun a ha j y he => ht ⟨j, hx' j y (he ▸ ha) ▸ he ▸ ha⟩]
      obtain ⟨k, h⟩ := h
      rcases List.mem_cons.mp h with h | h
      · subst h
        exact Warp.readV_writeV_same _ hw hr hl
      · exact absurd ⟨k, h⟩ ht

/-- A mask register after register effects that write it to one value, in the bits its context has. -/
theorem regsAll_readM {es : List Effect} {n : Nat} {x : Word} {w : Warp} (hw : w.Ok) (hn : n < 14)
    (h : ∃ k, .mask k n x ∈ es) (hx : ∀ j y, .mask j n y ∈ es → y = x) :
    (regsAll es w).readM n = x &&& maskBits w.ctl := by
  induction es generalizing w with
  | nil => obtain ⟨_, h⟩ := h; simp at h
  | cons e t ih =>
    rw [regsAll_cons]
    have hx' := fun j y (hy : .mask j n y ∈ t) => hx j y (List.mem_cons_of_mem _ hy)
    by_cases ht : ∃ j, .mask j n x ∈ t
    · rw [ih (Effect.regs_ok _ hw) ht hx', Effect.regs_ctl]
    · rw [regsAll_readM_ne _ fun a ha j y he => ht ⟨j, hx' j y (he ▸ ha) ▸ he ▸ ha⟩]
      obtain ⟨k, h⟩ := h
      rcases List.mem_cons.mp h with h | h
      · subst h
        exact Warp.readM_writeM_same _ hw hn
      · exact absurd ⟨k, h⟩ ht

/-- A word with register effects only: its next state, and what it reads there. -/
theorem regWord_done {chk : Issue → Chk} {body : Issue → Except Trap (List Effect × Flow)} {s : State} {w : Warp}
    {es : List Effect} {f : Flow} {S M : Nat → Prop} {V : Nat → Nat → Prop} (hw : s.Issuing w)
    (hc : (chk (s.at w)).Passes (s.at w)) (hb : body s.seen = .ok (es, f)) (hf : f.repeats = false)
    (hr : ∀ e ∈ es, e.isReg s.cur) (hS : ∀ n, ¬S n → ∀ e ∈ es, ∀ k x, e ≠ .sreg k n x)
    (hM : ∀ n, ¬M n → ∀ e ∈ es, ∀ k x, e ≠ .mask k n x)
    (hV : ∀ r l, l < 32 → ¬V r l → ∀ e ∈ es, ∀ k x, e ≠ .vreg k r l x) :
    ∃ t, issue chk body s = .next t ∧
      (∀ n, (t.warp s.cur).readS n = (regsAll es w).readS n) ∧
      (∀ n, (t.warp s.cur).readM n = (regsAll es w).readM n) ∧
      (∀ r l, (t.warp s.cur).readV r l = (regsAll es w).readV r l) ∧
      s.RegWord t S M V f (regsAll es w).lfsr := by
  have hx : ∀ e : Effect, ∀ v : Warp, ∀ c : Ctl, c.Alike v.ctl →
      e.regs { v with ctl := c } = { e.regs v with ctl := c } := by
    intro e v c hc
    cases e <;> try rfl
    · simp only [Effect.regs, Warp.writeV]; split <;> rfl
    · simp only [Effect.regs, Warp.writeS, Warp.writeSOf, hc.priv, banked_alike hc]; split <;> (try split) <;> rfl
    · simp only [Effect.regs, Warp.writeM, hc.priv, maskBits_alike hc]; split <;> (try split) <;> rfl
  have hall : ∀ (es : List Effect) (v : Warp) (c : Ctl), c.Alike v.ctl →
      regsAll es { v with ctl := c } = { regsAll es v with ctl := c } := by
    intro es
    induction es with
    | nil => intro v c _; rfl
    | cons e t ih =>
      intro v c hc
      rw [regsAll_cons, hx e v c hc, ih _ _ (by rw [Effect.regs_ctl]; exact hc), regsAll_cons]
  have ha : (s.leaving f).Alike (regsAll es w).ctl := by
    rw [regsAll_ctl, State.leaving, State.ctl_of_find hw.1]
    exact (Ctl.after_alike _ _ _ _ _ _).trans (Ctl.ticked_alike _ _ _)
  refine ⟨_, issue_retires hw.1 hc.fault hb, ?_⟩
  rw [retire_regs hf hw.1 hr, hall es w _ (Ctl.ticked_alike _ _ _)]
  simp only [State.warp_put]
  refine ⟨fun n => Warp.readS_ctl ha n, fun n => Warp.readM_ctl ha n, fun r l => rfl,
    ⟨rfl, fun k hk => find_put_ne _ _ hk⟩, ?_, ?_, ?_⟩
  · simp only [State.SameRegs, State.warp_put, State.warp_of_find hw.1]
    refine ⟨fun n hn => ?_, fun n hn => ?_, fun r l hl hn => ?_⟩
    · rw [Warp.readS_ctl ha, regsAll_readS_ne _ (hS n hn)]
    · rw [Warp.readM_ctl ha, regsAll_readM_ne _ (hM n hn)]
    · rw [Warp.readV_ctl, regsAll_readV_ne _ hl (hV r l hl hn)]
  · simp [State.warp_put]
  · simp only [State.ctl, State.warp_put]

/-- The active lanes are lanes. -/
theorem span_lt {lo n i : Nat} (h : i ∈ span lo n) : lo ≤ i ∧ i < lo + n := by
  induction n generalizing lo with
  | zero => simp [span] at h
  | succ n ih =>
    rw [span] at h
    rcases List.mem_cons.mp h with h | h
    · omega
    · have := ih h
      omega

theorem Issue.act_lt {I : Issue} {l : Nat} (h : l ∈ I.act) : l < 32 := by
  have := span_lt (List.mem_filter.mp h).1
  omega

/-- A destination of a type names registers below 256. -/
theorem vregs_lt {ty d r : Nat} (hd : d < 256) (hok : okReg ty d = true) (hr : r ∈ vregs ty d) : r < 256 := by
  unfold vregs at hr
  unfold okReg at hok
  cases h : is64 ty <;> simp [h] at hr hok <;> omega

/-- The writes of a typed result. -/
theorem mem_vout {k ty d l x : Nat} {e : Effect} :
    e ∈ vout k ty d l x ↔ ∃ r ∈ vregs ty d, e = .vreg k r l (resultIn ty d x r) := by
  unfold vout vregs resultIn
  cases h : is64 ty <;> simp

/-- A word that writes a typed result in every active lane, after a step of the LFSR or none. -/
theorem typed_done {chk : Issue → Chk} {body : Issue → Except Trap (List Effect × Flow)} {s : State} {w : Warp}
    {ty d : Nat} {x : Nat → Nat} {pre : List Effect} (hw : s.Issuing w) (hc : (chk (s.at w)).Passes (s.at w))
    (hd : ∀ r ∈ vregs ty d, r < 256) (hp : ∀ e ∈ pre, ∃ q, e = .lfsr s.cur q)
    (hb : body s.seen = .ok (pre ++ (s.at w).act.flatMap (fun l => vout s.cur ty d l (x l)), .next)) :
    ∃ t, issue chk body s = .next t ∧
      (∀ r ∈ vregs ty d, ∀ l ∈ (s.at w).act, (t.warp s.cur).readV r l = resultIn ty d (x l) r) ∧
      s.RegWord t noReg noReg (fun r l => r ∈ vregs ty d ∧ l ∈ (s.at w).act) .next (regsAll pre w).lfsr := by
  have hm : ∀ e, e ∈ pre ++ (s.at w).act.flatMap (fun l => vout s.cur ty d l (x l)) →
      (∃ q, e = .lfsr s.cur q) ∨ ∃ l ∈ (s.at w).act, ∃ r ∈ vregs ty d, e = .vreg s.cur r l (resultIn ty d (x l) r) := by
    intro e he
    rcases List.mem_append.mp he with he | he
    · exact .inl (hp e he)
    · obtain ⟨l, hl, he⟩ := List.mem_flatMap.mp he
      exact .inr ⟨l, hl, mem_vout.mp he⟩
  obtain ⟨t, h1, -, -, h4, h5⟩ := regWord_done (S := noReg) (M := noReg)
    (V := fun r l => r ∈ vregs ty d ∧ l ∈ (s.at w).act) hw hc hb rfl
    (fun e he => by rcases hm e he with ⟨q, rfl⟩ | ⟨l, _, r, _, rfl⟩ <;> rfl)
    (fun n _ e he k y => by rcases hm e he with ⟨q, rfl⟩ | ⟨l, _, r, _, rfl⟩ <;> simp)
    (fun n _ e he k y => by rcases hm e he with ⟨q, rfl⟩ | ⟨l, _, r, _, rfl⟩ <;> simp)
    (fun p q _ hn e he k y => by
      rcases hm e he with ⟨q', rfl⟩ | ⟨l, hl, r, hr, rfl⟩
      · simp
      · intro h
        simp only [Effect.vreg.injEq] at h
        obtain ⟨-, rfl, rfl, -⟩ := h
        exact hn ⟨hr, hl⟩)
  have hl : (regsAll (pre ++ (s.at w).act.flatMap (fun l => vout s.cur ty d l (x l))) w).lfsr = (regsAll pre w).lfsr := by
    rw [regsAll_append]
    refine regsAll_lfsr _ fun e he k q => ?_
    obtain ⟨l, _, he⟩ := List.mem_flatMap.mp he
    obtain ⟨r, _, rfl⟩ := mem_vout.mp he
    simp
  refine ⟨t, h1, fun r hr l hla => ?_, hl ▸ h5⟩
  rw [h4]
  refine regsAll_readV hw.2 (hd r hr) (Issue.act_lt hla)
    ⟨s.cur, List.mem_append_right _ (List.mem_flatMap.mpr ⟨l, hla, mem_vout.mpr ⟨r, hr, rfl⟩⟩)⟩ fun j y hy => ?_
  rcases hm _ hy with ⟨q, h⟩ | ⟨l', _, r', _, h⟩
  · simp at h
  · simp only [Effect.vreg.injEq] at h
    obtain ⟨-, rfl, rfl, rfl⟩ := h
    rfl

end Sys2Proof.Machine
end

