-- ==== Sys2Proof/Tests/Slice0.lean ====
section
/-! SUPPORT. The decoder on words written out in the spec, the checks of WellFormed, and small steps. Every expected
value is the spec's: its program sections (19 to 25) print the words, its tables and worked examples the results. After them, concrete states that
meet the hypotheses of each statement (witness_ and the statement's name). -/
namespace Sys2Proof.Tests
open Sys2Proof Sys2Proof.Machine

/-- Whether words decode to one instruction and nothing is left. -/
def reads (ws : List Word) (i : Instr) : Bool := decide ((decode ws).toOption = some (i, []))

/-- Scalar words: 21, 23 and 24 print them. -/
theorem test_decode_scalar :
    reads [0x090BA10A] (.sshl 11 (.const 1) (.reg 10)) ∧
    reads [0x141414FF, 0x80] (.saddp 20 20 (.lit 0x80)) ∧
    reads [0x0E1F1E03] (.scmp 31 (.reg 30) (.reg 3)) ∧
    reads [0x020404EF] (.sadd 4 (.reg 4) (.const (-1))) := by decide

/-- Mask words: 04 and 23 print them. -/
theorem test_decode_mask :
    reads [0x380DA000] (.mset 13 (.const 0)) ∧ reads [0x3800A100] (.mset 0 (.const 1)) := by decide

/-- Control words: 19, 20 and 21 print them. -/
theorem test_decode_control :
    reads [0x24002A19] (.jmp 42 (.reg 25)) ∧ reads [0x26002800] (.ret 40) ∧
    reads [0x210114CC] (.brc true (.reg 20) (.const 44)) ∧
    reads [0x220000B0] (.brzm 0 (.const 16)) ∧ reads [0x20FFFFF3] (.bra 0xFFFFF3) ∧
    reads [0x29605400] (.mode 0x6054) := by decide

/-- Vector integer words: 04 and 24 print them. -/
theorem test_decode_integer :
    reads [0x42040406] (.addcVv 4 4 6) ∧ reads [0x410202FF, 0x200] (.addVs 2 2 (.lit 0x200)) ∧
    reads [0x5D05010C] (.shrVs 5 1 (.reg 12)) ∧ reads [0x6F0704C0] (.cmpVs 7 4 (.const 32)) ∧
    reads [0x68050200] (.brevVv 5 2) ∧ reads [0x73000005] (.movVs 0 (.reg 5)) := by decide

/-- Float words: 23 and 25 print them. -/
theorem test_decode_float :
    reads [0x80050304] (.faddVv 5 3 4) ∧ reads [0x851919F3] (.fmulVs 25 25 (.fconst 3)) ∧
    reads [0x86322D19] (.ffmaVv 50 45 25) ∧ reads [0x9D1403AC] (.itofVs 20 3 (.const 12)) ∧
    reads [0x9515141B] (.fscaleVs 21 20 (.reg 27)) := by decide

/-- Special functions and lane exchange: 21, 24 and 25 print them. -/
theorem test_decode_lanes :
    reads [0xAE181500] (.cospi 24 21) ∧ reads [0xAD191500] (.sinpi 25 21) ∧
    reads [0xB30C0AA2] (.shflx 12 10 (.const 2)) ∧
    reads [0xB50314A4] (.ballot 3 20 (.const 4)) := by decide

/-- Memory words: 19, 20, 21 and 25 print them. -/
theorem test_decode_memory :
    reads [0xB9080A02] (.st 8 (.base 10 2)) ∧ reads [0xB808FE02] (.ld 8 (.vec 2)) ∧
    reads [0xBA0B041D] (.lds 11 4 (.reg 29)) ∧ reads [0xBB33061D] (.sts 51 6 (.reg 29)) ∧
    reads [0x150604A0] (.sld 6 4 (.const 0)) := by decide

/-- Atomics with their extension words: 20, 23 and 24 print them. -/
theorem test_decode_atomics :
    reads [0xC21516A0, 0xA1000540] (.atoms 21 22 (.const 0) ⟨0xA1, 0, 0, 2, 5⟩) ∧
    reads [0xC3000E02, 0x07000540] (.red (.base 14 2) ⟨7, 0, 0, 2, 5⟩) ∧
    reads [0xC1030002, 0x01006000] (.atom 3 (.base 0 2) ⟨1, 0, 6, 0, 0⟩) := by decide

/-- Synchronisation and queue words: 19, 20 and 25 print them. -/
theorem test_decode_sync :
    reads [0xCA00FFA4, 0x40] (.abinit (.lit 0x40) (.const 4)) ∧
    reads [0xCD010500] (.fence 1 5) ∧ reads [0xCE040000] (.waitc 4 0) ∧
    reads [0xC8001300] (.bar (.reg 19)) ∧ reads [0xD1141E00] (.qpop 20 (.reg 30)) ∧
    reads [0xD0001F14] (.qpush (.reg 31) (.reg 20)) ∧
    reads [0xCF0106A2] (.qinit 1 (.reg 6) (.const 2)) := by decide

/-- Copy, matrix and tile words: 19 prints them. -/
theorem test_decode_engines :
    reads [0xD804101D] (.cpld 0 false true 16 (.reg 29)) ∧
    reads [0xE0130020] (.mma 0 true 3 0 32) ∧ reads [0xE0004060] (.mma 0 false 0 64 96) ∧
    reads [0xE2002015] (.mrel 0 (.reg 32) (.reg 21)) ∧
    reads [0xE30807F2] (.tld 8 7 (.fconst 2)) := by decide

/-- Recruitment words: 21 prints them. -/
theorem test_decode_recruitment :
    reads [0xE814105E] (.recruit 20 16 5 7 false) ∧ reads [0xED281500] (.hjoin 40 21) ∧
    reads [0xE9210600] (.hidx 33 6) ∧ reads [0xEB002A00] (.hred 42) ∧
    reads [0xEA0E1100] (.hrd 14 17) ∧ reads [0xEC000000] (.hend) := by decide

/-- Combine words: 20 prints them. -/
theorem test_decode_combine :
    reads [0xF21408A5] (.cmbcfg 20 8 (.const 5)) ∧
    reads [0xF3010210] (.cmbdisp 1 2 (.reg 16)) ∧ reads [0xF4010610] (.cmbput 1 6 (.reg 16)) ∧
    reads [0xF510A0FF, 0x40] (.cmbwait 16 (.const 0) (.lit 0x40)) ∧
    reads [0xF61810A3] (.cmbq 24 (.reg 16) (.const 3)) ∧
    reads [0xF71B00A5] (.cmbdrain 27 (.const 5)) := by decide

/-- Collective and system words, their fields laid out by the encodings of R342, R376, R385, R393 and R404: COLL form 0 of
tile 3 at s8; SRD s4 of register 0x24; SWR of LFSR from s5; LAUNCH s2 of s4 and s6; BRK 7; SNAP s8 with tag 2. -/
theorem test_decode_system :
    reads [0xF0230800] (.coll 0 true false 3 8) ∧ reads [0xF9042400] (.srd 4 0x24) ∧
    reads [0xFA020500] (.swr 2 (.reg 5)) ∧ reads [0xFC020406] (.launch 2 4 6) ∧
    reads [0xF80100A7] (.brk (.const 7)) ∧ reads [0xFE0008A2] (.snap 8 (.const 2)) := by decide

/-- R80: words that are no instruction: an unassigned opcode, and NOP with a reserved bit set. -/
theorem test_decode_refuses :
    (decode [0xFF000000]).isOk = false ∧ (decode [0x28000001]).isOk = false ∧ (decode []).isOk = false := by decide

/-! Ill-formed terms, one for each check, refused by WellFormed. -/

theorem test_ill_formed_registers :
    WellFormed (.smov 160 (.const 0)) = false ∧ WellFormed (.saddp 3 4 (.const 0)) = false ∧
    WellFormed (.saddp 160 4 (.const 0)) = false ∧ WellFormed (.addVv 256 0 0) = false ∧
    WellFormed (.mnot 16 0) = false ∧ WellFormed (.hidx 0 14) = false := by decide

theorem test_ill_formed_operands :
    WellFormed (.smov 0 (.const 64)) = false ∧ WellFormed (.smov 0 (.const (-17))) = false ∧
    WellFormed (.smov 0 (.fconst 0)) = false ∧ WellFormed (.smov 0 .laneid) = false ∧
    WellFormed (.smov 0 (.reg 160)) = false ∧ WellFormed (.movVs 0 (.fconst 8)) = false ∧
    WellFormed (.movVs 0 (.const 64)) = false ∧ WellFormed (.movVs 0 (.reg 160)) = false := by decide

theorem test_ill_formed_memory :
    WellFormed (.ld 0 (.base 3 0)) = false ∧ WellFormed (.ld 0 (.vec 3)) = false ∧
    WellFormed (.ld 0 (.vec 256)) = false ∧ WellFormed (.pref 3 (.base 2 0)) = false ∧
    WellFormed (.red (.base 0 0) ⟨0, 1, 0, 0, 0⟩) = false ∧ WellFormed (.red (.base 0 0) ⟨0, 0, 9, 0, 0⟩) = false ∧
    WellFormed (.red (.base 0 0) ⟨0, 0, 0, 4, 0⟩) = false ∧ WellFormed (.red (.base 0 0) ⟨0, 0, 0, 0, 7⟩) = false ∧
    WellFormed (.atoms 0 0 (.const 0) ⟨0xF0, 0, 0, 0, 0⟩) = false ∧
    WellFormed (.atoms 0 0 (.const 0) ⟨0, 0xF0, 7, 0, 0⟩) = false := by decide

theorem test_ill_formed_engines :
    WellFormed (.cpld 0 false false 4 (.reg 0)) = false ∧ WellFormed (.cpld 0 false false 0xA0 (.reg 0)) = false ∧
    WellFormed (.cpld 1 false false 8 (.reg 0)) = false ∧ WellFormed (.cpld 0 false false 8 (.reg 1)) = false ∧
    WellFormed (.coll 4 false false 0 8) = false ∧ WellFormed (.coll 2 false true 0 8) = false ∧
    WellFormed (.coll 0 false false 1 8) = false ∧ WellFormed (.coll 1 true false 0 8) = false ∧
    WellFormed (.mma 6 false 0 0 0) = false ∧ WellFormed (.tzero 16) = false ∧
    WellFormed (.cmbcfg 0 4 (.const 0)) = false := by decide

theorem test_ill_formed_system :
    WellFormed (.srd 0 5) = false ∧ WellFormed (.srd 1 0x10) = false ∧ WellFormed (.swr 0x24 (.reg 2)) = false ∧
    WellFormed (.swr 0x10 (.reg 3)) = false ∧ WellFormed (.swr 0x10 (.const 3)) = false ∧
    WellFormed (.launch 0 3 4) = false ∧ WellFormed (.getid 0 9) = false ∧ WellFormed (.mode 0xC) = false ∧
    WellFormed (.mode 65536) = false ∧ WellFormed (.bra 16777216) = false := by decide

theorem test_ill_formed_synchronisation :
    WellFormed (.fence 0 0) = false ∧ WellFormed (.fence 5 0) = false ∧ WellFormed (.fence 1 7) = false ∧
    WellFormed (.waitc 6 0) = false ∧ WellFormed (.gclr 16) = false ∧ WellFormed (.qtrypop 1 (.const 0)) = false ∧
    WellFormed (.recruit 0 2 2 1 false) = false ∧ WellFormed (.recruit 0 0 0 1 false) = false ∧
    WellFormed (.recruit 0 0 14 1 false) = false ∧ WellFormed (.recruit 0 0 1 8 false) = false ∧
    WellFormed (.vote 0 0 3) = false ∧ WellFormed (.redlane 0 0 6) = false := by decide

/-! Small states. -/

/-- A block of context 1 with every kind of warp, 4,096 bytes of shared memory and eight tiles. -/
def block0 : Block := { ctx := 1, img := { ne := 2, nm := 1, nc := 1, vbe := 64, vbm := 64, vbc := 64, tiles := 8, shblk := 4096 } }

/-- A warp's context of a role: every lane live, every slice at the first word of a clause. -/
def context (role : Nat) (mode : BitVec 16) : Warp :=
  { m := [(0, 0xFFFFFFFF), (14, 0xFFFFFFFF)]
    ctl := { role, vb := 64, launched := 0xFFFFFFFF, st := .active
             slices := List.replicate 8 { pc := 0x1000, inClause := true, words := [0x28000000, 0x28000000], mode, modeSup := mode } } }

/-- A state in which the eight slices of one context of block 0 issue. -/
def stateOf (k : Nat) (w : Warp) : State :=
  { blocks := [(0, block0)], ctxs := [(1, { valid := true })], warps := [(k, w)], cur := k, slices := 255 }

/-- A type of the mode, with a rounding. -/
def modeTy (ty rnd : Nat) : BitVec 16 := BitVec.ofNat 16 (ty * 2048 + rnd * 256)

/-- The execute lead, the maths warp and the copy warp in user mode, and the execute lead in supervisor mode. -/
def lead (ty : Nat := 0) (rnd : Nat := 0) : State := stateOf 0 (context 0 (modeTy ty rnd))
def maths (ty : Nat := 0) : State := stateOf 24 (context 1 (modeTy ty 0))
def copier : State := stateOf 32 (context 2 0)
def sup : State := stateOf 0 { context 0 0 with ctl := { (context 0 0).ctl with priv := true, hslices := 255 } }

/-- The lead with its control state or its registers changed. -/
def leadWith (f : Ctl → Ctl) (ty : Nat := 0) : State :=
  stateOf 0 { context 0 (modeTy ty 0) with ctl := f (context 0 (modeTy ty 0)).ctl }
def leadRegs (s : Sparse 32) (ty : Nat := 0) : State := stateOf 0 { context 0 (modeTy ty 0) with s }

/-- A helper on slice 1 of warp 1 of block 0, of foreman warp 0, with an open span of one helper. -/
def helper : Helper := { foreman := 0, rank := 0, host := 1, slice := 1, cur := [none, none, none, none], asked := false, recalled := false, clauses := 0 }
def span0 (crew : List (Option Nat)) : Span :=
  { lane := 0, entry := 0x1000, lo := 0, hi := 64, i32 := true, crew
    streams := (span 0 32).map fun t => ⟨0, 0, 0, some (t % 4)⟩, cur := some 0 }
def helperState (h : Helper := helper) : State :=
  { stateOf (helperKey 1 1) { m := [(0, 0xF0), (14, 0xF0)], ctl := { (context 0 0).ctl with helper := some h } } with
    slices := 2
    warps := [(0, { context 0 0 with ctl := { (context 0 0).ctl with span := some (span0 [some (helperKey 1 1)]) } }),
      (1, context 0 0), (helperKey 1 1, { m := [(0, 0xF0), (14, 0xF0)], ctl := { (context 0 0).ctl with helper := some h } })] }

/-- A context, a state's issuing context and a state are sound. -/
def okContext (w : Warp) : Bool :=
  (w.v.wf && w.v.below 8192) && (w.s.wf && w.s.below 160) && (w.m.wf && w.m.below 15) && (w.sup.wf && w.sup.below 161)
    && decide (w.lfsr ≠ 0)
def issues (s : State) : Bool := (find s.warps s.cur).isSome && okContext (s.warp s.cur)
def sound (s : State) : Bool :=
  Memory.wf s.mem && (s.shared.all fun p => p.2.wf) && (s.tiles.all fun p => p.2.wf) && s.warps.all fun p => okContext p.2

theorem ok_of {w : Warp} (h : okContext w = true) : w.Ok := by
  simp only [okContext, Bool.and_eq_true, decide_eq_true_eq] at h
  exact ⟨h.1.1.1.1, h.1.1.1.2, h.1.1.2, h.1.2, h.2⟩

theorem issuing_of {s : State} (h : issues s = true) : s.Issuing (s.warp s.cur) := by
  simp only [issues, Bool.and_eq_true] at h
  obtain ⟨w, hw⟩ := Option.isSome_iff_exists.1 h.1
  exact ⟨by simp [State.warp, hw], ok_of h.2⟩

theorem inv_of {s : State} (h : sound s = true) : s.Inv := by
  simp only [sound, Bool.and_eq_true, List.all_eq_true] at h
  exact ⟨h.1.1.1, h.1.1.2, h.1.2, fun p hp => ok_of (h.2 p hp)⟩

theorem admits_of {s : State} {x : Chk} (h : issues s = true) (hx : x.fault (s.at (s.warp s.cur)) = none) :
    s.Admits (s.warp s.cur) x := ⟨issuing_of h, Chk.passes_of_fault hx⟩

/-- The issuing context of a state. -/
abbrev me (s : State) : Warp := s.warp s.cur

/-- Memory in which context 1 maps the first GiB to itself (V, W, X, U, A and D set), with a clause of one NOP at 0x2000. -/
def mapped : Memory :=
  [(0x2000, 0x80), (0x2001, 0xF0), (0x2002, 0x0F), (0x200B, 0x28), (0x10000, 0x01), (0x10001, 0x10), (0x10002, 0x01),
   (0x11000, 0x01), (0x11001, 0x20), (0x11002, 0x01), (0x12000, 0x7F)]
def withMemory (s : State) : State :=
  { s with mem := mapped, ctxs := [(1, { valid := true, ptroot := 0x10000 })] }

/-! One step on small states. -/

/-- What a word leaves of the issuing context, where it completes without a trap. -/
def after (i : Instr) (s : State) : Option Warp :=
  match exec i s with
  | .next t => if (t.warp t.cur).ctl.trap = none then some (t.warp t.cur) else none
  | _ => none

/-- Whether a word leaves x in scalar register n. -/
def leavesS (i : Instr) (s : State) (n : Nat) (x : Word) : Bool := ((after i s).map fun w => w.readS n) == some x

/-- Whether a word leaves x in lane l of vector register r. -/
def leavesV (i : Instr) (s : State) (r l : Nat) (x : Word) : Bool := ((after i s).map fun w => w.readV r l) == some x

/-- The trap cause that a word is left with. -/
def traps (i : Instr) (s : State) : Option Nat :=
  match exec i s with
  | .next t => (t.warp t.cur).ctl.trap.map fun x => x.code
  | _ => none

/-- The lead with scalar s1 = 0xFFFFFFFF, s2 = 0x80000000, s3 = 5. -/
def scalars : State := leadRegs [(1, 0xFFFFFFFF), (2, 0x80000000), (3, 5)]

/-- The lead of a type with vector registers written. -/
def leadVec (v : Sparse 32) (ty : Nat) : State := stateOf 0 { context 0 (modeTy ty 0) with v }

/-- R102: addition and subtraction wrap, SMULH gives the high half, and the two shifts right differ in the sign. -/
theorem test_scalar_arithmetic :
    leavesS (.sadd 4 (.reg 1) (.const 2)) scalars 4 1 ∧ leavesS (.ssub 3 (.reg 3) (.const 6)) scalars 3 0xFFFFFFFF ∧
    leavesS (.smulh 4 (.reg 1) (.reg 1)) scalars 4 0xFFFFFFFE ∧
    leavesS (.sshr 4 (.reg 2) (.const 31)) scalars 4 1 ∧ leavesS (.ssar 4 (.reg 2) (.const 40)) scalars 4 0xFFFFFFFF ∧
    leavesS (.sshl 4 (.reg 3) (.const 32)) scalars 4 0 ∧ leavesS (.smin 4 (.reg 2) (.reg 3)) scalars 4 0x80000000 := by
  decide

/-- R103 to R105: a field extracted with its sign, a field inserted, 0x80000000 less signed and greater unsigned than 5,
and a pair whose carry crosses. -/
theorem test_scalar_fields :
    leavesS (.sbfe 4 (.reg 2) (.lit 0x1041C)) scalars 4 0xFFFFFFF8 ∧
    leavesS (.sbfi 3 (.reg 1) (.lit 0x204)) scalars 3 0x35 ∧
    leavesS (.scmp 4 (.reg 2) (.reg 3)) scalars 4 (2 + 16) ∧
    leavesS (.saddp 4 0 (.const 1)) (leadRegs [(0, 0xFFFFFFFF), (1, 7)]) 5 8 ∧
    leavesS (.saddp 4 0 (.const (-1))) (leadRegs [(1, 7)]) 5 6 := by decide

/-- R108: MFFS of an empty mask is 32. -/
theorem test_masks :
    leavesS (.mffs 4 5) scalars 4 32 ∧ leavesS (.mpopc 4 14) scalars 4 32 ∧
    ((after (.mandn 5 14 5) scalars).map fun w => w.readM 5) = some 0xFFFFFFFF := by decide

/-- R136's example: the second word of the 64-bit addition, with m13 = 3 after the first. -/
theorem test_addc_example :
    let s := stateOf 0 { context 0 (modeTy 6 0) with
      v := [(160, 1), (161, 0xFFFFFFFF), (224, 2)], m := [(0, 3), (13, 3), (14, 0xFFFFFFFF)] }
    leavesV (.addcVv 5 5 7) s 5 0 4 ∧ leavesV (.addcVv 5 5 7) s 5 1 0 ∧ leavesV (.addcVv 5 5 7) s 5 2 0 ∧
    ((after (.addcVv 5 5 7) s).map fun w => w.readM 13) = some 2 := by decide +kernel

/-- R137 to R139: SAR of the full width gives the sign, CLZ of 1 is 31, BREV of 1 is the top bit, and MOV of laneid the
lane. -/
theorem test_vector_bits :
    let s := leadVec [(3, 0x80000000), (35, 1)] 8
    leavesV (.sarVs 2 0 (.const 63)) s 2 3 0xFFFFFFFF ∧ leavesV (.shrVs 2 0 (.const 32)) s 2 3 0 ∧
    leavesV (.clzVv 2 1) s 2 3 31 ∧ leavesV (.brevVv 2 1) s 2 3 0x80000000 ∧
    leavesV (.movVs 2 .laneid) s 2 9 9 := by decide +kernel

/-- R161 and R68: 1 + 2 = 3, infinity less itself is the canonical NaN, 1 + 2 × 2 = 5, and the constant 0xF3 is −1. -/
theorem test_float_arithmetic :
    let s := leadVec [(0, 0x3F800000), (32, 0x40000000), (64, 0x7F800000)] 0xC
    leavesV (.faddVv 3 0 1) s 3 0 0x40400000 ∧ leavesV (.fsubVv 3 2 2) s 3 0 0x7FC00000 ∧
    leavesV (.ffmaVv 0 1 1) s 0 0 0x40A00000 ∧ leavesV (.fmulVs 3 1 (.fconst 3)) s 3 0 0xC0000000 := by decide +kernel

/-- R164 and R166: 1.0 is a positive normal, and floor(log2 2) = 1. -/
theorem test_float_class :
    let s := leadVec [(0, 0x3F800000), (32, 0x40000000)] 0xC
    leavesV (.fclassVs 3 0 (.lit 0x3FF)) s 3 0 0x40 ∧ leavesV (.fgetxVv 3 1) s 3 0 1 := by decide +kernel

/-- R145 and R147: SHFLX by 1 exchanges neighbours, and BALLOT gathers bit 2 of each lane. -/
theorem test_lane_exchange :
    let s := leadVec [(0, 4), (1, 9)] 2
    leavesV (.shflx 1 0 (.const 1)) s 1 0 9 ∧ leavesV (.shflx 1 0 (.const 1)) s 1 1 4 ∧
    ((after (.ballot 5 0 (.const 4)) s).map fun w => w.readM 5) = some 1 := by decide +kernel

/-- R31 and R67: a vector register at the budget of 64 raises register-range, an odd pair illegal-instruction, and a word of
class S in user mode privileged. -/
theorem test_traps :
    traps (.addVv 64 0 0) (lead 2) = some 0x04 ∧ traps (.addVv 1 0 2) (lead 3) = some 0x01 ∧
    traps .sret (lead) = some 0x18 := by decide +kernel

/-! Witnesses: for each statement with hypotheses, concrete states and operands that meet them, clause by clause. -/

theorem witness_ScalarAluWritesTableResult :
    (lead).Issuing (me lead) ∧ ∀ n ∈ 159 :: (opRegs (.reg 158) ++ opRegs (.lit 7)), n < (me lead).ctl.sbudget :=
  ⟨issuing_of (by decide), by decide⟩

theorem witness_ScalarFieldsRelationsAndPairs :
    (lead).Issuing (me lead) ∧ (∀ n ∈ 158 :: (opRegs (.reg 159) ++ opRegs (.const 63)), n < (me lead).ctl.sbudget) ∧
    ∀ n ∈ [158 + 1, 156, 156 + 1], n < (me lead).ctl.sbudget := ⟨issuing_of (by decide), by decide, by decide⟩

theorem witness_GetidNamesTheIssuer : (lead).Issuing (me lead) ∧ 159 < (me lead).ctl.sbudget :=
  ⟨issuing_of (by decide), by decide⟩

theorem witness_MaskWordsWriteOneMask :
    (lead).Issuing (me lead) ∧ (∀ n ∈ opRegs (.reg 159), n < (me lead).ctl.sbudget) ∧ 159 < (me lead).ctl.sbudget :=
  ⟨issuing_of (by decide), by decide, by decide⟩

theorem witness_ScalarWordsIgnoreTheMode :
    (lead).Issuing (me lead) ∧ (∀ n ∈ 159 :: (opRegs (.reg 0) ++ opRegs (.lit 7)), n < (me lead).ctl.sbudget) :=
  ⟨issuing_of (by decide), by decide⟩

/-- Types i32, i64, b32 and i8x4; the last register of the budget; the second part at i8's greatest value. -/
theorem witness_VectorArithmeticWritesExactElements :
    ((lead 2).Admits (me (lead 2)) { cls := .e, vs := [63, 0, 1], dst := [63] } ∧ isI 2 ∧ 2 ∈ [2, 6, 8, 0x16]) ∧
    ((lead 3).Admits (me (lead 3)) { cls := .e, vs := [62, 63, 0, 1, 2, 3], dst := [62, 63] } ∧ isI 3) ∧
    ((lead 8).Admits (me (lead 8)) { cls := .e, vs := [63, 0], ss := [159], dst := [63] } ∧ isB 8) ∧
    ((lead 0x16).Admits (me (lead 0x16)) { cls := .e, vs := [63, 0, 1], dst := [63] } ∧ isP 0x16) ∧
    (isI 0 ∧ isB 0 = false ∧ (-2 ^ (elemBits 0 - 1) : Int) ≤ 127 ∧ (127 : Int) ≤ 2 ^ (elemBits 0 - 1) - 1) :=
  ⟨⟨admits_of (by decide) (by decide), by decide⟩, ⟨admits_of (by decide) (by decide), by decide⟩,
    ⟨admits_of (by decide) (by decide), by decide⟩, ⟨admits_of (by decide) (by decide), by decide⟩, by decide⟩

theorem witness_VectorLogicAndShiftsWritePatterns :
    ((lead 6).Admits (me (lead 6)) { cls := .e, vs := [63, 0, 1], dst := [63] } ∧ isI 6 ∧ 6 ∈ [2, 6, 8]) ∧
    ((lead 0x17).Admits (me (lead 0x17)) { cls := .e, vs := [63, 0, 1], dst := [63] } ∧ isP 0x17) ∧
    ((lead 8).Admits (me (lead 8)) { cls := .e, vs := [63, 0], ss := [159], dst := [63] } ∧ isB 8) :=
  ⟨⟨admits_of (by decide) (by decide), by decide⟩, ⟨admits_of (by decide) (by decide), by decide⟩,
    admits_of (by decide) (by decide), by decide⟩

theorem witness_OneSourceWordsAndCmp :
    ((lead 8).Admits (me (lead 8)) { cls := .e, vs := [63, 0], dst := [63] } ∧ isB 8) ∧
    (lead 9).Admits (me (lead 9)) { cls := .e, vs := [62, 63], ss := [158, 159], dst := [62, 63] } ∧
    ((lead 0x0C).Admits (me (lead 0x0C)) { cls := .e, vs := [63, 0], dst := [63] } ∧ 0x0C < 0x18) ∧
    ((lead 3).Admits (me (lead 3)) { cls := .e, vs := [62, 63, 0, 1, 2, 3], dst := [62, 63] } ∧ isI 3) :=
  ⟨⟨admits_of (by decide) (by decide), by decide⟩, admits_of (by decide) (by decide),
    ⟨admits_of (by decide) (by decide), by decide⟩, admits_of (by decide) (by decide), by decide⟩

theorem witness_CarryChainUsesMaskThirteen :
    (lead 2).Admits (me (lead 2)) { cls := .e, vs := [63, 0, 1], dst := [63] } ∧ 2 ∈ [2, 6, 8] :=
  ⟨admits_of (by decide) (by decide), by decide⟩

/-- CVTI to i64 by a constant into the last pair, and to i8 by a register of zeros; FTOI, ITOF and FCVT by constants. -/
theorem witness_ConversionsWriteEachLanesType :
    ((lead 2).Admits (me (lead 2)) { cls := .e, vs := [62, 0], dst := [62, 63] } ∧
      ∀ l, isI (((lead 2).at (me (lead 2))).opnd 2 l (.s (.const 3)))) ∧
    ((lead 2).Admits (me (lead 2)) { cls := .e, vs := [62, 0, 1], dst := [62] } ∧
      ∀ l ∈ ((lead 2).at (me (lead 2))).act, ((lead 2).at (me (lead 2))).opnd 8 l (.v 1) % 8 = 0) ∧
    ((lead 0x0C 5).Admits (me (lead 0x0C 5)) { cls := .e, vs := [62, 0], dst := [62] } ∧
      ((lead 0x0C 5).at (me (lead 0x0C 5))).rnd < 6 ∧
      (∀ l, ((lead 0x0C 5).at (me (lead 0x0C 5))).opnd 8 l (.s (.const 2)) = 2) ∧
      ∀ l, ((lead 0x0C 5).at (me (lead 0x0C 5))).opnd 8 l (.s (.const 0x13)) = 0x13) ∧
    (lead 2).Admits (me (lead 2)) { cls := .e, vs := [62, 0], dst := [62] } ∧
      ∀ l, ((lead 2).at (me (lead 2))).opnd 8 l (.s (.const 0x0C)) = 0x0C :=
  ⟨⟨admits_of (by decide) (by decide), fun _ => rfl⟩, ⟨admits_of (by decide) (by decide), by decide⟩,
    ⟨admits_of (by decide) (by decide), by decide, fun _ => rfl, fun _ => rfl⟩,
    admits_of (by decide) (by decide), fun _ => rfl⟩

theorem witness_FloatArithmeticRoundsOnce :
    ((lead 0x0C 5).Admits (me (lead 0x0C 5)) { cls := .e, vs := [63, 0, 1], dst := [63] } ∧
      ((lead 0x0C 5).at (me (lead 0x0C 5))).rnd = 5) ∧
    (lead 0x0D).Admits (me (lead 0x0D)) { cls := .e, vs := [62, 63, 0, 1], ss := [158, 159], dst := [62, 63] } ∧
    (lead 0x14).Admits (me (lead 0x14)) { cls := .e, vs := [63, 0, 1], dst := [63] } :=
  ⟨⟨admits_of (by decide) (by decide), by decide⟩, admits_of (by decide) (by decide), admits_of (by decide) (by decide)⟩

theorem witness_FloatSelectionsAndTests :
    (lead 0x0A).Admits (me (lead 0x0A)) { cls := .e, vs := [63, 0, 1], dst := [63] } ∧
    (lead 0x0D).Admits (me (lead 0x0D)) { cls := .e, vs := [62, 63, 0, 1, 2], dst := [62, 63] } ∧
    (lead 0x15).Admits (me (lead 0x15)) { cls := .e, vs := [63, 1], dst := [63] } :=
  ⟨admits_of (by decide) (by decide), admits_of (by decide) (by decide), admits_of (by decide) (by decide)⟩

/-- FPACK under f16x2, e4m3 and e2m1, FUNPACK under e5m2 and FDOT2 under bf16x2. -/
theorem witness_PackUnpackAndDotWrite :
    (lead 0x14).Admits (me (lead 0x14)) { cls := .e, vs := [63, 0, 1], dst := [63] } ∧
    (lead 0x0E).Admits (me (lead 0x0E)) { cls := .e, vs := [63, 0, 1], dst := [63] } ∧
    (lead 0x12).Admits (me (lead 0x12)) { cls := .e, vs := [63, 0, 1], dst := [63] } ∧
    (lead 0x13).Admits (me (lead 0x13)) { cls := .e, vs := [63, 0], ss := [159], dst := [63] } ∧
    (lead 0x15 5).Admits (me (lead 0x15 5)) { cls := .e, vs := [63, 0, 1], dst := [63] } :=
  ⟨admits_of (by decide) (by decide), admits_of (by decide) (by decide), admits_of (by decide) (by decide),
    admits_of (by decide) (by decide), admits_of (by decide) (by decide)⟩

theorem witness_SpecialFunctionsBindToSeta :
    (lead 0x0C).Admits (me (lead 0x0C)) { cls := .e, vs := [63, 0], dst := [63] } ∧
    ((lead 0x0C).at (me (lead 0x0C))).ty = 0x0C := ⟨admits_of (by decide) (by decide), by decide⟩

/-- A register and a constant source; the count 5 of the segment field, its greatest. -/
theorem witness_ShufflesMoveSourceLanes :
    (lead 3).Admits (me (lead 3)) { cls := .e, vs := [62, 63, 0, 1, 2], dst := [62, 63] } ∧
    (leadRegs [(7, 0x501)] 2).Admits (me (leadRegs [(7, 0x501)] 2)) { cls := .e, vs := [63, 0], ss := [7], dst := [63] } ∧
    ∀ l, ((leadRegs [(7, 0x501)] 2).at (me (leadRegs [(7, 0x501)] 2))).whole 2 l id (.reg 7) % 2 ^ 32 / 2 ^ 8 % 8 < 6 :=
  ⟨admits_of (by decide) (by decide), admits_of (by decide) (by decide), fun l => by
    rw [show ((leadRegs [(7, 0x501)] 2).at (me (leadRegs [(7, 0x501)] 2))).whole 2 l id (.reg 7) = 0x501 from rfl]
    decide⟩

theorem witness_VoteAndBallotReadActiveLanes :
    (lead).Admits (me lead) { cls := .e, ss := [159] } ∧
    (lead 9).Admits (me (lead 9)) { cls := .e, vs := [62, 63], ss := [158, 159] } :=
  ⟨admits_of (by decide) (by decide), admits_of (by decide) (by decide)⟩

/-- i32, f32 rounded to nearest, and b32 under the operations 0, 2 and 5. -/
theorem witness_RedlaneCombinesActiveLanes :
    ((lead 2).Admits (me (lead 2)) { cls := .e, vs := [63, 0], dst := [63] } ∧ (0 : Nat) < 6) ∧
    ((lead 0x0C 4).Admits (me (lead 0x0C 4)) { cls := .e, vs := [63, 0], dst := [63] } ∧
      ((lead 0x0C 4).at (me (lead 0x0C 4))).rnd ≠ 5 ∧ (2 < 3 ∧ 0x0C = 0x0C)) ∧
    ((lead 8).Admits (me (lead 8)) { cls := .e, vs := [63, 0], dst := [63] } ∧ (3 ≤ 5 ∧ 8 = 8)) ∧
    (List.replicate 32 (some (1 : Int))).length = 32 :=
  ⟨⟨admits_of (by decide) (by decide), by decide⟩, ⟨admits_of (by decide) (by decide), by decide⟩,
    ⟨admits_of (by decide) (by decide), by decide⟩, by decide⟩

/-- The warp itself as its partner, another warp, one that does not exist, no such chip, a parted warp, and a warp whose
XSWAP is pending. -/
theorem witness_XswapSendsOrCopies :
    let two : State := { lead 2 with warps := [(0, context 0 (modeTy 2 0)), (1, context 0 (modeTy 2 0))] }
    let parted := leadWith (fun c => { c with parted := true }) 2
    let second := leadWith (fun c => { c with xswap := some { partner := 1, d := 0, lanes := 1, pair := false, sent := [], op := 0 } }) 2
    two.Admits (me two) { cls := .e, helper := false, vs := [63, 0], dst := [63] } ∧
    two.peer (blockOf two.cur) 0 = some 0 ∧ two.exists (36 * 0 + 0) = true ∧ two.exists (36 * 0 + 1) = true ∧
    two.exists (36 * 0 + 23) = false ∧ two.peer (blockOf two.cur) 15 = none ∧
    (me two).ctl.xswap = none ∧ (me two).ctl.parted = false ∧
    parted.Admits (me parted) { cls := .e, helper := false, vs := [63, 0], dst := [63] } ∧ (me parted).ctl.parted = true ∧
    second.Admits (me second) { cls := .e, helper := false, vs := [63, 0], dst := [63] } ∧ (me second).ctl.xswap ≠ none ∧
    second.exists 0 = true :=
  ⟨admits_of (by decide) (by decide), by decide, by decide, by decide, by decide, by decide, by decide, by decide,
    admits_of (by decide) (by decide), by decide, admits_of (by decide) (by decide), by decide, by decide⟩

/-- A target at a good header, one that is no clause, one outside the virtual addresses, one on a page that is not mapped,
one that is misaligned, sums below 0 and of 2^64; both values of a condition. -/
theorem witness_TransfersGoToCheckedTargets :
    let s := withMemory (leadRegs [(4, 0x2000), (6, 0x1008), (8, 0xFFFFFFF8), (9, 0xFFFFFFFF)])
    s.Issuing (me s) ∧ (∀ n ∈ [158, 158 + 1, 4, 4 + 1] ++ opRegs (.reg 159) ++ opRegs (.lit 0x200), n < (me s).ctl.sbudget) ∧
    (s.seen.target ((s.at (me s)).pair 4)).isOk = true ∧ (s.seen.target ((s.at (me s)).pair 6)).isOk = false ∧
    ((me s).readM 1 &&& (me s).readM 14).toNat &&& (s.at (me s)).lanes = 0 ∧
    ((me s).readM 0 &&& (me s).readM 14).toNat &&& (s.at (me s)).lanes ≠ 0 ∧
    generic (0x8000000000100000 : DWord).toNat = .bad ∧
    (s.seen.s.clauseWords s.seen.k (0x2004 / 8 * 8) 0 2).isOk = true ∧ generic 0x2004 = .virt 0x2004 ∧
    (s.seen.s.clauseWords s.seen.k 0x40000000 0 2).isOk = false ∧
    (((s.at (me s)).pair 8).toNat : Int) + 8 * ((s.at (me s)).op (.const 1)).toInt = 2 ^ 64 ∧
    (((s.at (me s)).slice.pc.toNat : Int) + 8 * (BitVec.ofNat 24 0x800000).toInt < 0) :=
  ⟨issuing_of (by decide), by decide, by decide, by decide, by decide, by decide, by decide, by decide, by decide, by decide,
    by decide, by decide⟩

/-- A gang, and a parted warp at REGANG: another slice has not arrived; all have, at one word; all have, at two words. -/
theorem witness_ModePartRegangAndYield :
    let waits := fun (a b : Option (Nat × Nat)) => leadWith fun c =>
      { c with parted := true, slices := c.slices.mapIdx fun j x =>
          if j = 0 then x else { x with regang := if j = 1 then a else b } }
    let one : State := { waits none (some (0x1008, 0x1000)) with slices := 1 }
    let all : State := { waits (some (0x1008, 0x1000)) (some (0x1008, 0x1000)) with slices := 1 }
    let two : State := { waits (some (0x3008, 0x3000)) (some (0x1008, 0x1000)) with slices := 1 }
    (lead).Issuing (me lead) ∧ (me lead).ctl.helper = none ∧ (me lead).ctl.parted = false ∧
    one.Issuing (me one) ∧ (me one).ctl.parted = true ∧ (none ∈ (setBits 8 (liveSlices (me one))).tail.map fun j => ((me one).ctl.slice j).regang) ∧
    all.Issuing (me all) ∧ ((setBits 8 (liveSlices (me all))).tail.map fun j => ((me all).ctl.slice j).regang).eraseDups = [some (0x1008, 0x1000)] ∧
    two.Issuing (me two) ∧ (none ∉ (setBits 8 (liveSlices (me two))).tail.map fun j => ((me two).ctl.slice j).regang) ∧
    (let c := (leadWith fun c => { c with flagOps := [{ id := 1, flag := 0, slices := 1, writes := [] }] }).ctl 0
     ∃ o ∈ (c.shareFlags 255).flagOps, o.slices &&& 255 ≠ 0) :=
  ⟨issuing_of (by decide), by decide, by decide, issuing_of (by decide), by decide, by decide, issuing_of (by decide), by decide,
    issuing_of (by decide), by decide, by decide⟩

/-- PREF, and CCTL on the last virtual address of a pair; a slice inside its clause, one at its last word. -/
theorem witness_SlicesLeaveTheirWords :
    let s := leadRegs [(4, 0xFFFFFFFF), (5, 0xFFFFFF)]
    s.Issuing (me s) ∧ s.Admits (me s) { cls := .e, vs := [62, 63] } ∧ (∀ n ∈ [4, 4 + 1] ++ opRegs (.const 0), n < (me s).ctl.sbudget) ∧
    generic ((s.at (me s)).pair 4).toNat = .virt 0xFFFFFFFFFFFFFF ∧
    (me s).ctl.slices.length = 8 ∧ bit 255 7 = true ∧ bit 127 7 = false ∧
    ((me s).ctl.slice 0).idx + ((me s).ctl.slice 0).span < ((me s).ctl.slice 0).words.length ∧
    (let x : Slice := { idx := 1, words := [0x28000000, 0x28000000] }
     x.words.length ≤ x.idx + x.span) :=
  ⟨issuing_of (by decide), admits_of (by decide) (by decide), by decide, by decide, by decide, by decide, by decide, by decide,
    by decide⟩

/-- A misaligned offset, the first offset beyond SHBLK, and the last word before it, equal to 0. -/
theorem witness_WaitwTestsItsWord :
    let s := leadRegs [(0, 4094), (1, 4096), (2, 4092)]
    s.Issuing (me s) ∧ (me s).ctl.helper = none ∧ (∀ n ∈ opRegs (.reg 2) ++ opRegs (.const 0), n < (me s).ctl.sbudget) ∧
    ((s.at (me s)).op (.reg 0)).toNat % 4 ≠ 0 ∧
    (((s.at (me s)).op (.reg 1)).toNat % 4 = 0 ∧ (s.blk (blockOf s.cur)).img.shblk ≤ ((s.at (me s)).op (.reg 1)).toNat) ∧
    ((s.at (me s)).op (.reg 2)).toNat % 4 = 0 ∧ ((s.at (me s)).op (.reg 2)).toNat < (s.blk (blockOf s.cur)).img.shblk ∧
    ofBytes (s.ticked.readPlace s.cur { sp := .shared 0, off := 4092 } 4) = ((s.at (me s)).op (.const 0)).toNat :=
  ⟨issuing_of (by decide), by decide, by decide, by decide, by decide, by decide, by decide, by decide⟩

/-- A slice whose rendezvous has fired; a released gang; a parted warp; one whose m0 lacks a live lane, without a span and
with one of that lane. -/
theorem witness_ExitForkAndRend :
    let parted := leadWith fun c => { c with parted := true }
    let part : State := stateOf 0 { context 0 0 with m := [(0, 0x7FFFFFFF), (14, 0xFFFFFFFF)] }
    let spans : State := stateOf 0 { me part with ctl := { (me part).ctl with span := some { span0 [none] with lane := 31 } } }
    let fired := leadWith fun c => { c with slices := c.slices.map fun x => { x with wait := some .fired } }
    (fired.Issuing (me fired) ∧ (fired.at (me fired)).slice.wait = some .fired ∧ ((lead).at (me lead)).slice.wait ≠ some .fired) ∧
    (lead).Issuing (me lead) ∧ (lead).released ∧ (me lead).ctl.divert = none ∧ (me lead).ctl.span = none ∧
    (me lead).ctl.role = 0 ∧ warpNo (lead).cur = 0 ∧ (me lead).ctl.parted = false ∧ (me lead).readM 0 = (me lead).readM 14 ∧
    parted.Issuing (me parted) ∧ (me parted).ctl.parted = true ∧ part.Issuing (me part) ∧ (me part).readM 0 ≠ (me part).readM 14 ∧
    spans.Issuing (me spans) ∧ (me spans).ctl.span = some { span0 [none] with lane := 31 } ∧
    bit (spans.at (me spans)).active 31 = false :=
  ⟨⟨issuing_of (by decide), by decide, by decide⟩, issuing_of (by decide), ⟨by decide, by decide⟩, by decide, by decide,
    by decide, by decide, by decide, by decide,
    issuing_of (by decide), by decide, issuing_of (by decide), by decide, issuing_of (by decide), by decide, by decide⟩

/-- A barrier of 36 with 34 and with 35 arrivals, one with no count, a misaligned offset, the first and the last offset
that SHBLK admits, a parted warp. -/
theorem witness_BarrierWordsCountArrivals :
    let s := { leadRegs [(0, 4092), (1, 4094), (2, 4096), (3, 4088)] with shared := [(0, [(4092, 35), (4094, 36)])] }
    let parted := leadWith fun c => { c with parted := true }
    let at_ := fun (off : Nat) => ofBytes (s.ticked.readPlace s.cur { sp := .shared 0, off } 4)
    s.Issuing (me s) ∧ (me s).ctl.helper = none ∧ (∀ n ∈ opRegs (.reg 3), n < (me s).ctl.sbudget) ∧ s.released ∧
    (me s).ctl.parted = false ∧ (me s).readM 0 = (me s).readM 14 ∧
    (at_ 4092 / 2 ^ 22 % 512 = 0 ∧ at_ 4092 / 2 ^ 6 % 1024 = 0 ∧ at_ 4092 / 2 ^ 16 % 64 = 36 ∧ at_ 4092 % 64 = 35) ∧
    at_ 4088 / 2 ^ 16 % 64 = 0 ∧ ((s.at (me s)).op (.reg 1)).toNat % 4 ≠ 0 ∧
    (s.blk 0).img.shblk < ((s.at (me s)).op (.reg 2)).toNat + 4 ∧ ((s.at (me s)).op (.reg 0)).toNat + 4 ≤ (s.blk 0).img.shblk ∧
    parted.Issuing (me parted) ∧ (me parted).ctl.parted = true ∧
    (let v := 36 * 2 ^ 16 + 34
     v < 2 ^ 32 ∧ v / 2 ^ 22 % 512 = 0 ∧ v / 2 ^ 6 % 1024 = 0 ∧ 1 ≤ v / 2 ^ 16 % 64 ∧ v % 64 < v / 2 ^ 16 % 64) :=
  ⟨issuing_of (by decide), by decide, by decide, ⟨by decide, by decide⟩, by decide, by decide, by decide, by decide, by decide,
    by decide, by decide, issuing_of (by decide), by decide, by decide⟩

/-- The last offset that SHBLK admits; the counts 1 and 65535, 0 and 65536; an object with two of two pending, in each
phase. -/
theorem witness_AsynchronousBarrierWords :
    let s := { leadRegs [(0, 4088), (1, 4080), (2, 65535), (3, 65536)] with
      shared := [(0, [(4080, 2), (4084, 2), (4087, 128), (4088, 2), (4092, 2)])] }
    let at_ := fun (off : Nat) => ofBytes (s.ticked.readPlace s.cur { sp := .shared 0, off } 8)
    s.Issuing (me s) ∧ (∀ n ∈ 159 :: (opRegs (.reg 0) ++ opRegs (.reg 2)), n < (me s).ctl.sbudget) ∧ s.released ∧
    ((s.at (me s)).op (.reg 0)).toNat % 8 = 0 ∧ ((s.at (me s)).op (.reg 0)).toNat + 8 ≤ (s.blk 0).img.shblk ∧
    (∀ off ∈ [4080, 4088], at_ off / 2 ^ 48 % 2 ^ 15 = 0 ∧ at_ off / 2 ^ 16 % 2 ^ 16 = 0 ∧ 1 ≤ at_ off % 2 ^ 16 ∧
      at_ off % 2 ^ 16 ≤ at_ off / 2 ^ 32 % 2 ^ 16) ∧ bit (at_ 4080) 63 = true ∧ bit (at_ 4088) 63 = false ∧
    (1 ≤ ((s.at (me s)).op (.reg 2)).toNat ∧ ((s.at (me s)).op (.reg 2)).toNat ≤ 65535) ∧
    ¬(1 ≤ ((s.at (me s)).op (.reg 3)).toNat ∧ ((s.at (me s)).op (.reg 3)).toNat ≤ 65535) :=
  ⟨issuing_of (by decide), by decide, ⟨by decide, by decide⟩, by decide, by decide, by decide, by decide, by decide, by decide,
    by decide⟩

/-- A warp with no operation in flight, one that awaits a reply; an order that is no acquire; a store that a snapshot's page
holds up; no request outstanding, and a remote store unacknowledged. -/
theorem witness_FenceAndWaitc :
    let waits := leadWith fun c => { c with flagOps := [{ id := 1, flag := 0, slices := 255, writes := [], waiting := [9] }] }
    let r : Req := { id := 5, k := 0, sl := 0, kind := 1, pa := 2 ^ 43, size := 4, lanes := 1, plane := 3, op := 0, dest := [], ty := 8
                     copy := 0 }
    let far : State := { (lead) with fab := { reqs := [r] }, ids := 6 }
    let holds : State := { (leadWith fun c => { c with storeQ := [{ sp := .phys, off := 0x20000, bytes := [1], sl := 0, epoch := 3 }] }) with
      snap := { n := 3, st := 2, pages := [⟨2, 2, false, [], 3⟩] } }
    (holds.Issuing (me holds) ∧ (me holds).ctl.farPending = false ∧ ¬holds.released) ∧
    (lead).Issuing (me lead) ∧ (me lead).ctl.farPending = false ∧ (lead).released ∧ 4 ≠ 1 ∧
    waits.Issuing (me waits) ∧ (me waits).ctl.farPending = true ∧ (∀ x ∈ (lead).fab.reqs, x.plane = 0xFE) ∧
    far.Issuing (me far) ∧ far.released ∧ (far.at (me far)).slice.wait = none ∧
    (∃ x ∈ far.fab.reqs, x.id < far.ids ∧ x.plane ≠ 0xFE ∧ 1 ≤ x.kind ∧ x.kind ≤ 3) :=
  ⟨⟨issuing_of (by decide), by decide, fun h => absurd h.2 (by decide)⟩, issuing_of (by decide), by decide,
    ⟨by decide, by decide⟩, by decide, issuing_of (by decide), by decide, by decide,
    issuing_of (by decide), ⟨by decide, by decide⟩, by decide, by decide⟩

/-- Loads of mapped memory by one lane and by a scalar pair, an unmapped address, an LDS; the offsets at SHBLK's edge. -/
theorem witness_LoadsBindTheirBytes :
    let s := { withMemory (leadRegs [(4, 0x2000), (7, 0x10)] 8) with ccache := [(ccKey 0 0 0x2000, 0x000FF080)] }
    s.Admits (me s) { cls := .e, vs := [63, 0], ss := [4, 5], dst := [63] } ∧ accessBytes 8 ≠ 0 ∧
    (s.ticked.lanesAccess s.cur 4 0 0 8 (s.seen.eas (.base 4 0))).isOk = true ∧
    (s.ticked.lanesAccess s.cur 4 0 0 8 (s.seen.eas (.base 6 0))).isOk = false ∧
    s.ticked.waitsSave [] = false ∧
    (∀ x ∈ ((s.ticked.lanesAccess s.cur 4 0 0 8 (s.seen.eas (.base 4 0))).toOption.map Prod.fst).getD [], x.host = false ∧
      ∀ p ∈ x.pieces, p.1.mgmt = false ∧ p.1.sp = .phys) ∧
    s.Admits (me s) { cls := .e, legal := okReg 8 63 && okReg 8 1, vs := [63, 1], ss := [0], dst := [63] } ∧
    (s.seen.sharedRows 1 (.reg 0) 0).isOk = true ∧
    (∀ n ∈ [159, 4, 4 + 1] ++ opRegs (.const 0), n < (me s).ctl.sbudget) ∧
    (s.seen.onceAccess 0x2000 4 0 0 8 fun _ => none).isOk = true ∧ (s.seen.constAccess 0x2000).isOk = true ∧
    (s.seen.constAccess 0x8000000000000000).isOk = false ∧
    find s.ccache (ccKey s.cur 0 0x2000) = some 0x000FF080 ∧ find s.ccache (ccKey s.cur 0 0x2004) = none ∧
    (s.seen.blk.img.shblk = 4096 ∧ 4094 % 4 ≠ 0 ∧ 4096 % 4 = 0 ∧ 4096 ≤ 4096 ∧ 4092 % 4 = 0 ∧ 4092 < 4096) :=
  ⟨admits_of (by decide) (by decide), by decide, by decide, by decide, by decide, by decide, admits_of (by decide) (by decide), by decide,
    by decide, by decide, by decide, by decide, by decide, by decide, by decide⟩

/-- Stores to mapped memory and to shared memory, an unmapped address; a queued store that may become visible. -/
theorem witness_StoresEnterTheQueueInOrder :
    let s := withMemory (leadRegs [(4, 0x2000), (7, 0x10)] 8)
    let q : QStore := { sp := .shared 0, off := 4092, bytes := [1, 2, 3, 4], sl := 0, epoch := 0 }
    let d := leadWith fun c => { c with storeQ := [q] }
    s.Admits (me s) { cls := .e, vs := [63, 0], ss := [4, 5] } ∧
    (s.ticked.lanesAccess s.cur 4 1 0 8 (s.seen.eas (.base 4 0))).isOk = true ∧
    (s.ticked.lanesAccess s.cur 4 1 0 8 (s.seen.eas (.base 6 0))).isOk = false ∧
    (okReg 8 63 && okReg 8 1) = true ∧ (s.seen.sharedRows 1 (.reg 0) 1).isOk = true ∧
    ((s.ticked.lanesAccess s.cur 4 1 0 8 (s.seen.eas (.base 4 0))).toOption.map Prod.snd).isSome = true ∧ (∀ n ∈ [159, 4, 4 + 1] ++ opRegs (.const 0), n < (me s).ctl.sbudget) ∧
    (s.seen.onceAccess 0x2000 4 1 0 8 fun _ => none).isOk = true ∧
    d.Inv ∧ (d.ctl 0).storeQ = q :: [] ∧ q.sp = .shared 0 ∧ d.drainable 0 = true :=
  ⟨admits_of (by decide) (by decide), by decide, by decide, by decide, by decide, by decide, by decide, by decide,
    inv_of (by decide), rfl, rfl, by decide⟩

/-- Rows of the block's shared memory, of one lane and of every lane; a granule held, at its last word and count 32; a
slice that holds the reservation of its rows; host lines that the core does not own. -/
theorem witness_ReservationWords :
    let s := leadRegs [(5, 0x80000000)] 8
    let g : Slice := { resv := some ⟨.shared 0, 64, 32⟩ }
    let rows := fun (s : State) (kind : Nat) => ((gather s.ticked kind 0xF 8
      ((s.seen.eas (.base 4 0)).map fun p => (p.1, p.2, s.seen.resvAccess 4 kind p.1 p.2))).toOption.map Prod.fst).getD []
    let one : State := stateOf 0 { context 0 (modeTy 8 0) with m := [(0, 1), (14, 0xFFFFFFFF)], s := [(5, 0x80000000)] }
    let holds := leadWith fun c => { c with slices := c.slices.map fun x => { x with resv := some ⟨.shared 0, 0, 32⟩ } }
    let h0 := leadRegs [(4, 0x40000000)] 8
    let far : State := { h0 with mem := mapped ++ [(0x12008, 0x7F), (0x1200D, 0x04)], ctxs := [(1, { valid := true, ptroot := 0x10000 })] }
    (s.Admits (me s) { cls := .e, vs := [63, 0], ss := [4, 5], dst := [63] } ∧ 4 ≤ accessBytes 8) ∧
    (gather s.ticked 0 0xF 8 ((s.seen.eas (.base 4 0)).map fun p => (p.1, p.2, s.seen.resvAccess 4 0 p.1 p.2))).isOk = true ∧
    (gather s.ticked 1 0xF 8 ((s.seen.eas (.base 4 0)).map fun p => (p.1, p.2, s.seen.resvAccess 4 1 p.1 p.2))).isOk = true ∧
    (gather s.ticked 1 0xF 8 ((s.seen.eas (.base 8 0)).map fun p => (p.1, p.2, s.seen.resvAccess 4 1 p.1 p.2))).isOk = false ∧
    ((rows s 0).length = 32 ∧ s.ticked.waitsSave (rows s 0) = false ∧ ((rows s 0).all fun x => !x.host &&
      x.pieces.all (fun p => !p.1.mgmt && p.1.sp == .shared 0) && !(s.ticked.asSeen s.cur).piecesPoisoned x.pieces) = true) ∧
    (s.ticked.drainable s.cur = true ∧ s.ticked.writeWaits 0x2000 (s.ticked.epochOf s.cur) = false ∧ s.seen.unowned (rows s 1) = []) ∧
    (∀ j ∈ setBits 8 s.slices, ((s.ctl s.cur).slice j).holds 4 (ofSlice j (rows s 1)) = false) ∧
    (((holds.ctl s.cur).slice 0).holds 4 (ofSlice 0 (rows one 1)) = true ∧ holds.Inv ∧
      ((ofSlice 0 (rows one 1)).map fun q => (q.pieces, q.place.sp, q.place.off)) = [([({ sp := .shared 0, off := 0 }, 4)], .shared 0, 0)]) ∧
    (far.Admits (me far) { cls := .e, vs := [63, 0], ss := [4, 5], dst := [63] } ∧ far.seen.unowned (rows far 1) ≠ [] ∧
      far.seen.ownLost = false) ∧
    g.holds 4 [⟨0, 0, [({ sp := .shared 0, off := 124 }, 4)]⟩] = true ∧
    g.holds 4 [⟨0, 0, [({ sp := .shared 0, off := 128 }, 4)]⟩] = false :=
  ⟨⟨admits_of (by decide) (by decide), by decide⟩, by decide, by decide, by decide, by decide, by decide, by decide,
    ⟨by decide, inv_of (by decide), by decide⟩, ⟨admits_of (by decide) (by decide), by decide, by decide⟩, by decide, by decide⟩

/-- ATOM and RED on the block's shared memory by every lane and by one, on an unmapped address, and ATOMS on a scalar pair. -/
theorem witness_AtomicWords :
    let s := leadRegs [(5, 0x80000000)] 6
    let rows := fun (r kind : Nat) => gather s.ticked 2 kind 6
      ((s.seen.eas (.base r 0)).map fun p => (p.1, p.2, s.seen.atomAccess 0 6 p.1 p.2))
    let one : State := stateOf 0 { context 0 (modeTy 6 0) with m := [(0, 1), (14, 0xFFFFFFFF)], s := [(5, 0x80000000)] }
    ((gather one.ticked 2 32 6 ((one.seen.eas (.base 4 0)).map fun p => (p.1, p.2, one.seen.atomAccess 0 6 p.1 p.2))).toOption.map
        fun r => (r.1.map fun q => (q.pieces, q.place.sp), r.2.length)) = some ([([({ sp := .shared 0, off := 0 }, 4)], .shared 0)], 0) ∧
    (one.Inv ∧ one.ticked.piecesPoisoned [({ sp := .shared 0, off := 0 }, 4)] = false ∧ (me one).ctl.storeQ = []) ∧
    atomReach 0 6 ≠ 0 ∧
    s.Admits (me s) { cls := .e, legal := atomLegal ⟨1, 0, 0, 2, 5⟩ 6 [63], vs := vregs 6 63 ++ atomVs ⟨1, 0, 0, 2, 5⟩ 6 ++ formVs (.base 4 0)
                      ss := formSs (.base 4 0), dst := vregs 6 63 } ∧
    s.Admits (me s) { cls := .e, legal := atomLegal ⟨1, 0, 0, 2, 5⟩ 6 [], vs := atomVs ⟨1, 0, 0, 2, 5⟩ 6 ++ formVs (.base 4 0)
                      ss := formSs (.base 4 0) } ∧
    (rows 4 32).isOk = true ∧ (rows 4 48).isOk = true ∧ (rows 8 32).isOk = false ∧
    s.Admits (me s) { cls := .a, once := true, ss := vregs 6 159 ++ [4, 4 + 1] ++ opRegs (.const 0) ++ codeRegs 6 0xA1 ++
                        (if (0 : Nat) = 7 then codeRegs 6 0 else []) } ∧
    (∀ r ∈ codeRegs 6 0xA1, r < 160) ∧ okReg 6 159 = true ∧
    s.ticked.drainable s.cur = true ∧ s.seen.holdBack = none ∧ s.ticked.writeWaits 0x2000 (s.ticked.epochOf s.cur) = false ∧
    6 ∈ [2, 3, 6, 7, 8, 9] ∧ 2 ^ 32 - 1 < 2 ^ (if (6 : Nat) = 3 ∨ (6 : Nat) = 7 ∨ (6 : Nat) = 9 then 64 else 32) :=
  ⟨by decide, ⟨inv_of (by decide), by decide, by decide⟩, by decide, admits_of (by decide) (by decide),
    admits_of (by decide) (by decide), by decide, by decide, by decide,
    admits_of (by decide) (by decide), by decide, by decide, by decide, by decide, by decide, by decide, by decide⟩

/-- Supervisor mode with the three kinds of TLBINV, PTWR on HBM, misaligned, on a poisoned entry and behind a store that is
held up, ICINV of everything and of a range; user mode. -/
theorem witness_CacheAndTranslationWords :
    let s := stateOf 0 { (me sup) with s := [(4, 0x20000), (6, 0x20004)] }
    let bad : State := { s with poison := [0x20000 / 32] }
    let holds : State := { s with
      warps := [(0, { me s with ctl := { (me s).ctl with storeQ := [{ sp := .phys, off := 0x20000, bytes := [1], sl := 0, epoch := 3 }] } })]
      snap := { n := 3, st := 2, pages := [⟨2, 2, false, [], 3⟩] } }
    (bad.Issuing (me bad) ∧ bad.ticked.poisonedRange ((bad.at (me bad)).pair 4).toNat 8 = true ∧
      s.ticked.poisonedRange ((s.at (me s)).pair 4).toNat 8 = false) ∧
    (holds.Issuing (me holds) ∧ holds.ticked.drainable holds.cur = false ∧ holds.ticked.poisonedRange 0x20000 8 = false ∧
      (∃ p ∈ holds.ticked.warps, holds.ticked.drainable p.1 = false)) ∧
    (s.copies = [] ∧ s.fab.reqs = []) ∧
    s.Issuing (me s) ∧ (me s).ctl.priv = true ∧ (∀ n ∈ [4, 4 + 1] ++ opRegs (.const 2), n < (me s).ctl.sbudget) ∧
    (s.at (me s)).op (.const 0) = 0 ∧ (s.at (me s)).op (.const 2) ≠ 0 ∧ generic ((s.at (me s)).pair 4).toNat = .virt 0x20000 ∧
    (s.ticked.warps.all fun p => s.ticked.drainable p.1) = true ∧
    ((s.at (me s)).op (.const 2)).toNat % 4 = 2 ∧ ((s.at (me s)).op (.const 1)).toNat % 4 = 1 ∧
    ((s.at (me s)).op (.const 0)).toNat % 4 = 0 ∧
    (∀ n ∈ [4, 4 + 1, 8, 8 + 1], n < (me s).ctl.sbudget) ∧ ((s.at (me s)).pair 6).toNat % 8 ≠ 0 ∧
    (((s.at (me s)).pair 4).toNat % 8 = 0 ∧ ((s.at (me s)).pair 4).toNat < 2 ^ 43 ∧ region ((s.at (me s)).pair 4).toNat = .hbm) ∧
    s.ticked.drainable s.cur = true ∧ s.ticked.writeWaits 0x20000 (s.ticked.epochOf s.cur) = false ∧
    (lead).Issuing (me lead) ∧ (me lead).ctl.priv = false ∧ (me lead).ctl.helper = none :=
  ⟨⟨issuing_of (by decide), by decide, by decide⟩, ⟨issuing_of (by decide), by decide, by decide, by decide⟩,
    ⟨by decide, by decide⟩, issuing_of (by decide), by decide, by decide, by decide, by decide, by decide, by decide, by decide,
    by decide, by decide, by decide, by decide, by decide, by decide, by decide, issuing_of (by decide), by decide, by decide⟩

/-- An empty queue of two with room and one full with an entry; the capacities 2 and 64; the last header that SHBLK admits. -/
theorem witness_QueueAndGuardWords :
    let s := { leadRegs [(0, 4032), (1, 128), (2, 64)] with shared := [(0, [(128, 2), (136, 2), (256, 2)])] }
    let u := applyAll (drainAll s.ticked s.cur) s.ticked
    s.Issuing (me s) ∧ (me s).ctl.helper = none ∧ s.released ∧
    (∀ n ∈ [158, 158 + 1] ++ opRegs (.reg 1) ++ opRegs (.const 0), n < (me s).ctl.sbudget) ∧
    ((s.at (me s)).op (.reg 0)).toNat % 64 = 0 ∧ ((s.at (me s)).op (.reg 0)).toNat + 64 ≤ (s.blk 0).img.shblk ∧
    (2 ≤ ((s.at (me s)).op (.const 2)).toNat ∧ ((s.at (me s)).op (.reg 2)).toNat ≤ 64) ∧
    ((u.queue 0 128).malformed = false ∧ 128 + 64 + 4 * (u.queue 0 128).cap ≤ (s.blk 0).img.shblk ∧
      ¬(u.queue 0 128).count < (u.queue 0 128).cap ∧ 0 < (u.queue 0 128).count ∧ u.firstInLine 0 128 u.ids false = true) ∧
    ((u.queue 0 256).malformed = false ∧ (u.queue 0 256).count < (u.queue 0 256).cap ∧ ¬0 < (u.queue 0 256).count ∧
      u.firstInLine 0 256 u.ids true = true) ∧
    (0 / 2 ^ 24 % 256 = (u.queue 0 128).epoch ∧ 2 ^ 24 / 2 ^ 24 % 256 ≠ (u.queue 0 128).epoch ∧
      2 ^ 24 / 2 ^ 24 % 256 ≠ (u.queue 0 256).epoch) ∧ 15 < 16 ∧
    (s.queue 0 128).malformed = false ∧ (s.queue 0 256).malformed = false ∧ 2 ^ 32 - 1 < 2 ^ 32 :=
  ⟨issuing_of (by decide), by decide, ⟨by decide, by decide⟩, by decide, by decide, by decide, by decide, by decide, by decide,
    by decide, by decide, by decide, by decide, by decide⟩

/-- A copy of one row of 16 bytes of bytes from global to shared memory, with room; an empty descriptor, which fails; a
counter with no room. -/
theorem witness_CopyWordsIssueCommands :
    let s := stateOf 32 { context 2 0 with s := [(8, 0x2000), (11, 0x80000000), (12, 0x10010), (13, 0x1000000), (14, 0x4000000)] }
    let full := stateOf 32 { context 2 0 with ctl := { (context 2 0).ctl with outs := (List.range 255).map fun i => ⟨0, i, false⟩ } }
    let busy : State := { s with copies := (List.range 64).map fun i =>
      { id := i, k := 32, wordv := 0, desc := 0, handle := 0, priv := false, stage := 0, left := [], seq := 0 } }
    busy.Issuing (me busy) ∧ 64 ≤ busy.copiesOn (coreOf busy.cur) ∧
    busy.copyBad 0 (blockOf busy.cur) ((busy.at (me busy)).desc 8) false = none ∧
    s.Issuing (me s) ∧ (me s).ctl.helper = none ∧ (me s).ctl.role = 2 ∧
    (∀ n ∈ span 8 8 ++ (if true then opRegs (.reg 159) else []), n < (me s).ctl.sbudget) ∧
    s.copyBad 0 (blockOf s.cur) ((s.at (me s)).desc 8) false = none ∧
    (s.copyBad 0 (blockOf s.cur) ((s.at (me s)).desc 16) false).isSome = true ∧ s.copiesOn (coreOf s.cur) < 64 ∧
    (me s).ctl.counter 0 < 255 ∧ s.released ∧ full.Issuing (me full) ∧ 255 ≤ (me full).ctl.counter 0 :=
  ⟨issuing_of (by decide), by decide, by decide, issuing_of (by decide), by decide, by decide, by decide, by decide, by decide, by decide, by decide, ⟨by decide, by decide⟩,
    issuing_of (by decide), by decide +kernel⟩

/-- MMA under bf16 and MMAX under e4m3, with room, and on a tile whose operation is suspended; MREL at the last header that
SHBLK admits, misaligned, and beyond it. -/
theorem witness_MatrixWordsAndTheirSums :
    let s := stateOf 24 { context 1 (modeTy 0x0A 0) with s := [(0, 4032), (1, 4040), (2, 4096)] }
    let x := stateOf 24 { context 1 (modeTy 0x0E 0) with ctl := { (context 1 (modeTy 0x0E 0)).ctl with vb := 128 } }
    let full := stateOf 24 { context 1 (modeTy 0x0A 0) with ctl := { (context 1 (modeTy 0x0A 0)).ctl with outs := (List.range 255).map fun i => ⟨5, i, false⟩ } }
    let held : State := { s with mats := [{ id := 9, k := 24, kind := 0, tile := 7, ty := 0x0A, bt := 0x0A, za := false, a := 0, b := 0
                                            off := 0, handle := 5, started := true, opA := [], opB := [], shadow := [], shadowPoison := []
                                            result := [], replayed := false, failed := false, suspended := true }] }
    mmaTypeB false 0x0A 0 = some 0x0A ∧
    s.Admits (me s) { cls := .m, tiles := [7], vs := span 0 (operandRegs false 0x0A) ++ span 0 (operandRegs false 0x0A) } ∧
    ((s.arrayOps (coreOf s.cur)).length < 4 ∧ s.mats = []) ∧
    (∃ y ∈ held.mats, y.suspended = true ∧ blockOf y.k = blockOf held.cur ∧ y.tile = 7 ∧ y.kind ≠ 2) ∧
    held.Admits (me held) { cls := .m, tiles := [7], vs := span 0 (operandRegs false 0x0A) ++ span 0 (operandRegs false 0x0A) } ∧
    (me s).ctl.counter 5 < 255 ∧ s.released ∧
    full.Issuing (me full) ∧ 255 ≤ (me full).ctl.counter 5 ∧
    mmaTypeB true 0x0E 0 = some 0x0E ∧
    x.Admits (me x) { cls := .m, tiles := [7], vs := span 0 (operandRegs true 0x0E) ++ span 34 (operandRegs true 0x0E) } ∧
    s.Admits (me s) { cls := .m, tiles := [7], ss := opRegs (.reg 0) ++ opRegs (.const 0) } ∧
    (((s.at (me s)).op (.reg 0)).toNat % 64 = 0 ∧ ((s.at (me s)).op (.reg 0)).toNat + 64 ≤ (s.blk 0).img.shblk) ∧
    ((s.at (me s)).op (.reg 1)).toNat % 64 ≠ 0 ∧ (s.blk 0).img.shblk < ((s.at (me s)).op (.reg 2)).toNat + 64 ∧
    s.seen.holdBack = none ∧ 63 < 64 ∧ 64 * 63 + 63 ∉ ([] : List Nat) :=
  ⟨by decide, admits_of (by decide) (by decide), by decide, by decide, admits_of (by decide) (by decide), by decide,
    ⟨by decide, by decide⟩, issuing_of (by decide), by decide +kernel, by decide, admits_of (by decide) (by decide), admits_of (by decide) (by decide), by decide, by decide, by decide, by decide,
    by decide, by decide⟩

/-- TLD and TST of the last rows of tile 7, a descriptor with a reserved bit set, a poisoned tile, TZERO. -/
theorem witness_TileWordsMoveWindows :
    let x := 63 * 16 + 7
    let s := leadRegs [(1, word x), (2, 0x1000)] 0x0C
    let p := { s with tilePoison := [(0, 4096 * 7 + 64 * 63)] }
    ((s.at (me s)).rs 1).toNat = x ∧ (s.at (me s)).rnd < 6 ∧ okTld 0x0C = true ∧ okTst 0x0C = true ∧
    s.Admits (me s) { cls := .e, legal := opLegal (.fconst 2) 0x0C, vs := [63], ss := 1 :: opRegsT (.fconst 2) 0x0C, dst := span 63 1 } ∧
    (s.at (me s)).tileFault true 63 x = 0 ∧ s.seen.tilePoisoned x = none ∧ (p.seen.tilePoisoned x).isSome = true ∧
    p.Issuing (me p) ∧ (s.at (me s)).tileFault true 63 0x1000 ≠ 0 ∧ (s.at (me s)).tileFault false 63 x = 0 ∧
    s.Admits (me s) { cls := .e, once := true, tiles := [7] } :=
  ⟨by decide, by decide, by decide, by decide, admits_of (by decide) (by decide), by decide, by decide, by decide,
    issuing_of (by decide), by decide, by decide, admits_of (by decide) (by decide)⟩

/-- RECRUIT by one lane whose warp has idle slices, and refused; a foreman whose crew serves, and one whose crew has gone,
with streams left and with none; a helper, one asked for its release, one with a flag operation in flight and one with a
trap. -/
theorem witness_RecruitmentWords :
    let one := fun (f : Ctl → Ctl) (s : Sparse 32) => stateOf 0 { context 0 0 with m := [(0, 1), (14, 0xFFFFFFFF)], s, ctl := f (context 0 0).ctl }
    let forked := fun (s : State) => { s with blocks := [(0, { block0 with forked := true })] }
    let r := forked (withMemory (one (fun c => { c with slices := c.slices }) [(4, 0x2000), (7, 64)]))
    let f := fun (crew : List (Option Nat)) => one fun c => { c with span := some (span0 crew) }
    let busy := f [some (helperKey 1 1)] []
    let gone := f [none] []
    let done := one (fun c => { c with span := some { span0 [none] with hi := 0 } }) []
    let h := helperState
    let a := helperState { helper with asked := true }
    let mine := fun (f : Ctl → Ctl) => ({ h with
      warps := h.warps.map fun p => if p.1 = h.cur then (p.1, { p.2 with ctl := f p.2.ctl }) else p } : State)
    let busyH := mine fun c => { c with flagOps := [{ id := 1, flag := 0, slices := 2, writes := [] }] }
    let badH := mine fun c => { c with slices := c.slices.map fun x => { x with defer := [{ code := 0x12 }] } }
    (r.Issuing (me r) ∧ (me r).ctl.role = 0 ∧ r.Admits (me r) { cls := .e, ss := 159 :: span 4 4 } ∧ r.seen.recruitCode = none ∧
      (r.seen.target (r.seen.pair 4)).isOk = true ∧ r.released) ∧
    ((lead).Admits (me lead) { cls := .e, ss := 159 :: span 4 4 } ∧ (lead).seen.recruitCode.isSome = true) ∧
    (busy.Admits (me busy) { cls := .e, vs := [63], dst := [63], dlanes := some (2 ^ 0) } ∧ (me busy).ctl.helper = none ∧
      (me busy).ctl.span = some (span0 [some (helperKey 1 1)]) ∧ busy.Admits (me busy) { cls := .e, vs := [63], dst := [63] } ∧
      31 < min (me busy).ctl.vb 32 ∧ busy.Admits (me busy) { cls := .e, vs := [0] } ∧ (∀ l ∈ busy.seen.act, l = 0) ∧
      busy.Admits (me busy) { cls := .e, helper := false, vs := [63], ss := [159] }) ∧
    (gone.Admits (me gone) { cls := .e, helper := false, vs := [63], ss := [159] } ∧ (∀ c ∈ (span0 [none]).crew, c = none) ∧
      (span 0 32).any (span0 [none]).left = true ∧ (me gone).ctl.priv = false ∧ viewSize (me gone).ctl ≤ 63 ∧
      gone.Admits (me gone) { cls := .e, helper := false, vs := [31], ss := [159] } ∧ 31 < viewSize (me gone).ctl) ∧
    (done.Admits (me done) { cls := .e, helper := false, vs := [63], ss := [159] } ∧
      (span 0 32).any ({ span0 [none] with hi := 0 } : Span).left = false) ∧
    (h.Admits (me h) { cls := .e, vs := [15], dst := [15], dlanes := some (maskOf (span (4 * 1) 4)) } ∧
      (me h).ctl.helper = some helper ∧ (h.ticked.ctl 0).span = some (span0 [some (helperKey 1 1)]) ∧ h.released ∧
      31 < viewSize (h.ticked.ctl 0) ∧ h.Admits (me h) { cls := .e, vs := [15] }) ∧
    (a.Admits (me a) { cls := .e, vs := [15], dst := [15], dlanes := some (maskOf (span (4 * 1) 4)) } ∧
      (me a).ctl.helper = some { helper with asked := true }) ∧
    (busyH.Issuing (me busyH) ∧ busyH.seen.holdBack = none ∧ (me busyH).ctl.flagOps ≠ [] ∧ busyH.seen.slice.defer = []) ∧
    (badH.Issuing (me badH) ∧ badH.seen.holdBack = none ∧ badH.seen.slice.defer ≠ []) ∧
    ((me h).ctl.flagOps = [] ∧ h.seen.slice.defer = [] ∧ (me gone).ctl.priv = false ∧ 31 < viewSize (me gone).ctl) ∧
    (span0 [none]).streams.length = 32 :=
  ⟨⟨issuing_of (by decide), by decide, admits_of (by decide) (by decide), by decide, by decide, ⟨by decide, by decide⟩⟩,
    ⟨admits_of (by decide) (by decide), by decide⟩,
    ⟨admits_of (by decide) (by decide), by decide, by decide, admits_of (by decide) (by decide), by decide,
      admits_of (by decide) (by decide), by decide, admits_of (by decide) (by decide)⟩,
    ⟨admits_of (by decide) (by decide), by decide, by decide, by decide, by decide, admits_of (by decide) (by decide), by decide⟩,
    ⟨admits_of (by decide) (by decide), by decide⟩,
    ⟨admits_of (by decide) (by decide), by decide, by decide, ⟨by decide, by decide⟩, by decide,
      admits_of (by decide) (by decide)⟩,
    ⟨admits_of (by decide) (by decide), by decide⟩, ⟨issuing_of (by decide), by decide, by decide, by decide⟩,
    ⟨issuing_of (by decide), by decide, by decide⟩, by decide, by decide⟩

/-- COLL with a descriptor that passes, one with a misaligned group, a full counter; COLLQ with a collective and with none. -/
theorem witness_CollectiveWords :
    let s := leadRegs [(8, 0x2000), (10, 0x3000), (12, 0x4000), (14, 4), (20, 0x4001)] 0x0C
    let full := stateOf 0 { context 0 (modeTy 0x0C 0) with ctl := { (context 0 (modeTy 0x0C 0)).ctl with outs := (List.range 255).map fun i => ⟨3, i, false⟩ } }
    let open_ : State := { s with colls := [{ id := 1, b := 0, ctx := 1, tag := 0, seq := 0, form := 0, tsrc := false, op := false
                                              tile := 0, mode := 0, src := 0, dst := 0, count := 0, root := 0, bar := none
                                              members := [0], pos := 0, priv := false, arrivals := [] }] }
    s.Admits (me s) { cls := .b, legal := okCollType 0 false false 0x0C && decide ((s.at (me s)).rnd < 5) && !(me s).ctl.parted
                      ss := span 8 8 } ∧
    (s.at (me s)).collBad 0 false false ((s.at (me s)).desc 8) = none ∧
    ((s.at (me s)).collBad 0 false false ((s.at (me s)).desc 16)).isSome = true ∧ (me s).ctl.counter 3 < 255 ∧ s.released ∧
    full.Issuing (me full) ∧ 255 ≤ (me full).ctl.counter 3 ∧
    s.Admits (me s) { cls := .a, ss := 159 :: opRegs (.const 4) } ∧ s.openColls (blockOf s.cur) = [] ∧
    open_.openColls (blockOf open_.cur) ≠ [] ∧ 4 < ((s.at (me s)).op (.const 5)).toNat :=
  ⟨admits_of (by decide) (by decide), by decide, by decide, by decide, ⟨by decide, by decide⟩, issuing_of (by decide), by decide +kernel,
    admits_of (by decide) (by decide), by decide, by decide, by decide⟩

/-- CMBCFG with a descriptor that passes: of a free number with room and without, of a taken one, of an unowned buffer; with
one that fails. CMBDISP and CMBPUT to a buffer of this chip and to one of another; CMBWAIT, CMBQ and CMBDRAIN. -/
theorem witness_CombineWords :
    let y : Nat := 64 * 2 ^ 64 + 2 ^ 128 + 16 * 2 ^ 163 + 0x0C * 2 ^ 192 + 0x0C * 2 ^ 197 + 0x100000
    let regs : Sparse 32 := [(8, 0x100000), (10, 64), (12, 1), (13, 128), (14, 396), (20, 0x00800000)]
    let c := fun (owner : Nat) => ({ ctx := 1, buf := 0, owner, desc := y, homes := [], priv := false } : Cmb)
    let s := leadRegs regs
    let room : State := { s with mgmt := { s.mgmt with split := [(0, 1), (0, 1)] } }
    let b : State := { s with cmbs := [c 0], mgmt := { s.mgmt with routing := [(1, 0x8000)] }, vil := { s.vil with keys := true } }
    let armed : State := { b with snap := { n := 0, st := 1 } }
    (s.Admits (me s) { cls := .l, ss := 159 :: span 8 8 ++ opRegs (.const 31) } ∧ s.seen.desc 8 = y ∧ s.seen.cfgBad y = none ∧
      (s.seen.cfgBad 0).isSome = true ∧ s.snap.st ≠ 1 ∧ s.cmb 1 31 = none ∧
      s.slicesInService.all (s.combineRoom y) = false ∧ room.slicesInService.all (room.combineRoom y) = true ∧
      31 < (s.seen.op (.const 32)).toNat ∧ (b.cmb 1 0).isSome = true ∧
      (((({ s with cmbs := [c unowned] } : State).cmb 1 0).filter fun z => z.owner == unowned && z.desc == y).isSome = true)) ∧
    (b.Admits (me b) { cls := .e, helper := false, vs := [62, 0], ss := opRegs (.const 0) } ∧
      (b.seen.buffer 0 b.seen.active 0 0).isOk = true ∧ (s.seen.buffer 0 b.seen.active 0 0).isOk = false ∧
      0 + 2 * bK y ≤ (me b).ctl.vbudget ∧ b.seen.countRoom b.seen.act.length = true ∧ b.released) ∧
    (b.Admits (me b) { cls := .e, helper := false, vs := [62, 62 + 1, 0, 0 + 1], ss := opRegs (.reg 20) } ∧
      nameChip (b.seen.op (.reg 20)).toNat ≠ b.chip ∧ nameChip (b.seen.op (.const 0)).toNat = b.chip ∧
      (∀ l ∈ b.seen.act, b.seen.rowBad (b.seen.vpair 0 l).toNat (bRowBytes y) = none) ∧ b.ticked.maySend b.cur = true ∧
      (b.mgmt.routing.get (nameChip (b.seen.op (.reg 20)).toNat)).getLsbD 15 = true ∧
      (s.mgmt.routing.get (nameChip (s.seen.op (.reg 20)).toNat)).getLsbD 15 = false) ∧
    (b.Admits (me b) { cls := .a, helper := false, ss := 0 :: opRegs (.const 0) ++ opRegs (.const 1) } ∧
      (b.seen.buffer (b.seen.rs 0).toNat 0 0 0).isOk = true ∧ 1 ≤ bNtok y ∧ (c 0).releasedIn 0 1 = false ∧
      ({ c 0 with released := [0] } : Cmb).releasedIn 0 1 = true) ∧
    b.Admits (me b) { cls := .a, ss := 159 :: opRegs (.const 0) ++ opRegs (.const 5) } ∧
    (b.Admits (me b) { cls := .l, ss := 159 :: opRegs (.const 0) } ∧ s.cmb 1 0 = none ∧ b.cmb 1 0 = some (c 0) ∧
      (c 0).lost = false ∧ ({ c 0 with lost := true } : Cmb).lost = true ∧ (drainBuffer (c 0) false b.ticked).stop = none ∧
      armed.snap.st = 1 ∧ armed.postCut (armed.epochOf armed.cur) = true) :=
  ⟨⟨admits_of (by decide) (by decide), by decide, by decide, by decide, by decide, by decide, by decide, by decide, by decide,
      by decide, by decide⟩,
    ⟨admits_of (by decide) (by decide), by decide, by decide, by decide, by decide, ⟨by decide, by decide⟩⟩,
    ⟨admits_of (by decide) (by decide), by decide, by decide, by decide, by decide, by decide, by decide⟩,
    ⟨admits_of (by decide) (by decide), by decide, by decide, by decide, by decide⟩, admits_of (by decide) (by decide),
    ⟨admits_of (by decide) (by decide), by decide, by decide, by decide, by decide, by decide +kernel, by decide, by decide⟩⟩

/-- User and supervisor mode; values that the alignment of a 64-bit register admits and refuses. -/
theorem witness_TrapAndSystemRegisterWords :
    let s := stateOf 0 { (me sup) with s := [(4, 0x30000), (6, 0x30004)] }
    (lead).Issuing (me lead) ∧ (∀ n ∈ opRegs (.reg 159), n < (me lead).ctl.sbudget) ∧ 159 < (me lead).ctl.sbudget ∧
    (158 % 2 = 0 ∧ 158 + 1 < (me lead).ctl.sbudget) ∧ (∀ n ∈ sysRegs 0x02 (.reg 159), n < (me lead).ctl.sbudget) ∧
    (me lead).ctl.priv = false ∧ (me lead).ctl.helper = none ∧ sysOperand 0x03 (.reg 0) = true ∧
    s.Issuing (me s) ∧ (me s).ctl.priv = true ∧ (4 % 2 = 0 ∧ 4 + 1 < (me s).ctl.sbudget) ∧
    ((s.at (me s)).pair 4).toNat % 65536 = 0 ∧ ((s.at (me s)).pair 6).toNat % 8 ≠ 0 ∧ ((s.at (me s)).pair 6).toNat % 1 = 0 :=
  ⟨issuing_of (by decide), by decide, by decide, by decide, by decide, by decide, by decide, by decide, issuing_of (by decide),
    by decide, by decide, by decide, by decide, by decide⟩

/-- SRET to a clause and to none, and with an escalation; LAUNCH into a queue of two with room, with no queue, of a
misaligned record; JOIN of a record, and of a misaligned one. -/
theorem witness_ReturnLaunchAndJoin :
    let at_ := fun (tret ftesc : DWord) => withMemory (stateOf 0 { (me sup) with ctl := { (me sup).ctl with tret, ftesc } })
    let ok := at_ 0x2000 0
    let bad := at_ 0x3000 0
    let esc := at_ 0x2000 0x8000000000002000
    let s0 := withMemory (leadRegs [(4, 0x6000), (6, 0x4000), (8, 0x6040), (10, 0x7000)])
    let s : State := { s0 with mem := Memory.write (Memory.write mapped 0x4067 1) 0x4069 0x50 }
    (ok.Admits (me ok) { cls := .s } ∧ (me ok).ctl.ftesc.getLsbD 63 = false ∧
      (ok.ticked.resumeClause ok.cur (me ok).ctl.tret).isOk = true ∧ (bad.ticked.resumeClause bad.cur (me bad).ctl.tret).isOk = false) ∧
    (esc.Admits (me esc) { cls := .s } ∧ (me esc).ctl.ftesc.getLsbD 63 = true ∧
      ((esc.ticked.virt 0 (esc.blk (blockOf esc.cur)).ctx (resolutionVa (me esc).ctl.ftesc) 0 false).toOption.map fun p => p.1.sp)
        = some .phys) ∧
    (s.Admits (me s) { cls := .l, ss := [159, 4, 4 + 1, 6, 6 + 1] } ∧ (s.seen.pair 8).toNat % 128 ≠ 0 ∧
      (s.seen.pair 4).toNat % 128 = 0 ∧ (me s).ctl.storeQ = [] ∧ generic (s.seen.pair 4).toNat = .virt 0x6000 ∧
      (s.seen.recordAt (s.seen.pair 6).toNat 256 128 8).isOk = true ∧
      (s.seen.line0At (s.seen.pair 6).toNat).toOption.map rcbQcapl = some 1 ∧
      (s.seen.line0At (s.seen.pair 10).toNat).toOption.map rcbQcapl = some 0 ∧
      (s.seen.recordAt 0x5000 8 0 8).isOk = true ∧ s.released ∧
      s.ticked.writeWaits 0x4080 (s.epochOf s.cur) = false ∧ s.ticked.writeWaits 0x5000 (s.epochOf s.cur) = false) ∧
    s.Admits (me s) { cls := .a, ss := [159, 4, 4 + 1] ++ opRegs (.const 1) } ∧ s.ticked.writeWaits 0x604C (s.epochOf s.cur) = false ∧
    (s.seen.recordAt (s.seen.pair 4).toNat 128 76 4).isOk = true ∧ (s.seen.recordAt (s.seen.pair 8).toNat 128 76 4).isOk = false :=
  ⟨⟨admits_of (by decide) (by decide), by decide, by decide, by decide⟩,
    ⟨admits_of (by decide) (by decide), by decide, by decide⟩,
    ⟨admits_of (by decide) (by decide), by decide, by decide, by decide, by decide, by decide, by decide +kernel, by decide +kernel, by decide,
      ⟨by decide, by decide⟩, by decide, by decide⟩,
    admits_of (by decide) (by decide), by decide, by decide, by decide⟩

/-- SNAP with snapshots off, with none, with one in progress; SNAPQ at its last selector and beyond. -/
theorem witness_SnapshotWords :
    let on := fun (st : Nat) => ({ (lead) with mgmt := { (lead).mgmt with snapcfg := 1 }, snap := { st } } : State)
    (lead).Admits (me lead) { cls := .l, ss := [158, 158 + 1] ++ opRegs (.const 2) } ∧ (lead).snapOn = false ∧
    (on 0).Issuing (me (on 0)) ∧ (on 0).snapOn = true ∧ (on 1).snap.st = 1 ∧ (on 2).snap.st = 2 ∧ (on 5).snap.st = 5 ∧
    (lead).Admits (me lead) { cls := .a, ss := 159 :: opRegs (.const 6) } ∧ 6 < ((lead).seen.op (.const 7)).toNat :=
  ⟨admits_of (by decide) (by decide), by decide, issuing_of (by decide), by decide, by decide, by decide, by decide,
    admits_of (by decide) (by decide), by decide⟩

/-- A word refused by each check in turn; the last by the view of a span. -/
theorem witness_TheFirstFailingCheckTraps :
    let f := leadWith fun c => { c with span := some (span0 []) }
    find (lead).warps (lead).cur = some (me lead) ∧ ({ cls := .a, legal := false } : Chk).fault ((lead).at (me lead)) = some 0x01 ∧
    ({ cls := .c } : Chk).fault ((lead).at (me lead)) = some 0x03 ∧ ({ cls := .s } : Chk).fault ((lead).at (me lead)) = some 0x18 ∧
    ({ cls := .e, vs := [64] } : Chk).fault ((lead).at (me lead)) = some 0x04 ∧
    ({ cls := .e, tiles := [8] } : Chk).fault ((lead).at (me lead)) = some 0x04 ∧
    find f.warps f.cur = some (me f) ∧ ({ cls := .e, vs := [31], dst := [31] } : Chk).fault (f.at (me f)) = some 0x0D :=
  ⟨rfl, by decide, by decide, by decide, by decide, by decide, rfl, by decide⟩

theorem witness_EveryStepKeepsStateSound :
    State.reset.Inv ∧ ∃ t, step (State.reset.withFetchWord 32 0x0203A1A2) = .next t :=
  ⟨⟨by decide, fun _ h => absurd h (by simp [State.reset]), fun _ h => absurd h (by simp [State.reset]),
    fun _ h => absurd h (by simp [State.reset])⟩, ⟨_, rfl⟩⟩

theorem witness_EncodedWordsDecodeToThemselves :
    (WellFormed (.sadd 159 (.lit 5) (.const 63)) = true ∧ (Instr.sadd 159 (.lit 5) (.const 63)).isEvent = false) ∧
    (Instr.keyInstall).isEvent = true := by decide

/-- A write's effect that is due; a slice in its clause with a word that decodes, with one that does not, one that waits, one
at a boundary; a named event; no name. -/
theorem witness_StepRunsTheDecodedInstruction :
    let s : State := { (lead) with sched := [.issue 0 0] }
    let bad : State := leadWith fun c => { c with slices := c.slices.map fun x => { x with words := [0xFF000000] } }
    let edge : State := leadWith fun c => { c with slices := c.slices.map fun x => { x with inClause := false } }
    let waits : State := leadWith fun c => { c with slices := c.slices.map fun x => { x with wait := some (.bar 0 false false) } }
    let safe : State := { withMemory (leadWith fun c => { c with
        slices := c.slices.map fun x => { x with pc := 0x2000, wait := some (.bar 0 false false) } }) with
      mem := Memory.write mapped 0x2000 0xC0
      blocks := [(0, { block0 with preempt := true, img := { block0.img with base := 0x2000, safeoff := 0x100, safecnt := 1 } })] }
    (s.sched = .issue 0 0 :: [] ∧ ((s.ctl 0).slice 0).inClause = true ∧ s.mayIssue 0 0 = true ∧
      (decode (s.nextWords 0 0)).isOk = true) ∧
    (bad.mayIssue 0 0 = true ∧ (decode (bad.nextWords 0 0)).isOk = false) ∧ ((edge.ctl 0).slice 0).inClause = false ∧
    (s.settled = s ∧ bad.settled = bad ∧ edge.settled = edge ∧ waits.settled = waits ∧ (lead).settled = lead ∧
      s.divertTo 0 0 = none ∧ (((safe.ctl 0).slice 0).inClause = true ∧ (safe.divertTo 0 0).isSome = true ∧ safe.settled = safe)) ∧
    (State.reset.copies = [] ∧ State.reset.blocks = [] ∧ State.reset.cmbs = [] ∧ State.reset.warps = [] ∧
      State.reset.vil.training = [] ∧ State.reset.snap.st ≠ 2) ∧
    Instr.keyInstall.isEvent = true ∧ ({ (lead) with todo := [.contextValidClear 1] } : State).todo = [.contextValidClear 1] ∧
    s.todo = [] ∧ (((waits.ctl 0).slice 0).inClause = true ∧ waits.mayIssue 0 0 = false) ∧
    ((lead).todo = [] ∧ (lead).sched = [] ∧ ((defaultSteps (lead)).any fun f => !quiet (lead) (f (lead))) = true) := by
  refine ⟨by decide, by decide, by decide, by decide +kernel, by decide, by decide, rfl, by decide, by decide, by decide +kernel⟩

theorem witness_EffectsChangeOnlyWhatTheyName :
    ∀ e ∈ [Effect.sreg 0 1 5, .vreg 0 2 3 4], ¬e.hits (.scalar 0 2) := by
  intro e h
  rcases List.mem_cons.1 h with rfl | h
  · rintro (h | h) <;> exact absurd h (by decide)
  · rcases List.mem_cons.1 h with rfl | h
    · exact fun h => absurd h (by simp [Effect.hits])
    · exact absurd h (by simp)

/-- A trap of code 0x15 in a context with a handler and a trap frame; with a handler at no clause; with none. -/
theorem witness_TrapsAreTakenOrEndTheirDomain :
    let t : Trap := { code := 0x15, slices := 255, tpc := 0x2000 }
    let at_ := fun (tvec : DWord) =>
      let s := withMemory (leadWith fun c => { c with trap := some t })
      ({ s with ctxs := [(1, { valid := true, ptroot := 0x10000, tvec, tfbase := 0x40000 })] } : State)
    let s := at_ 0x2000
    let ft : Trap := { t with code := 0x08, first := true, slices := 2 }
    let hs : State := { withMemory helperState with
      warps := (helperState).warps.map fun p => if p.1 < helperBase then p else (p.1, { p.2 with ctl := { p.2.ctl with trap := some ft } })
      ctxs := [(1, { valid := true, ptroot := 0x10000, htvec := 0x3000, tvec := 0x3000, tfbase := 0x40000 })] }
    s.Issuing (me s) ∧ (me s).ctl.helper = none ∧ (me s).ctl.trap = some t ∧ s.takesHandler 0 t = true ∧
    (me s).ctl.quiet t.slices = true ∧ s.frozenAt 0 = false ∧ s.handlerBad 0 = false ∧
    ((at_ 0x3000).takesHandler 0 t = true ∧ (at_ 0x3000).handlerBad 0 = true) ∧ (at_ 0).takesHandler 0 t = false ∧
    ((hs.ctl (helperKey 1 1)).trap = some ft ∧ hs.takesHandler (helperKey 1 1) ft = true ∧
      (hs.ctl (helperKey 1 1)).quiet ft.slices = true ∧ hs.frozenAt (helperKey 1 1) = false ∧ hs.handlerBad (helperKey 1 1) = true ∧
      (hs.ctl (helperKey 1 1)).helper ≠ none) :=
  ⟨issuing_of (by decide), by decide, by decide, by decide, by decide, by decide, by decide, by decide, by decide, by decide⟩

/-- A slice at a boundary: of a warp being pre-empted that stands at a safe point; of one that runs; under single-step; at a
clause, at no header, at a clause that a word overruns. A deferred trap; a flag operation; parking, saved or ready; restore;
activation; a reservation. -/
theorem witness_WarpStepsTakePlace :
    let edge := fun (pc : DWord) (f : Ctl → Ctl) =>
      withMemory (leadWith fun c => f { c with slices := c.slices.map fun x => { x with pc, inClause := false, words := [] } })
    let s := edge 0x2000 id
    let step := edge 0x2000 fun c => { c with dbgctl := 1, slices := c.slices.map fun x => { x with stepped := true } }
    let runs : State := { s with mem := Memory.write mapped 0x200B 0xC3 }
    let safe : State := { s with
      mem := Memory.write mapped 0x2000 0xC0
      blocks := [(0, { block0 with preempt := true, img := { block0.img with base := 0x2000, safeoff := 0x100, safecnt := 1 } })] }
    let trap : Trap := { code := 0x12, slices := 1 }
    let d := edge 0x2000 fun c => { c with slices := c.slices.map fun x => { x with defer := [trap] } }
    let o : FlagOp := { id := 7, flag := 0, slices := 255, writes := [] }
    let f := edge 0x2000 fun c => { c with flagOps := [o] }
    let wide := fun (n : Nat) (s : State) => ({ s with cores := [(0, { split := (32 + n, 0, 0), ready := [0] })] } : State)
    let waits := fun (c : Ctl) => { c with slices := c.slices.map fun x => { x with inClause := true, wait := some (.word 0 false 0 false) } }
    let p := fun (n : Nat) => wide n (edge 0x2000 fun c => waits { c with st := .parking, cause := 3 })
    let ready := wide 0 (edge 0x2000 fun c => { c with st := .parking })
    let parked := wide 0 (edge 0x2000 fun c => { c with st := .parkedReady })
    let full : State := { parked with
      cores := [(0, { split := (1, 0, 0), ready := [0] })]
      warps := parked.warps ++ [1, 2].map fun k => (k, { me parked with ctl := waits { (me parked).ctl with st := .pending, base := 8192 * (k - 1) } }) }
    let pending := edge 0x2000 fun c => { c with st := .pending }
    let none_ := edge 0x3000 id
    let gone := edge 0x40000000 id
    let busy : State := { f with mem := Memory.write mapped 0x2002 0x1F }
    let gang := edge 0x2000 fun c => { c with parted := true, slices := c.slices.map fun x => { x with regang := some (0x2000, 0x1000) } }
    (bit (liveSlices (me safe)) 0 = true ∧ (safe.divertTo 0 0).isSome = true) ∧
    (s.divertTo 0 0 = none ∧ s.runs 0 = true ∧ ((s.ctl 0).slice 0).regang = none ∧ bit (s.gangOf 0 0) 0 = true ∧
      (s.ctl 0).deferClear (s.gangOf 0 0) = true ∧ (s.ctl 0).priv = false ∧ s.waitClear 0 ((s.ctl 0).slice 0) = true) ∧
    (step.divertTo 0 0 = none ∧ step.runs 0 = true ∧ (step.ctl 0).stepTrap (liveSlices (me step)) 0 = true) ∧
    ((s.ctl 0).stepTrap (liveSlices (me s)) 0 = false ∧ s.canTake 0 0 = true ∧ s.hasTurn 0 0 = true ∧ s.hasPort 0 = true ∧
      s.waitBusy 0 0 = 0 ∧ (s.clauseWords 0 0x2000 0 2).toOption.map Prod.fst = some [0x000FF080, 0] ∧ headerOk 0x000FF080 0 = true ∧
      (s.clauseWords 0 0x2000 2 (h0Len 0x000FF080)).toOption.map Prod.fst = some [0x28000000] ∧ wordsOk 32 [0x28000000] = true) ∧
    ((runs.clauseWords 0 0x2000 2 1).toOption.map Prod.fst = some [0xC3000000] ∧ wordsOk 32 [0xC3000000] = false ∧
      runs.canTake 0 0 = true ∧ runs.hasTurn 0 0 = true ∧ runs.hasPort 0 = true) ∧
    ((none_.clauseWords 0 0x3000 0 2).toOption.map Prod.fst = some [0, 0] ∧ headerOk 0 0 = false ∧ none_.hasTurn 0 0 = true) ∧
    ((gone.clauseWords 0 0x40000000 0 2).toOption = none ∧ gone.divertTo 0 0 = none ∧ gone.canTake 0 0 = true ∧
      gone.hasTurn 0 0 = true ∧ gone.hasPort 0 = true) ∧
    (busy.waitBusy 0 0 ≠ 0 ∧ busy.runs 0 = true ∧ busy.divertTo 0 0 = none ∧ busy.waitClear 0 ((busy.ctl 0).slice 0) = true) ∧
    (((d.ctl 0).slice 0).defer = [trap] ∧ ((d.ctl 0).slice 0).inClause = false ∧ (d.ctl 0).st = .active ∧ (d.ctl 0).trap = none ∧
      d.frozenAt 0 = false ∧ d.deferHeld 0 ((d.ctl 0).slice 0) trap = false) ∧
    (((f.ctl 0).flagOps.find? fun o => o.id == 7) = some o ∧ o.waiting = [] ∧ o.held = false ∧ o.inTile = false) ∧
    (p 0 |>.canPark 0) = false ∧ ({ p 0 with warps := (p 0).warps.map fun q => (q.1, { q.2 with ctl := { q.2.ctl with st := .pending } }) } :
      State).canPark 0 = true ∧
    (((p 0).ctl 0).st = .parking ∧ ((p 0).ctl 0).flagOps = [] ∧ (p 0).eventReady 0 = false ∧
      (p 0).spillFree (coreOf 0) (savedSize ((p 0).ctl 0).vb) ≠ []) ∧
    ((p 64).eventReady 0 = false ∧ (p 64).spillFree (coreOf 0) (savedSize ((p 64).ctl 0).vb) = []) ∧
    ((ready.ctl 0).st = .parking ∧ ready.eventReady 0 = true) ∧
    (parked.readyQueue 0 = [0] ∧ parked.windowFree 0 (parked.ctl 0).vb = true ∧ parked.frozenAt 0 = false) ∧
    (full.readyQueue 0 = [0] ∧ full.windowFree 0 (full.ctl 0).vb = false ∧
      leastBy (fun g => (full.ctl g).stalled) (full.parkVictims 0) = some 1) ∧
    (pending.pendingReady 0 = true ∧ pending.frozenAt 0 = false ∧ pending.portFree 0 = true ∧
      pending.peersOf 0 (fun g => pending.pendingReady g && !pending.frozenAt g) = []) ∧
    ((lead).runs 0 = true ∧
      (((me (lead)).liveNow.find? fun i => (((lead).ctl 0).slice i).inClause && (lead).sliceReady 0 (((lead).ctl 0).slice i)) = some 0)) ∧
    (gangReady (me gang) = true ∧ (gang.ctl 0).stepLost (liveSlices (me gang)) = false) := by
  refine ⟨?_, ?_, ?_, ?_, ?_, ?_, ?_, ?_, ?_, ?_, ?_, ?_, ?_, ?_, ?_, ?_, ?_, ?_, ?_, ?_⟩ <;> decide +kernel

/-- A slice in each wait whose condition has come about; a full rendezvous; a pair of exchanges and a partner that is gone; a
helper asked for its release. -/
theorem witness_WaitsEndWhenTheirConditionHolds :
    let w := fun (x : Wait) => leadWith fun c => { c with slices := c.slices.map fun y => { y with wait := some x } }
    let q := fun (x : Wait) (n : BitVec 8) => ({ w x with shared := [(0, if n = 0 then [(128, 2)] else [(128, 2), (136, n)])] } : State)
    let x : XSwap := { partner := 1, d := 0, lanes := 1, pair := false, sent := [], op := 0 }
    let two : State := { (lead) with warps := [(0, { context 0 0 with ctl := { (context 0 0).ctl with xswap := some x } }),
      (1, { context 0 0 with ctl := { (context 0 0).ctl with xswap := some { x with partner := 0 } } })] }
    let r := w (.rend true)
    let h := helperState { helper with asked := true, clauses := 256 }
    let ended : State := { h with warps := h.warps.map fun p =>
      (p.1, { p.2 with ctl := { p.2.ctl with slices := p.2.ctl.slices.map fun x => { x with inClause := false } } }) }
    let on := fun (s : State) => bit (liveSlices (s.warp 0)) 0 = true ∧ s.frozenAt 0 = false ∧ (s.ctl 0).trap = none ∧
      (s.ctl 0).priv = false ∧ (s.ctl 0).st = .active ∧ ((s.ctl 0).slice 0).inClause = true ∧ s.hasTurn 0 0 = true ∧
      s.hasPort 0 = true ∧ s.divertTo 0 0 = none
    (on (w (.bar 0 false true)) ∧ (((w (.bar 0 false true)).ctl 0).slice 0).wait = some (.bar 0 false true)) ∧
    (on (w (.abar 0 false true)) ∧ (((w (.abar 0 false true)).ctl 0).slice 0).wait = some (.abar 0 false true)) ∧
    (on (w (.word 0 true 5 true)) ∧ (((w (.word 0 true 5 true)).ctl 0).slice 0).wait = some (.word 0 true 5 true)) ∧
    (on (w (.waitc 0 0)) ∧ ((w (.waitc 0 0)).ctl 0).counter 0 ≤ 0) ∧
    (on (q (.push 128 5 3 0) 1) ∧ ((q (.push 128 5 3 0) 1).queue 0 128).count < ((q (.push 128 5 3 0) 1).queue 0 128).cap ∧
      (q (.push 128 5 3 0) 1).firstInLine 0 128 3 true = true) ∧
    (on (q (.pop 128 5 3 0) 1) ∧ 0 < ((q (.pop 128 5 3 0) 1).queue 0 128).count ∧
      (q (.pop 128 5 3 0) 1).firstInLine 0 128 3 false = true) ∧
    (((leadWith fun c => { c with st := .parking }).ctl 0).st.away = true ∧ ((leadWith fun c => { c with st := .pending }).ctl 0).st = .pending) ∧
    (r.atRend 0 ≠ [] ∧ r.rendFull 0 = true ∧ r.frozenAt (leadOf 0) = false) ∧
    ((two.ctl 0).xswap = some x ∧ two.exists 1 = true ∧ (two.ctl 1).xswap = some { x with partner := 0 } ∧
      two.exists 2 = false) ∧
    (h.ctl (helperKey 1 1)).helper = some { helper with asked := true, clauses := 256 } ∧ h.drainable (helperKey 1 1) = true ∧
      ((ended.ctl (helperKey 1 1)).slice 1).inClause = false ∧ (ended.ctl (helperKey 1 1)).flagOps = [] ∧
      ((ended.ctl (helperKey 1 1)).slice 1).defer = [] ∧ (ended.ctl (helperKey 1 1)).trap = none := by
  refine ⟨?_, ?_, ?_, ?_, ?_, ?_, ?_, ?_, ?_, ?_, ?_⟩ <;> decide +kernel

/-- A copy command at each stage, with its guard true, false, absent and unset, and its turn; one whose accesses pass; a
pushing one, with room and without; a matrix operation unstarted, started, replayed, failed, suspended; an MREL, and one of a
failed tile. -/
theorem witness_CopyAndMatrixStepsTakePlace :
    let desc : Nat := 16 * 2 ^ 128 + 2 ^ 144 + 2 ^ 184 + 4 * 2 ^ 216 + 8 * 2 ^ 124 + 0x2000
    let c := fun (stage wordv desc : Nat) =>
      ({ id := 7, k := 32, wordv, desc, handle := 5, priv := false, stage, left := [], seq := 0 } : Copy)
    let gen := copyWordOf 0 3 true false 8 (.reg 0)
    let pen := copyWordOf 0 0 false true 8 (.reg 0)
    let s := fun (c : Copy) => ({ withMemory copier with
      copies := [c], shared := [(0, [(0, 2)])]
      blocks := [(0, { block0 with guards := (List.replicate 16 none).set 3 (some (c.seq == 1)) })] } : State)
    let at_ := fun (c : Copy) => (s c).copies.find? fun c => c.id == 7
    let m : Mat := { id := 9, k := 24, kind := 0, tile := 0, ty := 0x0A, bt := 0x0A, za := false, a := 0, b := 0, off := 0,
                     handle := 5, started := false, opA := [], opB := [], shadow := [], shadowPoison := [], result := [],
                     replayed := false, failed := false }
    let t := fun (m : Mat) => ({ maths 0x0A with mats := [m], shared := [(0, [(0, 2)])] } : State)
    (at_ (c 0 0xD8000800 desc) = some (c 0 0xD8000800 desc) ∧ copyGuard 0xD8000800 = none ∧
      ((s (c 0 0xD8000800 desc)).before (c 0 0xD8000800 desc)) = [] ∧ (s (c 0 0xD8000800 desc)).frozenAt 32 = false ∧
      (s (c 0 0xD8000800 desc)).meterOk 0 0 1 [] = true) ∧
    (let y := c 6 0xD8000800 desc
     at_ y = some y ∧ copyKind y.wordv = 0 ∧ ((s y).engineSide y 0 false 0 y.srcRanges).isOk = true ∧
     ((s y).copyDests y).length = 1 ∧
     (((s y).engineSide y 0 false 0 y.srcRanges).toOption.map fun r =>
       r.1.all fun p => ((s y).spoiledAt p).isNone && !(s y).sourceWaits p) = some true ∧
     ((((s y).copyDests y).mapM fun z => (s y).engineSide y z.1 true 4096 (y.dstRanges z.2)).toOption.map fun qs =>
       qs.all fun z => z.1.all fun q => !(s y).placeWaits ((s y).epochOf y.k) q.p) = some true) ∧
    (((s (c 3 0xD8000800 desc)).ctl 32).priv = false ∧ ((s (c 3 0xD8000800 desc)).ctl 32).trap = none ∧
      ((s (c 3 0xD8000800 desc)).ctl 32).slices.all fun z => z.defer.isEmpty) ∧
    (copyGuard gen = some 3 ∧ ((s (c 0 gen desc)).blk 0).guards.getD 3 none = some false ∧
      ((s { c 0 gen desc with seq := 1 }).blk 0).guards.getD 3 none = some true ∧
      copyGuard (copyWordOf 0 4 true false 8 (.reg 0)) = some 4 ∧ ((s (c 0 gen desc)).blk 0).guards.getD 4 none = none) ∧
    (copyPen pen = true ∧ copyPen 0xD8000800 = false ∧ (s (c 1 pen desc)).turnOf (c 1 pen desc) = true ∧ copyKind pen ≠ 2 ∧
      (landPush (c 1 pen desc) (blockOf 32) (s (c 1 pen desc))).isSome = true ∧ (s (c 1 pen desc)).landed (c 1 pen desc) = true ∧
      (landPush (c 1 pen desc) (blockOf 32) ({ s (c 1 pen desc) with shared := [(0, [(0, 2), (8, 2)])] })).isSome = false) ∧
    (dBen desc = false ∧ dBen (desc + 2 ^ 224) = true) ∧
    (((t m).mats.find? fun m => m.id == 9 && m.kind != 2 && !m.started) = some m ∧ (t m).chainBefore m = [] ∧ (t m).tilePoison = []) ∧
    ((t { m with started := true }).mats.find? fun m => m.id == 9 && m.kind != 2 && m.started && !m.failed).isSome = true ∧
    ((t { m with started := true, failed := true }).mats.find? fun m => m.id == 9 && m.kind != 2 && m.started && !m.suspended).isSome = true ∧
    (let x := { m with started := true, suspended := true }
     ((t x).mats.find? fun m => m.id == 9 && m.kind != 2 && (!m.started || m.suspended)) = some x ∧ (t x).chainBefore x = [] ∧
     ((t x).arrayHeld (coreOf 24)).length < 4) ∧
    (let y := { c 1 0xD8000800 desc with lands := [(.phys, 0x20000, [1])] }
     let u : State := { s y with blocks := [(0, { block0 with epoch := 3 })], snap := { n := 3, st := 2, pages := [⟨2, 2, false, [], 3⟩] } }
     (y.lands.filter fun z => (s y).placeWaits ((s y).epochOf y.k) { sp := z.1, off := z.2.1 }) = [] ∧
     (y.lands.filter fun z => u.placeWaits (u.epochOf y.k) { sp := z.1, off := z.2.1 }) ≠ []) ∧
    ((t m).tileWrites 24 0 false = [] ∧ ({ m with started := true, replayed := true } : Mat).replayed = true) ∧
    ((t { m with kind := 2, failed := true }).mats.find? fun m => m.id == 9 && m.kind == 2 && m.failed).isSome = true ∧
    (let x := { m with kind := 2 }
     let u := applyAll (drainAll (t x) 24) (t x)
     ((t x).mats.find? fun m => m.id == 9 && m.kind == 2) = some x ∧ (t x).chainBefore x = [] ∧ (t x).drainable 24 = true ∧
     ((t x).ctl 24).farPending = false ∧ qFault (u.sh 0) (u.blk 0).img.shblk 0 (some 5) = 0 ∧
     (u.queue 0 0).count < (u.queue 0 0).cap ∧ u.firstInLine 0 0 u.ids true = true) := by
  refine ⟨?_, ?_, ?_, ?_, ?_, ?_, ?_, ?_, ?_, ?_, ?_, ?_, ?_, ?_⟩ <;> decide +kernel

/-- A collective waiting, active and complete, and one whose unit restarts here, once and a third time; a chunk that waits and
one that arrives; a dispatch, a put of this chip, one to another and one of another, a request that waits for a slot, a slot
that times out with and without a dispatch, one that is ready. -/
theorem witness_CollectiveAndCombineStepsTakePlace :
    let c : Coll := { id := 3, b := 0, ctx := 1, tag := 0, seq := 0, form := 0, tsrc := false, op := false, tile := 0, mode := 0
                      src := 0x2000, dst := 0x3000, count := 0, root := 0, bar := none, members := [0, 1], pos := 0
                      priv := false, arrivals := [] }
    let s := fun (c : Coll) => ({ withMemory (lead) with colls := [c] } : State)
    let again := { c with again := [(1, 0, 0)], pos := 0 }
    let done := { c with active := true, passed := c.parts }
    let late := { c with late := [(0, 0, [1])] }
    let begun := { c with active := true, starts := [0] }
    let keyed : State := { s begun with vil := { keys := true } }
    let q : Chunk := { ctx := 1, tag := 0, seq := 0, blk := 0, unit := 0, pass := 0, size := 0, vals := [], poison := false, parity := 0 }
    let y : Nat := 64 * 2 ^ 64 + 5 * 2 ^ 96 + 2 ^ 128 + 16 * 2 ^ 163 + 0x0C * 2 ^ 192 + 0x0C * 2 ^ 197 + 0x100000
    let r : CmbReq := { id := 7, k := 0, sl := 0, lane := 0, put := false, ctx := 1, name := 0, tok := 0, experts := [0]
                        weights := [0], rowAddr := 0x2000, len := 64, priv := false, stage := 0, joins := false, chip := 0
                        plane := 0, tag := 0, epoch := 0 }
    let z : Slot := { tok := 0, st := 1, rows := [], disp := some ([0], [0]), present := 0, renorm := false }
    let x : Cmb := { ctx := 1, buf := 0, owner := 0, desc := y, homes := [0], priv := false, slots := [z] }
    let u := fun (r : CmbReq) => ({ withMemory (lead) with cmbReqs := [r], cmbs := [x] } : State)
    (keyed.vil.keys = true ∧ (s c).vil.keys = false ∧ late.late ≠ [] ∧ late.startBlock = some 1 ∧ 0 ∈ begun.starts ∧
      (keyed.meterOk 2 (blockDie begun.b) begun.ctx (keyed.blk begun.b).path) = true ∧ keyed.coll 3 = some begun ∧
      keyed.fab.changing = false ∧ keyed.collFrozen begun = false) ∧
    ((s c).coll 3 = some c ∧ c.active = false ∧ c.finished = false ∧ (∀ y ∈ (s c).colls, 3 ≤ y.id) ∧
      ((s c).colls.filter fun y => y.active && !y.finished).length < 16 ∧ (s c).fab.changing = false ∧
      (s c).collFrozen c = false ∧ (s c).meterOk 2 (blockDie 0) 1 [] = true) ∧
    (again.firstPos 1 0 = again.pos ∧ (1, 0, 0) ∈ again.again ∧ (1, 0, 0) ∉ c.again ∧ c.firstPos 1 0 = c.pos ∧
      c.triesOf 1 0 < 2 ∧ 2 ≤ ({ c with tries := [(1, 0, 2)] } : Coll).triesOf 1 0) ∧
    (done.active = true ∧ done.finished = false ∧ done.again = [] ∧ (∀ p ∈ done.parts, p ∈ done.passed) ∧ (s done).past done = true) ∧
    (q ∉ (s c).fab.chunks ∧ q ∈ ({ (s c).fab with chunks := [q] } : Fabric).chunks) ∧
    ((u r).cmbReqs.find? fun q => q.id == 7 && !q.put && q.stage == 0) = some r ∧
    (let p := { r with put := true }
     ((u p).cmbReqs.find? fun q => q.id == 7 && q.put) = some p ∧ (u p).cutWaits p = false ∧ nameChip p.name = (u p).chip ∧
     (u p).handling p.k = false) ∧
    (let p := { r with put := true, name := 2 ^ 23, stage := 4 }
     ((u p).cmbReqs.find? fun q => q.id == 7 && q.put) = some p ∧ (u p).cutWaits p = false ∧ nameChip p.name ≠ (u p).chip ∧
     (u p).handling p.k = false) ∧
    (let p := { r with put := true, chip := 2, stage := 5 }
     (u p).cutWaits p = false ∧ ((u p).cmbReqs.find? (·.promised 7)) = some p) ∧
    ((applyAll (packetArrives (channelKey ((u r).rowChip 7 - 1) 0 0) 1 (u r)) (u r)).snap.st ≠ 1) ∧
    (let p := { r with stage := 1 }
     ((u p).cmbReqs.find? fun q => q.id == 7 && q.stage == 1) = some p ∧ (u p).cmb 1 (nameBuf p.name) = some x ∧
     x.judge p false ≠ .waits ∧ x.judge { p with put := true } false ≠ .waits) ∧
    (x.slot 0 = some z ∧ z.st = 1 ∧ bTimeout x.desc ≠ 0 ∧ z.disp.isSome = true ∧ bSubst x.desc < 2 ∧
      ({ x with slots := [{ z with disp := none }] } : Cmb).slot 0 = some { z with disp := none } ∧ (u r).handling (leadOf x.owner) = false) ∧
    (let z := { z with st := 3 }
     ({ x with slots := [z] } : Cmb).slot 0 = some z ∧ ({ x with slots := [z] } : Cmb).turn 0 = true ∧ x.lost = false ∧ x.due = []) := by
  refine ⟨?_, ?_, ?_, ?_, ?_, ?_, ?_, ?_, ?_, ?_, ?_, ?_, ?_⟩ <;> decide +kernel

/-- A launch of an image on an idle chip (something fits), the same on a core of another split (a repartition), and of a
higher priority than a block that may be pre-empted; a region with a record ready and with none; blocks that are done, and
done with a warp suspended; a warp at its deadline; the service states; a die with blocks and one with none; PREQ and SLCFG;
a domain that is stuck, frozen on one die and on both. -/
theorem witness_DistributorStepsTakePlace :
    let img : Image := { block0.img with shblk := 0, tiles := 0, regg := 16, shg := 1, l1g := 15 }
    let l : Launch := { ctx := 1, rcb := 0x4000, path := [0x4000], record := 0x6000, jidx := 0, epoch := 0, img, args := 0, gx := 1
                        gy := 1, curve := 0, swzw := 0, domain := 0, next := 0, remain := 1, succ := [] }
    let line : Nat := 0x5000 * 2 ^ 832 + 2 ^ 824 + 0x3F * 2 ^ 800 + 7 * 2 ^ 797
    let low : Nat := 0x3F * 2 ^ 800 + 2 ^ 796
    let free : State := { withMemory State.reset with dist := { launches := [l], trees := [⟨1, 0x4000, [0x4000], line, 0x4080⟩] } }
    let wide : State := { free with
      blocks := (List.range 192).map fun c => (8 * c, { block0 with img := { img with regg := 8 }, path := [0x7000] })
      cores := (List.range 192).map fun c => (c, { split := (8, 1, 15) }) }
    let pre : State := { wide with
      ctxs := [(1, { valid := true, ptroot := 0x10000, pscfg := 0x400000010000 })]
      dist := { wide.dist with trees := wide.dist.trees ++ [⟨1, 0x7000, [0x7000], low, 0x7080⟩] } }
    let queue : State := { free with
      mem := Memory.write (Memory.write mapped 0x4084 1) 0x5001 0x60, dist := { free.dist with launches := [], reading := [(1, 0x4000)] } }
    let gone := stateOf 0 { context 0 0 with m := [], ctl := { (context 0 0).ctl with st := .exited } }
    let susp := stateOf 0 { context 0 0 with m := [], ctl := { (context 0 0).ctl with st := .exited, ended := true, divert := some (0x2000, 0x2100, 255) } }
    let stuck := leadWith fun c => { c with slices := c.slices.map fun x => { x with wait := some (.bar 0 false false) } }
    let frozen := fun (f : List (Nat × Nat × Nat)) => ({ stuck with frozen := f } : State)
    (free.displaced = none ∧ free.choose = some (.more l) ∧ (Work.more l).ctx = 1) ∧
    (wide.displaced = none ∧ wide.choose = none ∧ wide.blockedWork = some (.more l) ∧ wide.freeing (.more l) = false ∧
      (wide.repartCore (.more l)).isSome = true) ∧
    (pre.displaced.isSome = true ∧ (pre.displaced.map fun p => p.1.ctx) = some 1) ∧
    ((queue.region? 1 0x4000).isSome = true ∧ (1, 0x4000) ∈ queue.dist.reading ∧ (queue.ctxOf 1).valid = true ∧
      ((queue.region? 1 0x4000).bind queue.firstReady) = some (0, 0x6000)) ∧
    ((free.region? 1 0x4000).bind free.firstReady) = none ∧
    (({ split := (8, 1, 15), towards := some (16, 1, 15) } : Core).towards = some (16, 1, 15)) ∧
    (free.boundaryFree 0 = true ∧ (queue.dist.launches = []) ∧ (({ free with dist := { free.dist with woken := [(1, 0x4000)] } } : State).dist.woken
      = [(1, 0x4000)]) ∧ 0x4000 ≠ (free.ctxOf 1).root.toNat) ∧
    (gone.blockDone 0 = true ∧ ∀ p ∈ gone.blockWarps 0, p.2.ctl.ended = false) ∧
    (susp.blockDone 0 = true ∧ ({ (susp.blk 0) with preempt := true } : Block).preempt = true ∧
      ∃ p ∈ susp.blockWarps 0, p.2.ctl.ended = true) ∧
    (((lead).ctl 0).st ≠ .exited ∧ 0 < helperBase ∧ (find (lead).warps 0).isSome = true) ∧
    ((State.reset.ctxOf 1).valid = false ∧ (pre.ctxOf 1).valid = true ∧ State.reset.mgmt.devst.toNat % 8 < 3 ∧ ({ State.reset.mgmt with devst := 3 } : Mgmt).devst.toNat % 8 = 3) ∧
    ((∀ p ∈ (lead).blocks, dieOfBlock p.1 ≠ 1) ∧ ¬(∀ p ∈ (lead).blocks, dieOfBlock p.1 ≠ 0)) ∧
    (bit (2 ^ 31 + 5) 31 = true ∧ bit 5 31 = false ∧ bit 0x18000001 0 = true ∧ bit 0x18000000 0 = false) ∧
    (stuck.idleHeld 1 0 0 = false ∧ stuck.domainBusy 1 0 0 = false ∧ stuck.isFrozen 1 0 0 = false ∧
      ¬(stuck.domainWarps 1 0 0 = [] ∧ stuck.domainOps 1 0 0 = 0) ∧ (lead).domainBusy 1 0 0 = true) ∧
    (stuck.isFrozen 1 0 1 = false ∧ (frozen [(1, 0, 1)]).isFrozen 1 0 1 = true ∧ (frozen [(1, 0, 1)]).isFrozen 1 0 0 = false ∧
      (frozen [(1, 0, 1), (1, 0, 0)]).isFrozen 1 0 0 = true ∧ (frozen [(1, 0, 1)]).domainTraps 1 0 = []) := by
  refine ⟨?_, ?_, ?_, ?_, ?_, ?_, ?_, ?_, ?_, ?_, ?_, ?_, ?_, ?_, ?_⟩ <;> decide +kernel

/-- A request outstanding of each kind; a row held elsewhere whose refusal comes; a request of another chip, one for a page
that is pinned; a host request, a store to host memory; host memory; a port at each state, at its fourth training and
before; a plane change to apply; a walk; a migration. -/
theorem witness_FabricStepsTakePlace :
    let r : Req := { id := 5, k := 0, sl := 0, kind := 1, pa := 2 ^ 43, size := 4, lanes := 1, plane := 3, op := 0, dest := [], ty := 8
                     copy := 0 }
    let s : State := { (lead) with fab := { reqs := [r] } }
    let q : CmbReq := { id := 7, k := 0, sl := 0, lane := 0, put := true, ctx := 1, name := 2 ^ 23, tok := 0, experts := [0]
                        weights := [], rowAddr := 0x2000, len := 64, priv := false, stage := 6, joins := false, chip := 0
                        plane := 0, tag := 5, epoch := 0 }
    let held : State := { (lead) with cmbReqs := [q] }
    let in_ : RemoteReq := { kind := 5, pa := 0x1000, bytes := [1], op := 0, ty := 0, v := 0, c := 0, chip := 1, plane := 0, parity := 0
                             tag := 1 }
    let keyed : State := { (lead) with vil := { keys := true } }
    let host : State := { (lead) with fab := { reqs := [{ r with plane := 0xFE }] } }
    let served : State := { withMemory (lead) with mgmt := { devst := 3 } }
    let pinned : State := { keyed with snap := { n := 3, st := 2, pages := [⟨0, 2, false, [], 3⟩] } }
    let store := leadWith fun c => { c with storeQ := [{ id := 9, sp := .phys, off := 0x40000000000, bytes := [1], sl := 0, epoch := 0 }] }
    let owns : State := { store with owned := [(0, 0x40000000000 / 128)] }
    let m : Migration := { src := 0x200000, dst := 0x400000, size := 2 ^ 21, leaf := 0, ctxs := [] }
    (s.req 5 = some r ∧ r.plane ≠ 0xFE) ∧ ((lead).req 5 = none ∧ (lead).heldPut 5 = none ∧ held.heldPut 5 = some q) ∧
    (in_.chip < 512 ∧ in_.plane < 96 ∧ ¬({ in_ with chip := 512 } : RemoteReq).chip < 512) ∧
    (keyed.vil.keys = true ∧ keyed.snap.st = 0 ∧ keyed.mayArm = false ∧ in_.kind < 6 ∧ reqChanges in_ = true ∧
      keyed.servable in_ = true ∧ keyed.writeWaits in_.pa (keyed.packetEpoch in_.parity) = false ∧ (lead).vil.keys = false ∧
      ({ in_ with kind := 6 } : RemoteReq).kind = 6) ∧
    (pinned.vil.keys = true ∧ pinned.servable in_ = true ∧ pinned.writeWaits in_.pa (pinned.packetEpoch in_.parity) = true) ∧
    ((store.fab.reqs.find? fun r => r.id == 9 && r.plane == 0xFE) = none ∧
      (store.warps.any fun p => p.2.ctl.storeQ.any fun q => q.id == 9 && q.sp == .phys && region q.off == .host) = true ∧
      (store.warps.findSome? fun p => (p.2.ctl.storeQ.find? fun q => q.id == 9 && q.sp == .phys && region q.off == .host &&
        !store.ownsLine p.1 q.off).map fun q => (p.1, q)).isSome = true ∧ owns.ownsLine 0 0x40000000000 = true ∧
      (lead).warps.all (fun p => p.2.ctl.storeQ.isEmpty) = true) ∧
    ((host.fab.reqs.find? fun r => r.id == 5 && r.plane == 0xFE).isSome = true) ∧
    (({ served with mgmt := { devst := 2 } } : State).mgmt.devst.toNat % 8 = 2 ∧ (∀ q ∈ served.snap.blocked, q.sl ≠ 9) ∧
      region 0x40000000000 = .host ∧ region (0x40000000000 + 4 - 1) = .host ∧ (lead).mgmt.devst.toNat % 8 ≠ 4) ∧
    (served.mgmt.devst.toNat % 8 = 3 ∧ region (2 ^ 39 - 4) = .hbm ∧ region (2 ^ 39 - 4 + 4 - 1) = .hbm) ∧
    (95 < 96 ∧ portState ((lead).mgmt.portst.get 95).toNat < 3 ∧ portState 3 = 3 ∧ portState 2 = 2 ∧
      portTrains 0x30003 < 4 ∧ 4 ≤ portTrains 0x40003 ∧ min 255 (portTrains 0x20001 + 1) < 4 ∧ 4 ≤ min 255 (portTrains 0x30001 + 1)) ∧
    (({ (lead).fab with changing := true } : Fabric).changing = true ∧ ∀ r ∈ (lead).fab.reqs, r.plane = 0xFE) ∧
    (generic 0x2000 = .virt 0x2000 ∧ (served.walk 1 0x2000).kind = .leaf) ∧
    (m.size = 2 ^ 21 ∧ (∀ a ∈ [m.src, m.dst], region a = .hbm ∧ region (a + m.size - 1) = .hbm ∧ a % m.size = 0 ∧
      ∀ f ∈ span (a / 65536) (framesFor m.size), (served.snapPage f).st = 0) ∧
      ∀ x ∈ leavesOf { m with leaf := 0x12000 }, served.poisonedRange x.1 8 = false) := by
  refine ⟨?_, ?_, ?_, ?_, ?_, ?_, ?_, ?_, ?_, ?_, ?_, ?_, ?_⟩ <;> decide +kernel

/-- A snapshot armed and cut; a canary of its own and of the next; pages clean, pinned and copied; a manifest with an item and
with none; the ring's register; commands; a rollback to no header and, with no block, to a chain of one. -/
theorem witness_SnapshotStepsTakePlace :
    let s := fun (st : Nat) (pages : List SnapPage) => ({ State.reset with snap := { n := 3, st, pages } } : State)
    let m : Manifest := { n := 3, tag := 0, cut := 0, vaultg := 0, closed := true, status := 0, entries := [], items := [], pos := 0, start := 0 }
    let ring : BitVec 128 := 1 + 2 * 1 + 0x4000 * 2 ^ 15
    let t := fun (items : List SnapItem) (pages : List SnapPage) => ({ State.reset with
      mgmt := { snapcfg := ring }, snap := { n := 3, st := 2, mans := [{ m with items }], pages } } : State)
    let i : SnapItem := { kind := 1, key := 0, bytes := [1], frames := (1, 0), slices := [0] }
    let early : State := { t [] [] with snap := { (t [] []).snap with st := 1, mans := [{ m with n := 2 }] } }
    let saved : State := { State.reset with mem := [(0x100FA, 1), (0x100FC, 0x31), (0x100FD, 0x4E), (0x100FE, 0x41), (0x100FF, 0x4D)] }
    ((s 1 []).snap.st = 1 ∧ (3 = (s 1 []).snap.n) ∧ (511 < 512 ∧ 95 < 96 ∧ 3 < 4) ∧ ¬(512 < 512 ∧ 95 < 96 ∧ 3 < 4) ∧ channelKey 1 0 0 ∉ (s 1 []).snap.closed ∧ 4 = (s 1 []).snap.n + 1) ∧
    ((s 1 []).cutHeld = false) ∧
    (((s 1 [⟨5, 1, false, [], 3⟩]).snapPage 5).st = 1) ∧
    ((t [] [⟨5, 2, false, [], 3⟩]).manifest = some m ∧ (t [] []).ringFree ≠ 0 ∧ ((t [] [⟨5, 2, false, [], 3⟩]).snapPage 5).st = 2 ∧
      ((t [] [⟨5, 2, false, [], 3⟩]).snapPage 5).n = m.n ∧ m.pos = 0) ∧
    (early.manifest = some { m with n := 2 } ∧ early.ringFree ≠ 0 ∧ early.snap.st = 1 ∧ 2 ≠ early.snap.n) ∧
    ((t [i] []).manifest = some { m with items := [i] } ∧ ((t [i] []).snapPage 5).st < 2) ∧
    ((t [] []).tailOnly m = true ∧ (t [] []).ringFree ≠ 0) ∧ State.reset.manifest = none ∧
    ((s 0 []).snap.st ≠ 1 ∧ (s 0 []).snap.st ≠ 2) ∧
    ((∃ c ∈ (lead).ctxs, c.2.valid = true) ∧ (lead).blocks ≠ []) ∧
    ((∀ c ∈ saved.ctxs, c.2.valid = false) ∧ saved.blocks = [] ∧
      (saved.manChain (bits (saved.manAt 0x10000) 1983 1952 + 1) 0x10000 (2 ^ 32)).isSome = true) := by
  refine ⟨?_, ?_, ?_, ?_, ?_, ?_, ?_, ?_, ?_, ?_, ?_⟩ <;> decide +kernel

/-- The service states 2, 3 and 4; every port up, and units in training, fenced and not; an image of the least version
admitted and of one below; the other commands; the thermal events; a unit in service; an error in a block's shared memory
and tile. -/
theorem witness_HousekeepingStepsTakePlace :
    let d := fun (st : Word) => ({ State.reset with mgmt := { State.reset.mgmt with devst := st }, vil := { svn := 3 } } : State)
    let up : State := { d 2 with mgmt := { (d 2).mgmt with portst := (List.range 96).map fun p => (p, 3) } }
    let fenced : State := { up with vil := { up.vil with training := [⟨3, 0, 1⟩], fenced := [⟨3, 0, 1⟩] } }
    (up.devState = 2 ∧ up.allTrained = true ∧ up.dieServes 0 = true ∧ up.dieServes 1 = true ∧ (d 2).allTrained = false ∧
      fenced.allTrained = true ∧ ({ up with vil := { up.vil with training := [⟨3, 0, 1⟩] } } : State).allTrained = false ∧
      ({ up with vil := { up.vil with fenced := trainees } } : State).dieServes 0 = false) ∧
    ((d 4).devState = 4 ∧ (d 4).vil.svn ≤ (⟨3, 0⟩ : BootImage).version ∧ (⟨2, 0⟩ : BootImage).version < (d 4).vil.svn) ∧
    (State.reset.vil.svn ≤ State.reset.vil.image.version ∧ (d 3).vil.image.version < (d 3).vil.svn) ∧
    ((d 3).devState = 3 ∧ (List.replicate 32 (0 : Byte)).length = 32) ∧
    ([(0x2C10 : Word)].map clkCur ≠ underLimit (fun l => Config.packagePower 0 l (d 3).sliceClocks) (min 2200 2200) 336
      ([0x2C10].map fun x => min (clkReq x) (d 3).capCur)) ∧
    ([[(0 : Byte)]] ≠ ([] : List (List Byte))) ∧ bit 3 1 = true ∧
    ((d 3).isFenced 5 1 95 = false ∧ isUnit 5 1 95 = true ∧ isUnit 5 1 47 = false ∧ isUnit 1 0 95 = true ∧ isUnit 2 1 5 = true ∧
      isUnit 2 1 6 = false ∧ isUnit 6 1 0 = true) ∧ (find (lead).blocks 0).isSome = true ∧
    ((lead).runs 0 = true ∧ (((lead).ctl 0).slice 7).inClause = true ∧ bit (liveSlices (me (lead))) 7 = true) := by
  refine ⟨by decide +kernel, by decide, by decide, by decide, ?_, by decide, by decide, by decide, by decide, by decide⟩
  unfold underLimit
  split <;> decide

/-- The first and the last line of each die's HBM, host lines of both dies, vault lines of both dies; a die without blocks. -/
theorem witness_LinesHaveHomeSlices :
    (∀ pa ∈ [0, 2 ^ 38 - 128], region pa = .hbm ∧ bits pa 38 38 = 0) ∧
    (∀ pa ∈ [2 ^ 38, 2 ^ 39 - 128], region pa = .hbm ∧ bits pa 38 38 = 1) ∧
    (region 0x40000000000 = .host ∧ bits 0x40000000000 12 12 = 0 ∧ region 0x40000001000 = .host ∧ bits 0x40000001000 12 12 = 1) ∧
    (region 0x60000000000 = .vault 0 ∧ region 0x60018000000 = .vault 96 ∧ region 0x6002FFFFFFF = .vault 191) ∧ (0 < (State.reset.vil.slicesIn.getD 0 []).length ∧ 1 < State.reset.vil.slicesIn.length) ∧
    ∀ p ∈ (lead).blocks, dieOfBlock p.1 ≠ 1 := by
  refine ⟨by decide, by decide, by decide, by decide, by decide, by decide⟩

end Sys2Proof.Tests
end

section
/-! Transfers of control (O19): what a checked target decides of a word that transfers, and what the check of a target answers
(05 R110 to R114, 03 R62). -/
namespace Sys2Proof.Machine

/-- The parts of a slice that its marks leave (its address, its words) read the same once they clear. -/
theorem seen_slice {α : Type} {s : State} {w : Warp} (hw : find s.warps s.cur = some w) (g : Slice → α)
    (h : ∀ x : Slice, g x.ticked = g x) : g s.seen.slice = g (s.at w).slice := by
  simp only [Issue.slice, seen_c hw]
  exact Ctl.onSlices_view g w.ctl s.slices (lowest 8 s.slices) Slice.ticked h

theorem seen_nextClause {s : State} {w : Warp} (hw : find s.warps s.cur = some w) :
    s.seen.slice.nextClause = (s.at w).slice.nextClause := seen_slice hw Slice.nextClause fun _ => rfl

theorem seen_rel {s : State} {w : Warp} (hw : find s.warps s.cur = some w) (x : Word) :
    s.seen.rel x = ((s.at w).slice.pc.toNat : Int) + 8 * x.toInt := by
  simp only [Issue.rel, unitsFrom, seen_slice hw Slice.pc fun _ => rfl]

theorem seen_tested {s : State} {w : Warp} (hw : find s.warps s.cur = some w) (m : Nat) :
    s.seen.tested m = ((s.at w).m m &&& (s.at w).m 14).toNat &&& (s.at w).lanes := by
  simp only [Issue.tested, seen_m hw]
  rfl

/-- A word whose meaning traps raises that trap. -/
theorem issue_traps {chk : Issue → Chk} {body : Issue → Except Trap (List Effect × Flow)} {s : State} {w : Warp} {t : Trap}
    (hw : find s.warps s.cur = some w) (hc : (chk (s.at w)).fault (s.at w) = none) (hb : body s.seen = .error t) :
    issue chk body s = commit s (raise s s.cur ((s.at w).fill (chk (s.at w)).once t)) := by
  simp only [State.at] at hc ⊢
  simp only [State.seen, State.ticked] at hb
  simp [issue, hw, hc, hb]

/-- A word of class A whose scalar registers lie within the budget is not refused by the decoder. -/
theorem chkA_passes_of_budget {s : State} {w : Warp} {ss : List Nat} (hs : ∀ n ∈ ss, n < w.ctl.sbudget) :
    (chkA ss (s.at w)).Passes (s.at w) := chkA_passes rfl rfl rfl rfl rfl rfl rfl hs

/-- R111: a 24-bit offset read through a 32-bit word is the signed offset. -/
theorem toInt_signed24 (o : Nat) : (BitVec.ofInt 32 (signed 24 o)).toInt = (BitVec.ofNat 24 o).toInt := by
  have hs : signed 24 o = (BitVec.ofNat 24 o).toInt := by
    simp only [signed, BitVec.toInt_eq_toNat_cond, BitVec.toNat_ofNat]
    split <;> split <;> omega
  have hlo := BitVec.le_toInt (BitVec.ofNat 24 o)
  have hhi := BitVec.toInt_lt (x := BitVec.ofNat 24 o)
  rw [BitVec.toInt_ofInt, hs]
  exact Int.bmod_eq_of_le (by omega) (by omega)

/-- What the claim says of a word that transfers to a sum (R6, R110): outside the 64-bit addresses it traps; at an address,
the check of the target decides, and the word's own effects come only with the transfer. -/
def State.TransfersTo (s : State) (w : Warp) (i : Instr) (to_ : Int) (more : List Effect) : Prop :=
  ((to_ < 0 ∨ 2 ^ 64 ≤ to_) → s.Traps w i true { code := 0x07, addr := (BitVec.ofInt 64 to_).toNat }) ∧
  ∀ pc : DWord, (pc.toNat : Int) = to_ →
    (∀ es, s.seen.target pc = .ok es → s.Retires i (es ++ more, .goto pc)) ∧
    (∀ t, s.seen.target pc = .error t → s.Traps w i true t)

theorem Issue.transfer_outside {I : Issue} {to_ : Int} (h : to_ < 0 ∨ 2 ^ 64 ≤ to_) :
    I.transfer to_ = .error { code := 0x07, addr := (BitVec.ofInt 64 to_).toNat } := if_pos h

theorem Issue.transfer_toNat (I : Issue) (pc : DWord) :
    I.transfer pc.toNat = (I.target pc).map fun es => (es, .goto pc) := by
  have hin : ¬((pc.toNat : Int) < 0 ∨ 2 ^ 64 ≤ (pc.toNat : Int)) := by have := pc.isLt; omega
  simp only [Issue.transfer, if_neg hin, BitVec.ofInt_natCast, BitVec.ofNat_toNat, BitVec.setWidth_eq]
  cases I.target pc <;> rfl

/-- A word of class A that transfers, with effects of its own after the walker's. -/
theorem transfersTo_of_issue {s : State} {w : Warp} {i : Instr} {ss : List Nat} {to_ : Int} {more : List Effect}
    {body : Issue → Except Trap (List Effect × Flow)} (hw : s.Issuing w) (hs : ∀ n ∈ ss, n < w.ctl.sbudget)
    (hi : exec i s = issue (chkA ss) body s)
    (hb : body s.seen = (s.seen.transfer to_).map fun r => (r.1 ++ more, r.2)) : s.TransfersTo w i to_ more := by
  have hc := (chkA_passes_of_budget (s := s) hs).fault
  refine ⟨fun h => ?_, fun pc hpc => ⟨fun es h => ?_, fun t h => ?_⟩⟩
  · exact hi.trans (issue_traps hw.1 hc (by rw [hb, Issue.transfer_outside h]; rfl))
  · exact hi.trans (issue_retires hw.1 hc (by rw [hb, ← hpc, Issue.transfer_toNat, h]; rfl))
  · exact hi.trans (issue_traps hw.1 hc (by rw [hb, ← hpc, Issue.transfer_toNat, h]; rfl))

/-- A word of class A that does nothing but transfer. -/
theorem transfersTo_of_transfer {s : State} {w : Warp} {i : Instr} {ss : List Nat} {to_ : Int}
    {body : Issue → Except Trap (List Effect × Flow)} (hw : s.Issuing w) (hs : ∀ n ∈ ss, n < w.ctl.sbudget)
    (hi : exec i s = issue (chkA ss) body s) (hb : body s.seen = s.seen.transfer to_) : s.TransfersTo w i to_ [] := by
  refine transfersTo_of_issue hw hs hi (hb.trans ?_)
  cases s.seen.transfer to_ <;> simp [Except.map]

/-- A word of class A that does nothing but leave by a flow. -/
theorem givesFlow_of_issue {s : State} {w : Warp} {i : Instr} {ss : List Nat} {f : Flow}
    {body : Issue → Except Trap (List Effect × Flow)} (hw : s.Issuing w) (hs : ∀ n ∈ ss, n < w.ctl.sbudget)
    (hi : exec i s = issue (chkA ss) body s) (hf : f.repeats = false) (hb : body s.seen = .ok ([], f)) :
    s.GivesFlow i f := by
  obtain ⟨t, ht, -, -, -, hreg⟩ := regWord_done (S := noReg) (M := noReg) (V := noLane) hw (chkA_passes_of_budget hs) hb hf
    (by simp) (by simp) (by simp) (by simp)
  refine ⟨t, hi.trans ht, ?_⟩
  rwa [regsAll_nil, ← State.warp_of_find hw.1] at hreg

/-- The meanings of the transferring words. -/
theorem exec_bra (o : Nat) (s : State) : exec (.bra o) s = execBra o s := rfl
theorem exec_brc (nz : Bool) (a b : SOp) (s : State) : exec (.brc nz a b) s = execBrc nz a b s := rfl
theorem exec_brzm (m : Nat) (b : SOp) (s : State) : exec (.brzm m b) s = execBrzm m b s := rfl
theorem exec_brnzm (m : Nat) (b : SOp) (s : State) : exec (.brnzm m b) s = execBrnzm m b s := rfl
theorem exec_jmp (p : Nat) (b : SOp) (s : State) : exec (.jmp p b) s = execJmp p b s := rfl
theorem exec_call (d : Nat) (b : SOp) (s : State) : exec (.call d b) s = execCall d b s := rfl
theorem exec_ret (p : Nat) (s : State) : exec (.ret p) s = execRet p s := rfl

section words
variable {s : State} {w : Warp} (hw : s.Issuing w)
include hw

/-- BRA (R111). -/
theorem bra_transfersTo (o : Nat) :
    s.TransfersTo w (.bra o) ((s.at w).slice.pc.toNat + 8 * (BitVec.ofNat 24 o).toInt) [] :=
  transfersTo_of_transfer (ss := []) hw (by simp) (exec_bra _ _) (by rw [seen_rel hw.1, toInt_signed24])

/-- BRC (R112): taken where A ≠ 0 is as its NZ asks. -/
theorem brc_taken {nz : Bool} {a b : SOp} (hs : ∀ n ∈ opRegs a ++ opRegs b, n < w.ctl.sbudget)
    (h : ((s.at w).op a ≠ 0) = (nz = true)) :
    s.TransfersTo w (.brc nz a b) ((s.at w).slice.pc.toNat + 8 * ((s.at w).op b).toInt) [] :=
  transfersTo_of_transfer hw hs (exec_brc _ _ _ _) (by rw [seen_op hw.1, seen_op hw.1, seen_rel hw.1, if_pos h])

theorem brc_not_taken {nz : Bool} {a b : SOp} (hs : ∀ n ∈ opRegs a ++ opRegs b, n < w.ctl.sbudget)
    (h : ((s.at w).op a ≠ 0) ≠ (nz = true)) : s.GivesFlow (.brc nz a b) .ends :=
  givesFlow_of_issue hw hs (exec_brc _ _ _ _) rfl (by rw [seen_op hw.1, if_neg h])

/-- BRZM and BRNZM (R113): one is taken where the other is not. -/
theorem brzm_taken {m : Nat} {b : SOp} (hs : ∀ n ∈ opRegs b, n < w.ctl.sbudget)
    (h : ((s.at w).m m &&& (s.at w).m 14).toNat &&& (s.at w).lanes = 0) :
    s.TransfersTo w (.brzm m b) ((s.at w).slice.pc.toNat + 8 * ((s.at w).op b).toInt) [] :=
  transfersTo_of_transfer hw hs (exec_brzm _ _ _) (by rw [seen_tested hw.1, seen_op hw.1, seen_rel hw.1, if_pos h])

theorem brzm_not_taken {m : Nat} {b : SOp} (hs : ∀ n ∈ opRegs b, n < w.ctl.sbudget)
    (h : ((s.at w).m m &&& (s.at w).m 14).toNat &&& (s.at w).lanes ≠ 0) : s.GivesFlow (.brzm m b) .ends :=
  givesFlow_of_issue hw hs (exec_brzm _ _ _) rfl (by rw [seen_tested hw.1, if_neg h])

theorem brnzm_taken {m : Nat} {b : SOp} (hs : ∀ n ∈ opRegs b, n < w.ctl.sbudget)
    (h : ((s.at w).m m &&& (s.at w).m 14).toNat &&& (s.at w).lanes ≠ 0) :
    s.TransfersTo w (.brnzm m b) ((s.at w).slice.pc.toNat + 8 * ((s.at w).op b).toInt) [] :=
  transfersTo_of_transfer hw hs (exec_brnzm _ _ _) (by rw [seen_tested hw.1, seen_op hw.1, seen_rel hw.1, if_pos h])

theorem brnzm_not_taken {m : Nat} {b : SOp} (hs : ∀ n ∈ opRegs b, n < w.ctl.sbudget)
    (h : ((s.at w).m m &&& (s.at w).m 14).toNat &&& (s.at w).lanes = 0) : s.GivesFlow (.brnzm m b) .ends :=
  givesFlow_of_issue hw hs (exec_brnzm _ _ _) rfl (by rw [seen_tested hw.1, if_neg (not_not.mpr h)])

/-- JMP, CALL and RET (R114). -/
theorem jmp_transfersTo {p : Nat} {b : SOp} (hs : ∀ n ∈ [p, p + 1] ++ opRegs b, n < w.ctl.sbudget) :
    s.TransfersTo w (.jmp p b) (((s.at w).pair p).toNat + 8 * ((s.at w).op b).toInt) [] :=
  transfersTo_of_transfer hw hs (exec_jmp _ _ _) (by rw [seen_pair hw.1, seen_op hw.1]; rfl)

theorem call_transfersTo {d : Nat} {b : SOp} (hs : ∀ n ∈ [d, d + 1] ++ opRegs b, n < w.ctl.sbudget) :
    s.TransfersTo w (.call d b) ((s.at w).slice.pc.toNat + 8 * ((s.at w).op b).toInt)
      (pairOut s.cur d (s.at w).slice.nextClause) := by
  refine transfersTo_of_issue hw hs (exec_call _ _ _) ?_
  rw [seen_op hw.1, seen_rel hw.1, seen_nextClause hw.1]
  cases s.seen.transfer _ <;> rfl

theorem ret_transfersTo {p : Nat} (hs : ∀ n ∈ [p, p + 1], n < w.ctl.sbudget) :
    s.TransfersTo w (.ret p) ((s.at w).pair p).toNat [] :=
  transfersTo_of_transfer hw hs (exec_ret _ _) (by rw [seen_pair hw.1])

end words

/-- R61: the fields of a clause header that may stand. -/
theorem headerOk_iff (h0 h1 : Nat) : headerOk h0 h1 = true ↔
    h0 % 32 = 0 ∧ 1 ≤ h0 / 2 ^ 7 % 32 ∧ h0 / 2 ^ 7 % 32 ≤ 30 ∧ (h0 / 2 ^ 16 % 16 < 12 ∨ h0 / 2 ^ 16 % 16 = 15) ∧
      (h0 / 2 ^ 12 % 16 < 12 ∨ h0 / 2 ^ 12 % 16 = 15) ∧ h1 % 2 ^ 16 = 0 ∧ h1 / 2 ^ 18 % 4 ≠ 3 := by
  simp only [headerOk, Bool.and_eq_true, Bool.or_eq_true, decide_eq_true_eq, and_assoc]
  simp [h0Len, h0Seta, h0Setb, bits]

/-- The check of a target that is no virtual address. -/
theorem Issue.target_not_virt {I : Issue} {pc : DWord} (h : ∀ va, generic pc.toNat ≠ .virt va) :
    I.target pc = .error { code := 0x07, addr := pc.toNat } := by
  unfold Issue.target
  dsimp only
  split
  · rename_i va e
    exact absurd e (h va)
  · rfl

/-- The check of a virtual address whose header cannot be fetched, misaligned or not (log entry 68). -/
theorem Issue.target_fetch_fault {I : Issue} {pc : DWord} {va : Nat} {e : LaneFault} (hg : generic pc.toNat = .virt va)
    (h : I.s.clauseWords I.k (pc.toNat / 8 * 8) 0 2 = .error e) :
    I.target pc = .error (fetchTrap I.s I.w I.sl pc.toNat e) := by
  simp only [Issue.target, hg, h]

/-- The check of a virtual address whose header is fetched. -/
theorem Issue.target_fetched {I : Issue} {pc : DWord} {va : Nat} {hs : List Word} {es : List Effect}
    (hg : generic pc.toNat = .virt va) (h : I.s.clauseWords I.k (pc.toNat / 8 * 8) 0 2 = .ok (hs, es)) :
    I.target pc = if pc.toNat % 8 = 0 ∧ headerOk (hs.getD 0 0).toNat (hs.getD 1 0).toNat = true then .ok es
      else .error { code := 0x05, addr := pc.toNat } := by
  simp only [Issue.target, hg, h, Bool.and_eq_true, decide_eq_true_eq]

/-- Settles O19: each transferring word through the check of its target, and the cases of that check. -/
theorem transfersGoToCheckedTargets : Obligations.TransfersGoToCheckedTargets := by
  refine ⟨fun s w d m p o a b hw hs => ?_, fun I pc => ⟨Issue.target_not_virt, fun va hg =>
    ⟨fun e => Issue.target_fetch_fault hg, fun hs es h => ⟨fun hm => ?_, fun hm => ⟨fun hok => ?_, fun hbad => ?_⟩⟩⟩⟩⟩
  · simp only [List.forall_mem_append, List.forall_mem_cons] at hs
    obtain ⟨⟨⟨hd, hd', hp, hp', -⟩, ha⟩, hb⟩ := hs
    have hpp : ∀ n ∈ [p, p + 1], n < w.ctl.sbudget := by simp [hp, hp']
    have hdd : ∀ n ∈ [d, d + 1], n < w.ctl.sbudget := by simp [hd, hd']
    have hab := List.forall_mem_append.mpr ⟨ha, hb⟩
    exact ⟨bra_transfersTo hw o, fun nz => ⟨brc_taken hw hab, brc_not_taken hw hab⟩,
      fun h => ⟨brzm_taken hw hb h, brnzm_not_taken hw hb h⟩, fun h => ⟨brnzm_taken hw hb h, brzm_not_taken hw hb h⟩,
      jmp_transfersTo hw (List.forall_mem_append.mpr ⟨hpp, hb⟩),
      call_transfersTo hw (List.forall_mem_append.mpr ⟨hdd, hb⟩), ret_transfersTo hw hpp⟩
  · rw [Issue.target_fetched hg h, if_neg fun c => hm c.1]
  · rw [Issue.target_fetched hg h, if_pos ⟨hm, (headerOk_iff _ _).mpr hok⟩]
  · rw [Issue.target_fetched hg h, if_neg fun c => hbad ((headerOk_iff _ _).mp c.2)]

end Sys2Proof.Machine
end

section
/-! What each effect leaves unchanged (O50): the frame of an effect, of a list of effects, and of a word that completes. The
places of a context's registers follow the warp, and all other places follow the stores; so a frame is proved for the two
apart. -/
namespace Sys2Proof.Machine

/-- A keyed list, and a sparse store, read at a key that a filter keeps or that is not the one dropped. -/
theorem find_filter_key {α : Type} {l : List (Nat × α)} {p : Nat × α → Bool} {k : Nat} (h : ∀ v, p (k, v) = true) :
    find (l.filter p) k = find l k := by
  induction l with
  | nil => rfl
  | cons q t ih =>
    obtain ⟨a, v⟩ := q
    rw [List.filter_cons]
    by_cases e : a = k
    · subst e
      simp [h, find]
    · split <;> simp [find, e, ih]

theorem find_del_ne {α : Type} {l : List (Nat × α)} {k j : Nat} (h : j ≠ k) : find (del l k) j = find l j :=
  find_filter_key fun _ => decide_eq_true h

theorem Sparse.get_filter_key {w : Nat} {m : Sparse w} {p : Nat × BitVec w → Bool} {a : Nat} (h : ∀ v, p (a, v) = true) :
    Sparse.get (m.filter p) a = m.get a := by
  induction m with
  | nil => rfl
  | cons q t ih =>
    obtain ⟨k, v⟩ := q
    rw [List.filter_cons]
    by_cases e : k = a
    · subst e
      simp [h, Sparse.get]
    · split <;> simp [Sparse.get, e, ih]

/-- Two warps agree on a register place; on any other place there is nothing to agree on. -/
def Warp.Same (w v : Warp) : Spot → Prop
  | .vec _ r l => l < 32 → v.readV r l = w.readV r l
  | .scalar _ n => v.s.get n = w.s.get n
  | .sup _ n => v.sup.get n = w.sup.get n
  | .mask _ n => v.m.get n = w.m.get n
  | .lfsr _ => v.lfsr = w.lfsr
  | _ => True

theorem Warp.Same.refl (w : Warp) (x : Spot) : w.Same w x := by
  cases x <;> simp [Warp.Same]

theorem Warp.Same.trans {u v w : Warp} {x : Spot} (h : u.Same v x) (g : v.Same w x) : u.Same w x := by
  cases x <;> simp_all [Warp.Same]

/-- A control state holds no register. -/
theorem Warp.same_ctl (w : Warp) (c : Ctl) (x : Spot) : w.Same { w with ctl := c } x := by
  cases x <;> simp [Warp.Same, Warp.readV]

/-- Register writes leave the registers that they do not name. -/
theorem Warp.same_writeV {w : Warp} {k r l : Nat} (y : Word) {x : Spot} (hk : x.key = some k) (h : x ≠ .vec k r l) :
    w.Same (w.writeV r l y) x := by
  cases x <;> simp only [Warp.Same, Warp.writeV_s, Warp.writeV_sup, Warp.writeV_m, Warp.writeV_lfsr]
  case vec j p q =>
    obtain rfl : j = k := by simpa [Spot.key] using hk
    intro hq
    refine Warp.readV_writeV_ne y hq ?_
    by_contra hc
    push Not at hc
    exact h (by rw [hc.1, hc.2])

theorem Warp.same_writeSOf {w : Warp} {k n : Nat} (sup : Bool) (y : Word) {x : Spot} (hk : x.key = some k)
    (h : ¬(x = .scalar k n ∨ x = .sup k n)) : w.Same (w.writeSOf sup n y) x := by
  simp only [not_or] at h
  cases x <;> simp only [Warp.Same, Warp.readV, Warp.writeSOf_v, Warp.writeSOf_m, Warp.writeSOf_lfsr, implies_true]
  case scalar j m =>
    obtain rfl : j = k := by simpa [Spot.key] using hk
    have hm : m ≠ n := fun e => h.1 (by rw [e])
    unfold Warp.writeSOf
    repeat' split
    all_goals simp [Sparse.get_set_ne y hm]
  case sup j m =>
    obtain rfl : j = k := by simpa [Spot.key] using hk
    have hm : m ≠ n := fun e => h.2 (by rw [e])
    unfold Warp.writeSOf
    repeat' split
    all_goals simp [Sparse.get_set_ne y hm]

theorem Warp.same_writeM {w : Warp} {k n : Nat} (y : Word) {x : Spot} (hk : x.key = some k)
    (h : ¬(x = .mask k n ∨ (n = 0 ∧ x = .sup k supM0))) : w.Same (w.writeM n y) x := by
  simp only [not_or] at h
  cases x <;> simp only [Warp.Same, Warp.readV, Warp.writeM_v, Warp.writeM_s, Warp.writeM_lfsr, implies_true]
  case mask j m =>
    obtain rfl : j = k := by simpa [Spot.key] using hk
    have hm : m ≠ n := fun e => h.1 (by rw [e])
    unfold Warp.writeM
    repeat' split
    all_goals simp [Sparse.get_set_ne _ hm]
  case sup j m =>
    obtain rfl : j = k := by simpa [Spot.key] using hk
    unfold Warp.writeM
    split
    · split
      · rename_i e
        simp only [Bool.and_eq_true, decide_eq_true_eq] at e
        exact Sparse.get_set_ne _ fun hm => h.2 ⟨e.1, by rw [hm]⟩
      · rfl
    · rfl

theorem Warp.same_writeLive {w : Warp} {k : Nat} (y : Word) {x : Spot} (hk : x.key = some k) (h : x ≠ .mask k 14) :
    w.Same (w.writeLive y) x := by
  cases x <;> simp only [Warp.Same, Warp.readV, Warp.writeLive_v, Warp.writeLive_s, Warp.writeLive_sup,
    Warp.writeLive_lfsr, implies_true]
  case mask j m =>
    obtain rfl : j = k := by simpa [Spot.key] using hk
    exact Sparse.get_set_ne _ fun hm => h (by rw [hm])

theorem Warp.same_writeLfsr {w : Warp} {k : Nat} (y : Word) {x : Spot} (hk : x.key = some k) (h : x ≠ .lfsr k) :
    w.Same (w.writeLfsr y) x := by
  cases x <;> simp only [Warp.Same, Warp.readV, Warp.writeLfsr_v, Warp.writeLfsr_s, Warp.writeLfsr_m,
    Warp.writeLfsr_sup, implies_true]
  case lfsr j =>
    obtain rfl : j = k := by simpa [Spot.key] using hk
    exact absurd rfl h

/-- R175: bytes of a register window lie in the elements that their offsets give. -/
theorem Warp.same_writeBytes {w : Warp} {k off : Nat} {bytes : List Byte} {x : Spot} (hk : x.key = some k)
    (h : ¬∃ i, i < bytes.length ∧ x = .vec k ((off + i) / 128) ((off + i) % 128 / 4)) :
    w.Same (w.writeBytes off bytes) x := by
  induction bytes generalizing w off with
  | nil => exact .refl w x
  | cons b t ih =>
    have hb : w.Same (w.writeByte off b) x := Warp.same_writeV _ hk fun e => h ⟨0, by simp, e⟩
    refine hb.trans (ih ?_)
    rintro ⟨i, hi, e⟩
    exact h ⟨i + 1, by simpa using hi, by rw [e, Nat.add_assoc, Nat.add_comm 1 i]⟩

theorem State.Same.refl (s : State) (x : Spot) : s.Same s x := by
  cases x <;> simp [State.Same]

theorem State.Same.trans {s t u : State} {x : Spot} (h : s.Same t x) (g : t.Same u x) : s.Same u x := by
  cases x <;> simp_all [State.Same]

/-- A place reads as before where its own warp agrees on it and, for a place of no warp, the store that holds it reads as
before. What an effect does not touch is left to the defaults. -/
theorem State.same_of {s t : State} {x : Spot}
    (warp : ∀ k, x.key = some k → (s.warp k).Same (t.warp k) x := by exact fun _ _ => Warp.Same.refl _ _)
    (mem : ∀ a, x = .mem a → t.mem.read a = s.mem.read a := by exact fun _ _ => rfl)
    (shared : ∀ b a, x = .shared b a → (t.sh b).get a = (s.sh b).get a := by exact fun _ _ _ => rfl)
    (tile : ∀ b i, x = .tile b i → (t.acc b).get i = (s.acc b).get i := by exact fun _ _ _ => rfl)
    (ctx : ∀ c, x = .ctx c → t.ctxOf c = s.ctxOf c := by exact fun _ _ => rfl)
    (block : ∀ b, x = .block b → find t.blocks b = find s.blocks b := by exact fun _ _ => rfl)
    (mgmt : x = .mgmt → t.mgmt = s.mgmt := by exact fun _ => rfl) : s.Same t x := by
  cases x with
  | mem a => exact mem a rfl
  | shared b a => exact shared b a rfl
  | tile b i => exact tile b i rfl
  | vec k r l => exact warp k rfl
  | scalar k n => exact warp k rfl
  | sup k n => exact warp k rfl
  | mask k n => exact warp k rfl
  | lfsr k => exact warp k rfl
  | ctx c => exact ctx c rfl
  | block b => exact block b rfl
  | mgmt => exact mgmt rfl

/-- The warp of a key after a change of one: as it was, or changed. -/
theorem State.warp_onWarp (s : State) (k j : Nat) (f : Warp → Warp) :
    (s.onWarp k f).warp j = s.warp j ∨ (j = k ∧ (s.onWarp k f).warp j = f (s.warp j)) := by
  by_cases e : j = k
  · subst e
    cases h : find s.warps j with
    | none => exact .inl (by rw [State.onWarp_none f h])
    | some w => exact .inr ⟨rfl, by rw [State.warp_of_find (State.find_onWarp_same f h), State.warp_of_find h]⟩
  · exact .inl (by simp only [State.warp, State.find_onWarp_ne s f e])

/-- A change of one warp that leaves a place of that warp leaves the place. -/
theorem State.same_onWarp {s : State} {k : Nat} {f : Warp → Warp} {x : Spot}
    (hf : x.key = some k → ∀ w : Warp, w.Same (f w) x) : s.Same (s.onWarp k f) x := by
  refine State.same_of (fun j hj => ?_) (by simp) (by simp [State.sh]) (by simp [State.acc]) (by simp [State.ctxOf])
    (by simp) (by simp)
  rcases s.warp_onWarp k j f with e | ⟨rfl, e⟩
  · exact e ▸ .refl _ x
  · exact e ▸ hf hj _

/-- A change of slices is a change of control states. -/
theorem find_mapSlices (p : Nat → Bool) (f : Nat → Nat → Slice → Slice) (l : List (Nat × Warp)) (k : Nat) :
    ∃ g : Warp → Ctl, find (mapSlices p f l) k = (find l k).map fun w => { w with ctl := g w } := by
  refine ⟨fun w => if p k then { w.ctl with slices := w.ctl.slices.mapIdx (f k) } else w.ctl, ?_⟩
  induction l with
  | nil => rfl
  | cons q t ih =>
    obtain ⟨a, w⟩ := q
    simp only [mapSlices, List.map_cons] at ih ⊢
    by_cases e : a = k
    · subst e
      by_cases h : p a = true <;> simp [h, find]
    · split <;> simpa [find, e] using ih

/-- Two keyed lists of warps hold the same registers. -/
def SameRegisters (l m : List (Nat × Warp)) : Prop := ∀ k x, ((find l k).getD {}).Same ((find m k).getD {}) x

theorem SameRegisters.refl (l : List (Nat × Warp)) : SameRegisters l l := fun _ x => .refl _ x

theorem SameRegisters.mapSlices {l m : List (Nat × Warp)} (h : SameRegisters l m) (p : Nat → Bool)
    (f : Nat → Nat → Slice → Slice) : SameRegisters l (mapSlices p f m) := by
  intro k x
  obtain ⟨g, e⟩ := find_mapSlices p f m k
  refine (h k x).trans ?_
  rw [e]
  cases find m k with
  | none => exact .refl _ x
  | some w => exact Warp.same_ctl w _ x

/-- A change of slices leaves every place. -/
theorem State.same_mapSlices (s : State) (p : Nat → Bool) (f : Nat → Nat → Slice → Slice) (x : Spot) :
    s.Same { s with warps := mapSlices p f s.warps } x :=
  State.same_of fun k _ => (SameRegisters.refl s.warps).mapSlices p f k x

/-- The snapshot unit's state is no place's. -/
theorem State.same_snap (s : State) (y : Snap) (x : Spot) : s.Same { s with snap := y } x := State.same_of

/-- An entry of a keyed list of stores after one is put in. -/
theorem getD_find_put {α : Type} (l : List (Nat × α)) (k j : Nat) (y z : α) :
    (find (put l k y) j).getD z = if j = k then y else (find l j).getD z := by
  split
  · rename_i e
    rw [e, find_put_same]
    rfl
  · rename_i e
    rw [find_put_ne l y e]

/-- A byte that none of those written reads as before. -/
theorem Sparse.get_setBytes_of_not_written {m : Sparse 8} {off a : Nat} {bytes : List Byte}
    (h : ∀ i, i < bytes.length → a ≠ off + i) : (m.setBytes off bytes).get a = m.get a := by
  refine Sparse.get_setBytes_ne bytes ?_
  by_contra hc
  push Not at hc
  exact h (a - off) (by omega) (by omega)

/-- A store to any space leaves the places outside its bytes (R7). -/
theorem applyStore_same {sp : Space} {off : Nat} {bytes : List Byte} {who : Option (Nat × Nat)} {s : State} {x : Spot}
    (h : ¬(Effect.store sp off bytes who).hits x) : s.Same (applyStore sp off bytes who s) x := by
  cases sp with
  | phys =>
    have hw : SameRegisters s.warps (applyStore .phys off bytes who s).warps := by
      dsimp only [applyStore]
      exact ((SameRegisters.refl _).mapSlices _ _).mapSlices _ _
    refine State.same_of (fun k _ => hw k x) fun a e => ?_
    exact Sparse.get_setBytes_of_not_written fun i hi ha => h ⟨i, hi, by rw [e, ha]⟩
  | shared b =>
    have hw : SameRegisters s.warps (applyStore (.shared b) off bytes who s).warps := by
      dsimp only [applyStore]
      exact ((SameRegisters.refl _).mapSlices _ _).mapSlices _ _
    refine State.same_of (fun k _ => hw k x) (shared := fun c a e => ?_)
    simp only [applyStore, State.sh, getD_find_put]
    split
    · rename_i hc
      rw [hc, Sparse.get_setBytes_of_not_written fun i hi ha => h ⟨i, hi, by rw [e, ha, hc]⟩]
    · rfl
  | reg k =>
    exact (s.same_mapSlices _ _ x).trans (State.same_onWarp fun hk w => Warp.same_writeBytes hk h)
  | remote c => exact .refl s x

/-- A write to physical memory, performed or queued at its slice, leaves the places outside its bytes (R408 to R411). -/
theorem applyWrite_same {off epoch : Nat} {bytes : List Byte} {who : Option (Nat × Nat)} {s : State} {x : Spot}
    (h : ¬(Effect.write off bytes epoch who).hits x) : s.Same (applyWrite off bytes epoch who s) x := by
  have hc : s.Same (s.copied off epoch) x := by
    unfold State.copied
    split
    · exact s.same_snap _ x
    · exact .refl s x
  unfold applyWrite
  dsimp only
  split
  · exact hc.trans (State.same_snap _ _ x)
  · exact (hc.trans (State.same_snap _ _ x)).trans (applyStore_same (sp := .phys) h)

/-- Zeroing bytes of physical memory leaves the places outside them (R184). -/
theorem applyZero_same {off n : Nat} {s : State} {x : Spot} (h : ¬(Effect.zero off n).hits x) :
    s.Same (applyZero off n s) x := by
  have hw : SameRegisters s.warps (applyZero off n s).warps := by
    dsimp only [applyZero]
    exact (SameRegisters.refl _).mapSlices _ _
  refine State.same_of (fun k _ => hw k x) fun a e => Sparse.get_filter_key fun _ => ?_
  have ha : a < off ∨ off + n ≤ a := by
    by_contra hc
    push Not at hc
    exact h ⟨a - off, by omega, by rw [e]; congr 1; omega⟩
  simpa using ha

/-- An effect leaves the places that it does not name. -/
theorem apply_same {e : Effect} {s : State} {x : Spot} (h : ¬e.hits x) : s.Same (apply e s) x := by
  cases e with
  | vreg k r l y => exact State.same_onWarp fun hk _ => Warp.same_writeV y hk h
  | sreg k n y => exact State.same_onWarp fun hk w => Warp.same_writeSOf w.ctl.priv y hk h
  | sregOf k sup n y => exact State.same_onWarp fun hk _ => Warp.same_writeSOf sup y hk h
  | mask k n y => exact State.same_onWarp fun hk _ => Warp.same_writeM y hk h
  | live k y => exact State.same_onWarp fun hk _ => Warp.same_writeLive y hk h
  | lfsr k y => exact State.same_onWarp fun hk _ => Warp.same_writeLfsr y hk h
  | ctl k c => exact State.same_onWarp fun _ w => Warp.same_ctl w c x
  | newWarp k c s0 s1 lanes =>
    refine State.same_of fun j hj => ?_
    have hne : j ≠ k := fun e => h (e ▸ hj)
    simpa only [apply, State.warp, find_put_ne _ _ hne] using Warp.Same.refl _ x
  | delWarp k =>
    refine State.same_of fun j hj => ?_
    have hne : j ≠ k := fun e => h (e ▸ hj)
    simpa only [apply, State.warp, find_del_ne hne] using Warp.Same.refl _ x
  | block b y => exact State.same_of (block := fun c e => find_put_ne _ _ fun hc => h (by rw [e, hc]; rfl))
  | clearBlock b =>
    refine State.same_of (shared := fun c a e => ?_) (tile := fun c i e => ?_)
    · have hne : c ≠ b := fun hc => h (.inl ⟨a, by rw [e, hc]⟩)
      simp only [apply, State.sh, getD_find_put, if_neg hne]
    · have hne : c ≠ b := fun hc => h (.inr ⟨i, by rw [e, hc]⟩)
      simp only [apply, State.acc, getD_find_put, if_neg hne]
  | delBlock b =>
    refine State.same_of (fun k hk => ?_) (shared := fun c a e => ?_) (tile := fun c i e => ?_) (block := fun c e => ?_)
    · have hne : blockOf k ≠ b := fun hb => h (.inr (.inr (.inr ⟨k, hk, hb⟩)))
      have hfind : find (s.warps.filter fun p => blockOf p.1 ≠ b) k = find s.warps k :=
        find_filter_key fun _ => decide_eq_true hne
      simpa only [apply, State.warp, hfind] using Warp.Same.refl _ x
    · have hne : c ≠ b := fun hc => h (.inl ⟨a, by rw [e, hc]⟩)
      simp only [apply, State.sh, find_del_ne hne]
    · have hne : c ≠ b := fun hc => h (.inr (.inl ⟨i, by rw [e, hc]⟩))
      simp only [apply, State.acc, find_del_ne hne]
    · have hne : c ≠ b := fun hc => h (.inr (.inr (.inl (by rw [e, hc]))))
      exact find_del_ne hne
  | store sp off bytes who => exact applyStore_same h
  | write off bytes epoch who => exact applyWrite_same h
  | zero off n => exact applyZero_same h
  | tile b i y =>
    refine State.same_of (tile := fun c j e => ?_)
    simp only [apply, State.acc, getD_find_put]
    split
    · rename_i hc
      rw [Sparse.get_set_ne y fun hj => h (by rw [e, hc, hj]; rfl), hc]
    · rfl
  | unreserve off n => exact s.same_mapSlices _ _ x
  | mgmt m => exact State.same_of (mgmt := fun e => absurd e h)
  | ctx c y =>
    refine State.same_of (ctx := fun d e => ?_)
    have hne : d ≠ c := fun hd => h (by rw [e, hd]; rfl)
    simp only [apply, State.ctxOf, find_put_ne _ _ hne]
  | wipe => exact absurd trivial h
  | _ => exact State.same_of

/-- A list of effects leaves the places that none of its effects names. -/
theorem applyAll_same {es : List Effect} {s : State} {x : Spot} (h : ∀ e ∈ es, ¬e.hits x) : s.Same (applyAll es s) x := by
  induction es generalizing s with
  | nil => exact .refl s x
  | cons e t ih =>
    exact (apply_same (h e (List.mem_cons_self ..))).trans (ih fun a ha => h a (List.mem_cons_of_mem _ ha))

/-- What follows a word changes control states only (R55, R63, R65). -/
theorem follow_eq_ctl {old s : State} {k sl : Nat} {f : Flow} {e : Effect} (h : e ∈ follow old s k sl f) :
    ∃ c, e = .ctl k c := by
  have advance_ctl : ∀ {f}, e ∈ advance s k sl f → ∃ c, e = .ctl k c := fun h => ⟨_, List.mem_singleton.mp h⟩
  cases f with
  | wait w =>
    rcases List.mem_append.mp h with h | h
    · exact advance_ctl h
    · split at h
      · exact ⟨_, List.mem_singleton.mp h⟩
      · exact absurd h (List.not_mem_nil)
  | again =>
    rcases List.mem_append.mp h with h | h
    · exact ⟨_, List.mem_singleton.mp h⟩
    · exact ⟨_, List.mem_singleton.mp h⟩
  | next => exact advance_ctl h
  | goto pc => exact advance_ctl h
  | ends => exact advance_ctl h
  | placed => exact advance_ctl h

/-- What follows a word leaves every place. -/
theorem follow_same (old s : State) (k sl : Nat) (f : Flow) (x : Spot) : s.Same (applyAll (follow old s k sl f) s) x := by
  refine applyAll_same fun e he => ?_
  obtain ⟨c, rfl⟩ := follow_eq_ctl he
  exact id

/-- The marks of the issuing slices are no place's. -/
theorem State.ticked_same (s : State) (x : Spot) : s.Same s.ticked x :=
  applyAll_same fun e he => by
    rw [tick, List.mem_singleton] at he
    subst he
    exact id

/-- A word that completes leaves the places that none of its effects names (R64). -/
theorem State.retire_same {s : State} {es : List Effect} {f : Flow} {x : Spot} (h : ∀ e ∈ es, ¬e.hits x) :
    s.Same (s.retire es f) x := by
  have hstart : s.Same (if f = .again then s else s.ticked) x := by
    split
    · exact .refl s x
    · exact s.ticked_same x
  exact ((hstart.trans (applyAll_same h)).trans (follow_same _ _ _ _ _ x)).trans (apply_same (e := .fresh) id)

/-- Settles O50: the frame of an effect, along the list, and the control effects around it name no place. -/
theorem effectsChangeOnlyWhatTheyName : Obligations.EffectsChangeOnlyWhatTheyName :=
  fun _ _ _ h => ⟨applyAll_same h, fun _ => State.retire_same h⟩

end Sys2Proof.Machine
end

section
/-! Reset, the mailbox, power, heat, fencing and errors (O59): what the device's own writes of DEVST and PORTST leave, and what
each of these steps does under its condition (01 R13, R26; 16 R396; 18 R422 to R432). -/
namespace Sys2Proof.Machine

/-- The numbers of a run. -/
theorem mem_span {lo n i : Nat} : i ∈ span lo n ↔ lo ≤ i ∧ i < lo + n := by
  refine ⟨span_lt, fun h => ?_⟩
  induction n generalizing lo with
  | zero => omega
  | succ n ih =>
    rw [span, List.mem_cons]
    by_cases e : i = lo
    · exact .inl e
    · exact .inr (ih (by omega))

/-- A value other than 0 reads back at its address from any store, in canonical form or not. -/
theorem Sparse.get_set_of_ne_zero {w : Nat} {v : BitVec w} (hv : v ≠ 0) (m : Sparse w) (a : Nat) : (m.set a v).get a = v := by
  induction m with
  | nil =>
    rw [Sparse.set, if_neg hv]
    exact if_pos rfl
  | cons p t ih =>
    obtain ⟨k, x⟩ := p
    unfold Sparse.set
    split
    · simp [Sparse.get]
    · split
      · simp [Sparse.get]
      · rename_i h
        simpa [Sparse.get, Ne.symm h] using ih

/-- Several addresses written with one value other than 0. -/
theorem Sparse.get_foldl_set {w : Nat} {v : BitVec w} (hv : v ≠ 0) (l : List Nat) (m : Sparse w) (a : Nat) :
    (l.foldl (fun m p => m.set p v) m).get a = if a ∈ l then v else m.get a := by
  induction l generalizing m with
  | nil => rfl
  | cons p t ih =>
    rw [List.foldl_cons, ih]
    by_cases ht : a ∈ t
    · rw [if_pos ht, if_pos (List.mem_cons_of_mem _ ht)]
    · by_cases e : a = p
      · subst e
        rw [if_neg ht, if_pos (List.mem_cons_self ..), Sparse.get_set_of_ne_zero hv]
      · rw [if_neg ht, if_neg (by simp [e, ht]), Sparse.get_set_ne v e]

/-- An event whose meaning commits under a test that says when it can take place. -/
theorem State.event_of_test {s : State} {i : Instr} {on c : Prop} [Decidable c] {es : List Effect} (hc : c ↔ on)
    (h : exec i s = if c then commit s es else commit s []) : s.Event i on es :=
  ⟨fun o => h.trans (if_pos (hc.mpr o)), fun o => h.trans (if_neg fun x => o (hc.mp x))⟩

/-- An event whose meaning commits past a test that says when it cannot take place. -/
theorem State.event_of_guard {s : State} {i : Instr} {on c : Prop} [Decidable c] {es : List Effect} (hc : c ↔ ¬on)
    (h : exec i s = if c then commit s [] else commit s es) : s.Event i on es :=
  ⟨fun o => h.trans (if_neg fun x => hc.mp x o), fun o => h.trans (if_pos (hc.mpr o))⟩

/-- Two runs of stages in sequence. -/
theorem applyAll_chain_append (s : State) (fs gs : List (State → List Effect)) :
    applyAll (chain s (fs ++ gs)) s = applyAll (chain (applyAll (chain s fs) s) gs) (applyAll (chain s fs) s) := by
  induction fs generalizing s with
  | nil => rfl
  | cons f t ih => rw [List.cons_append, applyAll_chain, applyAll_chain, ih]

/-! DEVST and PORTST as the device writes them. -/

@[simp] theorem applyAll_setDev_devst (st cause : Nat) (s : State) :
    (applyAll (setDev st cause s) s).mgmt.devst = word (cause * 256 + st) := by
  unfold setDev
  split <;> rfl

@[simp] theorem applyAll_setDev_portst (st cause : Nat) (s : State) :
    (applyAll (setDev st cause s) s).mgmt.portst = s.mgmt.portst := by
  unfold setDev
  split <;> rfl

/-- A run of ports written alike changes PORTST only. -/
theorem applyAll_chain_setPort (trains err st : Nat) (l : List Nat) (s : State) :
    applyAll (chain s (l.map fun p => setPort p trains err st)) s = { s with mgmt := { s.mgmt with
      portst := l.foldl (fun m p => m.set p (word (trains * 65536 + err * 256 + st))) s.mgmt.portst } } := by
  induction l generalizing s with
  | nil => rfl
  | cons p t ih =>
    rw [List.map_cons, applyAll_chain, ih]
    rfl

/-- Vilvon begins the training of the units (R424, R426). -/
def startTraining (s : State) : List Effect :=
  [.vil { s.vil with
    sliceClk := List.replicate 192 20, reports := [], keys := false
    training := trainees.filter fun u => !s.isFenced u.kind u.die u.n }]

/-- STATE 1, then 2 (R423). -/
def afterBoot (s : State) : State := applyAll (chain s [setDev 1 0, setDev 2 0]) s

/-- The ports whose training reduced service begins. -/
def idlePorts (s : State) : List Nat := (span 0 Config.planes).filter fun p => portState (s.mgmt.portst.get p).toNat == 0

theorem afterBoot_eq (s : State) :
    afterBoot s = applyAll (setDev 2 0 (applyAll (setDev 1 0 s) s)) (applyAll (setDev 1 0 s) s) := by
  rw [afterBoot, applyAll_chain, applyAll_chain, chain, applyAll_nil]

theorem afterBoot_devst (s : State) : (afterBoot s).mgmt.devst = 2 := by
  rw [afterBoot_eq, applyAll_setDev_devst]
  rfl

theorem afterBoot_portst (s : State) : (afterBoot s).mgmt.portst = s.mgmt.portst := by
  rw [afterBoot_eq, applyAll_setDev_portst, applyAll_setDev_portst]

/-- The stages of reduced service. -/
theorem reducedService_eq (s : State) : reducedService s =
    chain s ([setDev 1 0, setDev 2 0] ++ startTraining :: (idlePorts s).map fun p => setPort p 1 0 1) := rfl

theorem applyAll_startTraining (s : State) : applyAll (startTraining s) s = { s with vil := { s.vil with
    sliceClk := List.replicate 192 20, reports := [], keys := false
    training := trainees.filter fun u => !s.isFenced u.kind u.die u.n } } := rfl

theorem applyAll_reducedService (s : State) :
    let t := applyAll (startTraining (afterBoot s)) (afterBoot s)
    applyAll (reducedService s) s = { t with mgmt := { t.mgmt with
      portst := (idlePorts s).foldl (fun m p => m.set p 0x10001#32) t.mgmt.portst } } := by
  rw [reducedService_eq, applyAll_chain_append, applyAll_chain, applyAll_chain_setPort]
  rfl

/-- A port is trained at the start of reduced service where it is idle (R337, R424). -/
theorem reducedService_portst (s : State) {p : Nat} (hp : p < 96) :
    (applyAll (reducedService s) s).mgmt.portst.get p =
      if portState (s.mgmt.portst.get p).toNat = 0 then 0x10001#32 else s.mgmt.portst.get p := by
  have hidle : p ∈ idlePorts s ↔ portState (s.mgmt.portst.get p).toNat = 0 := by
    simp [idlePorts, mem_span, Config.planes, hp]
  rw [applyAll_reducedService, Sparse.get_foldl_set (by decide), applyAll_startTraining, afterBoot_portst]
  simp only [hidle]

/-- Reduced service (R424, R426): STATE 2, no key or report, every slice at 1.0 GHz, every idle port in training. -/
theorem reducedService_begins (s : State) :
    let t := applyAll (reducedService s) s
    t.devState = 2 ∧ t.vil.keys = false ∧ t.vil.reports = [] ∧ t.vil.sliceClk = List.replicate 192 20 ∧
      ∀ p, p < 96 → (t.mgmt.portst.get p) =
        (if portState (s.mgmt.portst.get p).toNat = 0 then 0x10001#32 else s.mgmt.portst.get p) := by
  refine ⟨?_, ?_, ?_, ?_, fun p hp => reducedService_portst s hp⟩
  · rw [applyAll_reducedService, applyAll_startTraining, State.devState, afterBoot_devst]
    rfl
  all_goals rw [applyAll_reducedService, applyAll_startTraining]

/-! Reset and the images (R422, R423). -/

theorem exec_deviceReset (pass : Nat) (s : State) : exec (.deviceReset pass) s = execDeviceReset pass s := rfl
theorem exec_mailboxImage (step : Nat) (i : BootImage) (s : State) :
    exec (.mailboxImage step i) s = execMailboxImage step i s := rfl

/-- The step at which an image fails: the version is looked at only where no step before it failed. -/
theorem failsAt_admitted {s : State} {v : Nat} (h : s.vil.svn ≤ v) : s.failsAt 0 v = 0 := by
  simp [State.failsAt, Nat.not_lt.mpr h]

theorem failsAt_below {s : State} {v : Nat} (h : v < s.vil.svn) : s.failsAt 0 v = 3 := by
  simp [State.failsAt, h]

theorem failsAt_of_ne_zero (s : State) {step : Nat} (h : step ≠ 0) (v : Nat) : s.failsAt step v = step := by
  simp [State.failsAt, h]

/-- A reset whose image passes every step. -/
theorem deviceReset_serves {s : State} {pass : Nat} (hp : pass ≤ 3) (h : s.failsAt pass s.vil.image.version = 0) :
    s.Commits (.deviceReset pass) (.wipe :: reducedService (applyAll [.wipe] s)) := by
  rw [State.Commits, exec_deviceReset, execDeviceReset, if_neg (Nat.not_lt.mpr hp)]
  simp only [h, if_true, chain, List.append_nil]
  rfl

/-- A reset whose image fails at a step. -/
theorem deviceReset_recovers {s : State} {pass step : Nat} (hp : pass ≤ 3) (h : s.failsAt pass s.vil.image.version = step)
    (h0 : step ≠ 0) : s.Commits (.deviceReset pass) (.wipe :: setDev 4 step (applyAll [.wipe] s)) := by
  rw [State.Commits, exec_deviceReset, execDeviceReset, if_neg (Nat.not_lt.mpr hp)]
  simp only [h, h0, if_false, chain, List.append_nil]
  rfl

/-- An image taken in recovery that passes every step. -/
theorem mailboxImage_boots {s : State} {a : Nat} {i : BootImage} (hst : s.devState = 4) (ha : a ≤ 3)
    (h : s.failsAt a i.version = 0) :
    s.Commits (.mailboxImage a i) (chain s [fun s => [.vil { s.vil with image := i }], reducedService]) := by
  rw [State.Commits, exec_mailboxImage, execMailboxImage, if_neg (by simp [hst, ha])]
  simp only [h, if_true]
  rfl

/-- An image taken in recovery that fails at a step. -/
theorem mailboxImage_fails {s : State} {a step : Nat} {i : BootImage} (hst : s.devState = 4) (ha : a ≤ 3)
    (h : s.failsAt a i.version = step) (h0 : step ≠ 0) : s.Commits (.mailboxImage a i) (setDev 4 step s) := by
  rw [State.Commits, exec_mailboxImage, execMailboxImage, if_neg (by simp [hst, ha])]
  simp only [h, h0, if_false]
  rfl

/-! Full service and the mailbox's commands (R422, R424 to R426). -/

theorem exec_enterFullService (s : State) : exec .enterFullService s = execEnterFullService s := rfl
theorem exec_mailboxAttest (nonce : List Byte) (s : State) : exec (.mailboxAttest nonce) s = execMailboxAttest nonce s := rfl
theorem exec_mailboxRaiseSvn (v : Nat) (s : State) : exec (.mailboxRaiseSvn v) s = execMailboxRaiseSvn v s := rfl
theorem exec_keyInstall (s : State) : exec .keyInstall s = execKeyInstall s := rfl

theorem allTrained_iff (s : State) : s.allTrained = true ↔
    (∀ u ∈ s.vil.training, s.isFenced u.kind u.die u.n = true) ∧
      ∀ p, p < 96 → 3 ≤ portState (s.mgmt.portst.get p).toNat ∨ s.isFenced 5 (p / 48) p = true := by
  simp [State.allTrained, mem_span, Config.planes]

theorem vilvonUp_iff (s : State) : s.vilvonUp = true ↔ s.devState = 2 ∨ s.devState = 3 := by simp [State.vilvonUp]

theorem enterFullService_serves {s : State} (hst : s.devState = 2) (ht : s.allTrained = true) (h0 : s.dieServes 0 = true)
    (h1 : s.dieServes 1 = true) : s.Commits .enterFullService (chain s ([setDev 3 0] ++
      ((span 0 2).map fun d => fun (s : State) => if (s.mgmt.slcfg.getD d 0).getLsbD 0 then applySplit d s else []) ++
      s.vil.held.map validate ++ [fun s => [.vil { s.vil with held := [] }]])) := by
  rw [State.Commits, exec_enterFullService, execEnterFullService, if_neg (by simp [hst, ht]), if_neg (by simp [h0, h1])]
  rfl

theorem enterFullService_recovers {s : State} (hst : s.devState = 2) (ht : s.allTrained = true)
    (h : ¬(s.dieServes 0 = true ∧ s.dieServes 1 = true)) :
    s.Commits .enterFullService (chain s [setDev 4 0, fun s => [.vil { s.vil with keys := false }]]) := by
  rw [State.Commits, exec_enterFullService, execEnterFullService, if_neg (by simp [hst, ht]), if_pos (by simpa [imp_iff_not_or] using h)]
  rfl

theorem mailboxAttest_event (s : State) (nonce : List Byte) :
    s.Event (.mailboxAttest nonce) ((s.devState = 2 ∨ s.devState = 3) ∧ nonce.length = 32) [.vil { s.vil with
      reports := s.vil.reports ++ [Config.attestation nonce s.chip s.vil.svn s.vil.image.digest
        (s.vil.fenced.map fun f => (f.kind, f.die, f.n))] }] := by
  refine State.event_of_guard ?_ (exec_mailboxAttest nonce s)
  simp [← vilvonUp_iff, imp_iff_not_or]

theorem mailboxRaiseSvn_event (s : State) (v : Nat) : s.Event (.mailboxRaiseSvn v) (s.devState = 2 ∨ s.devState = 3)
    [.vil { s.vil with svn := max s.vil.svn v }] :=
  State.event_of_test (vilvonUp_iff s) (exec_mailboxRaiseSvn v s)

theorem keyInstall_event (s : State) : s.Event .keyInstall ((s.devState = 2 ∨ s.devState = 3) ∧ s.vil.reports ≠ [])
    [.vil { s.vil with keys := true }] := by
  refine State.event_of_test ?_ (exec_keyInstall s)
  simp only [Bool.and_eq_true, vilvonUp_iff, Bool.not_eq_true', List.isEmpty_eq_false_iff]

/-! Power and heat (R429 to R431). -/

theorem exec_powerInterval (s : State) : exec .powerInterval s = execPowerInterval s := rfl
theorem exec_thermalTrip (s : State) : exec .thermalTrip s = execThermalTrip s := rfl
theorem exec_thermalRecover (thr : Nat) (s : State) : exec (.thermalRecover thr) s = execThermalRecover thr s := rfl

/-- Outside full service a power interval changes nothing. -/
theorem powerInterval_idle {s : State} (h : s.devState ≠ 3) : s.Commits .powerInterval [] := by
  rw [State.Commits, exec_powerInterval, execPowerInterval, if_pos h]
  rfl

/-- The frequencies within REQ, the caps and the power limit (R430). -/
def State.admittedClocks (s : State) : List Nat :=
  underLimit (fun l => Config.packagePower s.fresh l s.sliceClocks) (min 2200 s.mgmt.plim.toNat) 336
    (s.mgmt.clkctl.map fun x => min (clkReq x) s.capCur)

/-- A power interval in full service that journals nothing: its frequencies are new, or the journal holds them. -/
theorem powerInterval_unjournalled {s : State} (hst : s.devState = 3)
    (h : s.mgmt.clkctl.map clkCur ≠ s.admittedClocks ∨ s.admittedClocks = s.vil.journalled) :
    s.Commits .powerInterval [.mgmt { s.mgmt with clkctl := List.zipWith withCur s.mgmt.clkctl s.admittedClocks },
      .vil { s.vil with sliceClk := s.sliceClocks }] := by
  have hlasted : (decide (s.admittedClocks = s.mgmt.clkctl.map clkCur) &&
      decide (s.mgmt.clkctl.map clkCur ≠ s.vil.journalled)) = false := by
    rw [Bool.and_eq_false_iff, decide_eq_false_iff_not, decide_eq_false_iff_not, not_not]
    by_cases e : s.admittedClocks = s.mgmt.clkctl.map clkCur
    · exact .inr (e ▸ h.resolve_left (not_not.mpr e.symm))
    · exact .inl e
  rw [State.admittedClocks] at hlasted ⊢
  rw [State.Commits, exec_powerInterval, execPowerInterval, if_neg (not_not.mpr hst)]
  simp only [hlasted]
  rfl

theorem thermalTrip_event (s : State) : s.Event .thermalTrip (bit s.vil.cap 1 = true)
    (chain s [fun s => journal s 8 0 (pack [(0, 8, 3)]), fun _ => [.wipe], setDev 4 4]) :=
  State.event_of_guard (by simp) (exec_thermalTrip s)

theorem thermalRecover_both (s : State) : s.Event (.thermalRecover 105) (s.vil.cap ≠ 0) (thermal 4 0 s) :=
  State.event_of_test (by simp) (exec_thermalRecover 105 s)

theorem thermalRecover_emergency (s : State) :
    s.Event (.thermalRecover 110) (bit s.vil.cap 1 = true) (thermal 4 (s.vil.cap % 2) s) :=
  State.event_of_test (by simp) (exec_thermalRecover 110 s)

/-! Fencing and errors (R26, R396). -/

theorem exec_unitFence (kind die n : Nat) (s : State) : exec (.unitFence kind die n) s = execUnitFence kind die n s := rfl
theorem exec_eccError (kind a b : Nat) (s : State) : exec (.eccError kind a b) s = execEccError kind a b s := rfl

theorem unitFence_event (s : State) (kind die n : Nat) :
    s.Event (.unitFence kind die n) (s.isFenced kind die n = false ∧ isUnit kind die n = true) (chain s (
      [fenceUnit kind die n 0, loseSnaps kind die n] ++
      (if kind = 2 then (span (16 * n) 16).map fun c => fenceUnit 0 die c 0 else []) ++
      (if kind = 1 then [loseBuffers (96 * die + n)] else []) ++
      (if kind = 5 then [fun s => portGone n (bits (s.mgmt.portst.get n).toNat 15 8) s] else []) ++
      (s.domainsOn kind die n).map (endAs 0x12))) := by
  refine State.event_of_guard ?_ (exec_unitFence kind die n s)
  simp [imp_iff_not_or]

theorem eccError_shared (s : State) (a b : Nat) :
    s.Event (.eccError 2 a b) ((find s.blocks a).isSome = true) [.shPoison a (b / 32) true] := State.event_of_test Iff.rfl rfl

theorem eccError_tile (s : State) (a b : Nat) :
    s.Event (.eccError 3 a b) ((find s.blocks a).isSome = true) [.tilePoison a b true] := State.event_of_test Iff.rfl rfl

theorem eccError_register {s : State} {a b : Nat} (hr : s.runs a = true) (hc : ((s.ctl a).slice b).inClause = true)
    (hl : bit (liveSlices (s.warp a)) b = true) :
    s.Commits (.eccError 4 a b) (raise s a ((⟨s, a, s.gangOf a b, s.warp a⟩ : Issue).fill true { code := 0x12 })) := by
  rw [State.Commits, exec_eccError]
  simp only [execEccError, hr, hc, hl, Bool.and_self, if_true]
  rfl

/-- Settles O59: the state that reduced service begins in, and each step of the device under its condition; a step without a
condition commits its effects by its meaning. -/
theorem housekeepingStepsTakePlace : Obligations.HousekeepingStepsTakePlace := by
  intro s n a b v st m wiped
  refine ⟨rfl, fun h => deviceReset_serves (by decide) (failsAt_admitted h),
    fun h => deviceReset_recovers (by decide) (failsAt_below h) (by decide), fun step h => ?_, reducedService_begins s,
    fun cause => applyAll_setDev_devst v cause s,
    fun hst ht => ⟨enterFullService_serves hst ht, enterFullService_recovers hst ht⟩, allTrained_iff s,
    fun i hst ha => ⟨fun h0 h => ?_, fun h0 h => ?_, fun h0 => mailboxImage_fails hst ha (failsAt_of_ne_zero s h0 _) h0⟩,
    mailboxAttest_event s, mailboxRaiseSvn_event s v, keyInstall_event s, rfl, rfl, rfl, powerInterval_idle,
    powerInterval_unjournalled, rfl, rfl, thermalTrip_event s, thermalRecover_both s, thermalRecover_emergency s,
    fun hst code cap => if_pos hst, unitFence_event s n a b, rfl, eccError_shared s a b, eccError_tile s a b,
    eccError_register⟩
  · have hfails : ∀ k ∈ [1, 2, 3], k ≠ 0 ∧ k ≤ 3 := by decide
    obtain ⟨h0, h3⟩ := hfails step h
    exact deviceReset_recovers h3 (failsAt_of_ne_zero s h0 _) h0
  · subst h0
    exact mailboxImage_boots hst ha (failsAt_admitted h)
  · subst h0
    exact mailboxImage_fails hst ha (failsAt_below h) (by decide)

end Sys2Proof.Machine
end

section
/-! Every step keeps a sound state sound (O46): an instruction word is issued, an event commits effects, and both keep the
invariant by the laws of effects. -/
namespace Sys2Proof.Machine

/-- An outcome that commits some list of effects. -/
def State.CommitsSome (s : State) (o : Out) : Prop := ∃ es, o = commit s es

theorem commit_commitsSome (s : State) (es : List Effect) : s.CommitsSome (commit s es) := ⟨es, rfl⟩

theorem State.CommitsSome.ite {s : State} {c : Prop} [Decidable c] {a b : Out} (ha : s.CommitsSome a)
    (hb : s.CommitsSome b) : s.CommitsSome (if c then a else b) := by
  split <;> assumption

theorem release_commitsSome (k j : Nat) (isOver : Wait → Bool) (f : Flow) (es : Wait → State → List Effect) (s : State) :
    s.CommitsSome (release k j isOver f es s) := by
  unfold release
  dsimp only
  cases ((s.ctl k).slice j).wait with
  | none => exact commit_commitsSome ..
  | some w =>
    exact .ite (commit_commitsSome ..) (.ite (commit_commitsSome ..) (.ite (commit_commitsSome ..) (commit_commitsSome ..)))

theorem serve_commitsSome (k j bad off : Nat) (w : Wait) (es : State → List Effect) (s : State) :
    s.CommitsSome (serve k j bad off w es s) := .ite (commit_commitsSome ..) (release_commitsSome ..)

theorem queueStepServed_commitsSome (k sl : Nat) (s : State) : s.CommitsSome (execQueueStepServed k sl s) := by
  unfold execQueueStepServed
  dsimp only
  split
  · exact serve_commitsSome ..
  · exact serve_commitsSome ..
  · exact commit_commitsSome ..

theorem recordTake_commitsSome (ctx rcb : Nat) (s : State) : s.CommitsSome (execRecordTake ctx rcb s) := by
  unfold execRecordTake
  cases s.region? ctx rcb with
  | none => exact commit_commitsSome ..
  | some r =>
    refine .ite (commit_commitsSome ..) ?_
    cases s.firstReady r with
    | none => exact commit_commitsSome ..
    | some x => exact commit_commitsSome ..

/-- Every event but an unassigned opcode commits effects: its meaning is a tree of tests, and each leaf of the tree commits. -/
theorem event_commits {i : Instr} (h : i.isEvent = true) (hw : ∀ w, i ≠ .unassignedOpcode w) (s : State) :
    s.CommitsSome (exec i s) := by
  cases i <;> cases h
  case unassignedOpcode w => exact absurd rfl (hw w)
  case barRelease | abwaitRelease | waitwRelease | waitcSatisfied => exact release_commitsSome ..
  case queueStepServed k sl => exact queueStepServed_commitsSome k sl s
  case recordTake ctx rcb => exact recordTake_commitsSome ctx rcb s
  all_goals dsimp only [exec]
  all_goals simp only [secured, execClauseStart, execFlagOpComplete, execStoreDrain, execRemoteReply,
    execRemoteRequest, execRemoteTimeout, execHostTimeout, execHostMemAccess, execParkDelayExpiry,
    execParkSaveComplete, execWarpRestore, execWarpActivate, execAgePromotion, execReservationExpire,
    execDeferredTrap, execHandlerEntry, execKernelFault, execMonitorFreeze, execFreezeSignal, execQueueWake,
    execQueueRecheck, execTreeReread, execBlockPlace, execSplitAdopt, execBlockEnd, execBlockSuspend,
    execPreemptDeadline, execContextBoundary, execRendFire, execGangForm, execXswapPair, execMrelPush,
    execMmaStart, execMmaComplete, execMmaReplay, execCopyStart, execCopyComplete, execPushOnLand,
    execMeterPeriod, execPageWalk, execPageMigration, execCopyOnWrite, execLinkTrainDone, execLinkDrop,
    execPlaneNotice, execPlaneChangeApply, execCollUnitStart, execCollUnitStep, execCollRetry, execCollAbort,
    execCollComplete, execCmbDispatchArrive, execCmbPutArrive, execCmbRowBytes, execCmbCancel, execCmbSlotGrant,
    execCmbSlotTimeout, execCmbRelease, execHelperForcedRelease, execCanaryArrive, execLocalCut, execDrainWrite,
    execPageRetire, execSnapcmdRollback, execSnapcmdAbort, execSnapcmdInvalid, execSnapringWrite, execSlcfgApply,
    execPreqGo, execPlaneenWrite, execClkctlWrite, execPlimWrite, execContextValidSet, execContextValidClear,
    execRegisterWrite, execDeviceReset, execEnterFullService, execMailboxImage, execMailboxAttest,
    execMailboxRaiseSvn, execPowerInterval, execThermalCap, execThermalEmergency, execThermalTrip,
    execThermalRecover, execUnitFence, execEccError, execHostSnoop, execRemoteAck, execBadPacket,
    execUndeliverableReport, execKeyInstall]
  all_goals repeat' first | with_reducible exact commit_commitsSome _ _ | split

/-- Every instruction word is issued: its checks, its meaning, then what follows the word. -/
theorem word_issues {i : Instr} (h : i.isEvent = false) (s : State) : ∃ chk body, exec i s = issue chk body s := by
  cases i <;> cases h
  all_goals dsimp only [exec]
  all_goals simp only [execSmov, execSadd, execSsub, execSmul, execSmulh, execSand, execSor, execSxor, execSshl,
    execSshr, execSsar, execSmin, execSmax, execScmp, execSsel, execSbfe, execSbfi, execSpopc, execSclz,
    execSaddp, execSld, execSst, execLdc, execGetid, execBra, execBrc, execBrzm, execBrnzm, execJmp, execCall,
    execRet, execExit, execNop, execMode, execPart, execRegang, execYield, execWaitw, execFork, execRend,
    execMand, execMor, execMxor, execMandn, execMnot, execMmov, execMpopc, execMffs, execMset, execMget,
    execAddVv, execAddVs, execAddcVv, execAddcVs, execSubVv, execSubVs, execSubbVv, execSubbVs, execMulVv,
    execMulVs, execMulhVv, execMulhVs, execMadVv, execMadVs, execAbsdVv, execAbsdVs, execMinVv, execMinVs,
    execMaxVv, execMaxVs, execAndVv, execAndVs, execOrVv, execOrVs, execXorVv, execXorVs, execShlVv, execShlVs,
    execShrVv, execShrVs, execSarVv, execSarVs, execBfeVv, execBfeVs, execBfiVv, execBfiVs, execPopcVv,
    execPopcVs, execClzVv, execClzVs, execBrevVv, execBrevVs, execPrmtVv, execPrmtVs, execSelVv, execSelVs,
    execCmpVv, execCmpVs, execCvtiVv, execCvtiVs, execMovVv, execMovVs, execDp4Vv, execDp4Vs, execFaddVv,
    execFaddVs, execFsubVv, execFsubVs, execFmulVv, execFmulVs, execFfmaVv, execFfmaVs, execFminVv, execFminVs,
    execFmaxVv, execFmaxVs, execFminnmVv, execFminnmVs, execFmaxnmVv, execFmaxnmVs, execFcmpVv, execFcmpVs,
    execFclassVv, execFclassVs, execFscaleVv, execFscaleVs, execFgetxVv, execFgetxVs, execFrndVv, execFrndVs,
    execFtoiVv, execFtoiVs, execItofVv, execItofVs, execFcvtVv, execFcvtVs, execFpackVv, execFpackVs,
    execFunpackVv, execFunpackVs, execFdot2Vv, execFdot2Vs, execRcp, execRsq, execSqrt, execExp2, execLog2,
    execSinpi, execCospi, execTanh, execShfl, execShflup, execShfldn, execShflx, execVote, execBallot,
    execRedlane, execXswap, execLd, execSt, execLds, execSts, execPref, execLdrsv, execStcnd, execCctlCinv,
    execCctlEvl1, execCctlWbl2, execCctlEvl1all, execIcinv, execAtom, execAtoms, execRed, execBar, execBara,
    execAbinit, execAbarr, execAbwait, execFence, execWaitc, execQinit, execQpush, execQpop, execQtrypush,
    execQtrypop, execGset, execGclr, execCpld, execCpst, execCpmc, execCpga, execCpsc, execCpfl, execCprm,
    execCppf, execMma, execMmax, execMrel, execTld, execTst, execTzero, execRecruit, execHidx, execHrd, execHred,
    execHend, execHjoin, execDismiss, execColl, execCollq, execCmbcfg, execCmbdisp, execCmbput, execCmbwait,
    execCmbq, execCmbdrain, execTrap, execBrk, execSrd, execSwr, execSret, execTlbinv, execPtwr, execLaunch,
    execJoin, execSnap, execSnapq, scalarOp, maskOp, intOp, patOp, vecOp, lanewise, mulh, absd, dp4, carryOp, shl,
    shr, bfe, bfi, bitsOp, prmt, sel, cmpOp, cvti, convert, farith, fminmax, fcmp, fclass, fscale, fgetx, frnd,
    fconvert, floatOp, floatOne, fpack, funpack, fdot2, sfu, shuffle, cctlRange, arrive, queueWord, copyCommand,
    matrixOp, tileWord]
  all_goals exact ⟨_, _, rfl⟩

theorem unassignedOpcode_issues (w : Nat) (s : State) : ∃ chk body, exec (.unassignedOpcode w) s = issue chk body s := by
  dsimp only [exec, execUnassignedOpcode]
  exact ⟨_, _, rfl⟩

/-- An outcome that keeps a sound state sound: if it answers a next state, that state is sound. -/
def State.KeepsSound (s : State) (o : Out) : Prop := ∀ t, s.Inv → o = .next t → t.Inv

theorem commit_keepsSound (s : State) (es : List Effect) : s.KeepsSound (commit s es) := fun _ h e => commit_inv es h e

/-- An instruction word or an event keeps a sound state sound. -/
theorem exec_keepsSound (i : Instr) (s : State) : s.KeepsSound (exec i s) := by
  intro t h e
  have of_issue : (∃ chk body, exec i s = issue chk body s) → t.Inv := fun ⟨_, _, hi⟩ => issue_inv h (hi.symm.trans e)
  cases he : i.isEvent with
  | false => exact of_issue (word_issues he s)
  | true =>
    by_cases hw : ∃ w, i = .unassignedOpcode w
    · obtain ⟨w, rfl⟩ := hw
      exact of_issue (unassignedOpcode_issues w s)
    · obtain ⟨es, hc⟩ := event_commits he (not_exists.mp hw) s
      exact commit_inv es h (hc.symm.trans e)

/-- A slice's turn keeps a sound state sound: who issues is no part of the invariant. -/
theorem issueStep_keepsSound (k j : Nat) (s : State) : s.KeepsSound (issueStep k j s) := by
  intro t h e
  let s1 := { s with cur := k, slices := s.gangOf k j }
  unfold issueStep at e
  split at e
  · exact exec_keepsSound (.clauseStart k j) s t h e
  split at e
  · exact commit_inv _ h e
  dsimp only at e
  split at e
  · exact exec_keepsSound _ s1 t h e
  · exact exec_keepsSound (.unassignedOpcode _) s1 t h e

/-- A named move keeps a sound state sound. -/
theorem runMove_keepsSound (m : Move) (s : State) : s.KeepsSound (runMove m s) := by
  cases m with
  | issue k j => exact issueStep_keepsSound k j s
  | event i =>
    rw [runMove]
    split
    · exact exec_keepsSound i s
    · exact fun t _ e => nomatch e

/-- Steps each of which keeps a sound state sound. -/
def State.AllKeepSound (s : State) (l : List (State → Out)) : Prop := ∀ f ∈ l, s.KeepsSound (f s)

/-- The first step of a list that can take place is one of the list, or nothing happens. -/
theorem firstOf_keepsSound {s : State} {l : List (State → Out)} (h : s.AllKeepSound l) : s.KeepsSound (firstOf s l) := by
  induction l with
  | nil => exact commit_keepsSound s []
  | cons f l ih =>
    rw [firstOf]
    split
    · exact ih fun g hg => h g (List.mem_cons_of_mem _ hg)
    · exact h f (List.mem_cons_self ..)

namespace State.AllKeepSound
variable {s : State} {l m : List (State → Out)} {α : Type} {as : List α}

theorem nil : s.AllKeepSound [] := fun _ h => nomatch h

theorem cons {f : State → Out} (hf : s.KeepsSound (f s)) (h : s.AllKeepSound l) : s.AllKeepSound (f :: l) :=
  List.forall_mem_cons.mpr ⟨hf, h⟩

theorem append (h : s.AllKeepSound l) (g : s.AllKeepSound m) : s.AllKeepSound (l ++ m) :=
  List.forall_mem_append.mpr ⟨h, g⟩

theorem map {f : α → State → Out} (h : ∀ a, s.KeepsSound (f a s)) : s.AllKeepSound (as.map f) :=
  List.forall_mem_map.mpr fun a _ => h a

theorem flatMap {f : α → List (State → Out)} (h : ∀ a, s.AllKeepSound (f a)) : s.AllKeepSound (as.flatMap f) := by
  intro g hg
  obtain ⟨a, -, ha⟩ := List.mem_flatMap.mp hg
  exact h a g ha

theorem perSlice {f : Nat → Nat → State → Out} (h : ∀ k j, s.KeepsSound (f k j s)) : s.AllKeepSound (s.perSlice f) :=
  flatMap fun k => map (h k)

end State.AllKeepSound

open State.AllKeepSound

theorem trapSteps_keepSound (s : State) : s.AllKeepSound (trapSteps s) :=
  append (append
    (flatMap fun k => cons (exec_keepsSound (.handlerEntry k) s) (cons (exec_keepsSound (.kernelFault k) s) nil))
    (map fun x => exec_keepsSound (.freezeSignal x.1 x.2.1 (1 - x.2.2)) s))
    (perSlice fun k j => exec_keepsSound (.deferredTrap k j) s)

theorem copySteps_keepSound (id : Nat) (s : State) :
    s.AllKeepSound [execCopyStart id, execPushOnLand id, execCopyComplete id] :=
  cons (exec_keepsSound (.copyStart id) s) (cons (exec_keepsSound (.pushOnLand id) s)
    (cons (exec_keepsSound (.copyComplete id) s) nil))

theorem matrixSteps_keepSound (id : Nat) (s : State) :
    s.AllKeepSound [execMmaStart id, execMmaComplete id, execMrelPush id] :=
  cons (exec_keepsSound (.mmaStart id) s) (cons (exec_keepsSound (.mmaComplete id) s)
    (cons (exec_keepsSound (.mrelPush id) s) nil))

theorem combineSteps_keepSound (id : Nat) (s : State) :
    s.AllKeepSound [execCmbDispatchArrive id, execCmbPutArrive id, execCmbSlotGrant id] :=
  cons (exec_keepsSound (.cmbDispatchArrive id) s) (cons (exec_keepsSound (.cmbPutArrive id) s)
    (cons (exec_keepsSound (.cmbSlotGrant id) s) nil))

theorem engineSteps_keepSound (s : State) : s.AllKeepSound (engineSteps s) := by
  unfold engineSteps
  refine append (append (append (append (append (append (append (append (append (append (append
    ?stores ?flagOps) ?swaps) ?copies) ?matrices) ?collectives) ?units) ?requests) ?releases) ?drains) ?retires) ?rest
  case stores => exact map fun k => exec_keepsSound (.storeDrain k) s
  case flagOps => exact flatMap fun k => map fun o => exec_keepsSound (.flagOpComplete k o.id) s
  case swaps => exact map fun k => exec_keepsSound (.xswapPair k) s
  case copies => exact flatMap fun c => copySteps_keepSound c.id s
  case matrices => exact flatMap fun m => matrixSteps_keepSound m.id s
  case collectives =>
    exact flatMap fun c => append
      (map fun u => exec_keepsSound (.collRetry c.id u.1 u.2.1 ⟨u.2.2, 0, ⟨s.chip, 0, 0⟩⟩) s)
      (cons (exec_keepsSound (.collUnitStart c.id) s) (cons (exec_keepsSound (.collComplete c.id) s) nil))
  case units => exact map fun q => exec_keepsSound (.collUnitStep q) s
  case requests => exact flatMap fun q => combineSteps_keepSound q.id s
  case releases => exact flatMap fun x => map fun y => exec_keepsSound (.cmbRelease x.ctx x.buf y.tok) s
  case drains => exact map fun p => exec_keepsSound (.drainWrite p.page) s
  case retires => exact map fun p => exec_keepsSound (.pageRetire p.page) s
  case rest =>
    exact cons (exec_keepsSound (.drainWrite 0) s) (cons (exec_keepsSound .localCut s)
      (cons (exec_keepsSound .planeChangeApply s) nil))

theorem waitSteps_keepSound (s : State) : s.AllKeepSound (waitSteps s) := by
  unfold waitSteps
  refine append (append (append (append (append (append (append (append
    ?queues ?barriers) ?objects) ?words) ?counters) ?reservations) ?rends) ?gangs) ?helpers
  case queues => exact perSlice fun k j => exec_keepsSound (.queueStepServed k j) s
  case barriers => exact perSlice fun k j => exec_keepsSound (.barRelease k j) s
  case objects => exact perSlice fun k j => exec_keepsSound (.abwaitRelease k j) s
  case words => exact perSlice fun k j => exec_keepsSound (.waitwRelease k j) s
  case counters => exact perSlice fun k j => exec_keepsSound (.waitcSatisfied k j) s
  case reservations => exact perSlice fun k j => exec_keepsSound (.reservationExpire k j) s
  case rends => exact map fun p => exec_keepsSound (.rendFire p.1) s
  case gangs => exact map fun k => exec_keepsSound (.gangForm k) s
  case helpers => exact map fun k => exec_keepsSound (.helperForcedRelease k) s

theorem placeSteps_keepSound (s : State) : s.AllKeepSound (placeSteps s) := by
  unfold placeSteps
  refine append (append (append (append (append (append (append
    ?saves ?restores) ?ends) ?wakes) ?takes) ?places) ?splits) ?boundaries
  case saves => exact map fun k => exec_keepsSound (.parkSaveComplete k) s
  case restores => exact map fun p => exec_keepsSound (.warpRestore p.1) s
  case ends =>
    exact flatMap fun p => cons (exec_keepsSound (.blockEnd p.1) s) (cons (exec_keepsSound (.blockSuspend p.1) s) nil)
  case wakes => exact map fun x => exec_keepsSound (.queueWake x.1 x.2) s
  case takes => exact map fun x => exec_keepsSound (.recordTake x.1 x.2) s
  case places => exact map fun p => exec_keepsSound (.blockPlace p.1) s
  case splits => exact map fun p => exec_keepsSound (.splitAdopt p.1) s
  case boundaries =>
    exact cons (exec_keepsSound (.contextBoundary 0) s) (cons (exec_keepsSound (.contextBoundary 1) s) nil)

theorem issueSteps_keepSound (s : State) : s.AllKeepSound (issueSteps s) := by
  unfold issueSteps
  refine append (append (append ?activations ?promotions) ?issues) ?parks
  case activations => exact map fun k => exec_keepsSound (.warpActivate k) s
  case promotions =>
    split
    · exact map fun k => exec_keepsSound (.agePromotion k) s
    · exact nil
  case issues => exact perSlice fun k j => issueStep_keepsSound k j s
  case parks => exact map fun k => exec_keepsSound (.parkDelayExpiry k) s

theorem defaultSteps_keepSound (s : State) : s.AllKeepSound (defaultSteps s) :=
  append (append (append (append (trapSteps_keepSound s) (engineSteps_keepSound s)) (waitSteps_keepSound s))
    (placeSteps_keepSound s)) (issueSteps_keepSound s)

/-- The next step from a state keeps it sound: the moves still to come are no part of the invariant. -/
theorem stepFrom_keepsSound (s : State) : s.KeepsSound (stepFrom s) := by
  intro t h e
  unfold stepFrom at e
  split at e
  next _ i rest _ => exact exec_keepsSound i { s with todo := rest } t h e
  next m rest _ _ => exact runMove_keepsSound m { s with sched := rest } t h e
  next => exact firstOf_keepsSound (defaultSteps_keepSound s) t h e

/-- Settles O46: what comes about between two steps is effects, and the step itself is an instruction word or an event. -/
theorem everyStepKeepsStateSound : Obligations.EveryStepKeepsStateSound := by
  intro s t h e
  have hsettled : s.settled.Inv := applyAll_inv (between s) h
  exact stepFrom_keepsSound s.settled t hsettled e

end Sys2Proof.Machine
end

section
/-! The decoder's checks in their order (O42): when each of them fails, as the statement says it (R31, R311, R312). -/
namespace Sys2Proof.Machine

theorem Chk.illegal_iff (x : Chk) (I : Issue) : (!x.legal || (I.c.helper.isSome && !x.helperAdmits)) = true ↔
    ¬(x.legal = true ∧ (I.c.helper.isSome = true → x.helperAdmits = true)) := by
  cases x.legal <;> simp

theorem Chk.unprivileged_iff (x : Chk) (I : Issue) : ((x.priv || x.cls == .s) && !I.c.priv) = true ↔
    ¬(x.priv = true ∨ x.cls = .s → I.c.priv = true) := by
  simp

theorem Chk.overBudget_iff (x : Chk) (I : Issue) :
    (x.vs.any (fun r => I.c.vbudget ≤ r) || x.ss.any (fun n => I.c.sbudget ≤ n)
      || x.tiles.any (fun t => I.blk.img.tiles ≤ t)) = true ↔
    ¬((∀ r ∈ x.vs, r < I.c.vbudget) ∧ (∀ n ∈ x.ss, n < I.c.sbudget) ∧ ∀ t ∈ x.tiles, t < I.blk.img.tiles) := by
  simp [or_assoc, imp_iff_not_or]

/-- Settles O42: each check is made only where those before it pass, and what it raises is all that happens. -/
theorem theFirstFailingCheckTraps : Obligations.TheFirstFailingCheckTraps := by
  intro s w x body hw I raises legal role mode regs
  have traps : ∀ code, x.fault I = some code → raises code := fun _ hc => issue_refused hw hc
  have hlegal := x.illegal_iff I
  have hrole : (!x.cls.admits I.c.role (warpNo I.k)) = true ↔ ¬role := Bool.not_iff_not
  have hmode := x.unprivileged_iff I
  have hregs := x.overBudget_iff I
  refine ⟨fun h => traps _ ?_, fun h1 h => traps _ ?_, fun h1 h2 h => traps _ ?_, fun h1 h2 h3 h => traps _ ?_,
    fun h1 h2 h3 h4 h => traps _ ?_⟩
  · rw [Chk.fault, if_pos (hlegal.mpr h)]
  all_goals rw [Chk.fault, if_neg fun e => hlegal.mp e h1]
  · rw [if_pos (hrole.mpr h)]
  all_goals rw [if_neg fun e => hrole.mp e h2]
  · rw [if_pos (hmode.mpr h)]
  all_goals rw [if_neg fun e => hmode.mp e h3]
  · rw [if_pos (hregs.mpr h)]
  · rw [if_neg fun e => hregs.mp e h4, if_pos h]

end Sys2Proof.Machine
end

section
/-! The starting state of a warp (O44; R37): what creation puts at the warp's key, and how its registers read. -/
namespace Sys2Proof.Machine

theorem Warp.created_s (c : Ctl) (s0 s1 lanes : Word) (n : Nat) :
    (Warp.created c s0 s1 lanes).s.get n = if n = 0 then s0 else if n = 1 then s1 else 0 := by
  have h0 : (Sparse.set [] 0 s0).wf = true := Sparse.set_wf 0 s0 rfl
  unfold Warp.created
  dsimp only
  by_cases e1 : n = 1
  · rw [e1, Sparse.get_set_same 1 s1 h0]
    rfl
  · rw [Sparse.get_set_ne s1 e1, if_neg e1]
    split
    next e0 => rw [e0, Sparse.get_set_same 0 s0 rfl]
    next e0 => exact Sparse.get_set_ne s0 e0

theorem Warp.created_m (c : Ctl) (s0 s1 lanes : Word) (n : Nat) :
    (Warp.created c s0 s1 lanes).m.get n = if n = 0 ∨ n = 14 then lanes else 0 := by
  have h0 : (Sparse.set [] 0 lanes).wf = true := Sparse.set_wf 0 lanes rfl
  unfold Warp.created
  dsimp only
  by_cases e14 : n = 14
  · rw [e14, Sparse.get_set_same 14 lanes h0, if_pos (.inr rfl)]
  · rw [Sparse.get_set_ne lanes e14]
    by_cases e0 : n = 0
    · rw [e0, Sparse.get_set_same 0 lanes rfl, if_pos (.inl rfl)]
    · rw [if_neg (not_or.mpr ⟨e0, e14⟩)]
      exact Sparse.get_set_ne lanes e0

/-- The control state of a warp that has not begun: in user mode, whole, no helper, nothing in flight, and every slice at
one address without a reservation. -/
structure Ctl.StartsAt (c : Ctl) (pc : DWord) : Prop where
  priv : c.priv = false
  parted : c.parted = false
  helper : c.helper = none
  flagOps : c.flagOps = []
  outs : c.outs = []
  slices : ∀ x ∈ c.slices, x.resv = none ∧ x.pc = pc

theorem Warp.created_readS {c : Ctl} {pc : DWord} (h : c.StartsAt pc) (s0 s1 lanes : Word) (n : Nat) :
    (Warp.created c s0 s1 lanes).readS n = if n = 0 then s0 else if n = 1 then s1 else 0 := by
  have hp : (Warp.created c s0 s1 lanes).ctl.priv = false := h.priv
  rw [Warp.readS, hp, ← Warp.created_s c s0 s1 lanes]
  rfl

theorem Warp.created_readM {c : Ctl} {pc : DWord} (h : c.StartsAt pc) (s0 s1 lanes : Word) {n : Nat} (hn : n ≠ 15) :
    (Warp.created c s0 s1 lanes).readM n = if n = 0 ∨ n = 14 then lanes else 0 := by
  have hp : (Warp.created c s0 s1 lanes).ctl.priv = false := h.priv
  have hm : maskBits (Warp.created c s0 s1 lanes).ctl = BitVec.allOnes 32 := by
    rw [maskBits, show (Warp.created c s0 s1 lanes).ctl.helper = none from h.helper]
  rw [Warp.readM, if_neg hn, hp, Bool.and_false, if_neg Bool.false_ne_true, hm, BitVec.and_allOnes, Warp.created_m]

theorem Ctl.StartsAt.busy {c : Ctl} {pc : DWord} (h : c.StartsAt pc) (j : Nat) : c.busy j = 0 := by
  rw [Ctl.busy, h.flagOps]
  rfl

theorem Ctl.StartsAt.counter {c : Ctl} {pc : DWord} (h : c.StartsAt pc) (cls : Nat) : c.counter cls = 0 := by
  rw [Ctl.counter, h.outs]
  rfl

/-- What creation puts at the warp's key: the core's ready queue, where the warp may have to wait, is no part of it. -/
theorem createWarp_warp (s : State) (b n lanes : Nat) (pc slot : DWord) : ∃ c : Ctl, c.StartsAt pc ∧
    (applyAll (createWarp s b n pc lanes slot) s).warp (36 * b + n) =
      Warp.created c (word (s.blk b).args) (word ((s.blk b).args / 2 ^ 32)) (word lanes) := by
  unfold createWarp
  extract_lets x k r old free c
  refine ⟨c, ?starts, ?warp⟩
  case warp =>
    rw [applyAll_append]
    refine State.warp_of_find (Eq.trans ?_ (find_put_same s.warps k _))
    split <;> rfl
  case starts =>
    exact ⟨rfl, rfl, rfl, rfl, rfl, fun x hx => by rw [List.eq_of_mem_replicate hx]; exact ⟨rfl, rfl⟩⟩

/-- Settles O44: creation writes no register but s0, s1, m0 and m14, and its control state has nothing in flight. -/
theorem createdWarpsHoldTheirStartingState : Obligations.CreatedWarpsHoldTheirStartingState := by
  intro s b n lanes pc slot k w
  obtain ⟨c, hc, hw⟩ := createWarp_warp s b n lanes pc slot
  have hS := Warp.created_readS hc (word (s.blk b).args) (word ((s.blk b).args / 2 ^ 32)) (word lanes)
  have hM := fun n => Warp.created_readM (n := n) hc (word (s.blk b).args) (word ((s.blk b).args / 2 ^ 32)) (word lanes)
  rw [show w = _ from hw]
  refine ⟨fun _ _ => rfl, hS 0, hS 1, fun n h => ?_, hM 0 (by decide), hM 14 (by decide), fun n h0 h14 => ?_, hc.busy,
    hc.counter, hc.parted, hc.slices, rfl, hc.priv⟩
  · rw [hS, if_neg (by omega), if_neg (by omega)]
  · rw [hM n (by omega), if_neg (by omega)]

end Sys2Proof.Machine
end

section
/-! Reset (O43, O45): its registers and its soundness. -/
namespace Sys2Proof.Machine

/-- Settles O45: memory is in canonical form, and nothing else is listed. -/
theorem resetIsSound : Obligations.ResetIsSound :=
  ⟨reset_mem_wf, List.forall_mem_nil _, List.forall_mem_nil _, List.forall_mem_nil _⟩

/-- Settles O43: each value is that of the empty state; the clock registers are twelve of one value. -/
theorem resetLeavesTheResetValues : Obligations.ResetLeavesTheResetValues := by
  refine ⟨rfl, rfl, ?_, rfl, rfl, rfl, rfl, rfl, rfl, rfl, rfl, rfl, rfl, rfl, fun _ => rfl,
    fun _ => rfl, fun _ => rfl, rfl, fun _ => rfl, rfl, rfl, rfl, rfl, fun _ => rfl, fun _ => rfl⟩
  exact fun x hx => List.eq_of_mem_replicate hx

end Sys2Proof.Machine
end

section
/-! The work distributor, pre-emption and the progress monitor (O56): what each of their steps commits under its condition (02
R35, R36; 08 R180, R184; 10 R256 to R258; 16 R374, R377 to R384, R397 to R401). -/
namespace Sys2Proof.Machine

/-- An event whose meaning commits the effects of a test that says when it can take place. -/
theorem State.event_of_effects {s : State} {i : Instr} {on : Prop} [Decidable on] {es : List Effect}
    (h : exec i s = commit s (if on then es else [])) : s.Event i on es :=
  ⟨fun o => by rw [State.Commits, h, if_pos o]; rfl, fun o => by rw [State.Commits, h, if_neg o]; rfl⟩

/-! Queues, records and the region tree (R377 to R380). -/

theorem exec_queueWake (ctx rcb : Nat) (s : State) : exec (.queueWake ctx rcb) s = execQueueWake ctx rcb s := rfl
theorem exec_treeReread (ctx : Nat) (s : State) : exec (.treeReread ctx) s = execTreeReread ctx s := rfl
theorem exec_queueRecheck (ctx rcb : Nat) (s : State) : exec (.queueRecheck ctx rcb) s = execQueueRecheck ctx rcb s := rfl
theorem exec_recordTake (ctx rcb : Nat) (s : State) : exec (.recordTake ctx rcb) s = execRecordTake ctx rcb s := rfl

theorem queueWake_event (s : State) (ctx rcb : Nat) : s.Event (.queueWake ctx rcb) ((ctx, rcb) ∈ s.dist.woken)
    (if (s.ctxOf ctx).valid = true ∧ rcb = (s.ctxOf ctx).root.toNat then rereadTree ctx s else startReading ctx rcb s) := by
  refine State.event_of_guard (c := (!s.dist.woken.contains (ctx, rcb)) = true) (by simp) ?_
  rw [apply_ite (commit s), exec_queueWake, execQueueWake]
  simp only [Bool.and_eq_true, decide_eq_true_eq]

theorem treeReread_event (s : State) (ctx : Nat) : s.Event (.treeReread ctx)
    ((s.ctxOf ctx).valid = true ∧ (ctx, (s.ctxOf ctx).root.toNat) ∈ s.dist.woken) (rereadTree ctx s) :=
  State.event_of_test (by simp) (exec_treeReread ctx s)

theorem queueRecheck_event {s : State} {ctx rcb : Nat} {r : Rcb} (hr : s.region? ctx rcb = some r) :
    s.Event (.queueRecheck ctx rcb)
      (∃ n ∈ s.queueSpan r, (ctx, rcb, n) ∉ s.dist.taken ∧ s.deviceRead ctx (r.entryVa n) 8 = some 0)
      (startReading ctx rcb s) := by
  refine State.event_of_test (c := ((s.queueSpan r).any fun n =>
    !s.dist.taken.contains (ctx, rcb, n) && s.deviceRead ctx (r.entryVa n) 8 == some 0) = true) (by simp) ?_
  rw [exec_queueRecheck, execQueueRecheck, hr]

/-- A queue that is read, of a context that is valid, with no work of its own still to be placed: nothing holds its next
record back. -/
theorem recordTake_unheld {s : State} {ctx rcb : Nat} (hb : (ctx, rcb) ∈ s.dist.reading)
    (hv : (s.ctxOf ctx).valid = true) (hl : ∀ l ∈ s.dist.launches, l.ctx = ctx → l.rcb = rcb → l.upcoming 1 = []) :
    ¬(!s.dist.reading.contains (ctx, rcb) || !(s.ctxOf ctx).valid
      || (s.dist.launches.any fun l => l.ctx == ctx && l.rcb == rcb && !(l.upcoming 1).isEmpty)) = true := by
  simpa [hb, hv] using hl

/-! Placement, splits and the end of a block (R35, R36, R256, R258, R381 to R384). -/

theorem exec_blockEnd (b : Nat) (s : State) : exec (.blockEnd b) s = execBlockEnd b s := rfl
theorem exec_blockPlace (ctx : Nat) (s : State) : exec (.blockPlace ctx) s = execBlockPlace ctx s := rfl

theorem blockPlace_preempts {s : State} {v : Work} {x : Nat} (h : s.displaced = some (v, x)) (ctx : Nat) :
    s.Event (.blockPlace ctx) (v.ctx = ctx) (preemptBlock x s) :=
  State.event_of_effects (by rw [exec_blockPlace, execBlockPlace, h])

theorem blockPlace_places {s : State} {w : Work} (hd : s.displaced = none) (h : s.choose = some w) (ctx : Nat) :
    s.Event (.blockPlace ctx) (w.ctx = ctx) (placeWork w (s.claim w) s) :=
  State.event_of_effects (by rw [exec_blockPlace, execBlockPlace, hd, h])

theorem blockPlace_repartitions {s : State} {w : Work} {x : Nat} (hd : s.displaced = none) (hc : s.choose = none)
    (hw : s.blockedWork = some w) (hf : s.freeing w = false) (hx : s.repartCore w = some x) :
    s.Commits (.blockPlace w.ctx) (chain s [
      fun s => [.core x { s.core x with towards := some w.img.split }], spillMove x]) := by
  rw [State.Commits, exec_blockPlace, execBlockPlace, hd, hc, hw]
  simp only [hf, hx, ne_eq, not_true_eq_false, decide_false, Bool.or_self, Bool.false_eq_true, if_false]
  rfl

theorem exec_splitAdopt (core : Nat) (s : State) : exec (.splitAdopt core) s = execSplitAdopt core s := rfl

/-- Vector space of spilled contexts moves as the core's split does (R35). -/
theorem splitAdopt_event {s : State} {core : Nat} {new : Nat × Nat × Nat} (h : (s.core core).towards = some new) :
    s.Event (.splitAdopt core) (s.boundaryFree core = true)
      (let spill := fun (c : Ctl) => !c.st.resident && c.saved && decide (c.frame < 2 ^ 63)
       .core core { s.core core with split := new, towards := none } ::
        ((s.onCore core).filter fun p => spill p.2.ctl).map fun p => .ctl p.1 { p.2.ctl with
          frame := p.2.ctl.frame + ((s.core core).split.1 + (s.core core).split.2.1) * 16384 - (new.1 + new.2.1) * 16384 }) := by
  refine State.event_of_guard (c := (!s.boundaryFree core) = true) (by simp) ?_
  rw [exec_splitAdopt, execSplitAdopt]
  simp only [h]

theorem blockEnd_event (s : State) (b : Nat) :
    s.Event (.blockEnd b) (s.blockDone b = true ∧ ∀ p ∈ s.blockWarps b, p.2.ctl.ended = false)
      (chain s [fun s => freeBuffers false b s, fun s => if s.cmbs.any fun y => y.owner == b then []
        else chain s [fun s => blockGone (s.blk b).launch s, removeBlocks [b]]]) :=
  State.event_of_guard (c := (!s.blockDone b || (s.blockWarps b).any fun p => p.2.ctl.ended) = true)
    (by simp [imp_iff_not_or]) (exec_blockEnd b s)

/-! Suspension, the pre-emption deadline and what the host asks of the distributor (R180, R184, R374, R397 to R401). -/

theorem exec_blockSuspend (b : Nat) (s : State) : exec (.blockSuspend b) s = execBlockSuspend b s := rfl
theorem exec_preemptDeadline (k : Nat) (s : State) : exec (.preemptDeadline k) s = execPreemptDeadline k s := rfl
theorem exec_contextBoundary (die : Nat) (s : State) : exec (.contextBoundary die) s = execContextBoundary die s := rfl
theorem exec_contextValidSet (ctx : Nat) (s : State) : exec (.contextValidSet ctx) s = execContextValidSet ctx s := rfl
theorem exec_preqGo (die v : Nat) (s : State) : exec (.preqGo die v) s = execPreqGo die v s := rfl
theorem exec_slcfgApply (die v : Nat) (s : State) : exec (.slcfgApply die v) s = execSlcfgApply die v s := rfl

/-- A block that is done, being pre-empted, with a context that ended for a save: it suspends. -/
theorem blockSuspend_due {s : State} {b : Nat} (hd : s.blockDone b = true) (hp : (s.blk b).preempt = true)
    (he : ∃ p ∈ s.blockWarps b, p.2.ctl.ended = true) :
    ¬(!s.blockDone b || !(s.blk b).preempt || !((s.blockWarps b).any fun p => p.2.ctl.ended)) = true := by
  simpa [hd, hp] using he

theorem preemptDeadline_commits {s : State} {k : Nat} (hp : (s.blk (blockOf k)).preempt = true)
    (hst : (s.ctl k).st ≠ .exited) (hk : k < helperBase) (hw : (find s.warps k).isSome = true) :
    let live := liveSlices (s.warp k)
    s.Commits (.preemptDeadline k) (kernelFault s k {
      code := 0x19, tpc := ((s.ctl k).slice (lowest 8 live)).pc.toNat, slices := live, m0 := ((s.warp k).readM 0).toNat }) := by
  rw [State.Commits, exec_preemptDeadline, execPreemptDeadline, if_neg (by simp [hp, hst, hk, hw])]
  rfl

theorem contextBoundary_event (s : State) (die : Nat) :
    s.Event (.contextBoundary die) (∀ p ∈ s.blocks, dieOfBlock p.1 ≠ die) (chain s [rehash die, fun s =>
      if (s.mgmt.slcfg.getD die 0).getLsbD 0 = true ∧ s.mgmt.devst.toNat % 8 = 3 then applySplit die s else []]) := by
  refine State.event_of_guard (c := (s.blocks.any fun p => dieOfBlock p.1 == die) = true) (by simp) ?_
  rw [exec_contextBoundary, execContextBoundary]
  simp only [Bool.and_eq_true, beq_iff_eq]

theorem contextValidSet_idle {s : State} {ctx : Nat} (h : (s.ctxOf ctx).valid = true ∨ s.mgmt.devst.toNat % 8 = 4) :
    s.Commits (.contextValidSet ctx) [] := by
  rw [State.Commits, exec_contextValidSet, execContextValidSet]
  cases hv : (s.ctxOf ctx).valid with
  | true => rfl
  | false =>
    have hst : s.mgmt.devst.toNat % 8 = 4 := by simpa [hv] using h
    simp only [hst]
    rfl

theorem contextValidSet_validates {s : State} {ctx : Nat} (hv : (s.ctxOf ctx).valid = false)
    (hst : s.mgmt.devst.toNat % 8 = 3) : s.Commits (.contextValidSet ctx) (validate ctx s) := by
  rw [State.Commits, exec_contextValidSet, execContextValidSet]
  simp only [hv, hst, Bool.false_eq_true, if_false, if_true]
  rfl

/-- Before full service a context is held until its die serves (R374). -/
theorem contextValidSet_holds {s : State} {ctx : Nat} (hv : (s.ctxOf ctx).valid = false)
    (hst : s.mgmt.devst.toNat % 8 < 3) : s.Commits (.contextValidSet ctx)
      [.vil { s.vil with held := if s.vil.held.contains ctx then s.vil.held else s.vil.held ++ [ctx] }] := by
  rw [State.Commits, exec_contextValidSet, execContextValidSet]
  simp only [hv, Bool.false_eq_true, if_false, if_neg (Nat.ne_of_lt hst), if_neg (show s.mgmt.devst.toNat % 8 ≠ 4 by omega)]
  rfl

theorem preqGo_requests {s : State} {die v : Nat} (h : bit v 31 = true) : s.Commits (.preqGo die v) (chain s (
    [fun s => [Effect.mgmt { s.mgmt with preq := s.mgmt.preq.set die (word (2 ^ 31 + v % 64)) }]] ++
    (((s.blocks.filter fun p => dieOfBlock p.1 == die && p.2.ctx == v % 64).map Prod.fst).map preemptBlock) ++
    [settlePreq])) := by
  rw [State.Commits, exec_preqGo, execPreqGo, if_pos h]
  rfl

theorem preqGo_writes {s : State} {die v : Nat} (h : bit v 31 = false) (ho : (s.mgmt.preq.getD die 0).getLsbD 31 = false) :
    s.Commits (.preqGo die v) [.mgmt { s.mgmt with preq := s.mgmt.preq.set die (word (v % 64)) }] := by
  rw [State.Commits, exec_preqGo, execPreqGo]
  simp only [h, ho, Bool.false_eq_true, if_false]
  rfl

/-- A written split is checked where it is to be applied (R184). -/
theorem slcfgApply_checks {s : State} {die v : Nat} (h : bit v 0 = true) : s.Commits (.slcfgApply die v)
    [.mgmt { s.mgmt with slcfg := s.mgmt.slcfg.set die (word (bits v 23 8 * 256 +
      (if 24 < bits v 15 8 ∨ 32 < bits v 15 8 + bits v 23 16 then 2 else 1))) }] := by
  rw [State.Commits, exec_slcfgApply, execSlcfgApply]
  simp only [h, if_true, Bool.or_eq_true, decide_eq_true_eq]
  rfl

theorem slcfgApply_keeps {s : State} {die v : Nat} (h : bit v 0 = false) : s.Commits (.slcfgApply die v)
    [.mgmt { s.mgmt with
      slcfg := s.mgmt.slcfg.set die (word (bits v 23 8 * 256 + (s.mgmt.slcfg.getD die 0).toNat % 4)) }] := by
  rw [State.Commits, exec_slcfgApply, execSlcfgApply]
  simp only [h, Bool.false_eq_true, if_false]
  rfl

/-! The progress monitor (R256 to R258). -/

theorem exec_monitorFreeze (ctx dom die : Nat) (s : State) :
    exec (.monitorFreeze ctx dom die) s = execMonitorFreeze ctx dom die s := rfl
theorem exec_freezeSignal (ctx dom die : Nat) (s : State) :
    exec (.freezeSignal ctx dom die) s = execFreezeSignal ctx dom die s := rfl

theorem monitorFreeze_event (s : State) (ctx dom die : Nat) : s.Event (.monitorFreeze ctx dom die)
    (s.idleHeld ctx dom die = false ∧ s.domainBusy ctx dom die = false ∧ s.isFrozen ctx dom die = false ∧
      ¬(s.domainWarps ctx dom die = [] ∧ s.domainOps ctx dom die = 0))
    (chain s [fun s => [.frozen ((ctx, dom, die) :: s.frozen)],
      fun s => hfqAppend s ctx 1 (stallRecord s ctx dom die true) die]) :=
  State.event_of_guard (c := (s.idleHeld ctx dom die || s.domainBusy ctx dom die || s.isFrozen ctx dom die
    || ((s.domainWarps ctx dom die).isEmpty && s.domainOps ctx dom die = 0)) = true)
    (by simp [imp_iff_not_or, or_assoc]) (exec_monitorFreeze ctx dom die s)

theorem freezeSignal_alone {s : State} {ctx dom die : Nat} (h : s.isFrozen ctx dom (1 - die) = false) :
    s.Commits (.freezeSignal ctx dom die) [] := by
  rw [State.Commits, exec_freezeSignal, execFreezeSignal, if_pos (by simp [h])]
  rfl

theorem freezeSignal_freezes {s : State} {ctx dom die : Nat} (ho : s.isFrozen ctx dom (1 - die) = true)
    (h : s.isFrozen ctx dom die = false) : s.Commits (.freezeSignal ctx dom die) (chain s [
      fun s => [Effect.frozen ((ctx, dom, die) :: s.frozen)],
      fun s => hfqAppend s ctx 1 (stallRecord s ctx dom die false) die, stallEnd ctx dom]) := by
  rw [State.Commits, exec_freezeSignal, execFreezeSignal, if_neg (by simp [ho]), if_neg (by simp [h])]
  rfl

/-- A domain frozen on both dies with no kernel fault pending ends by the stall, once what it has started is done (R258). -/
theorem freezeSignal_ends {s : State} {ctx dom die : Nat} (ho : s.isFrozen ctx dom (1 - die) = true)
    (h : s.isFrozen ctx dom die = true) (ht : s.domainTraps ctx dom = []) :
    s.Commits (.freezeSignal ctx dom die) (stallEnd ctx dom s) := by
  rw [State.Commits, exec_freezeSignal, execFreezeSignal, if_neg (by simp [ho]), if_pos h, ht]
  rfl

/-- Settles O56: each step of the distributor, of pre-emption and of the monitor under its condition. -/
theorem distributorStepsTakePlace : Obligations.DistributorStepsTakePlace := by
  intro s a b v st
  refine ⟨queueWake_event s a b, treeReread_event s a, fun r hr => ⟨queueRecheck_event hr, fun hb hv hl => ?takes⟩,
    fun v x h => blockPlace_preempts h a, fun w hd h => blockPlace_places hd h a, ?repartitions,
    fun new h => splitAdopt_event h, blockEnd_event s b, ?suspends, preemptDeadline_commits,
    contextBoundary_event s a, contextValidSet_idle, contextValidSet_validates, contextValidSet_holds, rfl,
    preqGo_requests, preqGo_writes, ⟨slcfgApply_keeps, slcfgApply_checks⟩, monitorFreeze_event s a b v,
    freezeSignal_alone, fun ho => ⟨freezeSignal_freezes ho, freezeSignal_ends ho⟩⟩
  case takes =>
    refine ⟨fun hn => ?_, fun n rec hn => ?_⟩
    all_goals
      rw [State.Commits, exec_recordTake, execRecordTake]
      simp only [hr, hn, if_neg (recordTake_unheld hb hv hl)]
      rfl
  case repartitions =>
    rintro w x hd hc hw rfl hf hx
    exact blockPlace_repartitions hd hc hw hf hx
  case suspends =>
    intro hd hp he x
    rw [State.Commits, exec_blockSuspend, execBlockSuspend, if_neg (blockSuspend_due hd hp he)]
    rfl

end Sys2Proof.Machine
end

section
/-! Encoding and decoding (O47): an operand, an address and an extension word are read back from their codes, each form of word
from its fields, and so every word instruction from its encoding (R66 to R71). -/
namespace Sys2Proof

/-! Operands, addresses and extension words (R68, R70, R187, R235). -/

theorem SOp.isOp_of_isWarp {x : SOp} (h : x.isWarp = true) : x.isOp = true := by
  cases x with
  | reg n => exact h
  | const c => exact h
  | lit w => rfl
  | fconst k => cases h
  | laneid => rfl

theorem SOp.code_lt {x : SOp} (h : x.isOp = true) : x.code < 256 := by
  cases x with
  | reg n => simp [isOp, okS] at h; simp only [code]; omega
  | const c => simp [isOp] at h; simp only [code]; split <;> omega
  | fconst k => simp [isOp] at h; simp only [code]; omega
  | laneid => decide
  | lit w => simp [code]

/-- An operand field reads back the operand, and takes its literal word and no other. -/
theorem readOp_code {x : SOp} (h : x.isOp = true) (r : List Word) : readOp x.code (x.lits ++ r) = .ok (x, r) := by
  cases x with
  | reg n =>
    have hn : n < 0xA0 := by simpa [SOp.isOp, okS] using h
    simp [readOp, SOp.code, SOp.lits, hn]
  | const c =>
    obtain ⟨hl, hu⟩ : -16 ≤ c ∧ c ≤ 63 := by simpa [SOp.isOp] using h
    by_cases hc : c < 0
    · have hn : (SOp.const c).code = (c + 0xF0).toNat := if_pos hc
      rw [hn, readOp.eq_def, if_neg (by omega), if_neg (by omega), if_pos (by omega),
        show ((c + 0xF0).toNat : Int) - 0xF0 = c by omega]
      rfl
    · have hn : (SOp.const c).code = (c + 0xA0).toNat := if_neg hc
      rw [hn, readOp.eq_def, if_neg (by omega), if_pos (by omega), show ((c + 0xA0).toNat : Int) - 0xA0 = c by omega]
      rfl
  | fconst k =>
    have hk : k < 8 := by simpa [SOp.isOp] using h
    rw [SOp.code, readOp.eq_def, if_neg (by omega), if_neg (by omega), if_neg (by omega), if_pos (by omega),
      Nat.add_sub_cancel_left]
    rfl
  | laneid => rfl
  | lit w => rfl

theorem readWarpOp_code {x : SOp} (h : x.isWarp = true) (r : List Word) :
    readWarpOp x.code (x.lits ++ r) = .ok (x, r) := by
  rw [readWarpOp, readOp_code (SOp.isOp_of_isWarp h)]
  exact if_pos h

theorem op1_code (f : SOp → Instr) {x : SOp} (h : x.isWarp = true) (r : List Word) :
    op1 f x.code (x.lits ++ r) = .ok (f x, r) := by
  rw [op1, readWarpOp_code h]

theorem opT_code (f : SOp → Instr) {x : SOp} (h : x.isOp = true) (r : List Word) :
    opT f x.code (x.lits ++ r) = .ok (f x, r) := by
  rw [opT, readOp_code h]

theorem op2_code (f : SOp → SOp → Instr) {x y : SOp} (hx : x.isWarp = true) (hy : y.isWarp = true) (r : List Word) :
    op2 f x.code y.code (x.lits ++ y.lits ++ r) = .ok (f x y, r) := by
  rw [op2, List.append_assoc, readWarpOp_code hx]
  exact op1_code (f x) hy r

theorem AddrForm.codes_lt {f : AddrForm} (h : f.ok = true) : f.aCode < 256 ∧ f.bCode < 256 := by
  cases f <;> simp [ok, okP, okV] at h <;> simp only [aCode, bCode] <;> omega

theorem addr_codes (g : AddrForm → Instr) {f : AddrForm} (h : f.ok = true) (r : List Word) :
    addr g f.aCode f.bCode r = .ok (g f, r) := by
  cases f with
  | base a b => exact if_pos (Bool.and_eq_true_iff.1 h).1
  | vec b =>
    have hb : b % 2 = 0 := of_decide_eq_true (Bool.and_eq_true_iff.1 h).1
    simp [addr, AddrForm.aCode, AddrForm.bCode, okP, hb]

theorem Ext.toNat_enc {x : Ext} (h : x.ok = true) :
    x.enc.toNat = x.v * 16777216 + x.c * 65536 + x.op * 4096 + x.ord * 512 + x.scope * 64 := by
  simp only [ok, okV, Bool.and_eq_true, decide_eq_true_eq] at h
  simp only [enc, BitVec.toNat_ofNat]
  omega

theorem readExt_enc {x : Ext} (h : x.ok = true) : readExt x.enc = x := by
  have hx := h
  simp only [Ext.ok, okV, Bool.and_eq_true, decide_eq_true_eq] at hx
  rw [readExt, Ext.toNat_enc h]
  obtain ⟨v, c, op, ord, scope⟩ := x
  simp only [Ext.mk.injEq] at hx ⊢
  omega

/-- The extension word of an atomic is read back, and then what follows it (R71). -/
theorem ext_enc {scalar : Bool} {x : Ext} {r : List Word} {k : Ext → List Word → Decoded} {out : Decoded} (h : x.ok = true)
    (hs : (if scalar then x.okScalar else x.ok) = true) (hk : k x r = out) : ext scalar (x.enc :: r) k = out := by
  have hz : x.enc.toNat % 64 = 0 := by rw [Ext.toNat_enc h]; omega
  simp only [ext, readExt_enc h, hz, hs, decide_true, Bool.and_self, if_true, hk]

/-! The fields of a word (R66). -/

theorem decode_enc {op d a b : Nat} (hop : op < 256) (hd : d < 256) (ha : a < 256) (hb : b < 256) (r : List Word) :
    decode (enc op d a b :: r) = decodeFields op d a b r := by
  have hn : (enc op d a b).toNat = op * 16777216 + d * 65536 + a * 256 + b := by
    simp only [enc, BitVec.toNat_ofNat]
    omega
  rw [decode, hn]
  congr 1 <;> omega

theorem lt_of_okS {n : Nat} (h : okS n = true) : n < 256 := by
  simp [okS] at h; omega
theorem lt_of_okP {n : Nat} (h : okP n = true) : n < 256 := by
  simp [okP] at h; omega
theorem lt_of_okV {n : Nat} (h : okV n = true) : n < 256 := of_decide_eq_true h
theorem lt_of_okM {n : Nat} (h : okM n = true) : n < 256 := by
  simp [okM] at h; omega
theorem lt_of_okB8 {n : Nat} (h : okB8 n = true) : n < 256 := by
  simp [okB8] at h; omega

theorem okS_of_okP {n : Nat} (h : okP n = true) : okS n = true := (Bool.and_eq_true_iff.1 h).2

theorem lt_of_okSrd {n : Nat} (h : okSrd n = true) : n < 256 := by
  simp [okSrd, sys64] at h; omega

theorem okSwr_fields {n : Nat} {a : SOp} (h : okSwr n a = true) : okSrd n = true ∧ a.isWarp = true := by
  simp only [okSwr, Bool.and_eq_true] at h
  exact ⟨h.1.1.1, h.1.2⟩

theorem Ext.ok_of_okScalar {x : Ext} (h : x.okScalar = true) : x.ok = true := by
  simp only [okScalar, Bool.and_eq_true] at h
  exact h.1.1

theorem decodeFields_atom (d a b : Nat) (r : List Word) :
    decodeFields 0xC1 d a b r = ext false r fun x r => addr (fun f => .atom d f x) a b r := rfl

theorem decodeFields_red (a b : Nat) (r : List Word) :
    decodeFields 0xC3 0 a b r = ext false r fun x r => addr (fun f => .red f x) a b r := rfl

/-! Fields packed into one byte (R263, R289, R308, R342). -/

theorem copy_fields (ks : Nat) (g p : Bool) :
    (ks * 16 + g.toNat * 8 + p.toNat * 4) % 4 = 0 ∧ (ks * 16 + g.toNat * 8 + p.toNat * 4) / 16 = ks ∧
    ((ks * 16 + g.toNat * 8 + p.toNat * 4) / 8 % 2 == 1) = g ∧ ((ks * 16 + g.toNat * 8 + p.toNat * 4) / 4 % 2 == 1) = p := by
  cases g <;> cases p <;> simp <;> omega

theorem matrix_fields {bt t : Nat} (za : Bool) (hbt : bt < 6) (ht : t < 16) :
    let d := bt * 32 + za.toNat * 16 + t
    d < 192 ∧ d / 32 = bt ∧ (d / 16 % 2 == 1) = za ∧ d % 16 = t := by
  cases za <;> simp <;> omega

theorem recruit_fields {md ask : Nat} (rk : Bool) (hl : 1 ≤ md) (hu : md ≤ 13) (hk : ask < 8) :
    let b := md * 16 + ask * 2 + rk.toNat
    16 ≤ b ∧ b < 224 ∧ b / 16 = md ∧ b / 2 % 8 = ask ∧ (b % 2 == 1) = rk := by
  cases rk <;> simp <;> omega

theorem coll_fields {fm : Nat} {ts op : Bool} {t : Nat} (h : okColl fm ts op t = true) :
    let d := fm * 64 + ts.toNat * 32 + op.toNat * 16 + t
    d < 256 ∧ d / 64 = fm ∧ (d / 32 % 2 == 1) = ts ∧ (d / 16 % 2 == 1) = op ∧ d % 16 = t := by
  obtain ⟨hf, ht⟩ : fm < 4 ∧ t < 16 := by
    simp only [okColl, okM, Bool.and_eq_true, decide_eq_true_eq] at h
    omega
  cases ts <;> cases op <;> simp <;> omega

/-! The forms of a word: which of its fields are operands. -/

/-- The words of the instruction's encoding, whatever follows them, decode to it. -/
def Instr.RoundTrips (i : Instr) : Prop :=
  ∀ rest : List Word, ∃ ws, encode i = some ws ∧ decode (ws ++ rest) = .ok (i, rest)

theorem roundTrips_of_fields {i : Instr} {op d a b : Nat} {lits : List Word} (he : encode i = some (enc op d a b :: lits))
    (hd : d < 256) (ha : a < 256) (hb : b < 256) (h : ∀ r, decodeFields op d a b (lits ++ r) = .ok (i, r))
    (hop : op < 256 := by decide) : i.RoundTrips :=
  fun rest => ⟨_, he, (decode_enc hop hd ha hb _).trans (h rest)⟩

/-- A word with no operand. -/
theorem roundTrips_plain {i : Instr} {op d a b : Nat} (he : encode i = some [enc op d a b]) (hd : d < 256) (ha : a < 256)
    (hb : b < 256) (h : ∀ r, decodeFields op d a b r = .ok (i, r)) (hop : op < 256 := by decide) : i.RoundTrips :=
  roundTrips_of_fields he hd ha hb h hop

/-- A warp-level operand in A. -/
theorem roundTrips_opA {f : SOp → Instr} {x : SOp} {op d : Nat} (he : encode (f x) = some (enc op d x.code 0 :: x.lits))
    (hd : d < 256) (hx : x.isWarp = true) (h : ∀ c r, decodeFields op d c 0 r = op1 f c r) (hop : op < 256 := by decide) :
    (f x).RoundTrips :=
  roundTrips_of_fields he hd (SOp.code_lt (SOp.isOp_of_isWarp hx)) (by decide) (fun r => (h _ _).trans (op1_code f hx r)) hop

/-- A warp-level operand in B. -/
theorem roundTrips_opB {f : SOp → Instr} {x : SOp} {op d a : Nat} (he : encode (f x) = some (enc op d a x.code :: x.lits))
    (hd : d < 256) (ha : a < 256) (hx : x.isWarp = true) (h : ∀ c r, decodeFields op d a c r = op1 f c r)
    (hop : op < 256 := by decide) : (f x).RoundTrips :=
  roundTrips_of_fields he hd ha (SOp.code_lt (SOp.isOp_of_isWarp hx)) (fun r => (h _ _).trans (op1_code f hx r)) hop

/-- An operand in B whose type the mode gives. -/
theorem roundTrips_opT {f : SOp → Instr} {x : SOp} {op d a : Nat} (he : encode (f x) = some (enc op d a x.code :: x.lits))
    (hd : d < 256) (ha : a < 256) (hx : x.isOp = true) (h : ∀ c r, decodeFields op d a c r = opT f c r)
    (hop : op < 256 := by decide) : (f x).RoundTrips :=
  roundTrips_of_fields he hd ha (SOp.code_lt hx) (fun r => (h _ _).trans (opT_code f hx r)) hop

/-- Warp-level operands in A and in B. -/
theorem roundTrips_op2 {f : SOp → SOp → Instr} {x y : SOp} {op d : Nat}
    (he : encode (f x y) = some (enc op d x.code y.code :: (x.lits ++ y.lits))) (hd : d < 256) (hx : x.isWarp = true)
    (hy : y.isWarp = true) (h : ∀ a b r, decodeFields op d a b r = op2 f a b r) (hop : op < 256 := by decide) :
    (f x y).RoundTrips :=
  roundTrips_of_fields he hd (SOp.code_lt (SOp.isOp_of_isWarp hx)) (SOp.code_lt (SOp.isOp_of_isWarp hy))
    (fun r => (h _ _ _).trans (op2_code f hx hy r)) hop

/-- An address form in A and B. -/
theorem roundTrips_addr {g : AddrForm → Instr} {f : AddrForm} {op d : Nat}
    (he : encode (g f) = some [enc op d f.aCode f.bCode]) (hd : d < 256) (hf : f.ok = true)
    (h : ∀ a b r, decodeFields op d a b r = addr g a b r) (hop : op < 256 := by decide) : (g f).RoundTrips :=
  roundTrips_plain he hd (AddrForm.codes_lt hf).1 (AddrForm.codes_lt hf).2 (fun r => (h _ _ _).trans (addr_codes g hf r)) hop

/-- A copy command word (R263). -/
theorem roundTrips_copyWord {f : Nat → Bool → Bool → Nat → SOp → Instr} {ks : Nat} {g p : Bool} {a : Nat} {x : SOp}
    {op : Nat}
    (he : encode (f ks g p a x) = some (enc op (ks * 16 + g.toNat * 8 + p.toNat * 4) a x.code :: x.lits))
    (hw : okCopy ks g p a x = true) (h : ∀ d a c r, decodeFields op d a c r = copyWord f d a c r)
    (hop : op < 256 := by decide) : (f ks g p a x).RoundTrips := by
  obtain ⟨⟨⟨⟨hks, -⟩, ha⟩, hx⟩, -⟩ : (((okM ks = true ∧ _) ∧ okB8 a = true) ∧ x.isWarp = true) ∧ _ := by
    simpa only [okCopy, Bool.and_eq_true] using hw
  obtain ⟨h4, h16, hg, hp⟩ := copy_fields ks g p
  have hk : ks < 16 := of_decide_eq_true hks
  have hgp : g.toNat ≤ 1 ∧ p.toNat ≤ 1 := ⟨g.toNat_le, p.toNat_le⟩
  refine roundTrips_of_fields he (by omega) (lt_of_okB8 ha) (SOp.code_lt (SOp.isOp_of_isWarp hx)) (fun r => ?_) hop
  rw [h, copyWord, readWarpOp_code hx]
  simp only [h4, h16, hg, hp, hw, decide_true, Bool.and_self, if_true]

theorem and_split {x y : Bool} (h : (x && y) = true) : x = true ∧ y = true := Bool.and_eq_true_iff.1 h

theorem and_split₃ {x y z : Bool} (h : (x && y && z) = true) : x = true ∧ y = true ∧ z = true :=
  and_assoc.1 ⟨and_split (and_split h).1, (and_split h).2⟩

/-- A well-formed instruction that is no event round-trips, form by form. -/
theorem Instr.roundTrips {i : Instr} (h : WellFormed i = true) (hi : i.isEvent = false) : i.RoundTrips := by
  cases i with
  | addVv d a b | addcVv d a b | subVv d a b | subbVv d a b | mulVv d a b | mulhVv d a b | madVv d a b | absdVv d a b
  | minVv d a b | maxVv d a b | andVv d a b | orVv d a b | xorVv d a b | shlVv d a b | shrVv d a b | sarVv d a b
  | bfeVv d a b | bfiVv d a b | prmtVv d a b | selVv d a b | cmpVv d a b | cvtiVv d a b | dp4Vv d a b | faddVv d a b
  | fsubVv d a b | fmulVv d a b | ffmaVv d a b | fminVv d a b | fmaxVv d a b | fminnmVv d a b | fmaxnmVv d a b
  | fcmpVv d a b | fclassVv d a b | fscaleVv d a b | ftoiVv d a b | itofVv d a b | fcvtVv d a b | fpackVv d a b
  | funpackVv d a b | fdot2Vv d a b | shfl d a b =>
    obtain ⟨hd, ha, hb⟩ := and_split₃ h
    exact roundTrips_plain rfl (lt_of_okV hd) (lt_of_okV ha) (lt_of_okV hb) fun _ => rfl
  | addVs d a b | addcVs d a b | subVs d a b | subbVs d a b | mulVs d a b | mulhVs d a b | madVs d a b | absdVs d a b
  | minVs d a b | maxVs d a b | andVs d a b | orVs d a b | xorVs d a b | shlVs d a b | shrVs d a b | sarVs d a b
  | bfeVs d a b | bfiVs d a b | prmtVs d a b | selVs d a b | cmpVs d a b | cvtiVs d a b | dp4Vs d a b | faddVs d a b
  | fsubVs d a b | fmulVs d a b | ffmaVs d a b | fminVs d a b | fmaxVs d a b | fminnmVs d a b | fmaxnmVs d a b
  | fcmpVs d a b | fclassVs d a b | fscaleVs d a b | ftoiVs d a b | itofVs d a b | fcvtVs d a b | fpackVs d a b
  | funpackVs d a b | fdot2Vs d a b | shflup d a b | shfldn d a b | shflx d a b | xswap d a b =>
    obtain ⟨hd, ha, hb⟩ := and_split₃ h
    exact roundTrips_opT rfl (lt_of_okV hd) (lt_of_okV ha) hb fun _ _ => rfl
  | popcVv d a | clzVv d a | brevVv d a | movVv d a | fgetxVv d a | frndVv d a | rcp d a | rsq d a | sqrt d a
  | exp2 d a | log2 d a | sinpi d a | cospi d a | tanh d a =>
    obtain ⟨hd, ha⟩ := and_split h
    exact roundTrips_plain rfl (lt_of_okV hd) (lt_of_okV ha) (by decide) fun _ => rfl
  | popcVs d b | clzVs d b | brevVs d b | movVs d b | fgetxVs d b | frndVs d b =>
    obtain ⟨hd, hb⟩ := and_split h
    exact roundTrips_opT rfl (lt_of_okV hd) (by decide) hb fun _ _ => rfl
  | smov d a | spopc d a | sclz d a | qpop d a | collq d a =>
    obtain ⟨hd, ha⟩ := and_split h
    exact roundTrips_opA rfl (lt_of_okS hd) ha fun _ _ => if_pos hd
  | sadd d a b | ssub d a b | smul d a b | smulh d a b | sand d a b | sor d a b | sxor d a b | sshl d a b | sshr d a b
  | ssar d a b | smin d a b | smax d a b | scmp d a b | ssel d a b | sbfe d a b | sbfi d a b | abarr d a b
  | qtrypush d a b | cmbwait d a b | cmbq d a b =>
    obtain ⟨hd, ha, hb⟩ := and_split₃ h
    exact roundTrips_op2 rfl (lt_of_okS hd) ha hb fun _ _ _ => if_pos hd
  | sld d a b | sst d a b | ldc d a b | join d a b =>
    obtain ⟨hd, ha, hb⟩ := and_split₃ h
    exact roundTrips_opB rfl (lt_of_okS hd) (lt_of_okP ha) hb fun _ _ => if_pos (by rw [hd, ha]; rfl)
  | exit | nop | part | regang | yield | fork | hend | dismiss | sret | cctlCinv | cctlEvl1all =>
    exact roundTrips_plain rfl (by decide) (by decide) (by decide) fun _ => rfl
  | mand d a b | mor d a b | mxor d a b | mandn d a b =>
    obtain ⟨hd, ha, hb⟩ := and_split₃ h
    exact roundTrips_plain rfl (lt_of_okM hd) (lt_of_okM ha) (lt_of_okM hb) fun _ => if_pos h
  | saddp d a b =>
    obtain ⟨hd, ha, hb⟩ := and_split₃ h
    refine roundTrips_opB rfl (lt_of_okP hd) (lt_of_okP ha) hb fun _ _ => (if_pos hd).trans (if_pos ?_)
    rw [okS_of_okP hd, ha, Bool.and_self]
  | getid d sel =>
    obtain ⟨hd, hs⟩ : okS d = true ∧ sel < 9 := by simpa [WellFormed] using h
    exact roundTrips_plain rfl (lt_of_okS hd) (by omega) (by decide) fun r =>
      (if_pos (by simp [hd]; omega)).trans (by rw [Nat.add_sub_cancel_left])
  | bra o =>
    have ho : o < 16777216 := by simpa [WellFormed] using h
    have hn : o / 65536 * 65536 + o / 256 % 256 * 256 + o % 256 = o := by omega
    exact roundTrips_plain rfl (by omega) (by omega) (by omega) fun r =>
      congrArg (fun n => Except.ok (Instr.bra n, r)) hn
  | brc nz a b | waitw nz a b =>
    obtain ⟨ha, hb⟩ := and_split h
    exact roundTrips_op2 rfl (by have := nz.toNat_le; omega) ha hb fun _ _ _ => by cases nz <;> rfl
  | brzm a b | brnzm a b =>
    obtain ⟨ha, hb⟩ := and_split h
    exact roundTrips_opB rfl (by decide) (lt_of_okM ha) hb fun _ _ => if_pos ha
  | jmp a b | cctlEvl1 a b | cctlWbl2 a b | icinv a b | tlbinv a b | snap a b =>
    obtain ⟨ha, hb⟩ := and_split h
    exact roundTrips_opB rfl (by decide) (lt_of_okP ha) hb fun _ _ => if_pos ha
  | snapq a b =>
    obtain ⟨ha, hb⟩ := and_split h
    exact roundTrips_opB rfl (by decide) (lt_of_okS ha) hb fun _ _ => if_pos ha
  | call d b =>
    obtain ⟨hd, hb⟩ := and_split h
    exact roundTrips_opB rfl (lt_of_okP hd) (by decide) hb fun _ _ => if_pos (by rw [hd]; rfl)
  | ret a =>
    have ha : okP a = true := h
    exact roundTrips_plain rfl (by decide) (lt_of_okP ha) (by decide) fun _ => if_pos (by rw [ha]; rfl)
  | mode m =>
    obtain ⟨hm, hr⟩ : m < 65536 ∧ m / 4 % 4 ≠ 3 := by simpa [WellFormed] using h
    have hn : m / 256 * 256 + m % 256 = m := Nat.div_add_mod' m 256
    exact roundTrips_plain rfl (by omega) (by omega) (by decide) fun r =>
      (if_pos (by simp [hn, hr])).trans (by rw [hn])
  | rend refork =>
    have hr : refork.toNat < 256 := by have := refork.toNat_le; omega
    exact roundTrips_plain rfl hr (by decide) (by decide) fun _ => by cases refork <;> rfl
  | mnot d a | mmov d a =>
    obtain ⟨hd, ha⟩ := and_split h
    exact roundTrips_plain rfl (lt_of_okM hd) (lt_of_okM ha) (by decide) fun _ => if_pos (by rw [hd, ha]; rfl)
  | mpopc d a | mffs d a | mget d a =>
    obtain ⟨hd, ha⟩ := and_split h
    exact roundTrips_plain rfl (lt_of_okS hd) (lt_of_okM ha) (by decide) fun _ => if_pos (by rw [hd, ha]; rfl)
  | mset d a =>
    obtain ⟨hd, ha⟩ := and_split h
    exact roundTrips_opA rfl (lt_of_okM hd) ha fun _ _ => if_pos (by rw [hd]; rfl)
  | vote d a k =>
    obtain ⟨⟨hd, ha⟩, hk⟩ : (okS d = true ∧ okM a = true) ∧ k < 3 := by simpa [WellFormed] using h
    exact roundTrips_plain rfl (lt_of_okS hd) (lt_of_okM ha) (by omega) fun _ => if_pos h
  | ballot d a b =>
    obtain ⟨hd, ha, hb⟩ := and_split₃ h
    exact roundTrips_opT rfl (lt_of_okM hd) (lt_of_okV ha) hb fun _ _ => if_pos hd
  | redlane d a k =>
    obtain ⟨⟨hd, ha⟩, hk⟩ : (okV d = true ∧ okV a = true) ∧ k < 6 := by simpa [WellFormed] using h
    exact roundTrips_plain rfl (lt_of_okV hd) (lt_of_okV ha) (by omega) fun _ => if_pos hk
  | ld d f | st d f | ldrsv d f | stcnd d f =>
    obtain ⟨hd, hf⟩ := and_split h
    exact roundTrips_addr rfl (lt_of_okV hd) hf fun _ _ _ => rfl
  | pref lvl f =>
    obtain ⟨hl, hf⟩ : lvl < 3 ∧ f.ok = true := by simpa [WellFormed] using h
    exact roundTrips_addr rfl (by omega) hf fun _ _ _ => if_pos hl
  | lds d a b | sts d a b | cmbdisp d a b | cmbput d a b =>
    obtain ⟨hd, ha, hb⟩ := and_split₃ h
    exact roundTrips_opB rfl (lt_of_okV hd) (lt_of_okV ha) hb fun _ _ => rfl
  | atom d f x =>
    obtain ⟨hd, hf, hx⟩ := and_split₃ h
    obtain ⟨ha, hb⟩ := AddrForm.codes_lt hf
    exact roundTrips_of_fields rfl (lt_of_okV hd) ha hb fun r =>
      (decodeFields_atom d _ _ _).trans (ext_enc hx hx (addr_codes (fun f => .atom d f x) hf r))
  | red f x =>
    obtain ⟨hf, hx⟩ := and_split h
    obtain ⟨ha, hb⟩ := AddrForm.codes_lt hf
    exact roundTrips_of_fields rfl (by decide) ha hb fun r =>
      (decodeFields_red _ _ _).trans (ext_enc hx hx (addr_codes (fun f => .red f x) hf r))
  | atoms d a b x =>
    obtain ⟨hc, hb, hx⟩ := and_split₃ h
    obtain ⟨hd, ha⟩ := and_split hc
    refine roundTrips_of_fields rfl (lt_of_okS hd) (lt_of_okP ha) (SOp.code_lt (SOp.isOp_of_isWarp hb)) fun r => ?_
    exact (if_pos hc).trans (ext_enc (Ext.ok_of_okScalar hx) hx (op1_code (fun y => .atoms d a y x) hb r))
  | bar a | bara a => exact roundTrips_opA rfl (by decide) h fun _ _ => rfl
  | trap b | brk b => exact roundTrips_opB rfl (by decide) (by decide) h fun _ _ => rfl
  | abinit a b | abwait a b | qpush a b =>
    obtain ⟨ha, hb⟩ := and_split h
    exact roundTrips_op2 rfl (by decide) ha hb fun _ _ _ => rfl
  | qinit e a b =>
    obtain ⟨he, ha, hb⟩ := and_split₃ h
    exact roundTrips_op2 rfl (lt_of_okV he) ha hb fun _ _ _ => rfl
  | mrel t a x =>
    obtain ⟨ht, ha, hx⟩ := and_split₃ h
    exact roundTrips_op2 rfl (lt_of_okM ht) ha hx fun _ _ _ => if_pos ht
  | fence o c =>
    obtain ⟨⟨hl, hu⟩, hc⟩ : (1 ≤ o ∧ o ≤ 4) ∧ c < 7 := by simpa [WellFormed] using h
    exact roundTrips_plain rfl (by omega) (by omega) (by decide) fun _ => if_pos (by simp [hl, hu, hc])
  | waitc c n =>
    obtain ⟨hc, hn⟩ : c < 6 ∧ okV n = true := by simpa [WellFormed] using h
    exact roundTrips_plain rfl (by omega) (lt_of_okV hn) (by decide) fun _ => if_pos (by simp [hc])
  | qtrypop d a =>
    obtain ⟨hd, ha⟩ := and_split h
    exact roundTrips_opA rfl (lt_of_okP hd) ha fun _ _ => if_pos (by rw [hd]; rfl)
  | gset n b =>
    obtain ⟨hn, hb⟩ := and_split h
    exact roundTrips_opB rfl (lt_of_okM hn) (by decide) hb fun _ _ => if_pos (by rw [hn]; rfl)
  | gclr n | tzero n =>
    have hn : okM n = true := h
    exact roundTrips_plain rfl (lt_of_okM hn) (by decide) (by decide) fun _ => if_pos (by rw [hn]; rfl)
  | cpld ks g p a b | cpst ks g p a b | cpmc ks g p a b | cpga ks g p a b | cpsc ks g p a b | cpfl ks g p a b
  | cprm ks g p a b | cppf ks g p a b => exact roundTrips_copyWord rfl h fun _ _ _ _ => rfl
  | mma bt za t a b | mmax bt za t a b =>
    obtain ⟨⟨⟨hbt, ht⟩, ha⟩, hb⟩ : ((bt < 6 ∧ t < 16) ∧ okV a = true) ∧ okV b = true := by
      simpa [WellFormed, okM] using h
    obtain ⟨hlt, h32, h16, ht⟩ := matrix_fields za hbt ht
    exact roundTrips_plain rfl (by omega) (lt_of_okV ha) (lt_of_okV hb) fun _ =>
      (if_pos hlt).trans (by rw [h32, h16, ht])
  | tld d a b | tst d a b =>
    obtain ⟨hd, ha, hb⟩ := and_split₃ h
    exact roundTrips_opT rfl (lt_of_okV hd) (lt_of_okS ha) hb fun _ _ => if_pos ha
  | recruit d a md ask rk =>
    obtain ⟨⟨⟨⟨⟨hd, h4⟩, ha⟩, hl⟩, hu⟩, hk⟩ :
        ((((okS d = true ∧ a % 4 = 0) ∧ okS a = true) ∧ 1 ≤ md) ∧ md ≤ 13) ∧ ask < 8 := by
      simpa [WellFormed] using h
    obtain ⟨hlo, hhi, hmd, hask, hrk⟩ := recruit_fields rk hl hu hk
    exact roundTrips_plain rfl (lt_of_okS hd) (lt_of_okS ha) (by omega) fun _ =>
      (if_pos (by simp only [hd, h4, ha, hlo, hhi, decide_true, Bool.and_self])).trans (by rw [hmd, hask, hrk])
  | hidx d m =>
    obtain ⟨hd, hm⟩ : okV d = true ∧ m < 14 := by simpa [WellFormed] using h
    exact roundTrips_plain rfl (lt_of_okV hd) (by omega) (by decide) fun _ => if_pos (by simp [hm])
  | hrd d n =>
    obtain ⟨hd, hn⟩ := and_split h
    exact roundTrips_plain rfl (lt_of_okV hd) (lt_of_okV hn) (by decide) fun _ => rfl
  | hred a => exact roundTrips_plain rfl (by decide) (lt_of_okV h) (by decide) fun _ => rfl
  | hjoin d e =>
    obtain ⟨hd, he⟩ := and_split h
    exact roundTrips_plain rfl (lt_of_okV hd) (lt_of_okS he) (by decide) fun _ => if_pos (by rw [he]; rfl)
  | coll fm ts op t a =>
    obtain ⟨hc, ha⟩ := and_split h
    obtain ⟨hlt, h64, h32, h16, ht⟩ := coll_fields hc
    exact roundTrips_plain rfl hlt (lt_of_okB8 ha) (by decide) fun _ =>
      (if_pos (by simp only [h64, h32, h16, ht, hc, ha, decide_true, Bool.and_self])).trans (by rw [h64, h32, h16, ht])
  | cmbcfg d a b =>
    obtain ⟨hd, ha, hb⟩ := and_split₃ h
    exact roundTrips_opB rfl (lt_of_okS hd) (lt_of_okB8 ha) hb fun _ _ => if_pos (by rw [hd, ha]; rfl)
  | cmbdrain d b =>
    obtain ⟨hd, hb⟩ := and_split h
    exact roundTrips_opB rfl (lt_of_okS hd) (by decide) hb fun _ _ => if_pos (by rw [hd]; rfl)
  | srd d n =>
    obtain ⟨hd, hn, hp⟩ := and_split₃ h
    exact roundTrips_plain rfl (lt_of_okS hd) (lt_of_okSrd hn) (by decide) fun _ => if_pos (by rw [hd, hn, hp]; rfl)
  | swr n a =>
    obtain ⟨hn, ha⟩ := okSwr_fields h
    refine roundTrips_of_fields rfl (lt_of_okSrd hn) (SOp.code_lt (SOp.isOp_of_isWarp ha)) (by decide) fun r => ?_
    change swrWord n a.code (a.lits ++ r) = _
    rw [swrWord, readWarpOp_code ha]
    exact if_pos h
  | ptwr a b =>
    obtain ⟨ha, hb⟩ := and_split h
    exact roundTrips_plain rfl (by decide) (lt_of_okP ha) (lt_of_okP hb) fun _ => if_pos h
  | launch d a b =>
    obtain ⟨hd, ha, hb⟩ := and_split₃ h
    exact roundTrips_plain rfl (lt_of_okS hd) (lt_of_okP ha) (lt_of_okP hb) fun _ => if_pos h
  | _ => cases hi

theorem encode_of_isEvent {i : Instr} : i.isEvent = true → encode i = none := by
  cases i <;> simp [Instr.isEvent, encode]

/-- Settles O47: each form of word reads its own operands back. -/
theorem encodedWordsDecodeToThemselves : Obligations.EncodedWordsDecodeToThemselves :=
  fun _ rest => ⟨encode_of_isEvent, fun h hi => Instr.roundTrips h hi rest⟩

end Sys2Proof
end

section
/-! MODE, PART, YIELD and REGANG (O20): what each word writes to its context's control state, and how a parted slice waits for
its gang (03 R81; 05 R119 to R122; 02 R40). -/
namespace Sys2Proof.Machine

/-- The checks of a word of class A that executes once and that no helper may execute. -/
def chkOfGang : Issue → Chk := fun _ => { cls := .a, once := true, helper := false }

theorem chkOfGang_passes {s : State} {w : Warp} (h : w.ctl.helper = none) : (chkOfGang (s.at w)).Passes (s.at w) := by
  constructor <;> simp [chkOfGang, State.at, Issue.c, h]

/-- A word whose checks pass and which does nothing but leave by a flow. -/
theorem givesFlow_of_passes {s : State} {w : Warp} {i : Instr} {chk : Issue → Chk} {f : Flow}
    {body : Issue → Except Trap (List Effect × Flow)} (hw : s.Issuing w) (hi : exec i s = issue chk body s)
    (hc : (chk (s.at w)).Passes (s.at w)) (hf : f.repeats = false) (hb : body s.seen = .ok ([], f)) : s.GivesFlow i f := by
  obtain ⟨t, ht, -, -, -, hreg⟩ := regWord_done (S := noReg) (M := noReg) (V := noLane) hw hc hb hf
    (by simp) (by simp) (by simp) (by simp)
  refine ⟨t, hi.trans ht, ?_⟩
  rwa [regsAll_nil, ← State.warp_of_find hw.1] at hreg

/-! The meanings of the words. -/

theorem exec_mode (m : Nat) (s : State) : exec (.mode m) s = execMode m s := rfl
theorem exec_part (s : State) : exec .part s = execPart s := rfl
theorem exec_yield (s : State) : exec .yield s = execYield s := rfl
theorem exec_regang (s : State) : exec .regang s = execRegang s := rfl

/-- R40: after the flags are shared, a flag operation of a live slice is one of every slice. -/
theorem shareFlags_slices {c : Ctl} {live : Nat} {o : FlagOp} (ho : o ∈ (c.shareFlags live).flagOps)
    (hl : o.slices &&& live ≠ 0) : o.slices = 255 := by
  obtain ⟨p, -, rfl⟩ := List.mem_map.1 ho
  by_cases hp : p.slices &&& live = 0
  · rw [if_pos hp] at hl
    exact absurd hp hl
  · rw [if_neg hp]

/-- The control state of a parted warp whose issuing slices wait at REGANG (R120). -/
def State.waitingAtRegang (s : State) (w : Warp) : Ctl :=
  (w.ctl.ticked s.fresh s.slices).onSlices s.slices (Slice.atRegang (w.ctl.steps (lowest 8 s.slices)))

/-- R121: the live slices clash where all of them wait, and not at one word. -/
theorem regangClashes_iff (w : Warp) (c : Ctl) :
    regangClashes w c = true ↔ none ∉ regangs w c ∧ 1 < (regangs w c).eraseDups.length := by
  rw [regangClashes, Bool.and_eq_true, decide_eq_true_eq, List.all_eq_true]
  refine and_congr_left' ⟨fun h hn => by simpa using h none hn, fun h x hx => ?_⟩
  exact Option.isSome_iff_ne_none.2 fun e => h (e ▸ hx)

section words
variable {s : State} {w : Warp} (hw : s.Issuing w)
include hw

theorem mode_retires (m : Nat) : s.Retires (.mode m) ([.ctl s.cur ((w.ctl.ticked s.fresh s.slices).onSlices s.slices fun x =>
    if w.ctl.priv then { x with modeSup := BitVec.ofNat 16 m } else { x with mode := BitVec.ofNat 16 m })], .next) :=
  (exec_mode m s).trans (issue_retires hw.1 (chkA_passes_of_budget (by simp)).fault (by rw [seen_c hw.1]; rfl))

theorem part_retires (hh : w.ctl.helper = none) (hp : w.ctl.parted = false) : s.Retires .part
    ([.ctl s.cur { (w.ctl.ticked s.fresh s.slices).shareFlags (liveSlices w) with parted := true }], .ends) := by
  refine (exec_part s).trans (issue_retires hw.1 (chkOfGang_passes hh).fault ?_)
  have hp' : (w.ctl.ticked s.fresh s.slices).parted = false := hp
  rw [seen_c hw.1, hp', seen_w hw.1]
  rfl

theorem part_parted (hh : w.ctl.helper = none) (hp : w.ctl.parted = true) : s.GivesFlow .part .ends := by
  refine givesFlow_of_passes hw (exec_part s) (chkOfGang_passes hh) rfl ?_
  have hp' : (w.ctl.ticked s.fresh s.slices).parted = true := hp
  rw [seen_c hw.1, hp']
  rfl

theorem yield_retires (hh : w.ctl.helper = none) : s.Retires .yield
    ([.ctl s.cur ((w.ctl.ticked s.fresh s.slices).onSlices s.slices fun x =>
      { x with park := some (x.park.getD (5, 0, [])), yielded := w.ctl.parted })], .ends) :=
  (exec_yield s).trans (issue_retires hw.1 (chkOfGang_passes hh).fault (by rw [seen_c hw.1]; rfl))

theorem regang_ganged (hh : w.ctl.helper = none) (hp : w.ctl.parted = false) : s.GivesFlow .regang .ends := by
  refine givesFlow_of_passes hw (exec_regang s) (chkOfGang_passes hh) rfl ?_
  have hp' : (w.ctl.ticked s.fresh s.slices).parted = false := hp
  rw [seen_c hw.1, hp']
  rfl

/-- REGANG of a parted slice: its issuing slices wait, and where the live slices wait at different words that is a trap
(R120, R121). -/
theorem regang_parted (hh : w.ctl.helper = none) (hp : w.ctl.parted = true) : s.Retires .regang
    ([.ctl s.cur (if regangClashes w (s.waitingAtRegang w)
        then { s.waitingAtRegang w with trap := some (regangTrap w (s.waitingAtRegang w)) }
        else s.waitingAtRegang w)], .placed) := by
  refine (exec_regang s).trans (issue_retires hw.1 (chkOfGang_passes hh).fault ?_)
  have hp' : (w.ctl.ticked s.fresh s.slices).parted = true := hp
  simp only [seen_c hw.1, hp', seen_w hw.1]
  rfl

theorem regang_waits (hh : w.ctl.helper = none) (hp : w.ctl.parted = true)
    (h : none ∈ regangs w (s.waitingAtRegang w) ∨ (regangs w (s.waitingAtRegang w)).eraseDups.length ≤ 1) :
    s.Retires .regang ([.ctl s.cur (s.waitingAtRegang w)], .placed) := by
  have hr := regang_parted hw hh hp
  rwa [if_neg fun hc => ((regangClashes_iff _ _).1 hc).elim fun hn hl => h.elim hn (Nat.not_le.2 hl)] at hr

theorem regang_clashes (hh : w.ctl.helper = none) (hp : w.ctl.parted = true) (hn : none ∉ regangs w (s.waitingAtRegang w))
    (hl : 1 < (regangs w (s.waitingAtRegang w)).eraseDups.length) :
    ∃ t : Trap, t.code = 1 ∧ s.Retires .regang ([.ctl s.cur { s.waitingAtRegang w with trap := some t }], .placed) := by
  have hr := regang_parted hw hh hp
  rw [if_pos ((regangClashes_iff _ _).2 ⟨hn, hl⟩)] at hr
  exact ⟨_, rfl, hr⟩

end words

/-- Settles O20: each word's writes, and REGANG by whether the waiting slices clash. -/
theorem modePartRegangAndYield : Obligations.ModePartRegangAndYield :=
  fun _ _ m hw => ⟨mode_retires hw m, fun hh => ⟨part_retires hw hh, part_parted hw hh, yield_retires hw hh,
    regang_ganged hw hh, fun hp => ⟨regang_waits hw hh hp, regang_clashes hw hh hp⟩⟩, fun _ _ => shareFlags_slices⟩

end Sys2Proof.Machine
end

section
/-! The step (O49): what comes first, what the issue of a slice runs, and a machine with nothing to settle (03 R55, R72, R80;
02 R51; 01 R13; 05 R127; log entries 1 and 78). -/
namespace Sys2Proof.Machine

/-! The next step from a state. -/

theorem stepFrom_todo {z : State} {i : Instr} {rest : List Instr} (h : z.todo = i :: rest) :
    stepFrom z = exec i { z with todo := rest } := by
  rw [stepFrom, h]

theorem stepFrom_sched {z : State} {m : Move} {rest : List Move} (ht : z.todo = []) (hs : z.sched = m :: rest) :
    stepFrom z = runMove m { z with sched := rest } := by
  rw [stepFrom, ht, hs]

theorem stepFrom_default {z : State} (ht : z.todo = []) (hs : z.sched = []) :
    stepFrom z = firstOf z (defaultSteps z) := by
  rw [stepFrom, ht, hs]

theorem runMove_issue (k j : Nat) (s : State) : runMove (.issue k j) s = issueStep k j s := rfl

theorem runMove_event {i : Instr} (h : i.isEvent = true) (s : State) : runMove (.event i) s = exec i s := if_pos h

/-- The first step of a list that changes the machine is taken. -/
theorem firstOf_append {s : State} {f : State → Out} (pre post : List (State → Out))
    (hq : ∀ g ∈ pre, quiet s (g s) = true) (hf : quiet s (f s) = false) : firstOf s (pre ++ f :: post) = f s := by
  induction pre with
  | nil => rw [List.nil_append, firstOf, if_neg (by simp [hf])]
  | cons g pre ih =>
    rw [List.cons_append, firstOf, if_pos (hq g (List.mem_cons_self ..))]
    exact ih fun x hx => hq x (List.mem_cons_of_mem _ hx)

/-! The turn of a slice. -/

/-- The state in which a word of a slice issues. -/
def State.issuingAt (s : State) (k j : Nat) : State := { s with cur := k, slices := s.gangOf k j }

theorem exec_clauseStart (k j : Nat) (s : State) : exec (.clauseStart k j) s = execClauseStart k j s := rfl

/-- A slice at a clause boundary, or one to be diverted, starts a clause. -/
theorem issueStep_starts {s : State} {k j : Nat}
    (h : ((s.ctl k).slice j).inClause = false ∨ (s.divertTo k j).isSome = true) :
    issueStep k j s = exec (.clauseStart k j) s := by
  rw [issueStep, exec_clauseStart, if_pos (by simpa using h)]

section inside
variable {s : State} {k j : Nat} (hin : ((s.ctl k).slice j).inClause = true) (hd : s.divertTo k j = none)
include hin hd

theorem issueStep_held (hm : s.mayIssue k j = false) : issueStep k j s = commit s [] := by
  rw [issueStep, if_neg (by simp [hin, hd]), if_pos (by simp [hm])]

theorem issueStep_decoded (hm : s.mayIssue k j = true) {i : Instr} {r : List Word}
    (h : decode (s.nextWords k j) = .ok (i, r)) : issueStep k j s = exec i (s.issuingAt k j) := by
  rw [issueStep, if_neg (by simp [hin, hd]), if_neg (by simp [hm]), h]
  rfl

theorem issueStep_undecoded (hm : s.mayIssue k j = true) {e : DecodeError} (h : decode (s.nextWords k j) = .error e) :
    issueStep k j s = exec (.unassignedOpcode ((s.nextWords k j).headD 0).toNat) (s.issuingAt k j) := by
  rw [issueStep, if_neg (by simp [hin, hd]), if_neg (by simp [hm]), h]
  rfl

end inside

/-! What a step finds. -/

theorem settleSnap_idle {s : State} (h : s.snap.st ≠ 2) : settleSnap s = [] := by
  rw [settleSnap, if_neg (by simp [h])]

theorem trained_idle {s : State} (h : s.vil.training = []) : trained s = [] := by
  rw [trained, if_pos (by simp [h])]

/-- With nothing in flight, no warp and no collective thing, nothing comes about between two steps. -/
theorem settled_idle {s : State} (hc : s.copies = []) (hb : s.blocks = []) (hm : s.cmbs = []) (hw : s.warps = [])
    (ht : s.vil.training = []) (hs : s.snap.st ≠ 2) : s.settled = s := by
  have hn : between s = [] := by
    simp only [between, hc, hb, hm, hw, List.flatMap_nil, List.map_nil, List.nil_append, List.append_nil, chain]
    rw [settleSnap_idle hs, applyAll_nil, trained_idle ht]
    rfl
  rw [State.settled, hn, applyAll_nil]

/-- Settles O49: the step from the state that it finds, by what stands first in it. -/
theorem stepRunsTheDecodedInstruction : Obligations.StepRunsTheDecodedInstruction := by
  refine ⟨fun s k j => ⟨fun i rest => stepFrom_todo, fun ht rest hs => ?turn, fun i rest ht hs hi => ?event,
    fun pre f post ht hs hd hq hf => ?default⟩, fun s => settled_idle⟩
  case turn =>
    have hstep : step s = issueStep k j { s.settled with sched := rest } := stepFrom_sched ht hs
    exact ⟨fun hin hd => ⟨fun hm => ⟨fun i r h => hstep.trans (issueStep_decoded hin hd hm h),
      fun e h => hstep.trans (issueStep_undecoded hin hd hm h)⟩, fun hm => hstep.trans (issueStep_held hin hd hm)⟩,
      fun h => hstep.trans (issueStep_starts h)⟩
  case event => exact (stepFrom_sched ht hs).trans (runMove_event hi _)
  case default =>
    rw [step, stepOf, stepFrom_default ht hs, hd]
    exact firstOf_append pre post hq hf

end Sys2Proof.Machine
end

section
/-! The steps of a warp's own (O52): how a clause starts, what is deferred, drained and completed, and residence (03 R61, R72,
R80; 02 R40 to R53; 05 R120, R127, R130; 10 R245; 16 R398; log entries 12, 37, 38 and 61). -/
namespace Sys2Proof.Machine

/-! The start of a clause (R61, R72, R130, R398). -/

theorem clauseStart_diverts {s : State} {k j : Nat} {d : Nat × Nat × Nat} (hl : bit (liveSlices (s.warp k)) j = true)
    (hd : s.divertTo k j = some d) : s.Commits (.clauseStart k j) (divert k (s.gangOf k j) d.1 d.2.1 d.2.2 s) := by
  rw [State.Commits, exec_clauseStart, execClauseStart, if_neg (by simp [hl]), hd]
  rfl

/-- A live slice of a warp that runs stands at a clause boundary: it is not diverted, waits at no REGANG, and has no trap to
raise. -/
structure State.AtBoundary (s : State) (k j : Nat) : Prop where
  live : bit (liveSlices (s.warp k)) j = true
  stays : s.divertTo k j = none
  runs : s.runs k = true
  outside : ((s.ctl k).slice j).inClause = false
  gang : bit (s.gangOf k j) j = true
  ganged : ((s.ctl k).slice j).regang = none
  entered : (s.ctl k).priv = true → bit (s.ctl k).hslices j = true
  untrapped : (s.ctl k).deferClear (s.gangOf k j) = true
  clear : s.waitClear k ((s.ctl k).slice j) = true

section boundary
variable {s : State} {k j : Nat} (h : s.AtBoundary k j)
include h

/-- At a clause boundary single-step comes first, then the flags of the clause, then the turn. -/
theorem clauseStart_boundary : execClauseStart k j s =
    if (s.ctl k).stepTrap (liveSlices (s.warp k)) j = true then
      commit s (stepStop k (s.gangOf k j) (liveSlices (s.warp k)) s)
    else if s.waitBusy k j ≠ 0 then commit s (stallFlags k s)
    else if !s.canTake k j || !s.hasTurn k j || !s.hasPort k then commit s [] else commit s (startClause k j s) := by
  obtain ⟨hl, hd, hr, hin, hg, hre, hp, hde, hw⟩ := h
  have hpriv : ((s.ctl k).priv && !bit (s.ctl k).hslices j) = false := by
    cases hs : (s.ctl k).priv with
    | false => rfl
    | true => simp [hp hs]
  rw [execClauseStart, if_neg (by simp [hl]), hd]
  simp only [hr, hin, hg, hpriv, hre, hde, hw, Option.isNone_none, Bool.not_true, Bool.or_false, Bool.true_or, Bool.or_true,
    Bool.and_true, Bool.true_and, Bool.false_eq_true, if_false, ne_eq, decide_eq_true_eq]

theorem clauseStart_stops (ht : (s.ctl k).stepTrap (liveSlices (s.warp k)) j = true) :
    s.Commits (.clauseStart k j) (stepStop k (s.gangOf k j) (liveSlices (s.warp k)) s) :=
  (clauseStart_boundary h).trans (if_pos ht)

theorem clauseStart_stalls (ht : (s.ctl k).stepTrap (liveSlices (s.warp k)) j = false) (hb : s.waitBusy k j ≠ 0) :
    s.Commits (.clauseStart k j) (stallFlags k s) :=
  (clauseStart_boundary h).trans ((if_neg (by simp [ht])).trans (if_pos hb))

/-- A slice that is ready at a clause boundary has no busy flag to wait for. -/
theorem waitBusy_of_canTake (hc : s.canTake k j = true) : s.waitBusy k j = 0 := by
  simp only [State.canTake, h.outside, Bool.false_or, Bool.and_eq_true, beq_iff_eq] at hc
  exact hc.2.1.1

theorem clauseStart_begins (ht : (s.ctl k).stepTrap (liveSlices (s.warp k)) j = false) (hc : s.canTake k j = true)
    (hu : s.hasTurn k j = true) (hp : s.hasPort k = true) : s.Commits (.clauseStart k j) (startClause k j s) := by
  refine (clauseStart_boundary h).trans ?_
  rw [if_neg (by simp [ht]), if_neg (not_not.2 (waitBusy_of_canTake h hc)), if_neg (by simp [hc, hu, hp])]
  rfl

end boundary

/-! What the fetch of a clause gives (R61). -/

section fetch
variable {s : State} {k j : Nat}

theorem startClause_unfetched {e : LaneFault} (h : s.clauseWords k ((s.ctl k).slice j).pc.toNat 0 2 = .error e) :
    startClause k j s = raiseAt s k (s.gangOf k j) (fetchTrap s (s.warp k) (s.gangOf k j)
      (s.faultAt k ((s.ctl k).slice j).pc.toNat 2) e) := by
  rw [startClause, h]

variable {h0 h1 : Word} {es : List Effect}
  (hh : s.clauseWords k ((s.ctl k).slice j).pc.toNat 0 2 = .ok ([h0, h1], es))
include hh

theorem startClause_bad_header (hbad : headerOk h0.toNat h1.toNat = false) :
    startClause k j s = es ++ raiseAt (applyAll es s) k (s.gangOf k j) { code := 0x02 } := by
  rw [startClause, hh]
  exact if_pos (by simp [hbad])

variable {ws : List Word} {fs : List Effect} (hok : headerOk h0.toNat h1.toNat = true)
  (hw : s.clauseWords k ((s.ctl k).slice j).pc.toNat 2 (h0Len h0.toNat) = .ok (ws, fs))
include hok hw

theorem startClause_bad_words (hbad : wordsOk 32 ws = false) :
    startClause k j s = es ++ raiseAt (applyAll es s) k (s.gangOf k j) { code := 0x02 } := by
  rw [startClause, hh]
  dsimp only
  rw [if_neg (by simp [hok])]
  simp only [List.getD_cons_zero, hw, hbad, Bool.not_false, if_true]

theorem startClause_fetched (hall : wordsOk 32 ws = true) : startClause k j s = chain s [fun _ => es ++ fs,
    fun t => t.cacheClause k ((s.ctl k).slice j).pc.toNat (2 + ws.length), beginClause k (s.gangOf k j) h0 h1 ws] := by
  rw [startClause, hh]
  dsimp only
  rw [if_neg (by simp [hok])]
  simp only [List.getD_cons_zero, hw, hall, Bool.not_true, Bool.false_eq_true, if_false]
  rfl

end fetch

/-! Words of no instruction, deferred traps, stores and flags (R72, R75, R80, R190, R216). -/

theorem exec_unassignedOpcode (n : Nat) (s : State) : exec (.unassignedOpcode n) s = execUnassignedOpcode n s := rfl
theorem exec_deferredTrap (k j : Nat) (s : State) : exec (.deferredTrap k j) s = execDeferredTrap k j s := rfl
theorem exec_flagOpComplete (k n : Nat) (s : State) : exec (.flagOpComplete k n) s = execFlagOpComplete k n s := rfl

theorem unassignedOpcode_traps {s : State} {w : Warp} (hw : s.Issuing w) (n : Nat) :
    s.Traps w (.unassignedOpcode n) (onceOpcode (n / 16777216)) { code := 0x01 } :=
  (exec_unassignedOpcode n s).trans (issue_refused hw.1 rfl)

/-- A deferred trap is raised at a clause boundary, at the first word of a clause (log entry 61), or in HJOIN. -/
theorem deferredTrap_commits {s : State} {k j : Nat} {t : Trap} {rest : List Trap} (hd : ((s.ctl k).slice j).defer = t :: rest)
    (hx : ((s.ctl k).slice j).inClause = false ∨ (((s.ctl k).slice j).idx = 0 ∧ ((s.ctl k).slice j).wait ≠ none) ∨
      ∃ d n, ((s.ctl k).slice j).wait = some (.hjoin d n))
    (hst : (s.ctl k).st = .active ∨ (s.ctl k).st = .pending) (ht : (s.ctl k).trap = none) (hf : s.frozenAt k = false)
    (hh : (s.ctl k).holds j = false) (hn : s.deferHeld k ((s.ctl k).slice j) t = false) :
    s.Commits (.deferredTrap k j) (chain s [
      fun s => [.ctl k ((s.ctl k).onSlices (2 ^ j) fun y => { y with defer := rest })],
      fun s => raiseAt s k (s.gangOf k j) t]) := by
  have hres : (s.ctl k).st.resident = true := by rcases hst with h | h <;> rw [h] <;> rfl
  have hpark : (s.ctl k).st ≠ .parking := by rcases hst with h | h <;> simp [h]
  rw [State.Commits, exec_deferredTrap, execDeferredTrap, hd]
  refine if_neg ?_
  rcases hx with hin | ⟨hidx, hw⟩ | ⟨d, n, hw⟩
  · simp [hin, hres, hpark, ht, hf, hh, hn]
  · simp [hidx, Option.isSome_iff_ne_none.2 hw, hres, hpark, ht, hf, hh, hn]
  · simp [hw, hres, hpark, ht, hf, hh, hn]

theorem tileBehind_first {c : Ctl} {o : FlagOp}
    (h : o.inTile = true → ∀ p ∈ c.flagOps, p.inTile = true → o.id ≤ p.id) :
    c.tileBehind o = false := by
  cases ho : o.inTile with
  | false => simp [Ctl.tileBehind, ho]
  | true => simpa [Ctl.tileBehind, ho] using h ho

theorem flagOpComplete_commits {s : State} {k n : Nat} {o : FlagOp}
    (ho : ((s.ctl k).flagOps.find? fun o => o.id == n) = some o) (hw : o.waiting = []) (hh : o.held = false)
    (hb : o.inTile = true → ∀ p ∈ (s.ctl k).flagOps, p.inTile = true → o.id ≤ p.id) :
    s.Commits (.flagOpComplete k n) (endOp k o s) := by
  rw [State.Commits, exec_flagOpComplete, execFlagOpComplete, ho]
  exact if_neg (by simp [hw, hh, tileBehind_first hb])

/-! Residence (R42 to R53; log entries 12 and 38). -/

theorem exec_parkDelayExpiry (k : Nat) (s : State) : exec (.parkDelayExpiry k) s = execParkDelayExpiry k s := rfl
theorem exec_parkSaveComplete (k : Nat) (s : State) : exec (.parkSaveComplete k) s = execParkSaveComplete k s := rfl
theorem exec_warpRestore (core : Nat) (s : State) : exec (.warpRestore core) s = execWarpRestore core s := rfl
theorem exec_warpActivate (k : Nat) (s : State) : exec (.warpActivate k) s = execWarpActivate k s := rfl
theorem exec_agePromotion (k : Nat) (s : State) : exec (.agePromotion k) s = execAgePromotion k s := rfl
theorem exec_reservationExpire (k j : Nat) (s : State) :
    exec (.reservationExpire k j) s = execReservationExpire k j s := rfl
theorem exec_gangForm (k : Nat) (s : State) : exec (.gangForm k) s = execGangForm k s := rfl

theorem parkDelayExpiry_event (s : State) (k : Nat) : s.Event (.parkDelayExpiry k) (s.canPark k = true) (startParking k s) :=
  State.event_of_test Iff.rfl (exec_parkDelayExpiry k s)

section saving
variable {s : State} {k : Nat} (hst : (s.ctl k).st = .parking)
  (ho : ∀ o ∈ (s.ctl k).flagOps, o.waiting ≠ [] ∨ ∃ y, (s.ctl k).xswap = some y ∧ y.op = o.id)
include hst ho

/-- A parking warp whose flag operations all wait for others is saved, unless it is ready again. -/
theorem parkSaveComplete_parking : execParkSaveComplete k s =
    if s.eventReady k = true then commit s (makeReady s k)
    else commit s (if (s.spillFree (coreOf k) (savedSize (s.ctl k).vb)).isEmpty = true then saveOut k (parked k) s
      else parked k ((s.spillFree (coreOf k) (savedSize (s.ctl k).vb)).getD
        (s.pick 20000 (s.spillFree (coreOf k) (savedSize (s.ctl k).vb)).length) 0) s) := by
  have hops : ((s.ctl k).flagOps.all fun o => !o.waiting.isEmpty || (s.ctl k).xswap.any fun x => x.op == o.id) = true := by
    simpa [Option.any_eq_true] using ho
  rw [execParkSaveComplete, if_neg (by simp [hst, hops])]

theorem parkSaveComplete_ready (h : s.eventReady k = true) : s.Commits (.parkSaveComplete k) (makeReady s k) :=
  (parkSaveComplete_parking hst ho).trans (if_pos h)

theorem parkSaveComplete_saves_out (h : s.eventReady k = false) (hf : s.spillFree (coreOf k) (savedSize (s.ctl k).vb) = []) :
    s.Commits (.parkSaveComplete k) (saveOut k (parked k) s) := by
  rw [State.Commits, exec_parkSaveComplete, parkSaveComplete_parking hst ho, if_neg (by simp [h]), if_pos (by simp [hf])]
  rfl

theorem parkSaveComplete_spills (h : s.eventReady k = false) (hf : s.spillFree (coreOf k) (savedSize (s.ctl k).vb) ≠ []) :
    s.Commits (.parkSaveComplete k) (parked k ((s.spillFree (coreOf k) (savedSize (s.ctl k).vb)).getD
      (s.pick 20000 (s.spillFree (coreOf k) (savedSize (s.ctl k).vb)).length) 0) s) := by
  rw [State.Commits, exec_parkSaveComplete, parkSaveComplete_parking hst ho, if_neg (by simp [h]), if_neg (by simp [hf])]
  rfl

end saving

section restore
variable {s : State} {core v : Nat} {vs : List Nat} (hq : s.readyQueue core = v :: vs) (hf : s.frozenAt v = false)
include hq hf

theorem warpRestore_restores (hw : s.windowFree core (s.ctl v).vb = true) : s.Commits (.warpRestore core)
    [.ctl v { ((s.ctl v).onSlices 255 Slice.restored) with
        st := .pending, saved := false, base := s.windowPick v (s.ctl v).vb },
      .core core { s.core core with ready := (s.core core).ready.filter (· ≠ v) }] := by
  rw [State.Commits, exec_warpRestore, execWarpRestore, hq]
  dsimp only
  rw [if_neg (by simp [hf]), if_pos hw]
  rfl

theorem warpRestore_parks (hw : s.windowFree core (s.ctl v).vb = false) {u : Nat}
    (hu : leastBy (fun g => (s.ctl g).stalled) (s.parkVictims core) = some u) :
    s.Commits (.warpRestore core) (startParking u s) := by
  rw [State.Commits, exec_warpRestore, execWarpRestore, hq]
  dsimp only
  rw [if_neg (by simp [hf]), if_neg (by simp [hw]), hu]
  rfl

end restore

theorem warpActivate_event (s : State) (k : Nat) : s.Event (.warpActivate k)
    (s.pendingReady k = true ∧ s.frozenAt k = false ∧ s.portFree k = true ∧
      ∀ g ∈ s.peersOf k (fun g => s.pendingReady g && !s.frozenAt g), (s.ctl k).issued ≤ (s.ctl g).issued)
    [.ctl k { s.ctl k with st := .active }] :=
  State.event_of_guard (c := (!s.pendingReady k || s.frozenAt k || !s.portFree k
      || (s.peersOf k fun g => s.pendingReady g && !s.frozenAt g).any fun g =>
        decide ((s.ctl g).issued < (s.ctl k).issued)) = true)
    (by simp [imp_iff_not_or, or_assoc]) (exec_warpActivate k s)

/-- A pending warp that has aged takes the next free place of its port's set (log entry 12). -/
theorem agePromotion_event {s : State} {k : Nat} (h : s.pendingReady k = true) : s.Event (.agePromotion k)
    (s.frozenAt k = false ∧ s.portFree k = true) [.ctl k { s.ctl k with st := .active }] :=
  State.event_of_guard (c := (s.frozenAt k || !s.portFree k) = true) (by simp [imp_iff_not_or])
    (by rw [exec_agePromotion, execAgePromotion, if_pos h])

theorem pendingReady_of_runs {s : State} {k : Nat} (h : s.runs k = true) : s.pendingReady k = false := by
  have hst : (s.warp k).ctl.st = .active := by
    simp only [State.runs, Bool.and_eq_true, beq_iff_eq] at h
    exact h.1.1.2
  rw [State.pendingReady]
  simp only [hst]
  rfl

/-- An active warp that has aged issues next. -/
theorem agePromotion_schedules {s : State} {k i : Nat} (h : s.runs k = true)
    (hi : ((s.warp k).liveNow.find? fun i => ((s.ctl k).slice i).inClause && s.sliceReady k ((s.ctl k).slice i)) = some i) :
    s.Commits (.agePromotion k) [.sched (.issue k i :: s.sched)] := by
  rw [State.Commits, exec_agePromotion, execAgePromotion, if_neg (by simp [pendingReady_of_runs h]), hi]
  exact if_pos h

theorem reservationExpire_event {s : State} {k j : Nat} {r : Resv} (h : ((s.ctl k).slice j).resv = some r) :
    s.Event (.reservationExpire k j) (32 ≤ r.count)
      [.ctl k ((s.ctl k).onSlices (2 ^ j) fun y => { y with resv := none })] := by
  refine State.event_of_guard (c := r.count < 32) (by omega) ?_
  rw [exec_reservationExpire, execReservationExpire, h]

theorem gangForm_event (s : State) (k : Nat) : s.Event (.gangForm k)
    (gangReady (s.warp k) = true ∧ ((s.ctl k).st = .active ∨ (s.ctl k).st = .pending) ∧ (s.ctl k).trap = none ∧
      s.frozenAt k = false ∧ (s.ctl k).stepLost (liveSlices (s.warp k)) = false)
    [.ctl k { ((s.ctl k).onSlices 255 fun y => { y with regang := none }).shareFlags (liveSlices (s.warp k)) with
      parted := false }] :=
  State.event_of_guard (c := (!gangReady (s.warp k) || !((s.ctl k).st = .active || (s.ctl k).st = .pending)
      || (s.ctl k).trap.isSome || s.frozenAt k || (s.ctl k).stepLost (liveSlices (s.warp k))) = true)
    (by simp [imp_iff_not_or, or_assoc, Option.isSome_iff_ne_none]) (exec_gangForm k s)

/-- Settles O52: each step of a warp under its condition. -/
theorem warpStepsTakePlace : Obligations.WarpStepsTakePlace := by
  intro s k j
  refine ⟨fun hl => ⟨fun d => clauseStart_diverts hl, fun hd hr hin hg hre hp hde hw => ?starts⟩,
    fun v => unassignedOpcode_traps, fun t rest => deferredTrap_commits, rfl, fun n o ho hw hh hb => ?completes,
    parkDelayExpiry_event s k,
    fun hst ho => ⟨parkSaveComplete_ready hst ho,
      fun h => ⟨parkSaveComplete_saves_out hst ho h, parkSaveComplete_spills hst ho h⟩⟩,
    fun core v vs hq hf => ⟨warpRestore_restores hq hf, fun hw u => warpRestore_parks hq hf hw⟩,
    warpActivate_event s k, agePromotion_event, fun h i => agePromotion_schedules h, fun r => reservationExpire_event,
    gangForm_event s k⟩
  case starts =>
    have h : s.AtBoundary k j := ⟨hl, hd, hr, hin, hg, hre, hp, hde, hw⟩
    refine ⟨clauseStart_stops h, fun ht => ⟨clauseStart_stalls h ht, fun hc hu hport => ?_⟩⟩
    have hb := clauseStart_begins h ht hc hu hport
    refine ⟨fun e he => ?_, fun h0 h1 es hh => ⟨fun hbad => ?_,
      fun hok ws fs hws => ⟨fun hall => ?_, fun hbad => ?_⟩⟩⟩
    · exact startClause_unfetched he ▸ hb
    · exact startClause_bad_header hh hbad ▸ hb
    · exact startClause_fetched hh hok hws hall ▸ hb
    · exact startClause_bad_words hh hok hws hbad ▸ hb
  case completes =>
    have hn : o.id = n := by simpa using List.find?_some ho
    subst hn
    exact flagOpComplete_commits ho hw hh hb

end Sys2Proof.Machine
end

section
/-! The scalar ALU (O1, O2, O3, O5): what its shifts, counts and fields are on bits, what each word computes from the old s[D]
and its operands, GETID, and SADDP (05 R101 to R105, R107). -/
namespace Sys2Proof.Machine

theorem bit_eq_testBit (x n : Nat) : bit x n = x.testBit n := by
  rw [bit, Nat.testBit_eq_decide_div_mod_eq, beq_eq_decide]

/-- The numbers of a run from 0 on. -/
theorem span_eq_range' (lo n : Nat) : span lo n = List.range' lo n := by
  induction n generalizing lo with
  | zero => rfl
  | succ n ih => rw [span, ih, List.range'_succ]

/-- The set bits below n, as a filter of the numbers below n. -/
theorem setBits_eq_filter (n x : Nat) : setBits n x = (List.range n).filter x.testBit := by
  rw [setBits, span_eq_range', ← List.range_eq_range']
  exact congrArg (List.filter · _) (funext (bit_eq_testBit x))

/-- R102, R108: the count of a word's one bits. -/
theorem popcount_eq_countP (x : Word) : popcount 32 x.toNat = (List.range 32).countP fun i => x.getLsbD i := by
  rw [popcount, setBits_eq_filter, List.countP_eq_length_filter]
  rfl

theorem lowest_le (n x : Nat) : lowest n x ≤ n := by
  rw [lowest, List.headD_eq_head?_getD]
  cases h : (setBits n x).head? with
  | none => exact Nat.le_refl n
  | some i =>
    have := span_lt (List.mem_filter.mp (List.mem_of_head? h)).1
    simp only [Option.getD_some]
    omega

/-- No bit below the lowest set one is set. -/
theorem bit_of_lt_lowest {n x i : Nat} (h : i < lowest n x) : bit x i = false := by
  have hn := lowest_le n x
  by_contra hb
  rw [Bool.not_eq_false] at hb
  have hm : i ∈ setBits n x := List.mem_filter.mpr ⟨mem_span.mpr ⟨Nat.zero_le i, by omega⟩, hb⟩
  have hs : (setBits n x).Pairwise (· < ·) := by
    rw [setBits_eq_filter]
    exact List.pairwise_lt_range.filter _
  rw [lowest] at h
  cases hl : setBits n x with
  | nil => simp [hl] at hm
  | cons a t =>
    rw [hl] at hm hs h
    rcases List.mem_cons.mp hm with rfl | hm
    · exact absurd h (Nat.lt_irrefl i)
    · have := (List.pairwise_cons.mp hs).1 i hm
      simp only [List.headD_cons] at h
      omega

/-- The lowest set bit is set. -/
theorem bit_lowest {n x : Nat} (h : lowest n x < n) : bit x (lowest n x) = true := by
  cases hl : setBits n x with
  | nil => simp [lowest, hl] at h
  | cons a t =>
    have ha : a ∈ setBits n x := hl ▸ List.mem_cons_self ..
    rw [lowest, hl]
    exact (List.mem_filter.mp ha).2

theorem clz_le (x : Word) : clz 32 x.toNat ≤ 32 := by
  unfold clz
  split <;> omega

theorem clz_of_ne_zero {x : Word} (h : x ≠ 0) : clz 32 x.toNat = 31 - x.toNat.log2 ∧ x.toNat.log2 < 32 := by
  have hx : x.toNat ≠ 0 := fun e => h (BitVec.eq_of_toNat_eq e)
  rw [clz, Nat.mod_eq_of_lt x.isLt, if_neg hx]
  exact ⟨rfl, (Nat.log2_lt hx).mpr x.isLt⟩

/-- R102: the leading bits that SCLZ counts are 0. -/
theorem getLsbD_of_clz {x : Word} {i : Nat} (hi : 32 - clz 32 x.toNat ≤ i) : x.getLsbD i = false := by
  by_cases hx : x = 0
  · rw [hx]
    exact BitVec.getLsbD_zero
  · obtain ⟨hc, hl⟩ := clz_of_ne_zero hx
    exact Nat.testBit_lt_two_pow (Nat.lt_of_lt_of_le Nat.lt_log2_self (Nat.pow_le_pow_right (by decide) (by omega)))

/-- And the bit after them is 1. -/
theorem getLsbD_at_clz {x : Word} (h : clz 32 x.toNat < 32) : x.getLsbD (31 - clz 32 x.toNat) = true := by
  have hx : x ≠ 0 := fun e => by simp [e, clz] at h
  obtain ⟨hc, hl⟩ := clz_of_ne_zero hx
  rw [hc, show 31 - (31 - x.toNat.log2) = x.toNat.log2 by omega]
  exact Nat.testBit_log2 fun e => hx (BitVec.eq_of_toNat_eq e)

theorem shl32_eq (x y : Word) : shl32 x y = if 32 ≤ y.toNat then 0 else word (x.toNat * 2 ^ y.toNat) := by
  simp only [shl32, ge_iff_le, ← Nat.shiftLeft_eq]
  rfl

theorem shr32_eq (x y : Word) : shr32 x y = if 32 ≤ y.toNat then 0 else word (x.toNat / 2 ^ y.toNat) := by
  simp only [shr32, ge_iff_le, ← Nat.shiftRight_eq_div_pow, ← BitVec.toNat_ushiftRight, BitVec.ofNat_toNat,
    BitVec.setWidth_eq]

theorem sar32_eq (x y : Word) : sar32 x y = BitVec.ofInt 32 (x.toInt / 2 ^ min y.toNat 31) := by
  rw [sar32, BitVec.sshiftRight, Int.shiftRight_eq_div_pow]
  rfl

theorem smin32_eq (x y : Word) : smin32 x y = BitVec.ofInt 32 (min x.toInt y.toInt) := by
  unfold smin32
  split
  · rw [min_eq_left ‹_›, BitVec.ofInt_toInt]
  · rw [min_eq_right (by omega), BitVec.ofInt_toInt]

theorem smax32_eq (x y : Word) : smax32 x y = BitVec.ofInt 32 (max x.toInt y.toInt) := by
  unfold smax32
  split
  · rw [max_eq_left ‹_›, BitVec.ofInt_toInt]
  · rw [max_eq_right (by omega), BitVec.ofInt_toInt]

/-- A field of at least one bit read as a signed number is that of the bit vector of its width. -/
theorem signed_eq_toInt {n : Nat} (hn : 0 < n) (x : Nat) : signed n x = (BitVec.ofNat n x).toInt := by
  obtain ⟨m, rfl⟩ : ∃ m, n = m + 1 := ⟨n - 1, by omega⟩
  simp only [signed, BitVec.toInt_eq_toNat_cond, BitVec.toNat_ofNat, Nat.add_sub_cancel, pow_succ]
  push_cast
  split <;> split <;> omega

/-- R103: the bits of the field that SBFE extracts, and its sign above them. -/
theorem getLsbD_bfe32 (x y : Word) {i : Nat} (hi : i < 32) :
    let pos := y.toNat % 32
    let n := min (y.toNat / 2 ^ 8 % 64) (32 - pos)
    (bfe32 x y).getLsbD i =
      if i < n then x.getLsbD (pos + i) else decide (0 < n) && y.getLsbD 16 && x.getLsbD (pos + n - 1) := by
  intro pos n
  have hn : n ≤ 32 := by omega
  have hpos : bits y.toNat 4 0 = pos := by simp [bits, pos]
  have hbit : ∀ j, (x.toNat / 2 ^ pos % 2 ^ n).testBit j = (decide (j < n) && x.getLsbD (pos + j)) := fun j => by
    rw [Nat.testBit_mod_two_pow, Nat.testBit_div_two_pow, Nat.add_comm j pos]
    rfl
  simp only [bfe32, hpos]
  change (if n = 0 then (0 : Word) else if bit y.toNat 16 = true then BitVec.ofInt 32 (signed n (x.toNat / 2 ^ pos % 2 ^ n))
    else word (x.toNat / 2 ^ pos % 2 ^ n)).getLsbD i = _
  by_cases h0 : n = 0
  · simp [h0]
  have hpn : 0 < n := Nat.pos_of_ne_zero h0
  rw [if_neg h0, bit_eq_testBit, show y.toNat.testBit 16 = y.getLsbD 16 from rfl]
  cases hs : y.getLsbD 16 with
  | false => rw [if_neg (by decide), BitVec.getLsbD_ofNat, hbit]; simp [hi]
  | true =>
    rw [if_pos rfl, signed_eq_toInt hpn, ← BitVec.signExtend, BitVec.getLsbD_signExtend, BitVec.msb_eq_getLsbD_last,
      BitVec.getLsbD_ofNat, BitVec.getLsbD_ofNat, hbit, hbit, Nat.add_sub_assoc hpn pos]
    by_cases h : i < n <;> simp [h, hi, hpn]

/-- R103: SBFI replaces the bits of its field and keeps the others. -/
theorem getLsbD_bfi32 (d x y : Word) {i : Nat} (hi : i < 32) :
    let pos := y.toNat % 32
    let n := min (y.toNat / 2 ^ 8 % 64) (32 - pos)
    (bfi32 d x y).getLsbD i = if pos ≤ i ∧ i < pos + n then x.getLsbD (i - pos) else d.getLsbD i := by
  intro pos n
  have hpos : bits y.toNat 4 0 = pos := by simp [bits, pos]
  have hm : (word ((2 ^ n - 1) * 2 ^ pos)).getLsbD i = decide (pos ≤ i ∧ i < pos + n) := by
    rw [BitVec.getLsbD_ofNat, Nat.testBit_mul_two_pow, Nat.testBit_two_pow_sub_one]
    simp only [hi, decide_true, Bool.true_and, Bool.decide_and]
    by_cases h : pos ≤ i
    · simp [h, Nat.sub_lt_iff_lt_add h, Nat.add_comm]
    · simp [h]
  simp only [bfi32, hpos]
  change (d &&& ~~~ word ((2 ^ n - 1) * 2 ^ pos) ||| x <<< pos &&& word ((2 ^ n - 1) * 2 ^ pos)).getLsbD i = _
  rw [BitVec.getLsbD_or, BitVec.getLsbD_and, BitVec.getLsbD_and, BitVec.getLsbD_not, BitVec.getLsbD_shiftLeft, hm]
  by_cases h : pos ≤ i ∧ i < pos + n
  · simp [h, hi, Nat.not_lt.mpr h.1]
  · simp [h, hi]

/-! What each word of the scalar ALU computes from the old s[D] and its operands (R102 to R104). -/

/-- A word that writes to s[d] one value of the old s[d] and its operands. -/
def Instr.Computes (i : Instr) (d : Nat) (a b : SOp) (g : Word → Word → Word → Word) : Prop :=
  ∃ ops : List SOp, (∀ x ∈ ops, x = a ∨ x = b) ∧
    ∀ s, exec i s = scalarOp d ops (fun I => g (I.rs d) (I.op a) (I.op b)) s

theorem computes_unary {i : Instr} {d : Nat} {a : SOp} (b : SOp) {g : Word → Word → Word → Word}
    (h : ∀ s, exec i s = scalarOp d [a] (fun I => g (I.rs d) (I.op a) (I.op b)) s) : Instr.Computes i d a b g :=
  ⟨[a], by simp, h⟩

theorem computes_binary {i : Instr} {d : Nat} {a b : SOp} {g : Word → Word → Word → Word}
    (h : ∀ s, exec i s = scalarOp d [a, b] (fun I => g (I.rs d) (I.op a) (I.op b)) s) : Instr.Computes i d a b g :=
  ⟨[a, b], by simp, h⟩

section words
variable (d : Nat) (a b : SOp)

theorem smov_computes : Instr.Computes (.smov d a) d a b fun _ x _ => x := computes_unary b fun _ => rfl
theorem sadd_computes : Instr.Computes (.sadd d a b) d a b fun _ x y => x + y := computes_binary fun _ => rfl
theorem ssub_computes : Instr.Computes (.ssub d a b) d a b fun _ x y => x - y := computes_binary fun _ => rfl
theorem smul_computes : Instr.Computes (.smul d a b) d a b fun _ x y => x * y := computes_binary fun _ => rfl
theorem smulh_computes : Instr.Computes (.smulh d a b) d a b fun _ x y => word (x.toNat * y.toNat / 2 ^ 32) :=
  computes_binary fun _ => rfl
theorem sand_computes : Instr.Computes (.sand d a b) d a b fun _ x y => x &&& y := computes_binary fun _ => rfl
theorem sor_computes : Instr.Computes (.sor d a b) d a b fun _ x y => x ||| y := computes_binary fun _ => rfl
theorem sxor_computes : Instr.Computes (.sxor d a b) d a b fun _ x y => x ^^^ y := computes_binary fun _ => rfl
theorem sshl_computes : Instr.Computes (.sshl d a b) d a b fun _ x y => shl32 x y := computes_binary fun _ => rfl
theorem sshr_computes : Instr.Computes (.sshr d a b) d a b fun _ x y => shr32 x y := computes_binary fun _ => rfl
theorem ssar_computes : Instr.Computes (.ssar d a b) d a b fun _ x y => sar32 x y := computes_binary fun _ => rfl
theorem smin_computes : Instr.Computes (.smin d a b) d a b fun _ x y => smin32 x y := computes_binary fun _ => rfl
theorem smax_computes : Instr.Computes (.smax d a b) d a b fun _ x y => smax32 x y := computes_binary fun _ => rfl
theorem scmp_computes : Instr.Computes (.scmp d a b) d a b fun _ x y => relation x y := computes_binary fun _ => rfl
theorem ssel_computes : Instr.Computes (.ssel d a b) d a b fun z x y => if z ≠ 0 then x else y :=
  computes_binary fun _ => rfl
theorem sbfe_computes : Instr.Computes (.sbfe d a b) d a b fun _ x y => bfe32 x y := computes_binary fun _ => rfl
theorem sbfi_computes : Instr.Computes (.sbfi d a b) d a b bfi32 := computes_binary fun _ => rfl
theorem spopc_computes : Instr.Computes (.spopc d a) d a b fun _ x _ => word (popcount 32 x.toNat) :=
  computes_unary b fun _ => rfl
theorem sclz_computes : Instr.Computes (.sclz d a) d a b fun _ x _ => word (clz 32 x.toNat) :=
  computes_unary b fun _ => rfl

end words

section gives
variable {s : State} {w : Warp} {d : Nat} (hw : s.Issuing w)
include hw

/-- A word of one scalar result gives the value that its meaning has. -/
theorem givesScalar_of_scalarOp {i : Instr} {ops : List SOp} {f : Issue → Word} {x : Word}
    (hs : ∀ n ∈ d :: ops.flatMap opRegs, n < w.ctl.sbudget) (hi : exec i s = scalarOp d ops f s) (hx : f s.seen = x) :
    s.GivesScalar i d x := by
  subst hx
  rw [State.GivesScalar, hi]
  exact scalarOp_done hw hs

/-- A word of the scalar ALU gives what it computes from the registers as the issue finds them. -/
theorem givesScalar_of_computes {a b : SOp} {i : Instr} {g : Word → Word → Word → Word}
    (hs : ∀ n ∈ d :: (opRegs a ++ opRegs b), n < w.ctl.sbudget) (h : Instr.Computes i d a b g) :
    s.GivesScalar i d (g ((s.at w).rs d) ((s.at w).op a) ((s.at w).op b)) := by
  obtain ⟨ops, hops, hi⟩ := h
  refine givesScalar_of_scalarOp hw (fun n hn => hs n ?_) (hi s) (by rw [seen_rs hw.1, seen_op hw.1, seen_op hw.1])
  simp only [List.mem_cons, List.mem_flatMap, List.mem_append] at hn ⊢
  refine hn.imp id fun ⟨x, hx, hn⟩ => ?_
  rcases hops x hx with rfl | rfl
  · exact .inl hn
  · exact .inr hn

end gives

/-- Settles O1: each word computes the table's value; the shifts, extremes and counts by what they are on bits. -/
theorem scalarAluWritesTableResult : Obligations.ScalarAluWritesTableResult := by
  intro s w d a b hw hs x y
  have gives : ∀ {i g z}, Instr.Computes i d a b g → g ((s.at w).rs d) x y = z → s.GivesScalar i d z := fun h hz =>
    hz ▸ givesScalar_of_computes hw hs h
  exact ⟨gives (smov_computes d a b) rfl, gives (sadd_computes d a b) rfl, gives (ssub_computes d a b) rfl,
    gives (smul_computes d a b) rfl, gives (smulh_computes d a b) rfl, gives (sand_computes d a b) rfl,
    gives (sor_computes d a b) rfl, gives (sxor_computes d a b) rfl, gives (sshl_computes d a b) (shl32_eq x y),
    gives (sshr_computes d a b) (shr32_eq x y), gives (ssar_computes d a b) (sar32_eq x y),
    gives (smin_computes d a b) (smin32_eq x y), gives (smax_computes d a b) (smax32_eq x y),
    gives (spopc_computes d a b) (congrArg word (popcount_eq_countP x)),
    clz 32 x.toNat, clz_le x, gives (sclz_computes d a b) rfl, fun _ _ => getLsbD_of_clz, getLsbD_at_clz⟩

theorem exec_saddp (d a : Nat) (b : SOp) (s : State) : exec (.saddp d a b) s = execSaddp d a b s := rfl

/-- R59: a 64-bit value from its halves. -/
theorem append_halves (x : DWord) : ((x >>> 32).setWidth 32 : Word) ++ (x.setWidth 32 : Word) = x := by
  refine BitVec.eq_of_getLsbD_eq fun i hi => ?_
  rw [BitVec.getLsbD_append]
  by_cases h : i < 32
  · simp [h]
  · simp [h, show i - 32 < 32 by omega, show 32 + (i - 32) = i by omega]

/-- A word of class A that writes a scalar pair and nothing else. -/
theorem givesPair_of_issue {s : State} {w : Warp} {i : Instr} {ss : List Nat} {d : Nat} {x : DWord}
    {body : Issue → Except Trap (List Effect × Flow)} (hw : s.Issuing w) (hs : ∀ n ∈ ss, n < w.ctl.sbudget)
    (hd : d + 1 < w.ctl.sbudget) (hi : exec i s = issue (chkA ss) body s) (hb : body s.seen = .ok (pairOut s.cur d x, .next)) :
    s.GivesPair i d x := by
  have hle := Ctl.sbudget_le w.ctl
  have hlo : (regsAll (pairOut s.cur d x) w).readS d = x.setWidth 32 :=
    regsAll_readS hw.2 (by omega) ⟨s.cur, by simp [pairOut]⟩ (by simp [pairOut])
  have hhi : (regsAll (pairOut s.cur d x) w).readS (d + 1) = (x >>> 32).setWidth 32 :=
    regsAll_readS hw.2 (by omega) ⟨s.cur, by simp [pairOut]⟩ (by simp [pairOut])
  obtain ⟨t, ht, hS, -, -, hreg⟩ := regWord_done (S := fun n => n = d ∨ n = d + 1) (M := noReg) (V := noLane) hw
    (chkA_passes_of_budget hs) hb rfl (by simp [pairOut, Effect.isReg])
    (by simp only [pairOut, List.mem_cons, List.not_mem_nil, or_false]; rintro n hn e (rfl | rfl) k y <;> simp <;> tauto)
    (by simp [pairOut]) (by simp [pairOut])
  refine ⟨t, hi.trans ht, ?_, ?_⟩
  · rw [hS, hS, hlo, hhi, append_halves]
  · rwa [regsAll_lfsr w (by simp [pairOut]), ← State.warp_of_find hw.1] at hreg

/-- Settles O2: the two field words bit by bit, the others by what they compute. -/
theorem scalarFieldsRelationsAndPairs : Obligations.ScalarFieldsRelationsAndPairs := by
  intro s w d a b hw hs x y pos n
  refine ⟨⟨_, givesScalar_of_computes hw hs (sbfe_computes d a b), fun i hi => getLsbD_bfe32 x y hi⟩,
    ⟨_, givesScalar_of_computes hw hs (sbfi_computes d a b), fun i hi => getLsbD_bfi32 ((s.at w).rs d) x y hi⟩,
    givesScalar_of_computes hw hs (scmp_computes d a b), ?ssel, fun p hp => ?saddp⟩
  case ssel =>
    have h := givesScalar_of_computes hw hs (ssel_computes d a b)
    simpa only [ite_not, ne_eq] using h
  case saddp =>
    refine givesPair_of_issue (ss := [d, d + 1, p, p + 1] ++ opRegs b) hw (fun n hn => ?_) (hp _ (List.mem_cons_self ..))
      (exec_saddp d p b s) ?_
    · simp only [List.cons_append, List.nil_append, List.mem_cons] at hn hp hs
      rcases hn with rfl | rfl | rfl | rfl | hn
      · exact hs _ (.inl rfl)
      · exact hp _ (.inl rfl)
      · exact hp _ (.inr (.inl rfl))
      · exact hp _ (.inr (.inr (.inl rfl)))
      · exact hs _ (.inr (List.mem_append_right _ hn))
    · rw [seen_pair hw.1, seen_op hw.1]
      rfl

/-- What an issue gives as an identity is what it was before its marks clear. -/
theorem seen_ident {s : State} {w : Warp} (hw : find s.warps s.cur = some w) (sel : Nat) :
    s.seen.ident sel = (s.at w).ident sel := by
  unfold Issue.ident
  rw [seen_lane hw, seen_blk hw, seen_c hw]
  simp only [State.seen, State.ticked_eq hw, State.at]
  rfl

theorem exec_getid (d sel : Nat) (s : State) : exec (.getid d sel) s = execGetid d sel s := rfl

/-- Settles O3: each selector names its identity. -/
theorem getidNamesTheIssuer : Obligations.GetidNamesTheIssuer := by
  intro s w d hw hd
  have gives : ∀ sel, s.GivesScalar (.getid d sel) d (word ((s.at w).ident sel)) := fun sel =>
    givesScalar_of_scalarOp hw (by simpa using hd) (exec_getid d sel s) (congrArg word (seen_ident hw.1 sel))
  exact ⟨gives 0, gives 1, gives 2, gives 3, gives 4, gives 5, gives 6, gives 7, gives 8⟩

/-! The mode registers are none of what these words read (R101). -/

/-- A state with the issuing context's control state replaced by one alike reads its scalar registers and operands as
before. -/
theorem State.rs_put {s : State} {w : Warp} {c : Ctl} (hw : find s.warps s.cur = some w) (hc : c.Alike w.ctl) (n : Nat) :
    (State.at { s with warps := put s.warps s.cur { w with ctl := c } } { w with ctl := c }).rs n = (s.at w).rs n := by
  simp only [Issue.rs, State.at, State.readS, State.warp, find_put_same, hw, Option.getD_some, Warp.readS_ctl hc]

theorem State.op_put {s : State} {w : Warp} {c : Ctl} (hw : find s.warps s.cur = some w) (hc : c.Alike w.ctl) (x : SOp) :
    (State.at { s with warps := put s.warps s.cur { w with ctl := c } } { w with ctl := c }).op x = (s.at w).op x := by
  cases x <;> simp only [Issue.op, State.rs_put hw hc]

/-- Each word of the scalar ALU computes its result from the old s[d] and its operands alone. -/
theorem scalarAlu_computes (d : Nat) (a b : SOp) : ∀ i ∈ [Instr.smov d a, .sadd d a b, .ssub d a b, .smul d a b, .smulh d a b,
    .sand d a b, .sor d a b, .sxor d a b, .sshl d a b, .sshr d a b, .ssar d a b, .smin d a b, .smax d a b, .scmp d a b,
    .ssel d a b, .sbfe d a b, .sbfi d a b, .spopc d a, .sclz d a], ∃ g, Instr.Computes i d a b g := by
  simp only [List.forall_mem_cons]
  exact ⟨⟨_, smov_computes d a b⟩, ⟨_, sadd_computes d a b⟩, ⟨_, ssub_computes d a b⟩, ⟨_, smul_computes d a b⟩,
    ⟨_, smulh_computes d a b⟩, ⟨_, sand_computes d a b⟩, ⟨_, sor_computes d a b⟩, ⟨_, sxor_computes d a b⟩,
    ⟨_, sshl_computes d a b⟩, ⟨_, sshr_computes d a b⟩, ⟨_, ssar_computes d a b⟩, ⟨_, smin_computes d a b⟩,
    ⟨_, smax_computes d a b⟩, ⟨_, scmp_computes d a b⟩, ⟨_, ssel_computes d a b⟩, ⟨_, sbfe_computes d a b⟩,
    ⟨_, sbfi_computes d a b⟩, ⟨_, spopc_computes d a b⟩, ⟨_, sclz_computes d a b⟩, List.forall_mem_nil _⟩

/-- Settles O5: the result comes from s[d] and the operands, which read the same under any mode. -/
theorem scalarWordsIgnoreTheMode : Obligations.ScalarWordsIgnoreTheMode := by
  intro s w mode d a b hw hs w' s' i hi t t' ht ht'
  obtain ⟨g, hg⟩ := scalarAlu_computes d a b i hi
  have hc : w'.ctl.Alike w.ctl := Ctl.onSlices_alike _ _ _
  have hw' : s'.Issuing w' := ⟨find_put_same _ _ _, hw.2⟩
  obtain ⟨u, hu, hx, -⟩ := givesScalar_of_computes hw hs hg
  obtain ⟨u', hu', hx', -⟩ := givesScalar_of_computes hw' hs hg
  rw [State.rs_put hw.1 hc, State.op_put hw.1 hc, State.op_put hw.1 hc] at hx'
  cases ht.symm.trans hu
  cases ht'.symm.trans hu'
  exact hx.trans hx'.symm

end Sys2Proof.Machine
end

section
/-! The mask words (O4): a write of one mask, the requests for release that a write of m0 makes of the helpers on the warp's
slices, and the counts that a mask gives (05 R108, R109; 13 R318). -/
namespace Sys2Proof.Machine

/-- Changes of control states of the keys of a set leave all else. -/
theorem applyAll_ctls {s : State} {es : List Effect} {K : Nat → Prop} (h : ∀ e ∈ es, ∃ k c, e = .ctl k c ∧ K k) :
    ∃ l, applyAll es s = { s with warps := l } ∧ (∀ k, ¬K k → find l k = find s.warps k) ∧
      ∀ k y, find s.warps k = some y → ∃ c, find l k = some { y with ctl := c } := by
  induction es generalizing s with
  | nil => exact ⟨s.warps, rfl, fun _ _ => rfl, fun k y hy => ⟨y.ctl, hy⟩⟩
  | cons e t ih =>
    obtain ⟨k, c, rfl, hk⟩ := h e (List.mem_cons_self ..)
    obtain ⟨l, hl, hout, hin⟩ := ih (s := apply (.ctl k c) s) fun x hx => h x (List.mem_cons_of_mem _ hx)
    rw [apply_ctl] at hl hout hin
    cases hf : find s.warps k with
    | none =>
      rw [State.onWarp_none _ hf] at hl hout hin
      exact ⟨l, by rw [applyAll_cons, apply_ctl, State.onWarp_none _ hf, hl], hout, hin⟩
    | some w =>
      rw [State.onWarp_some _ hf] at hl hout hin
      refine ⟨l, by rw [applyAll_cons, apply_ctl, State.onWarp_some _ hf, hl], fun j hj => ?_, fun j y hy => ?_⟩
      · exact (hout j hj).trans (find_put_ne _ _ fun e => hj (e ▸ hk))
      · by_cases e : j = k
        · subst e
          obtain rfl : w = y := Option.some.inj (hf.symm.trans hy)
          exact hin j { w with ctl := c } (find_put_same s.warps j { w with ctl := c })
        · exact hin j y ((find_put_ne _ _ e).trans hy)

/-! The helpers on a warp's slices. -/

/-- An effect that changes the control state of a helper of a host and leaves it one. -/
def Effect.onHelper (h : Nat) (e : Effect) : Prop :=
  ∃ k c, e = .ctl k c ∧ helperBase ≤ k ∧ hostKey k = h ∧ c.helper.isSome = true

theorem hostKey_ne {k : Nat} (h : helperBase ≤ k) : hostKey k ≠ k := by
  rw [hostKey, if_neg (by omega)]
  simp only [helperBase] at h ⊢
  omega

/-- A host that has helpers has helpers after such changes. -/
theorem lent_applyAll {h : Nat} {es : List Effect} {s : State} (he : ∀ e ∈ es, e.onHelper h) (hl : s.lent h ≠ []) :
    (applyAll es s).lent h ≠ [] := by
  induction es generalizing s with
  | nil => exact hl
  | cons e t ih =>
    obtain ⟨k, c, rfl, hk, hh, hc⟩ := he e (List.mem_cons_self ..)
    refine ih (s := s.onWarp k _) (fun x hx => he x (List.mem_cons_of_mem _ hx)) ?_
    cases hf : find s.warps k with
    | none => rwa [State.onWarp_none _ hf]
    | some w =>
      rw [State.onWarp_some _ hf]
      exact List.ne_nil_of_mem (a := (k, { w with ctl := c }))
        (List.mem_filter.mpr ⟨mem_of_find (find_put_same _ _ _), by simp [hk, hh, hc]⟩)

/-- R318: what a write of a mask asks for is the release of helpers on the warp's slices, and only a write of m0 asks. -/
theorem mem_recall {I : Issue} {d : Nat} {x : Word} {e : Effect} (h : e ∈ I.recall d x) :
    d = 0 ∧ ∃ p ∈ I.s.lent I.k, ∃ c, e = .ctl p.1 c ∧ c.helper.isSome = true := by
  unfold Issue.recall at h
  split at h
  · simp at h
  · rename_i hd
    refine ⟨by simpa using hd, ?_⟩
    obtain ⟨p, hp, he⟩ := List.mem_filterMap.mp h
    refine ⟨p, hp, ?_⟩
    split at he
    · obtain ⟨-, he⟩ := Option.ite_none_right_eq_some.mp he
      exact ⟨_, (Option.some.inj he).symm, rfl⟩
    · simp at he

theorem recall_onHelper {I : Issue} {d : Nat} {x : Word} {e : Effect} (h : e ∈ I.recall d x) : e.onHelper I.k := by
  obtain ⟨-, p, hp, c, rfl, hc⟩ := mem_recall h
  have hp := (List.mem_filter.mp hp).2
  simp only [Bool.and_eq_true, decide_eq_true_eq, beq_iff_eq] at hp
  exact ⟨p.1, c, rfl, hp.1.1, hp.1.2, hc⟩

/-- The state after a word that changes registers of its own context and then control states of the helpers on its slices. -/
theorem retire_regs_helpers {s : State} {w : Warp} {rs hs : List Effect} {f : Flow} {K : Nat → Prop} (ha : f.repeats = false)
    (hw : find s.warps s.cur = some w) (hr : ∀ e ∈ rs, e.isReg s.cur) (hh : ∀ e ∈ hs, e.onHelper s.cur)
    (hK : ∀ e ∈ hs, ∃ k c, e = .ctl k c ∧ K k) (hl : hs ≠ [] → s.lent s.cur ≠ []) :
    ∃ l, s.retire (rs ++ hs) f = { s with
        warps := put l s.cur { regsAll rs { w with ctl := w.ctl.ticked s.fresh s.slices } with ctl := s.leaving f }
        fresh := s.fresh + 1 } ∧
      (∀ k, k ≠ s.cur → ¬K k → find l k = find s.warps k) ∧
      ∀ k y, k ≠ s.cur → find s.warps k = some y → ∃ c, find l k = some { y with ctl := c } := by
  obtain ⟨w2, hw2⟩ : ∃ w2, w2 = regsAll rs { w with ctl := w.ctl.ticked s.fresh s.slices } := ⟨_, rfl⟩
  have h1 : applyAll rs s.ticked = { s with warps := put s.warps s.cur w2 } := by
    rw [hw2, State.ticked_eq hw]
    exact applyAll_regs hr
  have hown : ∀ e ∈ hs, ∃ k c, e = .ctl k c ∧ (k ≠ s.cur ∧ K k) := by
    intro e he
    obtain ⟨k, c, rfl, hk, hhost, -⟩ := hh e he
    obtain ⟨k', c', e', hK'⟩ := hK _ he
    obtain ⟨rfl, rfl⟩ : k = k' ∧ c = c' := by simpa using e'
    exact ⟨k, c, rfl, fun e => hostKey_ne hk (hhost.trans e.symm), hK'⟩
  obtain ⟨l, h2, hout, hin⟩ := applyAll_ctls (s := { s with warps := put s.warps s.cur w2 }) hown
  have hlent : (State.lent { s with warps := l } s.cur).isEmpty = (s.lent s.cur).isEmpty := by
    by_cases e : hs = []
    · subst e
      obtain rfl : put s.warps s.cur w2 = l := congrArg State.warps h2
      rw [lent_put]
    · have hne := lent_applyAll hh (s := { s with warps := put s.warps s.cur w2 }) (by rw [lent_put]; exact hl e)
      rw [h2] at hne
      rw [List.isEmpty_eq_false_iff.mpr (hl e)]
      exact List.isEmpty_eq_false_iff.mpr hne
  have hcur : find l s.cur = some w2 := (hout s.cur fun h => h.1 rfl).trans (find_put_same _ _ _)
  refine ⟨l, ?_, fun k hk hnK => (hout k fun h => hnK h.2).trans (find_put_ne _ _ hk),
    fun k y hk hy => hin k y ((find_put_ne _ _ hk).trans hy)⟩
  have hn : f ≠ .again := fun e => by simp [e, Flow.repeats] at ha
  rw [State.retire]
  dsimp only
  rw [if_neg hn, applyAll_append, h1, h2, follow_advance _ _ _ _ ha, advance, applyAll_cons, applyAll_nil, apply_ctl,
    apply_fresh, State.onWarp_some _ hcur]
  dsimp only
  rw [hlent, State.ctl_of_find hcur, State.warp_of_find hcur, hw2, regsAll_ctl, regsAll_live]
  simp only [State.leaving, State.ctl, State.warp_of_find hw]
  rfl

/-- The value that a mask write leaves, and no other register changed by it. -/
theorem maskOut_isReg {I : Issue} {d : Nat} {x : Word} {e : Effect} (h : e ∈ I.maskOut d x) :
    d < 14 ∧ e = .mask I.k d (if I.c.parted then (I.w.readM d &&& ~~~ word I.lanes) ||| (x &&& word I.lanes) else x) := by
  unfold Issue.maskOut at h
  split at h
  · exact ⟨‹_›, List.mem_singleton.mp h⟩
  · simp at h

/-- What maskOp does: it writes one mask, or discards the write, and leaves all else but the helpers' control states. -/
theorem givesMask_of_maskOp {s : State} {w : Warp} {i : Instr} {d : Nat} {ss : List Nat} {f : Issue → Word} {x : Word}
    (hw : s.Issuing w) (hs : ∀ n ∈ ss, n < w.ctl.sbudget) (hi : exec i s = maskOp d ss f s) (hx : f s.seen = x) :
    s.GivesMask w i d x := by
  subst hx
  obtain ⟨w1, hw1⟩ : ∃ w1 : Warp, w1 = { w with ctl := w.ctl.ticked s.fresh s.slices } := ⟨_, rfl⟩
  have hbits : maskBits w1.ctl = maskBits w.ctl := hw1 ▸ maskBits_alike (Ctl.ticked_alike w.ctl s.fresh s.slices)
  have hv : (if s.seen.c.parted then (s.seen.w.readM d &&& ~~~ word s.seen.lanes) ||| (f s.seen &&& word s.seen.lanes)
      else f s.seen) &&& maskBits w.ctl = (s.at w).maskKept d (f s.seen) := by
    rw [seen_c hw.1, show s.seen.w.readM d = _ from seen_m hw.1 d]
    rfl
  have hlent : s.seen.s.lent s.seen.k = s.lent s.cur := by
    change s.ticked.lent s.cur = _
    rw [State.ticked_eq hw.1, lent_put]
  obtain ⟨l, hl, hout, hin⟩ := retire_regs_helpers (f := .next) (rs := s.seen.maskOut d (f s.seen))
    (hs := s.seen.recall d (f s.seen)) (K := fun k => d = 0 ∧ k ∈ (s.lent s.cur).map Prod.fst) rfl hw.1
    (fun e he => by obtain ⟨-, rfl⟩ := maskOut_isReg he; rfl) (fun e he => recall_onHelper he)
    (fun e he => by
      obtain ⟨hd, p, hp, c, rfl, -⟩ := mem_recall he
      exact ⟨p.1, c, rfl, hd, List.mem_map_of_mem (hlent ▸ hp)⟩)
    (fun hne => by
      obtain ⟨e, he⟩ := List.exists_mem_of_ne_nil _ hne
      obtain ⟨-, p, hp, -⟩ := mem_recall he
      exact List.ne_nil_of_mem (hlent ▸ hp))
  rw [← hw1] at hl
  have hregs : ∀ (es : List Effect), (s.leaving .next).Alike (regsAll es w1).ctl := fun es => by
    rw [regsAll_ctl, State.leaving, State.ctl_of_find hw.1, hw1]
    exact Ctl.after_alike _ _ _ _ _ _
  refine ⟨_, hi.trans (issue_retires hw.1 (chkA_passes_of_budget hs).fault rfl), ?_⟩
  rw [hl]
  refine ⟨fun hd => ?_, ⟨rfl, fun k hk => ?_⟩, fun k y hk hy => ?_, ?_, ?_, ?_⟩
  · rw [State.warp_put, Warp.readM_ctl (hregs _), ← hv, ← hbits]
    refine regsAll_readM (hw1 ▸ hw.2) hd ⟨s.cur, ?_⟩ fun j y hy => ?_
    · rw [Issue.maskOut, if_pos hd]
      exact List.mem_singleton.mpr rfl
    · exact (Effect.mask.inj (maskOut_isReg hy).2).2.2
  · exact (find_put_ne _ _ fun e => hk (.inl e)).trans (hout k (fun e => hk (.inl e)) fun h => hk (.inr h))
  · obtain ⟨c, hc⟩ := hin k y hk hy
    exact ⟨c, (find_put_ne _ _ hk).trans hc⟩
  · simp only [State.SameRegs, State.warp_put, State.warp_of_find hw.1]
    refine ⟨fun n _ => ?_, fun n hn => ?_, fun r l hl _ => ?_⟩
    · rw [Warp.readS_ctl (hregs _), regsAll_readS_ne _ fun e he k y => by obtain ⟨-, rfl⟩ := maskOut_isReg he; simp, hw1,
        Warp.readS_ctl (Ctl.ticked_alike _ _ _)]
    · rw [Warp.readM_ctl (hregs _), regsAll_readM_ne _ fun e he k y => ?_, hw1, Warp.readM_ctl (Ctl.ticked_alike _ _ _)]
      obtain ⟨hd, rfl⟩ := maskOut_isReg he
      simp only [ne_eq, Effect.mask.injEq, not_and]
      exact fun _ e => absurd ⟨e.symm, hd⟩ hn
    · rw [Warp.readV_ctl, regsAll_readV_ne _ hl fun e he k y => by obtain ⟨-, rfl⟩ := maskOut_isReg he; simp, hw1,
        Warp.readV_ctl]
  · rw [State.warp_put]
    exact (regsAll_lfsr _ fun e he k y => by obtain ⟨-, rfl⟩ := maskOut_isReg he; simp).trans (by rw [hw1])
  · simp only [State.ctl, State.warp_put]

theorem exec_mand (d a b : Nat) (s : State) : exec (.mand d a b) s = execMand d a b s := rfl
theorem exec_mor (d a b : Nat) (s : State) : exec (.mor d a b) s = execMor d a b s := rfl
theorem exec_mxor (d a b : Nat) (s : State) : exec (.mxor d a b) s = execMxor d a b s := rfl
theorem exec_mandn (d a b : Nat) (s : State) : exec (.mandn d a b) s = execMandn d a b s := rfl
theorem exec_mnot (d a : Nat) (s : State) : exec (.mnot d a) s = execMnot d a s := rfl
theorem exec_mmov (d a : Nat) (s : State) : exec (.mmov d a) s = execMmov d a s := rfl
theorem exec_mset (d : Nat) (x : SOp) (s : State) : exec (.mset d x) s = execMset d x s := rfl
theorem exec_mpopc (r a : Nat) (s : State) : exec (.mpopc r a) s = execMpopc r a s := rfl
theorem exec_mget (r a : Nat) (s : State) : exec (.mget r a) s = execMget r a s := rfl
theorem exec_mffs (r a : Nat) (s : State) : exec (.mffs r a) s = execMffs r a s := rfl

/-- Settles O4: the words that write a mask by what maskOp does, the counts by what they are on bits. -/
theorem maskWordsWriteOneMask : Obligations.MaskWordsWriteOneMask := by
  intro s w d a b x hw hs
  have ha := seen_m hw.1 a
  have hb := seen_m hw.1 b
  have gives : ∀ {i f z}, exec i s = maskOp d [] f s → f s.seen = z → s.GivesMask w i d z := fun hi hx =>
    givesMask_of_maskOp hw (by simp) hi hx
  refine ⟨gives (exec_mand d a b s) (by rw [ha, hb]), gives (exec_mor d a b s) (by rw [ha, hb]),
    gives (exec_mxor d a b s) (by rw [ha, hb]), gives (exec_mandn d a b s) (by rw [ha, hb]),
    gives (exec_mnot d a s) (by rw [ha]), gives (exec_mmov d a s) ha,
    givesMask_of_maskOp hw hs (exec_mset d x s) (seen_op hw.1 x), fun r hr => ?_⟩
  have counts : ∀ {i f z}, exec i s = scalarOp r [] f s → f s.seen = z → s.GivesScalar i r z := fun hi hx =>
    givesScalar_of_scalarOp hw (by simpa using hr) hi hx
  refine ⟨counts (exec_mpopc r a s) (by rw [ha, popcount_eq_countP]), counts (exec_mget r a s) ha,
    lowest 32 ((s.at w).m a).toNat, lowest_le _ _, counts (exec_mffs r a s) (by rw [ha]), fun i hi => ?_, fun hn => ?_⟩
  · exact (bit_eq_testBit _ i).symm.trans (bit_of_lt_lowest hi)
  · exact (bit_eq_testBit _ _).symm.trans (bit_lowest hn)

end Sys2Proof.Machine
end

section
/-! Words written out from the encoding tables (O48). -/
namespace Sys2Proof.Machine

/-- Settles O48: the decoder evaluated on each word. -/
theorem wordsOfTheTablesDecode : Obligations.WordsOfTheTablesDecode :=
  ⟨rfl, rfl, rfl, rfl, rfl, rfl, rfl, rfl, rfl, rfl, rfl, rfl⟩

end Sys2Proof.Machine
end

section
/-! Words without effect, how slices leave a word, WAITW, EXIT, FORK and REND (O21, O22, O23; 03 R55, R63; 05 R117 to R125;
08 R193, R194; 10 R217). -/
namespace Sys2Proof.Machine

/-! Where a slice stands. -/

/-- Where a slice stands: its address, whether in a clause, at which word, of which words. -/
def Slice.position (x : Slice) : DWord × Bool × Nat × List Word := (x.pc, x.inClause, x.idx, x.words)

/-- The end of a clause, and a stall, leave every slice where it stands. -/
theorem Ctl.endClause_position (c : Ctl) (sl j : Nat) (lends : Bool) : ((c.endClause sl lends).slice j).position =
    (c.slice j).position := by
  have hview : ∀ (c : Ctl) (f : Slice → Slice), (∀ x, (f x).position = x.position) →
      ((c.onSlices sl f).slice j).position = (c.slice j).position := fun c f hf => Ctl.onSlices_view Slice.position c sl j f hf
  have hpark : ∀ (c : Ctl) a b, ((c.park a b).slice j).position = (c.slice j).position := fun c a b => by
    simp only [Ctl.slice, Ctl.park, List.getD_eq_getElem?_getD, List.getElem?_map]
    cases c.slices[j]? <;> rfl
  have hbare : ((c.onSlices sl fun x => { x with park := none }).slice j).position = (c.slice j).position :=
    hview c _ fun _ => rfl
  have hawait : ∀ (waddr : Nat) (ids : List Nat) (x : Slice),
      (if ids.isEmpty || x.wait.isSome then x else { x with wait := some (.replies waddr ids) }).position = x.position := by
    intro waddr ids x
    split <;> rfl
  unfold Ctl.endClause
  dsimp only
  split
  · rfl
  · split
    · exact hbare
    · split
      · exact (hview _ _ (hawait _ _)).trans hbare
      · split
        · exact hview _ _ (hawait _ _)
        · exact (hpark _ _ _).trans hbare

theorem Ctl.stall_slice (c : Ctl) (now live j : Nat) (lends : Bool) : (c.stall now live lends).slice j = c.slice j := by
  unfold Ctl.stall
  dsimp only
  split <;> rfl

/-- After a word each issuing slice stands where the word's flow takes it, and any other where it stood. -/
theorem Ctl.after_position {c : Ctl} {j : Nat} (now live sl : Nat) (lends : Bool) (f : Flow) (hj : j < c.slices.length) :
    ((c.after now live sl lends f).slice j).position =
      (if bit sl j then (c.slice j).after (c.steps j) f else c.slice j).position := by
  have h : ∀ c' : Ctl, ((if (c'.slice (lowest 8 sl)).inClause then c' else c'.endClause sl lends).slice j).position =
      (c'.slice j).position := fun c' => by
    split
    · rfl
    · exact Ctl.endClause_position c' sl j lends
  rw [Ctl.after, Ctl.stall_slice, h]
  simp [Ctl.slice, List.getD_eq_getElem?_getD, hj]

/-! The words without effect. -/

theorem exec_nop (s : State) : exec .nop s = execNop s := rfl
theorem exec_cctlEvl1all (s : State) : exec .cctlEvl1all s = execCctlEvl1all s := rfl
theorem exec_pref (lvl : Nat) (f : AddrForm) (s : State) : exec (.pref lvl f) s = execPref lvl f s := rfl
theorem exec_cctlEvl1 (a : Nat) (b : SOp) (s : State) : exec (.cctlEvl1 a b) s = cctlRange a b s := rfl
theorem exec_cctlWbl2 (a : Nat) (b : SOp) (s : State) : exec (.cctlWbl2 a b) s = cctlRange a b s := rfl

/-- R194: a range operation at a canonical generic address does nothing that can be seen. -/
theorem cctlRange_givesFlow {s : State} {w : Warp} {i : Instr} {a va : Nat} {b : SOp} (hw : s.Issuing w)
    (hs : ∀ n ∈ [a, a + 1] ++ opRegs b, n < w.ctl.sbudget) (hi : exec i s = cctlRange a b s)
    (hg : generic ((s.at w).pair a).toNat = .virt va) : s.GivesFlow i .next := by
  refine givesFlow_of_issue hw hs hi rfl ?_
  dsimp only
  rw [seen_pair hw.1, hg]

/-- Settles O21: the words without effect, and where a slice stands after a word. -/
theorem slicesLeaveTheirWords : Obligations.SlicesLeaveTheirWords := by
  refine ⟨fun s w lvl f hw => ⟨?_, ?_, fun h => ?_, fun a b va hs hg => ⟨?_, ?_⟩⟩,
    fun c now live sl j lends f hc hj _ => ?_⟩
  · exact givesFlow_of_issue (ss := []) hw (by simp) (exec_nop s) rfl rfl
  · exact givesFlow_of_issue (ss := []) hw (by simp) (exec_cctlEvl1all s) rfl rfl
  · exact givesFlow_of_passes h.1 (exec_pref lvl f s) h.2 rfl rfl
  · exact cctlRange_givesFlow hw hs (exec_cctlEvl1 a b s) hg
  · exact cctlRange_givesFlow hw hs (exec_cctlWbl2 a b s) hg
  · intro x y
    have hy : y.position = (if bit sl j then x.after (c.steps j) f else x).position :=
      Ctl.after_position now live sl lends f (hc ▸ hj)
    refine ⟨fun hb => ?stays, fun hb => ⟨fun hf h => ?next, fun hf h => ?last, fun hf => ?ends, fun pc hf => ?goto,
      fun v hf => ?waits⟩⟩
    all_goals
      simp only [hb, Bool.false_eq_true, if_false, if_true, Slice.position, Prod.mk.injEq] at hy
      obtain ⟨hpc, hin, hidx, hwords⟩ := hy
    case stays => exact ⟨hpc, hin, hidx, hwords⟩
    case waits => subst hf; exact ⟨hpc, hin, hidx⟩
    case ends => subst hf; exact ⟨hpc, hin⟩
    case goto => subst hf; exact ⟨hpc, hin⟩
    case next =>
      subst hf
      simp only [Slice.after, if_pos h] at hpc hin hidx
      exact ⟨hpc, hin, hidx⟩
    case last =>
      subst hf
      simp only [Slice.after, if_neg (Nat.not_lt.mpr h)] at hpc hin
      exact ⟨hpc, hin⟩

/-! WAITW (R123). -/

theorem exec_waitw (eq : Bool) (a b : SOp) (s : State) : exec (.waitw eq a b) s = execWaitw eq a b s := rfl

/-- The checks of a word of class A that executes once, names these scalar registers, and that no helper may execute. -/
def chkOfWarp (ss : List Nat) : Issue → Chk := fun _ => { cls := .a, once := true, helper := false, ss }

theorem chkOfWarp_passes {s : State} {w : Warp} {ss : List Nat} (hh : w.ctl.helper = none)
    (hs : ∀ n ∈ ss, n < w.ctl.sbudget) :
    (chkOfWarp ss (s.at w)).Passes (s.at w) := by
  constructor <;> simp_all [chkOfWarp, State.at, Issue.c]

/-- Whether the word that WAITW reads meets its condition, as the meaning tests it. -/
theorem beq_beq_iff (x y : Nat) (eq : Bool) : ((x == y) == eq) = true ↔ (x = y) = (eq = true) := by
  cases eq <;> simp

/-- Settles O22: the offset's checks in their order, then the word's condition. -/
theorem waitwTestsItsWord : Obligations.WaitwTestsItsWord := by
  intro s w eq a b hw hh hs off blk v met at_
  have hi : exec (.waitw eq a b) s = issue (chkOfWarp (opRegs a ++ opRegs b)) _ s := exec_waitw eq a b s
  have hc := chkOfWarp_passes (s := s) hh hs
  have ha := seen_op hw.1 a
  have hb := seen_op hw.1 b
  have hblk : s.seen.blk.img.shblk = (s.blk blk).img.shblk := congrArg (fun x : Block => x.img.shblk) (seen_blk hw.1)
  refine ⟨fun h => hi.trans (issue_traps hw.1 hc.fault ?_), fun h h' => hi.trans (issue_traps hw.1 hc.fault ?_),
    fun h h' => ⟨fun hm => givesFlow_of_passes hw hi hc rfl ?_, fun hm => givesFlow_of_passes hw hi hc rfl ?_⟩⟩
  all_goals
    dsimp only
    rw [ha]
  · exact if_pos h
  · rw [if_neg (not_not.mpr h), hblk]
    exact if_pos h'
  · rw [if_neg (not_not.mpr h), hblk, if_neg (Nat.not_le.mpr h'), hb]
    exact if_pos ((beq_beq_iff _ _ _).mpr hm)
  · rw [if_neg (not_not.mpr h), hblk, if_neg (Nat.not_le.mpr h'), hb]
    exact if_neg (mt (beq_beq_iff _ _ _).mp hm)

/-! EXIT, FORK and REND (R117, R124, R125, R217). -/

theorem exec_exit (s : State) : exec .exit s = execExit s := rfl
theorem exec_fork (s : State) : exec .fork s = execFork s := rfl
theorem exec_rend (refork : Bool) (s : State) : exec (.rend refork) s = execRend refork s := rfl

/-- A release that need not wait: the queued stores become visible, then the word's own effects follow. -/
theorem release_of_released {s : State} (h : s.released) (rest : List (State → List Effect)) (f : Flow) :
    s.seen.release rest f = (chain s.ticked ((fun s' => drainAll s' s.cur) :: rest), f) := by
  obtain ⟨hb, hd⟩ := h
  rw [Issue.release, hb]
  exact if_pos hd

/-- Whether the slice that issues waits for a rendezvous that has fired reads the same once its marks clear. -/
theorem seen_fired {s : State} {w : Warp} (hw : find s.warps s.cur = some w) :
    s.seen.slice.wait = some .fired ↔ (s.at w).slice.wait = some .fired := by
  have h := seen_slice hw (fun x => decide (x.wait = some .fired)) fun x => by
    rw [Slice.ticked, decide_eq_decide, Option.filter_eq_some_iff]
    exact and_iff_left rfl
  exact decide_eq_decide.mp h

/-- Settles O23: which of the meaning's branches each hypothesis takes; FORK and the arrival at REND by what a release does. -/
theorem exitForkAndRend : Obligations.ExitForkAndRend := by
  intro s w refork hw b
  refine ⟨fun hh hd hspan => ?exits, fun hh hr h0 hrel => ?forks, fun hh => ⟨fun hf => ?fired, fun hf hp hm hrel => ?arrives,
    fun hf hpm => ?partial_⟩⟩
  case exits =>
    have hc : (({ cls := .a, helper := false } : Chk)).Passes (s.at w) := by
      constructor <;> simp [State.at, Issue.c, hh]
    refine (exec_exit s).trans (issue_retires hw.1 hc.fault ?_)
    have hsp : (s.seen.c.span.any fun x => bit s.seen.active x.lane) = false := by
      rw [seen_c hw.1, seen_active hw.1]
      cases hx : w.ctl.span with
      | none => simp [Ctl.ticked, Ctl.onSlices, hx]
      | some p => simpa [Ctl.ticked, Ctl.onSlices, hx] using hspan p hx
    have hdv : s.seen.c.divert = none := by rw [seen_c hw.1]; exact hd
    dsimp only
    rw [hsp, hdv, seen_active hw.1]
    rfl
  case forks =>
    have hc : (({ cls := .l, once := true } : Chk)).Passes (s.at w) := by
      constructor <;> simp [State.at, Issue.c, hh, hr, h0]
    exact (exec_fork s).trans (issue_retires hw.1 hc.fault (congrArg Except.ok (release_of_released hrel _ _)))
  all_goals
    have hc : (({ cls := .b, once := true } : Chk)).Passes (s.at w) := by
      constructor <;> simp [State.at, Issue.c, hh]
    have hpart : s.seen.c.parted = w.ctl.parted := by rw [seen_c hw.1]; rfl
  case fired =>
    refine givesFlow_of_passes hw (exec_rend refork s) hc rfl ?_
    exact if_pos (by simpa using (seen_fired hw.1).mpr hf)
  all_goals
    have hnf : ¬(s.seen.slice.wait == some .fired) = true := by simpa using mt (seen_fired hw.1).mp hf
  case arrives =>
    refine (exec_rend refork s).trans (issue_retires hw.1 hc.fault ?_)
    rw [if_neg hnf, if_neg (by simp [hpart, hp, seen_m hw.1, hm]), release_of_released hrel]
  case partial_ =>
    refine (exec_rend refork s).trans (issue_traps hw.1 hc.fault ?_)
    rw [if_neg hnf, if_pos (by simpa [hpart, seen_m hw.1] using hpm)]

end Sys2Proof.Machine
end

section
/-! What ends a wait (O53): the step that releases a slice in its turn, queue steps, the rendezvous, XSWAP pairs and a helper's
forced release (05 R123, R125; 06 R149, R150; 10 R224, R248, R251; 11 R277, R278; 13 R318). -/
namespace Sys2Proof.Machine

theorem exec_barRelease (k j : Nat) (s : State) : exec (.barRelease k j) s = execBarRelease k j s := rfl
theorem exec_abwaitRelease (k j : Nat) (s : State) : exec (.abwaitRelease k j) s = execAbwaitRelease k j s := rfl
theorem exec_waitwRelease (k j : Nat) (s : State) : exec (.waitwRelease k j) s = execWaitwRelease k j s := rfl
theorem exec_waitcSatisfied (k j : Nat) (s : State) : exec (.waitcSatisfied k j) s = execWaitcSatisfied k j s := rfl
theorem exec_queueStepServed (k j : Nat) (s : State) : exec (.queueStepServed k j) s = execQueueStepServed k j s := rfl
theorem exec_rendFire (b : Nat) (s : State) : exec (.rendFire b) s = execRendFire b s := rfl
theorem exec_xswapPair (k : Nat) (s : State) : exec (.xswapPair k) s = execXswapPair k s := rfl
theorem exec_helperForcedRelease (k : Nat) (s : State) : exec (.helperForcedRelease k) s = execHelperForcedRelease k s := rfl

/-- What becomes of a slice whose wait is over: in an active warp it goes on after its word in its turn, in a pending one it
waits for its place, and a warp that is away is made ready (R47, R64). -/
def State.GoesOn (s : State) (k j : Nat) (i : Instr) (f : Flow) (es : State → List Effect) : Prop :=
  ((s.ctl k).st = .active → ((s.ctl k).slice j).inClause = true → s.hasTurn k j = true → s.hasPort k = true →
    s.divertTo k j = none → s.Commits i (endWait k (s.gangOf k j) f es s)) ∧
  ((s.ctl k).st = .pending → s.Commits i []) ∧
  ((s.ctl k).st.away = true → s.Commits i (wake k s))

/-- A warp that is active exists. -/
theorem find_isSome_of_active {s : State} {k : Nat} (h : (s.ctl k).st = .active) : (find s.warps k).isSome = true := by
  cases e : find s.warps k with
  | none => simp [State.ctl, State.warp, e] at h
  | some w => rfl

section release
variable {s : State} {k j : Nat} (hl : bit (liveSlices (s.warp k)) j = true) (hf : s.frozenAt k = false)
  (ht : (s.ctl k).trap = none) (hp : (s.ctl k).priv = true → bit (s.ctl k).hslices j = true)
include hl hf ht hp

/-- What release does for a slice whose wait is over. -/
theorem goesOn_of_release {i : Instr} {isOver : Wait → Bool} {f : Flow} {es : Wait → State → List Effect} {v : Wait}
    (hi : exec i s = release k j isOver f es s) (hw : ((s.ctl k).slice j).wait = some v) (ho : isOver v = true) :
    s.GoesOn k j i f (es v) := by
  have hrel : exec i s =
      if (s.ctl k).st.away then commit s (wake k s)
      else if ((s.ctl k).slice j).inClause && s.mayResume k j then commit s (endWait k (s.gangOf k j) f (es v) s)
      else commit s [] := by
    rw [hi, release, hw]
    exact if_neg (by simp [ho, hl, hf, ht])
  refine ⟨fun hst hin htn hpt hd => hrel.trans ?_, fun hst => hrel.trans ?_, fun haw => hrel.trans (if_pos haw)⟩
  · have hr : s.runs k = true := by simp [State.runs, find_isSome_of_active hst, hst, ht, hf]
    have hm : s.mayResume k j = true := by
      simp only [State.mayResume, hr, htn, hpt, hd, Option.isNone_none, Bool.and_true, Bool.true_and, Bool.or_eq_true,
        Bool.not_eq_true']
      cases e : (s.ctl k).priv with
      | false => exact .inl rfl
      | true => exact .inr (hp e)
    rw [if_neg (by simp [hst, WState.away]), if_pos (by simp [hin, hm])]
    rfl
  · have hr : s.runs k = false := by simp [State.runs, hst]
    rw [if_neg (by simp [hst, WState.away]), if_neg (by simp [State.mayResume, hr])]
    rfl

/-- What a queue step does for a wait that nothing makes trap. -/
theorem goesOn_of_serve {i : Instr} {off : Nat} {v : Wait} {es : State → List Effect}
    (hi : exec i s = serve k j 0 off v es s) (hw : ((s.ctl k).slice j).wait = some v) (ho : s.waitOver k v = true) :
    s.GoesOn k j i .next es := by
  refine goesOn_of_release (es := fun _ => es) hl hf ht hp (isOver := fun u => s.waitOver k u && decide (u = v)) (hi.trans ?_) hw
    (by simp [ho])
  exact if_neg (by simp)

end release

/-- R125: a full rendezvous of a block that is not frozen fires. -/
theorem rendFire_commits {s : State} {b : Nat} (hne : s.atRend b ≠ []) (hfull : s.rendFull b = true)
    (hf : s.frozenAt (leadOf b) = false) : s.Commits (.rendFire b)
      (chain s ((s.copies.filter fun y => y.stage == 4 && blockOf y.k == b).flatMap copyDone ++
        ((s.atRend b).map fun p => fun t => [.ctl p.1 ((t.ctl p.1).onSlices 255 Slice.fire)]) ++
        ((s.atRend b).map fun p => wake p.1) ++
        [fun t => if (s.atRend b).any Prod.snd then createRest t b else []])) := by
  rw [State.Commits, exec_rendFire, execRendFire]
  refine if_neg ?_
  simp [hne, hfull, hf]

section pair
variable {s : State} {k : Nat} {y : XSwap} (hy : (s.ctl k).xswap = some y)
include hy

/-- R149: two matching XSWAPs complete. -/
theorem xswapPair_pairs {z : XSwap} (hz : (s.ctl y.partner).xswap = some z) (hk : z.partner = k) :
    s.Commits (.xswapPair k) (chain s (swapDone k y (some z.sent) ++ swapDone y.partner z (some y.sent))) := by
  have hpair : pairSwap k s = chain s (swapDone k y (some z.sent) ++ swapDone y.partner z (some y.sent)) := by
    rw [pairSwap, hy]
    dsimp only
    rw [hz]
    exact if_pos hk
  have hne : (pairSwap k s).isEmpty = false := by
    rw [hpair]
    simp [swapDone, chain]
  rw [State.Commits, exec_xswapPair, execXswapPair, hy]
  dsimp only
  rw [if_neg (by simp [hne]), hpair]
  rfl

/-- R150: an XSWAP without its match completes where its partner is gone. -/
theorem xswapPair_unmatched (hz : ∀ z, (s.ctl y.partner).xswap = some z → z.partner ≠ k) :
    s.Event (.xswapPair k) (s.exists y.partner = false) (chain s (swapDone k y none)) := by
  have hpair : pairSwap k s = [] := by
    rw [pairSwap, hy]
    dsimp only
    split
    · rfl
    · exact if_neg (hz _ ‹_›)
  refine State.event_of_test (c := ((pairSwap k s).isEmpty && !s.exists y.partner) = true) (by simp [hpair]) ?_
  rw [exec_xswapPair, execXswapPair, hy]
  dsimp only
  rw [hpair]

end pair

/-- R318: a helper past the clauses that a request leaves it is released once its operations are over. -/
theorem helperForcedRelease_event {s : State} {k : Nat} {h : Helper} (hh : (s.ctl k).helper = some h) :
    s.Event (.helperForcedRelease k)
      (h.asked = true ∧ 256 ≤ h.clauses ∧ ((s.ctl k).slice h.slice).inClause = false ∧ s.drainable k = true ∧
        (s.ctl k).flagOps = [] ∧ ((s.ctl k).slice h.slice).defer = [] ∧ (s.ctl k).trap = none)
      (chain s [fun s => drainAll s k,
        fun s => [.ctl h.foreman { s.ctl h.foreman with span := (s.ctl h.foreman).span.map (rollback h) }],
        endHelper k h]) := by
  refine State.event_of_guard (c := (!h.asked || h.clauses < 256 || ((s.ctl k).slice h.slice).inClause ||
    !s.helperOver k h.slice) = true) ?_ ?_
  · simp [State.helperOver, imp_iff_not_or, or_assoc, Option.isSome_iff_ne_none]
  · rw [exec_helperForcedRelease, execHelperForcedRelease, hh]

/-- Settles O53: each wait by what release does once it is over, the rest by the steps of their own. -/
theorem waitsEndWhenTheirConditionHolds : Obligations.WaitsEndWhenTheirConditionHolds := by
  intro s k j c x b mask
  refine ⟨fun hl hf ht hp => ⟨fun off p hw => ?_, fun off p hw => ?_, fun off eq v hw => ?_, fun cls n hw hc => ?_,
    fun off h n hw hc hq => ?_, fun off d n hw hc hq => ?_⟩, rendFire_commits,
    fun y hy => ⟨fun z hz hk => xswapPair_pairs hy hz hk, fun hz => xswapPair_unmatched hy hz⟩,
    fun h hh => helperForcedRelease_event hh⟩
  · exact goesOn_of_release hl hf ht hp (exec_barRelease k j s) hw rfl
  · exact goesOn_of_release hl hf ht hp (exec_abwaitRelease k j s) hw rfl
  · exact goesOn_of_release hl hf ht hp (exec_waitwRelease k j s) hw rfl
  · exact goesOn_of_release hl hf ht hp (exec_waitcSatisfied k j s) hw (decide_eq_true hc)
  · refine goesOn_of_serve hl hf ht hp (i := .queueStepServed k j) (off := off) ?_ hw ?_
    · rw [exec_queueStepServed, execQueueStepServed, show ((s.ctl k).slice j).wait = _ from hw]
    · exact Bool.and_eq_true_iff.mpr ⟨decide_eq_true hc, hq⟩
  · refine goesOn_of_serve hl hf ht hp (i := .queueStepServed k j) (off := off) ?_ hw ?_
    · rw [exec_queueStepServed, execQueueStepServed, show ((s.ctl k).slice j).wait = _ from hw]
    · exact Bool.and_eq_true_iff.mpr ⟨decide_eq_true hc, hq⟩

end Sys2Proof.Machine
end

section
/-! Stores (O28): what a store puts in its warp's queue, and what the oldest queued store to shared memory changes as it becomes
visible (05 R106; 08 R189 to R191; 09 R216). -/
namespace Sys2Proof.Machine

/-! Changes of slices. -/

/-- Between two keyed lists every context differs at most in its slices. -/
def OnlySlices (l m : List (Nat × Warp)) : Prop :=
  ∀ k, ∃ xs, (find m k).getD {} = { (find l k).getD {} with ctl := { ((find l k).getD {}).ctl with slices := xs } }

theorem OnlySlices.refl (l : List (Nat × Warp)) : OnlySlices l l := fun k => ⟨((find l k).getD {}).ctl.slices, rfl⟩

theorem OnlySlices.trans {l m n : List (Nat × Warp)} (h : OnlySlices l m) (g : OnlySlices m n) : OnlySlices l n := fun k => by
  obtain ⟨xs, hx⟩ := h k
  obtain ⟨ys, hy⟩ := g k
  exact ⟨ys, by rw [hy, hx]⟩

theorem OnlySlices.mapSlices {l m : List (Nat × Warp)} (h : OnlySlices l m) (p : Nat → Bool)
    (f : Nat → Nat → Slice → Slice) :
    OnlySlices l (mapSlices p f m) := by
  have hfind : ∀ k, find (Machine.mapSlices p f m) k = (find m k).map fun w =>
      { w with ctl := { w.ctl with slices := if p k then w.ctl.slices.mapIdx (f k) else w.ctl.slices } } := by
    intro k
    clear h
    induction m with
    | nil => rfl
    | cons q t ih =>
      obtain ⟨a, w⟩ := q
      simp only [Machine.mapSlices, List.map_cons] at ih ⊢
      by_cases e : a = k
      · subst e
        by_cases h : p a = true <;> simp [h, find]
      · split <;> simpa [find, e] using ih
  refine h.trans fun k => ?_
  rw [hfind]
  cases find m k with
  | none => exact ⟨[], rfl⟩
  | some w => exact ⟨_, rfl⟩

/-- A context's control state after a change of slices. -/
theorem OnlySlices.ctl {s t : State} (h : OnlySlices s.warps t.warps) (k : Nat) :
    ∃ xs, t.ctl k = { s.ctl k with slices := xs } := by
  obtain ⟨xs, hx⟩ := h k
  exact ⟨xs, congrArg Warp.ctl hx⟩

/-- What a context reads of its registers is the same after a change of slices. -/
theorem OnlySlices.reads {s t : State} (h : OnlySlices s.warps t.warps) (k : Nat) :
    (∀ r l, (t.warp k).readV r l = (s.warp k).readV r l) ∧ (∀ n, (t.warp k).readS n = (s.warp k).readS n) ∧
      ∀ n, (t.warp k).readM n = (s.warp k).readM n := by
  obtain ⟨xs, hx⟩ := h k
  change t.warp k = { s.warp k with ctl := { (s.warp k).ctl with slices := xs } } at hx
  have ha : Ctl.Alike { (s.warp k).ctl with slices := xs } (s.warp k).ctl := ⟨rfl, rfl, rfl⟩
  rw [hx]
  exact ⟨fun _ _ => rfl, Warp.readS_ctl ha, Warp.readM_ctl ha⟩

/-- A store to memory, physical or shared, changes no context but in its slices. -/
theorem onlySlices_applyStore_phys (off : Nat) (bytes : List Byte) (who : Option (Nat × Nat)) (s : State) :
    OnlySlices s.warps (applyStore .phys off bytes who s).warps := by
  dsimp only [applyStore]
  exact ((OnlySlices.refl _).mapSlices _ _).mapSlices _ _

theorem onlySlices_applyStore_shared (b off : Nat) (bytes : List Byte) (who : Option (Nat × Nat)) (s : State) :
    OnlySlices s.warps (applyStore (.shared b) off bytes who s).warps := by
  dsimp only [applyStore]
  exact ((OnlySlices.refl _).mapSlices _ _).mapSlices _ _

/-! What a store leaves in its queue (R190, R216). -/

/-- What a queued store is for the memory order: its place and bytes, and the lane that made it. -/
def QStore.entry (q : QStore) : Space × Nat × List Byte × Nat := (q.sp, q.off, q.bytes, q.lane)

theorem Ctl.after_storeQ (c : Ctl) (now live sl : Nat) (l : Bool) (f : Flow) :
    (c.after now live sl l f).storeQ = c.storeQ := by
  have hstall : ∀ d : Ctl, (d.stall now live l).storeQ = d.storeQ := fun d => by
    unfold Ctl.stall
    dsimp only
    split <;> rfl
  have hend : ∀ d : Ctl, (d.endClause sl l).storeQ = d.storeQ := fun d => by
    unfold Ctl.endClause
    dsimp only
    repeat' split
    all_goals rfl
  unfold Ctl.after
  dsimp only
  rw [hstall]
  split
  · rfl
  · exact hend _

/-- The state after a word that puts stores in its warp's queue and does nothing else. -/
theorem retire_enqueue {s : State} {w : Warp} (hw : find s.warps s.cur = some w) (qs : List QStore) :
    ∃ c : Ctl, c.Alike w.ctl ∧ c.storeQ.map QStore.entry = w.ctl.storeQ.map QStore.entry ++ qs.map QStore.entry ∧
      s.retire (chain s.ticked [fun _ => [], s.seen.enqueue qs]) .next =
        { s with warps := put s.warps s.cur { w with ctl := c }, fresh := s.fresh + 1, ids := s.ids + qs.length } := by
  obtain ⟨named, hnamed, hmap⟩ : ∃ named, s.seen.enqueue qs s.ticked = [.ctl s.cur { s.ticked.ctl s.cur with
      storeQ := (s.ticked.ctl s.cur).storeQ ++ named }, .ids qs.length] ∧ named.map QStore.entry = qs.map QStore.entry := by
    refine ⟨_, rfl, List.ext_getElem? fun i => ?_⟩
    simp only [List.getElem?_map, List.getElem?_mapIdx]
    cases qs[i]? <;> rfl
  rw [State.ctl_of_find (State.find_ticked hw)] at hnamed
  refine ⟨Ctl.after { w.ctl.ticked s.fresh s.slices with storeQ := w.ctl.storeQ ++ named } s.fresh (liveSlices w) s.slices
    (!(s.lent s.cur).isEmpty) .next, (Ctl.after_alike _ _ _ _ _ _).trans ⟨rfl, rfl, rfl⟩, ?_, ?_⟩
  · rw [Ctl.after_storeQ]
    simp [hmap]
  · have hchain : chain s.ticked [fun _ => [], s.seen.enqueue qs] = s.seen.enqueue qs s.ticked := by
      simp [chain, applyAll_nil]
    obtain ⟨w1, hw1⟩ : ∃ w1 : Warp, w1 = { w with ctl := { w.ctl.ticked s.fresh s.slices with
      storeQ := w.ctl.storeQ ++ named } } := ⟨_, rfl⟩
    have hs1 : applyAll (s.seen.enqueue qs s.ticked) s.ticked =
        { s with warps := put s.warps s.cur w1, ids := s.ids + qs.length } := by
      rw [hnamed, applyAll_cons, applyAll_cons, applyAll_nil, apply_ctl, State.onWarp_some _ (State.find_ticked hw),
        State.ticked_eq hw, hw1]
      simp only [put_put]
      rfl
    have hf : find (put s.warps s.cur w1) s.cur = some w1 := find_put_same _ _ _
    have hlent : State.lent { s with warps := put s.warps s.cur w1, ids := s.ids + qs.length } s.cur = s.lent s.cur :=
      lent_put s s.cur w1
    rw [State.retire]
    dsimp only
    rw [if_neg (by simp), hchain, hs1, follow_advance _ _ _ _ rfl, advance, applyAll_cons, applyAll_nil, apply_ctl, apply_fresh,
      State.onWarp_some _ hf]
    dsimp only
    rw [hlent, State.ctl_of_find hf, State.warp_of_find hf, put_put, hw1]
    rfl

/-! The words that store. -/

/-- The entries of the stores of an access: one for each piece of each lane, in lane order (R190). -/
theorem storeRows_entries (I : Issue) (n : Nat) (data : Nat → Nat) (rows : List LaneAccess) :
    (storeRows I n data rows).map QStore.entry = rows.flatMap fun x => x.pieces.mapIdx fun j p =>
      (p.1.sp, p.1.off, ((leBytes n (data x.lane)).drop (4 * j)).take p.2, x.lane) := by
  rw [storeRows, List.map_flatMap]
  refine List.flatMap_congr fun x _ => List.ext_getElem? fun i => ?_
  simp only [List.getElem?_map, List.getElem?_mapIdx]
  cases x.pieces[i]? <;> rfl

/-- What a word that stores does with what its checks answer. -/
def storeOut (I : Issue) (n : Nat) (data : Nat → Nat) (r : Except Trap (List LaneAccess × List Effect)) :
    Except Trap (List Effect × Flow) :=
  match r with
  | .error t => .error t
  | .ok (rows, es) => .ok (chain I.s [fun _ => es, I.enqueue (storeRows I n data rows)], .next)

/-- What the claim says of a word that stores: a check that fails traps; else its stores stand in the queue, and where the
walker does nothing no register and no memory changes. -/
def State.StoresBy (s : State) (w : Warp) (i : Instr) (n : Nat) (data : Nat → Nat) (once : Bool)
    (r : Except Trap (List LaneAccess × List Effect)) : Prop :=
  (∀ t, r = .error t → s.Traps w i once t) ∧
  ∀ rows es, r = .ok (rows, es) →
    s.Retires i (chain s.ticked [fun _ => es, s.seen.enqueue (storeRows s.seen n data rows)], .next) ∧
    (es = [] → ∃ t, exec i s = .next t ∧
      t = { s with warps := t.warps, fresh := s.fresh + 1, ids := s.ids + (storeRows s.seen n data rows).length } ∧
      (∀ k, k ≠ s.cur → find t.warps k = find s.warps k) ∧ s.SameRegs t noReg noReg noLane ∧
      ((t.ctl s.cur).storeQ.map fun q => (q.sp, q.off, q.bytes, q.lane)) =
        (w.ctl.storeQ.map fun q => (q.sp, q.off, q.bytes, q.lane)) ++
          rows.flatMap fun x => x.pieces.mapIdx fun j p =>
            (p.1.sp, p.1.off, ((leBytes n (data x.lane)).drop (4 * j)).take p.2, x.lane))

theorem storesBy_of_issue {s : State} {w : Warp} {i : Instr} {n : Nat} {data : Nat → Nat} {once : Bool}
    {r : Except Trap (List LaneAccess × List Effect)} {chk : Issue → Chk} {body : Issue → Except Trap (List Effect × Flow)}
    (hw : s.Issuing w) (hi : exec i s = issue chk body s) (hc : (chk (s.at w)).Passes (s.at w))
    (ho : (chk (s.at w)).once = once) (hb : body s.seen = storeOut s.seen n data r) : s.StoresBy w i n data once r := by
  subst ho
  refine ⟨fun t ht => hi.trans (issue_traps hw.1 hc.fault (by rw [hb, ht]; rfl)), fun rows es hr => ?_⟩
  have hret : s.Retires i (chain s.ticked [fun _ => es, s.seen.enqueue (storeRows s.seen n data rows)], .next) :=
    hi.trans (issue_retires hw.1 hc.fault (by rw [hb, hr]; rfl))
  refine ⟨hret, fun he => ?_⟩
  subst he
  obtain ⟨c, hc, hq, hs⟩ := retire_enqueue hw.1 (storeRows s.seen n data rows)
  refine ⟨_, hret.trans (congrArg _ hs), rfl, fun k hk => find_put_ne _ _ hk, ?_, ?_⟩
  · simp only [State.SameRegs, State.warp, find_put_same, hw.1, Option.getD_some]
    exact ⟨fun n _ => Warp.readS_ctl hc n, fun n _ => Warp.readM_ctl hc n, fun r l _ _ => rfl⟩
  · rw [storeRows_entries] at hq
    simp only [State.ctl, State.warp, find_put_same, Option.getD_some]
    exact hq

theorem exec_st (d : Nat) (f : AddrForm) (s : State) : exec (.st d f) s = execSt d f s := rfl
theorem exec_sts (d a : Nat) (b : SOp) (s : State) : exec (.sts d a b) s = execSts d a b s := rfl
theorem exec_sst (d a : Nat) (b : SOp) (s : State) : exec (.sst d a b) s = execSst d a b s := rfl
theorem exec_storeDrain (k : Nat) (s : State) : exec (.storeDrain k) s = execStoreDrain k s := rfl

section words
variable {s : State} {w : Warp} {d : Nat}

theorem st_storesBy {f : AddrForm} (hn : accessBytes (s.at w).ty ≠ 0)
    (h : s.Admits w { cls := .e, legal := okReg (s.at w).ty d, vs := vregs (s.at w).ty d ++ formVs f, ss := formSs f }) :
    s.StoresBy w (.st d f) (accessBytes (s.at w).ty) (fun l => (s.at w).vsrc (s.at w).ty d l) false
      (s.ticked.lanesAccess s.cur (accessBytes (s.at w).ty) 1 0 (s.at w).ty (s.seen.eas f)) := by
  obtain ⟨hw, hc⟩ := h
  refine storesBy_of_issue hw (exec_st d f s) (hc.relegal ?_) rfl ?_
  · simpa [hn] using hc.legal
  · dsimp only
    rw [seen_ty hw.1, funext fun l => seen_vsrc hw.1 (s.at w).ty d l]
    rfl

theorem sst_storesBy {a : Nat} {b : SOp} (hw : s.Issuing w) (hs : ∀ n ∈ [d, a, a + 1] ++ opRegs b, n < w.ctl.sbudget) :
    s.StoresBy w (.sst d a b) 4 (fun _ => ((s.at w).rs d).toNat) true
      (s.seen.onceAccess (s.seen.pair a + (s.seen.op b).signExtend 64).toNat 4 1 0 8 fun _ => none) := by
  refine storesBy_of_issue hw (exec_sst d a b s) (chkA_passes_of_budget hs) rfl ?_
  rw [seen_rs hw.1]
  rfl

/-- R189: STS checks only offsets of the block's own shared memory, for which the walker does nothing. -/
theorem sts_stores {a : Nat} {b : SOp} (hn : accessBytes (s.at w).ty ≠ 0)
    (h : s.Admits w { cls := .e, legal := okReg (s.at w).ty d && okReg (s.at w).ty a, vs := vregs (s.at w).ty d ++ [a]
                      ss := opRegs b }) :
    (∀ t, s.seen.sharedRows a b 1 = .error t → s.Traps w (.sts d a b) false t) ∧
    ∀ rows es, s.seen.sharedRows a b 1 = .ok (rows, es) → s.Retires (.sts d a b)
      (s.seen.enqueue (storeRows s.seen (accessBytes (s.at w).ty) (fun l => (s.at w).vsrc (s.at w).ty d l) rows) s.ticked,
        .next) := by
  obtain ⟨hw, hc⟩ := h
  have hpass := hc.relegal (l := accessBytes (s.at w).ty != 0 && okReg (s.at w).ty d && okReg (s.at w).ty a)
    (by simpa [hn] using hc.legal)
  refine ⟨fun t ht => (exec_sts d a b s).trans (issue_traps hw.1 hpass.fault ?_),
    fun rows es hr => (exec_sts d a b s).trans (issue_retires hw.1 hpass.fault ?_)⟩
  · rw [ht]
  · rw [hr]
    dsimp only
    rw [seen_ty hw.1, funext fun l => seen_vsrc hw.1 (s.at w).ty d l]
    rfl

end words

/-! The oldest store of a queue becomes visible (R216). -/

/-- Sectors that are poisoned no more: nothing but the poison changes (R190). -/
theorem applyAll_cured (l : List (Option Nat × Nat)) (s : State) :
    (applyAll (cured l) s).shared = s.shared ∧ (applyAll (cured l) s).warps = s.warps ∧
      (applyAll (cured l) s).mem = s.mem ∧ (applyAll (cured l) s).tiles = s.tiles := by
  induction l generalizing s with
  | nil => exact ⟨rfl, rfl, rfl, rfl⟩
  | cons x t ih =>
    obtain ⟨h1, h2, h3, h4⟩ := ih (apply (match x.1 with | none => .poison x.2 false | some b => .shPoison b x.2 false) s)
    refine ⟨h1.trans ?_, h2.trans ?_, h3.trans ?_, h4.trans ?_⟩ <;> cases x.1 <;> rfl

/-- The state after the head of a queue has left it. -/
def State.popped (s : State) (k : Nat) (rest : List QStore) : State := apply (.ctl k { s.ctl k with storeQ := rest }) s

/-- A context's registers read the same once its queue's head has left it. -/
theorem warp_popped {s : State} {k : Nat} {w : Warp} (hw : find s.warps k = some w) (rest : List QStore) (j : Nat) :
    (s.popped k rest).warp j = s.warp j ∨
      (s.popped k rest).warp j = { s.warp j with ctl := { (s.warp j).ctl with storeQ := rest } } := by
  rw [State.popped, apply_ctl, State.onWarp_some _ hw]
  by_cases e : j = k
  · subst e
    exact .inr (by simp [State.warp, State.ctl, hw])
  · exact .inl (by simp only [State.warp, find_put_ne _ _ e])

/-- The step that makes the head of a queue, a store to shared memory, visible. -/
theorem exec_storeDrain_shared {s : State} {k b : Nat} {q : QStore} {rest : List QStore}
    (hq : (s.ctl k).storeQ = q :: rest) (hb : q.sp = .shared b) : exec (.storeDrain k) s = .next (apply .fresh
      (applyAll (cured q.cure) (applyStore (.shared b) q.off q.bytes (some (k, q.sl)) (s.popped k rest)))) := by
  have hhead : drainHead s k = chain s [fun s => [.ctl k { s.ctl k with storeQ := rest }], fun s => performStore s k q] := by
    rw [drainHead, hq]
    exact if_pos (by rw [State.storeFree, hb])
  have hperf : ∀ s', performStore s' k q = [.store (.shared b) q.off q.bytes (some (k, q.sl))] ++ cured q.cure := by
    intro s'
    rw [performStore, hb]
  rw [exec_storeDrain, execStoreDrain, commit, hhead, applyAll_chain, applyAll_chain, chain, applyAll_nil, hperf,
    applyAll_append]
  rfl

/-- What that step leaves of the stores and of the contexts. -/
theorem storeDrain_shared {s : State} {k b : Nat} {q : QStore} {rest : List QStore} (hq : (s.ctl k).storeQ = q :: rest)
    (hb : q.sp = .shared b) : ∃ t, exec (.storeDrain k) s = .next t ∧
      t.shared = put s.shared b ((s.sh b).setBytes q.off q.bytes) ∧ t.mem = s.mem ∧ t.tiles = s.tiles ∧
      OnlySlices (s.popped k rest).warps t.warps := by
  obtain ⟨hshared, hwarps, hmem, htiles⟩ := applyAll_cured q.cure
    (applyStore (.shared b) q.off q.bytes (some (k, q.sl)) (s.popped k rest))
  refine ⟨_, exec_storeDrain_shared hq hb, hshared.trans ?_, hmem.trans ?_, htiles.trans ?_, ?_⟩
  · simp [applyStore, State.popped, apply_ctl, State.sh]
  · simp [applyStore, State.popped, apply_ctl]
  · simp [applyStore, State.popped, apply_ctl]
  · exact hwarps ▸ onlySlices_applyStore_shared b q.off q.bytes (some (k, q.sl)) (s.popped k rest)

/-- R216: the bytes of the oldest store stand at its place, and all else is as it was. -/
theorem storeDrain_visible {s : State} {k b : Nat} {q : QStore} {rest : List QStore} (hinv : s.Inv)
    (hq : (s.ctl k).storeQ = q :: rest) (hb : q.sp = .shared b) :
    ∃ t, exec (.storeDrain k) s = .next t ∧
      (∀ a, q.off ≤ a → a < q.off + q.bytes.length → (t.sh b).get a = q.bytes.getD (a - q.off) 0) ∧
      (∀ a, (a < q.off ∨ q.off + q.bytes.length ≤ a) → (t.sh b).get a = (s.sh b).get a) ∧
      (∀ c, c ≠ b → t.sh c = s.sh c) ∧ t.mem = s.mem ∧ t.tiles = s.tiles ∧
      (∀ j r l, (t.warp j).readV r l = (s.warp j).readV r l) ∧ (∀ j n, (t.warp j).readS n = (s.warp j).readS n) ∧
      (∀ j n, (t.warp j).readM n = (s.warp j).readM n) ∧
      (t.ctl k).storeQ.map (fun q => (q.sp, q.off, q.bytes)) = rest.map (fun q => (q.sp, q.off, q.bytes)) := by
  obtain ⟨w, hw⟩ : ∃ w, find s.warps k = some w := by
    cases h : find s.warps k with
    | none => simp [State.ctl, State.warp, h] at hq
    | some w => exact ⟨w, rfl⟩
  obtain ⟨t, ht, hsh, hmem, htiles, hslices⟩ := storeDrain_shared hq hb
  have hread : ∀ j, (∀ r l, (t.warp j).readV r l = (s.warp j).readV r l) ∧
      (∀ n, (t.warp j).readS n = (s.warp j).readS n) ∧
      ∀ n, (t.warp j).readM n = (s.warp j).readM n := by
    intro j
    obtain ⟨hV, hS, hM⟩ := hslices.reads j
    have ha : Ctl.Alike { (s.warp j).ctl with storeQ := rest } (s.warp j).ctl := ⟨rfl, rfl, rfl⟩
    rcases warp_popped hw rest j with e | e <;> rw [e] at hV hS hM
    · exact ⟨hV, hS, hM⟩
    · exact ⟨hV, fun n => (hS n).trans (Warp.readS_ctl ha n), fun n => (hM n).trans (Warp.readM_ctl ha n)⟩
  have hget : ∀ c, t.sh c = if c = b then (s.sh b).setBytes q.off q.bytes else s.sh c := fun c => by
    rw [State.sh, hsh, getD_find_put]
    rfl
  refine ⟨t, ht, fun a h1 h2 => ?_, fun a h => ?_, fun c hc => ?_, hmem, htiles, fun j => (hread j).1,
    fun j => (hread j).2.1, fun j => (hread j).2.2, ?_⟩
  · rw [hget, if_pos rfl, Sparse.get_setBytes_same _ (State.sh_wf b hinv) h1 h2]
  · rw [hget, if_pos rfl, Sparse.get_setBytes_ne _ h]
  · rw [hget, if_neg hc]
  · obtain ⟨xs, hx⟩ := hslices.ctl k
    rw [hx, State.popped, apply_ctl, State.onWarp_some _ hw]
    simp [State.ctl, State.warp]

/-- Settles O28: the words that store by what they put in the queue, and the step that makes its head visible. -/
theorem storesEnterTheQueueInOrder : Obligations.StoresEnterTheQueueInOrder :=
  ⟨fun _ _ => ⟨fun _ _ hn h => st_storesBy hn h, fun _ _ _ hn h => sts_stores hn h, fun _ _ _ hw hs => sst_storesBy hw hs⟩,
    fun _ _ _ _ _ hinv hq hb _ => storeDrain_visible hinv hq hb⟩

end Sys2Proof.Machine
end

section
/-! Loads (O27): what the checks of an access make the walker do, and what a load binds to its flag (05 R106; 08 R175, R178,
R187 to R192). -/
namespace Sys2Proof.Machine

/-! What the walker does at an access (R199, R201): it writes A and D in memory, and loads TLBs. -/

/-- The effects of the walker. -/
def Effect.byWalker : Effect → Prop
  | .write _ _ _ _ | .tlbAdd _ => True
  | _ => False

theorem onlySlices_applyWrite (off : Nat) (bytes : List Byte) (epoch : Nat) (who : Option (Nat × Nat)) (s : State) :
    OnlySlices s.warps (applyWrite off bytes epoch who s).warps := by
  have hc : (s.copied off epoch).warps = s.warps := by
    unfold State.copied
    split <;> rfl
  unfold applyWrite
  dsimp only
  split
  · exact hc ▸ OnlySlices.refl _
  · exact hc ▸ onlySlices_applyStore_phys off bytes who _

/-- The walker changes no context but in its slices. -/
theorem onlySlices_byWalker {es : List Effect} (h : ∀ e ∈ es, e.byWalker) (s : State) :
    OnlySlices s.warps (applyAll es s).warps := by
  induction es generalizing s with
  | nil => exact OnlySlices.refl _
  | cons e t ih =>
    refine OnlySlices.trans ?_ (ih (fun x hx => h x (List.mem_cons_of_mem _ hx)) (apply e s))
    have he := h e (List.mem_cons_self ..)
    cases e with
    | write off bytes epoch who => exact onlySlices_applyWrite off bytes epoch who s
    | tlbAdd t => exact OnlySlices.refl _
    | _ => exact he.elim

theorem useLeaf_byWalker {s : State} {ctx va : Nat} {write : Bool} {w : Walk} {who : Nat} :
    ∀ e ∈ s.useLeaf ctx va write w who, e.byWalker := by
  intro e he
  unfold State.useLeaf at he
  generalize w.entry ||| 32 ||| (if write then 64 else 0) = x at he
  simp only [List.mem_append, List.mem_map] at he
  rcases he with (he | ⟨_, _, rfl⟩) | ⟨_, _, rfl⟩
  · split at he
    · simp at he
    · rw [State.physWrite, List.mem_singleton] at he
      exact he ▸ trivial
  · trivial
  · trivial

theorem virt_byWalker {s : State} {i ctx va kind who : Nat} {user : Bool} {p : Place} {es : List Effect}
    (h : s.virt i ctx va kind user who = .ok (p, es)) : ∀ e ∈ es, e.byWalker := by
  unfold State.virt at h
  dsimp only at h
  split at h
  · simp at h
  · simp only [Except.ok.injEq, Prod.mk.injEq] at h
    exact h.2 ▸ useLeaf_byWalker

theorem access1_byWalker {s : State} {k lane ea n kind : Nat} {p : Place} {es : List Effect}
    (h : s.access1 k lane ea n kind = .ok (p, es)) : ∀ e ∈ es, e.byWalker := by
  unfold State.access1 at h
  dsimp only at h
  split at h
  · simp at h
  · split at h
    · simp at h
    · split at h
      · simp at h
      · split at h <;> simp at h
        simp [h]
    · split at h
      · simp at h
      · split at h <;> simp at h
        simp [h]
    · split at h
      · simp at h
      · split at h
        · split at h
          · simp at h
          · rename_i hv
            simp only [Except.ok.injEq, Prod.mk.injEq] at h
            exact h.2 ▸ virt_byWalker hv
        · simp at h
    · exact virt_byWalker h

theorem access_byWalker {s : State} {k lane ea n kind : Nat} {p : List (Place × Nat)} {es : List Effect}
    (h : s.access k lane ea n kind = .ok (p, es)) : ∀ e ∈ es, e.byWalker := by
  unfold State.access at h
  split at h
  · split at h
    · simp at h
    · split at h
      · simp at h
      · simp at h
      · rename_i h1 h2
        simp only [Except.ok.injEq, Prod.mk.injEq] at h
        rw [← h.2]
        exact List.forall_mem_append.mpr ⟨access1_byWalker h1, access1_byWalker h2⟩
  · split at h
    · simp at h
    · rename_i h1
      simp only [Except.ok.injEq, Prod.mk.injEq] at h
      exact h.2 ▸ access1_byWalker h1

/-- The checks of lanes together do what the checks of each do. -/
theorem gather_byWalker {s : State} {kind op ty : Nat} {rs : List (Nat × Nat × Checked)} {rows : List LaneAccess}
    {es : List Effect} (hr : ∀ r ∈ rs, ∀ p fs, r.2.2 = .ok (p, fs) → ∀ e ∈ fs, e.byWalker)
    (h : gather s kind op ty rs = .ok (rows, es)) : ∀ e ∈ es, e.byWalker := by
  unfold gather at h
  split at h
  · simp only [Except.ok.injEq, Prod.mk.injEq] at h
    rw [← h.2]
    intro e he
    obtain ⟨r, hmem, he⟩ := List.mem_flatMap.mp he
    split at he
    · exact hr r hmem _ _ ‹_› e he
    · simp at he
  · simp at h

theorem lanesAccess_byWalker {s : State} {k n kind op ty : Nat} {eas : List (Nat × Nat)} {rows : List LaneAccess}
    {es : List Effect} (h : s.lanesAccess k n kind op ty eas = .ok (rows, es)) : ∀ e ∈ es, e.byWalker :=
  gather_byWalker (List.forall_mem_map.mpr fun _ _ _ _ hp => access_byWalker hp) h

theorem sharedRows_byWalker {I : Issue} {a kind : Nat} {b : SOp} {rows : List LaneAccess} {es : List Effect}
    (h : I.sharedRows a b kind = .ok (rows, es)) : ∀ e ∈ es, e.byWalker := by
  refine gather_byWalker (List.forall_mem_map.mpr fun _ _ p fs hp => ?_) h
  dsimp only at hp
  unfold Issue.sharedAt at hp
  split at hp
  · simp at hp
  · split at hp
    · simp only [Except.ok.injEq, Prod.mk.injEq] at hp
      simp [← hp.2]
    · simp at hp

theorem onceAccess_byWalker {I : Issue} {ea n kind op ty : Nat} {rows : List LaneAccess} {es : List Effect}
    (h : I.onceAccess ea n kind op ty (fun _ => none) = .ok (rows, es)) : ∀ e ∈ es, e.byWalker := by
  refine gather_byWalker (List.forall_mem_singleton.mpr fun p fs hp => ?_) h
  dsimp only at hp
  split at hp
  · simp at hp
  · rename_i h1
    exact access_byWalker (h1.trans hp)

/-! What a load of this chip's memory binds (R72, R190, R216). -/

/-- A lane's access to this chip's own memory, with no register of the management range and no host line. -/
def LaneAccess.Near (x : LaneAccess) : Prop :=
  x.host = false ∧ ∀ p ∈ x.pieces, p.1.mgmt = false ∧ ∀ c, p.1.sp ≠ .remote c

/-- The parts of a lane's load lie where its pieces do. -/
theorem mem_parts {r : Nat} {x : LaneAccess} {p : LoadPart} (h : p ∈ x.parts r) :
    (p.place, p.n) ∈ x.pieces ∧ p.lane = x.lane := by
  obtain ⟨i, hi, rfl⟩ := List.mem_mapIdx.mp h
  exact ⟨List.getElem_mem _, rfl⟩

theorem LaneAccess.Near.part {r : Nat} {x : LaneAccess} (h : x.Near) {p : LoadPart} (hp : p ∈ x.parts r) :
    p.chip = none ∧ p.place.mgmt = false ∧ p.host = false := by
  obtain ⟨hhost, hpieces⟩ := h
  have hmem := (mem_parts hp).1
  obtain ⟨hm, hc⟩ := hpieces _ hmem
  refine ⟨?_, hm, ?_⟩
  · unfold LoadPart.chip
    split
    · exact absurd ‹_› (hc _)
    · rfl
  · rw [LaneAccess.host, List.any_eq_false] at hhost
    exact Bool.eq_false_iff.mpr (hhost _ hmem)

/-- The bytes that a load takes from a place outside the management range are those of the memory order. -/
theorem loadBytes_singleton (s : State) (k n : Nat) {p : Place} (h : p.mgmt = false) :
    s.loadBytes k [(p, n)] = s.readPlace k p n := by
  simp [State.loadBytes, h]

/-- The flag operation that a load of this chip's own memory binds. -/
def boundLoad (u : State) (I : Issue) (ty d : Nat) (scalar sup : Bool) (rows : List LaneAccess) : FlagOp :=
  { id := u.ids, flag := I.seta, slices := I.sl, sup
    writes := rows.flatMap fun x => (x.parts d).flatMap fun p =>
      regOut (p.ty ty) (if scalar then 32 else x.lane) p.r (ofBytes (u.readPlace I.k p.place p.n)) }

/-- A load whose lanes lie in this chip's unpoisoned memory binds one operation with the bytes as they are now. -/
theorem load_near {I : Issue} {ty d : Nat} {scalar : Bool} {rows : List LaneAccess} {es : List Effect}
    (hnear : ∀ x ∈ rows, x.Near) (hpoison : ∀ x ∈ rows, (I.s.asSeen I.k).piecesPoisoned x.pieces = false)
    (hsave : I.s.waitsSave rows = false) :
    I.load ty d scalar rows es (fun _ => []) = (es ++ [.ctl I.k { (applyAll es I.s).ctl I.k with
      flagOps := ((applyAll es I.s).ctl I.k).flagOps ++
        [boundLoad (applyAll es I.s) I ty d scalar ((applyAll es I.s).ctl I.k).priv rows] }, .ids 1], .next) := by
  have hpart : ∀ p ∈ rows.flatMap (LaneAccess.parts d), p.chip = none ∧ p.place.mgmt = false ∧ p.host = false := by
    intro p hp
    obtain ⟨x, hx, hp⟩ := List.mem_flatMap.mp hp
    exact (hnear x hx).part hp
  have hfar : ((rows.flatMap (LaneAccess.parts d)).filter fun p => p.chip.isSome) = [] :=
    List.filter_eq_nil_iff.mpr fun p hp => by simp [(hpart p hp).1]
  have hall : ((rows.flatMap (LaneAccess.parts d)).filter fun p => p.chip.isNone) = rows.flatMap (LaneAccess.parts d) :=
    List.filter_eq_self.mpr fun p hp => by simp [(hpart p hp).1]
  have hregs : ((rows.flatMap (LaneAccess.parts d)).any fun p => p.place.mgmt) = false :=
    List.any_eq_false.mpr fun p hp => by simp [(hpart p hp).2.1]
  have hbad : ((rows.flatMap (LaneAccess.parts d)).filter fun p => (I.s.asSeen I.k).placePoisoned p.place p.n) = [] := by
    refine List.filter_eq_nil_iff.mpr fun p hp => ?_
    obtain ⟨x, hx, hp⟩ := List.mem_flatMap.mp hp
    have := List.any_eq_false.mp (hpoison x hx) _ (mem_parts hp).1
    simpa using this
  have hhost : ((rows.flatMap (LaneAccess.parts d)).filter fun p => p.host && !I.s.ownsLine I.k p.place.off) = [] :=
    List.filter_eq_nil_iff.mpr fun p hp => by simp [(hpart p hp).2.2]
  have hwrites : ∀ u : State, ((rows.flatMap (LaneAccess.parts d)).flatMap fun p =>
      regOut (p.ty ty) (if scalar then 32 else p.lane) p.r (ofBytes (u.loadBytes I.k [(p.place, p.n)]))) =
      rows.flatMap fun x => (x.parts d).flatMap fun p =>
        regOut (p.ty ty) (if scalar then 32 else x.lane) p.r (ofBytes (u.readPlace I.k p.place p.n)) := by
    intro u
    rw [List.flatMap_assoc]
    refine List.flatMap_congr fun x hx => List.flatMap_congr fun p hp => ?_
    rw [loadBytes_singleton _ _ _ ((hnear x hx).part hp).2.1, (mem_parts hp).2]
  unfold Issue.load
  simp only [hfar, hall, hregs, hbad, hhost, hsave, groupRows, List.isEmpty_nil, Bool.not_true, Bool.or_false,
    Bool.false_and, Bool.false_eq_true, if_false, if_true, List.head?_nil, Option.map_none, List.map_nil, List.eraseDups_nil,
    List.append_nil, hwrites, chain, applyAll_nil, List.cons_append, List.nil_append]
  rfl

/-! The words that load. -/

/-- What a word that loads does with what its checks answer. -/
def loadOut (I : Issue) (ty d : Nat) (scalar : Bool) (r : Except Trap (List LaneAccess × List Effect)) :
    Except Trap (List Effect × Flow) :=
  match r with
  | .error t => .error t
  | .ok (rows, es) => .ok (I.load ty d scalar rows es fun _ => [])

/-- What the claim says of a word that loads: a check that fails traps; else it loads, and from this chip's unpoisoned memory
it binds one operation with the bytes as they are now. -/
def State.LoadsBy (s : State) (w : Warp) (i : Instr) (ty d : Nat) (scalar once : Bool)
    (r : Except Trap (List LaneAccess × List Effect)) : Prop :=
  (∀ t, r = .error t → s.Traps w i once t) ∧
  ∀ rows es, r = .ok (rows, es) →
    s.Retires i (s.seen.load ty d scalar rows es fun _ => []) ∧
    ((∀ x ∈ rows, x.host = false ∧ (∀ p ∈ x.pieces, p.1.mgmt = false ∧ ∀ c, p.1.sp ≠ .remote c) ∧
        (s.ticked.asSeen s.cur).piecesPoisoned x.pieces = false) → s.ticked.waitsSave rows = false →
      s.Retires i (es ++ [.ctl s.cur { (applyAll es s.ticked).ctl s.cur with
        flagOps := ((applyAll es s.ticked).ctl s.cur).flagOps ++
          [boundLoad (applyAll es s.ticked) s.seen ty d scalar w.ctl.priv rows] }, .ids 1], .next))

theorem loadsBy_of_issue {s : State} {w : Warp} {i : Instr} {ty d : Nat} {scalar once : Bool}
    {r : Except Trap (List LaneAccess × List Effect)} {chk : Issue → Chk} {body : Issue → Except Trap (List Effect × Flow)}
    (hw : s.Issuing w) (hi : exec i s = issue chk body s) (hc : (chk (s.at w)).Passes (s.at w))
    (ho : (chk (s.at w)).once = once) (hb : body s.seen = loadOut s.seen ty d scalar r)
    (hes : ∀ rows es, r = .ok (rows, es) → ∀ e ∈ es, e.byWalker) : s.LoadsBy w i ty d scalar once r := by
  subst ho
  refine ⟨fun t ht => hi.trans (issue_traps hw.1 hc.fault (by rw [hb, ht]; rfl)), fun rows es hr => ?_⟩
  have hret : s.Retires i (s.seen.load ty d scalar rows es fun _ => []) :=
    hi.trans (issue_retires hw.1 hc.fault (by rw [hb, hr]; rfl))
  refine ⟨hret, fun hrows hsave => ?_⟩
  have hpriv : ((applyAll es s.ticked).ctl s.cur).priv = w.ctl.priv := by
    obtain ⟨xs, hx⟩ := (onlySlices_byWalker (hes rows es hr) s.ticked).ctl s.cur
    rw [hx, State.ctl_of_find (State.find_ticked hw.1)]
    rfl
  have hload := load_near (I := s.seen) (ty := ty) (d := d) (scalar := scalar) (es := es)
    (fun x hx => ⟨(hrows x hx).1, (hrows x hx).2.1⟩) (fun x hx => (hrows x hx).2.2) hsave
  rw [← hpriv]
  exact hload ▸ hret

theorem exec_ld (d : Nat) (f : AddrForm) (s : State) : exec (.ld d f) s = execLd d f s := rfl
theorem exec_lds (d a : Nat) (b : SOp) (s : State) : exec (.lds d a b) s = execLds d a b s := rfl
theorem exec_sld (d a : Nat) (b : SOp) (s : State) : exec (.sld d a b) s = execSld d a b s := rfl
theorem exec_ldc (d a : Nat) (b : SOp) (s : State) : exec (.ldc d a b) s = execLdc d a b s := rfl

section words
variable {s : State} {w : Warp} {d : Nat}

theorem ld_loadsBy {f : AddrForm} (hn : accessBytes (s.at w).ty ≠ 0)
    (h : s.Admits w { cls := .e, legal := okReg (s.at w).ty d, vs := vregs (s.at w).ty d ++ formVs f, ss := formSs f
                      dst := vregs (s.at w).ty d }) :
    s.LoadsBy w (.ld d f) (s.at w).ty d false false
      (s.ticked.lanesAccess s.cur (accessBytes (s.at w).ty) 0 0 (s.at w).ty (s.seen.eas f)) := by
  obtain ⟨hw, hc⟩ := h
  refine loadsBy_of_issue hw (exec_ld d f s) (hc.relegal ?_) rfl ?_ fun rows es => lanesAccess_byWalker
  · simpa [hn] using hc.legal
  · rw [seen_ty hw.1]
    rfl

theorem lds_loadsBy {a : Nat} {b : SOp} (hn : accessBytes (s.at w).ty ≠ 0)
    (h : s.Admits w { cls := .e, legal := okReg (s.at w).ty d && okReg (s.at w).ty a, vs := vregs (s.at w).ty d ++ [a]
                      ss := opRegs b, dst := vregs (s.at w).ty d }) :
    s.LoadsBy w (.lds d a b) (s.at w).ty d false false (s.seen.sharedRows a b 0) := by
  obtain ⟨hw, hc⟩ := h
  refine loadsBy_of_issue hw (exec_lds d a b s) (hc.relegal ?_) rfl ?_ fun rows es => sharedRows_byWalker
  · simpa [hn] using hc.legal
  · rw [seen_ty hw.1]
    rfl

theorem sld_loadsBy {a : Nat} {b : SOp} (hw : s.Issuing w) (hs : ∀ n ∈ [d, a, a + 1] ++ opRegs b, n < w.ctl.sbudget) :
    s.LoadsBy w (.sld d a b) 8 d true true
      (s.seen.onceAccess (s.seen.pair a + (s.seen.op b).signExtend 64).toNat 4 0 0 8 fun _ => none) :=
  loadsBy_of_issue hw (exec_sld d a b s) (chkA_passes_of_budget hs) rfl rfl fun _ _ => onceAccess_byWalker

end words

/-! LDC (R106): the word of memory, or the one that the port's constant cache holds. -/

/-- The place whose word an LDC reads. -/
def constPlace (rows : List LaneAccess) : Nat := (rows.map fun x => x.place.off).headD 0

/-- What an LDC whose checks pass does: by what the constant cache holds for the word, and freely an old one of it. -/
def ldcOut (I : Issue) (d : Nat) (rows : List LaneAccess) (es : List Effect) : List Effect × Flow :=
  let key := ccKey I.k I.c.role (constPlace rows)
  if rows.any fun x => x.remote.isSome || x.place.mgmt then I.load 8 d true rows es fun _ => []
  else match find I.s.ccache key with
    | none => I.load 8 d true rows es fun s => [.ccache (put s.ccache key (word (s.phys (constPlace rows) 4)))]
    | some old =>
      if old ≠ word (I.s.phys (constPlace rows) 4) && I.s.pick 16600 2 = 1 then
        (chain I.s [fun _ => es, fun s => bindOp s I.k I.sl I.seta [.s d old] [] false], .next)
      else I.load 8 d true rows es fun _ => []

theorem ldcOut_current {I : Issue} {d : Nat} {rows : List LaneAccess} {es : List Effect}
    (h : find I.s.ccache (ccKey I.k I.c.role (constPlace rows)) = some (word (I.s.phys (constPlace rows) 4))) :
    ldcOut I d rows es = I.load 8 d true rows es fun _ => [] := by
  unfold ldcOut
  dsimp only
  split
  · rfl
  · rw [h]
    exact if_neg (by simp)

theorem ldcOut_missing {I : Issue} {d : Nat} {rows : List LaneAccess} {es : List Effect}
    (h : find I.s.ccache (ccKey I.k I.c.role (constPlace rows)) = none)
    (hn : ∀ x ∈ rows, x.remote = none ∧ x.place.mgmt = false) :
    ldcOut I d rows es = I.load 8 d true rows es fun s =>
      [.ccache (put s.ccache (ccKey I.k I.c.role (constPlace rows)) (word (s.phys (constPlace rows) 4)))] := by
  have hany : (rows.any fun x => x.remote.isSome || x.place.mgmt) = false :=
    List.any_eq_false.mpr fun x hx => by simp [hn x hx]
  unfold ldcOut
  dsimp only
  rw [hany, h]
  rfl

theorem ldcOut_old {I : Issue} {d : Nat} {rows : List LaneAccess} {es : List Effect} {old : Word}
    (h : find I.s.ccache (ccKey I.k I.c.role (constPlace rows)) = some old) :
    ldcOut I d rows es = (I.load 8 d true rows es fun _ => []) ∨
    ldcOut I d rows es = (chain I.s [fun _ => es, fun s => bindOp s I.k I.sl I.seta [.s d old] [] false], .next) := by
  unfold ldcOut
  dsimp only
  split
  · exact .inl rfl
  · rw [h]
    dsimp only
    split
    · exact .inr rfl
    · exact .inl rfl

section const
variable {s : State} {w : Warp} {d a : Nat} {b : SOp} (hw : s.Issuing w)
  (hs : ∀ n ∈ [d, a, a + 1] ++ opRegs b, n < w.ctl.sbudget)
include hw

/-- The key of a word in the issuing port's constant cache, and what that and memory hold, read the same once the marks of the
issuing slices clear. -/
theorem seen_ccKey (off : Nat) : ccKey s.seen.k s.seen.c.role off = ccKey s.cur w.ctl.role off := by
  rw [seen_c hw.1]
  rfl

theorem seen_ccache : s.seen.s.ccache = s.ccache := by
  simp only [State.seen, State.ticked_eq hw.1]

theorem seen_phys (pa n : Nat) : s.seen.s.phys pa n = s.phys pa n := by
  simp only [State.seen, State.ticked_eq hw.1]
  rfl

include hs

theorem ldc_traps {t : Trap} (h : s.seen.constAccess (s.seen.pair a + (s.seen.op b).signExtend 64).toNat = .error t) :
    s.Traps w (.ldc d a b) true t := by
  refine (exec_ldc d a b s).trans (issue_traps hw.1 (chkA_passes_of_budget hs).fault ?_)
  rw [Issue.sea, sext64, h]

theorem ldc_retires {rows : List LaneAccess} {es : List Effect}
    (h : s.seen.constAccess (s.seen.pair a + (s.seen.op b).signExtend 64).toNat = .ok (rows, es)) :
    s.Retires (.ldc d a b) (ldcOut s.seen d rows es) := by
  refine (exec_ldc d a b s).trans (issue_retires hw.1 (chkA_passes_of_budget hs).fault ?_)
  rw [Issue.sea, sext64, h, ldcOut, constPlace]
  dsimp only
  cases rows.any fun x => x.remote.isSome || x.place.mgmt <;>
    cases find s.seen.s.ccache (ccKey s.seen.k s.seen.c.role ((rows.map fun x => x.place.off).headD 0))
  case false.some =>
    rw [if_neg Bool.false_ne_true]
    dsimp only
    split <;> rfl
  all_goals rfl

end const

/-- Settles O27: the words that load by what loadOut says of them, LDC by what the constant cache holds; the offset check by its
branches. -/
theorem loadsBindTheirBytes : Obligations.LoadsBindTheirBytes := by
  refine ⟨fun s w => ⟨fun d f hn h => ld_loadsBy hn h, fun d a b hn h => lds_loadsBy hn h, fun d a b hw hs =>
    ⟨sld_loadsBy hw hs, fun t => ldc_traps hw hs, fun rows es h => ⟨fun hf => ?current, fun hf hn => ?missing,
      fun old hf => ?old⟩⟩⟩, fun I off n => ⟨fun h => if_pos h, fun h h' => ?_, fun h h' => ?_⟩⟩
  case current =>
    have hret := ldc_retires hw hs h
    rwa [ldcOut_current (by rw [seen_ccKey hw, seen_ccache hw, seen_phys hw]; exact hf)] at hret
  case missing =>
    have hret := ldc_retires hw hs h
    rw [ldcOut_missing (by rw [seen_ccKey hw, seen_ccache hw]; exact hf) hn, seen_ccKey hw] at hret
    exact hret
  case old =>
    have hret := ldc_retires hw hs h
    rcases ldcOut_old (I := s.seen) (d := d) (es := es) (by rw [seen_ccKey hw, seen_ccache hw]; exact hf) with e | e
    · exact .inl (e ▸ hret)
    · exact .inr (e ▸ hret)
  · rw [Issue.sharedAt, if_neg (not_not.mpr h), if_neg (Nat.not_lt.mpr h')]
    rfl
  · rw [Issue.sharedAt, if_neg (not_not.mpr h), if_pos h']

end Sys2Proof.Machine
end

section
/-! Float words (O11, O12, O13): the LFSR step of a word that rounds, what the issue rounds to, and what the shared forms of
FloatOps write (03 R83 to R85; 07 R161 to R166, R168 to R170). -/
namespace Sys2Proof.Machine

/-! The LFSR step (R84). -/

/-- The step of the LFSR never reaches zero, so that the state written is the stepped one (R39). -/
theorem lfsrStep_ne_zero {x : Word} (hx : x ≠ 0) : lfsrStep x ≠ 0 := by
  intro h
  unfold lfsrStep at h
  cases h0 : x.getLsbD 0 with
  | false =>
    have hshift : x >>> 1 = 0 := by
      rw [h0] at h
      exact BitVec.xor_zero.symm.trans h
    refine hx (BitVec.eq_of_getLsbD_eq fun i _ => ?_)
    cases i with
    | zero => simpa using h0
    | succ i =>
      have := congrArg (BitVec.getLsbD · i) hshift
      simpa [Nat.add_comm] using this
  | true =>
    have := congrArg (BitVec.getLsbD · 31) h
    simp [h0] at this

/-- The LFSR after the step of a word that may round. -/
def lfsrIf (rounds : Bool) (I : Issue) : Word := if rounds then lfsrAfter I else I.w.lfsr

/-- The effects of that step. -/
def Issue.stepIf (I : Issue) (rounds : Bool) : List Effect := if rounds then I.stepLfsr else []

theorem mem_stepIf {I : Issue} {rounds : Bool} {e : Effect} (he : e ∈ I.stepIf rounds) : e = .lfsr I.k I.drawState := by
  unfold Issue.stepIf Issue.stepLfsr at he
  split at he
  · split at he
    · exact List.mem_singleton.mp he
    · exact absurd he List.not_mem_nil
  · exact absurd he List.not_mem_nil

section seen
variable {s : State} {w : Warp} (hw : find s.warps s.cur = some w)
include hw

theorem seen_drawState : s.seen.drawState = (s.at w).drawState := by
  rw [Issue.drawState, seen_w hw]
  rfl

theorem seen_draw (l h : Nat) : s.seen.draw l h = (s.at w).draw l h := by
  rw [Issue.draw, seen_drawState hw]
  rfl

theorem seen_round (f : Fmt) (l h : Nat) (x : Val) : s.seen.round f l h x = (s.at w).round f l h x := by
  rw [Issue.round, seen_rnd hw, seen_sat hw, seen_fz hw, seen_draw hw]
  rfl

theorem seen_narrow (ty l h : Nat) (x : Val) : s.seen.narrow ty l h x = (s.at w).narrow ty l h x := by
  rw [Issue.narrow, seen_rnd hw, seen_sat hw, seen_fz hw, seen_draw hw]
  rfl

theorem seen_fval (x h : Nat) : s.seen.fval x h = (s.at w).fval x h := by
  rw [Issue.fval, seen_ty hw, seen_fz hw]
  rfl

end seen

/-- What the step of a word that may round leaves in the LFSR. -/
theorem regsAll_stepIf {s : State} {w : Warp} (hw : s.Issuing w) (rounds : Bool) :
    (regsAll (s.seen.stepIf rounds) w).lfsr = lfsrIf rounds (s.at w) := by
  obtain ⟨-, -, -, -, hne⟩ := hw.2
  cases rounds with
  | false => rfl
  | true =>
    simp only [Issue.stepIf, Issue.stepLfsr, lfsrIf, lfsrAfter, if_true, seen_rnd hw.1, seen_drawState hw.1, rnStoch]
    split
    · exact if_neg (lfsrStep_ne_zero hne)
    · rfl

/-! What the shared forms write. -/

/-- A word that may round and writes a typed result in every active lane. -/
theorem givesVector_of_issue {s : State} {w : Warp} {i : Instr} {chk : Issue → Chk}
    {body : Issue → Except Trap (List Effect × Flow)} {ty d : Nat} {e : Nat → Nat} (rounds : Bool) (hw : s.Issuing w)
    (hc : (chk (s.at w)).Passes (s.at w)) (hd : ∀ r ∈ vregs ty d, r < 256) (hi : exec i s = issue chk body s)
    (hb : body s.seen = .ok (s.seen.stepIf rounds ++ (s.at w).act.flatMap fun l => vout s.cur ty d l (e l), .next)) :
    s.GivesVector w i (vregs ty d) (fun r l => resultIn ty d (e l) r) (lfsrIf rounds (s.at w)) := by
  rw [State.GivesVector, hi, ← regsAll_stepIf hw rounds]
  exact typed_done hw hc hd (fun _ he => ⟨_, mem_stepIf he⟩) hb

/-- A word that may round and writes one register in every active lane, as its result stands. -/
theorem givesVector_of_single {s : State} {w : Warp} {i : Instr} {chk : Issue → Chk}
    {body : Issue → Except Trap (List Effect × Flow)} {d : Nat} {e : Nat → Nat} (rounds : Bool) (hw : s.Issuing w)
    (hc : (chk (s.at w)).Passes (s.at w)) (hd : d < 256) (hi : exec i s = issue chk body s)
    (hb : body s.seen = .ok (s.seen.stepIf rounds ++ (s.at w).act.map fun l => .vreg s.cur d l (word (e l)), .next)) :
    s.GivesVector w i [d] (fun _ l => word (e l)) (lfsrIf rounds (s.at w)) := by
  refine givesVector_of_issue (ty := tyB32) rounds hw hc (fun r hr => List.mem_singleton.mp hr ▸ hd) hi (hb.trans ?_)
  rw [List.map_eq_flatMap]
  rfl

/-- Values that agree on the registers written are given alike. -/
theorem State.GivesVector.congr {s : State} {w : Warp} {i : Instr} {rs : List Nat} {x y : Nat → Nat → Word} {q : Word}
    (h : s.GivesVector w i rs x q) (hxy : ∀ r ∈ rs, ∀ l, x r l = y r l) : s.GivesVector w i rs y q := by
  obtain ⟨t, ht, hx, hreg⟩ := h
  exact ⟨t, ht, fun r hr l hl => (hx r hr l hl).trans (hxy r hr l), hreg⟩

/-- The type of a type's width whose results are stored as they stand. -/
def rawType (ty : Nat) : Nat := if is64 ty then ty else tyB32

theorem is64_rawType (ty : Nat) : is64 (rawType ty) = is64 ty := by
  unfold rawType
  cases h : is64 ty with
  | false => rfl
  | true => exact h

theorem vregs_rawType (ty d : Nat) : vregs (rawType ty) d = vregs ty d := by rw [vregs, is64_rawType, vregs]

theorem vout_rawType (k ty d l x : Nat) : vout k (rawType ty) d l x =
    if is64 ty then [.vreg k d l (word x), .vreg k (d + 1) l (word (x / 2 ^ 32))] else [.vreg k d l (word x)] := by
  rw [vout, is64_rawType]
  split
  · rfl
  · rw [rawType, if_neg ‹_›]
    rfl

theorem resultIn_rawType {ty d x r : Nat} (hr : r ∈ vregs ty d) :
    resultIn (rawType ty) d x r = if r = d then word x else word (x / 2 ^ 32) := by
  rw [resultIn, is64_rawType]
  split
  · rfl
  · rename_i h
    rw [vregs, if_neg h] at hr
    rw [if_pos (List.mem_singleton.mp hr), rawType, if_neg h]
    rfl

/-- RND is checked of the words that round (R60). -/
theorem rnd_admitted {rounds : Bool} {rnd : Nat} (h : rounds = true → rnd < 6) : (!rounds || decide (rnd < 6)) = true := by
  cases rounds with
  | false => rfl
  | true => exact decide_eq_true (h rfl)

section forms
variable {s : State} {w : Warp} {i : Instr} {d a : Nat} {b : Opnd} (hd : d < 256)
include hd

/-- A word on float elements (R160): its result from the old d, a and b of a lane. -/
theorem givesTyped_of_floatOp {float rounds : Bool} {f : Issue → Nat → Nat → Nat → Nat → Nat} {e : Nat → Nat}
    (h : let ty := (s.at w).ty
      let bt := if float then ty else tyB32
      s.Admits w { cls := .e, legal := okReg ty d && okReg ty a && b.legal bt && b.evenUnder ty
                   vs := vregs ty d ++ vregs ty a ++ b.vs bt, ss := b.ss bt, dst := vregs ty d })
    (hty : isF (s.at w).ty = true) (hr : rounds = true → (s.at w).rnd < 6)
    (hi : exec i s = floatOp isF float rounds d a b f s)
    (he : let I := s.at w
      ∀ l, f s.seen l (I.vsrc I.ty d l) (I.vsrc I.ty a l) (I.opnd (if float then I.ty else tyB32) l b) = e l) :
    s.GivesTyped w i d e (lfsrIf rounds (s.at w)) := by
  obtain ⟨hw, hc⟩ := h
  have hl := hc.legal
  simp only [Bool.and_eq_true] at hl
  obtain ⟨⟨⟨hD, hA⟩, hB⟩, hE⟩ := hl
  refine givesVector_of_issue rounds hw (hc.relegal ?_) (fun r => vregs_lt hd hD) hi ?_
  · simp only [Bool.and_eq_true]
    exact ⟨⟨⟨⟨⟨hty, hD⟩, hA⟩, hB⟩, hE⟩, rnd_admitted hr⟩
  · simp only [seen_ty hw.1, seen_act hw.1, seen_vsrc hw.1, seen_opnd hw.1, he]
    rfl

/-- An arithmetic word (R161): each element rounded once from the value of its operands. -/
theorem givesTyped_of_farith {f : Bool → Val → Val → Val → Val}
    (h : let ty := (s.at w).ty
      s.Admits w { cls := .e, legal := okReg ty d && okReg ty a && b.legal ty && b.evenUnder ty
                   vs := vregs ty d ++ vregs ty a ++ b.vs ty, ss := b.ss ty, dst := vregs ty d })
    (hty : isF (s.at w).ty = true) (hr : (s.at w).rnd < 6) (hi : exec i s = farith d a b f s) :
    let I := s.at w
    s.GivesTyped w i d (fun l => byElem I.ty fun h => I.round (fmtF I.ty) l h (f (I.rnd == 2)
      (I.fval (I.vsrc I.ty a l) h) (I.fval (I.opnd I.ty l b) h) (I.fval (I.vsrc I.ty d l) h))) (lfsrAfter I) := by
  have hw := h.1.1
  refine givesTyped_of_floatOp hd (float := true) (rounds := true) h hty (fun _ => hr) hi fun l => ?_
  simp only [seen_ty hw, seen_rnd hw, seen_round hw, seen_fval hw]
  rfl

/-- A word of one float operand (R166): its result as it stands, over a pair under a 64-bit type. -/
theorem givesVector_of_floatOne {rounds : Bool} {f : Issue → Nat → Nat → Nat} {e : Nat → Nat}
    (h : let ty := (s.at w).ty
      s.Admits w { cls := .e, legal := okReg ty d && b.legal ty, vs := vregs ty d ++ b.vs ty, ss := b.ss ty
                   dst := vregs ty d })
    (hty : isF (s.at w).ty = true) (hr : rounds = true → (s.at w).rnd < 6) (hi : exec i s = floatOne rounds d b f s)
    (he : ∀ l, f s.seen l ((s.at w).opnd (s.at w).ty l b) = e l) :
    s.GivesVector w i (vregs (s.at w).ty d) (fun r l => if r = d then word (e l) else word (e l / 2 ^ 32))
      (lfsrIf rounds (s.at w)) := by
  obtain ⟨hw, hc⟩ := h
  have hl := hc.legal
  simp only [Bool.and_eq_true] at hl
  obtain ⟨hD, hB⟩ := hl
  have hwide : vregs (rawType (s.at w).ty) d = vregs (s.at w).ty d := vregs_rawType _ _
  rw [← hwide]
  refine (givesVector_of_issue rounds hw (hc.relegal ?_) (fun r hr => vregs_lt hd hD (hwide ▸ hr)) hi ?_).congr
    fun r hr l => resultIn_rawType (hwide ▸ hr)
  · simp only [Bool.and_eq_true]
    exact ⟨⟨⟨hty, hD⟩, hB⟩, rnd_admitted hr⟩
  · simp only [vout_rawType, seen_ty hw.1, seen_act hw.1, seen_opnd hw.1, he]
    rfl

end forms

/-- The types whose words take the float forms are those of F. -/
theorem isF_of_mem {ty : Nat} (h : ty ∈ [0x0A, 0x0B, 0x0C, 0x0D, 0x14, 0x15]) : isF ty = true := by
  simp only [List.mem_cons, List.not_mem_nil, or_false] at h
  rcases h with rfl | rfl | rfl | rfl | rfl | rfl <;> rfl

section words
variable (d a : Nat) (b : Opnd) (s : State)

/-! The arithmetic words (R161, R165). -/

theorem exec_fadd : exec (twoForms .faddVv .faddVs d a b) s = farith d a b (fun down x y _ => Val.add down x y) s := by
  cases b <;> rfl
theorem exec_fsub : exec (twoForms .fsubVv .fsubVs d a b) s = farith d a b (fun down x y _ => Val.add down x y.neg) s := by
  cases b <;> rfl
theorem exec_fmul : exec (twoForms .fmulVv .fmulVs d a b) s = farith d a b (fun _ x y _ => Val.mul x y) s := by
  cases b <;> rfl
theorem exec_ffma : exec (twoForms .ffmaVv .ffmaVs d a b) s =
    farith d a b (fun down x y z => Val.add down (Val.mul x y) z) s := by
  cases b <;> rfl
theorem exec_fscale : exec (twoForms .fscaleVv .fscaleVs d a b) s = fscale d a b s := by cases b <;> rfl

/-! The selections and tests (R162 to R164, R166). -/

theorem exec_fmin : exec (twoForms .fminVv .fminVs d a b) s = fminmax false false d a b s := by cases b <;> rfl
theorem exec_fmax : exec (twoForms .fmaxVv .fmaxVs d a b) s = fminmax false true d a b s := by cases b <;> rfl
theorem exec_fminnm : exec (twoForms .fminnmVv .fminnmVs d a b) s = fminmax true false d a b s := by cases b <;> rfl
theorem exec_fmaxnm : exec (twoForms .fmaxnmVv .fmaxnmVs d a b) s = fminmax true true d a b s := by cases b <;> rfl
theorem exec_fcmp : exec (twoForms .fcmpVv .fcmpVs d a b) s = fcmp d a b s := by cases b <;> rfl
theorem exec_fclass : exec (twoForms .fclassVv .fclassVs d a b) s = fclass d a b s := by cases b <;> rfl
theorem exec_fgetx : exec (oneSource .fgetxVv .fgetxVs d b) s = fgetx d b s := by cases b <;> rfl
theorem exec_frnd : exec (oneSource .frndVv .frndVs d b) s = frnd d b s := by cases b <;> rfl

/-! Packing, unpacking and the dot product (R168 to R170). -/

theorem exec_fpack : exec (twoForms .fpackVv .fpackVs d a b) s = fpack d a b s := by cases b <;> rfl
theorem exec_funpack : exec (twoForms .funpackVv .funpackVs d a b) s = funpack d a b s := by cases b <;> rfl
theorem exec_fdot2 : exec (twoForms .fdot2Vv .fdot2Vs d a b) s = fdot2 d a b s := by cases b <;> rfl

end words

/-- Settles O11: each word by the form of its arithmetic, FSCALE by its count read under b32. -/
theorem floatArithmeticRoundsOnce : Obligations.FloatArithmeticRoundsOnce := by
  intro s w d a b hd I ty hty hr x y z down out
  refine ⟨fun h => ?arithmetic, fun h => ?fscale⟩
  case arithmetic =>
    have gives : ∀ {i f}, exec i s = farith d a b f s → s.GivesTyped w i d
        (fun l => out l fun h => f down (x l h) (y l h) (z l h)) (lfsrAfter I) :=
      fun hi => givesTyped_of_farith hd h (isF_of_mem hty) hr hi
    have hadd := gives (exec_fadd d a b s)
    have hsub := gives (exec_fsub d a b s)
    have hmul := gives (exec_fmul d a b s)
    have hfma := gives (exec_ffma d a b s)
    exact ⟨hadd, hsub, hmul, hfma⟩
  case fscale =>
    have hw := h.1.1
    refine givesTyped_of_floatOp hd (float := false) (rounds := true) h (isF_of_mem hty) (fun _ => hr)
      (exec_fscale d a b s) fun l => ?_
    simp only [seen_ty hw, seen_round hw, seen_fval hw]
    rfl

/-! What the selections and tests say of one element. -/

/-- R162: the strict forms give the canonical NaN for a NaN, and else choose by the order. -/
theorem fselect_strict (f : Fmt) (greater : Bool) (x y : Nat) : fselect f false greater x y =
    if f.value x = .nan ∨ f.value y = .nan then f.nanBits
    else if Val.lt (f.value x) (f.value y) = greater then y else x := by
  unfold fselect
  cases f.value x <;> cases f.value y <;> simp

/-- R162: the number forms give the operand that is no NaN, where there is just one. -/
theorem fselect_number (f : Fmt) (greater : Bool) (x y : Nat) : fselect f true greater x y =
    if f.value x = .nan ∧ f.value y = .nan then f.nanBits else if f.value x = .nan then y
    else if f.value y = .nan then x else if Val.lt (f.value x) (f.value y) = greater then y else x := by
  unfold fselect
  cases f.value x <;> cases f.value y <;> simp

/-- A choice by the absence of a condition. -/
theorem ite_eq_false_swap (c : Bool) (x y : Nat) : (if c = false then y else x) = if c then x else y := by
  cases c <;> rfl

/-- R163: the code of FCMP. -/
theorem fcmpBits_eq (x y : Val) : fcmpBits x y =
    if x = .nan ∨ y = .nan then 8 else if Val.eqv x y then 1 else if Val.lt x y then 2 else 4 := by
  unfold fcmpBits
  cases x <;> cases y <;> simp

/-- Settles O12: the words of two operands by the form of floatOp, those of one by that of floatOne. -/
theorem floatSelectionsAndTests : Obligations.FloatSelectionsAndTests := by
  intro s w d a b hd I ty f hty x y lesser greater strict number gives
  have hF := isF_of_mem hty
  refine ⟨fun h => ?pairs, fun h => ?classes, fun h => ⟨?exponent, fun hr => ?integral⟩⟩
  all_goals have hw := h.1.1
  case pairs =>
    have selects : ∀ {i num great g}, exec i s = fminmax num great d a b s → (∀ x y, fselect f num great x y = g x y) →
        gives g i := fun hi hg => by
      refine givesTyped_of_floatOp hd (float := true) (rounds := false) h hF nofun hi fun l => ?_
      simp only [seen_ty hw, seen_fz hw]
      exact congrArg (byElem ty) (funext fun h => hg _ _)
    refine ⟨selects (exec_fmin d a b s) ?_, selects (exec_fmax d a b s) ?_, selects (exec_fminnm d a b s) ?_,
      selects (exec_fmaxnm d a b s) ?_, ?_⟩
    · exact fun x y => by simp only [fselect_strict, ite_eq_false_swap, strict, lesser]
    · exact fun x y => fselect_strict f true x y
    · exact fun x y => by simp only [fselect_number, ite_eq_false_swap, number, lesser]
    · exact fun x y => fselect_number f true x y
    · refine givesTyped_of_floatOp hd (float := true) (rounds := false) h hF nofun (exec_fcmp d a b s) fun l => ?_
      simp only [seen_ty hw, seen_fval hw, fcmpBits_eq]
      rfl
  case classes =>
    refine givesTyped_of_floatOp hd (float := false) (rounds := false) h hF nofun (exec_fclass d a b s) fun l => ?_
    simp only [seen_ty hw]
    rfl
  case exponent =>
    refine givesVector_of_floatOne hd (rounds := false) h hF nofun (exec_fgetx d b s) fun l => ?_
    simp only [seen_ty hw, seen_fval hw]
    refine congrArg (unelem (getxBits ty)) (List.map_congr_left fun h _ => ?_)
    cases (s.at w).fval ((s.at w).opnd (s.at w).ty l b) h <;> rfl
  case integral =>
    refine givesVector_of_floatOne hd (rounds := true) h hF (fun _ => hr) (exec_frnd d b s) fun l => ?_
    simp only [seen_ty hw, seen_rnd hw, seen_fz hw, seen_draw hw, seen_fval hw]
    refine congrArg (byElem ty) (funext fun h => ?_)
    cases (s.at w).fval ((s.at w).opnd (s.at w).ty l b) h <;> rfl

/-! What packing makes of its elements (R168), and the types of R169. -/

theorem packResult_pairs {ty : Nat} (h : ty ∈ [0x14, 0x15]) :
    okPack ty = true ∧ ∀ z x y, packResult ty z x y = x + 2 ^ 16 * y := by
  simp only [List.mem_cons, List.not_mem_nil, or_false] at h
  rcases h with rfl | rfl <;> exact ⟨rfl, fun _ _ _ => rfl⟩

theorem packResult_bytes {ty : Nat} (h : ty ∈ [0x0E, 0x0F]) :
    okPack ty = true ∧ ∀ z x y, packResult ty z x y = x + 2 ^ 8 * y + z % 2 ^ 16 * 2 ^ 16 := by
  simp only [List.mem_cons, List.not_mem_nil, or_false] at h
  rcases h with rfl | rfl <;> exact ⟨rfl, fun z x y => congrArg (x + 2 ^ 8 * y + ·) (Nat.mul_comm _ _)⟩

theorem packResult_nibbles {ty : Nat} (h : ty = 0x12) :
    okPack ty = true ∧ ∀ z x y, packResult ty z x y = x + 2 ^ 4 * y + z % 2 ^ 24 * 2 ^ 8 := by
  subst h
  exact ⟨rfl, fun z x y => congrArg (x + 2 ^ 4 * y + ·) (Nat.mul_comm _ _)⟩

theorem okUnpack_of_mem {ty : Nat} (h : ty ∈ [0x14, 0x15, 0x0E, 0x0F, 0x10, 0x11, 0x12, 0x13]) : okUnpack ty = true := by
  simp only [List.mem_cons, List.not_mem_nil, or_false] at h
  rcases h with rfl | rfl | rfl | rfl | rfl | rfl | rfl | rfl <;> rfl

section packed
variable {s : State} {w : Warp} {d a : Nat} {b : Opnd} (hd : d < 256)
include hd

/-- R168: FPACK under each type that it admits. -/
theorem fpack_gives {e : Nat → Nat}
    (h : s.Admits w { cls := .e, legal := b.legal tyF32, vs := [d, a] ++ b.vs tyF32, ss := b.ss tyF32, dst := [d] })
    (hr : (s.at w).rnd < 6) (hty : okPack (s.at w).ty = true)
    (he : let I := s.at w
      ∀ l, packResult I.ty (I.v d l).toNat (I.narrow (elemType I.ty) l 0 (fmtF32.read I.fz (I.v a l).toNat))
        (I.narrow (elemType I.ty) l 1 (fmtF32.read I.fz (I.opnd tyF32 l b))) = e l) :
    s.GivesVector w (twoForms .fpackVv .fpackVs d a b) [d] (fun _ l => word (e l)) (lfsrAfter (s.at w)) := by
  obtain ⟨hw, hc⟩ := h
  refine givesVector_of_single true hw (hc.relegal ?_) hd (exec_fpack d a b s) ?_
  · simp only [Bool.and_eq_true]
    exact ⟨⟨hty, hc.legal⟩, decide_eq_true hr⟩
  · simp only [seen_ty hw.1, seen_fz hw.1, seen_act hw.1, seen_v hw.1, seen_opnd hw.1, seen_narrow hw.1, he]
    rfl

end packed

/-- Settles O13: FPACK by the shape of its result under each type, FUNPACK and FDOT2 by what a lane of them writes. -/
theorem packUnpackAndDotWrite : Obligations.PackUnpackAndDotWrite := by
  intro s w d a b hd I ty wide
  refine ⟨fun h hr => ?pack, fun ⟨hw, hc⟩ hty => ?unpack, fun ⟨hw, hc⟩ hty hr => ?dot⟩
  case pack =>
    intro lo hi old
    have packs : ∀ {g : Nat → Nat → Nat → Nat}, (okPack ty = true ∧ ∀ z x y, packResult ty z x y = g z x y) →
        s.GivesVector w (twoForms .fpackVv .fpackVs d a b) [d] (fun _ l => word (g (old l) (lo l) (hi l))) (lfsrAfter I) :=
      fun hg => fpack_gives hd h hr hg.1 fun l => hg.2 _ _ _
    exact ⟨fun hty => packs (packResult_pairs hty), fun hty => packs (packResult_bytes hty),
      fun hty => packs (packResult_nibbles hty)⟩
  case unpack =>
    have hexec := exec_funpack d a b s
    unfold funpack lanewise at hexec
    refine givesVector_of_single false hw (hc.relegal ?_) hd hexec ?_
    · simp only [Bool.and_eq_true]
      exact ⟨okUnpack_of_mem hty, hc.legal⟩
    · rw [List.map_eq_flatMap]
      simp only [seen_ty hw.1, seen_fz hw.1, seen_act hw.1, seen_v hw.1, seen_opnd hw.1]
      rfl
  case dot =>
    refine givesVector_of_single true hw (hc.relegal ?_) hd (exec_fdot2 d a b s) ?_
    · simp only [Bool.and_eq_true]
      exact ⟨⟨by simpa using hty, hc.legal⟩, decide_eq_true hr⟩
    · simp only [seen_ty hw.1, seen_rnd hw.1, seen_fz hw.1, seen_act hw.1, seen_v hw.1, seen_vsrc hw.1, seen_opnd hw.1,
        seen_fval hw.1, seen_round hw.1]
      rfl

end Sys2Proof.Machine
end

section
/-! The cache, TLB and page-table words (O31): the check of a supervisor word, what each of these words does where it passes,
and the trap of the privileged ones in user mode (01 R26; 03 R31; 08 R194 to R196, R202, R203). -/
namespace Sys2Proof.Machine

/-! The check of a supervisor word that names only scalar registers (R31). -/

/-- The check of a word of class S that executes once. -/
def chkS (ss : List Nat) : Chk := { cls := .s, once := true, ss }

theorem chkS_passes {s : State} {w : Warp} {ss : List Nat} (hp : w.ctl.priv = true) (hs : ∀ n ∈ ss, n < w.ctl.sbudget) :
    (chkS ss).Passes (s.at w) := by
  constructor <;> simp_all [chkS, State.at, Issue.c]

theorem chkS_fault_user {s : State} {w : Warp} {ss : List Nat} (hp : w.ctl.priv = false) (hh : w.ctl.helper = none) :
    (chkS ss).fault (s.at w) = some 0x18 := by
  simp [chkS, Chk.fault, Cls.admits, State.at, Issue.c, hp, hh]

/-- A word of class S traps in user mode, whatever it would do. -/
theorem traps_of_user {s : State} {w : Warp} {i : Instr} {ss : List Nat} {body : Issue → Except Trap (List Effect × Flow)}
    (hw : s.Issuing w) (hp : w.ctl.priv = false) (hh : w.ctl.helper = none)
    (hi : exec i s = issue (fun _ => chkS ss) body s) : s.Traps w i true { code := 0x18 } :=
  hi.trans (issue_refused hw.1 (chkS_fault_user hp hh))

theorem exec_cctlCinv (s : State) : exec .cctlCinv s = execCctlCinv s := rfl
theorem exec_icinv (a : Nat) (x : SOp) (s : State) : exec (.icinv a x) s = execIcinv a x s := rfl
theorem exec_tlbinv (a : Nat) (x : SOp) (s : State) : exec (.tlbinv a x) s = execTlbinv a x s := rfl
theorem exec_ptwr (a b : Nat) (s : State) : exec (.ptwr a b) s = execPtwr a b s := rfl
theorem exec_sret (s : State) : exec .sret s = execSret s := rfl

/-! What the words act on is the same once the marks of the issuing slices clear. -/

section seen
variable {s : State} {w : Warp} (hw : s.Issuing w)
include hw

theorem ticked_icache : s.ticked.icache = s.icache := by rw [State.ticked_eq hw.1]
theorem ticked_copies : s.ticked.copies = s.copies := by rw [State.ticked_eq hw.1]
theorem ticked_fab : s.ticked.fab = s.fab := by rw [State.ticked_eq hw.1]
theorem ticked_ids : s.ticked.ids = s.ids := by rw [State.ticked_eq hw.1]

end seen

/-- R194: CCTL.cinv empties the constant caches of the core. -/
theorem cctlCinv_retires {s : State} {w : Warp} (hw : s.Issuing w) :
    s.Retires .cctlCinv ([.ccache (s.ccache.filter fun p => p.1 / 2 ^ 50 / 3 != coreOf s.cur)], .next) := by
  refine (exec_cctlCinv s).trans (issue_retires hw.1 (chkA_passes_of_budget (ss := []) (by simp)).fault ?_)
  rw [seen_ccache hw]
  rfl

/-! ICINV (R195, R196). -/

section icinv
variable {s : State} {w : Warp} {a : Nat} {x : SOp} (hw : s.Issuing w) (hp : w.ctl.priv = true)
  (hs : ∀ n ∈ [a, a + 1] ++ opRegs x, n < w.ctl.sbudget)
include hw hp hs

theorem icinv_all (h : (s.at w).op x = 0) : s.Retires (.icinv a x) ([.icache []], .next) := by
  refine (exec_icinv a x s).trans (issue_retires hw.1 (chkS_passes hp hs).fault ?_)
  rw [seen_op hw.1, h]
  rfl

theorem icinv_range {va : Nat} (h : (s.at w).op x ≠ 0) (hg : generic ((s.at w).pair a).toNat = .virt va) :
    s.Retires (.icinv a x) ([.icache (s.icache.filter fun p => !(p.2.any fun q =>
      lineIn (s.ticked.frames4k (s.blk (blockOf s.cur)).ctx ((s.at w).pair a).toNat ((s.at w).op x).toNat)
        ((s.at w).pair a).toNat ((s.at w).op x).toNat q.1))], .next) := by
  have hn : ((s.at w).op x).toNat ≠ 0 := fun e => h (BitVec.eq_of_toNat_eq e)
  refine (exec_icinv a x s).trans (issue_retires hw.1 (chkS_passes hp hs).fault ?_)
  simp only [seen_op hw.1, seen_pair hw.1, seen_blk hw.1, if_neg hn, hg]
  rw [← ticked_icache hw]
  rfl

end icinv

/-! TLBINV (R202). -/

/-- The name since which a word waits for the chip to be quiet: that of its first issue, or else a given one. -/
def Slice.quietSince (n : Nat) (y : Slice) : Nat := match y.wait with | some (.quiet m) => m | _ => n

/-- The name since which a TLBINV waits. -/
def Issue.quietSince (I : Issue) : Nat := I.slice.quietSince I.s.ids

/-- The mark that a word left of its first issue outlives its next. -/
theorem Slice.quietSince_ticked (n : Nat) (y : Slice) : y.ticked.quietSince n = y.quietSince n := by
  simp only [Slice.quietSince, Slice.ticked]
  cases y.wait with
  | none => rfl
  | some v => cases v <;> rfl

theorem seen_quietSince {s : State} {w : Warp} (hw : s.Issuing w) : s.seen.quietSince = (s.at w).quietSince := by
  have hids : s.seen.s.ids = s.ids := ticked_ids hw
  rw [Issue.quietSince, hids, Issue.slice, seen_c hw.1]
  exact Ctl.onSlices_view (Slice.quietSince s.ids) w.ctl s.slices (lowest 8 s.slices) Slice.ticked
    (Slice.quietSince_ticked s.ids)

/-- R202: the chip is quiet where every store queue can drain, no earlier copy command has a request still to send, and every
earlier request is answered. -/
theorem chipQuiet_ticked_iff {s : State} {w : Warp} (hw : s.Issuing w) (n : Nat) : s.ticked.chipQuiet n = true ↔
    (∀ p ∈ s.ticked.warps, s.ticked.drainable p.1 = true) ∧ (∀ c ∈ s.copies, c.id < n → c.sends = []) ∧
      ∀ r ∈ s.fab.reqs, n ≤ r.id := by
  simp only [State.chipQuiet, ticked_copies hw, ticked_fab hw, Bool.and_eq_true, List.all_eq_true, Bool.or_eq_true,
    decide_eq_true_eq, List.isEmpty_iff, or_iff_not_imp_left, Nat.not_le, and_assoc]

/-- Whether a TLBINV of a kind, a context and an address names an entry. -/
def Tlb.named (kind ctx ea : Nat) (t : Tlb) : Bool :=
  kind == 2 || (t.ctx == ctx && (kind == 1 || t.base == ea / t.walk.size * t.walk.size))

theorem Tlb.named_all (ctx ea : Nat) (t : Tlb) : t.named 2 ctx ea = true := rfl
theorem Tlb.named_context (ctx ea : Nat) (t : Tlb) : t.named 1 ctx ea = (t.ctx == ctx) := Bool.and_true _
theorem Tlb.named_address (ctx ea : Nat) (t : Tlb) :
    t.named 0 ctx ea = (t.ctx == ctx && t.base == ea / t.walk.size * t.walk.size) := rfl

/-- A kind of TLBINV that there is, with no address where its kind takes none. -/
def tlbinvValid (kind a : Nat) : Prop := kind = 0 ∨ (kind < 3 ∧ a = 0)

theorem tlbinvValid.admitted {kind a : Nat} (h : tlbinvValid kind a) :
    ¬(decide (kind = 3) || (decide (kind ≠ 0) && decide (a ≠ 0))) = true := by
  simp only [Bool.or_eq_true, Bool.and_eq_true, decide_eq_true_eq]
  rcases h with h | ⟨h, h'⟩ <;> omega

section tlbinv
variable {s : State} {w : Warp} {a : Nat} {x : SOp} (hw : s.Issuing w) (hp : w.ctl.priv = true)
  (hs : ∀ n ∈ [a, a + 1] ++ opRegs x, n < w.ctl.sbudget) (hv : tlbinvValid (bits ((s.at w).op x).toNat 1 0) a)
include hw hp hs hv

theorem tlbinv_waits (hq : s.ticked.chipQuiet (s.at w).quietSince = false) :
    s.Retires (.tlbinv a x) (drainEvery s.ticked, .wait (.quiet (s.at w).quietSince)) := by
  have hq' : (!s.ticked.chipQuiet s.seen.quietSince) = true := by rw [seen_quietSince hw, hq]; rfl
  refine (exec_tlbinv a x s).trans (issue_retires hw.1 (chkS_passes hp hs).fault ?_)
  rw [← seen_quietSince hw]
  rw [← seen_op hw.1] at hv
  exact (if_neg hv.admitted).trans (if_pos hq')

theorem tlbinv_removes (hq : s.ticked.chipQuiet (s.at w).quietSince = true) {keep : Tlb → Bool}
    (hk : ∀ t : Tlb, keep t =
      !t.named (bits ((s.at w).op x).toNat 1 0) (bits ((s.at w).op x).toNat 13 8) ((s.at w).pair a).toNat) :
    s.Retires (.tlbinv a x) (chain s.ticked [drainEvery, fun s' => [.tlb (s'.tlb.filter keep)]], .next) := by
  have hq' : ¬(!s.ticked.chipQuiet s.seen.quietSince) = true := by simp [seen_quietSince hw, hq]
  obtain rfl := funext hk
  refine (exec_tlbinv a x s).trans (issue_retires hw.1 (chkS_passes hp hs).fault ?_)
  rw [← seen_op hw.1, ← seen_pair hw.1]
  rw [← seen_op hw.1] at hv
  exact (if_neg hv.admitted).trans (if_neg hq')

end tlbinv

/-! PTWR (R203). -/

/-- Where PTWR may write, but for the vaults. -/
theorem ptwr_target {pa : Nat} (hl : pa < 2 ^ 43) (hr : region pa = .hbm ∨ region pa = .host) (vault : Bool) :
    (decide (pa < 2 ^ 43) && (region pa == .hbm || region pa == .host || vault)) = true := by
  rw [decide_eq_true hl]
  rcases hr with hr | hr <;> simp [hr]

/-- PTWR's write: the entry in place of the old one where one of them is not valid, with the entry that stands then. -/
def ptwrWrite (I : Issue) (pa b : Nat) (s : State) : List Effect :=
  if (I.pair b).toNat % 2 = 0 ∨ s.phys pa 8 % 2 = 0
  then s.physWrite pa (leBytes 8 (I.pair b).toNat) (s.epochOf I.k) (some (I.k, lowest 8 I.sl)) ++
    pairOut I.k b (dword (I.pair b).toNat)
  else pairOut I.k b (dword (s.phys pa 8))

/-- A valid entry is one with bit 0 set. -/
theorem not_bit_zero (x : Nat) : (!bit x 0) = decide (x % 2 = 0) := by
  rcases Nat.mod_two_eq_zero_or_one x with h | h <;> simp [bit, h]

theorem ptwrWrite_eq (I : Issue) (pa b : Nat) : ptwrWrite I pa b = fun s =>
    let old := s.phys pa 8
    let new := (I.pair b).toNat
    let put := !bit new 0 || !bit old 0
    (if put then s.physWrite pa (leBytes 8 new) (s.epochOf I.k) (some (I.k, lowest 8 I.sl)) else []) ++
      pairOut I.k b (dword (if put then new else old)) := by
  funext s
  simp only [ptwrWrite, not_bit_zero, Bool.or_eq_true, decide_eq_true_eq]
  split <;> rfl

/-- What an aligned PTWR to HBM or host memory does with the entry at its address. -/
def ptwrOut (I : Issue) (pa b : Nat) : Except Trap (List Effect × Flow) :=
  if I.s.poisonedRange pa 8 then .error { code := 0x12, addr := pa }
  else if !I.s.drainable I.k then .ok ([], .wait (.home pa))
  else if I.s.writeWaits pa (I.s.epochOf I.k) then .ok (pinPage I.s pa (I.s.epochOf I.k), .wait (.home pa))
  else .ok (chain I.s [fun s => drainAll s I.k, ptwrWrite I pa b], .next)

section ptwr
variable {s : State} {w : Warp} {a b : Nat} (hw : s.Issuing w) (hp : w.ctl.priv = true)
  (hs : ∀ n ∈ [a, a + 1, b, b + 1], n < w.ctl.sbudget)
include hw

theorem exec_ptwr_inMemory (h8 : ((s.at w).pair a).toNat % 8 = 0) (hl : ((s.at w).pair a).toNat < 2 ^ 43)
    (hr : region ((s.at w).pair a).toNat = .hbm ∨ region ((s.at w).pair a).toNat = .host) :
    ∃ body, exec (.ptwr a b) s = issue (fun _ => chkS [a, a + 1, b, b + 1]) body s ∧
      body s.seen = ptwrOut s.seen ((s.at w).pair a).toNat b := by
  refine ⟨_, exec_ptwr a b s, ?_⟩
  rw [ptwrOut, ptwrWrite_eq]
  dsimp only
  rw [seen_pair hw.1 a, if_neg (not_not.mpr h8)]
  simp only [ptwr_target hl hr, Bool.true_and, Bool.not_true, Bool.false_eq_true, if_false]

include hp hs

/-- A misaligned PTWR traps. -/
theorem ptwr_misaligned (h : ((s.at w).pair a).toNat % 8 ≠ 0) :
    s.Traps w (.ptwr a b) true { code := 0x06, addr := ((s.at w).pair a).toNat } := by
  refine (exec_ptwr a b s).trans (issue_traps hw.1 (chkS_passes hp hs).fault ?_)
  rw [← seen_pair hw.1] at h ⊢
  exact if_pos h

section inMemory
variable (h8 : ((s.at w).pair a).toNat % 8 = 0) (hl : ((s.at w).pair a).toNat < 2 ^ 43)
  (hr : region ((s.at w).pair a).toNat = .hbm ∨ region ((s.at w).pair a).toNat = .host)
include h8 hl hr

theorem ptwr_traps {t : Trap} (ht : ptwrOut s.seen ((s.at w).pair a).toNat b = .error t) : s.Traps w (.ptwr a b) true t := by
  obtain ⟨body, hi, hb⟩ := exec_ptwr_inMemory (b := b) hw h8 hl hr
  exact hi.trans (issue_traps hw.1 (chkS_passes hp hs).fault (hb.trans ht))

theorem ptwr_retires {es : List Effect} {f : Flow} (ht : ptwrOut s.seen ((s.at w).pair a).toNat b = .ok (es, f)) :
    s.Retires (.ptwr a b) (es, f) := by
  obtain ⟨body, hi, hb⟩ := exec_ptwr_inMemory (b := b) hw h8 hl hr
  exact hi.trans (issue_retires hw.1 (chkS_passes hp hs).fault (hb.trans ht))

end inMemory

end ptwr

/-- Settles O31: each word by what it does where its check passes, the privileged ones by that check in user mode. -/
theorem cacheAndTranslationWords : Obligations.CacheAndTranslationWords := by
  intro s w a b x hw I pa
  refine ⟨cctlCinv_retires hw, fun hp => ⟨fun hs => ⟨icinv_all hw hp hs, fun va => icinv_range hw hp hs, ?tlbinv⟩,
    fun hs => ⟨ptwr_misaligned hw hp hs, fun h8 hl hr h => ?poisoned, fun h8 hl hr h hd => ?waits,
      fun h8 hl hr h hd hq => ?writes⟩⟩,
    fun hp hh => ⟨traps_of_user hw hp hh (exec_icinv a x s), traps_of_user hw hp hh (exec_tlbinv a x s),
      traps_of_user hw hp hh (exec_ptwr a b s), traps_of_user hw hp hh (exec_sret s)⟩⟩
  case tlbinv =>
    intro since quiet valid
    have hkind : bits (I.op x).toNat 1 0 = (I.op x).toNat % 4 := by simp [bits]
    have hq : s.ticked.chipQuiet I.quietSince = true ↔ quiet := chipQuiet_ticked_iff hw _
    have hv : valid → tlbinvValid (bits (I.op x).toNat 1 0) a := fun h => hkind ▸ h
    refine ⟨fun h hn => tlbinv_waits hw hp hs (hv h) (Bool.eq_false_iff.mpr (mt hq.mp hn)), fun hy => ?_⟩
    refine ⟨fun hk ha => tlbinv_removes hw hp hs (hv (.inr ⟨by omega, ha⟩)) (hq.mpr hy) fun t => ?all,
      fun hk ha => tlbinv_removes hw hp hs (hv (.inr ⟨by omega, ha⟩)) (hq.mpr hy) fun t => ?context,
      fun hk => tlbinv_removes hw hp hs (hv (.inl hk)) (hq.mpr hy) fun t => ?address⟩
    case all => rw [hkind, hk, Tlb.named_all]; rfl
    case context => rw [hkind, hk, Tlb.named_context]; rfl
    case address => rw [hkind, hk, Tlb.named_address]; rfl
  case poisoned => exact ptwr_traps hw hp hs h8 hl hr (if_pos h)
  all_goals have hclean : ¬s.seen.s.poisonedRange pa 8 = true := Bool.not_eq_true _ ▸ h
  case waits =>
    have hheld : (!s.seen.s.drainable s.seen.k) = true := congrArg (!·) hd
    exact ptwr_retires hw hp hs h8 hl hr ((if_neg hclean).trans (if_pos hheld))
  case writes =>
    have hfree : ¬(!s.seen.s.drainable s.seen.k) = true := ne_true_of_eq_false (congrArg (!·) hd)
    have hwrites : ptwrOut s.seen pa b = .ok (chain s.ticked [fun u => drainAll u s.cur, ptwrWrite s.seen pa b], .next) :=
      (if_neg hclean).trans ((if_neg hfree).trans (if_neg (ne_true_of_eq_false hq)))
    have hret := ptwr_retires hw hp hs h8 hl hr hwrites
    unfold ptwrWrite at hret
    rw [seen_pair hw.1] at hret
    exact hret

end Sys2Proof.Machine
end

section
/-! Home slices (O60): the slice whose turn the hash of a line gives, and the slices in service as a context boundary counts them
(01 R26; 08 R183, R184). -/
namespace Sys2Proof.Machine

/-- A line that is homed on a die has the slice that its hash picks among those in service there (R183). -/
theorem homeSlice_of_die {s : State} {pa d : Nat}
    (hr : (region pa = .hbm ∧ d = bits pa 38 38) ∨ (region pa = .host ∧ d = bits pa 12 12)) :
    let js := s.vil.slicesIn.getD d []
    let l := bits pa 37 7
    s.homeSlice pa = (js[(l ^^^ (l / 2 ^ 11) ^^^ (l / 2 ^ 22)) % js.length]?).map (96 * d + ·) := by
  rcases hr with ⟨h, rfl⟩ | ⟨h, rfl⟩
  · rw [State.homeSlice, h]
    rfl
  · rw [State.homeSlice, h]

theorem homeSlice_of_vault {s : State} {pa j : Nat} (h : region pa = .vault j) : s.homeSlice pa = some j := by
  rw [State.homeSlice, h]

/-- A change of a die's split leaves Vilvon's records as they are (R184). -/
theorem applyAll_zeros_vil (l : List Nat) (f g : Nat → Nat) (s : State) :
    (applyAll (l.map fun j => .zero (f j) (g j)) s).vil = s.vil := by
  induction l generalizing s with
  | nil => rfl
  | cons j t ih => exact ih _

theorem applyAll_applySplit_vil (die : Nat) (s u : State) : (applyAll (applySplit die s) u).vil = u.vil := by
  unfold applySplit
  rw [applyAll_append]
  change (applyAll (if _ then _ else []) u).vil = u.vil
  split
  · exact applyAll_zeros_vil (span 0 96) _ _ u
  · rfl

/-- R183: a context boundary counts the slices of its die that are in service. -/
theorem contextBoundary_counts {s : State} {d : Nat} (h : ∀ p ∈ s.blocks, dieOfBlock p.1 ≠ d) :
    ∃ t, exec (.contextBoundary d) s = .next t ∧
      t.vil.slicesIn = s.vil.slicesIn.set d ((span 0 96).filter fun j => !s.isFenced 1 d j) := by
  refine ⟨_, (contextBoundary_event s d).1 h, ?_⟩
  rw [apply_fresh, applyAll_chain, applyAll_chain, chain, applyAll_nil]
  split
  · rw [applyAll_applySplit_vil]
    rfl
  · rfl

/-- Settles O60: the hash picks one of the slices that the last boundary counted. -/
theorem linesHaveHomeSlices : Obligations.LinesHaveHomeSlices := by
  refine ⟨?homed, fun s pa j => homeSlice_of_vault, fun s d _ h => contextBoundary_counts h, fun d hd => ?atReset⟩
  case homed =>
    intro s pa d hr js l h
    rw [homeSlice_of_die hr, List.getElem?_eq_getElem (Nat.mod_lt _ h)]
    rfl
  case atReset =>
    obtain rfl | rfl : d = 0 ∨ d = 1 := by omega
    all_goals exact List.range_eq_range'.trans (span_eq_range' 0 96).symm

end Sys2Proof.Machine
end

section
/-! What comes from the fabric and from the host (O57): replies and acknowledgements, incoming requests, timeouts, host accesses
and snoops, links and planes, page walks and migration, each under its condition (08 R199, R207; 09 R230, R231; 14 R330 to R339,
R351, R354 to R356). -/
namespace Sys2Proof.Machine

/-! Replies, acknowledgements and what becomes of requests (R230, R333 to R335, R339). -/

theorem exec_remoteReply (n : Nat) (a : Reply) (s : State) : exec (.remoteReply n a) s = execRemoteReply n a s := rfl
theorem exec_remoteAck (n : Nat) (v : Via) (s : State) : exec (.remoteAck n v) s = execRemoteAck n v s := rfl
theorem exec_remoteTimeout (n : Nat) (s : State) : exec (.remoteTimeout n) s = execRemoteTimeout n s := rfl
theorem exec_undeliverableReport (n : Nat) (s : State) :
    exec (.undeliverableReport n) s = execUndeliverableReport n s := rfl

section outstanding
variable {s : State} {n : Nat} {r : Req} (hr : s.req n = some r) (hf : r.plane ≠ 0xFE)
include hr hf

theorem remoteReply_event (a : Reply) : s.Event (.remoteReply n a) (s.vil.keys = true)
    (chain s [packetArrives (channelKey (r.pa / 2 ^ 43) r.plane 1) a.parity,
      fun s => if a.err ≠ 0 then errRequest r (a.err - 1) s
        else chain s [dropRequest n, takeReply r a, answered r, mirror r.k, wake r.k]]) := by
  refine State.event_of_effects ?_
  rw [exec_remoteReply, execRemoteReply, hr]
  exact if_neg hf

theorem remoteTimeout_commits : s.Commits (.remoteTimeout n) (errRequest r 2 s) := by
  rw [State.Commits, exec_remoteTimeout, execRemoteTimeout, hr]
  exact if_neg hf

theorem undeliverableReport_commits :
    s.Commits (.undeliverableReport n) (settleRequest (s.planes.filter (· ≠ r.plane)) n s) := by
  rw [State.Commits, exec_undeliverableReport, execUndeliverableReport, hr]
  exact if_neg hf

/-- R230: of the kinds of request, those that no reply answers are acknowledged. -/
theorem remoteAck_event (hk : r.kind = 1 ∨ r.kind = 3 ∨ r.kind = 5 ∨ 6 < r.kind) (v : Via) :
    s.Event (.remoteAck n v) (s.vil.keys = true) (chain s [
      packetArrives (channelKey (r.pa / 2 ^ 43) r.plane 1) v.parity, dropRequest n,
      takeReply r { bytes := [], poison := 0, err := 0, parity := v.parity }, wake r.k]) := by
  have hk' : ¬(r.plane = 0xFE || r.kind = 0 || r.kind = 2 || r.kind = 4 || r.kind = 6) = true := by
    simp only [Bool.or_eq_true, decide_eq_true_eq]
    omega
  refine State.event_of_effects ?_
  rw [exec_remoteAck, execRemoteAck, hr]
  exact if_neg hk'

end outstanding

section unknown
variable {s : State} {n : Nat} (hn : s.req n = none)
include hn

/-- What a late reply does is what its packet does, but for the refusal of a row that was held (R366, R405). -/
theorem lateReply_event (a : Reply) : s.Event (.remoteReply n a) (s.vil.keys = true) (chain s [
    packetArrives (channelKey a.chip a.plane 1) a.parity,
    fun s => match s.heldPut n with
      | some q => if a.err = 0 ∧ a.bytes.head? = some 4#8 then lateRefusal q s else []
      | none => []]) := by
  refine State.event_of_effects ?_
  rw [exec_remoteReply, execRemoteReply, hn]
  simp only [Bool.and_eq_true, beq_iff_eq, decide_eq_true_eq]
  rfl

theorem lateAck_event (v : Via) : s.Event (.remoteAck n v) (s.vil.keys = true)
    (packetArrives (channelKey v.chip v.plane 1) v.parity s) := by
  refine State.event_of_effects ?_
  rw [exec_remoteAck, execRemoteAck, hn]
  rfl

theorem lateTimeout_commits : s.Commits (.remoteTimeout n) [] := by
  rw [State.Commits, exec_remoteTimeout, execRemoteTimeout, hn]
  rfl

theorem lateReport_commits : s.Commits (.undeliverableReport n) [] := by
  rw [State.Commits, exec_undeliverableReport, execUndeliverableReport, hn]
  rfl

end unknown

/-! Requests of other chips (R334, R407, R413, R465). -/

theorem exec_remoteRequest (q : RemoteReq) (s : State) : exec (.remoteRequest q) s = execRemoteRequest q s := rfl

/-- A request comes with the keys, from a chip and on a plane that there are. -/
def State.flows (s : State) (q : RemoteReq) : Prop := s.vil.keys = true ∧ q.chip < 512 ∧ q.plane < 96

theorem State.stopped_iff (s : State) (q : RemoteReq) :
    (!s.vil.keys || decide (512 ≤ q.chip) || decide (96 ≤ q.plane)) = true ↔ ¬s.flows q := by
  simp [State.flows, imp_iff_not_or, or_assoc]

/-- A request that changes memory waits where its page or vault does. -/
def State.holdsBack (u : State) (q : RemoteReq) : Prop :=
  u.servable q = true ∧ reqChanges q = true ∧ u.writeWaits q.pa (u.packetEpoch q.parity) = true

section requests
variable {s : State} {q : RemoteReq}

theorem remoteRequest_stopped (h : ¬s.flows q) : s.Commits (.remoteRequest q) [] :=
  (exec_remoteRequest q s).trans (if_pos ((s.stopped_iff q).mpr h))

/-- The test whether a request is held back. -/
theorem heldBack_iff (u : State) (hk : q.kind ≠ 6) :
    (q.kind ≠ 6 && reqChanges q && u.servable q && u.writeWaits q.pa (u.packetEpoch q.parity)) = true ↔ u.holdsBack q := by
  simp only [State.holdsBack, Bool.and_eq_true, decide_eq_true_eq, hk, not_false_eq_true, ne_eq, true_and]
  exact ⟨fun ⟨⟨h1, h2⟩, h3⟩ => ⟨h2, h1, h3⟩, fun ⟨h2, h1, h3⟩ => ⟨⟨h1, h2⟩, h3⟩⟩

variable (h : s.flows q)
include h

section others
variable (hk : q.kind ≠ 6)
include hk

theorem remoteRequest_waits (hb : (applyAll (packetArrives (channelKey q.chip q.plane 0) q.parity s) s).holdsBack q) :
    let pre := packetArrives (channelKey q.chip q.plane 0) q.parity s
    let u := applyAll pre s
    s.Commits (.remoteRequest q) (pre ++ pinPage u q.pa (u.packetEpoch q.parity)) :=
  (exec_remoteRequest q s).trans
    ((if_neg fun e => (s.stopped_iff q).mp e h).trans (if_pos ((heldBack_iff _ hk).mpr hb)))

theorem remoteRequest_performs (hb : ¬(applyAll (packetArrives (channelKey q.chip q.plane 0) q.parity s) s).holdsBack q) :
    let key := channelKey q.chip q.plane 0
    let pre := packetArrives key q.parity s
    s.Commits (.remoteRequest q) (pre ++ chain (applyAll pre s) [
      fun s => if s.toLog key q.parity && (reqChanges q && s.servable q) then logRequest key (reqLog q q.tag) s else [],
      fun s => let r := performRemote q s
        chain s [fun _ => r.1, fun s => [.fab { s.fab with sent := s.fab.sent ++
          [⟨1, q.chip, q.plane, [q.tag, s.deviceEpoch % 2, r.2.1, r.2.2.1] ++ r.2.2.2.map BitVec.toNat⟩] }]]]) := by
  have hk' : (q.kind == 6) = false := beq_eq_false_iff_ne.mpr hk
  refine (exec_remoteRequest q s).trans
    ((if_neg fun e => (s.stopped_iff q).mp e h).trans ((if_neg fun e => hb ((heldBack_iff _ hk).mp e)).trans ?_))
  rw [if_neg hk]
  simp only [hk', Bool.false_or]
  rfl

end others

/-- R465: the first part of a put becomes a request of the home slice. -/
theorem remoteRequest_puts (hk : q.kind = 6) :
    let key := channelKey q.chip q.plane 0
    let pre := packetArrives key q.parity s
    let u := applyAll pre s
    s.Commits (.remoteRequest q) (pre ++ chain u [
      fun s => if s.toLog key q.parity then logRequest key (reqLog q u.ids) s else [],
      fun s => [.cmbReqs (s.cmbReqs ++ [reqPut q s.ids (s.packetEpoch q.parity) s.chip]), .ids 1]]) := by
  have hk' : (q.kind == 6) = true := beq_iff_eq.mpr hk
  refine (exec_remoteRequest q s).trans
    ((if_neg fun e => (s.stopped_iff q).mp e h).trans ((if_neg (by simp [hk])).trans ?_))
  rw [if_pos hk]
  simp only [hk', Bool.true_or, Bool.and_true]
  rfl

end requests

/-! Timeouts, accesses and snoops of the host (R231, R354, R356). -/

theorem exec_hostTimeout (n : Nat) (s : State) : exec (.hostTimeout n) s = execHostTimeout n s := rfl
theorem exec_hostMemAccess (write : Bool) (pa : Nat) (bytes : List Byte) (s : State) :
    exec (.hostMemAccess write pa bytes) s = execHostMemAccess write pa bytes s := rfl
theorem exec_hostSnoop (pa : Nat) (inv : Bool) (bytes : List Byte) (s : State) :
    exec (.hostSnoop pa inv bytes) s = execHostSnoop pa inv bytes s := rfl

/-- The request to host memory of a name. -/
def State.hostReq (s : State) (n : Nat) : Option Req := s.fab.reqs.find? fun r => r.id == n && r.plane == 0xFE

/-- The first queued store to a host line of another's that has a name, with its context. -/
def State.hostStore (s : State) (n : Nat) : Option (Nat × QStore) :=
  s.warps.findSome? fun p => (p.2.ctl.storeQ.find? fun q =>
    q.id == n && q.sp == .phys && region q.off == .host && !s.ownsLine p.1 q.off).map fun q => (p.1, q)

theorem hostStore_eq_none {s : State} {n : Nat} (h : ∀ p ∈ s.warps, ∀ q ∈ p.2.ctl.storeQ, q.id = n → q.sp = .phys →
    region q.off = .host → s.ownsLine p.1 q.off = true) : s.hostStore n = none := by
  simpa [State.hostStore] using h

theorem hostTimeout_request {s : State} {n : Nat} {r : Req} (h : s.hostReq n = some r) :
    s.Commits (.hostTimeout n) (hostGone r s) := by
  rw [State.hostReq] at h
  rw [State.Commits, exec_hostTimeout, execHostTimeout, h]
  rfl

theorem hostTimeout_store {s : State} {n k : Nat} {q : QStore} (hr : s.hostReq n = none) (h : s.hostStore n = some (k, q)) :
    s.Commits (.hostTimeout n) (hostStoreGone k q s) := by
  rw [State.hostReq] at hr
  rw [State.hostStore] at h
  rw [State.Commits, exec_hostTimeout, execHostTimeout, hr]
  simp only [h]
  rfl

theorem hostTimeout_named {s : State} {n : Nat} (hr : s.hostReq n = none) (h : s.hostStore n = none) :
    s.Commits (.hostTimeout n)
      (if 2 ^ 48 ≤ n then hostFetchGone n s else if 2 ^ 40 ≤ n then hostRowGone n s else hostEngineGone n s) := by
  rw [State.hostReq] at hr
  rw [State.hostStore] at h
  rw [State.Commits, exec_hostTimeout, execHostTimeout, hr]
  simp only [h]
  rfl

section host
variable {s : State} {pa : Nat} {bytes : List Byte}

/-- Reduced service refuses the host's accesses and snoops (R424). -/
theorem hostMemAccess_refused (h : s.mgmt.devst.toNat % 8 = 2) (write : Bool) :
    s.Commits (.hostMemAccess write pa bytes) (hostAnswer pa 2 [] s) :=
  (exec_hostMemAccess write pa bytes s).trans (if_pos h)

theorem hostSnoop_refused (h : s.mgmt.devst.toNat % 8 = 2) (inv : Bool) :
    s.Commits (.hostSnoop pa inv bytes) (hostAnswer pa 2 [] s) :=
  (exec_hostSnoop pa inv bytes s).trans (if_pos h)

section served
variable (h : s.mgmt.devst.toNat % 8 = 3) (hl : region pa = .hbm) (hu : region (pa + bytes.length - 1) = .hbm)
include h hl hu

/-- In full service an access to HBM is admitted. -/
theorem exec_hostMemAccess_served (write : Bool) : exec (.hostMemAccess write pa bytes) s =
    if write then commit s (chain s [fun s => s.physWrite pa bytes s.deviceEpoch none, wakeAll])
    else if s.snap.blocked.any fun q =>
      q.sl == 9 && decide (q.off < pa + bytes.length) && decide (pa < q.off + q.bytes.length) then commit s []
    else commit s
      (hostAnswer pa (if s.poisonedRange pa bytes.length then 1 else 0) (Sparse.bytes s.mem pa bytes.length) s) := by
  rw [exec_hostMemAccess, execHostMemAccess, if_neg (by omega), if_neg (by simp [h, hl, hu])]

theorem hostMemAccess_writes : s.Commits (.hostMemAccess true pa bytes)
    (chain s [fun s => s.physWrite pa bytes s.deviceEpoch none, wakeAll]) :=
  exec_hostMemAccess_served h hl hu true

/-- A read waits for the writes of no warp that a snapshot holds back (R410). -/
theorem hostMemAccess_reads : s.Event (.hostMemAccess false pa bytes)
    (∀ q ∈ s.snap.blocked, q.sl = 9 → ¬(q.off < pa + bytes.length ∧ pa < q.off + q.bytes.length))
    (hostAnswer pa (if s.poisonedRange pa bytes.length then 1 else 0) (Sparse.bytes s.mem pa bytes.length) s) :=
  State.event_of_guard (by simp [and_assoc]) (exec_hostMemAccess_served h hl hu false)

end served

/-- A snoop takes the line back; one that invalidates brings the bytes that the host writes. -/
theorem hostSnoop_event (h : s.mgmt.devst.toNat % 8 ≠ 2) (inv : Bool) : s.Event (.hostSnoop pa inv bytes)
    (s.mgmt.devst.toNat % 8 = 3 ∧ region pa = .host ∧ region (pa + bytes.length - 1) = .host)
    (if inv then chain s [fun s => s.physWrite pa bytes s.deviceEpoch none, wakeAll]
      else [.owned (s.disowned pa bytes.length none)]) := by
  refine State.event_of_guard (c := (region pa ≠ .host || region (pa + bytes.length - 1) ≠ .host
    || s.mgmt.devst.toNat % 8 ≠ 3) = true) ?_ ?_
  · simp only [Bool.or_eq_true, decide_eq_true_eq]
    tauto
  · rw [exec_hostSnoop, execHostSnoop, if_neg h]
    cases inv <;> rfl

end host

/-! Links and planes (R330, R333, R337 to R339). -/

theorem exec_linkTrainDone (p e : Nat) (s : State) : exec (.linkTrainDone p e) s = execLinkTrainDone p e s := rfl
theorem exec_linkDrop (p e : Nat) (s : State) : exec (.linkDrop p e) s = execLinkDrop p e s := rfl
theorem exec_planeNotice (p : Nat) (s : State) : exec (.planeNotice p) s = execPlaneNotice p s := rfl
theorem exec_planeenWrite (n v : Nat) (s : State) : exec (.planeenWrite n v) s = execPlaneenWrite n v s := rfl
theorem exec_planeChangeApply (s : State) : exec .planeChangeApply s = execPlaneChangeApply s := rfl

section link
variable {s : State} {p e : Nat} (hu : s.mgmt.devst.toNat % 8 ≠ 4)
include hu

section trains
variable (hp : p < 96) (hf : s.isFenced 5 (p / 48) p = false)
include hp hf

/-- A port that is there and not fenced ends a step of its training: the training itself, then the exchange. -/
theorem exec_linkTrainDone_training (hx : portState (s.mgmt.portst.get p).toNat < 3) :
    let x := (s.mgmt.portst.get p).toNat
    exec (.linkTrainDone p e) s =
      if portState x < 2 then commit s (setPort p (max (portTrains x) 1) (bits x 15 8) 2 s)
      else if e = 0 then commit s (setPort p (portTrains x) (bits x 15 8) 3 s)
      else if portTrains x < 4 then commit s (setPort p (portTrains x + 1) e 1 s)
      else commit s (portFail p e s) := by
  refine (exec_linkTrainDone p e s).trans (if_neg ?_)
  simp only [Bool.or_eq_true, decide_eq_true_eq, hf, Bool.false_eq_true, or_false, not_or, Nat.not_le]
  exact ⟨⟨hu, hp⟩, hx⟩

/-- TRAINS counts a training from its start (R337; log entry 43). -/
theorem linkTrainDone_exchanges (hx : portState (s.mgmt.portst.get p).toNat < 2) :
    let x := (s.mgmt.portst.get p).toNat
    s.Commits (.linkTrainDone p e) (setPort p (max (portTrains x) 1) (bits x 15 8) 2 s) :=
  (exec_linkTrainDone_training hu hp hf (by omega)).trans (if_pos hx)

/-- Where the two ends agree the port is up; where they differ it retrains, and at the limit fails (R338). -/
theorem linkTrainDone_settles (hx : portState (s.mgmt.portst.get p).toNat = 2) :
    let x := (s.mgmt.portst.get p).toNat
    (e = 0 → s.Commits (.linkTrainDone p e) (setPort p (portTrains x) (bits x 15 8) 3 s)) ∧
    (e ≠ 0 → portTrains x < 4 → s.Commits (.linkTrainDone p e) (setPort p (portTrains x + 1) e 1 s)) ∧
    (e ≠ 0 → 4 ≤ portTrains x → s.Commits (.linkTrainDone p e) (portFail p e s)) := by
  have hexec := (exec_linkTrainDone_training (e := e) hu hp hf (by omega)).trans (if_neg (by omega))
  exact ⟨fun he => hexec.trans (if_pos he), fun he ht => hexec.trans ((if_neg he).trans (if_pos ht)),
    fun he ht => hexec.trans ((if_neg he).trans (if_neg (Nat.not_lt.mpr ht)))⟩

end trains

theorem linkDrop_counts (hx : portState (s.mgmt.portst.get p).toNat = 3) :
    let x := (s.mgmt.portst.get p).toNat
    (portTrains x < 4 → s.Commits (.linkDrop p e) (setPort p (portTrains x + 1) e 1 s)) ∧
    (4 ≤ portTrains x → s.Commits (.linkDrop p e) (portFail p e s)) := by
  have hexec := (exec_linkDrop p e s).trans (if_neg (by simp [hu, hx]))
  exact ⟨fun ht => hexec.trans (if_pos ht), fun ht => hexec.trans (if_neg (Nat.not_lt.mpr ht))⟩

end link

theorem planeNotice_event (s : State) (p : Nat) :
    s.Event (.planeNotice p) (s.mgmt.devst.toNat % 8 ≠ 4) (losePlane p s) :=
  State.event_of_guard not_not.symm (exec_planeNotice p s)

/-- The new plane set applies once no request is outstanding on the fabric (R333). -/
theorem planeChangeApply_commits {s : State} (hc : s.fab.changing = true) (hr : ∀ r ∈ s.fab.reqs, r.plane = 0xFE) :
    let new := setBits 96 s.mgmt.planeen.toNat
    let gone := s.planes.filter fun p => !new.contains p
    s.Commits .planeChangeApply (chain s (
      [fun s => [.fab { s.fab with planes := s.mgmt.planeen, changing := false }]] ++ restartUnits new s ++
      [fun s => if s.snap.st = 1 || s.snap.st = 2 then
        [.snap { s.snap with closed := s.snap.closed ++ s.routed.flatMap fun c => channelsOf c gone }] else [],
       settleSnap])) :=
  (exec_planeChangeApply s).trans (if_neg (by simpa [hc] using hr))

/-! Page walks and page migration (R199, R207). -/

theorem exec_pageWalk (ctx va : Nat) (write : Bool) (s : State) :
    exec (.pageWalk ctx va write) s = execPageWalk ctx va write s := rfl
theorem exec_pageMigration (q : Migration) (s : State) : exec (.pageMigration q) s = execPageMigration q s := rfl

theorem pageWalk_commits {s : State} {ctx va pa : Nat} (hg : generic va = .virt pa) (hl : (s.walk ctx va).kind = .leaf)
    (write : Bool) : s.Commits (.pageWalk ctx va write)
      (s.useLeaf ctx va (write && pteW (s.walk ctx va).entry) (s.walk ctx va)) := by
  rw [State.Commits, exec_pageWalk, execPageWalk, hg]
  exact if_pos hl

/-- Settles O57: each event by what it does under its condition. -/
theorem fabricStepsTakePlace : Obligations.FabricStepsTakePlace := by
  intro s n p e
  refine ⟨fun r a v hr hf => ⟨remoteReply_event hr hf a, remoteTimeout_commits hr hf, undeliverableReport_commits hr hf,
      fun hk => remoteAck_event hr hf hk v⟩,
    fun hn => ⟨lateReply_event hn, lateAck_event hn, lateTimeout_commits hn, lateReport_commits hn⟩,
    fun q => ⟨remoteRequest_stopped, remoteRequest_waits, remoteRequest_performs, remoteRequest_puts⟩,
    fun r => hostTimeout_request,
    fun hr => ⟨fun k q => hostTimeout_store hr, fun h => hostTimeout_named hr (hostStore_eq_none h)⟩,
    ⟨fun pa bytes => ⟨fun write h => hostMemAccess_refused h write,
        fun h hl hu => ⟨hostMemAccess_writes h hl hu, hostMemAccess_reads h hl hu⟩⟩,
      fun pa inv bytes => ⟨fun h => hostSnoop_refused h inv, fun h => hostSnoop_event h inv⟩⟩,
    ⟨fun hu hp hf => ⟨linkTrainDone_exchanges hu hp hf, linkTrainDone_settles hu hp hf⟩, linkDrop_counts⟩,
    planeNotice_event s p, rfl, exec_planeenWrite n e s, planeChangeApply_commits,
    fun va pa w hg hl => pageWalk_commits hg hl w, ?migration⟩
  case migration =>
    intro q hsize hplace hsrc hdst hleaf hst
    have hsizes : (q.size == 4096 || q.size == 65536 || q.size == 2 ^ 21 || q.size == 2 ^ 30) = true := by
      simpa [or_assoc] using hsize
    have hbm : ∀ a ∈ [q.src, q.dst],
        (region a == .hbm && region (a + q.size - 1) == .hbm && a % q.size == 0) = true := fun a ha => by simp [hplace a ha]
    have hunpinned : ((span (q.src / 65536) (framesFor q.size)).any fun f => (s.snapPage f).st == 2) = false :=
      List.any_eq_false.mpr fun f hf => by simpa using hsrc f hf
    have hnormal : ((span (q.dst / 65536) (framesFor q.size)).any fun f => (s.snapPage f).st != 0) = false :=
      List.any_eq_false.mpr fun f hf => by simpa using hdst f hf
    have hclean : ((leavesOf q).any fun x => s.poisonedRange x.1 8) = false :=
      List.any_eq_false.mpr fun x hx => by simp [hleaf x hx]
    have hstate : s.devState = 3 := hst
    refine (exec_pageMigration q s).trans (if_neg ?_)
    simp only [hsizes, hbm q.src (by simp), hbm q.dst (by simp), hunpinned, hnormal, hstate, hclean]
    decide

end Sys2Proof.Machine
end

section
/-! FENCE and WAITC (O26): what a fence waits for on its read side and on its write side, and what WAITC compares (09 R221, R230;
10 R224, R253, R254). -/
namespace Sys2Proof.Machine

theorem exec_fence (ord scope : Nat) (s : State) : exec (.fence ord scope) s = execFence ord scope s := rfl
theorem exec_waitc (cls n : Nat) (s : State) : exec (.waitc cls n) s = execWaitc cls n s := rfl

/-- A slice has its acknowledgements where it has waited for them, or else where none is outstanding. -/
def Slice.acksIn (acked : Bool) (y : Slice) : Bool := (match y.wait with | some (.acks _) => true | _ => false) || acked

/-- The mark that a word left of its first issue outlives its next (R230). -/
theorem Slice.acksIn_ticked (acked : Bool) (y : Slice) : y.ticked.acksIn acked = y.acksIn acked := by
  simp only [Slice.acksIn, Slice.ticked]
  cases y.wait with
  | none => rfl
  | some v => cases v <;> rfl

theorem Slice.acksIn_iff (acked : Bool) (y : Slice) :
    y.acksIn acked = true ↔ (∃ m, y.wait = some (.acks m)) ∨ acked = true := by
  simp only [Slice.acksIn, Bool.or_eq_true]
  refine or_congr_left ?_
  split
  · rename_i m h
    exact iff_of_true rfl ⟨m, h⟩
  · rename_i h
    exact iff_of_false Bool.false_ne_true fun ⟨m, hm⟩ => h m hm

/-- R230, R336: what the remote stores, RED and atomics are among the outstanding requests. -/
theorem Req.changes_iff (r : Req) : r.changes = true ↔ r.plane ≠ 0xFE ∧ 1 ≤ r.kind ∧ r.kind ≤ 3 := by
  simp [Req.changes, and_assoc]

theorem State.acked_iff (s : State) (n : Nat) : s.acked n = true ↔
    ∀ r ∈ s.fab.reqs, r.id < n → r.plane ≠ 0xFE → ¬(1 ≤ r.kind ∧ r.kind ≤ 3) := by
  simp only [State.acked, List.all_eq_true, Bool.or_eq_true, decide_eq_true_eq, or_iff_not_imp_left, Nat.not_le,
    Bool.not_eq_true', ← Bool.not_eq_true, Req.changes_iff, not_and]

/-- What a release waits for, as a fence tests it. -/
theorem State.unreleased_iff (s : State) :
    (s.seen.holdBack.isSome || !s.seen.s.drainable s.seen.k) = true ↔ ¬s.released := by
  rw [State.released, not_and_or, Bool.or_eq_true, Option.isSome_iff_ne_none, Bool.not_eq_true', ← Bool.not_eq_true]
  rfl

/-- A release does not wait: the warp has the replies of its loads from other chips (R217). -/
theorem State.released.farPending {s : State} (h : s.released) : s.seen.c.farPending = false := by
  by_contra hf
  have hb := h.1
  rw [Issue.holdBack, if_pos (Bool.eq_true_of_not_eq_false hf)] at hb
  exact Option.some_ne_none _ hb

/-- What a word that releases beyond the chip waits for is answered (R230): it has waited for it before, or no remote store,
RED or atomic sent until now is outstanding. -/
def State.Answered (s : State) (w : Warp) : Prop := (∃ m, (s.at w).slice.wait = some (.acks m)) ∨
  ∀ r ∈ s.fab.reqs, r.id < s.ids → r.plane ≠ 0xFE → ¬(1 ≤ r.kind ∧ r.kind ≤ 3)

section words
variable {s : State} {w : Warp} (hw : s.Issuing w)
include hw

theorem seen_acksIn_iff : s.seen.acksIn = true ↔ s.Answered w := by
  have hslice : s.seen.acksIn = (s.at w).slice.acksIn (s.ticked.acked s.ticked.ids) :=
    seen_slice hw.1 (Slice.acksIn (s.ticked.acked s.ticked.ids)) (Slice.acksIn_ticked _)
  rw [hslice, Slice.acksIn_iff, State.acked_iff, ticked_fab hw, ticked_ids hw]
  rfl

/-- A word that releases waits for acknowledgements where it releases beyond the chip and they are not in. -/
theorem seen_awaits_iff (scope : Nat) :
    (decide (5 ≤ scope) && !s.seen.acksIn) = true ↔ 5 ≤ scope ∧ ¬s.Answered w := by
  rw [Bool.and_eq_true, decide_eq_true_eq, Bool.not_eq_true', ← Bool.not_eq_true, seen_acksIn_iff hw]

theorem seen_farPending : s.seen.c.farPending = w.ctl.farPending := by
  rw [seen_c hw.1]
  rfl

/-! FENCE (R221, R253). -/

/-- The read side: the warp issues nothing until its loads from other chips have their replies. -/
theorem fence_awaitsReplies {ord scope : Nat} (hf : w.ctl.farPending = true) : s.Retires (.fence ord scope)
    (holdFor s.cur (fun r => w.ctl.flagOps.any fun o => o.waiting.contains r.id) s.ticked, .wait .returned) := by
  refine (exec_fence ord scope s).trans (issue_retires hw.1 (chkA_passes_of_budget (ss := []) (by simp)).fault ?_)
  rw [if_pos ((seen_farPending hw).trans hf), seen_c hw.1]
  rfl

theorem fence_acquires {scope : Nat} (hf : w.ctl.farPending = false) : s.GivesFlow (.fence 1 scope) .next := by
  refine givesFlow_of_issue (ss := []) hw (by simp) (exec_fence 1 scope s) rfl ?_
  rw [if_neg (by simp [seen_farPending hw, hf]), if_pos rfl]

/-- The write side, where the warp's stores cannot all become visible yet. -/
theorem fence_stalls {ord scope : Nat} (hf : w.ctl.farPending = false) (ho : ord ≠ 1) (hr : ¬s.released) :
    s.Retires (.fence ord scope) ([], .wait .drain) := by
  refine (exec_fence ord scope s).trans (issue_retires hw.1 (chkA_passes_of_budget (ss := []) (by simp)).fault ?_)
  rw [if_neg (by simp [seen_farPending hw, hf]), if_neg ho, if_pos (s.unreleased_iff.mpr hr)]

section released
variable {ord scope : Nat} (ho : ord ≠ 1) (hr : s.released)
include ho hr

/-- The write side, where the warp's stores can become visible. -/
theorem fence_releases : s.Retires (.fence ord scope)
    (if 5 ≤ scope && !s.seen.acksIn then s.seen.awaitAcks else (drainAll s.ticked s.cur, .next)) := by
  refine (exec_fence ord scope s).trans (issue_retires hw.1 (chkA_passes_of_budget (ss := []) (by simp)).fault ?_)
  rw [if_neg (by simp [hr.farPending]), if_neg ho, if_neg (mt s.unreleased_iff.mp (not_not.mpr hr))]
  split <;> rfl

theorem fence_completes (h : scope < 5 ∨ s.Answered w) :
    s.Retires (.fence ord scope) (drainAll s.ticked s.cur, .next) := by
  have hret := fence_releases hw (scope := scope) ho hr
  rwa [if_neg fun hc => have ⟨h5, hna⟩ := (seen_awaits_iff hw scope).mp hc; h.elim (Nat.not_lt.mpr h5) hna] at hret

theorem fence_awaitsAcks (h5 : 5 ≤ scope) (hna : ¬s.Answered w) : s.Retires (.fence ord scope) s.seen.awaitAcks := by
  have hret := fence_releases hw (scope := scope) ho hr
  rwa [if_pos ((seen_awaits_iff hw scope).mpr ⟨h5, hna⟩)] at hret

end released

/-! WAITC (R224, R254). -/

/-- The counter of a class is the number of its operations outstanding. -/
theorem seen_counter (cls : Nat) : s.seen.c.counter cls = (w.ctl.outs.filter fun o => o.cls == cls).length := by
  rw [seen_c hw.1]
  rfl

theorem waitc_givesFlow (cls n : Nat) : s.GivesFlow (.waitc cls n)
    (if s.seen.c.counter cls ≤ n then .next else .wait (.waitc cls n)) :=
  givesFlow_of_issue (ss := []) hw (by simp) (exec_waitc cls n s) (by split <;> rfl) rfl

theorem waitc_completes {cls n : Nat} (h : (w.ctl.outs.filter fun o => o.cls == cls).length ≤ n) :
    s.GivesFlow (.waitc cls n) .next := by
  have hflow := waitc_givesFlow hw cls n
  rwa [seen_counter hw, if_pos h] at hflow

theorem waitc_waits {cls n : Nat} (h : n < (w.ctl.outs.filter fun o => o.cls == cls).length) :
    s.GivesFlow (.waitc cls n) (.wait (.waitc cls n)) := by
  have hflow := waitc_givesFlow hw cls n
  rwa [seen_counter hw, if_neg (Nat.not_le.mpr h)] at hflow

end words

/-- Settles O26: the read side of a fence, then its write side, and WAITC by its counter. -/
theorem fenceAndWaitc : Obligations.FenceAndWaitc :=
  fun _ _ _ _ _ _ hw => ⟨fence_awaitsReplies hw, fence_acquires hw, fence_stalls hw,
    fun ho hr => ⟨fence_completes hw ho hr, fence_awaitsAcks hw ho hr⟩, waitc_completes hw, waitc_waits hw⟩

end Sys2Proof.Machine
end

section
/-! Barriers (O24, O25): what an arrival leaves of a barrier word, and what BAR, BARA, ABINIT, ABARR and ABWAIT do by the checks
of their offset and by the word or object that stands there (10 R217, R247 to R251). -/
namespace Sys2Proof.Machine

theorem exec_bar (a : SOp) (s : State) : exec (.bar a) s = arrive true a s := rfl
theorem exec_bara (a : SOp) (s : State) : exec (.bara a) s = arrive false a s := rfl
theorem exec_abinit (a b : SOp) (s : State) : exec (.abinit a b) s = execAbinit a b s := rfl
theorem exec_abarr (d : Nat) (a b : SOp) (s : State) : exec (.abarr d a b) s = execAbarr d a b s := rfl
theorem exec_abwait (a b : SOp) (s : State) : exec (.abwait a b) s = execAbwait a b s := rfl

/-- The size of the block's shared memory reads the same once the marks of the issuing slices clear. -/
theorem seen_shblk {s : State} {w : Warp} (hw : find s.warps s.cur = some w) :
    s.seen.blk.img.shblk = (s.blk (blockOf s.cur)).img.shblk := congrArg (fun x : Block => x.img.shblk) (seen_blk hw)

/-- A word whose checks pass and whose meaning is a release. -/
theorem releases_of_issue {s : State} {w : Warp} {i : Instr} {chk : Issue → Chk}
    {body : Issue → Except Trap (List Effect × Flow)} {rest : List (State → List Effect)} {f : Flow} (hw : s.Issuing w)
    (hi : exec i s = issue chk body s) (hc : (chk (s.at w)).Passes (s.at w))
    (hb : body s.seen = .ok (s.seen.release rest f)) : s.Releases i rest f := fun hrel =>
  hi.trans (issue_retires hw.1 hc.fault (hb.trans (congrArg Except.ok (release_of_released hrel rest f))))

/-! Barrier words (R247). -/

/-- R247: the form of a barrier word: its reserved fields are zero, it expects 1 to 36 arrivals, and fewer have come. -/
def barrierForm (v : Nat) : Prop :=
  v / 2 ^ 22 % 512 = 0 ∧ v / 2 ^ 6 % 1024 = 0 ∧ 1 ≤ v / 2 ^ 16 % 64 ∧ v / 2 ^ 16 % 64 ≤ 36 ∧ v % 64 < v / 2 ^ 16 % 64

theorem barBad_iff (v : Nat) : barBad v = true ↔ ¬barrierForm v := by
  simp only [barBad, barrierForm, bits, Bool.or_eq_true, bne_iff_ne, beq_iff_eq]
  norm_num
  omega

/-- The counts of a barrier word as the meaning reads them. -/
theorem barrier_counts (v : Nat) : bits v 5 0 = v % 64 ∧ bits v 21 16 = v / 2 ^ 16 % 64 := by simp [bits]

/-- The last arrival leaves no count, and the other phase. -/
theorem barArrive_last {v : Nat} (h : v % 64 + 1 = v / 2 ^ 16 % 64) :
    barArrive v = (!bit v 31).toNat * 2 ^ 31 + v / 2 ^ 16 % 64 * 2 ^ 16 := by
  obtain ⟨harrived, hexpect⟩ := barrier_counts v
  rw [barArrive, harrived, hexpect, if_pos h]
  cases bit v 31 <;> rfl

theorem barArrive_earlier {v : Nat} (h : v % 64 + 1 ≠ v / 2 ^ 16 % 64) : barArrive v = v + 1 := by
  obtain ⟨harrived, hexpect⟩ := barrier_counts v
  rw [barArrive, harrived, hexpect, if_neg h]

/-- The fields of a word that holds only a phase and an expected count. -/
theorem turned_fields (p : Bool) {e : Nat} (he : e < 64) :
    p.toNat * 2 ^ 31 + e * 2 ^ 16 < 2 ^ 32 ∧ (p.toNat * 2 ^ 31 + e * 2 ^ 16) / 2 ^ 22 % 512 = 0 ∧
    (p.toNat * 2 ^ 31 + e * 2 ^ 16) / 2 ^ 6 % 1024 = 0 ∧ (p.toNat * 2 ^ 31 + e * 2 ^ 16) / 2 ^ 16 % 64 = e ∧
    (p.toNat * 2 ^ 31 + e * 2 ^ 16) % 64 = 0 ∧ bit (p.toNat * 2 ^ 31 + e * 2 ^ 16) 31 = p := by
  have hp := p.toNat_lt
  have h22 : (p.toNat * 2 ^ 31 + e * 2 ^ 16) / 2 ^ 22 = 512 * p.toNat := by omega
  have h31 : (p.toNat * 2 ^ 31 + e * 2 ^ 16) / 2 ^ 31 % 2 = p.toNat := by omega
  refine ⟨by omega, by omega, by omega, by omega, by omega, ?_⟩
  rw [bit, h31]
  cases p <;> rfl

/-- R247: what an arrival leaves of a word in the form: its reserved fields and what it expects, and at the last arrival no count
and the other phase, else one arrival more in the same phase. -/
theorem barArrive_fields {v : Nat} (hv : v < 2 ^ 32) (hhigh : v / 2 ^ 22 % 512 = 0) (hlow : v / 2 ^ 6 % 1024 = 0)
    (hlt : v % 64 < v / 2 ^ 16 % 64) :
    barArrive v < 2 ^ 32 ∧ barArrive v / 2 ^ 22 % 512 = 0 ∧ barArrive v / 2 ^ 6 % 1024 = 0 ∧
    barArrive v / 2 ^ 16 % 64 = v / 2 ^ 16 % 64 ∧
    (v % 64 + 1 = v / 2 ^ 16 % 64 → barArrive v % 64 = 0 ∧ bit (barArrive v) 31 = !bit v 31) ∧
    (v % 64 + 1 ≠ v / 2 ^ 16 % 64 → barArrive v % 64 = v % 64 + 1 ∧ bit (barArrive v) 31 = bit v 31) := by
  by_cases h : v % 64 + 1 = v / 2 ^ 16 % 64
  · rw [barArrive_last h]
    obtain ⟨hbound, h22, h6, h16, h0, h31⟩ := turned_fields (!bit v 31) (Nat.mod_lt (v / 2 ^ 16) (by decide : 0 < 64))
    exact ⟨hbound, h22, h6, h16, fun _ => ⟨h0, h31⟩, fun hne => absurd h hne⟩
  · rw [barArrive_earlier h]
    have h31 : (v + 1) / 2 ^ 31 % 2 = v / 2 ^ 31 % 2 := by omega
    exact ⟨by omega, by omega, by omega, by omega, fun he => absurd he h, fun _ => ⟨by omega, by rw [bit, bit, h31]⟩⟩

/-- Whether BAR and BARA are refused for the warp's own state, as the meaning tests it. -/
theorem seen_partial_iff {s : State} {w : Warp} (hw : s.Issuing w) :
    (s.seen.c.parted || s.seen.m 0 != s.seen.m 14) = true ↔ w.ctl.parted = true ∨ (s.at w).m 0 ≠ (s.at w).m 14 := by
  have hpart : s.seen.c.parted = w.ctl.parted := by rw [seen_c hw.1]; rfl
  simp [hpart, seen_m hw.1]

section arrival
variable {s : State} {w : Warp} {i : Instr} {waits : Bool} {a : SOp} (hw : s.Issuing w)
  (hh : w.ctl.helper = none) (hs : ∀ n ∈ opRegs a, n < w.ctl.sbudget) (hi : exec i s = arrive waits a s)
include hw hh hs hi

theorem arrive_traps_partial (h : w.ctl.parted = true ∨ (s.at w).m 0 ≠ (s.at w).m 14) :
    s.Traps w i true { code := 0x0B, addr := apertureAddr (blockOf s.cur) ((s.at w).op a).toNat } := by
  refine hi.trans (issue_traps hw.1 (chkOfWarp_passes (s := s) hh hs).fault ?_)
  dsimp only
  rw [if_pos ((seen_partial_iff hw).mpr h), seen_op hw.1]
  rfl

variable (hg : ¬(w.ctl.parted = true ∨ (s.at w).m 0 ≠ (s.at w).m 14))
include hg

theorem arrive_traps_misaligned (h : ((s.at w).op a).toNat % 4 ≠ 0) :
    s.Traps w i true { code := 0x06, addr := apertureAddr (blockOf s.cur) ((s.at w).op a).toNat } := by
  refine hi.trans (issue_traps hw.1 (chkOfWarp_passes (s := s) hh hs).fault ?_)
  dsimp only
  rw [if_neg (mt (seen_partial_iff hw).mp hg), seen_op hw.1, if_pos h]
  rfl

variable (h4 : ((s.at w).op a).toNat % 4 = 0)
include h4

theorem arrive_traps_beyond (h : (s.blk (blockOf s.cur)).img.shblk < ((s.at w).op a).toNat + 4) :
    s.Traps w i true { code := 0x09, addr := apertureAddr (blockOf s.cur) ((s.at w).op a).toNat } := by
  refine hi.trans (issue_traps hw.1 (chkOfWarp_passes (s := s) hh hs).fault ?_)
  dsimp only
  rw [if_neg (mt (seen_partial_iff hw).mp hg), seen_op hw.1, if_neg (not_not.mpr h4), seen_shblk hw.1, if_pos h]
  rfl

variable (hin : ((s.at w).op a).toNat + 4 ≤ (s.blk (blockOf s.cur)).img.shblk) {v : Nat}
  (hv : ofBytes (s.ticked.readPlace s.cur { sp := .shared (blockOf s.cur), off := ((s.at w).op a).toNat } 4) = v)
include hin hv

theorem arrive_traps_malformed (h : ¬barrierForm v) :
    s.Traps w i true { code := 0x0C, addr := apertureAddr (blockOf s.cur) ((s.at w).op a).toNat } := by
  refine hi.trans (issue_traps hw.1 (chkOfWarp_passes (s := s) hh hs).fault ?_)
  dsimp only
  rw [if_neg (mt (seen_partial_iff hw).mp hg), seen_op hw.1, if_neg (not_not.mpr h4), seen_shblk hw.1,
    if_neg (Nat.not_lt.mpr hin)]
  subst hv
  exact if_pos ((barBad_iff _).mpr h)

/-- R217: an arrival releases, then writes the word after it; only BAR waits, where it was not the last. -/
theorem arrive_releases (h : barrierForm v) : s.Releases i
    [fun s' => [.store (.shared (blockOf s.cur)) ((s.at w).op a).toNat
      (leBytes 4 (barArrive (shWord (s'.sh (blockOf s.cur)) ((s.at w).op a).toNat))) (some (s.cur, lowest 8 s.slices))]]
    (if waits && !(v % 64 + 1 == v / 2 ^ 16 % 64) then .wait (.bar ((s.at w).op a).toNat (bit v 31) false) else .next) := by
  refine releases_of_issue hw hi (chkOfWarp_passes (s := s) hh hs) ?_
  obtain ⟨harrived, hexpect⟩ := barrier_counts v
  dsimp only
  rw [if_neg (mt (seen_partial_iff hw).mp hg), seen_op hw.1, if_neg (not_not.mpr h4), seen_shblk hw.1,
    if_neg (Nat.not_lt.mpr hin), ← harrived, ← hexpect]
  subst hv
  exact if_neg (mt (barBad_iff _).mp (not_not.mpr h))

end arrival

/-- BAR goes on where its arrival was the last. -/
theorem bar_flow (m n : Nat) (f : Flow) : (if true && !(m == n) then f else .next) = if m = n then .next else f := by
  by_cases h : m = n <;> simp [h]

/-- Settles O24: BAR and BARA by the checks of an arrival and what it does, then the fields that an arrival leaves. -/
theorem barrierWordsCountArrivals : Obligations.BarrierWordsCountArrivals := by
  refine ⟨?_, fun v hv h22 h6 _ hlt => barArrive_fields hv h22 h6 hlt⟩
  intro s w a hw hh hs off b at_ v expect arrived good write
  have hbar := exec_bar a s
  have hbara := exec_bara a s
  refine ⟨fun h => ⟨arrive_traps_partial hw hh hs hbar h, arrive_traps_partial hw hh hs hbara h⟩, fun hp hm => ?_⟩
  have hg : ¬(w.ctl.parted = true ∨ (s.at w).m 0 ≠ (s.at w).m 14) := by simp [hp, hm]
  refine ⟨fun h => ⟨arrive_traps_misaligned hw hh hs hbar hg h, arrive_traps_misaligned hw hh hs hbara hg h⟩,
    fun h4 h => ⟨arrive_traps_beyond hw hh hs hbar hg h4 h, arrive_traps_beyond hw hh hs hbara hg h4 h⟩,
    fun h4 hin => ⟨fun h => ⟨arrive_traps_malformed hw hh hs hbar hg h4 hin rfl h,
      arrive_traps_malformed hw hh hs hbara hg h4 hin rfl h⟩,
    fun h => ⟨arrive_releases hw hh hs hbara hg h4 hin rfl h, ?_⟩⟩⟩
  have hrel := arrive_releases hw hh hs hbar hg h4 hin rfl h
  rwa [bar_flow] at hrel

/-! Asynchronous barriers (R249 to R251). -/

/-- R249, R251: the form of an asynchronous barrier: its reserved fields are zero, and 1 to EXPECT arrivals are pending. -/
def asyncForm (x : Nat) : Prop :=
  x / 2 ^ 48 % 2 ^ 15 = 0 ∧ x / 2 ^ 16 % 2 ^ 16 = 0 ∧ 1 ≤ x % 2 ^ 16 ∧ x % 2 ^ 16 ≤ x / 2 ^ 32 % 2 ^ 16

/-- The counts of an asynchronous barrier as the meaning reads them. -/
theorem async_counts (x : Nat) : abPending x = x % 2 ^ 16 ∧ abExpect x = x / 2 ^ 32 % 2 ^ 16 := by
  simp [abPending, abExpect, bits]

theorem abBad_iff (x : Nat) : abBad x = true ↔ ¬asyncForm x := by
  obtain ⟨hpending, hexpect⟩ := async_counts x
  simp only [abBad, asyncForm, hpending, hexpect, bits, Bool.or_eq_true, decide_eq_true_eq, bne_iff_ne, beq_iff_eq]
  norm_num
  omega

section async
variable {s : State} {w : Warp} {d : Nat} {a b : SOp} (hw : s.Issuing w) (h8 : ((s.at w).op a).toNat % 8 = 0)
  (hin : ((s.at w).op a).toNat + 8 ≤ (s.blk (blockOf s.cur)).img.shblk) {x : Nat}
  (hx : ofBytes (s.ticked.readPlace s.cur { sp := .shared (blockOf s.cur), off := ((s.at w).op a).toNat } 8) = x)
include hw h8 hin hx

/-- R250: an aligned offset inside the block's shared memory names the object that stands there. -/
theorem seen_abObject : s.seen.abObject ((s.at w).op a).toNat = .ok x := by
  rw [Issue.abObject, if_neg (not_not.mpr h8), seen_shblk hw.1, if_neg (Nat.not_lt.mpr hin)]
  exact congrArg Except.ok hx

section counted
variable (hs : ∀ n ∈ opRegs a ++ opRegs b, n < w.ctl.sbudget)
include hs

theorem abinit_releases (h1 : 1 ≤ ((s.at w).op b).toNat) (h2 : ((s.at w).op b).toNat ≤ 65535) :
    s.Releases (.abinit a b)
      [s.seen.abWrite ((s.at w).op a).toNat (((s.at w).op b).toNat * 2 ^ 32 + ((s.at w).op b).toNat)] .next := by
  refine releases_of_issue hw (exec_abinit a b s) (chkA_passes_of_budget hs) ?_
  dsimp only
  rw [seen_op hw.1, seen_op hw.1, seen_abObject hw h8 hin hx]
  exact if_neg (by simp; omega)

theorem abinit_traps (h : ¬(1 ≤ ((s.at w).op b).toNat ∧ ((s.at w).op b).toNat ≤ 65535)) :
    s.Traps w (.abinit a b) true { code := 0x0C, addr := apertureAddr (blockOf s.cur) ((s.at w).op a).toNat } := by
  refine (exec_abinit a b s).trans (issue_traps hw.1 (chkA_passes_of_budget hs).fault ?_)
  dsimp only
  rw [seen_op hw.1, seen_op hw.1, seen_abObject hw h8 hin hx]
  exact if_pos (by simp; omega)

theorem abwait_givesFlow (hh : w.ctl.helper = none) (h : asyncForm x) : s.GivesFlow (.abwait a b)
    (if bit x 63 ≠ bit ((s.at w).op b).toNat 0 then .next
      else .wait (.abar ((s.at w).op a).toNat (bit ((s.at w).op b).toNat 0) false)) := by
  refine givesFlow_of_passes hw (exec_abwait a b s) (chkOfWarp_passes (s := s) hh hs) (by split <;> rfl) ?_
  dsimp only
  rw [seen_op hw.1, seen_op hw.1, seen_abObject hw h8 hin hx]
  dsimp only
  rw [if_neg (mt (abBad_iff x).mp (not_not.mpr h))]
  simp only [bne_iff_ne]

end counted

section arriving
variable (hs : ∀ n ∈ d :: opRegs a ++ opRegs b, n < w.ctl.sbudget)
include hs

theorem abarr_releases (h : asyncForm x) (h1 : 1 ≤ ((s.at w).op b).toNat) (h2 : ((s.at w).op b).toNat ≤ x % 2 ^ 16) :
    s.Releases (.abarr d a b) [s.seen.abWrite ((s.at w).op a).toNat (abArrive x ((s.at w).op b).toNat),
      fun _ => [.sreg s.cur d (if bit x 63 then 1 else 0)]] .next := by
  refine releases_of_issue hw (exec_abarr d a b s) (chkA_passes_of_budget hs) ?_
  dsimp only
  rw [seen_op hw.1, seen_op hw.1, seen_abObject hw h8 hin hx]
  have hgood := mt (abBad_iff x).mp (not_not.mpr h)
  exact if_neg (by simp [hgood, (async_counts x).1]; omega)

theorem abarr_traps (h : ¬(asyncForm x ∧ 1 ≤ ((s.at w).op b).toNat ∧ ((s.at w).op b).toNat ≤ x % 2 ^ 16)) :
    s.Traps w (.abarr d a b) true { code := 0x0C, addr := apertureAddr (blockOf s.cur) ((s.at w).op a).toNat } := by
  refine (exec_abarr d a b s).trans (issue_traps hw.1 (chkA_passes_of_budget hs).fault ?_)
  dsimp only
  rw [seen_op hw.1, seen_op hw.1, seen_abObject hw h8 hin hx]
  refine if_pos ?_
  rw [Bool.or_eq_true, Bool.or_eq_true, abBad_iff, (async_counts x).1]
  simp only [decide_eq_true_eq]
  by_contra hc
  push Not at hc
  obtain ⟨⟨hform, h0⟩, hn⟩ := hc
  exact h ⟨hform, Nat.one_le_iff_ne_zero.mpr h0, hn⟩

end arriving
end async

/-- Settles O25: each word by the object at its offset. -/
theorem asynchronousBarrierWords : Obligations.AsynchronousBarrierWords := by
  intro s w d a b hw hs off n k h8 hin x pending expect phase write good
  have hab : ∀ n ∈ opRegs a ++ opRegs b, n < w.ctl.sbudget := fun n hn => hs n (List.mem_cons_of_mem _ hn)
  refine ⟨abinit_releases hw h8 hin rfl hab, abinit_traps hw h8 hin rfl hab, fun h h1 h2 => ?_,
    abarr_traps hw h8 hin rfl hs, fun h hh => abwait_givesFlow hw h8 hin rfl hab hh h⟩
  have hrel := abarr_releases hw h8 hin rfl hs h h1 h2
  obtain ⟨hpending, hexpect⟩ := async_counts x
  rwa [abArrive, hpending, hexpect] at hrel

end Sys2Proof.Machine
end

section
/-! Traps (O51): what a warp is at the entry of its handler, the trap that a bad handler gives, kernel faults, and what the end
of a domain removes (10 R258; 13 R322; 16 R376, R388, R391, R395). -/
namespace Sys2Proof.Machine

theorem exec_handlerEntry (k : Nat) (s : State) : exec (.handlerEntry k) s = execHandlerEntry k s := rfl
theorem exec_kernelFault (k : Nat) (s : State) : exec (.kernelFault k) s = execKernelFault k s := rfl

/-! The write of the trap record leaves the warp where it stands. -/

/-- Between two keyed lists every context differs at most in its slices, and each slice stands where it stood. -/
def SamePositions (l m : List (Nat × Warp)) : Prop := ∀ k w, find l k = some w →
  ∃ xs, find m k = some { w with ctl := { w.ctl with slices := xs } } ∧
    ∀ j, (Ctl.slice { w.ctl with slices := xs } j).position = (w.ctl.slice j).position

theorem SamePositions.refl (l : List (Nat × Warp)) : SamePositions l l := fun _ w h => ⟨w.ctl.slices, h, fun _ => rfl⟩

theorem SamePositions.trans {l m n : List (Nat × Warp)} (h : SamePositions l m) (g : SamePositions m n) :
    SamePositions l n := fun k w hw => by
  obtain ⟨xs, hx, hpos⟩ := h k w hw
  obtain ⟨ys, hy, hpos'⟩ := g k _ hx
  exact ⟨ys, hy, fun j => (hpos' j).trans (hpos j)⟩

theorem SamePositions.mapSlices (l : List (Nat × Warp)) (p : Nat → Bool) {f : Nat → Nat → Slice → Slice}
    (hf : ∀ k j x, (f k j x).position = x.position) : SamePositions l (mapSlices p f l) := by
  intro k w hw
  refine ⟨if p k then w.ctl.slices.mapIdx (f k) else w.ctl.slices, ?_, fun j => ?_⟩
  · induction l with
    | nil => simp [find] at hw
    | cons q t ih =>
      obtain ⟨a, v⟩ := q
      simp only [Machine.mapSlices, List.map_cons] at ih ⊢
      by_cases e : a = k
      · subst e
        obtain rfl : v = w := by simpa [find] using hw
        by_cases h : p a = true <;> simp [h, find]
      · have ht : find t k = some w := by simpa [find, e] using hw
        split <;> simpa [find, e] using ih ht
  · split
    · simp only [Ctl.slice, List.getD_eq_getElem?_getD, List.getElem?_mapIdx]
      cases w.ctl.slices[j]? with
      | none => rfl
      | some x => exact hf k j x
    · rfl

theorem Slice.written_position (sp : Space) (off n : Nat) (who : Option (Nat × Nat)) (k j : Nat) (x : Slice) :
    (x.written sp off n who k j).position = x.position := by
  unfold Slice.written
  repeat' split
  all_goals rfl

theorem Slice.resolved_position (m : Memory) (off n : Nat) (x : Slice) : (x.resolved m off n).position = x.position := by
  unfold Slice.resolved
  repeat' split
  all_goals rfl

theorem samePositions_applyWrite (off : Nat) (bytes : List Byte) (epoch : Nat) (who : Option (Nat × Nat)) (s : State) :
    SamePositions s.warps (applyWrite off bytes epoch who s).warps := by
  have hcopied : (s.copied off epoch).warps = s.warps := by
    unfold State.copied
    split <;> rfl
  unfold applyWrite
  dsimp only
  split
  · exact hcopied ▸ .refl _
  · dsimp only [applyStore]
    rw [hcopied]
    exact (SamePositions.mapSlices _ _ fun k j => Slice.written_position _ _ _ _ k j).trans
      (SamePositions.mapSlices _ _ fun _ _ => Slice.resolved_position _ _ _)

theorem samePositions_byWalker {es : List Effect} (h : ∀ e ∈ es, e.byWalker) (s : State) :
    SamePositions s.warps (applyAll es s).warps := by
  induction es generalizing s with
  | nil => exact .refl _
  | cons e t ih =>
    refine SamePositions.trans ?_ (ih (fun x hx => h x (List.mem_cons_of_mem _ hx)) (apply e s))
    have he := h e (List.mem_cons_self ..)
    cases e with
    | write off bytes epoch who => exact samePositions_applyWrite off bytes epoch who s
    | tlbAdd t => exact .refl _
    | _ => exact he.elim

/-- R390: a device write in a context is a write of memory, and what the walker does for it. -/
theorem deviceWrite_byWalker {s : State} {ctx va epoch who : Nat} {bytes : List Byte} :
    ∀ e ∈ deviceWrite s ctx va bytes epoch who, e.byWalker := by
  have hdevice : ∀ pa es, s.device 30 ctx va true who = some (pa, es) → ∀ e ∈ es, e.byWalker := by
    intro pa es h
    unfold State.device at h
    split at h
    · split at h
      · split at h
        · rename_i hv _
          simp only [Option.some.injEq, Prod.mk.injEq] at h
          exact h.2 ▸ virt_byWalker hv
        · simp at h
      · simp at h
    · simp at h
  intro e he
  unfold deviceWrite at he
  split at he
  · simp at he
  · rename_i h
    simp only [chain, State.physWrite, List.append_nil, List.mem_append, List.mem_singleton] at he
    rcases he with he | rfl
    · exact hdevice _ _ h e he
    · trivial

/-- A write of memory changes no block and no context's registers. -/
theorem Effect.byWalker.misses {e : Effect} (h : e.byWalker) (b : Nat) : ¬e.hits (.block b) ∧ ¬e.hits (.ctx b) := by
  cases e with
  | write off bytes epoch who => simp [Effect.hits]
  | tlbAdd t => exact ⟨id, id⟩
  | _ => exact h.elim

/-! Handler entry (R391). -/

/-- A slice that enters a handler at an address. -/
def Slice.entered (va : DWord) (y : Slice) : Slice :=
  { y with pc := va, inClause := false, idx := 0, h0 := 0, resv := none, wait := none, regang := none, hregang := y.regang
           words := if y.hwait.isSome then y.words else [] }

/-- A control state whose slices enter the handler of a trap. -/
def Ctl.entered (c : Ctl) (va : DWord) (t : Trap) : Ctl :=
  { c.onSlices t.slices (Slice.entered va) with
    priv := true, tret := tretOf (resumeAt c t), hslices := t.slices, handler := some t.code, trap := none }

theorem Ctl.entered_slice {c : Ctl} {va : DWord} {t : Trap} {j : Nat} {x : Slice} (h : (c.entered va t).slices[j]? = some x)
    (hj : bit t.slices j = true) : ∃ y, x = Slice.entered va y := by
  simp only [Ctl.entered, Ctl.onSlices_slices, List.getElem?_mapIdx, hj, if_true, Option.map_eq_some_iff] at h
  obtain ⟨y, -, rfl⟩ := h
  exact ⟨y, rfl⟩

/-- The supervisor copies that the handler of a warp finds written. -/
def entryRegs (k frame : Nat) (t : Trap) : List Effect :=
  [.sreg k 144 (word frame), .sreg k 145 (word (frame / 2 ^ 32)), .sreg k 146 (word t.code), .sreg k 147 (word t.aux),
    .mask k 0 (word (t.hm0 &&& lanesOf t.slices))]

theorem enterHandler_of_warp {s : State} {k : Nat} {t : Trap} (h : (s.ctl k).helper = none) :
    enterHandler s k t = chain s [
      fun s' => deviceWrite s' (s.blk (blockOf k)).ctx (s.frameVa k) (leBytes 576 (trapRecord s' k t)) (s'.epochOf k),
      fun s' => [.ctl k ((s'.ctl k).entered (s'.handlerVa k) t)], fun _ => entryRegs k (s.frameVa k) t] := by
  unfold enterHandler
  dsimp only
  rw [h]
  rfl

/-- Where a trap resumes depends only on where its slices stand. -/
theorem resumeAt_congr {c d : Ctl} (h : ∀ j, (c.slice j).position = (d.slice j).position) (t : Trap) :
    resumeAt c t = resumeAt d t := by
  have hpos := h (lowest 8 t.slices)
  simp only [Slice.position, Prod.mk.injEq] at hpos
  obtain ⟨hpc, hin, -, hwords⟩ := hpos
  simp only [resumeAt, Slice.nextClause, hpc, hin, hwords]

/-- The warp after its slices have entered the handler: where the record's write has left its slices xs. -/
theorem warp_enterHandler {s : State} {k : Nat} {w : Warp} {t : Trap} (hw : find s.warps k = some w)
    (hh : w.ctl.helper = none) : ∃ xs, (∀ j, (Ctl.slice { w.ctl with slices := xs } j).position = (w.ctl.slice j).position) ∧
      (applyAll (enterHandler s k t) s).warp k = regsAll (entryRegs k (s.frameVa k) t)
        { w with ctl := Ctl.entered { w.ctl with slices := xs } (s.ctxOf (s.blk (blockOf k)).ctx).tvec t } := by
  have hctl : s.ctl k = w.ctl := State.ctl_of_find hw
  rw [enterHandler_of_warp (hctl ▸ hh), applyAll_chain, applyAll_chain, applyAll_chain, chain, applyAll_nil]
  have hwalk := deviceWrite_byWalker (s := s) (ctx := (s.blk (blockOf k)).ctx) (va := s.frameVa k) (epoch := s.epochOf k)
    (who := 192) (bytes := leBytes 576 (trapRecord s k t))
  generalize deviceWrite s (s.blk (blockOf k)).ctx (s.frameVa k) (leBytes 576 (trapRecord s k t)) (s.epochOf k) = es at hwalk ⊢
  obtain ⟨xs, hx, hpos⟩ := samePositions_byWalker hwalk s k w hw
  have hblock : find (applyAll es s).blocks (blockOf k) = find s.blocks (blockOf k) :=
    applyAll_same (x := .block (blockOf k)) fun e he => ((hwalk e he).misses _).1
  have hctx : (applyAll es s).ctxOf (s.blk (blockOf k)).ctx = s.ctxOf (s.blk (blockOf k)).ctx :=
    applyAll_same (x := .ctx (s.blk (blockOf k)).ctx) fun e he => ((hwalk e he).misses _).2
  have hva : (applyAll es s).handlerVa k = (s.ctxOf (s.blk (blockOf k)).ctx).tvec := by
    have hblk : (applyAll es s).blk (blockOf k) = s.blk (blockOf k) := by rw [State.blk, hblock]; rfl
    simp only [State.handlerVa, State.ctl_of_find hx, hh, hblk, hctx]
    rfl
  refine ⟨xs, hpos, ?_⟩
  rw [applyAll_cons, applyAll_nil, apply_ctl, State.onWarp_some _ hx, State.ctl_of_find hx, hva]
  have hregs : ∀ e ∈ entryRegs k (s.frameVa k) t, e.isReg k := by simp [entryRegs, Effect.isReg]
  rw [applyAll_regs hregs]
  simp [State.warp]

/-- The writes of a supervisor's own copies leave the user copies. -/
theorem Warp.writeS_banked {w : Warp} {n : Nat} (x : Word) (hp : w.ctl.priv = true) (hb : banked w.ctl n = true) :
    (w.writeS n x).s = w.s := by
  unfold Warp.writeS Warp.writeSOf
  rw [hp, hb]
  split <;> rfl

theorem Warp.writeM_zero_priv {w : Warp} (x : Word) (hp : w.ctl.priv = true) : (w.writeM 0 x).m = w.m := by
  simp [Warp.writeM, hp]

/-- What the entry leaves of the registers, and what it puts in the supervisor copies. -/
theorem regsAll_entryRegs {w : Warp} {k frame : Nat} {t : Trap} (hw : w.Ok) (hp : w.ctl.priv = true)
    (hh : w.ctl.helper = none) :
    let v := regsAll (entryRegs k frame t) w
    v.readS 144 = word frame ∧ v.readS 145 = word (frame / 2 ^ 32) ∧ v.readS 146 = word t.code ∧
    v.readS 147 = word t.aux ∧ v.readM 0 = word (t.hm0 &&& lanesOf t.slices) ∧
    v.s = w.s ∧ v.m = w.m ∧ v.v = w.v ∧ v.lfsr = w.lfsr := by
  have hmask : maskBits w.ctl = BitVec.allOnes 32 := by simp [maskBits, hh]
  have hbank : ∀ n, 144 ≤ n → n < 160 → banked w.ctl n = true := fun n h1 h2 => by simp [banked, hh, h1, h2]
  refine ⟨?_, ?_, ?_, ?_, ?_, ?_, ?_, ?_, ?_⟩
  · exact regsAll_readS hw (by decide) ⟨k, by simp [entryRegs]⟩ (by simp [entryRegs])
  · exact regsAll_readS hw (by decide) ⟨k, by simp [entryRegs]⟩ (by simp [entryRegs])
  · exact regsAll_readS hw (by decide) ⟨k, by simp [entryRegs]⟩ (by simp [entryRegs])
  · exact regsAll_readS hw (by decide) ⟨k, by simp [entryRegs]⟩ (by simp [entryRegs])
  · rw [regsAll_readM (x := word (t.hm0 &&& lanesOf t.slices)) hw (by decide) ⟨k, by simp [entryRegs]⟩ (by simp [entryRegs]),
      hmask, BitVec.and_allOnes]
  · simp [entryRegs, regsAll, Effect.regs, Warp.writeS_banked, hp, hbank]
  · simp [entryRegs, regsAll, Effect.regs, Warp.writeM_zero_priv, hp]
  · simp [entryRegs, regsAll, Effect.regs]
  · simp [entryRegs, regsAll, Effect.regs]

/-- R391: the trap of a warp whose entering slices are quiet is taken in its handler. -/
theorem handlerEntry_commits {s : State} {k : Nat} {t : Trap} (ht : (s.ctl k).trap = some t) (hk : s.takesHandler k t = true)
    (hq : (s.ctl k).quiet t.slices = true) (hf : s.frozenAt k = false) : s.Commits (.handlerEntry k)
      (if s.handlerBad k then if (s.ctl k).helper.isSome then chain s [fun s => [.ctl k { s.ctl k with trap := none }],
          fun s => raise s k (entryTrap s k t)]
        else [.ctl k { s.ctl k with trap := some (entryTrap s k t) }]
      else enterHandler s k t) := by
  rw [State.Commits, exec_handlerEntry, execHandlerEntry, ht]
  dsimp only
  rw [if_neg (by simp [hk, hq, hf])]
  split <;> rfl

/-! Kernel faults (R395). -/

theorem kernelFault_commits {s : State} {k : Nat} {t : Trap} (ht : (s.ctl k).trap = some t)
    (hk : s.takesHandler k t = false) : s.Commits (.kernelFault k) (kernelFault s k t) := by
  rw [State.Commits, exec_kernelFault, execKernelFault, ht]
  exact if_neg (by simp [hk])

/-! The end of a domain (R395). -/

/-- The effects of a domain's end that change neither the blocks nor the warps. -/
def Effect.apart : Effect → Prop
  | .fab _ | .colls _ | .cmbReqs _ | .copies _ | .mats _ | .snap _ | .core _ _ | .mgmt _ | .cmbs _ | .dist _ => True
  | _ => False

theorem applyAll_apart {es : List Effect} (h : ∀ e ∈ es, e.apart) (s : State) :
    (applyAll es s).blocks = s.blocks ∧ (applyAll es s).warps = s.warps := by
  induction es generalizing s with
  | nil => exact ⟨rfl, rfl⟩
  | cons e t ih =>
    obtain ⟨hb, hw⟩ := ih (fun x hx => h x (List.mem_cons_of_mem _ hx)) (apply e s)
    have he := h e (List.mem_cons_self ..)
    have hstep : (apply e s).blocks = s.blocks ∧ (apply e s).warps = s.warps := by
      cases e with
      | fab | colls | cmbReqs | copies | mats | snap | core | mgmt | cmbs | dist => exact ⟨rfl, rfl⟩
      | _ => exact he.elim
    exact ⟨hb.trans hstep.1, hw.trans hstep.2⟩

/-- A keyed list read at a key that a filter drops. -/
theorem find_filter_dropped {α : Type} {l : List (Nat × α)} {p : Nat × α → Bool} {k : Nat} (h : ∀ v, p (k, v) = false) :
    find (l.filter p) k = none := by
  induction l with
  | nil => rfl
  | cons q t ih =>
    obtain ⟨a, v⟩ := q
    rw [List.filter_cons]
    by_cases e : a = k
    · subst e
      simpa [h] using ih
    · split <;> simp [find, e, ih]

/-- Blocks that are removed, and exactly their warps, are gone. -/
theorem applyAll_delBlocks (bs : List Nat) (s : State) :
    (∀ b, find (applyAll (bs.map Effect.delBlock) s).blocks b = if b ∈ bs then none else find s.blocks b) ∧
    ∀ k, find (applyAll (bs.map Effect.delBlock) s).warps k = if blockOf k ∈ bs then none else find s.warps k := by
  induction bs generalizing s with
  | nil => exact ⟨fun b => by simp [applyAll_nil], fun k => by simp [applyAll_nil]⟩
  | cons a t ih =>
    obtain ⟨hblocks, hwarps⟩ := ih (apply (.delBlock a) s)
    have hblock : ∀ b, find (apply (.delBlock a) s).blocks b = if b = a then none else find s.blocks b := by
      intro b
      split
      · exact find_filter_dropped fun _ => by simp [*]
      · exact find_filter_key fun _ => by simp [*]
    have hwarp : ∀ k, find (apply (.delBlock a) s).warps k = if blockOf k = a then none else find s.warps k := by
      intro k
      split
      · exact find_filter_dropped fun _ => by simp [*]
      · exact find_filter_key fun _ => by simp [*]
    rw [List.map_cons, applyAll_cons]
    refine ⟨fun b => ?_, fun k => ?_⟩
    · rw [hblocks, hblock]
      by_cases ha : b = a <;> by_cases ht : b ∈ t <;> simp [ha, ht]
    · rw [hwarps, hwarp]
      by_cases ha : blockOf k = a <;> by_cases ht : blockOf k ∈ t <;> simp [ha, ht]

/-- The stages of one chain after those of another. -/
theorem chain_append (s : State) (fs gs : List (State → List Effect)) :
    chain s (fs ++ gs) = chain s fs ++ chain (applyAll (chain s fs) s) gs := by
  induction fs generalizing s with
  | nil => rfl
  | cons f t ih => simp [chain, ih, applyAll_append]

theorem applyAll_chain_apart {fs : List (State → List Effect)} (h : ∀ f ∈ fs, ∀ s, ∀ e ∈ f s, e.apart) (s : State) :
    (applyAll (chain s fs) s).blocks = s.blocks ∧ (applyAll (chain s fs) s).warps = s.warps := by
  induction fs generalizing s with
  | nil => exact ⟨rfl, rfl⟩
  | cons f t ih =>
    obtain ⟨hb, hw⟩ := ih (fun g hg => h g (List.mem_cons_of_mem _ hg)) (applyAll (f s) s)
    obtain ⟨hb', hw'⟩ := applyAll_apart (h f (List.mem_cons_self ..) s) s
    rw [applyAll_chain]
    exact ⟨hb.trans hb', hw.trans hw'⟩

/-- Blocks removed between stages that change neither the blocks nor the warps. -/
theorem applyAll_removal {fs pre post : List (State → List Effect)} {bs : List Nat}
    (hfs : fs = pre ++ (fun _ => bs.map Effect.delBlock) :: post) (hpre : ∀ f ∈ pre, ∀ s, ∀ e ∈ f s, e.apart)
    (hpost : ∀ f ∈ post, ∀ s, ∀ e ∈ f s, e.apart) (s : State) :
    (∀ b, find (applyAll (chain s fs) s).blocks b = if b ∈ bs then none else find s.blocks b) ∧
    ∀ k, find (applyAll (chain s fs) s).warps k = if blockOf k ∈ bs then none else find s.warps k := by
  obtain ⟨hb, hw⟩ := applyAll_chain_apart hpre s
  rw [hfs, chain_append, applyAll_append, applyAll_chain]
  generalize applyAll (chain s pre) s = u at hb hw ⊢
  obtain ⟨hb', hw'⟩ := applyAll_chain_apart hpost (applyAll (bs.map Effect.delBlock) u)
  obtain ⟨hblocks, hwarps⟩ := applyAll_delBlocks bs u
  rw [hb', hw', ← hb, ← hw]
  exact ⟨hblocks, hwarps⟩

/-- R395: with the blocks that leave the chip leave exactly their warps. -/
theorem removeBlocks_gone (bs : List Nat) (s : State) :
    (∀ b, find (applyAll (removeBlocks bs s) s).blocks b = if b ∈ bs then none else find s.blocks b) ∧
    ∀ k, find (applyAll (removeBlocks bs s) s).warps k = if blockOf k ∈ bs then none else find s.warps k := by
  unfold removeBlocks
  refine applyAll_removal (pre := [_, _, _]) (post := [_, _]) rfl ?_ ?_ s
  · simp +contextual [orphan, Effect.apart]
  · simp [settlePreq, freeContexts, Effect.apart]

/-- Settles O51: handler entry by what the warp is after it, the trap of a bad handler and a kernel fault by the branches of
their events, the end of a domain by what its removal leaves. -/
theorem trapsAreTakenOrEndTheirDomain : Obligations.TrapsAreTakenOrEndTheirDomain := by
  refine ⟨fun s k w t hw hok hh ht hk hq hf hbad => ?_, fun s k t ht hk hq hf hbad => ⟨fun hh => ?_, fun hh => ?_⟩,
    fun s k t ht hk => kernelFault_commits ht hk, fun s bs => removeBlocks_gone bs s⟩
  · have hctl : s.ctl k = w.ctl := State.ctl_of_find hw
    have hcommit := handlerEntry_commits (hctl ▸ ht) hk (hctl ▸ hq) hf
    rw [if_neg (by simp [hbad])] at hcommit
    refine ⟨hcommit, ?_⟩
    intro v ctx
    obtain ⟨xs, hpos, hv⟩ := warp_enterHandler (t := t) hw hh
    obtain ⟨c, hc⟩ : ∃ c, c = Ctl.entered { w.ctl with slices := xs } ctx.tvec t := ⟨_, rfl⟩
    have hv : v = regsAll (entryRegs k (s.frameVa k) t) { w with ctl := c } := hc ▸ hv
    obtain ⟨h144, h145, h146, h147, hm0, hs, hm, hvec, hlfsr⟩ :=
      regsAll_entryRegs (frame := s.frameVa k) (k := k) (t := t) (Warp.ctl_ok c hok) (hc ▸ rfl) (hc ▸ hh)
    have hctl : v.ctl = c := hv ▸ regsAll_ctl _ _
    rw [← hv] at h144 h145 h146 h147 hm0 hs hm hvec hlfsr
    rw [hctl, hs, hm]
    refine ⟨hc ▸ rfl, hc ▸ rfl, hc ▸ rfl, hc ▸ rfl, hc ▸ congrArg tretOf (resumeAt_congr hpos t), h144, h145, h146, h147, hm0,
      fun j x hx hj => ?_, fun _ => rfl, fun _ => rfl, fun r l => congrArg (Sparse.get · (32 * r + l)) hvec, hlfsr⟩
    obtain ⟨y, rfl⟩ := Ctl.entered_slice (hc ▸ hx) hj
    exact ⟨rfl, rfl, rfl, rfl, rfl⟩
  · have hcommit := handlerEntry_commits ht hk hq hf
    rwa [if_pos hbad, if_neg (by simp [hh])] at hcommit
  · have hcommit := handlerEntry_commits ht hk hq hf
    rwa [if_pos hbad, if_pos (Option.isSome_iff_ne_none.mpr hh)] at hcommit

end Sys2Proof.Machine
end

section
/-! Reservations (O29): what LDRSV binds and reserves, and what the slices of an STCND store and answer in turn (10 R241 to R245;
14 R356). -/
namespace Sys2Proof.Machine

theorem exec_ldrsv (d : Nat) (f : AddrForm) (s : State) : exec (.ldrsv d f) s = execLdrsv d f s := rfl
theorem exec_stcnd (d : Nat) (f : AddrForm) (s : State) : exec (.stcnd d f) s = execStcnd d f s := rfl

/-! Bytes of shared memory. -/

@[simp] theorem leBytes_length (n x : Nat) : (leBytes n x).length = n := by
  induction n generalizing x with
  | zero => rfl
  | succ n ih => simp [leBytes, ih]

/-- Bytes read as they were written. -/
theorem Sparse.bytes_setBytes {m : Sparse 8} (hm : m.wf = true) (a : Nat) (l : List Byte) :
    (m.setBytes a l).bytes a l.length = l := by
  refine List.ext_getElem (by simp [Sparse.bytes, span_eq_range']) fun i h1 h2 => ?_
  simp only [Sparse.bytes, span_eq_range', List.getElem_map, List.getElem_range', one_mul]
  rw [Sparse.get_setBytes_same l hm (by omega) (by omega)]
  simp [h2]

/-- What shared memory holds after a store of bytes to a block's. -/
theorem sh_of_stored {s t : State} {b off : Nat} {bytes : List Byte} (h : t.shared = put s.shared b ((s.sh b).setBytes off bytes))
    (hinv : s.Inv) : (t.sh b).bytes off bytes.length = bytes ∧
      ∀ a, (a < off ∨ off + bytes.length ≤ a) → (t.sh b).get a = (s.sh b).get a := by
  have hsh : t.sh b = (s.sh b).setBytes off bytes := by rw [State.sh, h, find_put_same]; rfl
  rw [hsh]
  exact ⟨Sparse.bytes_setBytes (State.sh_wf b hinv) off bytes, fun a ha => Sparse.get_setBytes_ne bytes ha⟩

/-- A store to shared memory that makes no sector whole. -/
theorem performStore_shared {q : QStore} {b : Nat} (hb : q.sp = .shared b) (hc : q.cure = []) (s : State) (k : Nat) :
    performStore s k q = [.store (.shared b) q.off q.bytes (some (k, q.sl))] := by
  rw [performStore, hb, hc]
  rfl

/-! LDRSV (R242). -/

/-- What a load that completes does besides its own effects: they come after those. -/
theorem load_after {I : Issue} {ty d : Nat} {scalar : Bool} {rows : List LaneAccess} {es out : List Effect}
    (h : I.load ty d scalar rows es (fun _ => []) = (out, .next)) (after : State → List Effect) :
    I.load ty d scalar rows es after = (out ++ after (applyAll out I.s), .next) := by
  unfold Issue.load at h ⊢
  dsimp only at h ⊢
  split at h
  · simp at h
  split at h
  · simp at h
  rename_i h1 h2
  rw [if_neg h1, if_neg h2]
  rw [chain_append] at h ⊢
  simp only [Prod.mk.injEq, and_true, chain, List.append_nil] at h ⊢
  rw [h]

theorem resvAccess_byWalker {I : Issue} {n kind l ea : Nat} {p : List (Place × Nat)} {es : List Effect}
    (h : I.resvAccess n kind l ea = .ok (p, es)) : ∀ e ∈ es, e.byWalker := by
  unfold Issue.resvAccess at h
  split at h
  · simp at h
  · rename_i hacc
    dsimp only at h
    split at h
    · simp only [Except.ok.injEq, Prod.mk.injEq] at h
      exact h.2 ▸ access_byWalker hacc
    · simp at h

/-- The accesses of the lanes of an LDRSV (kind 0) or an STCND (kind 1), each checked. -/
def Issue.resvRows (I : Issue) (ty kind : Nat) (f : AddrForm) : Except Trap (List LaneAccess × List Effect) :=
  gather I.s kind 0xF ty ((I.eas f).map fun p => (p.1, p.2, I.resvAccess (accessBytes ty) kind p.1 p.2))

theorem resvRows_byWalker {I : Issue} {ty kind : Nat} {f : AddrForm} {rows : List LaneAccess} {es : List Effect}
    (h : I.resvRows ty kind f = .ok (rows, es)) : ∀ e ∈ es, e.byWalker :=
  gather_byWalker (List.forall_mem_map.mpr fun _ _ _ _ hp => resvAccess_byWalker hp) h

/-- R410, R411: the pages of an access that no write waits for are free. -/
theorem pinRows_free (I : Issue) (rows : List LaneAccess)
    (hfree : ∀ x ∈ rows, x.place.sp = .phys → I.s.writeWaits x.place.off (I.s.epochOf I.k) = false) :
    (pinRows I rows).1 = true := by
  rw [pinRows, List.isEmpty_iff, List.filter_eq_nil_iff]
  intro x hx
  simp only [Bool.and_eq_true, beq_iff_eq, not_and, Bool.not_eq_true]
  exact hfree x hx

section words
variable {s : State} {w : Warp} {d : Nat} {f : AddrForm} (hn : 4 ≤ accessBytes (s.at w).ty)
  (h : s.Admits w { cls := .e, legal := okReg (s.at w).ty d, vs := vregs (s.at w).ty d ++ formVs f, ss := formSs f
                    dst := vregs (s.at w).ty d })
include hn h

/-- R241: a type of 4 or 8 bytes passes the check of LDRSV and STCND. -/
theorem resv_passes : ({ cls := .e, legal := decide (4 ≤ accessBytes (s.at w).ty) && okReg (s.at w).ty d
                         vs := vregs (s.at w).ty d ++ formVs f, ss := formSs f, dst := vregs (s.at w).ty d } : Chk).Passes (s.at w) :=
  h.2.relegal (by simpa [hn] using h.2.legal)

theorem ldrsv_traps {t : Trap} (hr : s.seen.resvRows (s.at w).ty 0 f = .error t) : s.Traps w (.ldrsv d f) false t := by
  refine (exec_ldrsv d f s).trans (issue_traps h.1.1 (resv_passes hn h).fault ?_)
  rw [← seen_ty h.1.1, Issue.resvRows] at hr
  rw [hr]

theorem stcnd_traps {t : Trap} (hr : s.seen.resvRows (s.at w).ty 1 f = .error t) : s.Traps w (.stcnd d f) false t := by
  refine (exec_stcnd d f s).trans (issue_traps h.1.1 (resv_passes hn h).fault ?_)
  rw [← seen_ty h.1.1, Issue.resvRows] at hr
  dsimp only
  rw [hr]

variable {rows : List LaneAccess} {es : List Effect}

theorem ldrsv_retires (hr : s.seen.resvRows (s.at w).ty 0 f = .ok (rows, es)) :
    s.Retires (.ldrsv d f) (s.seen.load (s.at w).ty d false rows es (reserve s.seen rows)) := by
  refine (exec_ldrsv d f s).trans (issue_retires h.1.1 (resv_passes hn h).fault ?_)
  rw [← seen_ty h.1.1, Issue.resvRows] at hr
  rw [hr, ← seen_ty h.1.1]

/-- R242: on this chip's unpoisoned memory LDRSV binds its bytes as LD does, then reserves. -/
theorem ldrsv_near (hr : s.seen.resvRows (s.at w).ty 0 f = .ok (rows, es))
    (hrows : ∀ x ∈ rows, x.host = false ∧ (∀ p ∈ x.pieces, p.1.mgmt = false ∧ ∀ c, p.1.sp ≠ .remote c) ∧
      (s.ticked.asSeen s.cur).piecesPoisoned x.pieces = false) (hsave : s.ticked.waitsSave rows = false) :
    s.Retires (.ldrsv d f) (chain s.ticked [fun _ => es, fun u => [.ctl s.cur { u.ctl s.cur with
      flagOps := (u.ctl s.cur).flagOps ++ [boundLoad u s.seen (s.at w).ty d false w.ctl.priv rows] }, .ids 1],
      reserve s.seen rows], .next) := by
  have hpriv : ((applyAll es s.ticked).ctl s.cur).priv = w.ctl.priv := by
    obtain ⟨xs, hx⟩ := (onlySlices_byWalker (resvRows_byWalker hr) s.ticked).ctl s.cur
    rw [hx, State.ctl_of_find (State.find_ticked h.1.1)]
    rfl
  have hload := load_after (load_near (I := s.seen) (ty := (s.at w).ty) (d := d) (scalar := false) (es := es)
    (fun x hx => ⟨(hrows x hx).1, (hrows x hx).2.1⟩) (fun x hx => (hrows x hx).2.2) hsave) (reserve s.seen rows)
  have hchain : ∀ g : State → List Effect, chain s.ticked [fun _ => es, g, reserve s.seen rows] =
      (es ++ g (applyAll es s.ticked)) ++ reserve s.seen rows (applyAll (es ++ g (applyAll es s.ticked)) s.ticked) :=
    fun g => by simp [chain, applyAll_append]
  rw [hchain, ← hpriv]
  exact hload ▸ ldrsv_retires hn h hr

/-! STCND (R243). -/

section drains
variable (hr : s.seen.resvRows (s.at w).ty 1 f = .ok (rows, es)) (hd : s.ticked.drainable s.cur = true)
  (hfree : ∀ x ∈ rows, x.place.sp = .phys → s.ticked.writeWaits x.place.off (s.ticked.epochOf s.cur) = false)
include hr hd hfree

/-- R356: lines of host memory that the core does not own are asked for first. -/
theorem stcnd_asks (hfar : s.seen.unowned rows ≠ []) (hlost : s.seen.ownLost = false) :
    s.Retires (.stcnd d f) (s.seen.own (s.seen.unowned rows)) := by
  refine (exec_stcnd d f s).trans (issue_retires h.1.1 (resv_passes hn h).fault ?_)
  rw [← seen_ty h.1.1, Issue.resvRows] at hr
  dsimp only
  rw [hr]
  dsimp only
  rw [if_neg (by simp [show s.seen.s.drainable s.seen.k = true from hd]),
    if_neg (by simpa using pinRows_free s.seen rows hfree), if_pos (by simpa [hfar] using hlost)]

/-- R243: where the core owns its host lines, the slices of an STCND act in turn after the warp's queued stores. -/
theorem stcnd_acts (hfar : s.seen.unowned rows = []) :
    let pre := chain s.ticked [fun _ => es, fun s' => drainAll s' s.cur]
    let r := condSlices s.seen (accessBytes (s.at w).ty) d rows (setBits 8 s.slices) (applyAll pre s.ticked)
    s.Retires (.stcnd d f) (pre ++ r.1 ++ bindOp (applyAll r.1 (applyAll pre s.ticked)) s.cur s.slices s.seen.seta r.2 [] false,
      .next) := by
  intro pre r
  refine (exec_stcnd d f s).trans (issue_retires h.1.1 (resv_passes hn h).fault ?_)
  have hpre : chain s.seen.s [fun _ => es, fun _ => [], fun s' => drainAll s' s.seen.k] = pre := by
    simp [chain, applyAll_nil, pre, State.seen]
  rw [← seen_ty h.1.1, Issue.resvRows] at hr
  dsimp only
  rw [hr]
  dsimp only
  rw [if_neg (by simp [show s.seen.s.drainable s.seen.k = true from hd]),
    if_neg (by simpa using pinRows_free s.seen rows hfree), if_neg (by simp [hfar])]
  simp only [hfar, List.isEmpty_nil, if_true, List.any_nil, Bool.not_false, List.filter_true, hpre, seen_ty h.1.1]
  rfl

end drains
end words

/-! The slices of an STCND (R243 to R245). -/

/-- R243, R245: a reservation covers an access that lies in its granule, for 32 words. -/
theorem Slice.holds_iff (x : Slice) (n : Nat) (rows : List LaneAccess) :
    x.holds n rows = true ↔ ∃ r, x.resv = some r ∧ r.count ≤ 32 ∧
      ∀ q ∈ rows, q.place.sp = r.sp ∧ r.gran ≤ q.place.off ∧ q.place.off + n ≤ r.gran + 64 := by
  unfold Slice.holds
  cases x.resv <;> simp [and_assoc]

/-- A slice loses its reservation. -/
def Slice.dropped (x : Slice) : Slice := { x with resv := none }

theorem Slice.dropped_holds (x : Slice) (n : Nat) (rows : List LaneAccess) : x.dropped.holds n rows = false := rfl

/-- The reservation of a slice of a warp is dropped. -/
def dropResv (k j : Nat) (s : State) : List Effect := [.ctl k ((s.ctl k).onSlices (2 ^ j) Slice.dropped)]

/-- Dropping a reservation changes no store. -/
theorem dropResv_memory (k j : Nat) (s : State) : (applyAll (dropResv k j s) s).mem = s.mem ∧
    (applyAll (dropResv k j s) s).shared = s.shared ∧ (applyAll (dropResv k j s) s).tiles = s.tiles := by
  simp [dropResv, applyAll_cons, applyAll_nil, apply_ctl]

/-- A slice that holds no reservation over an access holds none after one is dropped. -/
theorem dropResv_holds {k i j n : Nat} {rows : List LaneAccess} {s : State} (h : ((s.ctl k).slice j).holds n rows = false) :
    (((applyAll (dropResv k i s) s).ctl k).slice j).holds n rows = false := by
  rw [dropResv, applyAll_cons, applyAll_nil, apply_ctl]
  cases hw : find s.warps k with
  | none => rwa [State.onWarp_none _ hw]
  | some w =>
    rw [State.ctl_of_find (State.find_onWarp_same _ hw)]
    simp only [Ctl.slice, Ctl.onSlices_slices, List.getD_eq_getElem?_getD, List.getElem?_mapIdx] at h ⊢
    cases hx : (s.ctl k).slices[j]? with
    | none => rfl
    | some x =>
      rw [hx] at h
      simp only [Option.map_some, Option.getD_some] at h ⊢
      split
      · rfl
      · exact h

/-- What an STCND answers in the lanes of a slice. -/
def Issue.condStatus (I : Issue) (d : Nat) (rows : List LaneAccess) (j : Nat) (x : Word) : List RegWrite :=
  (ofSlice j rows).flatMap fun q => RegWrite.v d q.lane x :: (if is64 I.ty then [.v (d + 1) q.lane 0] else [])

section slices
variable {I : Issue} {n d j : Nat} {rows : List LaneAccess} {u : State}

/-- A slice without a reservation over its access stores nothing, and answers 0. -/
theorem condSlices_fails (js : List Nat) (h : ((u.ctl I.k).slice j).holds n (ofSlice j rows) = false) :
    condSlices I n d rows (j :: js) u =
      (dropResv I.k j u ++ (condSlices I n d rows js (applyAll (dropResv I.k j u) u)).1,
        I.condStatus d rows j 0 ++ (condSlices I n d rows js (applyAll (dropResv I.k j u) u)).2) := by
  rw [condSlices]
  simp only [h, Bool.false_eq_true, if_false, List.nil_append, chain, List.append_nil]
  rfl

/-- What a slice with a reservation over its access does: it stores its rows in their order, and loses the reservation. -/
def condStores (I : Issue) (n d : Nat) (rows : List LaneAccess) (j : Nat) (u : State) : List Effect :=
  chain u ((storeRows I n (fun l => I.vsrc I.ty d l) (ofSlice j rows)).map (fun q s => performStore s I.k q) ++
    [dropResv I.k j])

/-- A slice with a reservation over its access stores, and answers 1. -/
theorem condSlices_stores (js : List Nat) (h : ((u.ctl I.k).slice j).holds n (ofSlice j rows) = true) :
    condSlices I n d rows (j :: js) u =
      (condStores I n d rows j u ++ (condSlices I n d rows js (applyAll (condStores I n d rows j u) u)).1,
        I.condStatus d rows j 1 ++ (condSlices I n d rows js (applyAll (condStores I n d rows j u) u)).2) := by
  rw [condSlices]
  simp only [h, if_true]
  rfl

theorem condSlices_one (h : ((u.ctl I.k).slice j).holds n (ofSlice j rows) = true) :
    condSlices I n d rows [j] u = (condStores I n d rows j u, I.condStatus d rows j 1) := by
  rw [condSlices_stores [] h]
  simp [condSlices]

/-- Slices without reservations answer 0, and change no store. -/
theorem condSlices_all_fail {js : List Nat} (h : ∀ j ∈ js, ((u.ctl I.k).slice j).holds n (ofSlice j rows) = false) :
    let r := condSlices I n d rows js u
    let t := applyAll r.1 u
    r.2 = js.flatMap (fun j => I.condStatus d rows j 0) ∧ t.mem = u.mem ∧ t.shared = u.shared ∧ t.tiles = u.tiles := by
  induction js generalizing u with
  | nil => exact ⟨rfl, rfl, rfl, rfl⟩
  | cons j js ih =>
    obtain ⟨hmem, hshared, htiles⟩ := dropResv_memory I.k j u
    obtain ⟨hr, hmem', hshared', htiles'⟩ := ih (u := applyAll (dropResv I.k j u) u)
      fun i hi => dropResv_holds (h i (List.mem_cons_of_mem _ hi))
    rw [condSlices_fails js (h j (List.mem_cons_self ..))]
    dsimp only
    rw [applyAll_append, List.flatMap_cons, hr]
    exact ⟨rfl, hmem'.trans hmem, hshared'.trans hshared, htiles'.trans htiles⟩

/-- The store of a lane's access in one piece. -/
theorem storeRows_single (I : Issue) (data : Nat → Nat) {q : LaneAccess} (hp : q.pieces = [(q.place, n)]) :
    ∃ x, storeRows I n data [q] = [x] ∧ x.sp = q.place.sp ∧ x.off = q.place.off ∧ x.bytes = leBytes n (data q.lane) ∧
      x.cure = [] := by
  refine ⟨_, by rw [storeRows, List.flatMap_singleton, hp]; rfl, rfl, rfl, ?_, rfl⟩
  exact List.take_of_length_le (by simp)

/-- One row of shared memory under a reservation: its bytes stand there, and every other byte is as before. -/
theorem condStores_row {q : LaneAccess} {b : Nat} (hq : ofSlice j rows = [q]) (hp : q.pieces = [(q.place, n)])
    (hb : q.place.sp = .shared b) (hinv : u.Inv) :
    let t := applyAll (condStores I n d rows j u) u
    (t.sh b).bytes q.place.off n = leBytes n (I.vsrc I.ty d q.lane) ∧
    (∀ a, (a < q.place.off ∨ q.place.off + n ≤ a) → (t.sh b).get a = (u.sh b).get a) ∧ t.mem = u.mem := by
  intro t
  obtain ⟨x, hx, hsp, hoff, hbytes, hcure⟩ := storeRows_single I (fun l => I.vsrc I.ty d l) hp
  have ht : t = applyAll (dropResv I.k j (applyStore (.shared b) x.off x.bytes (some (I.k, x.sl)) u))
      (applyStore (.shared b) x.off x.bytes (some (I.k, x.sl)) u) := by
    simp only [t, condStores, hq, hx, List.map_cons, List.map_nil, List.cons_append, List.nil_append]
    rw [applyAll_chain, applyAll_chain, chain, applyAll_nil, performStore_shared (hsp.trans hb) hcure]
    rfl
  obtain ⟨hmem, hshared, -⟩ := dropResv_memory I.k j (applyStore (.shared b) x.off x.bytes (some (I.k, x.sl)) u)
  rw [← ht, hoff, hbytes] at hmem hshared
  have hsh := sh_of_stored hshared hinv
  rw [leBytes_length] at hsh
  exact ⟨hsh.1, hsh.2, hmem⟩

end slices

/-- Settles O29: LDRSV by what it loads and reserves, STCND by what its slices do in turn, a reservation by what it covers. -/
theorem reservationWords : Obligations.ReservationWords := by
  refine ⟨?_, Slice.holds_iff⟩
  intro s w d f I ty n h hn rowsOf
  refine ⟨fun t => ldrsv_traps hn h, fun t => stcnd_traps hn h,
    fun rows es hr => ⟨ldrsv_retires hn h hr, ldrsv_near hn h hr⟩,
    fun rows es hr hd hfree => ⟨stcnd_acts hn h hr hd hfree, stcnd_asks hn h hr hd hfree⟩, ?_⟩
  intro rows u gives
  have hgives : ∀ j x, gives j x = I.condStatus d rows j x := fun j x => by
    rw [Issue.condStatus, seen_ty h.1.1]
  have hty : I.ty = ty := seen_ty h.1.1
  refine ⟨fun js hjs => ?_, fun j hj => ?_⟩
  · simp only [hgives]
    exact condSlices_all_fail (I := I) hjs
  · have hone := condSlices_one (I := I) (d := d) hj
    intro stores r
    rw [hgives, show r = _ from hone]
    have hstores : stores = storeRows I n (fun l => I.vsrc I.ty d l) (ofSlice j rows) := by rw [hty]
    refine ⟨rfl, ?_, fun q b hq hp hb hinv => ?_, fun js => condSlices_stores (I := I) js hj⟩
    · rw [hstores]
      rfl
    · rw [← hty]
      exact condStores_row hq hp hb hinv

end Sys2Proof.Machine
end

section
/-! Atomics (O30): the operations on integer patterns, and what ATOM, ATOMS and RED do where nothing holds them back (10 R233 to
R240). -/
namespace Sys2Proof.Machine

theorem exec_atom (d : Nat) (f : AddrForm) (x : Ext) (s : State) : exec (.atom d f x) s = execAtom d f x s := rfl
theorem exec_red (f : AddrForm) (x : Ext) (s : State) : exec (.red f x) s = execRed f x s := rfl
theorem exec_atoms (d a : Nat) (b : SOp) (x : Ext) (s : State) : exec (.atoms d a b x) s = execAtoms d a b x s := rfl

/-! The operations on integer patterns (R237). -/

/-- The bits of a value of a type in an atomic. -/
def atomBits (ty : Nat) : Nat := if is64 ty then 64 else 32

/-- The types of integers and patterns of 32 and 64 bits. -/
def atomInts : List Nat := [2, 3, 6, 7, 8, 9]

section ints
variable {ty : Nat} (hty : ty ∈ atomInts)
include hty

theorem atomInts_width : atomBits ty = (if ty = 3 ∨ ty = 7 ∨ ty = 9 then 64 else 32) ∧ accessBytes ty * 8 = atomBits ty := by
  simp only [atomInts, List.mem_cons, List.not_mem_nil, or_false] at hty
  rcases hty with rfl | rfl | rfl | rfl | rfl | rfl <;> decide

/-- None of these types is a float type. -/
theorem atomInts_notFloat : fmtOf ty = none ∧ ty ≠ tyF32 := by
  simp only [atomInts, List.mem_cons, List.not_mem_nil, or_false] at hty
  rcases hty with rfl | rfl | rfl | rfl | rfl | rfl <;> decide

variable (old v c : Nat)

theorem atomFn_add : atomFn 0 ty old v c = (old + v) % 2 ^ atomBits ty := by
  simp [atomFn, (atomInts_notFloat hty).1, atomBits]

/-- Minimum and maximum compare as the type has a sign or none. -/
theorem atomFn_min : atomFn 1 ty old v c = if (if ty = 2 ∨ ty = 3 then signed (atomBits ty) v < signed (atomBits ty) old
    else v < old) then v else old := by
  by_cases h : ty = 2 ∨ ty = 3 <;> simp [atomFn, (atomInts_notFloat hty).2, atomBits, h]

theorem atomFn_max : atomFn 2 ty old v c = if (if ty = 2 ∨ ty = 3 then signed (atomBits ty) old < signed (atomBits ty) v
    else old < v) then v else old := by
  by_cases h : ty = 2 ∨ ty = 3 <;> simp [atomFn, (atomInts_notFloat hty).2, atomBits, h]

/-- A value of the type comes of values of the type. -/
theorem atomFn_lt (op : Nat) (ho : old < 2 ^ atomBits ty) (hv : v < 2 ^ atomBits ty) :
    atomFn op ty old v c < 2 ^ atomBits ty := by
  have hpick : ∀ p : Prop, [Decidable p] → (if p then v else old) < 2 ^ atomBits ty := fun p _ => by split <;> assumption
  match op with
  | 0 => exact atomFn_add hty old v c ▸ Nat.mod_lt _ (Nat.two_pow_pos _)
  | 1 => exact atomFn_min hty old v c ▸ hpick _
  | 2 => exact atomFn_max hty old v c ▸ hpick _
  | 3 => exact Nat.and_lt_two_pow _ hv
  | 4 => exact Nat.or_lt_two_pow ho hv
  | 5 => exact Nat.xor_lt_two_pow ho hv
  | 6 => exact hv
  | 7 => exact hpick _
  | n + 8 =>
    have hwrap : atomFn (n + 8) ty old v c = if v ≤ old then 0 else old + 1 := rfl
    rw [hwrap]
    split <;> omega

end ints

/-- R237: the nine operations on integer patterns. -/
theorem atomFn_values {ty old v c : Nat} (hty : ty ∈ atomInts) :
    atomFn 0 ty old v c = (old + v) % 2 ^ atomBits ty ∧
    ((ty = 2 ∨ ty = 3) →
      signed (atomBits ty) (atomFn 1 ty old v c) = min (signed (atomBits ty) old) (signed (atomBits ty) v) ∧
      signed (atomBits ty) (atomFn 2 ty old v c) = max (signed (atomBits ty) old) (signed (atomBits ty) v)) ∧
    (¬(ty = 2 ∨ ty = 3) → atomFn 1 ty old v c = min old v ∧ atomFn 2 ty old v c = max old v) := by
  refine ⟨atomFn_add hty old v c, fun h => ?_, fun h => ?_⟩
  all_goals
    rw [atomFn_min hty, atomFn_max hty]
    simp only [h, if_true, if_false]
  · exact ⟨by split <;> omega, by split <;> omega⟩
  · exact ⟨by split <;> omega, by split <;> omega⟩

/-! Numbers as bytes (R1). -/

theorem ofBytes_leBytes (n x : Nat) : ofBytes (leBytes n x) = x % 2 ^ (8 * n) := by
  induction n generalizing x with
  | zero => simp [leBytes, ofBytes, Nat.mod_one]
  | succ n ih =>
    rw [leBytes, ofBytes, ih, BitVec.toNat_ofNat, Nat.mul_succ, Nat.pow_add, Nat.mul_comm (2 ^ (8 * n)), Nat.mod_mul]

theorem ofBytes_lt (l : List Byte) : ofBytes l < 2 ^ (8 * l.length) := by
  induction l with
  | nil => simp [ofBytes]
  | cons b t ih =>
    have hb := b.isLt
    rw [ofBytes, List.length_cons, Nat.mul_succ, Nat.pow_add]
    omega

/-! What an atomic reads (R216, R238). -/

/-- A virtual address reaches no shared memory (R12, R185). -/
theorem checkLeaf_notShared {s : State} {w : Walk} {va kind : Nat} {user : Bool} {p : Place}
    (h : s.checkLeaf w va kind user = .ok p) (b : Nat) : p.sp ≠ .shared b := by
  unfold State.checkLeaf at h
  dsimp only at h
  repeat' split at h
  all_goals cases h <;> simp

theorem virt_notShared {s : State} {i ctx va kind who : Nat} {user : Bool} {p : Place} {es : List Effect}
    (h : s.virt i ctx va kind user who = .ok (p, es)) (b : Nat) : p.sp ≠ .shared b := by
  unfold State.virt at h
  dsimp only at h
  split at h
  · simp at h
  · rename_i hleaf
    obtain ⟨rfl, -⟩ := Prod.mk.inj (Except.ok.inj h)
    exact checkLeaf_notShared hleaf b

/-- Nor does the register aperture (R177). -/
theorem aperture_notShared {s : State} {k b' j r l byte kind : Nat} {p : Place}
    (h : s.aperture k b' j r l byte kind = .ok p) (b : Nat) : p.sp ≠ .shared b := by
  unfold State.aperture at h
  dsimp only at h
  repeat' split at h
  all_goals cases h <;> simp

/-- A place of shared memory is no register of the management range. -/
theorem access1_shared {s : State} {k lane ea n kind : Nat} {p : Place} {es : List Effect} {b : Nat}
    (h : s.access1 k lane ea n kind = .ok (p, es)) (hb : p.sp = .shared b) : p.mgmt = false := by
  unfold State.access1 at h
  dsimp only at h
  split at h
  · simp at h
  split at h
  case h_1 => simp at h
  case h_2 =>
    split at h
    · simp at h
    · split at h
      · obtain ⟨rfl, -⟩ := Prod.mk.inj (Except.ok.inj h)
        rfl
      · simp at h
  case h_3 =>
    split at h
    · simp at h
    · split at h
      · simp at h
      · rename_i hreg
        obtain ⟨rfl, -⟩ := Prod.mk.inj (Except.ok.inj h)
        exact absurd hb (aperture_notShared hreg b)
  case h_4 =>
    split at h
    · simp at h
    · split at h
      · split at h
        · simp at h
        · rename_i hvirt
          obtain ⟨rfl, -⟩ := Prod.mk.inj (Except.ok.inj h)
          exact absurd hb (virt_notShared hvirt b)
      · simp at h
  case h_5 => exact absurd hb (virt_notShared h b)

theorem access_shared {s : State} {k lane ea n kind : Nat} {ps : List (Place × Nat)} {es : List Effect} {b : Nat}
    (h : s.access k lane ea n kind = .ok (ps, es)) : ∀ p ∈ ps, p.1.sp = .shared b → p.1.mgmt = false := by
  unfold State.access at h
  split at h
  · split at h
    · simp at h
    · split at h
      · simp at h
      · simp at h
      · rename_i h1 h2
        obtain ⟨rfl, -⟩ := Prod.mk.inj (Except.ok.inj h)
        simpa using ⟨access1_shared h1, access1_shared h2⟩
  · split at h
    · simp at h
    · rename_i h1
      obtain ⟨rfl, -⟩ := Prod.mk.inj (Except.ok.inj h)
      simpa using access1_shared h1

theorem atomAccess_shared {I : Issue} {op ty l ea : Nat} {ps : List (Place × Nat)} {es : List Effect} {b : Nat}
    (h : I.atomAccess op ty l ea = .ok (ps, es)) : ∀ p ∈ ps, p.1.sp = .shared b → p.1.mgmt = false := by
  unfold Issue.atomAccess at h
  split at h
  · simp at h
  · rename_i hacc
    dsimp only at h
    split at h
    · obtain ⟨rfl, -⟩ := Prod.mk.inj (Except.ok.inj h)
      exact access_shared hacc
    · simp at h

/-- The accesses that the checks of lanes together answer are those that the check of each answers. -/
theorem gather_pieces {s : State} {kind op ty : Nat} {rs : List (Nat × Nat × Checked)} {rows : List LaneAccess}
    {es : List Effect} (h : gather s kind op ty rs = .ok (rows, es)) {x : LaneAccess} (hx : x ∈ rows) :
    ∃ r ∈ rs, ∃ fs, r.2.2 = .ok (x.pieces, fs) := by
  unfold gather at h
  split at h
  · obtain ⟨rfl, -⟩ := Prod.mk.inj (Except.ok.inj h)
    obtain ⟨r, hr, he⟩ := List.mem_filterMap.mp hx
    split at he
    · rename_i p fs hp
      exact ⟨r, hr, fs, by rw [hp, ← Option.some.inj he]⟩
    · simp at he
  · simp at h

/-- What a context with no queued store reads of shared memory (R216). -/
theorem readPlace_shared {s : State} {k b n : Nat} {p : Place} (hq : (s.ctl k).storeQ = []) (hb : p.sp = .shared b) :
    s.readPlace k p n = (s.sh b).bytes p.off n := by
  refine List.ext_getElem (by simp [State.readPlace, Sparse.bytes, span_eq_range']) fun i _ _ => ?_
  simp [State.readPlace, Sparse.bytes, span_eq_range', State.readByte, hq, hb]


/-! An atomic that nothing holds back (R212, R217, R230, R238, R239). -/

/-- Nothing holds back an atomic: no release that its ordering asks for, no queued store, no request, no pinned page, no
acknowledgement. -/
def Issue.atomFree (I : Issue) (x : Ext) (rows : List LaneAccess) : Prop :=
  ¬(ordRel x.ord && I.holdBack.isSome) = true ∧
  ¬(!I.s.drainable I.k || (!(rows.filter fun r => r.remote.isSome).isEmpty && !I.s.maySend I.k)) = true ∧
  ¬(!(pinRows I (rows.filter fun r => r.remote.isNone)).1) = true ∧
  ¬((ordRel x.ord && decide (5 ≤ x.scope)) && !I.acksIn) = true

/-- Lanes on this chip, behind stores that can become visible, under an ordering that releases at most inside the chip. -/
theorem atomFree_of_near {I : Issue} {x : Ext} {rows : List LaneAccess}
    (hrows : ∀ q ∈ rows, q.remote = none ∧ (q.place.sp = .phys → I.s.writeWaits q.place.off (I.s.epochOf I.k) = false))
    (hd : I.s.drainable I.k = true) (hord : x.ord = 0 ∨ x.ord = 1 ∨ (x.scope < 5 ∧ I.holdBack = none)) :
    I.atomFree x rows := by
  have hrel : x.ord = 0 ∨ x.ord = 1 → ordRel x.ord = false := by
    rintro (e | e) <;> rw [e] <;> rfl
  have hfar : (rows.filter fun r => r.remote.isSome) = [] :=
    List.filter_eq_nil_iff.mpr fun q hq => by simp [(hrows q hq).1]
  have hpin := pinRows_free I (rows.filter fun r => r.remote.isNone) fun q hq => (hrows q (List.mem_of_mem_filter hq)).2
  refine ⟨?_, by simp [hd, hfar], by simp [hpin], ?_⟩
  · obtain h | h | ⟨-, h⟩ := hord
    · simp [hrel (.inl h)]
    · simp [hrel (.inr h)]
    · simp [h]
  · obtain h | h | ⟨h, -⟩ := hord
    · simp [hrel (.inl h)]
    · simp [hrel (.inr h)]
    · simp [Nat.not_le.mpr h]

theorem atomic_next {I : Issue} {x : Ext} {ty : Nat} {ret : Option (Nat → Nat × Nat)} {arg : Nat → Nat × Nat}
    {rows : List LaneAccess} {es : List Effect} (h : I.atomFree x rows) : (I.atomic x ty ret arg rows es).2 = .next := by
  obtain ⟨h1, h2, h3, h4⟩ := h
  unfold Issue.atomic
  dsimp only
  rw [if_neg h1, if_neg h2, if_neg h3, if_neg h4]

/-! One lane's atomic on shared memory. -/

/-- The operation that an atomic puts in flight for the value that its one lane found (R240). -/
def atomOp (I : Issue) (ty : Nat) (g : Nat → Nat × Nat) (lane old : Nat) (s : State) : FlagOp :=
  { id := s.ids, flag := I.seta, slices := I.sl, writes := regOut ty (g lane).1 (g lane).2 old, sup := I.c.priv }

/-- It is bound to the clause's flag; RED binds none. -/
def atomBind (I : Issue) (ty : Nat) (ret : Option (Nat → Nat × Nat)) (lane old : Nat) (s : State) : List Effect :=
  match ret with
  | none => []
  | some g => [.ctl I.k { s.ctl I.k with flagOps := (s.ctl I.k).flagOps ++ [atomOp I ty g lane old s] }, .ids 1]

/-- What a warp waits for after an atomic: its own requests after it, where they ask for lines or the atomic acquires. -/
def atomHolds (I : Issue) (x : Ext) (r : Req) : Bool :=
  r.k == I.k && decide (I.s.ids ≤ r.id) && (r.plane == 0xFE || ordAcq x.ord)

/-- A context without queued stores has none to make visible. -/
theorem drainAll_nil {s : State} {k : Nat} (hq : (s.ctl k).storeQ = []) : drainAll s k = [] := by
  rw [drainAll, hq]
  rfl

theorem drainable_nil {s : State} {k : Nat} (hq : (s.ctl k).storeQ = []) : s.drainable k = true := by
  rw [State.drainable, drainAll_nil hq, applyAll_nil, hq]
  rfl

section one
variable {I : Issue} {q : LaneAccess} {ty b : Nat} (hp : q.pieces = [(q.place, accessBytes ty)]) (hb : q.place.sp = .shared b)
include hp hb

/-- An access to shared memory is on this chip, and none to host memory. -/
theorem shared_near : q.remote = none ∧ q.host = false := by
  rw [LaneAccess.remote, LaneAccess.host, hp]
  simp [hb]

variable (hm : q.place.mgmt = false) (hq : (I.s.ctl I.k).storeQ = []) (hpo : I.s.piecesPoisoned q.pieces = false)
include hm hq hpo

/-- R238: the lane reads the old value, and writes what the operation makes of it. -/
theorem atomLanes_one (op : Nat) (arg : Nat → Nat × Nat) :
    let old := ofBytes ((I.s.sh b).bytes q.place.off (accessBytes ty))
    atomLanes I op ty arg [q] I.s = ([.store (.shared b) q.place.off
      (leBytes (accessBytes ty) (atomFn op ty old (arg q.lane).1 (arg q.lane).2)) (some (I.k, q.lane / 4 % 8))],
      [(q.lane, old)]) := by
  intro old
  have hold : ofBytes (I.s.loadBytes I.k q.pieces) = old := by
    rw [hp, loadBytes_singleton _ _ _ hm, readPlace_shared hq hb]
  rw [atomLanes, if_neg (by simp [hpo])]
  dsimp only
  rw [hold, performStore_shared (b := b) hb rfl]
  rfl

/-- R239, R240: it stores the new value, binds the old one, and the warp holds for what its ordering asks for. -/
theorem atomic_one {x : Ext} {ret : Option (Nat → Nat × Nat)} {arg : Nat → Nat × Nat} (hfree : I.atomFree x [q]) :
    let old := ofBytes ((I.s.sh b).bytes q.place.off (accessBytes ty))
    I.atomic x ty ret arg [q] [] = (chain I.s [fun _ => [.store (.shared b) q.place.off
      (leBytes (accessBytes ty) (atomFn x.op ty old (arg q.lane).1 (arg q.lane).2)) (some (I.k, q.lane / 4 % 8))],
      atomBind I ty ret q.lane old, holdFor I.k (atomHolds I x)], .next) := by
  intro old
  obtain ⟨h1, h2, h3, h4⟩ := hfree
  obtain ⟨hremote, hhost⟩ := shared_near hp hb
  have hdrain : chain I.s [fun _ => [], fun s => drainAll s I.k] = [] := by
    simp [chain, applyAll_nil, drainAll_nil hq]
  have hlanes := atomLanes_one hp hb hm hq hpo x.op arg
  dsimp only at hlanes
  unfold Issue.atomic
  dsimp only
  rw [if_neg h1, if_neg h2, if_neg h3, if_neg h4, hdrain, applyAll_nil]
  simp only [List.filter_cons, List.filter_nil, hremote, hhost, Option.isNone_none, Option.isSome_none, Bool.not_false,
    Bool.true_or, Bool.and_true, Bool.false_and, Bool.and_false, Bool.false_eq_true, if_true, if_false, List.map_nil,
    List.append_nil, List.nil_append, hlanes, hpo, List.head?_nil, Option.map_none, List.isEmpty_nil]
  rw [chain]
  cases ret with
  | none => rfl
  | some g =>
    simp only [List.flatMap_cons, List.flatMap_nil, List.append_nil]
    rfl

end one

/-! The state that such an atomic leaves. -/

/-- The effects that change neither memory nor what contexts there are. -/
def Effect.control : Effect → Prop
  | .ctl _ _ | .ids _ | .fresh => True
  | _ => False

theorem applyAll_control {es : List Effect} (h : ∀ e ∈ es, e.control) (s : State) :
    (applyAll es s).mem = s.mem ∧ (applyAll es s).shared = s.shared ∧ (applyAll es s).tiles = s.tiles := by
  induction es generalizing s with
  | nil => exact ⟨rfl, rfl, rfl⟩
  | cons e t ih =>
    obtain ⟨hm, hs, ht⟩ := ih (fun x hx => h x (List.mem_cons_of_mem _ hx)) (apply e s)
    have he := h e (List.mem_cons_self ..)
    rw [applyAll_cons, hm, hs, ht]
    cases e with
    | ctl k c => simp [apply_ctl]
    | ids n => exact ⟨rfl, rfl, rfl⟩
    | fresh => exact ⟨rfl, rfl, rfl⟩
    | _ => exact he.elim

theorem chain_control {fs : List (State → List Effect)} (h : ∀ f ∈ fs, ∀ s, ∀ e ∈ f s, e.control) (s : State) :
    ∀ e ∈ chain s fs, e.control := by
  induction fs generalizing s with
  | nil => simp [chain]
  | cons f t ih =>
    intro e he
    rcases List.mem_append.mp he with he | he
    · exact h f (List.mem_cons_self ..) s e he
    · exact ih (fun g hg => h g (List.mem_cons_of_mem _ hg)) _ e he

theorem ticked_memory (s : State) : s.ticked.mem = s.mem ∧ s.ticked.shared = s.shared ∧ s.ticked.tiles = s.tiles := by
  refine applyAll_control (fun e he => ?_) s
  rw [List.mem_singleton.mp he]
  trivial

/-- A word that stores to shared memory, and then changes only control states, leaves the stored bytes there and all other
memory as it was. -/
theorem retire_stored {s : State} {b off : Nat} {bytes : List Byte} {who : Option (Nat × Nat)}
    {fs : List (State → List Effect)} (h : ∀ f ∈ fs, ∀ s, ∀ e ∈ f s, e.control) :
    let t := s.retire (chain s.ticked ((fun _ => [.store (.shared b) off bytes who]) :: fs)) .next
    t.shared = put s.shared b ((s.sh b).setBytes off bytes) ∧ t.mem = s.mem ∧ t.tiles = s.tiles := by
  intro t
  obtain ⟨v, hv⟩ : ∃ v, v = applyStore (.shared b) off bytes who s.ticked := ⟨_, rfl⟩
  have hstore : v.shared = put s.ticked.shared b ((s.ticked.sh b).setBytes off bytes) ∧ v.mem = s.ticked.mem ∧
      v.tiles = s.ticked.tiles := hv ▸ ⟨rfl, rfl, rfl⟩
  obtain ⟨hm0, hs0, ht0⟩ := ticked_memory s
  obtain ⟨hm1, hs1, ht1⟩ := applyAll_control (chain_control h v) v
  obtain ⟨hm2, hs2, ht2⟩ := applyAll_control (s := applyAll (chain v fs) v)
    (es := follow s (applyAll (chain v fs) v) s.cur s.slices .next) fun e he => by
      obtain ⟨c, rfl⟩ := follow_eq_ctl he
      trivial
  have ht : t = apply .fresh (applyAll (follow s (applyAll (chain v fs) v) s.cur s.slices .next) (applyAll (chain v fs) v)) := by
    simp only [t, State.retire, hv]
    rw [if_neg (by simp), applyAll_chain]
    rfl
  rw [ht]
  refine ⟨hs2.trans (hs1.trans ?_), hm2.trans (hm1.trans (hstore.2.1.trans hm0)), ht2.trans (ht1.trans (hstore.2.2.trans ht0))⟩
  rw [hstore.1, State.sh, hs0]
  rfl

/-! Operations in flight. -/

/-- What a context's control state is once it is set. -/
theorem ctl_apply_ctl {s : State} {k : Nat} (h : (find s.warps k).isSome) (c : Ctl) :
    (apply (.ctl k c) s).ctl k = c ∧ (find (apply (.ctl k c) s).warps k).isSome := by
  obtain ⟨w, hw⟩ := Option.isSome_iff_exists.mp h
  have hf := State.find_onWarp_same (fun x => { x with ctl := c }) hw
  rw [apply_ctl]
  exact ⟨by rw [State.ctl_of_find hf], by rw [hf]; rfl⟩

/-- Leaving a word keeps the operations in flight. -/
theorem Ctl.after_flagOps (c : Ctl) (now live sl : Nat) (l : Bool) (f : Flow) :
    (c.after now live sl l f).flagOps = c.flagOps := by
  have hstall : ∀ d : Ctl, (d.stall now live l).flagOps = d.flagOps := fun d => by
    unfold Ctl.stall
    dsimp only
    split <;> rfl
  have hend : ∀ d : Ctl, (d.endClause sl l).flagOps = d.flagOps := fun d => by
    unfold Ctl.endClause
    dsimp only
    repeat' split
    all_goals rfl
  unfold Ctl.after
  dsimp only
  rw [hstall]
  split
  · rfl
  · exact hend _

theorem retire_flagOps {s : State} {es : List Effect} (h : (find (applyAll es s.ticked).warps s.cur).isSome) :
    ((s.retire es .next).ctl s.cur).flagOps = ((applyAll es s.ticked).ctl s.cur).flagOps := by
  rw [State.retire, if_neg (by simp), follow_advance _ _ _ _ rfl, advance, applyAll_cons, applyAll_nil]
  exact (congrArg Ctl.flagOps (ctl_apply_ctl h _).1).trans (Ctl.after_flagOps ..)

/-- What holds a warp back changes its control state only. -/
theorem holdFor_control (k : Nat) (p : Req → Bool) (s : State) : ∀ e ∈ holdFor k p s, e.control := by
  intro e he
  rw [List.mem_singleton.mp he]
  trivial

theorem atomBind_control (I : Issue) (ty : Nat) (ret : Option (Nat → Nat × Nat)) (lane old : Nat) (s : State) :
    ∀ e ∈ atomBind I ty ret lane old s, e.control := by
  cases ret <;> simp [atomBind, Effect.control]

/-- A store to shared memory removes no context. -/
theorem find_stored {s : State} {w : Warp} {k b off : Nat} {bytes : List Byte} {who : Option (Nat × Nat)}
    (hw : find s.warps k = some w) : (find (applyStore (.shared b) off bytes who s).warps k).isSome := by
  obtain ⟨f, hf⟩ := find_mapSlices (fun _ => true) (Slice.written (.shared b) off bytes.length who) s.warps k
  obtain ⟨g, hg⟩ := find_mapSlices (fun k => blockOf k == b)
    (fun _ _ x => x.noticed ((s.sh b).setBytes off bytes) (s.blk b).img.shblk)
    (mapSlices (fun _ => true) (Slice.written (.shared b) off bytes.length who) s.warps) k
  dsimp only [applyStore]
  rw [hg, hf, hw]
  rfl

theorem holdFor_flagOps {s : State} {k : Nat} (h : (find s.warps k).isSome) (p : Req → Bool) :
    ((applyAll (holdFor k p s) s).ctl k).flagOps = (s.ctl k).flagOps ∧ (find (applyAll (holdFor k p s) s).warps k).isSome := by
  have hset := ctl_apply_ctl h
    { s.ctl k with acq := (s.fab.reqs.filter fun r => (s.ctl k).acq.contains r.id || p r).map Req.id }
  refine ⟨?_, hset.2⟩
  rw [show (applyAll (holdFor k p s) s).ctl k = _ from hset.1]

theorem atomBind_flagOps {I : Issue} {s : State} (h : (find s.warps I.k).isSome) (ty : Nat) (g : Nat → Nat × Nat)
    (lane old : Nat) :
    (∃ o ∈ ((applyAll (atomBind I ty (some g) lane old s) s).ctl I.k).flagOps,
      o.id = s.ids ∧ o.flag = I.seta ∧ o.writes = regOut ty (g lane).1 (g lane).2 old) ∧
    (find (applyAll (atomBind I ty (some g) lane old s) s).warps I.k).isSome := by
  have hset := ctl_apply_ctl h { s.ctl I.k with flagOps := (s.ctl I.k).flagOps ++ [atomOp I ty g lane old s] }
  refine ⟨⟨atomOp I ty g lane old s, ?_, rfl, rfl, rfl⟩, hset.2⟩
  rw [show (applyAll (atomBind I ty (some g) lane old s) s).ctl I.k = _ from hset.1]
  exact List.mem_append_right _ (List.mem_singleton_self _)

/-- What an atomic that answers a value binds is in flight after the word. -/
theorem bound_inFlight {s : State} {w : Warp} (hw : find s.warps s.cur = some w) {ty b off lane old : Nat}
    {bytes : List Byte} {who : Option (Nat × Nat)} {g : Nat → Nat × Nat} (p : Req → Bool) :
    ∃ o ∈ ((s.retire (chain s.ticked [fun _ => [.store (.shared b) off bytes who],
        atomBind s.seen ty (some g) lane old, holdFor s.cur p]) .next).ctl s.cur).flagOps,
      o.id = s.ids ∧ o.flag = s.seen.seta ∧ o.writes = regOut ty (g lane).1 (g lane).2 old := by
  obtain ⟨v, hv⟩ : ∃ v, v = applyStore (.shared b) off bytes who s.ticked := ⟨_, rfl⟩
  have hids : v.ids = s.ids := by
    rw [hv, State.ticked_eq hw]
    rfl
  obtain ⟨⟨o, ho, hid, hflag, hwrites⟩, hbind⟩ :=
    atomBind_flagOps (I := s.seen) (hv ▸ find_stored (State.find_ticked hw)) ty g lane old
  obtain ⟨hkeeps, hhold⟩ := holdFor_flagOps hbind p
  have hchain : applyAll (chain s.ticked [fun _ => [.store (.shared b) off bytes who],
      atomBind s.seen ty (some g) lane old, holdFor s.cur p]) s.ticked =
      applyAll (holdFor s.cur p (applyAll (atomBind s.seen ty (some g) lane old v) v))
        (applyAll (atomBind s.seen ty (some g) lane old v) v) := by
    rw [applyAll_chain, applyAll_chain, applyAll_chain, chain, applyAll_nil, hv]
    rfl
  rw [retire_flagOps (hchain ▸ hhold), hchain]
  exact ⟨o, hkeeps ▸ ho, hid.trans hids, hflag, hwrites⟩

/-! The words. -/

/-- What an atomic does with what its checks answer. -/
def atomOut (I : Issue) (x : Ext) (ty : Nat) (ret : Option (Nat → Nat × Nat)) (arg : Nat → Nat × Nat)
    (r : Except Trap (List LaneAccess × List Effect)) : Except Trap (List Effect × Flow) :=
  match r with
  | .error t => .error t
  | .ok (rows, es) => .ok (I.atomic x ty ret arg rows es)

/-- The ordering of an atomic asks for no release, or for one inside the chip that nothing holds back. -/
def Issue.ordMet (I : Issue) (x : Ext) : Prop := x.ord = 0 ∨ x.ord = 1 ∨ (x.scope < 5 ∧ I.holdBack = none)

/-- What one lane's atomic on n bytes of a block's shared memory leaves: the operation's value there, all other memory as it
was, and, but for RED, an operation in flight that writes the old value. -/
def State.SwapsShared (s : State) (i : Instr) (op ty : Nat) (ret : Option (Nat → Nat × Nat)) (arg : Nat × Nat)
    (lane b off : Nat) : Prop :=
  let n := accessBytes ty
  let old := ofBytes ((s.sh b).bytes off n)
  ∃ t, exec i s = .next t ∧ ofBytes ((t.sh b).bytes off n) = atomFn op ty old arg.1 arg.2 ∧
    (∀ a, (a < off ∨ off + n ≤ a) → (t.sh b).get a = (s.sh b).get a) ∧ t.mem = s.mem ∧ t.tiles = s.tiles ∧
    ∀ g, ret = some g → ∃ o ∈ (t.ctl s.cur).flagOps, o.id = s.ids ∧ o.flag = bits s.seen.slice.h0.toNat 19 16 ∧
      o.writes = regOut ty (g lane).1 (g lane).2 old

/-- What the claim says of an atomic: a check that fails traps; else it completes with its lanes' operations, at once where
nothing holds it back. -/
def State.AtomicBy (s : State) (w : Warp) (x : Ext) (ty : Nat) (i : Instr) (once : Bool) (ret : Option (Nat → Nat × Nat))
    (arg : Nat → Nat × Nat) (r : Except Trap (List LaneAccess × List Effect)) : Prop :=
  (∀ t, r = .error t → s.Traps w i once t) ∧
  ∀ rows es, r = .ok (rows, es) → s.Retires i (s.seen.atomic x ty ret arg rows es) ∧
    ((∀ q ∈ rows, q.remote = none ∧ (q.place.sp = .phys →
        s.ticked.writeWaits q.place.off (s.ticked.epochOf s.cur) = false)) →
      s.ticked.drainable s.cur = true → s.seen.ordMet x → (s.seen.atomic x ty ret arg rows es).2 = .next) ∧
    ∀ q b, rows = [q] → es = [] → q.pieces = [(q.place, accessBytes ty)] → q.place.sp = .shared b → s.Inv →
      ty ∈ atomInts → s.ticked.piecesPoisoned q.pieces = false → w.ctl.storeQ = [] → s.seen.ordMet x →
      s.SwapsShared i x.op ty ret (arg q.lane) q.lane b q.place.off

/-- The new value reads back as the operation gives it: it fits the type. -/
theorem atomFn_stored {ty : Nat} (hty : ty ∈ atomInts) {l : List Byte} (hl : l.length = accessBytes ty) (op c : Nat) {v : Nat}
    (hv : v < 2 ^ atomBits ty) :
    ofBytes (leBytes (accessBytes ty) (atomFn op ty (ofBytes l) v c)) = atomFn op ty (ofBytes l) v c := by
  have hbits : 8 * accessBytes ty = atomBits ty := by rw [Nat.mul_comm, (atomInts_width hty).2]
  have hold := ofBytes_lt l
  rw [hl, hbits] at hold
  rw [ofBytes_leBytes, hbits, Nat.mod_eq_of_lt (atomFn_lt hty _ v c op hold hv)]

/-- A word that stores the operation's value and binds the old one leaves what the claim says. -/
theorem swapsShared_of_stored {s : State} {w : Warp} (hw : find s.warps s.cur = some w) {i : Instr} {op ty b off lane : Nat}
    {ret : Option (Nat → Nat × Nat)} {arg : Nat × Nat} {who : Option (Nat × Nat)} {p : Req → Bool}
    (hinv : s.Inv) (hty : ty ∈ atomInts) (harg : arg.1 < 2 ^ atomBits ty)
    (ht : s.Retires i (chain s.ticked [fun _ => [.store (.shared b) off (leBytes (accessBytes ty)
        (atomFn op ty (ofBytes ((s.sh b).bytes off (accessBytes ty))) arg.1 arg.2)) who],
      atomBind s.seen ty ret lane (ofBytes ((s.sh b).bytes off (accessBytes ty))), holdFor s.cur p], .next)) :
    s.SwapsShared i op ty ret arg lane b off := by
  obtain ⟨hshared, hmem, htiles⟩ := retire_stored (s := s) (b := b) (off := off) (who := who)
    (bytes := leBytes (accessBytes ty) (atomFn op ty (ofBytes ((s.sh b).bytes off (accessBytes ty))) arg.1 arg.2))
    (fs := [atomBind s.seen ty ret lane (ofBytes ((s.sh b).bytes off (accessBytes ty))), holdFor s.cur p])
    (by simpa using ⟨atomBind_control _ _ _ _ _, holdFor_control _ _⟩)
  obtain ⟨hbytes, hrest⟩ := sh_of_stored hshared hinv
  rw [leBytes_length] at hbytes hrest
  refine ⟨_, ht, ?_, hrest, hmem, htiles, fun g hg => ?_⟩
  · dsimp only
    rw [hbytes]
    exact atomFn_stored hty (by simp [Sparse.bytes, span_eq_range']) _ _ harg
  · subst hg
    exact bound_inFlight hw p

/-- An atomic of one lane on shared memory that nothing holds back is such a word. -/
theorem swapsShared_of_retires {s : State} {w : Warp} (hw : find s.warps s.cur = some w) {i : Instr} {x : Ext} {ty b : Nat}
    {ret : Option (Nat → Nat × Nat)} {arg : Nat → Nat × Nat} {q : LaneAccess}
    (hret : s.Retires i (s.seen.atomic x ty ret arg [q] [])) (hp : q.pieces = [(q.place, accessBytes ty)])
    (hb : q.place.sp = .shared b) (hm : q.place.mgmt = false) (hinv : s.Inv) (hty : ty ∈ atomInts)
    (hpo : s.ticked.piecesPoisoned q.pieces = false) (hq : w.ctl.storeQ = []) (hord : s.seen.ordMet x)
    (harg : (arg q.lane).1 < 2 ^ atomBits ty) : s.SwapsShared i x.op ty ret (arg q.lane) q.lane b q.place.off := by
  have hqueue : (s.ticked.ctl s.cur).storeQ = [] := by
    rw [State.ctl_of_find (State.find_ticked hw)]
    exact hq
  have hfree : s.seen.atomFree x [q] := atomFree_of_near
    (by simp [(shared_near hp hb).1, hb]) (drainable_nil hqueue) hord
  have hsh : s.seen.s.sh b = s.sh b := by
    rw [State.sh, show s.seen.s.shared = s.shared from (ticked_memory s).2.1]
    rfl
  have hone := atomic_one (I := s.seen) hp hb hm hqueue hpo (ret := ret) (arg := arg) hfree
  rw [hsh] at hone
  exact swapsShared_of_stored hw hinv hty harg (hone ▸ hret)

/-- The checks of lanes of an atomic, together. -/
def Issue.atomRows (I : Issue) (op ty kind : Nat) (eas : List (Nat × Nat)) : Except Trap (List LaneAccess × List Effect) :=
  gather I.s 2 (kind + op) ty (eas.map fun p => (p.1, p.2, I.atomAccess op ty p.1 p.2))

theorem atomRows_shared {I : Issue} {op ty kind : Nat} {eas : List (Nat × Nat)} {rows : List LaneAccess} {es : List Effect}
    (h : I.atomRows op ty kind eas = .ok (rows, es)) {q : LaneAccess} {b n : Nat} (hq : q ∈ rows)
    (hp : q.pieces = [(q.place, n)]) (hb : q.place.sp = .shared b) : q.place.mgmt = false := by
  obtain ⟨r, hr, fs, hrq⟩ := gather_pieces h hq
  obtain ⟨p, -, rfl⟩ := List.mem_map.mp hr
  exact atomAccess_shared hrq (q.place, n) (by simp [hp]) hb

theorem atomicBy_of_issue {s : State} {w : Warp} {i : Instr} {x : Ext} {ty kind : Nat} {ret : Option (Nat → Nat × Nat)}
    {arg : Nat → Nat × Nat} {eas : List (Nat × Nat)} {chk : Issue → Chk} {body : Issue → Except Trap (List Effect × Flow)}
    (hw : s.Issuing w) (hi : exec i s = issue chk body s) (hc : (chk (s.at w)).Passes (s.at w))
    (hb : body s.seen = atomOut s.seen x ty ret arg (s.seen.atomRows x.op ty kind eas))
    (harg : ∀ l, (arg l).1 < 2 ^ atomBits ty) :
    s.AtomicBy w x ty i (chk (s.at w)).once ret arg (s.seen.atomRows x.op ty kind eas) := by
  refine ⟨fun t ht => hi.trans (issue_traps hw.1 hc.fault (by rw [hb, ht]; rfl)), fun rows es hr => ?_⟩
  have hret : s.Retires i (s.seen.atomic x ty ret arg rows es) :=
    hi.trans (issue_retires hw.1 hc.fault (by rw [hb, hr]; rfl))
  refine ⟨hret, fun hrows hd hord => atomic_next (atomFree_of_near hrows hd hord), ?_⟩
  rintro q b rfl rfl hp hsp hinv hty hpo hq hord
  exact swapsShared_of_retires hw.1 hret hp hsp (atomRows_shared hr (List.mem_singleton_self q) hp hsp) hinv hty hpo hq hord
    (harg q.lane)

/-! Their operands. -/

theorem pattern_lt (n : Nat) (x : Int) : pattern n x < 2 ^ n := by
  have hlt := Int.emod_lt_of_pos x (show (0 : Int) < 2 ^ n by positivity)
  have hnonneg := Int.emod_nonneg x (show (2 : Int) ^ n ≠ 0 by positivity)
  rw [pattern]
  zify
  rwa [Int.toNat_of_nonneg hnonneg]

theorem vsrc_lt (I : Issue) (ty r l : Nat) : I.vsrc ty r l < 2 ^ atomBits ty := by
  unfold Issue.vsrc atomBits
  split
  · exact (I.vpair r l).isLt
  · exact (Nat.mod_le _ _).trans_lt (I.v r l).isLt

theorem atomOperand_lt (I : Issue) (ty code : Nat) : I.atomOperand ty code < 2 ^ atomBits ty := by
  unfold Issue.atomOperand atomBits
  split
  · split
    · exact (I.pair code).isLt
    · exact (I.rs code).isLt
  · exact pattern_lt _ _

section words
variable {s : State} {w : Warp} {d : Nat} {f : AddrForm} {x : Ext}

/-- The operands of ATOM and RED are read before the word's effects. -/
theorem seen_atomArg (hw : find s.warps s.cur = some w) : s.seen.atomArg x = (s.at w).atomArg x := by
  funext l
  simp only [Issue.atomArg, seen_vsrc hw, seen_ty hw]

theorem atom_atomicBy (h : s.Admits w { cls := .e, legal := atomLegal x (s.at w).ty [d]
                                        vs := vregs (s.at w).ty d ++ atomVs x (s.at w).ty ++ formVs f, ss := formSs f
                                        dst := vregs (s.at w).ty d }) :
    s.AtomicBy w x (s.at w).ty (.atom d f x) false (some fun l => (l, d)) ((s.at w).atomArg x)
      (s.seen.atomRows x.op (s.at w).ty 32 (s.seen.eas f)) := by
  obtain ⟨hw, hc⟩ := h
  refine atomicBy_of_issue hw (exec_atom d f x s) hc ?_ fun _ => vsrc_lt _ _ _ _
  rw [← seen_ty hw.1, ← seen_atomArg hw.1]
  rfl

theorem red_atomicBy (h : s.Admits w { cls := .e, legal := atomLegal x (s.at w).ty []
                                       vs := atomVs x (s.at w).ty ++ formVs f, ss := formSs f }) :
    s.AtomicBy w x (s.at w).ty (.red f x) false none ((s.at w).atomArg x)
      (s.seen.atomRows x.op (s.at w).ty 48 (s.seen.eas f)) := by
  obtain ⟨hw, hc⟩ := h
  refine atomicBy_of_issue hw (exec_red f x s) hc ?_ fun _ => vsrc_lt _ _ _ _
  rw [← seen_ty hw.1, ← seen_atomArg hw.1]
  rfl

theorem atoms_atomicBy {a : Nat} {b : SOp}
    (h : s.Admits w { cls := .a, once := true, ss := vregs (s.at w).ty d ++ [a, a + 1] ++ opRegs b ++ codeRegs (s.at w).ty x.v ++
                        (if x.op = 7 then codeRegs (s.at w).ty x.c else []) })
    (hop : atomReach x.op (s.at w).ty ≠ 0) (hd : okReg (s.at w).ty d = true) (hv : x.v < 160 → okReg (s.at w).ty x.v = true)
    (hcmp : x.op = 7 → x.c < 160 → okReg (s.at w).ty x.c = true) (hcode : ∀ r ∈ codeRegs (s.at w).ty x.v, r < 160) :
    s.AtomicBy w x (s.at w).ty (.atoms d a b x) true (some fun _ => (32, d))
      (fun _ => (s.seen.atomOperand (s.at w).ty x.v, if x.op = 7 then s.seen.atomOperand (s.at w).ty x.c else 0))
      (s.seen.atomRows x.op (s.at w).ty 32 [(s.seen.lane, s.seen.sea a b)]) := by
  obtain ⟨hw, hc⟩ := h
  have hv' : 160 ≤ x.v ∨ okReg (s.at w).ty x.v = true := (Nat.lt_or_ge x.v 160).symm.imp_right hv
  have hcmp' : x.op ≠ 7 ∨ 160 ≤ x.c ∨ okReg (s.at w).ty x.c = true := by
    by_cases h7 : x.op = 7
    · exact .inr ((Nat.lt_or_ge x.c 160).symm.imp_right (hcmp h7))
    · exact .inl h7
  refine atomicBy_of_issue hw (exec_atoms d a b x s) (hc.relegal ?_) ?_ fun _ => atomOperand_lt _ _ _
  · simpa [hop, hd, hv', or_assoc] using ⟨hcode, hcmp'⟩
  · rw [← seen_ty hw.1]
    rfl

end words

/-- Settles O30: the three words by what one lemma says of an atomic, the operations by their values. -/
theorem atomicWords : Obligations.AtomicWords := by
  constructor
  · intro s w d a b f x I ty hop rowsOf ends arg
    exact ⟨fun h => atom_atomicBy h, fun h => red_atomicBy h, fun h hd hv hc hcode => atoms_atomicBy h hop hd hv hc hcode⟩
  · intro ty old v c hty
    obtain ⟨hadd, hsigned, hunsigned⟩ := atomFn_values (old := old) (v := v) (c := c) hty
    rw [(atomInts_width hty).1] at hadd hsigned
    exact fun _ _ _ => ⟨hadd, hsigned, hunsigned, rfl, rfl, rfl, rfl, rfl, rfl⟩

end Sys2Proof.Machine
end

section
/-! Copy words (O33): what the eight words share (11 R261 to R263, R267, R268). -/
namespace Sys2Proof.Machine

theorem exec_cpld (ks a : Nat) (gen pen : Bool) (b : SOp) (s : State) :
    exec (.cpld ks gen pen a b) s = copyCommand 0 ks gen pen a b s := rfl
theorem exec_cpst (ks a : Nat) (gen pen : Bool) (b : SOp) (s : State) :
    exec (.cpst ks gen pen a b) s = copyCommand 1 ks gen pen a b s := rfl
theorem exec_cpmc (ks a : Nat) (gen pen : Bool) (b : SOp) (s : State) :
    exec (.cpmc ks gen pen a b) s = copyCommand 2 ks gen pen a b s := rfl
theorem exec_cpga (ks a : Nat) (gen pen : Bool) (b : SOp) (s : State) :
    exec (.cpga ks gen pen a b) s = copyCommand 3 ks gen pen a b s := rfl
theorem exec_cpsc (ks a : Nat) (gen pen : Bool) (b : SOp) (s : State) :
    exec (.cpsc ks gen pen a b) s = copyCommand 4 ks gen pen a b s := rfl
theorem exec_cpfl (ks a : Nat) (gen pen : Bool) (b : SOp) (s : State) :
    exec (.cpfl ks gen pen a b) s = copyCommand 5 ks gen pen a b s := rfl
theorem exec_cprm (ks a : Nat) (gen pen : Bool) (b : SOp) (s : State) :
    exec (.cprm ks gen pen a b) s = copyCommand 6 ks gen pen a b s := rfl
theorem exec_cppf (ks a : Nat) (gen pen : Bool) (b : SOp) (s : State) :
    exec (.cppf ks gen pen a b) s = copyCommand 7 ks gen pen a b s := rfl

/-- The checks of a word of class C that executes once and names these scalar registers pass in a copy warp (R30). -/
theorem chkC_passes {s : State} {w : Warp} {ss : List Nat} (hh : w.ctl.helper = none) (hr : w.ctl.role = 2)
    (hs : ∀ n ∈ ss, n < w.ctl.sbudget) : ({ cls := .c, once := true, ss } : Chk).Passes (s.at w) := by
  constructor <;> simp_all [State.at, Issue.c]

section seen
variable {s : State} {w : Warp} (hw : s.Issuing w)
include hw

/-! What a copy word reads is the same once the marks of the issuing slices clear. -/

theorem seen_desc (a : Nat) : s.seen.desc a = (s.at w).desc a := by simp only [Issue.desc, seen_rs hw.1]

theorem seen_copyBad (kind d : Nat) (pen : Bool) :
    s.seen.s.copyBad kind (blockOf s.seen.k) d pen = s.copyBad kind (blockOf s.cur) d pen := by
  simp only [State.seen, State.ticked_eq hw.1]
  rfl

theorem seen_copiesOn : s.seen.s.copiesOn (coreOf s.seen.k) = s.copiesOn (coreOf s.cur) := by
  simp only [State.copiesOn, State.seen, ticked_copies hw]

theorem seen_counterFull (cls : Nat) : s.seen.counterFull cls = decide (255 ≤ w.ctl.counter cls) := by
  rw [Issue.counterFull, seen_c hw.1]
  rfl

end seen

/-- The command that a copy word leaves in flight (R262, R263). -/
def Issue.copyOf (I : Issue) (kind ks : Nat) (gen pen : Bool) (a : Nat) (b : SOp) (id : Nat) : Copy :=
  { id, k := I.k, wordv := copyWordOf kind ks gen pen a b, desc := I.desc a, handle := if pen then (I.op b).toNat else 0
    priv := I.c.priv, stage := 0, seq := 0, left := if kind = 2 then setBits 16 (dCmask (I.desc a)) else [] }

/-- What the claim says of one copy word, of a kind counted in a class. -/
def State.IssuesCopy (s : State) (w : Warp) (kind cls ks : Nat) (gen pen : Bool) (a : Nat) (b : SOp) (i : Instr) : Prop :=
  let bad := s.copyBad kind (blockOf s.cur) ((s.at w).desc a) pen
  (∀ t, bad = some t → s.Traps w i true t) ∧
  (bad = none → 64 ≤ s.copiesOn (coreOf s.cur) → s.Retires i ([], .wait .copies)) ∧
  (bad = none → s.copiesOn (coreOf s.cur) < 64 →
    (255 ≤ w.ctl.counter cls → s.Retires i ([], .wait (.full cls 1))) ∧
    (w.ctl.counter cls < 255 → s.Releases i [fun s' =>
      [.ctl s.cur { s'.ctl s.cur with outs := (s'.ctl s.cur).outs ++ [⟨cls, s'.ids, false⟩] },
        .copies (s'.copies ++ [(s.at w).copyOf kind ks gen pen a b s'.ids]), .ids 1]] .next))

/-- R261 to R263, R268: a word with the meaning of a copy word, in a copy warp. -/
theorem issuesCopy_of_copyCommand {s : State} {w : Warp} {i : Instr} {kind cls ks a : Nat} {gen pen : Bool} {b : SOp}
    (hw : s.Issuing w) (hh : w.ctl.helper = none) (hr : w.ctl.role = 2)
    (hs : ∀ n ∈ span a 8 ++ (if pen then opRegs b else []), n < w.ctl.sbudget)
    (hi : exec i s = copyCommand kind ks gen pen a b s) (hcls : copyClass kind = cls) :
    s.IssuesCopy w kind cls ks gen pen a b i := by
  subst hcls
  have hc := chkC_passes (s := s) hh hr hs
  refine ⟨fun t hbad => hi.trans (issue_traps hw.1 hc.fault ?_), fun hok hfull => hi.trans (issue_retires hw.1 hc.fault ?_),
    fun hok hroom => ⟨fun hcount => hi.trans (issue_retires hw.1 hc.fault ?_),
      fun hcount => releases_of_issue hw hi hc ?_⟩⟩
  all_goals
    dsimp only
    rw [seen_desc hw, seen_copyBad hw]
  · rw [hbad]
  all_goals
    rw [hok]
    dsimp only
    rw [seen_copiesOn hw]
  · rw [if_pos hfull]
  · rw [if_neg (Nat.not_le.mpr hroom), seen_counterFull hw, if_pos (decide_eq_true hcount)]
  · rw [if_neg (Nat.not_le.mpr hroom), seen_counterFull hw, if_neg (by simpa using hcount)]
    simp only [seen_op hw.1, seen_c hw.1]
    rfl

/-- Settles O33: each of the eight words has the meaning of a copy word, of its kind and class. -/
theorem copyWordsIssueCommands : Obligations.CopyWordsIssueCommands := by
  intro s w ks a gen pen b hw hh hr hs d issues
  have hword : ∀ {kind cls : Nat} {i : Instr}, exec i s = copyCommand kind ks gen pen a b s → copyClass kind = cls →
      issues kind cls i := fun hi hcls => issuesCopy_of_copyCommand hw hh hr hs hi hcls
  exact ⟨hword (exec_cpld ..) rfl, hword (exec_cpst ..) rfl, hword (exec_cpmc ..) rfl, hword (exec_cpga ..) rfl,
    hword (exec_cpsc ..) rfl, hword (exec_cpfl ..) rfl, hword (exec_cprm ..) rfl, hword (exec_cppf ..) rfl⟩

end Sys2Proof.Machine
end

section
/-! Skip queues and guard slots (O32): what a push and a pop step leave of a queue, and what the queue words and the guard words
do (11 R272 to R279; 10 R217). -/
namespace Sys2Proof.Machine

/-! Words of shared memory (R1). -/

/-- Bytes apart from those written read as before. -/
theorem Sparse.bytes_setBytes_of_disjoint {m : Sparse 8} {a n off : Nat} {l : List Byte}
    (h : a + n ≤ off ∨ off + l.length ≤ a) : (m.setBytes off l).bytes a n = m.bytes a n := by
  refine List.map_congr_left fun c hc => Sparse.get_setBytes_ne l ?_
  have := mem_span.mp hc
  omega

/-- Bytes written one list after the other. -/
theorem Sparse.setBytes_append (m : Sparse 8) (a : Nat) (l r : List Byte) :
    m.setBytes a (l ++ r) = (m.setBytes a l).setBytes (a + l.length) r := by
  induction l generalizing m a with
  | nil => rfl
  | cons b t ih =>
    rw [List.cons_append, Sparse.setBytes, ih, Sparse.setBytes, List.length_cons, Nat.add_assoc, Nat.add_comm 1]

theorem shWord_setBytes_same {m : Sparse 8} (hm : m.wf = true) (a : Nat) {x : Nat} (hx : x < 2 ^ 32) :
    shWord (m.setBytes a (leBytes 4 x)) a = x := by
  have hb := Sparse.bytes_setBytes hm a (leBytes 4 x)
  rw [leBytes_length] at hb
  rw [shWord, hb, ofBytes_leBytes]
  exact Nat.mod_eq_of_lt hx

theorem shWord_setBytes_of_disjoint {m : Sparse 8} {a off : Nat} {l : List Byte} (h : a + 4 ≤ off ∨ off + l.length ≤ a) :
    shWord (m.setBytes off l) a = shWord m a := by
  rw [shWord, Sparse.bytes_setBytes_of_disjoint h, shWord]

/-- A block's shared memory after a store to it. -/
theorem sh_apply_store (s : State) (b off : Nat) (bytes : List Byte) (who : Option (Nat × Nat)) :
    (apply (.store (.shared b) off bytes who) s).sh b = (s.sh b).setBytes off bytes := by
  simp [apply, applyStore, State.sh]

/-! The header of a queue (R274). -/

theorem qHeader_wellFormed {sh : Sparse 8} {off : Nat} (h : (qHeader sh off).malformed = false) :
    2 ≤ (qHeader sh off).cap ∧ (qHeader sh off).cap ≤ 64 ∧ (qHeader sh off).head < (qHeader sh off).cap ∧
      (qHeader sh off).count ≤ (qHeader sh off).cap := by
  simp only [qHeader, Bool.or_eq_false_iff, decide_eq_false_iff_not] at h ⊢
  obtain ⟨⟨⟨⟨⟨-, hlow⟩, hhigh⟩, hhead⟩, hcount⟩, -⟩ := h
  omega

/-- A header in its form stays so, with the same capacity and epoch, where only its head and its count change, to values that the
capacity admits. -/
theorem qHeader_updated {sh sh' : Sparse 8} {off head count : Nat} (hm : (qHeader sh off).malformed = false)
    (hfirst : shWord sh' off = shWord sh off) (hhead : shWord sh' (off + 4) = head) (hcount : shWord sh' (off + 8) = count)
    (hrest : sh'.bytes (off + 12) 52 = sh.bytes (off + 12) 52) (hlt : head < (qHeader sh off).cap)
    (hle : count ≤ (qHeader sh off).cap) : qHeader sh' off = { qHeader sh off with head, count } := by
  simp only [shWord] at hfirst hhead hcount
  simp only [qHeader, Bool.or_eq_false_iff, decide_eq_false_iff_not] at hm hlt hle ⊢
  obtain ⟨⟨⟨⟨⟨hzero, hlow⟩, hhigh⟩, hhead'⟩, hcount'⟩, -⟩ := hm
  simp [hfirst, hhead, hcount, hrest, hzero, hlow, hhigh, hhead', hcount', Nat.not_le.mpr hlt, Nat.not_lt.mpr hle]

/-- Two entries of a ring, counted from its head, that are fewer than its capacity apart are not one. -/
theorem ring_entry_ne {head i n cap : Nat} (hi : i < n) (hn : n < cap) : (head + i) % cap ≠ (head + n) % cap := by
  intro h
  have hin : i % cap = n % cap := Nat.ModEq.add_left_cancel' head h
  rw [Nat.mod_eq_of_lt hn, Nat.mod_eq_of_lt (hi.trans hn)] at hin
  exact hi.ne hin

section steps
variable {s : State} {b off : Nat} (hinv : s.Inv) (hq : (s.queue b off).malformed = false)

/-- The shared memory after a push step: the handle stands behind the entries there, and the count is one more. -/
theorem sh_pushStep (s : State) (b off h : Nat) (who : Option (Nat × Nat)) : (applyAll (pushStep s b off h who) s).sh b =
    ((s.sh b).setBytes (off + 64 + 4 * (((s.queue b off).head + (s.queue b off).count) % (s.queue b off).cap))
      (leBytes 4 h)).setBytes (off + 8) (leBytes 4 ((s.queue b off).count + 1)) := by
  rw [pushStep, applyAll_cons, applyAll_cons, applyAll_nil, sh_apply_store, sh_apply_store]

/-- The shared memory after a pop step: the head has moved on, and the count is one less. -/
theorem sh_popStep (s : State) (b off : Nat) (who : Option (Nat × Nat)) : (applyAll (popStep s b off who) s).sh b =
    ((s.sh b).setBytes (off + 4) (leBytes 4 (((s.queue b off).head + 1) % (s.queue b off).cap))).setBytes (off + 8)
      (leBytes 4 ((s.queue b off).count - 1)) := by
  rw [popStep, applyAll_cons, applyAll_nil, sh_apply_store, Sparse.setBytes_append, leBytes_length]

include hinv hq

/-- R277: what a push step leaves of the header. -/
theorem queue_pushStep (hroom : (s.queue b off).count < (s.queue b off).cap) (h : Nat) (who : Option (Nat × Nat)) :
    (applyAll (pushStep s b off h who) s).queue b off = { s.queue b off with count := (s.queue b off).count + 1 } := by
  obtain ⟨-, hhigh, hhead, -⟩ := qHeader_wellFormed hq
  simp only [State.queue] at hroom hhigh hhead ⊢
  rw [sh_pushStep]
  refine qHeader_updated hq ?_ ?_ ?_ ?_ hhead hroom
  · rw [shWord_setBytes_of_disjoint (.inl (by omega)), shWord_setBytes_of_disjoint (.inl (by omega))]
  · rw [shWord_setBytes_of_disjoint (.inl (by omega)), shWord_setBytes_of_disjoint (.inl (by omega))]
    rfl
  · exact shWord_setBytes_same (Sparse.setBytes_wf _ _ (State.sh_wf b hinv)) _ (by simp only [State.queue]; omega)
  · rw [Sparse.bytes_setBytes_of_disjoint (.inr (by simp)), Sparse.bytes_setBytes_of_disjoint (.inl (by omega))]

omit hq in
/-- R277: the handle that a push step puts behind the others. -/
theorem entry_pushStep {h : Nat} (hh : h < 2 ^ 32) (who : Option (Nat × Nat)) :
    shWord ((applyAll (pushStep s b off h who) s).sh b)
      (off + 64 + 4 * (((s.queue b off).head + (s.queue b off).count) % (s.queue b off).cap)) = h := by
  rw [sh_pushStep, shWord_setBytes_of_disjoint (.inr (by simp; omega)), shWord_setBytes_same (State.sh_wf b hinv) _ hh]

omit hinv hq in
/-- R277: the entries that stood there stand there still. -/
theorem entries_pushStep (hroom : (s.queue b off).count < (s.queue b off).cap) (h : Nat) (who : Option (Nat × Nat)) {i : Nat}
    (hi : i < (s.queue b off).count) :
    shWord ((applyAll (pushStep s b off h who) s).sh b)
      (off + 64 + 4 * (((s.queue b off).head + i) % (s.queue b off).cap)) =
    shWord (s.sh b) (off + 64 + 4 * (((s.queue b off).head + i) % (s.queue b off).cap)) := by
  have hne := ring_entry_ne (head := (s.queue b off).head) hi hroom
  rw [sh_pushStep, shWord_setBytes_of_disjoint (.inr (by simp; omega)),
    shWord_setBytes_of_disjoint (by rw [leBytes_length]; omega)]

/-- R277: what a pop step leaves of the header. -/
theorem queue_popStep (who : Option (Nat × Nat)) : (applyAll (popStep s b off who) s).queue b off =
    { s.queue b off with head := ((s.queue b off).head + 1) % (s.queue b off).cap, count := (s.queue b off).count - 1 } := by
  obtain ⟨hlow, hhigh, -, hcount⟩ := qHeader_wellFormed hq
  have hlt : ((s.queue b off).head + 1) % (s.queue b off).cap < (s.queue b off).cap :=
    Nat.mod_lt _ (Nat.two_pos.trans_le hlow)
  simp only [State.queue] at hlow hhigh hcount hlt ⊢
  rw [sh_popStep]
  refine qHeader_updated hq ?_ ?_ ?_ ?_ hlt (by omega)
  · rw [shWord_setBytes_of_disjoint (.inl (by omega)), shWord_setBytes_of_disjoint (.inl (by omega))]
  · rw [shWord_setBytes_of_disjoint (.inl (by omega))]
    exact shWord_setBytes_same (State.sh_wf b hinv) _ (by simp only [State.queue]; omega)
  · exact shWord_setBytes_same (Sparse.setBytes_wf _ _ (State.sh_wf b hinv)) _ (by simp only [State.queue]; omega)
  · rw [Sparse.bytes_setBytes_of_disjoint (.inr (by simp)), Sparse.bytes_setBytes_of_disjoint (.inr (by simp))]

omit hinv hq in
/-- R277: a pop step leaves every entry as it was. -/
theorem entries_popStep (s : State) (b off : Nat) (who : Option (Nat × Nat)) (i : Nat) :
    shWord ((applyAll (popStep s b off who) s).sh b) (off + 64 + 4 * i) = shWord (s.sh b) (off + 64 + 4 * i) := by
  rw [sh_popStep, shWord_setBytes_of_disjoint (.inr (by simp; omega)), shWord_setBytes_of_disjoint (.inr (by simp; omega))]

end steps

/-! What a queue step's header check answers (R276, R277). -/

section fault
variable {sh : Sparse 8} {shblk off : Nat} (hm : (qHeader sh off).malformed = false)
  (hin : off + 64 + 4 * (qHeader sh off).cap ≤ shblk)
include hm hin

theorem qFault_none : qFault sh shblk off none = 0 := by
  simp [qFault, hm, Nat.not_lt.mpr hin]

theorem qFault_own {h : Nat} (he : h / 2 ^ 24 % 256 = (qHeader sh off).epoch) : qFault sh shblk off (some h) = 0 := by
  simp [qFault, hm, Nat.not_lt.mpr hin, bits, ← he]

theorem qFault_foreign {h : Nat} (he : h / 2 ^ 24 % 256 ≠ (qHeader sh off).epoch) : qFault sh shblk off (some h) = 0x0C := by
  simp only [qFault, hm, Bool.false_eq_true, if_false, if_neg (Nat.not_lt.mpr hin)]
  exact if_neg he

end fault

/-! The queue words (R276 to R279). -/

theorem exec_qinit (e : Nat) (a b : SOp) (s : State) : exec (.qinit e a b) s = execQinit e a b s := rfl
theorem exec_qpush (a b : SOp) (s : State) : exec (.qpush a b) s = execQpush a b s := rfl
theorem exec_qpop (d : Nat) (a : SOp) (s : State) : exec (.qpop d a) s = execQpop d a s := rfl
theorem exec_qtrypush (d : Nat) (a b : SOp) (s : State) : exec (.qtrypush d a b) s = execQtrypush d a b s := rfl
theorem exec_qtrypop (d : Nat) (a : SOp) (s : State) : exec (.qtrypop d a) s = execQtrypop d a s := rfl
theorem exec_gset (n : Nat) (b : SOp) (s : State) : exec (.gset n b) s = execGset n b s := rfl
theorem exec_gclr (n : Nat) (s : State) : exec (.gclr n) s = execGclr n s := rfl

/-- The checks of a queue word: one that waits is illegal in a helper (R311). -/
def chkQueue (helper : Bool) (ss : List Nat) : Chk := { cls := .a, once := true, helper, ss }

theorem chkQueue_passes {s : State} {w : Warp} {helper : Bool} {ss : List Nat} (hh : helper = false → w.ctl.helper = none)
    (hs : ∀ n ∈ ss, n < w.ctl.sbudget) : (chkQueue helper ss).Passes (s.at w) := by
  cases helper with
  | false => exact chkOfWarp_passes (hh rfl) hs
  | true => exact chkA_passes rfl rfl rfl rfl rfl rfl rfl hs

/-- The state in which a queue word finds its queue: the marks of its slices clear, and its warp's earlier stores visible. -/
def State.visible (s : State) : State := applyAll (drainAll s.ticked s.cur) s.ticked

/-- The context that issues, as the meaning sees it. -/
theorem seen_k (s : State) : s.seen.k = s.cur := rfl

section queueWord
variable {s : State} {w : Warp} {i : Instr} {helper rel : Bool} {ss : List Nat} {a : SOp}
  {push : Issue → State → Option Nat} {step : Issue → Nat → State → List Effect × Flow}
  (hw : s.Issuing w) (hh : helper = false → w.ctl.helper = none) (hs : ∀ n ∈ ss ++ opRegs a, n < w.ctl.sbudget)
  (hi : exec i s = queueWord helper ss a rel push step s) (h64 : ((s.at w).op a).toNat % 64 = 0)
  (hin : ((s.at w).op a).toNat + 64 ≤ (s.blk (blockOf s.cur)).img.shblk) (hrel : s.released)
include hw hh hs hi h64 hin hrel

/-- R276: past the checks of its offset, a queue word makes its earlier stores visible; then its header is misused, which traps,
or passes, and the word does its step. -/
theorem queueWord_outcomes :
    let fault := qFault (s.visible.sh (blockOf s.cur)) (s.blk (blockOf s.cur)).img.shblk ((s.at w).op a).toNat
      (push s.seen s.visible)
    (fault = 0x0C → s.Traps w i true { code := 0x0C, addr := apertureAddr (blockOf s.cur) ((s.at w).op a).toNat }) ∧
    (fault = 0 → ∀ r, step s.seen ((s.at w).op a).toNat s.visible = r →
      s.Retires i (drainAll s.ticked s.cur ++ r.1, r.2)) := by
  obtain ⟨hback, hdrain : s.seen.s.drainable s.seen.k = true⟩ := hrel
  have hvisible : applyAll (drainAll s.seen.s s.cur) s.seen.s = s.visible := rfl
  have hc := (chkQueue_passes (s := s) hh hs).fault
  refine ⟨fun hf => hi.trans (issue_traps hw.1 hc ?_), fun hf r hr => hi.trans (issue_retires hw.1 hc ?_)⟩
  all_goals
    dsimp only
    rw [seen_op hw.1, if_neg (not_not.mpr h64), seen_shblk hw.1, if_neg (Nat.not_lt.mpr hin), if_neg (by simp [hback]),
      if_neg (by simp [hdrain]), seen_k, hvisible, hf]
  · rfl
  · rw [← hr]
    rfl

end queueWord

theorem pushRoom_iff (s : State) (b off : Nat) : s.pushRoom b off = true ↔
    (s.queue b off).count < (s.queue b off).cap ∧ s.firstInLine b off s.ids true = true := by
  simp [State.pushRoom]

/-- Whether a queue holds a handle for a pop and no pop waits there (R278, R279). -/
def State.popReady (s : State) (b off : Nat) : Bool :=
  decide (0 < (s.queue b off).count) && s.firstInLine b off s.ids false

theorem popReady_iff (s : State) (b off : Nat) : s.popReady b off = true ↔
    0 < (s.queue b off).count ∧ s.firstInLine b off s.ids false = true := by
  simp [State.popReady]

/-! The registers that the words name. -/

theorem qpush_regs (d : Nat) (a b : SOp) : opRegs b ++ opRegs a ⊆ [d, d + 1] ++ opRegs a ++ opRegs b := by
  intro n
  simp only [List.mem_append]
  tauto

theorem qtrypush_regs (d : Nat) (a b : SOp) : d :: opRegs b ++ opRegs a ⊆ [d, d + 1] ++ opRegs a ++ opRegs b := by
  intro n
  simp only [List.mem_append, List.mem_cons]
  tauto

theorem qpop_regs (d : Nat) (a b : SOp) : [d] ++ opRegs a ⊆ [d, d + 1] ++ opRegs a ++ opRegs b := by
  intro n
  simp only [List.mem_append, List.mem_cons]
  tauto

section words
variable {s : State} {w : Warp} {d : Nat} {a b : SOp} (hw : s.Issuing w)
  (hs : ∀ n ∈ [d, d + 1] ++ opRegs a ++ opRegs b, n < w.ctl.sbudget) (h64 : ((s.at w).op a).toNat % 64 = 0)
  (hin : ((s.at w).op a).toNat + 64 ≤ (s.blk (blockOf s.cur)).img.shblk)
include hw hs h64 hin

/-- R276: QINIT puts the header in the warp's store queue. -/
theorem qinit_retires (e : Nat) (h2 : 2 ≤ ((s.at w).op b).toNat) (hle : ((s.at w).op b).toNat ≤ 64) :
    s.Retires (.qinit e a b) (s.seen.enqueue [{ sp := .shared (blockOf s.cur), off := ((s.at w).op a).toNat
                                                bytes := leBytes 64 (((s.at w).op b).toNat + e * 2 ^ 24)
                                                sl := lowest 8 s.slices, epoch := s.ticked.epochOf s.cur }] s.ticked, .next) := by
  have hb : ∀ n ∈ opRegs a ++ opRegs b, n < w.ctl.sbudget := fun n hn => hs n (by simp_all)
  refine (exec_qinit e a b s).trans (issue_retires hw.1 (chkA_passes_of_budget hb).fault ?_)
  dsimp only
  rw [seen_op hw.1, seen_op hw.1, if_neg (not_not.mpr h64), seen_shblk hw.1, if_neg (Nat.not_lt.mpr hin),
    if_neg (by simp; omega)]
  rfl

variable (hrel : s.released) (hq : (s.visible.queue (blockOf s.cur) ((s.at w).op a).toNat).malformed = false)
  (hcap : ((s.at w).op a).toNat + 64 + 4 * (s.visible.queue (blockOf s.cur) ((s.at w).op a).toNat).cap ≤
    (s.blk (blockOf s.cur)).img.shblk)
include hrel hq hcap

section qpush
variable (hh : w.ctl.helper = none)
include hh

/-- R277: a handle of another epoch is misuse, whatever room there is (the model's choice: log entry 89). -/
theorem qpush_misuses
    (hother : ((s.at w).op b).toNat / 2 ^ 24 % 256 ≠ (s.visible.queue (blockOf s.cur) ((s.at w).op a).toNat).epoch) :
    s.Traps w (.qpush a b) true { code := 0x0C, addr := apertureAddr (blockOf s.cur) ((s.at w).op a).toNat } := by
  refine (queueWord_outcomes hw (fun _ => hh) (fun n hn => hs n (qpush_regs d a b hn)) (exec_qpush a b s) h64 hin hrel).1 ?_
  rw [seen_op hw.1]
  exact qFault_foreign hq hcap hother

variable (hown : ((s.at w).op b).toNat / 2 ^ 24 % 256 = (s.visible.queue (blockOf s.cur) ((s.at w).op a).toNat).epoch)
include hown

/-- R277: QPUSH where there is room and no earlier push waits. -/
theorem qpush_pushes (hroom : s.visible.pushRoom (blockOf s.cur) ((s.at w).op a).toNat = true) : s.Retires (.qpush a b)
    (drainAll s.ticked s.cur ++ pushStep s.visible (blockOf s.cur) ((s.at w).op a).toNat ((s.at w).op b).toNat
      (some (s.cur, lowest 8 s.slices)), .next) := by
  refine (queueWord_outcomes hw (fun _ => hh) (fun n hn => hs n (qpush_regs d a b hn)) (exec_qpush a b s) h64 hin hrel).2 ?_
    (_, _) ?_
  · rw [seen_op hw.1]
    exact qFault_own hq hcap hown
  · rw [seen_op hw.1]
    exact if_pos hroom

/-- R278: QPUSH joins the line of pushes where there is no room or an earlier push waits. -/
theorem qpush_waits (hroom : ¬s.visible.pushRoom (blockOf s.cur) ((s.at w).op a).toNat = true) : s.Retires (.qpush a b)
    (drainAll s.ticked s.cur ++ [.ids 1],
      .wait (.push ((s.at w).op a).toNat ((s.at w).op b).toNat s.visible.ids 0)) := by
  refine (queueWord_outcomes hw (fun _ => hh) (fun n hn => hs n (qpush_regs d a b hn)) (exec_qpush a b s) h64 hin hrel).2 ?_
    (_, _) ?_
  · rw [seen_op hw.1]
    exact qFault_own hq hcap hown
  · rw [seen_op hw.1]
    exact if_neg hroom

end qpush

/-- R279: the handle of QTRYPUSH is checked only where it would be pushed. -/
theorem qtrypush_misuses (hroom : s.visible.pushRoom (blockOf s.cur) ((s.at w).op a).toNat = true)
    (hother : ((s.at w).op b).toNat / 2 ^ 24 % 256 ≠ (s.visible.queue (blockOf s.cur) ((s.at w).op a).toNat).epoch) :
    s.Traps w (.qtrypush d a b) true { code := 0x0C, addr := apertureAddr (blockOf s.cur) ((s.at w).op a).toNat } := by
  refine (queueWord_outcomes (helper := true) hw (by simp) (fun n hn => hs n (qtrypush_regs d a b hn))
    (exec_qtrypush d a b s) h64 hin hrel).1 ?_
  rw [seen_op hw.1, seen_op hw.1, seen_k, if_pos hroom]
  exact qFault_foreign hq hcap hother

theorem qtrypush_pushes (hroom : s.visible.pushRoom (blockOf s.cur) ((s.at w).op a).toNat = true)
    (hown : ((s.at w).op b).toNat / 2 ^ 24 % 256 = (s.visible.queue (blockOf s.cur) ((s.at w).op a).toNat).epoch) :
    s.Retires (.qtrypush d a b) (drainAll s.ticked s.cur ++ (pushStep s.visible (blockOf s.cur) ((s.at w).op a).toNat
      ((s.at w).op b).toNat (some (s.cur, lowest 8 s.slices)) ++ [.sreg s.cur d 1]), .next) := by
  refine (queueWord_outcomes (helper := true) hw (by simp) (fun n hn => hs n (qtrypush_regs d a b hn))
    (exec_qtrypush d a b s) h64 hin hrel).2 ?_ (_, _) ?_
  · rw [seen_op hw.1, seen_op hw.1, seen_k, if_pos hroom]
    exact qFault_own hq hcap hown
  · rw [seen_op hw.1]
    exact if_pos hroom

theorem qtrypush_fails (hroom : ¬s.visible.pushRoom (blockOf s.cur) ((s.at w).op a).toNat = true) :
    s.Retires (.qtrypush d a b) (drainAll s.ticked s.cur ++ [.sreg s.cur d 0], .next) := by
  refine (queueWord_outcomes (helper := true) hw (by simp) (fun n hn => hs n (qtrypush_regs d a b hn))
    (exec_qtrypush d a b s) h64 hin hrel).2 ?_ (_, _) ?_
  · rw [seen_op hw.1, seen_op hw.1, seen_k, if_neg hroom]
    exact qFault_none hq hcap
  · exact if_neg hroom

/-- R277: QPOP where there is a handle and no earlier pop waits. -/
theorem qpop_pops (hh : w.ctl.helper = none) (hready : s.visible.popReady (blockOf s.cur) ((s.at w).op a).toNat = true) :
    s.Retires (.qpop d a) (drainAll s.ticked s.cur ++ (popStep s.visible (blockOf s.cur) ((s.at w).op a).toNat
      (some (s.cur, lowest 8 s.slices)) ++
        [.sreg s.cur d (word (s.visible.headHandle (blockOf s.cur) ((s.at w).op a).toNat))]), .next) :=
  (queueWord_outcomes hw (fun _ => hh) (fun n hn => hs n (qpop_regs d a b hn)) (exec_qpop d a s) h64 hin hrel).2
    (qFault_none hq hcap) (_, _) (if_pos hready)

/-- R278: QPOP joins the line of pops where there is no handle or an earlier pop waits. -/
theorem qpop_waits (hh : w.ctl.helper = none) (hready : ¬s.visible.popReady (blockOf s.cur) ((s.at w).op a).toNat = true) :
    s.Retires (.qpop d a) (drainAll s.ticked s.cur ++ [.ids 1], .wait (.pop ((s.at w).op a).toNat d s.visible.ids 0)) :=
  (queueWord_outcomes hw (fun _ => hh) (fun n hn => hs n (qpop_regs d a b hn)) (exec_qpop d a s) h64 hin hrel).2
    (qFault_none hq hcap) (_, _) (if_neg hready)

theorem qtrypop_pops (hready : s.visible.popReady (blockOf s.cur) ((s.at w).op a).toNat = true) :
    s.Retires (.qtrypop d a) (drainAll s.ticked s.cur ++ (popStep s.visible (blockOf s.cur) ((s.at w).op a).toNat
      (some (s.cur, lowest 8 s.slices)) ++
        [.sreg s.cur d (word (s.visible.headHandle (blockOf s.cur) ((s.at w).op a).toNat)), .sreg s.cur (d + 1) 1]), .next) :=
  (queueWord_outcomes (helper := true) hw (by simp) (fun n hn => hs n (List.mem_append_left _ hn))
    (exec_qtrypop d a s) h64 hin hrel).2 (qFault_none hq hcap) (_, _) (if_pos hready)

theorem qtrypop_fails (hready : ¬s.visible.popReady (blockOf s.cur) ((s.at w).op a).toNat = true) :
    s.Retires (.qtrypop d a) (drainAll s.ticked s.cur ++ [.sreg s.cur d 0, .sreg s.cur (d + 1) 0], .next) :=
  (queueWord_outcomes (helper := true) hw (by simp) (fun n hn => hs n (List.mem_append_left _ hn))
    (exec_qtrypop d a s) h64 hin hrel).2 (qFault_none hq hcap) (_, _) (if_neg hready)

end words

/-! The guard words (R272, R273). -/

theorem seen_setGuard {s : State} {w : Warp} (hw : s.Issuing w) (n : Nat) (v : Option Bool) :
    setGuard n v s.seen = [.block (blockOf s.cur) { s.blk (blockOf s.cur) with
      guards := ((List.range 16).map fun i => (s.blk (blockOf s.cur)).guards.getD i none).set n v }] := by
  rw [setGuard, seen_blk hw.1]
  rfl

/-- R273: GSET releases, then writes its slot. -/
theorem gset_releases {s : State} {w : Warp} (hw : s.Issuing w) (n : Nat) {b : SOp} (hs : ∀ n ∈ opRegs b, n < w.ctl.sbudget) :
    s.Releases (.gset n b) [fun _ => [.block (blockOf s.cur) { s.blk (blockOf s.cur) with
      guards := ((List.range 16).map fun i => (s.blk (blockOf s.cur)).guards.getD i none).set n
        (some (decide ((s.at w).op b ≠ 0))) }]] .next := by
  refine releases_of_issue hw (exec_gset n b s) (chkA_passes_of_budget hs) ?_
  dsimp only
  rw [seen_op hw.1, seen_setGuard hw]

theorem gclr_retires {s : State} {w : Warp} (hw : s.Issuing w) (n : Nat) :
    s.Retires (.gclr n) ([.block (blockOf s.cur) { s.blk (blockOf s.cur) with
      guards := ((List.range 16).map fun i => (s.blk (blockOf s.cur)).guards.getD i none).set n none }], .next) := by
  refine (exec_gclr n s).trans (issue_retires hw.1 (chkA_passes_of_budget (ss := []) (by simp)).fault ?_)
  dsimp only
  rw [seen_setGuard hw]

/-- Settles O32: the words by what they do once their earlier stores are visible, the steps by what they leave of the header and
of the entries. -/
theorem queueAndGuardWords : Obligations.QueueAndGuardWords := by
  constructor
  case right =>
    intro s b off h hinv hh q hq
    exact ⟨fun hroom => ⟨queue_pushStep hinv hq hroom h none, entry_pushStep hinv hh none,
      fun i hi => entries_pushStep hroom h none hi⟩,
      fun _ => ⟨queue_popStep hinv hq none, fun i _ => entries_popStep s b off none i⟩⟩
  intro s w d e n a b hw hs I off h k shblk pre u q who
  refine ⟨fun h64 hin h2 hle => qinit_retires hw hs h64 hin e h2 hle, fun h64 hin hrel hq hcap => ?_, fun _ => ?_⟩
  · intro room entry
    have hroom : room ↔ u.pushRoom k off = true := (pushRoom_iff u k off).symm
    have hentry : entry ↔ u.popReady k off = true := (popReady_iff u k off).symm
    rw [hroom, hentry]
    exact ⟨fun hown => ⟨fun hr hh => qpush_pushes hw hs h64 hin hrel hq hcap hh hown hr,
        fun hr hh => qpush_waits hw hs h64 hin hrel hq hcap hh hown hr,
        fun hr => qtrypush_pushes hw hs h64 hin hrel hq hcap hr hown⟩,
      fun hother => ⟨fun hh => qpush_misuses hw hs h64 hin hrel hq hcap hh hother,
        fun hr => qtrypush_misuses hw hs h64 hin hrel hq hcap hr hother⟩,
      qtrypush_fails hw hs h64 hin hrel hq hcap, fun he hh => qpop_pops hw hs h64 hin hrel hq hcap hh he,
      fun he hh => qpop_waits hw hs h64 hin hrel hq hcap hh he, qtrypop_pops hw hs h64 hin hrel hq hcap,
      qtrypop_fails hw hs h64 hin hrel hq hcap⟩
  · exact ⟨gset_releases hw n fun n hn => hs n (by simp_all), gclr_retires hw n⟩

end Sys2Proof.Machine
end

section
/-! The steps of copy commands, meters and matrix operations (O54): what each of them commits under its condition (11 R261, R265
to R273, R283; 12 R293 to R297). -/
namespace Sys2Proof.Machine

theorem exec_copyStart (n : Nat) (s : State) : exec (.copyStart n) s = execCopyStart n s := rfl
theorem exec_pushOnLand (n : Nat) (s : State) : exec (.pushOnLand n) s = execPushOnLand n s := rfl
theorem exec_copyComplete (n : Nat) (s : State) : exec (.copyComplete n) s = execCopyComplete n s := rfl
theorem exec_meterPeriod (die ctx rcb : Nat) (s : State) : exec (.meterPeriod die ctx rcb) s = execMeterPeriod die ctx rcb s := rfl
theorem exec_mmaStart (n : Nat) (s : State) : exec (.mmaStart n) s = execMmaStart n s := rfl
theorem exec_mmaComplete (n : Nat) (s : State) : exec (.mmaComplete n) s = execMmaComplete n s := rfl
theorem exec_mmaReplay (n : Nat) (s : State) : exec (.mmaReplay n) s = execMmaReplay n s := rfl
theorem exec_mrelPush (n : Nat) (s : State) : exec (.mrelPush n) s = execMrelPush n s := rfl

/-! The start of a copy command (R261, R273, R283). -/

/-- The value of a command's guard: true where it has none, else the first value it is found to have (R273). -/
def State.guardOf (s : State) (c : Copy) : Option Bool :=
  match copyGuard c.wordv with
  | none => some true
  | some g => c.gate.or ((s.blk (blockOf c.k)).guards.getD g none)

theorem copyBegin_eq (c : Copy) (s : State) : copyBegin c s =
    match s.guardOf c with
    | none => []
    | some false => [setCopy s { c with stage := 5, gate := s.guardOf c }]
    | some true =>
      if !s.meterOk 0 (dieOf c.k) (s.blk (blockOf c.k)).ctx (s.blk (blockOf c.k)).path
      then (if c.gate = s.guardOf c then [] else [setCopy s { c with gate := s.guardOf c }])
      else
        [.dist (s.charge 0 (dieOf c.k) (s.blk (blockOf c.k)).ctx (dDim2 c.desc * dDim1 c.desc * rowBytes c.desc)
            (s.blk (blockOf c.k)).path),
          setCopy s { c with stage := 6, gate := s.guardOf c
                             idx := if copyKind c.wordv = 3 || copyKind c.wordv = 4
                                    then s.indices (blockOf c.k) c.desc else [] }] :=
  rfl

section copyBegin
variable {s : State} {c : Copy}

/-- R273: a command whose guard has no value yet waits for one. -/
theorem copyBegin_unset (hg : s.guardOf c = none) : copyBegin c s = [] := by
  rw [copyBegin_eq, hg]

/-- R273: a command whose guard is false is discarded. -/
theorem copyBegin_false (hg : s.guardOf c = some false) :
    copyBegin c s = [setCopy s { c with stage := 5, gate := s.guardOf c }] := by
  rw [copyBegin_eq, hg]

/-- R267, R283: a command whose guard is true and whose meters allow is charged, and reads its indices. -/
theorem copyBegin_true (hg : s.guardOf c = some true)
    (hm : s.meterOk 0 (dieOf c.k) (s.blk (blockOf c.k)).ctx (s.blk (blockOf c.k)).path = true) : copyBegin c s =
      [.dist (s.charge 0 (dieOf c.k) (s.blk (blockOf c.k)).ctx (dDim2 c.desc * dDim1 c.desc * rowBytes c.desc)
          (s.blk (blockOf c.k)).path),
        setCopy s { c with stage := 6, gate := s.guardOf c
                           idx := if copyKind c.wordv = 3 ∨ copyKind c.wordv = 4
                                  then s.indices (blockOf c.k) c.desc else [] }] := by
  rw [copyBegin_eq, hg]
  dsimp only
  rw [hm, if_neg (by simp)]
  simp only [Bool.or_eq_true, decide_eq_true_eq]

end copyBegin

/-- R265 to R269: what a command's accesses do where every one of them passes its checks, none reads a poisoned sector and no
source waits: that it reads all its bytes at one moment is the model's choice (log entry 89). -/
theorem copyMove_moves {s : State} {c : Copy} {ps : List Piece} {es : List Effect} {qs : List (List Piece × List Effect)}
    (hk : copyKind c.wordv ≠ 6) (hsrc : s.engineSide c (blockOf c.k) false 0 c.srcRanges = .ok (ps, es))
    (hdst : ((s.copyDests c).mapM fun y => s.engineSide c y.1 true 4096 (c.dstRanges y.2)) = .ok qs)
    (hclean : copyKind c.wordv ≠ 7 → ∀ p ∈ ps, s.spoiledAt p = none) (hready : ∀ p ∈ ps, s.sourceWaits p = false) :
    copyMove c s = es ++ qs.flatMap Prod.snd ++ [setCopy s { c with
      stage := 1, lands := qs.flatMap fun q => dealUnits (q.1.map fun y => (y.p, y.n)) (arrange c.desc
        (if copyKind c.wordv = 5 then fillBytes c.desc else ps.flatMap fun y => s.engineRead (y.p, y.n))) }] := by
  have hspoil : (if copyKind c.wordv = 7 then none else ps.findSome? s.spoiledAt) = none := by
    split
    · rfl
    · exact List.findSome?_eq_none_iff.mpr (hclean ‹_›)
  have hwait : ps.any s.sourceWaits = false := by simpa using hready
  unfold copyMove
  dsimp only
  rw [hsrc]
  dsimp only
  rw [hdst]
  dsimp only
  rw [hspoil]
  dsimp only
  rw [hwait, if_neg (by simp), if_neg hk]

section copy
variable {s : State} {n : Nat} {c : Copy} (hc : (s.copies.find? fun c => c.id == n) = some c)
include hc

/-- R261: a command at the head of its engine queue, of a domain that is not frozen, begins. -/
theorem copyStart_begins (h0 : c.stage = 0) (hb : ∀ y ∈ s.before c, y.stage ≠ 0) (hf : s.frozenAt c.k = false) :
    s.Commits (.copyStart n) (copyBegin c s) := by
  rw [State.Commits, exec_copyStart, execCopyStart, hc]
  dsimp only
  rw [if_neg (by simp [h0]), if_neg (by simp [h0]), if_neg (by simp [h0]), if_neg (by simpa [h0, hf] using hb)]
  rfl

/-- R265: a command that has begun makes its accesses. -/
theorem copyStart_moves (h6 : c.stage = 6) : s.Commits (.copyStart n) (copyMove c s) := by
  rw [State.Commits, exec_copyStart, execCopyStart, hc]
  dsimp only
  rw [if_neg (by simp [h6]), if_pos h6]
  rfl

theorem copyStart_sends (h1 : c.stage = 1) : s.Commits (.copyStart n) (copySend c s) := by
  rw [State.Commits, exec_copyStart, execCopyStart, hc]
  dsimp only
  rw [if_neg (by simp [h1]), if_neg (by simp [h1]), if_pos h1]
  rfl

/-- R271: a command stopped at a first-touch page makes its accesses again once the handler has returned (log entry 27). -/
theorem copyStart_resumes (h3 : c.stage = 3) (hp : (s.ctl c.k).priv = false) (ht : (s.ctl c.k).trap = none)
    (hd : ∀ y ∈ (s.ctl c.k).slices, ∀ t ∈ y.defer, t.copyOp = false) : s.Commits (.copyStart n) (copyMove c s) := by
  have hback : ((s.ctl c.k).priv || (s.ctl c.k).trap.isSome ||
      (s.ctl c.k).slices.any fun y => y.defer.any Trap.copyOp) = false := by simpa [hp, ht] using hd
  rw [State.Commits, exec_copyStart, execCopyStart, hc]
  dsimp only
  rw [if_pos h3, hback]
  rfl

end copy

/-! The end of a copy command (R269, R270). -/

/-- What the claim says of a step that ends a command's writes: those that remain take place, then the rest follows; where some must
wait, their pages are pinned and nothing follows. -/
def State.EndsWrites (s : State) (c : Copy) (i : Instr) (rest : List (State → List Effect)) : Prop :=
  (s.heldUnits c = [] → s.Commits i (chain s (c.lands.map (landUnit (s.epochOf c.k)) ++
    onCopy c.id (fun y => { y with lands := [] }) :: rest))) ∧
  (s.heldUnits c ≠ [] → s.Commits i (chain s (((s.heldUnits c).filter fun y => y.1 == .phys).map fun y => fun s =>
    pinPage s y.2.1 (s.epochOf c.k))))

theorem endsWrites_of_finishLanding {s : State} {c : Copy} {i : Instr} {rest : List (State → List Effect)}
    (hi : exec i s = commit s (finishLanding c rest s)) : s.EndsWrites c i rest := by
  refine ⟨fun h => hi.trans ?_, fun h => hi.trans ?_⟩
  · rw [finishLanding]
    simp only [h, List.isEmpty_nil, if_true]
    rfl
  · rw [finishLanding]
    simp only [List.isEmpty_iff, h, if_false]
    rfl

/-- The push of a command whose writes have taken place (R270): it is made, or the command stands in the line of pushes. -/
def pushOrWait (c : Copy) (s : State) : List Effect :=
  match landPush c (s.pushBlock c) s with
  | none => if c.stage = 2 then [] else [setCopy s { c with lands := [], stage := 2, seq := s.ids }, .ids 1]
  | some es => es ++ [setCopy s { c with
      lands := [], left := c.left.drop 1, stage := if (c.left.drop 1).isEmpty then 4 else 1 }]

section landed
variable {s : State} {n : Nat} {c : Copy} (hc : (s.copies.find? fun c => c.id == n) = some c) (hl : s.landed c = true)
include hc hl

theorem pushOnLand_endsWrites (hp : copyPen c.wordv = true) (hst : c.stage = 1 ∨ c.stage = 2) (ht : s.turnOf c = true) :
    s.EndsWrites c (.pushOnLand n) [pushOrWait c] := by
  refine endsWrites_of_finishLanding ?_
  rw [exec_pushOnLand, execPushOnLand, hc]
  dsimp only
  rw [if_neg (by simp [hp, hl, ht]; omega)]
  rfl

theorem copyComplete_endsWrites (hst : c.stage = 4 ∨ c.stage = 5 ∨ (c.stage = 1 ∧ copyPen c.wordv = false))
    (ht : dBen c.desc = true → s.turnOf c = true) : s.EndsWrites c (.copyComplete n) (copyDone c) := by
  have hstage : (c.stage == 4 || c.stage == 5 || (c.stage == 1 && !copyPen c.wordv)) = true := by
    simpa [or_assoc] using hst
  have hturn : (dBen c.desc && !s.turnOf c) = false := by simpa using ht
  refine endsWrites_of_finishLanding ?_
  rw [exec_copyComplete, execCopyComplete, hc]
  dsimp only
  rw [hstage, hl, hturn, if_neg (by simp)]

end landed

/-- A command with no barrier only leaves its counter. -/
theorem copyDone_plain {c : Copy} (h : dBen c.desc = false) : copyDone c = [fun _ => [], fun s => dropCopy s c] := by
  simp only [copyDone, h, Bool.false_eq_true, if_false, List.map_nil, chain]

/-- R269: a command with a barrier arrives on it in each of its destinations first. -/
theorem copyDone_arrives {c : Copy} (h : dBen c.desc = true) : copyDone c =
    [fun s => chain s ((s.copyDests c).map fun y => engineArrive c.k y.1 (dBoff c.desc) 2
      (copyExt c (apertureAddr y.1 (dBoff c.desc)) 0x0C 2)), fun s => dropCopy s c] := by
  simp only [copyDone, h, if_true]

/-! Matrix operations (R293 to R297). -/

/-- What R293 asks of an operation that is about to start, as the meanings test it: those before it in its chain run, and the array
has room. -/
theorem startHeld_iff (s : State) (x : Mat) :
    ((s.chainBefore x).any (fun m => !m.started || m.suspended) || decide (4 ≤ (s.arrayHeld (coreOf x.k)).length)) = false ↔
      (∀ m ∈ s.chainBefore x, m.started = true ∧ m.suspended = false) ∧ (s.arrayHeld (coreOf x.k)).length < 4 := by
  simp

theorem mmaComplete_event {s : State} {n : Nat} {x : Mat}
    (hx : (s.mats.find? fun m => m.id == n && m.kind != 2 && m.started && !m.suspended) = some x) :
    s.Event (.mmaComplete n) (s.chainBefore x = []) (chain s [
      fun _ => writeTile (blockOf x.k) x.tile (if x.failed then x.shadow else x.result)
        (if x.failed then span 0 4096 else x.poisonOut),
      fun s => dropMat s x]) := by
  refine State.event_of_guard (c := (!(s.chainBefore x).isEmpty) = true) (by simp) ?_
  rw [exec_mmaComplete, execMmaComplete, hx]

section replay
variable {s : State} {n : Nat} {x : Mat}
  (hx : (s.mats.find? fun m => m.id == n && m.kind != 2 && !m.failed && !m.suspended) = some x)
include hx

/-- R293, R294: at the first error the operation runs again, its tile restored. -/
theorem mmaReplay_replays (hs : x.started = true) (hr : x.replayed = false) : s.Commits (.mmaReplay n)
    ((if (s.chainBefore x).isEmpty then writeTile (blockOf x.k) x.tile x.shadow x.shadowPoison else []) ++
      [setMat s { x with replayed := true }]) := by
  rw [State.Commits, exec_mmaReplay, execMmaReplay, hx]
  dsimp only
  rw [if_neg (by simp [hs]), if_pos (by simp [hr])]
  rfl

/-- R296: at the second error it fails. -/
theorem mmaReplay_fails (hs : x.started = true) (hr : x.replayed = true) : s.Commits (.mmaReplay n) (failMat x s) := by
  rw [State.Commits, exec_mmaReplay, execMmaReplay, hx]
  dsimp only
  rw [if_neg (by simp [hs]), if_neg (by simp [hr])]
  rfl

/-- R296: an operation whose capture errs twice starts as a failed one. -/
theorem mmaReplay_failsUnstarted (hs : x.started = false) (hb : ∀ m ∈ s.chainBefore x, m.started = true ∧ m.suspended = false)
    (ha : (s.arrayHeld (coreOf x.k)).length < 4) : s.Commits (.mmaReplay n) (chain s [
      fun s' => [setMat s' { x.begin s with result := (x.begin s).shadow }],
      failMat { x.begin s with result := (x.begin s).shadow }]) := by
  rw [State.Commits, exec_mmaReplay, execMmaReplay, hx]
  dsimp only
  rw [if_pos (by simp [hs]), (startHeld_iff s x).mpr ⟨hb, ha⟩, if_neg (by simp)]
  rfl

end replay

/-- The elements of a tile as they stand (R293). -/
def State.tileNow (s : State) (b t : Nat) : Sparse 32 :=
  (span 0 4096).filterMap fun i =>
    let v := (s.acc b).get (4096 * t + i)
    if v = 0 then none else some (i, v)

/-- The registers of an operand of an operation as they stand, register by register (R287). -/
def Mat.operand (x : Mat) (s : State) (f ty : Nat) : List Word :=
  (span 0 (operandRegs (x.kind == 1) ty)).flatMap fun r => (span 0 32).map fun l => s.readV x.k (f + r) l

/-- R293: the first operation of a chain starts from the tile as it stands, where no element of it is poisoned and no other warp's
write to it is in flight. -/
theorem begin_first {s : State} {x : Mat} (hb : s.chainBefore x = [])
    (hp : ∀ i, i < 4096 → (blockOf x.k, 4096 * x.tile + i) ∉ s.tilePoison)
    (hw : ∀ p ∈ s.tileWrites x.k (blockOf x.k) false, p.1 / 4096 ≠ x.tile) :
    x.begin s = { x with started := true, opA := x.operand s x.a x.ty, opB := x.operand s x.b x.bt
                         shadow := s.tileNow (blockOf x.k) x.tile, shadowPoison := [] } := by
  have hracing : ((s.tileWrites x.k (blockOf x.k) false).filter fun p => p.1 / 4096 == x.tile) = [] := by
    simpa [List.filter_eq_nil_iff] using hw
  have hpoison : ((span 0 4096).filter fun i => s.tilePoison.contains (blockOf x.k, 4096 * x.tile + i)) = [] := by
    rw [List.filter_eq_nil_iff]
    intro i hi
    have := hp i (by simpa using (mem_span.mp hi).2)
    simpa using this
  simp only [Mat.begin, hb, hracing, hpoison, List.getLast?_nil, Option.map_none, Option.getD_none, List.isEmpty_nil, if_true,
    List.any_nil, Bool.or_false]
  rfl

section start
variable {s : State} {n : Nat} {x : Mat}
  (hx : (s.mats.find? fun m => m.id == n && m.kind != 2 && (!m.started || m.suspended)) = some x)
  (ha : (s.arrayHeld (coreOf x.k)).length < 4)
include hx ha

/-- R295: a suspended operation runs again. -/
theorem mmaStart_restarts (hb : ∀ m ∈ s.chainBefore x, m.started = true ∧ m.suspended = false) (hs : x.suspended = true) :
    s.Commits (.mmaStart n) [setMat s { x with suspended := false }] := by
  rw [State.Commits, exec_mmaStart, execMmaStart, hx]
  dsimp only
  rw [(startHeld_iff s x).mpr ⟨hb, ha⟩, if_neg (by simp), if_pos hs]
  rfl

/-- R293: the first operation of a chain captures its operands and its tile, and computes. -/
theorem mmaStart_starts (hs : x.suspended = false) (hb : s.chainBefore x = [])
    (hp : ∀ i, i < 4096 → (blockOf x.k, 4096 * x.tile + i) ∉ s.tilePoison)
    (hw : ∀ p ∈ s.tileWrites x.k (blockOf x.k) false, p.1 / 4096 ≠ x.tile) {y : Mat}
    (hy : y = { x with started := true, opA := x.operand s x.a x.ty, opB := x.operand s x.b x.bt
                       shadow := s.tileNow (blockOf x.k) x.tile, shadowPoison := [] }) :
    s.Commits (.mmaStart n) [setMat s { y with
      result := if x.failed then s.tileNow (blockOf x.k) x.tile else mmaResult y }] := by
  rw [State.Commits, exec_mmaStart, execMmaStart, hx]
  dsimp only
  rw [(startHeld_iff s x).mpr ⟨by simp [hb], ha⟩, if_neg (by simp), if_neg (by simp [hs]), begin_first hb hp hw, ← hy]
  subst hy
  simp only [chain, List.isEmpty_nil, Bool.not_true, Bool.and_false, Bool.false_and, Bool.false_eq_true, if_false,
    List.append_nil]
  rfl

end start

section mrel
variable {s : State} {n : Nat} {x : Mat} (hx : (s.mats.find? fun m => m.id == n && m.kind == 2) = some x)
  (hb : s.chainBefore x = [])
include hx hb

/-- R296: an MREL that awaits a failed operation pushes nothing. -/
theorem mrelPush_drops (hf : x.failed = true) : s.Commits (.mrelPush n) (dropMat s x) := by
  rw [State.Commits, exec_mrelPush, execMrelPush, hx]
  dsimp only
  rw [hb, if_neg (by simp), if_pos hf]
  rfl

/-- R297: with the warp's earlier loads and captures over, its stores become visible and the handle is pushed. -/
theorem mrelPush_pushes (hf : x.failed = false) (hd : s.drainable x.k = true) (hr : (s.ctl x.k).farPending = false)
    (hm : ∀ m ∈ s.mats, m.k = x.k → m.kind ≠ 2 → m.id < x.id → m.started = true) {u : State}
    (hu : u = applyAll (drainAll s x.k) s)
    (hq : qFault (u.sh (blockOf x.k)) (u.blk (blockOf x.k)).img.shblk x.off (some x.handle) = 0)
    (hroom : (u.queue (blockOf x.k) x.off).count < (u.queue (blockOf x.k) x.off).cap)
    (hline : u.firstInLine (blockOf x.k) x.off (if x.started then x.a else u.ids) true = true) :
    s.Commits (.mrelPush n) (drainAll s x.k ++
      chain u [fun s => pushStep s (blockOf x.k) x.off x.handle none, fun s => dropMat s x]) := by
  have hcaptured : (s.mats.any fun m => m.k == x.k && m.kind != 2 && !m.started && decide (m.id < x.id)) = false := by
    simp only [List.any_eq_false, Bool.and_eq_true, beq_iff_eq, bne_iff_ne, Bool.not_eq_true', decide_eq_true_eq]
    rintro m hmem ⟨⟨⟨hk, hkind⟩, hstart⟩, hid⟩
    simp [hm m hmem hk hkind hid] at hstart
  rw [State.Commits, exec_mrelPush, execMrelPush, hx]
  dsimp only
  rw [hb, if_neg (by simp), if_neg (by simp [hf]), hd, hr, hcaptured, if_neg (by simp), ← hu, hq]
  rw [if_pos (by simp [hroom, hline])]
  rfl

end mrel

/-- Settles O54: the steps of a copy command by its stage, the meters, and the steps of a matrix operation by its state. -/
theorem copyAndMatrixStepsTakePlace : Obligations.CopyAndMatrixStepsTakePlace := by
  intro s n
  refine ⟨fun c hc => ?_, fun _ _ _ => rfl, fun x hx => mmaComplete_event hx,
    fun x hx => ⟨mmaReplay_replays hx, mmaReplay_fails hx, mmaReplay_failsUnstarted hx⟩,
    fun x hx hb ha => ⟨mmaStart_restarts hx ha hb, fun hs hnil hp hw => mmaStart_starts hx ha hs hnil hp hw rfl⟩,
    fun x hx hb => ⟨mrelPush_drops hx hb, fun hf hd hr hm => mrelPush_pushes hx hb hf hd hr hm rfl⟩⟩
  intro x die kind b guard
  refine ⟨fun h0 hb hf => ?_, copyStart_moves hc, fun h6 hk ps es qs hsrc hdst hclean hready => ?_, copyStart_sends hc,
    copyStart_resumes hc, fun hp hst hl ht => pushOnLand_endsWrites hc hl hp hst ht,
    fun hst hl => ⟨fun hben => ?_, fun hben ht => ?_⟩⟩
  · have hbegin := copyStart_begins hc h0 hb hf
    refine ⟨fun hg => ?_, fun hg => ?_, fun hg hm => ?_⟩
    · rwa [copyBegin_unset hg] at hbegin
    · rwa [copyBegin_false hg] at hbegin
    · rwa [copyBegin_true hg hm] at hbegin
  · have hmoves := copyStart_moves hc h6
    rwa [copyMove_moves hk hsrc hdst hclean hready] at hmoves
  · rw [← copyDone_plain hben]
    exact copyComplete_endsWrites hc hl hst (by simp [hben])
  · rw [← copyDone_arrives hben]
    exact copyComplete_endsWrites hc hl hst fun _ => ht

end Sys2Proof.Machine
end

section
/-! Matrix words (O34): how MMA, MMAX and MREL join the matrix array, and what each element of a result is (12 R287 to R293,
R297). -/
namespace Sys2Proof.Machine

theorem exec_mma (bt tile a b : Nat) (za : Bool) (s : State) :
    exec (.mma bt za tile a b) s = matrixOp false bt za tile a b s := rfl
theorem exec_mmax (bt tile a b : Nat) (za : Bool) (s : State) :
    exec (.mmax bt za tile a b) s = matrixOp true bt za tile a b s := rfl
theorem exec_mrel (tile : Nat) (x h : SOp) (s : State) : exec (.mrel tile x h) s = execMrel tile x h s := rfl

theorem seen_setb {s : State} {w : Warp} (hw : find s.warps s.cur = some w) :
    s.seen.setb = bits (s.at w).slice.h0.toNat 15 12 := seen_slice hw (fun x => h0Setb x.h0.toNat) fun _ => rfl

/-- A word whose checks pass and whose meaning completes, or waits. -/
theorem retires_of_issue {s : State} {w : Warp} {i : Instr} {chk : Issue → Chk}
    {body : Issue → Except Trap (List Effect × Flow)} {r : List Effect × Flow} (hw : s.Issuing w)
    (hi : exec i s = issue chk body s) (hc : (chk (s.at w)).Passes (s.at w)) (hb : body s.seen = .ok r) : s.Retires i r :=
  hi.trans (issue_retires hw.1 hc.fault hb)

/-- A word whose checks pass and whose meaning raises a trap. -/
theorem traps_of_issue {s : State} {w : Warp} {i : Instr} {chk : Issue → Chk}
    {body : Issue → Except Trap (List Effect × Flow)} {once : Bool} {t : Trap} (hw : s.Issuing w)
    (hi : exec i s = issue chk body s) (hc : (chk (s.at w)).Passes (s.at w)) (hb : body s.seen = .error t)
    (ho : (chk (s.at w)).once = once := by rfl) : s.Traps w i once t :=
  ho ▸ hi.trans (issue_traps hw.1 hc.fault hb)

/-- Whether a word executes once is none of its checks (R389). -/
theorem Chk.Passes.onceAs {x : Chk} {I : Issue} (h : x.Passes I) (o : Bool) : ({ x with once := o } : Chk).Passes I :=
  ⟨h.legal, h.helper, h.copyPort, h.mathsPort, h.execPort, h.lead, h.mode, h.vector, h.scalar, h.tile, h.view⟩

/-- R285: where the array of a core can start one more operation on a tile. -/
theorem arrayStarts_iff (s : State) (core b tile : Nat) :
    s.arrayStarts core b tile = true ↔ (s.arrayOps core).length < 4 ∧
      ∀ m ∈ s.mats, m.suspended = true → blockOf m.k = b → m.tile = tile → m.kind = 2 := by
  simp [State.arrayStarts]
  grind

/-- The operation with which MMA and MMAX join the array (R289, R293): its operands are not captured yet. -/
def Issue.joining (I : Issue) (mx : Bool) (bt : Nat) (za : Bool) (tile a b id : Nat) : Mat :=
  { id, k := I.k, kind := if mx then 1 else 0, tile, ty := I.ty, bt, za, a, b, off := 0, handle := 0, started := false
    opA := [], opB := [], shadow := [], shadowPoison := [], result := [], replayed := false, failed := false }


/-- What a matrix word that joins the array leaves: it is counted, recorded, and bound to SETB (R289). -/
def joinArray (k sl setb : Nat) (m : State → Mat) : List (State → List Effect) :=
  [fun s' => count k 5 s'.ids s', fun s' => [.mats (s'.mats ++ [{ m s' with id := s'.ids }])],
    fun s' => bindOp s' k sl setb [] [] true]

section array
variable {s : State} {w : Warp} {i : Instr} {mx za : Bool} {bt tb tile a b : Nat}

theorem seen_arrayStarts (hw : s.Issuing w) :
    s.seen.s.arrayStarts (coreOf s.cur) (blockOf s.cur) tile = s.arrayStarts (coreOf s.cur) (blockOf s.cur) tile := by
  simp only [State.seen, State.ticked_eq hw.1]
  rfl

variable (hi : exec i s = matrixOp mx bt za tile a b s) (htb : mmaTypeB mx (s.at w).ty bt = some tb)
  (h : s.Admits w { cls := .m, tiles := [tile]
                    vs := span a (operandRegs mx (s.at w).ty) ++ span b (operandRegs mx tb) })
include hi htb h

theorem matrixOp_retries (hs : s.arrayStarts (coreOf s.cur) (blockOf s.cur) tile = false) : s.Retires i ([], .again) := by
  refine retires_of_issue h.1 hi (by rw [htb]; exact h.2.onceAs true) ?_
  rw [if_pos (by rw [seen_k, seen_arrayStarts h.1, hs]; rfl)]

variable (hs : s.arrayStarts (coreOf s.cur) (blockOf s.cur) tile = true)
include hs

theorem matrixOp_full (hc : 255 ≤ w.ctl.counter 5) : s.Retires i ([], .wait (.full 5 1)) := by
  refine retires_of_issue h.1 hi (by rw [htb]; exact h.2.onceAs true) ?_
  rw [if_neg (by rw [seen_k, seen_arrayStarts h.1, hs]; simp), seen_counterFull h.1, if_pos (decide_eq_true hc)]

theorem matrixOp_joins (hc : w.ctl.counter 5 < 255) :
    s.Releases i (joinArray s.cur s.slices (bits (s.at w).slice.h0.toNat 15 12) fun _ =>
      (s.at w).joining mx tb za tile a b 0) .next := by
  refine releases_of_issue h.1 hi (by rw [htb]; exact h.2.onceAs true) ?_
  rw [if_neg (by rw [seen_k, seen_arrayStarts h.1, hs]; simp), seen_counterFull h.1, if_neg (by simpa using hc),
    seen_ty h.1.1, htb, seen_setb h.1.1]
  rfl

end array

/-! MREL (R297). -/

section mrel
variable {s : State} {w : Warp} {tile : Nat} {x y : SOp}
  (h : s.Admits w { cls := .m, tiles := [tile], ss := opRegs x ++ opRegs y })
include h

theorem mrel_traps_misaligned (h64 : ((s.at w).op x).toNat % 64 ≠ 0) : s.Traps w (.mrel tile x y) true
    { code := 0x06, addr := apertureAddr (blockOf s.cur) ((s.at w).op x).toNat } := by
  refine traps_of_issue h.1 (exec_mrel ..) (h.2.onceAs true) ?_
  dsimp only
  rw [seen_op h.1.1, if_pos h64, seen_k]

variable (h64 : ((s.at w).op x).toNat % 64 = 0)
include h64

theorem mrel_traps_beyond (hin : (s.blk (blockOf s.cur)).img.shblk < ((s.at w).op x).toNat + 64) :
    s.Traps w (.mrel tile x y) true { code := 0x09, addr := apertureAddr (blockOf s.cur) ((s.at w).op x).toNat } := by
  refine traps_of_issue h.1 (exec_mrel ..) (h.2.onceAs true) ?_
  dsimp only
  rw [seen_op h.1.1, if_neg (by simp [h64]), seen_shblk h.1.1, if_pos hin, seen_k]

theorem mrel_joins (hin : ((s.at w).op x).toNat + 64 ≤ (s.blk (blockOf s.cur)).img.shblk) (hc : w.ctl.counter 5 < 255) :
    s.Retires (.mrel tile x y) (chain s.ticked (joinArray s.cur s.slices (bits (s.at w).slice.h0.toNat 15 12) fun _ =>
      { id := 0, k := s.cur, kind := 2, tile, ty := 0, bt := 0, za := false, a := 0, b := 0, off := ((s.at w).op x).toNat
        handle := ((s.at w).op y).toNat, started := false, opA := [], opB := [], shadow := [], shadowPoison := []
        result := [], replayed := false
        failed := s.mats.any fun m => m.kind != 2 && m.failed && blockOf m.k == blockOf s.cur && m.tile == tile }), .next) := by
  refine retires_of_issue h.1 (exec_mrel ..) (h.2.onceAs true) ?_
  have hmats : s.ticked.mats = s.mats := by rw [State.ticked_eq h.1.1]
  dsimp only
  rw [seen_op h.1.1, seen_op h.1.1, if_neg (by simp [h64]), seen_shblk h.1.1, if_neg (by omega), seen_counterFull h.1,
    if_neg (by simpa using hc), seen_setb h.1.1, ← hmats]
  rfl

end mrel

/-! What an operation computes (R291, R292). -/

/-- A sparse store listed in address order from the values of a span. -/
theorem Sparse.get_filterMap_span {w : Nat} (f : Nat → BitVec w) (n lo i : Nat) :
    Sparse.get ((span lo n).filterMap fun j => if f j = 0 then none else some (j, f j)) i =
      if lo ≤ i ∧ i < lo + n then f i else 0 := by
  induction n generalizing lo with
  | zero => simp [span, Sparse.get]
  | succ n ih =>
    rw [span, List.filterMap_cons]
    by_cases h0 : f lo = 0
    · rw [if_pos h0]
      dsimp only
      rw [ih]
      grind
    · rw [if_neg h0]
      dsimp only
      rw [Sparse.get, ih]
      grind

/-- An element of the result, where the array computes it. -/
theorem get_mmaResult {x : Mat} {m n : Nat} (hm : m < 64) (hn : n < 64) (hp : x.za = true ∨ 64 * m + n ∉ x.shadowPoison) :
    (mmaResult x).get (64 * m + n) =
      word (mmaCell x m n (if x.za then 0 else (x.shadow.get (64 * m + n)).toNat)) := by
  have hkept : (!x.za && x.shadowPoison.contains (64 * m + n)) = false := by
    rcases hp with h | h <;> simp [h]
  rw [mmaResult, Sparse.get_filterMap_span, if_pos (by omega), hkept, if_neg (by simp), show (64 * m + n) / 64 = m by omega,
    show (64 * m + n) % 64 = n by omega]

/-- Settles O34: MMA and MMAX are one operation of the array, and an element of a result is the sum of its cell. -/
theorem matrixWordsAndTheirSums : Obligations.MatrixWordsAndTheirSums := by
  refine ⟨fun s w bt tile a b za hw => ?_, fun x m n hm hn hp => get_mmaResult hm hn hp⟩
  intro I ty setb blank joins array
  have hjoins : ∀ (mx : Bool) (i : Instr), exec i s = matrixOp mx bt za tile a b s → array mx i := by
    intro mx i hi tb htb h starts
    have hstarts := arrayStarts_iff s (coreOf s.cur) (blockOf s.cur) tile
    refine ⟨fun hno => matrixOp_retries hi htb h (Bool.eq_false_iff.2 fun hs => hno (hstarts.1 hs)),
      fun hs hc => matrixOp_joins hi htb h (hstarts.2 hs) hc, fun hs hc => matrixOp_full hi htb h (hstarts.2 hs) hc⟩
  refine ⟨hjoins false _ (exec_mma ..), hjoins true _ (exec_mmax ..), fun x y h => ?_⟩
  exact ⟨mrel_traps_misaligned h, mrel_traps_beyond h, mrel_joins h⟩

end Sys2Proof.Machine
end

section
/-! Tile words (O35): what TLD, TST and TZERO put in flight, and the trap of a descriptor that fails a check (12 R299 to R303). -/
namespace Sys2Proof.Machine

theorem exec_tld (d a : Nat) (b : SOp) (s : State) : exec (.tld d a b) s = execTld d a b s := rfl
theorem exec_tst (d a : Nat) (b : SOp) (s : State) : exec (.tst d a b) s = execTst d a b s := rfl
theorem exec_tzero (tile : Nat) (s : State) : exec (.tzero tile) s = execTzero tile s := rfl

section seen
variable {s : State} {w : Warp} (hw : find s.warps s.cur = some w)
include hw

theorem seen_seta : s.seen.seta = bits (s.at w).slice.h0.toNat 19 16 := seen_slice hw (fun x => h0Seta x.h0.toNat) fun _ => rfl

theorem seen_tileFault (load : Bool) (r x : Nat) : s.seen.tileFault load r x = (s.at w).tileFault load r x := by
  rw [Issue.tileFault, seen_ty hw, seen_blk hw, seen_c hw]
  rfl

theorem seen_priv : s.seen.c.priv = w.ctl.priv := by
  rw [seen_c hw]
  rfl

/-- R84: the step of the LFSR under rs. -/
theorem seen_stepLfsr : s.seen.stepLfsr = if (s.at w).rnd = 5 then [.lfsr s.cur (lfsrStep w.lfsr)] else [] := by
  rw [Issue.stepLfsr, seen_rnd hw, seen_drawState hw]
  rfl

end seen

/-- What TLD, TST and TZERO put in flight: one operation bound to a flag, with what it writes and the trap it met (R303). -/
def Issue.bindTile (I : Issue) (id flag : Nat) (sup : Bool) (writes : List RegWrite) (trap : Option (Nat × Trap)) : List Effect :=
  [.ctl I.k { I.c with flagOps := I.c.flagOps ++ [{ id, flag, slices := I.sl, writes, trap, sup }] }, .ids 1]

section words
variable {s : State} {w : Warp} {i : Instr} {load : Bool} {d a : Nat} {b : SOp} {body : Issue → Nat → List Effect}

section descriptor
variable (hi : exec i s = tileWord load d a b body s) (hrnd : (s.at w).rnd < 6)
  (hty : (if load then okTld (s.at w).ty else okTst (s.at w).ty) = true)
  (h : s.Admits w { cls := .e, legal := opLegal b 0x0C, vs := [d], ss := a :: opRegsT b 0x0C
                    dst := if load && (s.at w).tileFault load d ((s.at w).rs a).toNat == 0
                      then span d (tdRows ((s.at w).rs a).toNat) else [] })
include hi hrnd hty h

/-- R303: a descriptor that fails a check. -/
theorem tileWord_traps (hbad : (s.at w).tileFault load d ((s.at w).rs a).toNat ≠ 0) :
    s.Traps w i false { code := (s.at w).tileFault load d ((s.at w).rs a).toNat } := by
  refine traps_of_issue h.1 hi (h.2.relegal ?_) ?_
  · rw [hty, decide_eq_true hrnd, Bool.true_and, Bool.and_true]
    exact h.2.legal
  · rw [seen_rs h.1.1]
    dsimp only
    rw [seen_tileFault h.1.1]
    split
    · contradiction
    · rfl

/-- R300: a descriptor that passes them. -/
theorem tileWord_retires (hok : (s.at w).tileFault load d ((s.at w).rs a).toNat = 0) :
    s.Retires i (body s.seen ((s.at w).rs a).toNat, .next) := by
  refine retires_of_issue h.1 hi (h.2.relegal ?_) ?_
  · rw [hty, decide_eq_true hrnd, Bool.true_and, Bool.and_true]
    exact h.2.legal
  · rw [seen_rs h.1.1]
    dsimp only
    rw [seen_tileFault h.1.1, hok]
    rfl

end descriptor

/-- R301: what a TLD with a sound descriptor binds to SETA. -/
theorem tld_binds (hrnd : (s.at w).rnd < 6) (hty : okTld (s.at w).ty = true)
    (h : s.Admits w { cls := .e, legal := opLegal b 0x0C, vs := [d], ss := a :: opRegsT b 0x0C
                      dst := if true && (s.at w).tileFault true d ((s.at w).rs a).toNat == 0
                        then span d (tdRows ((s.at w).rs a).toNat) else [] })
    (hok : (s.at w).tileFault true d ((s.at w).rs a).toNat = 0) {trap : Option (Nat × Trap)}
    (ht : s.seen.tilePoisoned ((s.at w).rs a).toNat = trap) {ws : List RegWrite}
    (hws : (if trap.isSome then [] else s.seen.tileLoad d b ((s.at w).rs a).toNat) = ws) :
    s.Retires (.tld d a b) ((if (s.at w).rnd = 5 then [.lfsr s.cur (lfsrStep w.lfsr)] else []) ++
      s.seen.bindTile s.ids (bits (s.at w).slice.h0.toNat 19 16) w.ctl.priv ws trap, .next) := by
  have hret := tileWord_retires (exec_tld d a b s) hrnd hty h hok
  rw [← seen_stepLfsr h.1.1, ← seen_priv h.1.1, ← seen_seta h.1.1, ← ticked_ids h.1, ← hws, ← ht]
  exact hret

/-- R302: what a TST with a sound descriptor binds to SETB. -/
theorem tst_binds (hrnd : (s.at w).rnd < 6) (hty : okTst (s.at w).ty = true)
    (h : s.Admits w { cls := .e, legal := opLegal b 0x0C, vs := [d], ss := a :: opRegsT b 0x0C })
    (hok : (s.at w).tileFault false d ((s.at w).rs a).toNat = 0) {trap : Option (Nat × Trap)}
    (ht : (if tdAdd ((s.at w).rs a).toNat then s.seen.tilePoisoned ((s.at w).rs a).toNat else none) = trap) {ws : List RegWrite}
    (hws : (if trap.isSome then [] else s.seen.tileStore d b ((s.at w).rs a).toNat) = ws) :
    s.Retires (.tst d a b) ((if (s.at w).rnd = 5 then [.lfsr s.cur (lfsrStep w.lfsr)] else []) ++
      s.seen.bindTile s.ids (bits (s.at w).slice.h0.toNat 15 12) false ws trap, .next) := by
  have hret := tileWord_retires (exec_tst d a b s) hrnd hty h hok
  rw [← seen_stepLfsr h.1.1, ← seen_setb h.1.1, ← ticked_ids h.1, ← hws, ← ht]
  exact hret

/-- R302: TZERO. -/
theorem tzero_retires {tile : Nat} (h : s.Admits w { cls := .e, once := true, tiles := [tile] }) :
    s.Retires (.tzero tile) (s.seen.bindTile s.ids (bits (s.at w).slice.h0.toNat 15 12) w.ctl.priv
      ((span 0 4096).map fun i => .t (4096 * tile + i) 0) none, .next) := by
  refine retires_of_issue h.1 (exec_tzero ..) h.2 ?_
  rw [← seen_priv h.1.1, ← seen_setb h.1.1, ← ticked_ids h.1]
  rfl

end words

/-- Settles O35: TLD and TST are words of one descriptor, and each binds what its window gives. -/
theorem tileWordsMoveWindows : Obligations.TileWordsMoveWindows := by
  intro s w d a tile b I ty x seta setb step bind
  refine ⟨fun hrnd => ⟨fun hty h => ?_, fun hty h => ?_⟩, fun h => tzero_retires h⟩
  · replace h : s.Admits w { cls := .e, legal := opLegal b 0x0C, vs := [d], ss := a :: opRegsT b 0x0C
                             dst := if true && I.tileFault true d x == 0 then span d (tdRows x) else [] } := by
      simpa using h
    exact ⟨tileWord_traps (exec_tld ..) hrnd hty h, fun hok hp => tld_binds hrnd hty h hok hp (if_neg (by simp)),
      fun t hok hp => tld_binds hrnd hty h hok hp (if_pos rfl)⟩
  · refine ⟨tileWord_traps (exec_tst ..) hrnd hty h, fun hok hp => tst_binds hrnd hty h hok ?_ (if_neg (by simp)),
      fun t hok hadd hp => tst_binds hrnd hty h hok ((if_pos hadd).trans hp) (if_pos rfl)⟩
    rcases hp with hadd | hp
    · exact if_neg (Bool.eq_false_iff.1 hadd)
    · exact ite_eq_right_iff.2 fun _ => hp

end Sys2Proof.Machine
end

section
/-! Collective words (O37): COLL by what its descriptor's checks find, and the values that COLLQ reads (14 R342, R343, R345,
R353). -/
namespace Sys2Proof.Machine

theorem exec_coll (form tile a : Nat) (tsrc op : Bool) (s : State) :
    exec (.coll form tsrc op tile a) s = execColl form tsrc op tile a s := rfl
theorem exec_collq (d : Nat) (b : SOp) (s : State) : exec (.collq d b) s = execCollq d b s := rfl

/-- A word of any class whose checks pass and that writes one scalar register. -/
theorem givesScalar_of_passes {s : State} {w : Warp} {i : Instr} {chk : Issue → Chk}
    {body : Issue → Except Trap (List Effect × Flow)} {d : Nat} {x : Word} (hw : s.Issuing w) (hd : d < w.ctl.sbudget)
    (hi : exec i s = issue chk body s) (hc : (chk (s.at w)).Passes (s.at w))
    (hb : body s.seen = .ok ([.sreg s.cur d x], .next)) : s.GivesScalar i d x := by
  have hs : ∀ n ∈ d :: List.flatMap opRegs [], n < w.ctl.sbudget := by simpa using hd
  have hscalar : scalarOp d [] (fun _ => x) s = .next (s.retire [.sreg s.cur d x] .next) :=
    issue_retires hw.1 (chkA_passes_of_budget hs).fault rfl
  exact givesScalar_of_scalarOp hw hs ((hi.trans (issue_retires hw.1 hc.fault hb)).trans hscalar.symm) rfl

/-- A word of any class whose checks pass and that writes one scalar pair. -/
theorem givesPair_of_passes {s : State} {w : Warp} {i : Instr} {chk : Issue → Chk}
    {body : Issue → Except Trap (List Effect × Flow)} {d : Nat} {x : DWord} (hw : s.Issuing w) (hd : d + 1 < w.ctl.sbudget)
    (hi : exec i s = issue chk body s) (hc : (chk (s.at w)).Passes (s.at w))
    (hb : body s.seen = .ok (pairOut s.cur d x, .next)) : s.GivesPair i d x := by
  have hs : ∀ n ∈ [], n < w.ctl.sbudget := by simp
  have hpair : issue (chkA []) body s = .next (s.retire (pairOut s.cur d x) .next) :=
    issue_retires hw.1 (chkA_passes_of_budget hs).fault hb
  exact givesPair_of_issue hw hs hd ((hi.trans (issue_retires hw.1 hc.fault hb)).trans hpair.symm) hb

/-- R345: the checks of an arrival read what the issue of the word reads. -/
theorem seen_collBad {s : State} {w : Warp} (hw : s.Issuing w) (form : Nat) (tsrc op : Bool) (x : Nat) :
    s.seen.collBad form tsrc op x = (s.at w).collBad form tsrc op x := by
  rw [Issue.collBad, seen_ty hw.1, seen_rnd hw.1, seen_blk hw.1, seen_c hw.1]
  rfl

/-- The same, as a function that the kernel does not unfold where it compares what depends on it. -/
theorem seen_collBad_fun {s : State} {w : Warp} (hw : s.Issuing w) (form : Nat) (tsrc op : Bool) :
    ∃ bad : Nat → Option Trap, s.seen.collBad form tsrc op = bad ∧ ∀ x, bad x = (s.at w).collBad form tsrc op x :=
  ⟨_, rfl, seen_collBad hw form tsrc op⟩

section coll
variable {s : State} {w : Warp} {form tile a : Nat} {tsrc op : Bool}
  (h : s.Admits w { cls := .b, legal := okCollType form tsrc op (s.at w).ty && decide ((s.at w).rnd < 5) && !w.ctl.parted
                    ss := span a 8, tiles := if tsrc then [tile] else [] })
include h

theorem coll_traps {t : Trap} (hbad : (s.at w).collBad form tsrc op ((s.at w).desc a) = some t) :
    s.Traps w (.coll form tsrc op tile a) true t := by
  refine traps_of_issue h.1 (exec_coll ..) (h.2.onceAs true) ?_
  obtain ⟨bad, hf⟩ := seen_collBad_fun h.1 form tsrc op
  rw [hf.1]
  dsimp only
  rw [seen_desc h.1, hf.2, hbad]

variable (hok : (s.at w).collBad form tsrc op ((s.at w).desc a) = none)
include hok

theorem coll_full (hc : 255 ≤ w.ctl.counter 3) : s.Retires (.coll form tsrc op tile a) ([], .wait (.full 3 1)) := by
  refine retires_of_issue h.1 (exec_coll ..) (h.2.onceAs true) ?_
  obtain ⟨bad, hf⟩ := seen_collBad_fun h.1 form tsrc op
  rw [hf.1]
  dsimp only
  rw [seen_desc h.1, hf.2, hok]
  dsimp only
  rw [seen_counterFull h.1, if_pos (decide_eq_true hc)]

/-- R345: the arrival joins its block's list, and the rounds that it completes fire. -/
theorem coll_arrives (hc : w.ctl.counter 3 < 255) : s.Releases (.coll form tsrc op tile a) [
    fun s' => count s.cur 3 s'.ids s',
    fun s' => [.block (blockOf s.cur) { s'.blk (blockOf s.cur) with
      coll := (s'.blk (blockOf s.cur)).coll ++ [(s.cur, s'.ids, pack [(24, 8, 0xF0), (22, 2, form),
        (21, 1, if tsrc then 1 else 0), (20, 1, if op then 1 else 0), (16, 4, tile), (8, 8, a)] * 65536 + (s.at w).mode,
        (s.at w).desc a, w.ctl.priv)] }, .ids 1],
    fun s' => collTry (blockOf s.cur) ((s'.blk (blockOf s.cur)).coll.length + 1) s'] .next := by
  refine releases_of_issue h.1 (exec_coll ..) (h.2.onceAs true) ?_
  obtain ⟨bad, hf⟩ := seen_collBad_fun h.1 form tsrc op
  rw [hf.1]
  dsimp only
  rw [seen_desc h.1, hf.2, hok]
  dsimp only
  rw [seen_counterFull h.1, if_neg (by simpa using hc), seen_mode h.1.1, seen_priv h.1.1]
  rfl

end coll

/-! COLLQ (R353). -/

/-- The values that the selectors of COLLQ name; with no collective incomplete, selectors 1 and 2 name a free word (log
entry 2). -/
def Issue.collValue (I : Issue) : Nat → Option Word
  | 0 => some (word (I.s.openColls (blockOf I.k)).length)
  | 1 => some (match I.s.openColls (blockOf I.k) with
    | [] => I.s.freeWord 1
    | c :: _ => word c.written.length)
  | 2 => some (match I.s.openColls (blockOf I.k) with
    | [] => I.s.freeWord 1
    | c :: _ => word (if c.form = 1 ∨ c.form = 3 then c.units else c.n * c.units))
  | 3 => some (word I.blk.retries)
  | 4 => some (word I.s.planes.length)
  | _ => none

/-- COLLQ writes the value that its selector names, and traps where it names none. -/
theorem collq_body (d : Nat) (b : SOp) (s : State) : exec (.collq d b) s =
    issue (fun _ => { cls := .a, once := true, ss := d :: opRegs b }) (fun I =>
      match I.collValue (I.op b).toNat with
      | some x => .ok ([.sreg I.k d x], .next)
      | none => .error { code := 0x01 }) s := by
  rw [exec_collq, execCollq]
  congr 1
  funext I
  dsimp only
  rcases (I.op b).toNat with _ | _ | _ | _ | _ | n <;> cases hc : I.s.openColls (blockOf I.k) <;>
    simp [Issue.collValue, hc]

section collq
variable {s : State} {w : Warp} {d : Nat} {b : SOp} (h : s.Admits w { cls := .a, ss := d :: opRegs b })
include h

/-- What COLLQ reads is the same once the marks of the issuing slices clear. -/
theorem seen_collValue (sel : Nat) : s.seen.collValue sel = (s.at w).collValue sel := by
  have hs : ∀ j, s.seen.s.freeWord j = s.freeWord j := freeWord_ticked h.1.1
  have hc : s.seen.s.openColls (blockOf s.cur) = s.openColls (blockOf s.cur) := by
    simp only [State.openColls, State.seen, State.ticked_eq h.1.1]
  have hp : s.seen.s.planes = s.planes := by simp only [State.planes, State.seen, State.ticked_eq h.1.1]
  rcases sel with _ | _ | _ | _ | _ | n <;> simp only [Issue.collValue, seen_blk h.1.1, seen_k, hs, hc, hp] <;> rfl

theorem collq_gives {x : Word} (hx : (s.at w).collValue ((s.at w).op b).toNat = some x) : s.GivesScalar (.collq d b) d x := by
  refine givesScalar_of_passes h.1 (h.2.scalar d (by simp)) (collq_body ..) (h.2.onceAs true) ?_
  rw [seen_op h.1.1, seen_collValue h, hx]
  rfl

theorem collq_traps (hx : (s.at w).collValue ((s.at w).op b).toNat = none) :
    s.Traps w (.collq d b) true { code := 0x01 } := by
  refine traps_of_issue h.1 (collq_body ..) (h.2.onceAs true) ?_
  rw [seen_op h.1.1, seen_collValue h, hx]

end collq

/-- Settles O37: COLL by its descriptor, and COLLQ by the values that its selectors name. -/
theorem collectiveWords : Obligations.CollectiveWords := by
  intro s w form d tile a tsrc op b I blk i
  refine ⟨fun h => ⟨fun t => coll_traps h, coll_full h, coll_arrives h⟩, fun h => ?_⟩
  intro sel gives
  have hgives : ∀ {n : Nat} {x : Word}, I.collValue n = some x → sel = n → s.GivesScalar (.collq d b) d x :=
    fun hx hn => collq_gives h ((congrArg I.collValue hn).trans hx)
  refine ⟨hgives rfl, fun c cs hcs => ?_, fun hnil hsel => ?_, hgives rfl, hgives rfl, fun hsel => collq_traps h ?_⟩
  · have hopen : I.s.openColls (blockOf I.k) = c :: cs := hcs
    exact ⟨hgives (by simp only [Issue.collValue, hopen]), hgives (by simp only [Issue.collValue, hopen])⟩
  · have hopen : I.s.openColls (blockOf I.k) = [] := hnil
    rcases hsel with hsel | hsel
    · exact hgives (by simp only [Issue.collValue, hopen]; rfl) hsel
    · exact hgives (by simp only [Issue.collValue, hopen]; rfl) hsel
  · obtain ⟨n, hn⟩ := Nat.exists_eq_add_of_le' hsel
    exact (congrArg I.collValue hn).trans rfl

end Sys2Proof.Machine
end

section
/-! Traps on request and system registers (O39): TRAP and BRK, and what SRD reads and SWR writes under its privilege (16
R375, R376, R393). -/
namespace Sys2Proof.Machine

theorem exec_trap (a : SOp) (s : State) : exec (.trap a) s = execTrap a s := rfl
theorem exec_brk (a : SOp) (s : State) : exec (.brk a) s = execBrk a s := rfl
theorem exec_srd (d n : Nat) (s : State) : exec (.srd d n) s = execSrd d n s := rfl
theorem exec_swr (n : Nat) (a : SOp) (s : State) : exec (.swr n a) s = execSwr n a s := rfl

/-- TRAP and BRK raise the trap that names them, with their operand (R393). -/
theorem trapWords_trap {s : State} {w : Warp} {a : SOp} (hw : s.Issuing w) (hs : ∀ n ∈ opRegs a, n < w.ctl.sbudget) :
    s.Traps w (.trap a) true { code := 0x16, aux := ((s.at w).op a).toNat } ∧
      s.Traps w (.brk a) true { code := 0x15, aux := ((s.at w).op a).toNat } := by
  have hc := chkA_passes_of_budget (s := s) hs
  exact ⟨traps_of_issue hw (exec_trap ..) hc (by rw [seen_op hw.1]),
    traps_of_issue hw (exec_brk ..) hc (by rw [seen_op hw.1])⟩

/-- A word of class A that names only scalar registers within the budget passes, if a word that needs supervisor mode is
issued in it. -/
theorem systemWord_passes {s : State} {w : Warp} {x : Chk} (hc : x.cls = .a) (hl : x.legal = true) (hh : x.helper = true)
    (hv : x.vs = []) (ht : x.tiles = []) (hd : x.dst = []) (hp : x.priv = true → w.ctl.priv = true)
    (hs : ∀ n ∈ x.ss, n < w.ctl.sbudget) : x.Passes (s.at w) := by
  constructor <;> simp_all [State.at, Issue.c]

/-- A word of class A that needs supervisor mode traps in user mode, whatever it would do. -/
theorem systemWord_traps_of_user {s : State} {w : Warp} {i : Instr} {chk : Issue → Chk}
    {body : Issue → Except Trap (List Effect × Flow)} (hw : s.Issuing w) (hu : w.ctl.priv = false) (hn : w.ctl.helper = none)
    (hi : exec i s = issue chk body s) (hc : (chk (s.at w)).cls = .a) (hl : (chk (s.at w)).legal = true)
    (hp : (chk (s.at w)).priv = true) (ho : (chk (s.at w)).once = true := by rfl) : s.Traps w i true { code := 0x18 } := by
  have hf : (chk (s.at w)).fault (s.at w) = some 0x18 := by
    have hpriv : (s.at w).c.priv = false := hu
    have hhelper : (s.at w).c.helper = none := hn
    simp [Chk.fault, hc, hl, hp, Cls.admits, hpriv, hhelper]
  exact ho ▸ hi.trans (issue_refused hw.1 hf)

/-! What the words read is the same once the marks of the issuing slices clear. -/

section seen
variable {s : State} {w : Warp} (hw : s.Issuing w)
include hw

theorem seen_ctxOf (c : Nat) : s.seen.s.ctxOf c = s.ctxOf c := by simp only [State.seen, State.ticked_eq hw.1]; rfl
theorem seen_core (c : Nat) : s.seen.s.core c = s.core c := by simp only [State.seen, State.ticked_eq hw.1]; rfl
theorem seen_fresh : s.seen.s.fresh = s.fresh := by simp only [State.seen, State.ticked_eq hw.1]
theorem seen_chip : s.seen.s.chip = s.chip := by simp only [State.seen, State.ticked_eq hw.1]; rfl

theorem seen_sysRead (n : Nat) : s.seen.sysRead n = (s.at w).sysRead n := by
  simp only [Issue.sysRead, Issue.coreId, seen_ctxOf hw, seen_core hw, seen_chip hw, seen_blk hw.1, seen_c hw.1, seen_w hw.1,
    seen_k]
  rfl

theorem seen_sysVal (n : Nat) (a : SOp) : s.seen.sysVal n a = (s.at w).sysVal n a := by
  cases a <;> simp [Issue.sysVal, seen_pair hw.1, seen_rs hw.1, seen_op hw.1]

end seen

/-! SRD (R375, R376). -/

section srd
variable {s : State} {w : Warp} {d n : Nat} (hw : s.Issuing w) (hn : sysNumbers.contains n = true)
  (hp : sysUserRead n = false → w.ctl.priv = true)
include hw hn hp

/-- A register of 32 bits gives its value. -/
theorem srd_gives (h32 : sysWide n = false) (hd : d < w.ctl.sbudget) :
    s.GivesScalar (.srd d n) d (((s.at w).sysRead n).setWidth 32) := by
  have hne : n ≠ 0x26 := fun h => by rw [h] at h32; exact absurd h32 (by decide)
  refine givesScalar_of_passes hw hd (exec_srd ..) (systemWord_passes rfl ?_ rfl rfl rfl rfl ?_ ?_) ?_
  · simp only [hn, h32]; rfl
  · simpa using hp
  · simpa [h32] using hd
  · simp only [if_neg hne, h32, applyAll, List.foldl_nil]
    rw [← seen_sysRead hw]
    rfl

section wide
variable (h64 : sysWide n = true) (he : d % 2 = 0) (hd : d + 1 < w.ctl.sbudget)
include h64 he hd

omit hw in
/-- The checks of SRD of a register of 64 bits. -/
theorem srdWide_passes : ({ cls := .a, once := true, legal := sysNumbers.contains n && (!sysWide n || d % 2 == 0)
                            priv := !sysUserRead n, ss := if sysWide n then [d, d + 1] else [d] } : Chk).Passes (s.at w) := by
  refine systemWord_passes rfl ?_ rfl rfl rfl rfl ?_ ?_
  · simp only [hn, he]; simp
  · simpa using hp
  · simp only [h64, if_true, List.mem_cons, List.not_mem_nil, or_false, forall_eq_or_imp, forall_eq]
    omega

/-- A register of 64 bits gives its value, but for the cycle count, which moves on. -/
theorem srdWide_gives (hne : n ≠ 0x26) : s.GivesPair (.srd d n) d ((s.at w).sysRead n) := by
  refine givesPair_of_passes hw hd (exec_srd ..) (srdWide_passes hn hp h64 he hd) ?_
  simp only [if_neg hne, h64, applyAll, List.foldl_nil]
  rw [← seen_sysRead hw]
  rfl

end wide
end srd

theorem setWidth_dword (n : Nat) : (dword n).setWidth 32 = word n := by
  simp

/-- The two words of a 64-bit number. -/
theorem pairOut_dword (k d n : Nat) : pairOut k d (dword n) = [.sreg k d (word n), .sreg k (d + 1) (word (n / 2 ^ 32))] := by
  have hhi : ((dword n) >>> 32).setWidth 32 = word (n / 2 ^ 32) := by
    apply BitVec.eq_of_toNat_eq
    simp [Nat.shiftRight_eq_div_pow]
    omega
  rw [pairOut, setWidth_dword, hhi]

/-- The cycle count moved on at each read (log entry 8). -/
theorem srd_cycle {s : State} {w : Warp} {d : Nat} (hw : s.Issuing w) (he : d % 2 = 0) (hd : d + 1 < w.ctl.sbudget) :
    let core := s.core (coreOf s.cur)
    let later := { core with cycle := (core.cycle + 1 + Config.freeNat (1048576 * s.fresh + 1000010)) % 2 ^ 64 }
    s.Retires (.srd d 0x26) ([.core (coreOf s.cur) later, .sreg s.cur d (word later.cycle),
      .sreg s.cur (d + 1) (word (later.cycle / 2 ^ 32))], .next) := by
  intro core later
  refine retires_of_issue hw (exec_srd ..) (srdWide_passes (by decide) (fun h => absurd h (by decide)) (by decide) he hd) ?_
  have hpass : s.seen.passCycles = [.core (coreOf s.cur) later] := by
    simp only [Issue.passCycles, seen_core hw, seen_fresh hw, seen_k]
    rfl
  have hread : ({ s.seen with s := applyAll s.seen.passCycles s.seen.s } : Issue).sysRead 0x26 = dword later.cycle := by
    rw [hpass]
    simp [Issue.sysRead, applyAll, apply, State.core, seen_k]
  dsimp only
  rw [if_pos rfl, hread, hpass, if_pos (by decide), pairOut_dword]
  rfl

/-! SWR (R376). -/

section swr
variable {s : State} {w : Warp} {n : Nat} {a : SOp} (hw : s.Issuing w)
  (hl : (sysNumbers.contains n && !sysReadOnly n && sysOperand n a) = true) (hp : n ≠ 0x02 → w.ctl.priv = true)
  (hs : ∀ r ∈ sysRegs n a, r < w.ctl.sbudget)
include hw hl hp hs

omit hw in
/-- The checks of SWR of a register that can be written. -/
theorem swr_passes : ({ cls := .a, once := true, legal := sysNumbers.contains n && !sysReadOnly n && sysOperand n a
                        priv := n != 0x02, ss := sysRegs n a } : Chk).Passes (s.at w) :=
  systemWord_passes rfl hl rfl rfl rfl rfl (by simpa using hp) hs

/-- An aligned value is written, in the bits that the register keeps. -/
theorem swr_writes (h : ((s.at w).sysVal n a).toNat % sysAlign n = 0) :
    s.Retires (.swr n a) (s.seen.sysWrite n (sysKept n ((s.at w).sysVal n a)), .next) := by
  refine retires_of_issue hw (exec_swr ..) (swr_passes hl hp hs) ?_
  dsimp only
  rw [seen_sysVal hw, if_neg (not_not_intro h)]

theorem swr_misaligned (h : ((s.at w).sysVal n a).toNat % sysAlign n ≠ 0) :
    s.Traps w (.swr n a) true { code := 0x06, addr := ((s.at w).sysVal n a).toNat } := by
  refine traps_of_issue hw (exec_swr ..) (swr_passes hl hp hs) ?_
  dsimp only
  rw [seen_sysVal hw, if_pos h]

end swr

/-- What a write changes, in the context's registers as they are and in the control state that the word sees. -/
theorem seen_sysWrite {s : State} {w : Warp} (hw : s.Issuing w) (n : Nat) (x : DWord) :
    s.seen.sysWrite n x = ({ s.at w with w := s.ticked.warp s.cur } : Issue).sysWrite n x := by
  simp only [Issue.sysWrite, seen_ctxOf hw, seen_core hw, seen_blk hw.1, seen_k]
  rfl

/-- The 64-bit registers that can be written: all of them but for those that say where and how long the warp runs. -/
def sysPairs : List Nat := [0x10, 0x12, 0x14, 0x16, 0x18, 0x1A, 0x1C, 0x1E, 0x20, 0x22, 0x28]

theorem of_mem_sysPairs {n : Nat} (h : n ∈ sysPairs) : sysNumbers.contains n = true ∧ sysWide n = true ∧
    sysReadOnly n = false ∧ n ≠ 0x26 := by
  revert n
  decide

/-- A pair of registers within the budget can be SWR's operand. -/
theorem sysOperand_pair {c : Ctl} {n r : Nat} (he : r % 2 = 0) (hr : r + 1 < c.sbudget) : sysOperand n (.reg r) = true := by
  have := c.sbudget_le
  have h158 : r ≤ 158 := by omega
  simp [sysOperand, he, h158]

section pairs
variable {s : State} {w : Warp} {n r : Nat} (hw : s.Issuing w) (hp : w.ctl.priv = true) (hn : n ∈ sysPairs)
  (he : r % 2 = 0) (hr : r + 1 < w.ctl.sbudget)
include hw hp hn he hr

/-- SWR of a 64-bit register by a pair within the budget: an aligned value is written, another one traps. -/
theorem swrPair_acts :
    (((s.at w).pair r).toNat % sysAlign n = 0 →
      s.Retires (.swr n (.reg r)) (s.seen.sysWrite n (sysKept n ((s.at w).pair r)), .next)) ∧
    (((s.at w).pair r).toNat % sysAlign n ≠ 0 →
      s.Traps w (.swr n (.reg r)) true { code := 0x06, addr := ((s.at w).pair r).toNat }) := by
  obtain ⟨hnum, hwide, hwrites, -⟩ := of_mem_sysPairs hn
  have hl : (sysNumbers.contains n && !sysReadOnly n && sysOperand n (.reg r)) = true := by
    rw [hnum, hwrites, sysOperand_pair he hr]
    rfl
  have hs : ∀ i ∈ sysRegs n (.reg r), i < w.ctl.sbudget := by
    simp only [sysRegs, hwide, if_true, List.mem_cons, List.not_mem_nil, or_false, forall_eq_or_imp, forall_eq]
    omega
  have hval : (s.at w).sysVal n (.reg r) = (s.at w).pair r := by simp [Issue.sysVal, hwide]
  exact hval ▸ ⟨swr_writes hw hl (fun _ => hp) hs, swr_misaligned hw hl (fun _ => hp) hs⟩

end pairs

/-- SWR of the LFSR, and of the registers of 32 bits that need supervisor mode. -/
theorem swr_words {s : State} {w : Warp} {a : SOp} (hw : s.Issuing w) (hs : ∀ n ∈ sysRegs 0x02 a, n < w.ctl.sbudget) :
    s.Retires (.swr 0x02 a) ([.lfsr s.cur (((s.at w).sysVal 0x02 a).setWidth 32)], .next) ∧
    (w.ctl.priv = true →
      s.Retires (.swr 0x03 a) ([.ctl s.cur { s.ticked.ctl s.cur with
        dbgctl := ((s.at w).sysVal 0x03 a).setWidth 32 &&& 0xF }], .next) ∧
      s.Retires (.swr 0x04 a) ([.core (coreOf s.cur) { s.core (coreOf s.cur) with
        parkDelay := ((s.at w).sysVal 0x04 a).setWidth 32 &&& 0xFFFF }], .next)) := by
  have hwrites : ∀ {n : Nat} {es : List Effect}, n ∈ [0x02, 0x03, 0x04] → (n ≠ 0x02 → w.ctl.priv = true) →
      ({ s.at w with w := s.ticked.warp s.cur } : Issue).sysWrite n (sysKept n ((s.at w).sysVal n a)) = es →
      s.Retires (.swr n a) (es, .next) := by
    intro n es hn hp hes
    have hfacts : sysNumbers.contains n = true ∧ sysReadOnly n = false ∧ sysWide n = false ∧ sysAlign n = 1 := by
      clear hp hes
      revert n
      decide
    obtain ⟨hnum, hwritable, hwide, halign⟩ := hfacts
    have hl : (sysNumbers.contains n && !sysReadOnly n && sysOperand n a) = true := by
      have hop : sysOperand n a = true := by simp only [sysOperand, hwide]; rfl
      rw [hnum, hwritable, hop]
      rfl
    have hregs : sysRegs n a = sysRegs 0x02 a := by simp only [sysRegs, hwide, show sysWide 0x02 = false from rfl]
    exact hes ▸ seen_sysWrite hw .. ▸ swr_writes hw hl hp (hregs ▸ hs) (by rw [halign, Nat.mod_one])
  have hdbg : (sysKept 0x03 ((s.at w).sysVal 0x03 a)).setWidth 32 = ((s.at w).sysVal 0x03 a).setWidth 32 &&& 0xF :=
    BitVec.setWidth_and
  have hpark : (sysKept 0x04 ((s.at w).sysVal 0x04 a)).setWidth 32 = ((s.at w).sysVal 0x04 a).setWidth 32 &&& 0xFFFF :=
    BitVec.setWidth_and
  exact ⟨hwrites (by simp) (absurd rfl) rfl, fun hp =>
    ⟨hwrites (by simp) (fun _ => hp) (congrArg (fun x => [Effect.ctl s.cur { s.ticked.ctl s.cur with dbgctl := x }]) hdbg),
      hwrites (by simp) (fun _ => hp)
        (congrArg (fun x => [Effect.core (coreOf s.cur) { s.core (coreOf s.cur) with parkDelay := x }]) hpark)⟩⟩

/-- In user mode the privileged registers cannot be read or written. -/
theorem systemRegisters_refused {s : State} {w : Warp} {n : Nat} (d : Nat) (a : SOp) (hw : s.Issuing w)
    (hu : w.ctl.priv = false) (hh : w.ctl.helper = none)
    (hn : n ∈ [0x03, 0x04, 0x10, 0x12, 0x14, 0x16, 0x18, 0x1A, 0x1C, 0x1E, 0x20, 0x22, 0x28]) :
    (d % 2 = 0 → s.Traps w (.srd d n) true { code := 0x18 }) ∧
      (sysOperand n a = true → s.Traps w (.swr n a) true { code := 0x18 }) := by
  have hfacts : sysNumbers.contains n = true ∧ sysUserRead n = false ∧ sysReadOnly n = false ∧ n ≠ 0x02 := by
    revert n
    decide
  obtain ⟨hnum, hread, hwritable, hne⟩ := hfacts
  exact ⟨fun he => systemWord_traps_of_user hw hu hh (exec_srd ..) rfl (by simp only [hnum, he]; simp)
      (by simp only [hread]; rfl),
    fun hop => systemWord_traps_of_user hw hu hh (exec_swr ..) rfl (by simp only [hnum, hwritable, hop]; rfl)
      (by simpa using hne)⟩

/-- Settles O39: the registers one by one, each read and written as its number says. -/
theorem trapAndSystemRegisterWords : Obligations.TrapAndSystemRegisterWords := by
  intro s w d a hw I b c core
  refine ⟨trapWords_trap hw, fun hd => ?_, fun he hd => ⟨?_, srd_cycle hw he hd, fun hp => ?_⟩, swr_words hw, ?_, ?_⟩
  · have hgives : ∀ {n : Nat} {x : Word}, n ∈ [0x00, 0x01, 0x02, 0x03, 0x04] → (sysUserRead n = false → w.ctl.priv = true) →
        (I.sysRead n).setWidth 32 = x → s.GivesScalar (.srd d n) d x := by
      intro n x hn hp hx
      have hfacts : sysNumbers.contains n = true ∧ sysWide n = false := by
        clear hp hx
        revert n
        decide
      exact hx ▸ srd_gives hw hfacts.1 hp hfacts.2 hd
    have huser : ∀ {n}, sysUserRead n = true → sysUserRead n = false → w.ctl.priv = true := fun h h' => by simp_all
    refine ⟨hgives (by simp) (huser rfl) (setWidth_dword _), hgives (by simp) (huser rfl) (setWidth_dword _),
      hgives (by simp) (huser rfl) ?_, fun hp => ⟨hgives (by simp) (fun _ => hp) ?_, hgives (by simp) (fun _ => hp) ?_⟩⟩ <;>
      exact BitVec.setWidth_setWidth_of_le _ (by decide)
  · exact srdWide_gives hw (by decide) (fun h => absurd h (by decide)) (by decide) he hd (by decide)
  · have hgives : ∀ r ∈ sysPairs.map fun n => (n, I.sysRead n), s.GivesPair (.srd d r.1) d r.2 :=
      List.forall_mem_map.2 fun n hn =>
        have ⟨hnum, hwide, _, hne⟩ := of_mem_sysPairs hn
        srdWide_gives hw hnum (fun _ => hp) hwide he hd hne
    exact hgives
  · rintro n r rfl he hr hp x ctx e hmem rfl
    have hacts : ∀ e ∈ sysPairs.map fun n =>
        (n, sysAlign n, ({ s.at w with w := s.ticked.warp s.cur } : Issue).sysWrite n (sysKept n x)),
        (x.toNat % e.2.1 = 0 → s.Retires (.swr e.1 (.reg r)) (e.2.2, .next)) ∧
          (x.toNat % e.2.1 ≠ 0 → s.Traps w (.swr e.1 (.reg r)) true { code := 0x06, addr := x.toNat }) :=
      List.forall_mem_map.2 fun n hn => seen_sysWrite hw .. ▸ swrPair_acts hw hp hn he hr
    exact hacts e hmem
  · exact fun hu hh => ⟨fun n hn => systemRegisters_refused d a hw hu hh hn, traps_of_user hw hu hh (exec_sret s)⟩

end Sys2Proof.Machine
end

section
/-! Snapshot words (O41): SNAP by what it finds, and the values that SNAPQ reads (17 R404, R417). -/
namespace Sys2Proof.Machine

theorem exec_snap (a : Nat) (b : SOp) (s : State) : exec (.snap a b) s = execSnap a b s := rfl
theorem exec_snapq (a : Nat) (b : SOp) (s : State) : exec (.snapq a b) s = execSnapq a b s := rfl

/-! What the words read is the same once the marks of the issuing slices clear. -/

section seen
variable {s : State} {w : Warp} (hw : s.Issuing w)
include hw

theorem seen_snap : s.seen.s.snap = s.snap := by simp only [State.seen, State.ticked_eq hw.1]
theorem seen_snapOn : s.seen.s.snapOn = s.snapOn := by simp only [State.snapOn, State.seen, State.ticked_eq hw.1]
theorem seen_jnext : s.seen.s.dist.jnext = s.dist.jnext := by simp only [State.seen, State.ticked_eq hw.1]

end seen

section snap
variable {s : State} {w : Warp} {a : Nat} {b : SOp} (h : s.Admits w { cls := .l, ss := [a, a + 1] ++ opRegs b })
include h

/-- Snapshots are off, or the latest has failed: all ones. -/
theorem snap_refuses (hoff : s.snapOn = false ∨ s.snap.st = 5) : s.GivesPair (.snap a b) a (dword (2 ^ 64 - 1)) := by
  refine givesPair_of_passes h.1 (h.2.scalar _ (by simp)) (exec_snap ..) (h.2.onceAs true) ?_
  dsimp only
  rw [seen_snapOn h.1, seen_snap h.1, if_pos (by simpa using hoff)]
  rfl

/-- A snapshot is under way: its cut. -/
theorem snap_answersCut (hon : s.snapOn = true) (hst : s.snap.st = 1 ∨ s.snap.st = 2) :
    s.GivesPair (.snap a b) a (dword s.snap.cut) := by
  refine givesPair_of_passes h.1 (h.2.scalar _ (by simp)) (exec_snap ..) (h.2.onceAs true) ?_
  have hne : s.snap.st ≠ 5 := by omega
  dsimp only
  rw [seen_snapOn h.1, seen_snap h.1, if_neg (by simp [hon, hne]), if_pos (by simpa using hst)]
  rfl

/-- Else a snapshot is armed, and its cut is the index of the next record. -/
theorem snap_arms (hon : s.snapOn = true) (h1 : s.snap.st ≠ 1) (h2 : s.snap.st ≠ 2) (h5 : s.snap.st ≠ 5) :
    s.Retires (.snap a b) (chain s.ticked [armSnap ((s.at w).op b).toNat, fun _ =>
      [.sreg s.cur a (word s.dist.jnext), .sreg s.cur (a + 1) (word (s.dist.jnext / 2 ^ 32))]], .next) := by
  refine retires_of_issue h.1 (exec_snap ..) (h.2.onceAs true) ?_
  dsimp only
  rw [seen_snapOn h.1, seen_snap h.1, if_neg (by simp [hon, h5]), if_neg (by simp [h1, h2]), seen_op h.1.1, seen_jnext h.1,
    pairOut_dword]
  rfl

end snap

/-! SNAPQ (R417). -/

/-- The values that the selectors of SNAPQ name; with no snapshot, selectors 5 and 6 name a free word (log entry 2). -/
def State.snapValue (s : State) : Nat → Option Word
  | 0 => some (word s.snap.n)
  | 1 => some (word s.snap.st)
  | 2 => some (word (s.snap.pages.filter fun p => p.st == 1 || p.st == 2).length)
  | 3 => some (word (if s.snap.n = 0 ∨ s.snap.st = 3 ∨ s.snap.st = 4 then 0 else s.openChannels.length))
  | 4 => some (word ((s.frames 0 - s.usedFrames 0) + (s.frames 1 - s.usedFrames 1)))
  | 5 => some (if s.snap.n = 0 then s.freeWord 5 else word s.snap.cut)
  | 6 => some (if s.snap.n = 0 then s.freeWord 6 else word (s.snap.cut / 2 ^ 32))
  | _ => none

/-- SNAPQ writes the value that its selector names, and traps where it names none. -/
theorem snapq_body (a : Nat) (b : SOp) (s : State) : exec (.snapq a b) s =
    issue (fun _ => { cls := .a, once := true, ss := a :: opRegs b }) (fun I =>
      match I.s.snapValue (I.op b).toNat with
      | some x => .ok ([.sreg I.k a x], .next)
      | none => .error { code := 0x01 }) s := by
  rw [exec_snapq, execSnapq]
  congr 1
  funext I
  dsimp only
  rcases (I.op b).toNat with _ | _ | _ | _ | _ | _ | _ | n <;> simp [State.snapValue, or_assoc]

section snapq
variable {s : State} {w : Warp} {a : Nat} {b : SOp} (h : s.Admits w { cls := .a, ss := a :: opRegs b })
include h

theorem seen_snapValue (sel : Nat) : s.seen.s.snapValue sel = s.snapValue sel := by
  have hfree : ∀ j, s.seen.s.freeWord j = s.freeWord j := freeWord_ticked h.1.1
  have hopen : s.seen.s.openChannels = s.openChannels := by
    simp only [State.openChannels, State.routed, State.seen, State.ticked_eq h.1.1]
    rfl
  have hframes : ∀ d, s.seen.s.frames d = s.frames d := fun d => by
    simp only [State.frames, State.seen, State.ticked_eq h.1.1]
  have hused : ∀ d, s.seen.s.usedFrames d = s.usedFrames d := fun d => by
    simp only [State.usedFrames, State.seen, State.ticked_eq h.1.1]
  rcases sel with _ | _ | _ | _ | _ | _ | _ | n <;>
    simp only [State.snapValue, seen_snap h.1, hfree, hopen, hframes, hused]

theorem snapq_gives {x : Word} (hx : s.snapValue ((s.at w).op b).toNat = some x) : s.GivesScalar (.snapq a b) a x := by
  refine givesScalar_of_passes h.1 (h.2.scalar a (by simp)) (snapq_body ..) (h.2.onceAs true) ?_
  rw [seen_op h.1.1, seen_snapValue h, hx]
  rfl

theorem snapq_traps (hx : s.snapValue ((s.at w).op b).toNat = none) : s.Traps w (.snapq a b) true { code := 0x01 } := by
  refine traps_of_issue h.1 (snapq_body ..) (h.2.onceAs true) ?_
  rw [seen_op h.1.1, seen_snapValue h, hx]

end snapq

/-- Settles O41: SNAP by the state of the latest snapshot, and SNAPQ by the values that its selectors name. -/
theorem snapshotWords : Obligations.SnapshotWords := by
  intro s w a b I x
  refine ⟨fun h => ⟨snap_refuses h, snap_answersCut h, fun hon h1 h2 h5 => ?_⟩, fun h => ?_⟩
  · exact seen_op h.1.1 b ▸ snap_arms h hon h1 h2 h5
  · intro gives
    have hgives : ∀ {n : Nat} {v : Word}, s.snapValue n = some v → gives n v := fun hv hsel =>
      snapq_gives h ((congrArg s.snapValue ((congrArg BitVec.toNat (seen_op h.1.1 b)).symm.trans hsel)).trans hv)
    refine ⟨hgives rfl, hgives rfl, hgives rfl, hgives rfl, hgives rfl, hgives rfl, hgives rfl, fun hsel => snapq_traps h ?_⟩
    obtain ⟨n, hn⟩ := Nat.exists_eq_add_of_le' hsel
    exact (congrArg s.snapValue ((congrArg BitVec.toNat (seen_op h.1.1 b)).symm.trans hn)).trans rfl

end Sys2Proof.Machine
end

section
/-! JOIN at a JOIN word of 0 (O40): the model wakes the context's queues also where the word was 0 before, whatever the count
(16 R386). -/
namespace Sys2Proof.Machine

/-- The lead warp of a block of context 1, in user mode, with the address 0x6000 in s4. -/
def joiner : Warp :=
  { m := [(0, 0xFFFFFFFF), (14, 0xFFFFFFFF)], s := [(4, 0x6000)]
    ctl := { role := 0, vb := 64, launched := 0xFFFFFFFF, st := .active
             slices := List.replicate 8 { pc := 0x1000, inClause := true, words := [0x28000000, 0x28000000] } } }

/-- That warp at a JOIN of the record at 0x6000, whose JOIN word is 0: context 1 maps the first GiB to itself and has one region
with a launch queue, and no region is to be read again. -/
def joinAtZero : State :=
  { blocks := [(0, { ctx := 1, img := { ne := 1, nm := 0, nc := 0, vbe := 64, vbm := 0, vbc := 0, tiles := 0, shblk := 0 } })]
    ctxs := [(1, { valid := true, ptroot := 0x10000 })], warps := [(0, joiner)], cur := 0, slices := 255
    mem := [(0x10000, 0x01), (0x10001, 0x10), (0x10002, 0x01), (0x11000, 0x01), (0x11001, 0x20), (0x11002, 0x01),
      (0x12000, 0x7F)]
    dist := { trees := [⟨1, 0x4000, [0x4000], 2 ^ 824, 0x4080⟩] } }

/-- Where the record's JOIN word lies, and the translations that its access leaves. -/
def joinWord : Place × List Effect :=
  ({ sp := .phys, off := 0x604C }, [.tlbAdd { unit := 0, ctx := 1, level := 3, base := 0, entry := 127, pa := 0x12000 },
    .tlbAdd { unit := 192, ctx := 1, level := 3, base := 0, entry := 127, pa := 0x12000 },
    .tlbAdd { unit := 204, ctx := 1, level := 5, base := 0, entry := 0x11001, pa := 0x10000 },
    .tlbAdd { unit := 204, ctx := 1, level := 4, base := 0, entry := 0x12001, pa := 0x11000 }])

theorem joinAtZero_admits : joinAtZero.Admits joiner { cls := .a, ss := [159, 4, 4 + 1] ++ opRegs (.const 1) } :=
  ⟨⟨rfl, by unfold Warp.Ok; decide⟩, Chk.passes_of_fault (by decide)⟩

theorem joinAtZero_recordAt : joinAtZero.seen.recordAt (joinAtZero.seen.pair 4).toNat 128 76 4 = .ok joinWord := rfl

/-- What the model does: the region is to be read again. -/
theorem joinAtZero_wakes :
    (match exec (.join 159 4 (.const 1)) joinAtZero with | .next t => t.dist.reading | _ => []) = [(1, 0x4000)] := by
  decide +kernel

/-- Refutes O40: JOIN of count 1 at a JOIN word of 0 wakes the context, though its count is not the old value. -/
theorem not_returnLaunchAndJoin : ¬ Obligations.ReturnLaunchAndJoin := by
  intro h
  have hjoin := ((h joinAtZero joiner 159 4 0 (.const 1)).2.2.2 joinAtZero_admits).2 _ _ joinAtZero_recordAt
    (by decide) ⟨by decide, by decide⟩
  have hwakes := joinAtZero_wakes
  rw [hjoin] at hwakes
  revert hwakes
  decide +kernel

end Sys2Proof.Machine
end

section
/-! Steps of a snapshot (O58): canaries, the local cut, page operations, the drain engines and the snapshot commands (17 R404 to
R420). -/
namespace Sys2Proof.Machine

section canary
variable {s : State} {n chip plane cls : Nat}

/-- What closes a channel: the canary of the latest snapshot, while that one is armed or cut. -/
def closeChannel (n key : Nat) (s : State) : List Effect :=
  if s.snap.n = n && (s.snap.st = 1 || s.snap.st = 2) && !s.snap.closed.contains key then
    chain s [fun s => [.snap { s.snap with closed := key :: s.snap.closed }], settleSnap]
  else []

theorem closeChannel_open {key : Nat} (hn : s.snap.n = n) (hst : s.snap.st = 1 ∨ s.snap.st = 2) (hopen : key ∉ s.snap.closed) :
    closeChannel n key s = chain s [fun s => [.snap { s.snap with closed := key :: s.snap.closed }], settleSnap] :=
  if_pos (by simp [hn, hst, hopen])

theorem canaryArrive_malformed (h : ¬(chip < 512 ∧ plane < 96 ∧ cls < 4)) : s.Commits (.canaryArrive n chip plane cls) [] := by
  have hbad : (decide (512 ≤ chip) || decide (96 ≤ plane) || decide (4 ≤ cls)) = true := by
    simp only [Bool.or_eq_true, decide_eq_true_eq]
    omega
  exact if_pos hbad

section packet
variable (h : chip < 512 ∧ plane < 96 ∧ cls < 4)
include h

/-- A canary on a channel: what it does to the latest snapshot, then to its channel. -/
theorem canaryArrive_acts : s.Commits (.canaryArrive n chip plane cls) (chain s [
    fun s => if n ≠ s.snap.n + 1 then [] else if s.snap.st = 1 || s.snap.st = 2 then endSnap 5 s
      else if s.mayArm then armSnap 0 s else [],
    closeChannel n (channelKey chip plane cls)]) := by
  have hgood : ¬(decide (512 ≤ chip) || decide (96 ≤ plane) || decide (4 ≤ cls)) = true := by
    simp only [Bool.or_eq_true, decide_eq_true_eq]
    omega
  exact if_neg hgood

/-- A canary of the latest snapshot closes its channel. -/
theorem canaryArrive_closes (hn : n = s.snap.n) (hst : s.snap.st = 1 ∨ s.snap.st = 2)
    (hopen : channelKey chip plane cls ∉ s.snap.closed) : s.Commits (.canaryArrive n chip plane cls)
      (chain s [fun s => [.snap { s.snap with closed := channelKey chip plane cls :: s.snap.closed }], settleSnap]) := by
  have hacts := canaryArrive_acts (s := s) (n := n) h
  have hne : n ≠ s.snap.n + 1 := by omega
  rw [chain, if_pos hne] at hacts
  exact hacts.trans (congrArg (commit s) ((List.append_nil _).trans (closeChannel_open hn.symm hst hopen)))

/-- A canary of the next snapshot fails the latest, or arms the next; then it closes its channel. -/
theorem canaryArrive_next (hn : n = s.snap.n + 1) : s.Commits (.canaryArrive n chip plane cls) (chain s [
    fun t => if s.snap.st = 1 ∨ s.snap.st = 2 then endSnap 5 t else if t.mayArm then armSnap 0 t else [],
    closeChannel n (channelKey chip plane cls)]) := by
  have hacts := canaryArrive_acts (s := s) (n := n) h
  rw [chain, if_neg (not_not_intro hn)] at hacts
  simp only [Bool.or_eq_true, decide_eq_true_eq] at hacts
  exact hacts

end packet
end canary

theorem localCut_cuts {s : State} (h1 : s.snap.st = 1) (hheld : s.cutHeld = false) :
    let items := s.vaultItems ++ s.combineItems
    let need := fun (d : Nat) => (items.map fun y => onDie y.frames d).foldl (· + ·) 0
    s.Commits .localCut (chain s [
      fun s => [.snap { s.snap with st := 2, pages := s.snap.pages.map (SnapPage.atCut s.snap.n) }],
      snapStep,
      fun s => if s.frames 0 < s.usedFrames 0 + need 0 || s.frames 1 < s.usedFrames 1 + need 1 then endSnap 5 s
        else [.snap { s.snap with
          mans := onManifest s.snap.n (fun m => { m with items, vaultg := s.vaultg }) s.snap.mans
          made := s.snap.made ++ s.cmbs.map fun y => (2, Config.combineImage y.fields, y.fields) }],
      fun s => if s.snap.st = 2 then [.fab { s.fab with sent := s.fab.sent ++ s.canaries }] else [],
      replayBlocked, settleSnap]) := if_neg (by simp [h1, hheld])

/-! The drain engines (R416), once the ring has room and the manifest is not that of a snapshot still armed. -/

section drain
variable {s : State} {page : Nat} {m : Manifest} (hm : s.manifest = some m) (hroom : s.ringFree ≠ 0)
  (hcut : s.snap.st = 1 → m.n ≠ s.snap.n)
include hm hroom hcut

/-- What is written next: the page, where it is pinned or copied for the manifest; else what is left of the manifest. -/
theorem drainNext_eq : drainNext page s =
    if m.pos = 0 && ((s.snapPage page).st = 2 || (s.snapPage page).st = 3) && (s.snapPage page).n = m.n then
      drainPage m (s.snapPage page) s
    else match m.items with
      | x :: _ => drainItem m x s
      | [] => if s.tailOnly m then drainTail m s else [] := by
  have hgo : ¬(decide (s.ringFree = 0) || decide (s.snap.st = 1) && decide (m.n = s.snap.n)) = true := by
    simpa [hroom] using hcut
  rw [drainNext, hm]
  exact if_neg hgo

theorem drainWrite_page (hpos : m.pos = 0) (hst : (s.snapPage page).st = 2 ∨ (s.snapPage page).st = 3)
    (hn : (s.snapPage page).n = m.n) : s.Commits (.drainWrite page) (drainPage m (s.snapPage page) s) :=
  congrArg (commit s) ((drainNext_eq hm hroom hcut).trans (if_pos (by simpa [hpos, hn] using hst)))

section rest
variable (hst : (s.snapPage page).st < 2)
include hst

theorem drainNext_rest : drainNext page s = match m.items with
    | x :: _ => drainItem m x s
    | [] => if s.tailOnly m then drainTail m s else [] := by
  have h2 : (s.snapPage page).st ≠ 2 := by omega
  have h3 : (s.snapPage page).st ≠ 3 := by omega
  exact (drainNext_eq hm hroom hcut).trans (if_neg (by simp [h2, h3]))

theorem drainWrite_item {i : SnapItem} {is : List SnapItem} (hi : m.items = i :: is) :
    s.Commits (.drainWrite page) (drainItem m i s) :=
  congrArg (commit s) ((drainNext_rest hm hroom hcut hst).trans (by rw [hi]))

theorem drainWrite_tail (hi : m.items = []) : s.Event (.drainWrite page) (s.tailOnly m = true) (drainTail m s) :=
  State.event_of_effects (congrArg (commit s) ((drainNext_rest hm hroom hcut hst).trans (by rw [hi])))

end rest
end drain

/-! The snapshot commands (R418 to R420). -/

theorem snapcmdAbort_ends {s : State} (h : s.snap.st = 1 ∨ s.snap.st = 2) :
    s.Commits .snapcmdAbort (chain s [endSnap 6, cmdDone false]) := if_pos (by simpa using h)

theorem snapcmdAbort_refused {s : State} (h1 : s.snap.st ≠ 1) (h2 : s.snap.st ≠ 2) : s.Commits .snapcmdAbort (cmdDone true s) :=
  if_neg (by simp [h1, h2])

/-- A rollback where a context is valid or a block resident is refused. -/
theorem snapcmdRollback_busy {s : State} {n : Nat} (h : (∃ c ∈ s.ctxs, c.2.valid = true) ∨ s.blocks ≠ []) :
    s.Commits (.snapcmdRollback n) (cmdDone true s) := by
  have hbusy : (s.ctxs.all (fun c => !c.2.valid) && s.blocks.isEmpty) = false := by
    rw [Bool.and_eq_false_iff]
    exact h.imp (fun ⟨c, hc, hv⟩ => List.all_eq_false.2 ⟨c, hc, by simp [hv]⟩) fun hne => by simpa using hne
  change execSnapcmdRollback n s = _
  rw [execSnapcmdRollback]
  simp only [hbusy]
  rfl

theorem snapcmdRollback_restores {s : State} {n : Nat} {l : List Nat} (hctx : ∀ c ∈ s.ctxs, c.2.valid = false)
    (hblk : s.blocks = []) (hl : s.manChain (bits (s.manAt n) 1983 1952 + 1) n (2 ^ 32) = some l) :
    s.Commits (.snapcmdRollback n) (chain s [rollbackTo n l, cmdDone false]) := by
  have hidle : (s.ctxs.all (fun c => !c.2.valid) && s.blocks.isEmpty) = true := by
    simpa [hblk] using hctx
  change execSnapcmdRollback n s = _
  rw [execSnapcmdRollback]
  simp only [hidle, if_true, hl]
  rfl

/-- Settles O58: each step of a snapshot, by the conditions under which it takes place. -/
theorem snapshotStepsTakePlace : Obligations.SnapshotStepsTakePlace := by
  intro s n chip plane cls page x key packet
  exact ⟨canaryArrive_closes, canaryArrive_malformed, canaryArrive_next, localCut_cuts, State.event_of_test Iff.rfl rfl,
    State.event_of_test Iff.rfl rfl,
    fun m hm hroom hcut => ⟨drainWrite_page hm hroom hcut,
      fun hst => ⟨fun i is => drainWrite_item hm hroom hcut hst, drainWrite_tail hm hroom hcut hst⟩⟩,
    rfl, rfl, snapcmdAbort_ends, snapcmdAbort_refused, snapcmdRollback_busy, fun l => snapcmdRollback_restores⟩

end Sys2Proof.Machine
end

section
/-! Combine words (O38): CMBCFG by its checks and what its number names, the requests of CMBDISP and CMBPUT, CMBWAIT, CMBQ and
CMBDRAIN (15 R362, R364, R370, R372). -/
namespace Sys2Proof.Machine

theorem exec_cmbcfg (d a : Nat) (b : SOp) (s : State) : exec (.cmbcfg d a b) s = execCmbcfg d a b s := rfl
theorem exec_cmbdisp (t x : Nat) (b : SOp) (s : State) : exec (.cmbdisp t x b) s = execCmbdisp t x b s := rfl
theorem exec_cmbput (t x : Nat) (b : SOp) (s : State) : exec (.cmbput t x b) s = execCmbput t x b s := rfl
theorem exec_cmbwait (n : Nat) (b c : SOp) (s : State) : exec (.cmbwait n b c) s = execCmbwait n b c s := rfl
theorem exec_cmbq (d : Nat) (b c : SOp) (s : State) : exec (.cmbq d b c) s = execCmbq d b c s := rfl
theorem exec_cmbdrain (d : Nat) (b : SOp) (s : State) : exec (.cmbdrain d b) s = execCmbdrain d b s := rfl

/-! What the words read is the same once the marks of the issuing slices clear. -/

section seen
variable {s : State} {w : Warp} (hw : s.Issuing w)
include hw

/-- A part of the state that is none of its contexts' records. -/
theorem seen_outside {α : Type} (f : State → α) (h : ∀ l, f { s with warps := l } = f s) : f s.seen.s = f s := by
  simp only [State.seen, State.ticked_eq hw.1, h]

theorem seen_ctx : s.seen.blk.ctx = (s.blk (blockOf s.cur)).ctx := by rw [seen_blk hw.1]; rfl
theorem seen_cmb (ctx n : Nat) : s.seen.s.cmb ctx n = s.cmb ctx n := seen_outside hw (fun s => s.cmb ctx n) fun _ => rfl
theorem seen_epochOf (k : Nat) : s.seen.s.epochOf k = s.epochOf k := seen_outside hw (fun s => s.epochOf k) fun _ => rfl
theorem seen_postCut (e : Nat) : s.seen.s.postCut e = s.postCut e := seen_outside hw (fun s => s.postCut e) fun _ => rfl
theorem seen_routing (c : Nat) : s.seen.s.mgmt.routing.get c = s.mgmt.routing.get c :=
  seen_outside hw (fun s => s.mgmt.routing.get c) fun _ => rfl
theorem seen_vbudget : s.seen.c.vbudget = w.ctl.vbudget := by rw [seen_c hw.1]; rfl

end seen

/-! CMBCFG (R362). -/

section cmbcfg
variable {s : State} {w : Warp} {d a : Nat} {b : SOp} (h : s.Admits w { cls := .l, ss := d :: span a 8 ++ opRegs b })
include h

theorem cmbcfg_traps {e : Trap} (hbad : s.seen.cfgBad (s.seen.desc a) = some e) : s.Traps w (.cmbcfg d a b) true e := by
  refine traps_of_issue h.1 (exec_cmbcfg ..) (h.2.onceAs true) ?_
  obtain ⟨bad, hf⟩ : ∃ bad, s.seen.cfgBad = bad := ⟨_, rfl⟩
  rw [hf] at hbad ⊢
  dsimp only
  rw [hbad]

/-- The effects of a CMBCFG that answers with a code. -/
def State.cmbcfgGives (s : State) (d a : Nat) (b : SOp) (es : List Effect) (code : Word) : Prop :=
  s.Retires (.cmbcfg d a b) (es ++ [.sreg s.cur d code], .next)

/-- The unowned buffer of a number with this descriptor. -/
def State.freeCmb (s : State) (ctx n desc : Nat) : Option Cmb :=
  (s.cmb ctx n).filter fun z => z.owner == unowned && z.desc == desc

section accepted
variable (hok : s.seen.cfgBad (s.seen.desc a) = none) (hst : s.snap.st ≠ 1)
include hok hst

/-- What a CMBCFG whose descriptor passes its checks answers, and with which effects. -/
theorem cmbcfg_answers :
    let ctx := (s.blk (blockOf s.cur)).ctx
    let y := s.seen.desc a
    let n := (s.seen.op b).toNat
    let code : Nat := if (s.freeCmb ctx n y).isSome then 0 else if 31 < n || (s.cmb ctx n).isSome then 1
      else if s.slicesInService.all (s.combineRoom y) then 0 else 2
    s.cmbcfgGives d a b (if (s.freeCmb ctx n y).isSome then [.cmbs (s.cmbs.map fun z =>
        if z.ctx = ctx ∧ z.buf = n then { z with owner := blockOf s.cur, priv := w.ctl.priv } else z)]
      else if code = 0 then [.cmbs (s.cmbs ++
        [{ ctx, buf := n, owner := blockOf s.cur, desc := y, homes := s.slicesInService, priv := w.ctl.priv }])]
      else []) (word code) := by
  refine retires_of_issue h.1 (exec_cmbcfg ..) (h.2.onceAs true) ?_
  have hcmbs : s.seen.s.cmbs = s.cmbs := seen_outside h.1 State.cmbs fun _ => rfl
  have hhomes : s.seen.s.slicesInService = s.slicesInService := seen_outside h.1 State.slicesInService fun _ => rfl
  have hroom : s.seen.s.combineRoom = s.combineRoom := seen_outside h.1 State.combineRoom fun _ => rfl
  obtain ⟨bad, hf⟩ : ∃ bad, s.seen.cfgBad = bad := ⟨_, rfl⟩
  rw [hf] at hok ⊢
  dsimp only
  rw [hok, seen_snap h.1]
  dsimp only
  rw [if_neg (by simp [hst]), hcmbs, hhomes, hroom, seen_ctx h.1, seen_cmb h.1, seen_priv h.1.1]
  rfl

section named
variable {n : Nat} (hn : (s.seen.op b).toNat = n)
include hn

/-- An unowned buffer with an identical descriptor is adopted (R419). -/
theorem cmbcfg_adopts (hfree : (s.freeCmb (s.blk (blockOf s.cur)).ctx n (s.seen.desc a)).isSome = true) :
    s.cmbcfgGives d a b [.cmbs (s.cmbs.map fun z => if z.ctx = (s.blk (blockOf s.cur)).ctx ∧ z.buf = n then
      { z with owner := blockOf s.cur, priv := w.ctl.priv } else z)] 0 := by
  have hans := cmbcfg_answers h hok hst
  simp only [hn, hfree, if_true] at hans
  exact hans

/-- A number beyond 31, or one that is taken. -/
theorem cmbcfg_taken (hfree : s.freeCmb (s.blk (blockOf s.cur)).ctx n (s.seen.desc a) = none)
    (htaken : 31 < n ∨ (s.cmb (s.blk (blockOf s.cur)).ctx n).isSome = true) : s.cmbcfgGives d a b [] 1 := by
  have hans := cmbcfg_answers h hok hst
  have hcond : (decide (31 < n) || (s.cmb (s.blk (blockOf s.cur)).ctx n).isSome) = true := by simpa using htaken
  simp only [hn, hfree, hcond, Option.isSome_none, Bool.false_eq_true, if_true, if_false, one_ne_zero] at hans
  exact hans

section free
variable (hlt : n < 32) (hnone : s.cmb (s.blk (blockOf s.cur)).ctx n = none)
include hlt hnone

/-- What a number that is free turns on: whether every slice in service has room for the buffer. -/
theorem cmbcfg_free {room : Bool} (hroom : s.slicesInService.all (s.combineRoom (s.seen.desc a)) = room) :
    let new : Cmb := { ctx := (s.blk (blockOf s.cur)).ctx, buf := n, owner := blockOf s.cur, desc := s.seen.desc a
                       homes := s.slicesInService, priv := w.ctl.priv }
    s.cmbcfgGives d a b (if room then [.cmbs (s.cmbs ++ [new])] else []) (if room then 0 else 2) := by
  intro new
  have hans := cmbcfg_answers h hok hst
  have hfree : s.freeCmb (s.blk (blockOf s.cur)).ctx n (s.seen.desc a) = none := by rw [State.freeCmb, hnone]; rfl
  have hcond : (decide (31 < n) || (s.cmb (s.blk (blockOf s.cur)).ctx n).isSome) = false := by
    rw [hnone, Option.isSome_none, Bool.or_false, decide_eq_false_iff_not]
    omega
  simp only [hn, hfree, hcond, hroom, Option.isSome_none, Bool.false_eq_true, if_false] at hans
  cases room <;> exact hans

theorem cmbcfg_noRoom (hroom : s.slicesInService.all (s.combineRoom (s.seen.desc a)) = false) : s.cmbcfgGives d a b [] 2 :=
  cmbcfg_free (room := false) h hok hst hn hlt hnone hroom

theorem cmbcfg_makes (hroom : s.slicesInService.all (s.combineRoom (s.seen.desc a)) = true) :
    let new : Cmb := { ctx := (s.blk (blockOf s.cur)).ctx, buf := n, owner := blockOf s.cur, desc := s.seen.desc a
                       homes := s.slicesInService, priv := w.ctl.priv }
    s.cmbcfgGives d a b [.cmbs (s.cmbs ++ [new])] 0 :=
  cmbcfg_free (room := true) h hok hst hn hlt hnone hroom

end free
end named
end accepted
end cmbcfg

/-! CMBDISP and CMBPUT (R364, R365). -/

/-- What the requests of one word have in common. -/
def State.cmbRequest (s : State) (w : Warp) (name : Nat) : CmbReq :=
  { id := 0, k := s.cur, sl := lowest 8 s.slices, lane := 0, put := false, ctx := (s.blk (blockOf s.cur)).ctx, name, tok := 0
    experts := [], weights := [], rowAddr := 0, len := 0, priv := w.ctl.priv, stage := 0, joins := false, chip := 0, plane := 0
    tag := 0, epoch := s.epochOf s.cur, wordv := s.seen.clauseWord }

/-- A token or an expert that a lane names. -/
def Issue.tok (I : Issue) (r l : Nat) : Nat := (I.v r l).toNat % 65536

section cmbdisp
variable {s : State} {w : Warp} {t x : Nat} {b : SOp} {name : Nat} (hn : (s.seen.op b).toNat = name)
  (h : s.Admits w { cls := .e, helper := false, vs := [t, x], ss := opRegs b })
include hn h

theorem cmbdisp_traps {e : Trap} (hbad : s.seen.buffer name s.seen.active (s.seen.tok t (s.seen.act.headD 0)) 0 = .error e) :
    s.Traps w (.cmbdisp t x b) false e := by
  refine traps_of_issue h.1 (exec_cmbdisp ..) h.2 ?_
  subst hn
  dsimp only
  rw [show s.seen.buffer _ _ ((s.seen.v t (s.seen.act.headD 0)).toNat % 65536) 0 = _ from hbad]

theorem cmbdisp_sends {m : Cmb} (hbuf : s.seen.buffer name s.seen.active (s.seen.tok t (s.seen.act.headD 0)) 0 = .ok m)
    (hvs : x + 2 * bK m.desc ≤ w.ctl.vbudget) (hroom : s.seen.countRoom s.seen.act.length = true) :
    s.Retires (.cmbdisp t x b) (s.seen.sendLanes (s.seen.act.map fun l => { s.cmbRequest w name with
      lane := l, tok := s.seen.tok t l, experts := (span 0 (bK m.desc)).map fun j => s.seen.tok (x + j) l
      weights := (span 0 (bK m.desc)).map fun j => s.seen.v (x + bK m.desc + j) l }) false name) := by
  refine retires_of_issue h.1 (exec_cmbdisp ..) h.2 ?_
  subst hn
  dsimp only
  rw [show s.seen.buffer _ _ ((s.seen.v t (s.seen.act.headD 0)).toNat % 65536) 0 = _ from hbuf]
  dsimp only
  rw [if_neg (by rw [seen_vbudget h.1]; omega), if_neg (by simp [hroom])]
  simp only [seen_ctx h.1, seen_priv h.1.1, seen_epochOf h.1]
  rfl

end cmbdisp

section cmbput
variable {s : State} {w : Warp} {t x : Nat} {b : SOp} {name : Nat} (hn : (s.seen.op b).toNat = name)
  (h : s.Admits w { cls := .e, helper := false, vs := [t, t + 1, x, x + 1], ss := opRegs b }) (hx : x % 2 = 0)

/-- The bytes that a put of this chip brings from each row address: those of a row of the buffer that its name gives. -/
def State.putLen (s : State) (ctx name : Nat) (remote : Bool) : Nat :=
  if remote then 1 else match s.cmb ctx (nameBuf name) with
    | some y => if bits name 17 0 = 0 then bRowBytes y.desc else 1
    | none => 1

variable (hrows : ∀ l ∈ s.seen.act, s.seen.rowBad (s.seen.vpair x l).toNat
  (s.putLen (s.blk (blockOf s.cur)).ctx name (decide (nameChip name ≠ s.chip))) = none)
include hn h hx hrows

/-- What a put whose row addresses pass their checks does. -/
theorem cmbput_body :
    let remote := decide (nameChip name ≠ s.chip)
    ∃ body, exec (.cmbput t x b) s =
        issue (fun _ => { cls := .e, helper := false, vs := [t, t + 1, x, x + 1], ss := opRegs b }) body s ∧ body s.seen =
      if remote && !(s.mgmt.routing.get (nameChip name)).getLsbD 15 then
        .ok (s.seen.release [s.seen.noRoute (nameChip name)] .next)
      else if !s.seen.countRoom s.seen.act.length then .ok ([], .wait (.full 4 s.seen.act.length))
      else if remote && !s.ticked.maySend s.cur then .ok ([], .again)
      else .ok (s.seen.sendLanes (s.seen.act.map fun l => { s.cmbRequest w name with
        put := true, lane := l, tok := s.seen.tok t l, experts := [s.seen.tok (t + 1) l]
        rowAddr := (s.seen.vpair x l).toNat
        len := s.putLen (s.blk (blockOf s.cur)).ctx name remote, joins := remote }) remote name) := by
  intro remote
  have hnone : ∀ f : Nat → Option (Nat × Trap), (∀ l ∈ s.seen.act, f l = none) → s.seen.act.filterMap f = [] :=
    fun _ => List.filterMap_eq_nil_iff.2
  refine ⟨_, exec_cmbput .., ?_⟩
  subst hn
  dsimp only
  rw [seen_chip h.1, seen_ctx h.1, seen_cmb h.1, if_neg (not_not_intro hx), seen_routing h.1]
  rw [hnone]
  · dsimp only
    simp only [seen_priv h.1.1, seen_epochOf h.1]
    rfl
  · exact fun l hl => congrArg (Option.map _) (hrows l hl)

/-- A put to a chip without a route ends at once (R335). -/
theorem cmbput_noRoute
    (hr : ¬(decide (nameChip name ≠ s.chip) = true → (s.mgmt.routing.get (nameChip name)).getLsbD 15 = true)) :
    s.Releases (.cmbput t x b) [s.seen.noRoute (nameChip name)] .next := by
  obtain ⟨body, hi, hb⟩ := cmbput_body hn h hx hrows
  exact releases_of_issue h.1 hi h.2 (hb.trans (if_pos (by simpa using hr)))

/-- A put with room, and to another chip with a route that may be used, is sent. -/
theorem cmbput_sends (hr : decide (nameChip name ≠ s.chip) = true → (s.mgmt.routing.get (nameChip name)).getLsbD 15 = true)
    (hroom : s.seen.countRoom s.seen.act.length = true)
    (hmay : decide (nameChip name ≠ s.chip) = true → s.ticked.maySend s.cur = true) :
    s.Retires (.cmbput t x b) (s.seen.sendLanes (s.seen.act.map fun l => { s.cmbRequest w name with
      put := true, lane := l, tok := s.seen.tok t l, experts := [s.seen.tok (t + 1) l]
      rowAddr := (s.seen.vpair x l).toNat
      len := s.putLen (s.blk (blockOf s.cur)).ctx name (decide (nameChip name ≠ s.chip))
      joins := decide (nameChip name ≠ s.chip) }) (decide (nameChip name ≠ s.chip)) name) := by
  obtain ⟨body, hi, hb⟩ := cmbput_body hn h hx hrows
  refine retires_of_issue h.1 hi h.2 (hb.trans ?_)
  rw [if_neg (by simpa using hr), if_neg (by simp [hroom]), if_neg (by simpa using hmay)]

end cmbput

/-! CMBWAIT and CMBQ (R370). -/

section cmbwait
variable {s : State} {w : Warp} {n : Nat} {b c : SOp}
  (h : s.Admits w { cls := .a, helper := false, ss := n :: opRegs b ++ opRegs c })
  {y : Cmb} (hbuf : s.seen.buffer (s.seen.rs n).toNat 0 0 0 = .ok y) {lo hi : Nat} (hlo : (s.seen.op b).toNat = lo)
  (hhi : (s.seen.op c).toNat = hi) (hle : hi ≤ bNtok y.desc)
include h hbuf hlo hhi hle

theorem cmbwait_passes (hrel : hi ≤ lo ∨ y.releasedIn lo hi = true) : s.GivesFlow (.cmbwait n b c) .next := by
  subst hlo hhi
  refine givesFlow_of_passes h.1 (exec_cmbwait ..) (h.2.onceAs true) rfl ?_
  dsimp only
  rw [hbuf]
  dsimp only
  rw [if_neg (Nat.not_lt.2 hle), if_pos (by simpa using hrel)]

theorem cmbwait_waits (hlt : lo < hi) (hrel : y.releasedIn lo hi = false) : s.Retires (.cmbwait n b c)
    ([], .wait (.release y.ctx y.buf lo hi ((bOut y.desc + ((span lo (hi - lo)).find? fun t => !y.released.contains t).getD lo *
      bOstride y.desc) % 2 ^ 64))) := by
  subst hlo hhi
  refine retires_of_issue h.1 (exec_cmbwait ..) (h.2.onceAs true) ?_
  dsimp only
  rw [hbuf]
  dsimp only
  rw [if_neg (Nat.not_lt.2 hle), if_neg (by simp [hlt, hrel])]

end cmbwait

/-- The counts that the selectors of CMBQ name. -/
def Cmb.queried (y : Cmb) : Nat → Nat
  | 0 => y.released.length
  | 1 => y.slots.length
  | 2 => y.dup
  | 3 => y.late
  | 4 => y.subs
  | _ => (y.slots.filter fun z => z.st == 2).length

theorem cmbq_gives {s : State} {w : Warp} {d : Nat} {b c : SOp} (h : s.Admits w { cls := .a, ss := d :: opRegs b ++ opRegs c })
    {y : Cmb} (hbuf : s.seen.buffer (s.seen.op b).toNat 0 0 0 = .ok y) {sel : Nat} (hsel : (s.seen.op c).toNat = sel)
    (hle : sel ≤ 5) : s.GivesScalar (.cmbq d b c) d (word (y.queried sel)) := by
  refine givesScalar_of_passes h.1 (h.2.scalar d (by simp)) (exec_cmbq ..) (h.2.onceAs true) ?_
  dsimp only
  rw [hsel, if_neg (Nat.not_lt.2 hle), hbuf]
  rfl

/-! CMBDRAIN (R372). -/

section cmbdrain
variable {s : State} {w : Warp} {d : Nat} {b : SOp} (h : s.Admits w { cls := .l, ss := d :: opRegs b })
include h

/-- What CMBDRAIN finds under its number. -/
theorem seen_drained : s.seen.s.cmb s.seen.blk.ctx (s.seen.op b).toNat =
    s.cmb (s.blk (blockOf s.cur)).ctx (s.seen.op b).toNat := by rw [seen_ctx h.1, seen_cmb h.1]

theorem cmbdrain_none (hy : s.cmb (s.blk (blockOf s.cur)).ctx (s.seen.op b).toNat = none) :
    s.GivesScalar (.cmbdrain d b) d 0xFFFFFFFF := by
  refine givesScalar_of_passes h.1 (h.2.scalar d (by simp)) (exec_cmbdrain ..) (h.2.onceAs true) ?_
  dsimp only
  rw [seen_drained h, hy]
  rfl

variable {y : Cmb} (hy : s.cmb (s.blk (blockOf s.cur)).ctx (s.seen.op b).toNat = some y)
include hy

theorem cmbdrain_lost (hl : y.lost = true) :
    let name := s.chip * 2 ^ 23 + y.buf * 2 ^ 18
    s.Traps w (.cmbdrain d b) true { code := 0x10, addr := name, extk := 6, ext := cmbExt name 0 0 0 0 0 0 [] } := by
  refine traps_of_issue h.1 (exec_cmbdrain ..) (h.2.onceAs true) ?_
  dsimp only
  rw [seen_drained h, hy]
  dsimp only
  rw [if_pos hl, seen_chip h.1]

section kept
variable (hl : y.lost = false)
include hl

/-- After the cut of a snapshot that is still armed a drain waits (R411). -/
theorem cmbdrain_waits (hst : s.snap.st = 1) (hcut : s.postCut (s.epochOf s.cur) = true) :
    s.Retires (.cmbdrain d b) ([], .wait (.drained y.ctx y.buf)) := by
  refine retires_of_issue h.1 (exec_cmbdrain ..) (h.2.onceAs true) ?_
  dsimp only
  rw [seen_drained h, hy]
  dsimp only
  rw [if_neg (by simp [hl]), seen_snap h.1, seen_epochOf h.1, seen_k, seen_postCut h.1, if_pos (by simp [hst, hcut])]

theorem cmbdrain_drains (hst : s.snap.st ≠ 1 ∨ s.postCut (s.epochOf s.cur) = false)
    (hstop : (drainBuffer y false s.ticked).stop = none) : s.Retires (.cmbdrain d b)
      ((drainBuffer y false s.ticked).effs ++ [.sreg s.cur d (word (drainBuffer y false s.ticked).count)], .next) := by
  have hgo : ¬(decide (s.snap.st = 1) && s.postCut (s.epochOf s.cur)) = true := by
    rcases hst with hst | hcut
    · simp [hst]
    · simp [hcut]
  refine retires_of_issue h.1 (exec_cmbdrain ..) (h.2.onceAs true) ?_
  dsimp only
  rw [seen_drained h, hy]
  dsimp only
  rw [if_neg (by simp [hl]), seen_snap h.1, seen_epochOf h.1, seen_k, seen_postCut h.1, if_neg hgo,
    show (drainBuffer y false s.seen.s).stop = none from hstop]
  rfl

end kept
end cmbdrain

/-- Settles O38: each combine word by what it finds. -/
theorem combineWords : Obligations.CombineWords := by
  intro s w d a t x n b c I ctx
  refine ⟨fun h => ?_, ⟨fun h => ?_, fun h hx => ?_⟩, fun h => ?_, fun h y hbuf => ?_, fun h => ?_⟩
  · exact ⟨fun e => cmbcfg_traps h, fun hok hst => ⟨cmbcfg_adopts h hok hst rfl, cmbcfg_taken h hok hst rfl,
      cmbcfg_noRoom h hok hst rfl, cmbcfg_makes h hok hst rfl⟩⟩
  · exact ⟨fun e => cmbdisp_traps rfl h, fun m hbuf hvs hroom _ => cmbdisp_sends rfl h hbuf hvs hroom⟩
  · exact fun hrows => ⟨cmbput_noRoute rfl h hx hrows, fun hr hroom _ hmay => cmbput_sends rfl h hx hrows hr hroom hmay⟩
  · exact fun y hbuf hle => ⟨cmbwait_passes h hbuf rfl rfl hle, cmbwait_waits h hbuf rfl rfl hle⟩
  · have hgives : ∀ {sel : Word}, sel.toNat ≤ 5 → I.op c = sel → s.GivesScalar (.cmbq d b c) d (word (y.queried sel.toNat)) :=
      fun hle hsel => cmbq_gives h hbuf (congrArg BitVec.toNat hsel) hle
    exact ⟨hgives (by decide), hgives (by decide), hgives (by decide), hgives (by decide), hgives (by decide),
      hgives (by decide)⟩
  · exact ⟨cmbdrain_none h, fun y hy => ⟨cmbdrain_lost h hy, cmbdrain_waits h hy, cmbdrain_drains h hy⟩⟩

end Sys2Proof.Machine
end

section
/-! Recruitment words (O36): RECRUIT, the foreman's words, the helper's words, and the order in which a span's iterations are
dealt (13 R308 to R322). -/
namespace Sys2Proof.Machine

theorem exec_recruit (d a md ask : Nat) (rk : Bool) (s : State) :
    exec (.recruit d a md ask rk) s = execRecruit d a md ask rk s := rfl
theorem exec_hidx (d m : Nat) (s : State) : exec (.hidx d m) s = execHidx d m s := rfl
theorem exec_hrd (d n : Nat) (s : State) : exec (.hrd d n) s = execHrd d n s := rfl
theorem exec_hred (a : Nat) (s : State) : exec (.hred a) s = execHred a s := rfl
theorem exec_hjoin (d e : Nat) (s : State) : exec (.hjoin d e) s = execHjoin d e s := rfl
theorem exec_dismiss (s : State) : exec .dismiss s = execDismiss s := rfl
theorem exec_hend (s : State) : exec .hend s = execHend s := rfl

/-! What the words read is the same once the marks of the issuing slices clear. -/

section seen
variable {s : State} {w : Warp} (hw : s.Issuing w)
include hw

theorem seen_helper : s.seen.c.helper = w.ctl.helper := by rw [seen_c hw.1]; rfl
theorem seen_span : s.seen.c.span = w.ctl.span := by rw [seen_c hw.1]; rfl
theorem seen_viewSize : viewSize s.seen.c = viewSize w.ctl := by rw [seen_c hw.1]; rfl
theorem seen_flagOps : s.seen.c.flagOps = w.ctl.flagOps := by rw [seen_c hw.1]; rfl
theorem seen_readM (m : Nat) : s.seen.w.readM m = w.readM m := by rw [seen_w hw.1]; rfl

/-- A warp that is no helper works on its own span. -/
theorem seen_foreman_self (hh : w.ctl.helper = none) : s.seen.foreman = s.cur := by
  rw [Issue.foreman, seen_helper hw, hh]
  rfl

theorem seen_openSpan_self (hh : w.ctl.helper = none) : s.seen.openSpan = w.ctl.span := by
  rw [Issue.openSpan, seen_foreman_self hw hh]
  exact seen_span hw

/-- A helper works on its foreman's. -/
theorem seen_foreman_helper {h : Helper} (hh : w.ctl.helper = some h) : s.seen.foreman = h.foreman := by
  rw [Issue.foreman, seen_helper hw, hh]

theorem seen_openSpan_helper {h : Helper} (hh : w.ctl.helper = some h) : s.seen.openSpan = (s.ticked.ctl h.foreman).span := by
  rw [Issue.openSpan, seen_foreman_helper hw hh]
  rfl

end seen

/-! RECRUIT (R308, R309). -/

section recruit
variable {s : State} {w : Warp} {d a md ask : Nat} {rk : Bool} (h : s.Admits w { cls := .e, ss := d :: span a 4 })
include h

theorem recruit_refuses {code : Nat} (hcode : s.seen.recruitCode = some code) :
    s.Retires (.recruit d a md ask rk) (.sreg s.cur d (word code) :: s.seen.maskOut md 0, .next) := by
  refine retires_of_issue h.1 (exec_recruit ..) (h.2.onceAs true) ?_
  dsimp only
  rw [hcode]
  rfl

/-- The slices that a RECRUIT finds idle, and how many of them it is granted. -/
def State.recruitable (s : State) : List (Nat × Nat) := s.ticked.idleSlices s.cur (s.seen.act.headD 0 / 4)
def State.granted (s : State) (ask : Nat) : Nat :=
  min (ask + 1) (min s.recruitable.length (s.ticked.helperRoom (coreOf s.cur)))

/-- The span that a RECRUIT opens. -/
def State.recruited (s : State) (a ask : Nat) (rk : Bool) : Span :=
  { lane := s.seen.act.headD 0, entry := (s.seen.pair a).toNat, lo := (s.seen.rs (a + 2)).toNat
    hi := (s.seen.rs (a + 3)).toNat, i32 := rk
    crew := (s.recruitable.take (s.granted ask)).map fun p => some (helperKey p.1 p.2)
    streams := (span 0 32).map fun t => ⟨0, 0, 0, if s.granted ask = 0 then none else some (t % (4 * s.granted ask))⟩
    cur := none }

theorem recruit_opens {es : List Effect} (hnone : s.seen.recruitCode = none) (ht : s.seen.target (s.seen.pair a) = .ok es) :
    let g := s.granted ask
    let code := if g = ask + 1 then 0 else if 0 < g then 1 else if s.recruitable = [] then 2 else 3
    s.Releases (.recruit d a md ask rk) ((fun _ => es) ::
      (fun s' => [.ctl s.cur { s'.ctl s.cur with span := some (s.recruited a ask rk) }]) ::
      ((s.recruitable.take g).mapIdx (fun r p => grantSlice s.cur (s.seen.pair a).toNat r p) ++
        [fun _ => .sreg s.cur d (word code) :: s.seen.maskOut md (word (2 ^ (4 * g) - 1))])) .next := by
  intro g code
  refine releases_of_issue h.1 (exec_recruit ..) (h.2.onceAs true) ?_
  have hcode : (if g = ask + 1 then 0 else if 0 < g then 1 else if s.recruitable.isEmpty then 2 else 3) = code := by
    simp only [code, List.isEmpty_iff]
  dsimp only
  rw [hnone]
  dsimp only
  rw [ht, ← hcode]
  rfl

end recruit

/-! The words of a foreman, in its span. -/

section foreman
variable {s : State} {w : Warp} {x : Span} (hh : w.ctl.helper = none) (hx : w.ctl.span = some x)
include hh hx

theorem hidx_deals {d m : Nat} (h : s.Admits w { cls := .e, vs := [d], dst := [d], dlanes := some (2 ^ x.lane) }) :
    let r := dealLanes (fun _ => none) [x.lane] x
    let got := r.2.filter fun p => p.2.isSome
    let new := (w.readM m &&& ~~~ word (2 ^ x.lane)) ||| word (maskOf (got.map Prod.fst))
    s.Retires (.hidx d m) ([.ctl s.cur { s.seen.c with span := some { r.1 with
        cur := (r.2.headD (0, none)).2.map Prod.fst } }] ++
      (got.map fun p => .vreg s.cur d p.1 (word ((p.2.map Prod.snd).getD 0))) ++ [.mask s.cur m new] ++
      s.seen.recall m new, .next) := by
  intro r got new
  have hdealt : (s.at w).dealt = [x.lane] := by simp only [Issue.dealt, State.at, Issue.c, hh, hx]
  have hmask : maskOf [x.lane] = 2 ^ x.lane := Nat.zero_or _
  have hseen : s.seen.dealt = [x.lane] := by simp only [Issue.dealt, seen_helper h.1, seen_span h.1, hh, hx]
  have hholder : s.seen.holder = fun _ => none := by
    funext l
    rw [Issue.holder, seen_helper h.1, hh]
    rfl
  refine retires_of_issue h.1 (exec_hidx ..) ?_ ?_
  · rw [hdealt, hmask]
    exact h.2.relegal (by simp [State.at, Issue.c, hx])
  · dsimp only
    rw [seen_openSpan_self h.1 hh, hx, seen_helper h.1, hh, hseen, hmask, hholder, seen_readM h.1]
    rfl

theorem hrd_reads {d m : Nat} (h : s.Admits w { cls := .e, vs := [d], dst := [d] }) (hm : m < min w.ctl.vb 32) :
    s.Retires (.hrd d m) (bindOp s.ticked s.cur s.slices (bits s.seen.slice.h0.toNat 19 16)
      (s.seen.act.map fun l => .v d l (s.seen.v m x.lane)) [] false, .next) := by
  refine retires_of_issue h.1 (exec_hrd ..) (h.2.relegal (by simp [State.at, Issue.c, hx])) ?_
  have hview : ¬viewSize (s.seen.s.ctl s.cur) ≤ m := by
    have hsize : viewSize (s.seen.s.ctl s.cur) = min w.ctl.vb 32 := seen_viewSize h.1
    omega
  dsimp only
  rw [seen_openSpan_self h.1 hh, hx, seen_foreman_self h.1 hh]
  dsimp only
  rw [if_neg hview]
  rfl

theorem hred_adds {a t : Nat} (h : s.Admits w { cls := .e, vs := [a] }) (hlane : ∀ l ∈ s.seen.act, l = x.lane)
    (hcur : x.cur = some t) : s.Retires (.hred a) ([.ctl s.cur { s.seen.c with
      span := some (s.seen.act.foldl (fun x l => x.add t (s.seen.v a l)) x) }], .next) := by
  refine retires_of_issue h.1 (exec_hred ..) (h.2.relegal (by simp [State.at, Issue.c, hx])) ?_
  have hstream : ∀ l ∈ s.seen.act, s.seen.curStream l = some t := fun l hl => by
    simp only [Issue.curStream, seen_helper h.1, seen_span h.1, hh, hx, if_pos (hlane l hl), hcur]
  have hall : (s.seen.act.filter fun l => (s.seen.curStream l).isNone) = [] :=
    List.filter_eq_nil_iff.2 fun l hl => by simp [hstream l hl]
  have hsum : s.seen.act.foldl (fun (x : Span) l => x.add ((s.seen.curStream l).getD 0) (s.seen.v a l)) x =
      s.seen.act.foldl (fun x l => x.add t (s.seen.v a l)) x :=
    List.foldl_ext _ _ _ fun y l hl => by rw [hstream l hl]; rfl
  dsimp only
  rw [seen_openSpan_self h.1 hh, hx, hall, seen_foreman_self h.1 hh]
  dsimp only
  rw [hsum]
  rfl

end foreman

section hjoin
variable {s : State} {w : Warp} {x : Span} (hx : w.ctl.span = some x) {d e : Nat}
  (h : s.Admits w { cls := .e, helper := false, vs := [d], ss := [e] })
include hx h

theorem hjoin_waits (hcrew : ∃ c ∈ x.crew, c.isSome = true) : s.Retires (.hjoin d e) ([], .wait (.hjoin d e)) := by
  refine retires_of_issue h.1 (exec_hjoin ..) ((h.2.onceAs true).relegal (by simp [State.at, Issue.c, hx])) ?_
  dsimp only
  rw [seen_span h.1, hx]
  dsimp only
  rw [if_pos (List.any_eq_true.2 hcrew)]

variable (hcrew : ∀ c ∈ x.crew, c = none)
include hcrew

omit hx h in
theorem noCrew : ¬x.crew.any Option.isSome = true := by
  simpa using hcrew

/-- With iterations left the answer is 0. -/
theorem hjoin_unfinished (hleft : (span 0 32).any x.left = true) :
    (w.ctl.priv = true ∨ viewSize w.ctl ≤ d → s.GivesScalar (.hjoin d e) e 0) ∧
      (w.ctl.priv = false → d < viewSize w.ctl → s.Traps w (.hjoin d e) true { code := 0x0D }) := by
  have hpass := (h.2.onceAs true).relegal (l := (s.at w).c.span.isSome) (by simp [State.at, Issue.c, hx])
  refine ⟨fun hv => ?_, fun hu hv => ?_⟩
  · refine givesScalar_of_passes h.1 (h.2.scalar e (by simp)) (exec_hjoin ..) hpass ?_
    dsimp only
    rw [seen_span h.1, hx]
    dsimp only
    rw [if_neg (noCrew hcrew), if_pos hleft, seen_priv h.1.1, seen_viewSize h.1,
      if_neg (by simpa [imp_iff_not_or] using hv)]
    rfl
  · refine traps_of_issue h.1 (exec_hjoin ..) hpass ?_
    dsimp only
    rw [seen_span h.1, hx]
    dsimp only
    rw [if_neg (noCrew hcrew), if_pos hleft, seen_priv h.1.1, seen_viewSize h.1, if_pos (by simp [hu, hv])]

/-- Else the span ends with its sum. -/
theorem hjoin_finishes (hleft : (span 0 32).any x.left = false) : s.Retires (.hjoin d e)
    ([.ctl s.cur { s.seen.c with span := none }, .vreg s.cur d x.lane x.total, .sreg s.cur e 1], .next) := by
  refine retires_of_issue h.1 (exec_hjoin ..) ((h.2.onceAs true).relegal (by simp [State.at, Issue.c, hx])) ?_
  dsimp only
  rw [seen_span h.1, hx]
  dsimp only
  rw [if_neg (noCrew hcrew), if_neg (by simp [hleft])]
  rfl

end hjoin

/-- DISMISS asks every helper of the crew for its release (R320). -/
theorem dismiss_asks {s : State} {w : Warp} (hw : s.Issuing w) (hrole : w.ctl.role = 0) (hh : w.ctl.helper = none) :
    s.Retires .dismiss ((((w.ctl.span.map Span.crew).getD []).filterMap id).map (fun q =>
      .ctl q { s.ticked.ctl q with helper := (s.ticked.ctl q).helper.map fun h => { h with asked := true } }), .next) := by
  have hpass : ({ cls := .e, once := true, helper := false } : Chk).Passes (s.at w) := by
    constructor <;> simp [State.at, Issue.c, hh, hrole]
  refine retires_of_issue hw (exec_dismiss s) hpass ?_
  dsimp only
  rw [seen_span hw]
  rfl

/-! The end of a helper (R315, R317, R322). -/

section leave
variable {s : State} {w : Warp} {h : Helper} {i : Instr} {chk : Issue → Chk} {body : Issue → Except Trap (List Effect × Flow)}
  (hw : s.Issuing w) (hi : exec i s = issue chk body s) (hc : (chk (s.at w)).Passes (s.at w))
  (hb : body s.seen = .ok (s.seen.leave h))
include hw hi hc hb

/-- A word that ends a helper: at once where its operations are over, else again; a fault that they met is its
foreman's. -/
theorem leave_acts :
    (w.ctl.flagOps = [] → s.seen.slice.defer = [] → s.Releases i [endHelper s.cur h] .placed) ∧
    (s.seen.holdBack = none → w.ctl.flagOps ≠ [] → s.seen.slice.defer = [] → exec i s = .next (s.retire [] .again)) ∧
    ∀ t ts, s.seen.holdBack = none → s.seen.slice.defer = t :: ts →
      s.Retires i (chargeForeman s.ticked s.cur h t, .placed) := by
  refine ⟨fun hops hdefer hrel => ?_, fun hhold hops hdefer => ?_, fun t ts hhold hdefer => ?_⟩
  · refine releases_of_issue hw hi hc ?_ hrel
    rw [hb, Issue.leave, hrel.1, hdefer, seen_flagOps hw, hops]
    rfl
  · refine retires_of_issue (r := ([], .again)) hw hi hc ?_
    rw [hb, Issue.leave, hhold, hdefer, seen_flagOps hw]
    exact congrArg Except.ok (if_neg (by simpa using hops))
  · refine retires_of_issue hw hi hc ?_
    rw [hb, Issue.leave, hhold, hdefer]
    rfl

end leave

/-! The words of a helper, in its foreman's span. -/

section helper
variable {s : State} {w : Warp} {h : Helper} (hh : w.ctl.helper = some h)
include hh

/-- HEND leaves. -/
theorem hend_body (hw : s.Issuing w) (hrole : w.ctl.role = 0) : ∃ chk body, exec .hend s = issue chk body s ∧
    (chk (s.at w)).Passes (s.at w) ∧ body s.seen = .ok (s.seen.leave h) := by
  refine ⟨_, _, exec_hend s, ?_, ?_⟩
  · constructor <;> simp [State.at, Issue.c, hh, hrole]
  · rw [seen_helper hw, hh]

variable {x : Span} (hx : (s.ticked.ctl h.foreman).span = some x)
include hx

section hidx
variable {d m : Nat} (ha : s.Admits w { cls := .e, vs := [d], dst := [d], dlanes := some (maskOf (span (4 * h.slice) 4)) })
include ha

omit hx in
theorem hidx_passes : ({ cls := .e, legal := (s.at w).c.helper.isSome || (s.at w).c.span.isSome, vs := [d], dst := [d]
                         dlanes := some (maskOf (s.at w).dealt) } : Chk).Passes (s.at w) := by
  have hdealt : (s.at w).dealt = span (4 * h.slice) 4 := by simp only [Issue.dealt, State.at, Issue.c, hh]
  rw [hdealt]
  exact ha.2.relegal (by simp [State.at, Issue.c, hh])

/-- HIDX under a release request leaves. -/
theorem hidx_leaves (hasked : h.asked = true) : ∃ chk body, exec (.hidx d m) s = issue chk body s ∧
    (chk (s.at w)).Passes (s.at w) ∧ body s.seen = .ok (s.seen.leave h) := by
  refine ⟨_, _, exec_hidx .., hidx_passes hh ha, ?_⟩
  dsimp only
  rw [seen_openSpan_helper ha.1 hh, hx, seen_helper ha.1, hh]
  exact if_pos hasked

theorem hidx_dealsCrew (hasked : h.asked = false) :
    let lanes := span (4 * h.slice) 4
    let r := dealLanes (fun l => some (4 * h.rank + l % 4)) lanes x
    let got := r.2.filter fun p => p.2.isSome
    let new := (w.readM m &&& ~~~ word (maskOf lanes)) ||| word (maskOf (got.map Prod.fst))
    s.Retires (.hidx d m) ([.ctl h.foreman { s.ticked.ctl h.foreman with span := some r.1 },
      .ctl s.cur { s.seen.c with helper := some { h with cur := r.2.map fun p => p.2.map Prod.fst } }] ++
      (got.map fun p => .vreg s.cur d p.1 (word ((p.2.map Prod.snd).getD 0))) ++ [.mask s.cur m new], .next) := by
  intro lanes r got new
  have hseen : s.seen.dealt = lanes := by simp only [Issue.dealt, seen_helper ha.1, hh, lanes]
  have hholder : s.seen.holder = fun l => some (4 * h.rank + l % 4) := by
    funext l
    rw [Issue.holder, seen_helper ha.1, hh]
    rfl
  refine retires_of_issue ha.1 (exec_hidx ..) (hidx_passes hh ha) ?_
  dsimp only
  rw [seen_openSpan_helper ha.1 hh, hx, seen_helper ha.1, hh, hseen, hholder, seen_readM ha.1]
  dsimp only
  rw [if_neg (by simp [hasked])]
  rfl

end hidx

theorem hrd_readsForeman {d m : Nat} (ha : s.Admits w { cls := .e, vs := [d], dst := [d] })
    (hm : m < viewSize (s.ticked.ctl h.foreman)) : s.Retires (.hrd d m) (bindOp s.ticked s.cur s.slices
      (bits s.seen.slice.h0.toNat 19 16) (s.seen.act.map fun l => .v d l (s.ticked.readV h.foreman m x.lane)) [] false,
      .next) := by
  refine retires_of_issue ha.1 (exec_hrd ..) (ha.2.relegal (by simp [State.at, Issue.c, hh])) ?_
  dsimp only
  rw [seen_openSpan_helper ha.1 hh, hx, seen_foreman_helper ha.1 hh]
  exact if_neg (Nat.not_le.2 hm)

theorem hred_addsCrew {a : Nat} (ha : s.Admits w { cls := .e, vs := [a] })
    (hcur : ∀ l ∈ s.seen.act, (h.cur.getD (l % 4) none).isSome = true) :
    s.Retires (.hred a) ([.ctl h.foreman { s.ticked.ctl h.foreman with
      span := some (s.seen.act.foldl (fun x l => x.add ((h.cur.getD (l % 4) none).getD 0) (s.seen.v a l)) x) }], .next) := by
  have hstream : s.seen.curStream = fun l => h.cur.getD (l % 4) none := by
    funext l
    rw [Issue.curStream, seen_helper ha.1, hh]
  have hall : (s.seen.act.filter fun l => (h.cur.getD (l % 4) none).isNone) = [] :=
    List.filter_eq_nil_iff.2 fun l hl => by simpa [Option.isSome_iff_ne_none] using hcur l hl
  refine retires_of_issue ha.1 (exec_hred ..) (ha.2.relegal (by simp [State.at, Issue.c, hh])) ?_
  dsimp only
  rw [seen_openSpan_helper ha.1 hh, hx, hstream, hall, seen_foreman_helper ha.1 hh]
  rfl

end helper

/-! Dealing a span's iterations (R314, R315). -/

/-- Whether stream number t of a span has iterations left, by what it holds. -/
theorem Span.left_iff {x : Span} {t : Nat} {z : Stream} (hz : x.streams[t]? = some z) :
    x.left t = true ↔ 32 * z.next + t < x.hi - x.lo := by
  simp [Span.left, Span.count, List.getD_eq_getElem?_getD, hz]

/-- A stream that a holder has with iterations left. -/
def Span.dealable (x : Span) (holder : Option Nat) (t : Nat) : Bool :=
  (x.streams.getD t (.fresh none)).holder == holder && x.left t

theorem Span.dealable_iff {x : Span} {holder : Option Nat} {t : Nat} {z : Stream} (hz : x.streams[t]? = some z) :
    x.dealable holder t = true ↔ z.holder = holder ∧ 32 * z.next + t < x.hi - x.lo := by
  simp [Span.dealable, Span.left_iff hz, List.getD_eq_getElem?_getD, hz]

/-- What is not dealable of a holder's streams has run out. -/
theorem Span.ended_of_not_dealable {x : Span} {holder : Option Nat} {t : Nat} {z : Stream} (hn : ¬x.dealable holder t = true)
    (hz : x.streams[t]? = some z) (hholder : z.holder = holder) : x.hi - x.lo ≤ 32 * z.next + t := by
  by_contra hlt
  exact hn ((Span.dealable_iff hz).2 ⟨hholder, by omega⟩)

theorem Span.first_none {x : Span} {holder : Option Nat} (h : x.first holder = none) {t : Nat} (ht : t < 32) :
    ¬x.dealable holder t = true :=
  List.find?_eq_none.1 h t (mem_span.2 ⟨Nat.zero_le t, by omega⟩)

/-- The stream dealt from is the first dealable one. -/
theorem Span.first_some {x : Span} {holder : Option Nat} {t : Nat} (h : x.first holder = some t) :
    t < 32 ∧ x.dealable holder t = true ∧ ∀ u < t, ¬x.dealable holder u = true := by
  rw [Span.first, span_eq_range', List.find?_range'_eq_some] at h
  obtain ⟨hd, hmem, hmin⟩ := h
  exact ⟨by simpa using hmem, hd, fun u hu => by simpa [Span.dealable, imp_iff_not_or] using hmin u (Nat.zero_le u) hu⟩

theorem Span.onStream_eq_set {x : Span} {t : Nat} {z : Stream} (hz : x.streams[t]? = some z) (f : Stream → Stream) :
    x.onStream t f = { x with streams := x.streams.set t (f z) } := by
  have hset : (x.streams.mapIdx fun i y => if i = t then f y else y) = x.streams.set t (f z) := by
    apply List.ext_getElem?
    intro i
    rw [List.getElem?_mapIdx, List.getElem?_set]
    by_cases hi : t = i
    · subst hi
      have hlt : t < x.streams.length := (List.getElem?_eq_some_iff.1 hz).1
      simp only [hz, Option.map_some, if_true, hlt]
    · simp [hi, Ne.symm hi]
  rw [Span.onStream, hset]

/-- A deal takes the next iteration of the first dealable stream; with none the span stays as it is. -/
theorem Span.deal_first (x : Span) (holder : Option Nat) (hlen : x.streams.length = 32) :
    match x.deal holder with
    | (y, none) => y = x ∧ ∀ t z, x.streams[t]? = some z → z.holder = holder → x.hi - x.lo ≤ 32 * z.next + t
    | (y, some (t, i)) => ∃ st, x.streams[t]? = some st ∧ st.holder = holder ∧ i = x.lo + 32 * st.next + t ∧ i < x.hi ∧
        y = { x with streams := x.streams.set t { st with check := st.part, next := st.next + 1 } } ∧
        ∀ u z, u < t → x.streams[u]? = some z → z.holder = holder → x.hi - x.lo ≤ 32 * z.next + u := by
  rw [Span.deal]
  cases hf : x.first holder with
  | none =>
    refine ⟨rfl, fun t z hz => Span.ended_of_not_dealable (Span.first_none hf ?_) hz⟩
    exact hlen ▸ (List.getElem?_eq_some_iff.1 hz).1
  | some t =>
    obtain ⟨ht, hd, hmin⟩ := Span.first_some hf
    obtain ⟨z, hz⟩ : ∃ z, x.streams[t]? = some z := ⟨_, List.getElem?_eq_getElem (hlen ▸ ht)⟩
    have hget : x.streams.getD t (.fresh none) = z := by rw [List.getD_eq_getElem?_getD, hz]; rfl
    obtain ⟨hholder, hleft⟩ := (Span.dealable_iff hz).1 hd
    refine ⟨z, hz, hholder, by rw [hget], ?_, Span.onStream_eq_set hz _,
      fun u y hu => Span.ended_of_not_dealable (hmin u hu)⟩
    rw [hget]
    omega

/-- Settles O36: each recruitment word by what it finds, and the first dealable stream for the order of the iterations. -/
theorem recruitmentWords : Obligations.RecruitmentWords := by
  refine ⟨?_, Span.deal_first⟩
  intro s w d a md ask m e rk hw hrole I seta
  refine ⟨fun h => ⟨fun code => recruit_refuses h, fun es hnone ht => recruit_opens h hnone ht⟩, fun x hh hx => ?_,
    dismiss_asks hw hrole, fun h hh => ?_⟩
  · exact ⟨hidx_deals hh hx, hrd_reads hh hx, fun ha hl t => hred_adds hh hx ha hl,
      fun ha => ⟨hjoin_waits hx ha, hjoin_unfinished hx ha, hjoin_finishes hx ha⟩⟩
  · intro leaves
    have hleaves : ∀ {i : Instr}, (∃ chk body, exec i s = issue chk body s ∧ (chk (s.at w)).Passes (s.at w) ∧
        body s.seen = .ok (s.seen.leave h)) → leaves i := fun ⟨_, _, hi, hc, hb⟩ => leave_acts hw hi hc hb
    exact ⟨hleaves (hend_body hh hw hrole), fun x hx => ⟨fun ha => ⟨fun hasked => hleaves (hidx_leaves hh hx ha hasked),
      hidx_dealsCrew hh hx ha⟩, hrd_readsForeman hh hx, hred_addsCrew hh hx⟩⟩

end Sys2Proof.Machine
end

section
/-! Steps of collectives and combine buffers (O55): units that start, step, are retried and complete, and requests before the home
slices (14 R346 to R352; 15 R364 to R368, R465). -/
namespace Sys2Proof.Machine

theorem exec_collUnitStart (n : Nat) (s : State) : exec (.collUnitStart n) s = execCollUnitStart n s := rfl
theorem exec_collUnitStep (q : Chunk) (s : State) : exec (.collUnitStep q) s = execCollUnitStep q s := rfl
theorem exec_collRetry (n r u : Nat) (p : RetryAt) (s : State) : exec (.collRetry n r u p) s = execCollRetry n r u p s := rfl
theorem exec_collAbort (n cause : Nat) (a : AbortAt) (s : State) :
    exec (.collAbort n cause a) s = execCollAbort n cause a s := rfl
theorem exec_collComplete (n : Nat) (s : State) : exec (.collComplete n) s = execCollComplete n s := rfl
theorem exec_cmbDispatchArrive (n : Nat) (s : State) : exec (.cmbDispatchArrive n) s = execCmbDispatchArrive n s := rfl
theorem exec_cmbPutArrive (n : Nat) (s : State) : exec (.cmbPutArrive n) s = execCmbPutArrive n s := rfl
theorem exec_cmbRowBytes (n : Nat) (bytes : List Byte) (plane parity : Nat) (s : State) :
    exec (.cmbRowBytes n bytes plane parity) s = execCmbRowBytes n bytes plane parity s := rfl
theorem exec_cmbSlotGrant (n : Nat) (s : State) : exec (.cmbSlotGrant n) s = execCmbSlotGrant n s := rfl
theorem exec_cmbSlotTimeout (ctx buf tok : Nat) (s : State) :
    exec (.cmbSlotTimeout ctx buf tok) s = execCmbSlotTimeout ctx buf tok s := rfl
theorem exec_cmbRelease (ctx buf tok : Nat) (s : State) : exec (.cmbRelease ctx buf tok) s = execCmbRelease ctx buf tok s := rfl

theorem ifColl_some {s : State} {n : Nat} {c : Coll} (hc : s.coll n = some c) (f : Coll → State → List Effect) :
    ifColl n f s = f c s := by rw [ifColl, hc]

/-! The start of units (R346, R352, R387). -/

section start
variable {s : State} {n : Nat} {c : Coll} (hc : s.coll n = some c)
include hc

section running
variable (hfin : c.finished = false) (hchange : s.fab.changing = false) (hfrozen : s.collFrozen c = false)
  (hkeys : s.vil.keys = true)
include hfin hchange hfrozen hkeys

theorem collUnitStart_goesOn (hact : c.active = true) : s.Commits (.collUnitStart n) (chain s (c.starts.map (startUnit n))) := by
  refine (exec_collUnitStart n s).trans ?_
  rw [execCollUnitStart, hc]
  dsimp only
  rw [if_neg (by simp [hfin, hchange, hfrozen, hkeys]), if_pos hact]
  rfl

omit hc hfin hchange hfrozen hkeys in
/-- The chips at which units begin: every member but for a broadcast, the root of a broadcast. -/
theorem Coll.startBlock_isSome (c : Coll) : c.startBlock.isSome = true ↔ c.form < 3 ∨ c.pos = c.root := by
  unfold Coll.startBlock
  split_ifs with h2 he hr <;> simp <;> omega

theorem collUnitStart_activates (hact : c.active = false)
    (hfew : (s.colls.filter fun y => y.active && !y.finished).length < 16)
    (hfirst : ∀ y ∈ s.colls, y.active = false → y.finished = false → n ≤ y.id) :
    let us := if c.form < 3 ∨ c.pos = c.root then span 0 c.units else []
    s.Commits (.collUnitStart n) (chain s
      (onColl n (fun c => { c with active := true, starts := us }) :: us.map (startUnit n))) := by
  intro us
  have hus : (if c.startBlock.isSome then span 0 c.units else []) = us := by simp only [Coll.startBlock_isSome, us]
  have hearlier : (s.colls.any fun y => !y.active && !y.finished && decide (y.id < n)) = false := by
    simpa [Nat.not_lt] using hfirst
  refine (exec_collUnitStart n s).trans ?_
  rw [execCollUnitStart, hc]
  dsimp only
  rw [if_neg (by simp [hfin, hchange, hfrozen, hkeys]), if_neg (by simp [hact]),
    if_neg (by simpa [hearlier] using hfew), hus]
  rfl

end running

theorem startUnit_begins {u r : Nat} (hu : u ∈ c.starts) (hmeter : s.meterOk 2 (blockDie c.b) c.ctx (s.blk c.b).path = true)
    (hr : c.startBlock = some r) : startUnit n u s = chain s [
      onColl n fun c => { c with starts := c.starts.filter (· ≠ u) },
      if c.form < 2 then collReduce n r u none else collDistribute n r u] := by
  rw [startUnit, ifColl_some hc, hr]
  exact if_neg (by simp [hu, hmeter])

theorem startUnit_held (u : Nat) (hmeter : s.meterOk 2 (blockDie c.b) c.ctx (s.blk c.b).path = false) :
    startUnit n u s = [] := by
  rw [startUnit, ifColl_some hc]
  cases hr : c.startBlock with
  | none => rfl
  | some r => exact if_pos (by simp [hmeter])

/-! Retries and the end of a collective (R349, R350). -/

section retry
variable {r u : Nat} {p : RetryAt} (hfirst : c.firstPos r p.pass = c.pos)
include hfirst

theorem collRetry_ownRead (hmem : (r, u, p.pass) ∈ c.again) : s.Commits (.collRetry n r u p) (chain s [
    onColl n fun c => { c with again := c.again.filter (· ≠ (r, u, p.pass)) }, collRestart n r u p.pass]) := by
  refine (exec_collRetry n r u p s).trans ?_
  rw [execCollRetry, hc]
  exact if_pos (by simp [hfirst, hmem])

omit hfirst in
theorem collRetry_request (hmem : (r, u, p.pass) ∉ c.again) (hkeys : s.vil.keys = true) :
    s.Commits (.collRetry n r u p) (chain s [collPacket (channelKey p.via.chip p.via.plane 2) p.via.parity,
      ifColl n fun c => if c.firstPos r p.pass ≠ c.pos then fun _ => []
        else if 2 ≤ c.triesOf r u then collFail c 2 u r
        else fun s => chain s [collTried c r u (max (c.triesOf r u + 1) p.tries), collRestart n r u p.pass]]) := by
  refine (exec_collRetry n r u p s).trans ?_
  rw [execCollRetry, hc]
  rw [if_neg (by simp [hmem]), if_neg (by simp [hkeys])]
  rfl

end retry

omit hc in
/-- An abort has no effect on a collective that is complete here (R350). -/
theorem collEnd_unless (c : Coll) (cause chip unit blk : Nat) :
    collEnd c cause chip unit blk = if c.finished then fun _ => [] else collEnd c cause chip unit blk := by
  cases hfin : c.finished with
  | false => rfl
  | true => funext s; rw [collEnd, hfin]; rfl

omit hc in
theorem collAbort_event (n cause : Nat) (a : AbortAt) : s.Event (.collAbort n cause a) (s.vil.keys = true) (chain s [
    collPacket (channelKey a.chip a.plane 2) a.parity,
    ifColl n fun c => if c.finished then fun _ => [] else collEnd c cause a.chip a.unit a.blk]) := by
  have hend : (fun c => collEnd c cause a.chip a.unit a.blk) =
      fun c : Coll => if c.finished then fun _ => [] else collEnd c cause a.chip a.unit a.blk :=
    funext fun c => collEnd_unless c cause a.chip a.unit a.blk
  exact hend ▸ State.event_of_guard (by simp) (exec_collAbort n cause a s)

theorem collComplete_late {y : Nat × Nat × List Nat} {ys : List (Nat × Nat × List Nat)} (hlate : c.late = y :: ys) :
    s.Commits (.collComplete n) (chain s (onColl n (fun c => { c with late := [] }) ::
      c.late.map fun x => ifColl n fun c => collWrite c x.1 x.2.1 x.2.2)) := by
  refine (exec_collComplete n s).trans ?_
  rw [execCollComplete, hc]
  exact if_pos (by simp [hlate])

theorem collComplete_ends (hlate : c.late = []) (hact : c.active = true) (hfin : c.finished = false) (hagain : c.again = [])
    (hparts : ∀ p ∈ c.parts, p ∈ c.passed) (hpast : s.past c = true) : s.Commits (.collComplete n)
      (chain s ((c.bar.toList.map fun off => engineArrive (leadOf c.b) c.b off 0 0) ++
        countDown c.arrivals ++ [fun (s : State) => [Effect.colls (if c.form = 1 ∨ c.n = 1
          then s.colls.filter fun y => y.id ≠ n
          else s.colls.map fun y => if y.id = n then { y with finished := true } else y)]])) := by
  have hdone : (c.parts.all fun p => c.passed.contains p) = true := by simpa using hparts
  refine (exec_collComplete n s).trans ?_
  rw [execCollComplete, hc]
  dsimp only
  rw [if_neg (by simp [hlate]), if_neg (by rw [hdone]; simp [hact, hfin, hagain, hpast])]
  rfl

end start

/-! Chunks (R346 to R352): one that arrives, and one that waited in its sequencer. -/

section chunk
variable {s : State} {q : Chunk} (hkeys : s.vil.keys = true)
include hkeys

theorem collUnitStep_arrives (hq : q ∉ s.fab.chunks) :
    s.Commits (.collUnitStep q) (chain s [collPacket (s.chunkChannel q) q.parity, chunkStep q]) := by
  refine (exec_collUnitStep q s).trans ?_
  rw [execCollUnitStep, if_neg (by simp [hkeys]), chain, if_neg (by simpa using hq)]
  rfl

theorem collUnitStep_waited (hq : q ∈ s.fab.chunks) : s.Commits (.collUnitStep q) (chunkStep q s) := by
  refine (exec_collUnitStep q s).trans ?_
  rw [execCollUnitStep, if_neg (by simp [hkeys]), chain, if_pos (by simpa using hq)]
  exact congrArg (commit s) (List.append_nil _)

end chunk

/-! Requests before the home slices (R364 to R366, R465). -/

theorem cmbDispatchArrive_event {s : State} {n : Nat} {q : CmbReq}
    (hq : (s.cmbReqs.find? fun q => q.id == n && !q.put && q.stage == 0) = some q) :
    s.Event (.cmbDispatchArrive n) (s.cutWaits q = false) (applyReq q (s.inLine q) [] s) := by
  refine State.event_of_guard (c := s.cutWaits q = true) (by simp) ((exec_cmbDispatchArrive n s).trans ?_)
  rw [execCmbDispatchArrive, hq]

section put
variable {s : State} {n : Nat} {q : CmbReq} (hq : (s.cmbReqs.find? fun q => q.id == n && q.put) = some q)
  (hcut : s.cutWaits q = false)
include hq hcut

/-- What a put before its home slice comes to, when it need not wait for a cut. -/
theorem cmbPutArrive_eq : exec (.cmbPutArrive n) s =
    if q.chip ≠ 0 then commit s (if q.stage = 0 then applyReq q (s.inLine q) [] s else [])
    else if nameChip q.name ≠ s.chip then commit s (if q.stage = 4 && !s.handling q.k then sendRow q s else [])
    else if q.stage = 0 || (q.stage = 3 && !s.handling q.k) then
      let len := match s.cmb q.ctx (nameBuf q.name) with
        | some x => if bits q.name 17 0 = 0 then bRowBytes x.desc else 0
        | none => 0
      commit s (withRow q len 3 (endReq q) (fun bytes s => applyReq q (s.inLine q) bytes s) s)
    else commit s [] := by
  rw [exec_cmbPutArrive, execCmbPutArrive, hq]
  exact if_neg (by simp [hcut])

theorem cmbPutArrive_remote (hchip : q.chip ≠ 0) (hst : q.stage = 0) :
    s.Commits (.cmbPutArrive n) (applyReq q (s.inLine q) [] s) := by
  refine (cmbPutArrive_eq hq hcut).trans ?_
  rw [if_pos hchip, if_pos hst]
  rfl

section own
variable (hchip : q.chip = 0)
include hchip

theorem cmbPutArrive_sends (hname : nameChip q.name ≠ s.chip) (hst : q.stage = 4) (hh : s.handling q.k = false) :
    s.Commits (.cmbPutArrive n) (sendRow q s) := by
  refine (cmbPutArrive_eq hq hcut).trans ?_
  rw [if_neg (not_not_intro hchip), if_pos hname, if_pos (by simp [hst, hh])]
  rfl

theorem cmbPutArrive_reads (hname : nameChip q.name = s.chip) (hst : q.stage = 0 ∨ (q.stage = 3 ∧ s.handling q.k = false)) :
    let len := match s.cmb q.ctx (nameBuf q.name) with
      | some x => if bits q.name 17 0 = 0 then bRowBytes x.desc else 0
      | none => 0
    s.Commits (.cmbPutArrive n) (withRow q len 3 (endReq q) (fun bytes s => applyReq q (s.inLine q) bytes s) s) := by
  refine (cmbPutArrive_eq hq hcut).trans ?_
  rw [if_neg (not_not_intro hchip), if_neg (not_not_intro hname), if_pos (by simpa using hst)]
  rfl

end own
end put

section rowBytes
variable {s : State} {n plane parity : Nat} {bytes : List Byte} (hkeys : s.vil.keys = true)
include hkeys

/-- A row's bytes after the cut wait for it, those before it are logged and land. -/
theorem cmbRowBytes_acts :
    let key := channelKey (s.rowChip n - 1) plane 0
    let u := applyAll (packetArrives key parity s) s
    (u.snap.st = 1 → parity % 2 = u.snap.n % 2 → s.Commits (.cmbRowBytes n bytes plane parity) (packetArrives key parity s)) ∧
    ((u.snap.st = 1 → parity % 2 ≠ u.snap.n % 2) → s.Commits (.cmbRowBytes n bytes plane parity) (chain s [
      packetArrives key parity,
      fun s => if s.toLog key parity then logRequest key (7 :: n :: bytes.map BitVec.toNat) s else [],
      landRow n bytes, ackRow n plane])) := by
  intro key u
  have heq : exec (.cmbRowBytes n bytes plane parity) s = if u.snap.st = 1 && decide (parity % 2 = u.snap.n % 2)
      then commit s (packetArrives key parity s) else commit s (chain s [
        packetArrives key parity,
        fun s => if s.toLog key parity then logRequest key (7 :: n :: bytes.map BitVec.toNat) s else [],
        landRow n bytes, ackRow n plane]) := if_neg (by simp [hkeys])
  exact ⟨fun hst hpar => heq.trans (if_pos (by simp [hst, hpar])), fun hpar => heq.trans (if_neg (by simpa using hpar))⟩

end rowBytes

theorem cmbSlotGrant_acts {s : State} {n : Nat} {q : CmbReq} {x : Cmb}
    (hq : (s.cmbReqs.find? fun q => q.id == n && q.stage == 1) = some q) (hx : s.cmb q.ctx (nameBuf q.name) = some x) :
    let line := (s.cmbReqs.takeWhile fun r => r.id != q.id).any fun r => r.stage == 1 && r.ctx == q.ctx &&
      r.name == q.name && x.home r.tok == x.home q.tok && (x.slot r.tok).isNone
    x.judge q line ≠ .waits →
      (q.put = false ∨ q.chip ≠ 0 → s.Commits (.cmbSlotGrant n) (applyReq q line [] s)) ∧
      (q.put = true → q.chip = 0 → s.Commits (.cmbSlotGrant n)
        (withRow q (bRowBytes x.desc) 1 (endReq q) (fun bytes s => applyReq q line bytes s) s)) := by
  intro line hjudge
  have heq : exec (.cmbSlotGrant n) s = if q.put && q.chip == 0 then
      commit s (withRow q (bRowBytes x.desc) 1 (endReq q) (fun bytes s => applyReq q line bytes s) s)
      else commit s (applyReq q line [] s) := by
    rw [exec_cmbSlotGrant, execCmbSlotGrant, hq]
    dsimp only
    rw [hx]
    exact if_neg hjudge
  refine ⟨fun h => heq.trans (if_neg ?_), fun hput hchip => heq.trans (if_pos (by simp [hput, hchip]))⟩
  rcases h with hput | hchip
  · simp [hput]
  · simp [hchip]

/-! A slot's timeout and its release (R367, R368). -/

section slot
variable {s : State} {ctx buf tok : Nat} {x : Cmb} {y : Slot} (hx : s.cmb ctx buf = some x) (hy : x.slot tok = some y)
include hx hy

section timeout
variable (hst : y.st = 1) (htime : bTimeout x.desc ≠ 0)
include hst htime

theorem cmbSlotTimeout_substitutes (hdisp : y.disp.isSome = true) (hsub : bSubst x.desc < 2) :
    s.Commits (.cmbSlotTimeout ctx buf tok) (setCmb { x.setSlot { y with
      st := 3, present := y.bitmap, renorm := bSubst x.desc == 1 } with subs := x.subs + 1 } s) := by
  refine (exec_cmbSlotTimeout ctx buf tok s).trans ?_
  rw [execCmbSlotTimeout, hx]
  dsimp only
  rw [hy]
  dsimp only
  rw [if_neg (by simp [hst, htime]), if_pos (by simp [hdisp, hsub])]
  rfl

theorem cmbSlotTimeout_traps (hdisp : y.disp = none) : s.Commits (.cmbSlotTimeout ctx buf tok) (chain s [
    setCmb (x.setSlot { y with st := 2 }),
    let name := s.chip * 2 ^ 23 + buf * 2 ^ 18
    ownerTrap ctx buf { code := 0x0F, addr := name, extk := 6
                        ext := cmbExt name 0 tok 0 0xFF (2 ^ (y.rows.filter Row.arrived).length - 1) 0 [] }]) := by
  refine (exec_cmbSlotTimeout ctx buf tok s).trans ?_
  rw [execCmbSlotTimeout, hx]
  dsimp only
  rw [hy]
  dsimp only
  rw [if_neg (by simp [hst, htime]), if_neg (by simp [hdisp]), hdisp]
  rfl

end timeout

theorem cmbRelease_releases (hst : y.st = 3 ∨ (y.st = 4 ∧ x.due = [] ∧ s.handling (leadOf x.owner) = false))
    (hturn : x.turn tok = true) (hlost : x.lost = false) : s.Commits (.cmbRelease ctx buf tok) (releaseToken x y s) := by
  have hready : (decide (y.st = 3) || decide (y.st = 4) && !s.rowHandling x) = true := by
    rcases hst with h3 | ⟨h4, hdue, hh⟩
    · simp [h3]
    · simp [h4, State.rowHandling, hdue, hh]
  refine (exec_cmbRelease ctx buf tok s).trans ?_
  rw [execCmbRelease, hx]
  dsimp only
  rw [hy]
  dsimp only
  rw [hready, hturn, hlost]
  rfl

end slot

/-- Settles O55: each step of a collective and of a combine buffer, by the conditions under which it takes place. -/
theorem collectiveAndCombineStepsTakePlace : Obligations.CollectiveAndCombineStepsTakePlace := by
  intro s n
  refine ⟨fun c hc => ⟨fun hfin hchange hfrozen hkeys => ⟨collUnitStart_goesOn hc hfin hchange hfrozen hkeys,
        collUnitStart_activates hc hfin hchange hfrozen hkeys⟩,
      fun u hu hm r => startUnit_begins hc hu hm, startUnit_held hc,
      fun r u p hfirst => ⟨collRetry_ownRead hc hfirst, collRetry_request hc⟩, collAbort_event n,
      fun y ys => collComplete_late hc, collComplete_ends hc⟩,
    fun q hq hkeys => collUnitStep_arrives hkeys hq, fun q hq hkeys => collUnitStep_waited hkeys hq,
    fun q => cmbDispatchArrive_event,
    fun q hq hcut => ⟨cmbPutArrive_remote hq hcut, cmbPutArrive_sends hq hcut, cmbPutArrive_reads hq hcut⟩,
    fun bytes plane parity => cmbRowBytes_acts, fun v => State.event_of_guard (by simp) rfl, fun q x => cmbSlotGrant_acts,
    fun ctx buf tok x y hx hy => ⟨fun hst htime => ⟨cmbSlotTimeout_substitutes hx hy hst htime,
      cmbSlotTimeout_traps hx hy hst htime⟩, cmbRelease_releases hx hy⟩⟩

end Sys2Proof.Machine
end

section
/-! Vector integer arithmetic (O6): what the forms of two operands write, what clamping and reducing give, and each word by its
operation (06 R133 to R135). -/
namespace Sys2Proof.Machine

section forms
variable {s : State} {w : Warp} {i : Instr} {d a : Nat} {b : Opnd} (hd : d < 256)
  (h : let ty := (s.at w).ty
    s.Admits w { cls := .e, legal := okReg ty d && okReg ty a && b.legal ty
                 vs := vregs ty d ++ vregs ty a ++ b.vs ty, ss := b.ss ty, dst := vregs ty d })
include hd h

/-- A word of the two-operand form (R67): its result from the old d, a and b of a lane. -/
theorem givesTyped_of_vecOp {ok : Nat → Bool} {f : Issue → Nat → Nat → Nat → Nat} {e : Nat → Nat}
    (hty : ok (s.at w).ty = true) (hi : exec i s = vecOp ok d a b f s)
    (he : let I := s.at w
      ∀ l, f s.seen (I.vsrc I.ty d l) (I.vsrc I.ty a l) (I.opnd I.ty l b) = e l) : s.GivesTyped w i d e := by
  obtain ⟨hw, hc⟩ := h
  have hl := hc.legal
  simp only [Bool.and_eq_true] at hl
  obtain ⟨⟨hD, hA⟩, hB⟩ := hl
  unfold vecOp lanewise at hi
  refine givesVector_of_issue false hw (hc.relegal ?_) (fun r => vregs_lt hd hD) hi ?_
  · simp only [hty, hD, hA, hB, Bool.and_self]
  · simp only [seen_ty hw.1, seen_act hw.1, seen_vsrc hw.1, seen_opnd hw.1, he]
    rfl

/-- A word of R134 that writes each element's exact value, clamped or reduced. -/
theorem givesTyped_of_intOp {ok : Nat → Bool} {f : Int → Int → Int → Int} (hty : ok (s.at w).ty = true)
    (hi : exec i s = intOp ok d a b f s) :
    let I := s.at w
    s.GivesTyped w i d fun l => byElem I.ty fun h => fitElem I.ty I.sat
      (f (ielem I.ty (I.vsrc I.ty a l) h) (ielem I.ty (I.opnd I.ty l b) h) (ielem I.ty (I.vsrc I.ty d l) h)) :=
  givesTyped_of_vecOp hd h hty hi fun l => by
    rw [seen_ty h.1.1, seen_sat h.1.1]

end forms

/-! What clamping and reducing give (R135). -/

/-- The pattern of an integer is the integer modulo 2^w. -/
theorem cast_pattern (w : Nat) (x : Int) : (pattern w x : Int) = x % 2 ^ w :=
  Int.toNat_of_nonneg (Int.emod_nonneg x (by positivity))

/-- The width and the signedness of an element of a type of I, B or P (R133). -/
theorem intElem_eq {ty : Nat} (h : isI ty ∨ isB ty ∨ isP ty) :
    intElem ty = (elemBits ty, decide (ty < 4 ∨ isP ty = true)) := by
  simp only [isI, isB, isP, decide_eq_true_eq, Bool.or_eq_true, beq_iff_eq] at h
  obtain h | (rfl | rfl) | (rfl | rfl) := h
  · interval_cases ty <;> rfl
  all_goals rfl

/-- An element that is not clamped is reduced. -/
theorem cast_fitElem_reduced {ty : Nat} {sat : Bool} (h : isI ty ∨ isB ty ∨ isP ty) (hs : (sat && !isB ty) = false)
    (x : Int) : (fitElem ty sat x : Int) = x % 2 ^ elemBits ty := by
  simp only [fitElem, hs, intElem_eq h]
  exact cast_pattern _ x

/-- An element that is clamped is brought into its range. -/
theorem cast_fitElem_clamped {ty : Nat} (h : isI ty ∨ isB ty ∨ isP ty) (hb : isB ty = false) (x : Int) :
    let signedType := ty < 4 ∨ isP ty
    let lo : Int := if signedType then -2 ^ (elemBits ty - 1) else 0
    let hi : Int := if signedType then 2 ^ (elemBits ty - 1) - 1 else 2 ^ elemBits ty - 1
    (fitElem ty true x : Int) = max lo (min x hi) % 2 ^ elemBits ty := by
  intro signedType lo hi
  simp only [fitElem, hb, intElem_eq h, fitInt, Bool.not_false, Bool.and_self, if_true, cast_pattern, decide_eq_true_eq,
    min_comm]
  rfl

section words
variable (d a : Nat) (b : Opnd) (s : State)

theorem exec_add : exec (twoForms .addVv .addVs d a b) s = intOp okIBP d a b (fun x y _ => x + y) s := by cases b <;> rfl
theorem exec_sub : exec (twoForms .subVv .subVs d a b) s = intOp okIBP d a b (fun x y _ => x - y) s := by cases b <;> rfl
theorem exec_mul : exec (twoForms .mulVv .mulVs d a b) s = intOp okIBP d a b (fun x y _ => x * y) s := by cases b <;> rfl
theorem exec_min : exec (twoForms .minVv .minVs d a b) s = intOp okIP d a b (fun x y _ => min x y) s := by cases b <;> rfl
theorem exec_max : exec (twoForms .maxVv .maxVs d a b) s = intOp okIP d a b (fun x y _ => max x y) s := by cases b <;> rfl
theorem exec_absd : exec (twoForms .absdVv .absdVs d a b) s = absd d a b s := by cases b <;> rfl
theorem exec_mad : exec (twoForms .madVv .madVs d a b) s = intOp okMad d a b (fun x y z => x * y + z) s := by
  cases b <;> rfl
theorem exec_mulh : exec (twoForms .mulhVv .mulhVs d a b) s = mulh d a b s := by cases b <;> rfl
theorem exec_dp4 : exec (twoForms .dp4Vv .dp4Vs d a b) s = dp4 d a b s := by cases b <;> rfl

end words

/-! The types that each word admits. -/

theorem okIBP_of {ty : Nat} (h : isI ty ∨ isB ty ∨ isP ty) : okIBP ty = true := by
  simpa only [okIBP, Bool.or_eq_true, or_assoc] using h

theorem okIP_of {ty : Nat} (h : isI ty ∨ isP ty) : okIP ty = true := by simpa only [okIP, Bool.or_eq_true] using h

theorem okMad_of_mem {ty : Nat} (h : ty ∈ [2, 6, 8, 0x16]) : okMad ty = true := by simpa [okMad, or_assoc] using h

theorem okMulh_of_mem {ty : Nat} (h : ty ∈ [2, 6, 0x16]) : okMulh ty = true := by simpa [okMulh, or_assoc] using h

/-- Settles O6: each word by the form of its operation, clamping and reducing by what they are on integers. -/
theorem vectorArithmeticWritesExactElements : Obligations.VectorArithmeticWritesExactElements := by
  refine ⟨?words, ?values⟩
  case words =>
    intro s w d a b hd I ty h x y z fit p
    have gives : ∀ {i ok f}, ok ty = true → exec i s = intOp ok d a b f s →
        s.GivesTyped w i d (fun l => byElem ty fun h => fit (f (x l h) (y l h) (z l h))) :=
      fun hty hi => givesTyped_of_intOp hd h hty hi
    refine ⟨fun hty => ?exact, fun hty => ?ordered, fun hty => ?mad, fun hty => ?mulh, fun hty => ?dp4⟩
    case exact =>
      have ok := okIBP_of hty
      have hadd := gives ok (exec_add d a b s)
      have hsub := gives ok (exec_sub d a b s)
      have hmul := gives ok (exec_mul d a b s)
      exact ⟨hadd, hsub, hmul⟩
    case ordered =>
      have ok := okIP_of hty
      have hmin := gives ok (exec_min d a b s)
      have hmax := gives ok (exec_max d a b s)
      refine ⟨hmin, hmax, givesTyped_of_vecOp hd h ok (exec_absd d a b s) fun l => ?_⟩
      simp only [seen_ty h.1.1, seen_sat h.1.1, Bool.and_eq_true]
      rfl
    case mad =>
      have hmad := gives (okMad_of_mem hty) (exec_mad d a b s)
      exact hmad
    case mulh => exact givesTyped_of_vecOp hd h (okMulh_of_mem hty) (exec_mulh d a b s) fun l => by rw [seen_ty h.1.1]
    case dp4 =>
      exact givesTyped_of_vecOp hd h hty (exec_dp4 d a b s) fun l => by rw [seen_ty h.1.1, seen_sat h.1.1]
  case values =>
    intro ty x hty w signedType lo hi
    have hreduced := cast_fitElem_reduced (sat := false) hty rfl x
    refine ⟨hreduced, fun hb => ?_, fun hb => cast_fitElem_clamped hty hb x, fun hb hlo hhi => ?_⟩
    · have hbits := cast_fitElem_reduced (sat := true) hty (by rw [hb]; rfl) x
      exact Int.ofNat_inj.mp (hbits.trans hreduced.symm)
    · have hin : max lo (min x hi) = x := by rw [min_eq_left hhi, max_eq_right hlo]
      have hclamped := cast_fitElem_clamped hty hb x
      exact Int.ofNat_inj.mp ((hclamped.trans (congrArg (· % _) hin)).trans hreduced.symm)

end Sys2Proof.Machine
end

section
/-! Vector patterns (O7): the bitwise words, shifts, bit fields, PRMT and SEL, by what each makes of an element's pattern (06
R134, R137, R138, R140, R141). -/
namespace Sys2Proof.Machine

/-- A word on element patterns (R134). -/
theorem givesTyped_of_patOp {s : State} {w : Warp} {i : Instr} {d a : Nat} {b : Opnd} {ok : Nat → Bool}
    {f : Nat → Nat → Nat → Nat} (hd : d < 256)
    (h : let ty := (s.at w).ty
      s.Admits w { cls := .e, legal := okReg ty d && okReg ty a && b.legal ty
                   vs := vregs ty d ++ vregs ty a ++ b.vs ty, ss := b.ss ty, dst := vregs ty d })
    (hty : ok (s.at w).ty = true) (hi : exec i s = patOp ok d a b f s) :
    let I := s.at w
    s.GivesTyped w i d fun l => byElem I.ty fun h =>
      f (elemBits I.ty) (elem I.ty (I.vsrc I.ty a l) h) (elem I.ty (I.opnd I.ty l b) h) :=
  givesTyped_of_vecOp hd h hty hi fun l => by rw [seen_ty h.1.1]

/-! Bit fields (R138). -/

/-- The types of one whole register that the bit fields and the carry chain admit. -/
theorem ok32_of_mem {ty : Nat} (h : ty ∈ [2, 6, 8]) : ok32 ty = true := by simpa [ok32, or_assoc] using h

/-- Under them a vector source is one register. -/
theorem vsrc_lt_of_ok32 {ty : Nat} (h : ok32 ty = true) (I : Issue) (r l : Nat) : I.vsrc ty r l < 2 ^ 32 := by
  have hone : is64 ty = false := by
    simp only [ok32, Bool.or_eq_true, beq_iff_eq] at h
    obtain (rfl | rfl) | rfl := h <;> rfl
  simpa only [atomBits, hone, Bool.false_eq_true, if_false] using vsrc_lt I ty r l

theorem toNat_word {x : Nat} (h : x < 2 ^ 32) : (word x).toNat = x := by
  rw [word, BitVec.toNat_ofNat, Nat.mod_eq_of_lt h]

/-- BFE's field of a at the place and of the width that b gives, its sign spread where the type is signed. -/
theorem toNat_bfe32 {x : Nat} (hx : x < 2 ^ 32) (y : Nat) (isSigned : Prop) [Decidable isSigned] :
    let m := min (y / 2 ^ 8 % 64) (32 - y % 32)
    let f := x / 2 ^ (y % 32) % 2 ^ m
    (bfe32 (word x) (word (y % 2 ^ 16 + if isSigned then 2 ^ 16 else 0))).toNat =
      if isSigned ∧ 0 < m then pattern 32 (signed m f) else f := by
  intro m f
  obtain ⟨v, hv⟩ : ∃ v, v = y % 2 ^ 16 + if isSigned then 2 ^ 16 else 0 := ⟨_, rfl⟩
  have hlt : v < 2 ^ 32 := by rw [hv]; split <;> omega
  have hpos : bits v 4 0 = y % 32 := by rw [hv]; simp only [bits]; split <;> omega
  have hlen : bits v 13 8 = y / 2 ^ 8 % 64 := by rw [hv]; simp only [bits]; split <;> omega
  have hsign : bit v 16 = decide isSigned := by
    rw [hv, bit, beq_eq_decide]
    split <;> simp only [*, decide_true, decide_false, decide_eq_true_eq, decide_eq_false_iff_not] <;> omega
  have hf : f < 2 ^ 32 := (Nat.mod_le _ _).trans_lt ((Nat.div_le_self _ _).trans_lt hx)
  rw [← hv]
  simp only [bfe32, toNat_word hlt, toNat_word hx, hpos, hlen, hsign, decide_eq_true_eq]
  change (if m = 0 then (0 : Word) else if isSigned then BitVec.ofInt 32 (signed m f) else word f).toNat = _
  by_cases h0 : m = 0
  · have hzero : f = 0 := by simp only [f, h0, pow_zero, Nat.mod_one]
    simp [h0, hzero]
  · simp only [if_neg h0, Nat.pos_of_ne_zero h0, and_true]
    split
    · rfl
    · exact toNat_word hf

/-- A number with a field of m bits at p replaced, bit by bit. -/
theorem testBit_replaced (z x p m i : Nat) :
    (z - z / 2 ^ p % 2 ^ m * 2 ^ p + x % 2 ^ m * 2 ^ p).testBit i =
      if p ≤ i ∧ i < p + m then x.testBit (i - p) else z.testBit i := by
  have hsplit : z - z / 2 ^ p % 2 ^ m * 2 ^ p + x % 2 ^ m * 2 ^ p =
      2 ^ p * (2 ^ m * (z / 2 ^ p / 2 ^ m) + x % 2 ^ m) + z % 2 ^ p := by
    have hz := Nat.div_add_mod z (2 ^ p)
    have hq := Nat.div_add_mod (z / 2 ^ p) (2 ^ m)
    have hmul : 2 ^ p * (z / 2 ^ p) = 2 ^ p * (2 ^ m * (z / 2 ^ p / 2 ^ m)) + z / 2 ^ p % 2 ^ m * 2 ^ p := by
      conv_lhs => rw [← hq]
      ring
    rw [Nat.mul_add, Nat.mul_comm (2 ^ p) (x % 2 ^ m)]
    omega
  rw [hsplit, Nat.testBit_two_pow_mul_add _ (Nat.mod_lt _ (by positivity))]
  by_cases hp : i < p
  · simp [hp, Nat.not_le.mpr hp]
  · rw [if_neg hp, Nat.testBit_two_pow_mul_add _ (Nat.mod_lt _ (by positivity))]
    by_cases hm : i < p + m
    · simp [hm, Nat.not_lt.mp hp, show i - p < m by omega]
    · rw [if_neg (by omega), if_neg (by omega), Nat.testBit_div_two_pow, Nat.testBit_div_two_pow]
      congr 1
      omega

/-- BFI replaces the field of the old d at the place and of the width that b gives. -/
theorem toNat_bfi32 {z x : Nat} (hz : z < 2 ^ 32) (hx : x < 2 ^ 32) (y : Nat) :
    let p := y % 32
    let m := min (y / 2 ^ 8 % 64) (32 - p)
    (bfi32 (word z) (word x) (word y)).toNat = z - z / 2 ^ p % 2 ^ m * 2 ^ p + x % 2 ^ m * 2 ^ p := by
  intro p m
  have hpos : (word y).toNat % 32 = p := by rw [word, BitVec.toNat_ofNat]; omega
  have hlen : (word y).toNat / 2 ^ 8 % 64 = y / 2 ^ 8 % 64 := by rw [word, BitVec.toNat_ofNat]; omega
  refine Nat.eq_of_testBit_eq fun i => ?_
  rw [testBit_replaced]
  by_cases hi : i < 32
  · have hbit := getLsbD_bfi32 (word z) (word x) (word y) hi
    simp only [hpos, hlen, BitVec.getLsbD, toNat_word hz, toNat_word hx] at hbit
    exact hbit
  · have hhigh : ∀ {n : Nat}, n < 2 ^ 32 → n.testBit i = false := fun hn =>
      Nat.testBit_lt_two_pow (hn.trans_le (Nat.pow_le_pow_right (by decide) (by omega)))
    rw [hhigh (BitVec.isLt _), hhigh hz, if_neg (by omega)]

/-! PRMT (R140). -/

/-- The byte that a nibble of the selector places: a byte of b:a, or its sign spread. -/
theorem prmtByte_eq (x z k : Nat) : prmtByte x z k =
    let sel := z / 2 ^ (4 * k) % 16
    let byte := x / 2 ^ (8 * (sel % 8)) % 256
    if sel < 8 then byte else if byte < 128 then 0 else 255 := by
  obtain ⟨sel, hsel⟩ : ∃ sel, sel = z / 2 ^ (4 * k) % 16 := ⟨_, rfl⟩
  obtain ⟨byte, hbyte⟩ : ∃ byte, byte = x / 2 ^ (8 * (sel % 8)) % 256 := ⟨_, rfl⟩
  have hlow : bits z (4 * k + 2) (4 * k) = sel % 8 := by
    rw [bits, show 4 * k + 2 + 1 - 4 * k = 3 by omega]
    omega
  have hhigh : bit z (4 * k + 3) = decide (¬sel < 8) := by
    rw [bit, beq_eq_decide, pow_add, ← Nat.div_div_eq_div_mul]
    exact decide_eq_decide.mpr (by omega)
  have hsign : bit byte 7 = decide (¬byte < 128) := by
    rw [bit, beq_eq_decide]
    exact decide_eq_decide.mpr (by omega)
  simp only [prmtByte, hlow, hhigh, ← hsel, ← hbyte, hsign, decide_eq_true_eq, ite_not]

section words
variable (d a : Nat) (b : Opnd) (s : State)

theorem exec_and : exec (twoForms .andVv .andVs d a b) s = patOp okIBP d a b (fun _ x y => x &&& y) s := by
  cases b <;> rfl
theorem exec_or : exec (twoForms .orVv .orVs d a b) s = patOp okIBP d a b (fun _ x y => x ||| y) s := by cases b <;> rfl
theorem exec_xor : exec (twoForms .xorVv .xorVs d a b) s = patOp okIBP d a b (fun _ x y => x ^^^ y) s := by
  cases b <;> rfl
theorem exec_shl : exec (twoForms .shlVv .shlVs d a b) s = shl d a b s := by cases b <;> rfl
theorem exec_shr : exec (twoForms .shrVv .shrVs d a b) s = shr false d a b s := by cases b <;> rfl
theorem exec_sar : exec (twoForms .sarVv .sarVs d a b) s = shr true d a b s := by cases b <;> rfl
theorem exec_bfe : exec (twoForms .bfeVv .bfeVs d a b) s = bfe d a b s := by cases b <;> rfl
theorem exec_bfi : exec (twoForms .bfiVv .bfiVs d a b) s = bfi d a b s := by cases b <;> rfl
theorem exec_prmt : exec (twoForms .prmtVv .prmtVs d a b) s = prmt d a b s := by cases b <;> rfl
theorem exec_sel : exec (twoForms .selVv .selVs d a b) s = sel d a b s := by cases b <;> rfl

end words

/-- Settles O7: the bitwise words by the form on patterns, the shifts by their counts, the bit fields and PRMT by what they are
on numbers. -/
theorem vectorLogicAndShiftsWritePatterns : Obligations.VectorLogicAndShiftsWritePatterns := by
  intro s w d a b hd I ty h n x y c
  have hw := h.1.1
  refine ⟨fun hty => ?patterns, fun hty => ⟨?bfe, ?bfi⟩, fun hty => ?prmt, fun hty => ?sel⟩
  case patterns =>
    have ok := okIBP_of hty
    have hand := givesTyped_of_patOp hd h ok (exec_and d a b s)
    have hor := givesTyped_of_patOp hd h ok (exec_or d a b s)
    have hxor := givesTyped_of_patOp hd h ok (exec_xor d a b s)
    refine ⟨hand, hor, hxor, givesTyped_of_vecOp hd h ok (exec_shl d a b s) fun l => ?_,
      givesTyped_of_vecOp hd h ok (exec_shr d a b s) fun l => ?_, givesTyped_of_vecOp hd h ok (exec_sar d a b s) fun l => ?_⟩
    · simp only [seen_ty hw, seen_sat hw]
      rfl
    · simp only [seen_ty hw]
      rfl
    · simp only [seen_ty hw]
      rfl
  case bfe =>
    refine givesTyped_of_vecOp hd h (ok32_of_mem hty) (exec_bfe d a b s) fun l => ?_
    rw [seen_ty hw]
    exact toNat_bfe32 (vsrc_lt_of_ok32 (ok32_of_mem hty) I a l) (I.opnd ty l b) (ty = 2)
  case bfi =>
    exact givesTyped_of_vecOp hd h (ok32_of_mem hty) (exec_bfi d a b s) fun l =>
      toNat_bfi32 (vsrc_lt_of_ok32 (ok32_of_mem hty) I d l) (vsrc_lt_of_ok32 (ok32_of_mem hty) I a l) (I.opnd ty l b)
  case prmt =>
    exact givesTyped_of_vecOp (ok := (· == 8)) hd h (beq_iff_eq.mpr hty) (exec_prmt d a b s) fun l =>
      congrArg (unelem 8) (List.map_congr_left fun k _ => prmtByte_eq _ _ k)
  case sel => exact givesTyped_of_vecOp hd h hty (exec_sel d a b s) fun l => ite_not ..

end Sys2Proof.Machine
end

section
/-! Single-source words, MOV and CMP (O8): writes of registers in every active lane, and what the counts and the reversal are on
bits (06 R139, R141). -/
namespace Sys2Proof.Machine

/-- A word that writes in every active lane l a value to each register of that lane's list, after a step of the LFSR or
none. -/
theorem lanes_done {chk : Issue → Chk} {body : Issue → Except Trap (List Effect × Flow)} {s : State} {w : Warp}
    {rs : Nat → List Nat} {x : Nat → Nat → Word} {pre : List Effect} (hw : s.Issuing w)
    (hc : (chk (s.at w)).Passes (s.at w)) (hd : ∀ l ∈ (s.at w).act, ∀ r ∈ rs l, r < 256)
    (hp : ∀ e ∈ pre, ∃ q, e = .lfsr s.cur q)
    (hb : body s.seen = .ok (pre ++ (s.at w).act.flatMap (fun l => (rs l).map fun r => .vreg s.cur r l (x r l)), .next)) :
    ∃ t, issue chk body s = .next t ∧
      (∀ l ∈ (s.at w).act, ∀ r ∈ rs l, (t.warp s.cur).readV r l = x r l) ∧
      s.RegWord t noReg noReg (fun r l => l ∈ (s.at w).act ∧ r ∈ rs l) .next (regsAll pre w).lfsr := by
  have hout : ∀ e ∈ (s.at w).act.flatMap (fun l => (rs l).map fun r => Effect.vreg s.cur r l (x r l)),
      ∃ l ∈ (s.at w).act, ∃ r ∈ rs l, .vreg s.cur r l (x r l) = e := fun e he => by
    simpa only [List.mem_flatMap, List.mem_map] using he
  have hm : ∀ e, e ∈ pre ++ (s.at w).act.flatMap (fun l => (rs l).map fun r => Effect.vreg s.cur r l (x r l)) →
      (∃ q, e = .lfsr s.cur q) ∨ ∃ l ∈ (s.at w).act, ∃ r ∈ rs l, .vreg s.cur r l (x r l) = e := fun e he =>
    (List.mem_append.mp he).imp (hp e) (hout e)
  obtain ⟨t, ht, -, -, hV, hreg⟩ := regWord_done (S := noReg) (M := noReg)
    (V := fun r l => l ∈ (s.at w).act ∧ r ∈ rs l) hw hc hb rfl
    (fun e he => by rcases hm e he with ⟨q, rfl⟩ | ⟨l, -, r, -, rfl⟩ <;> rfl)
    (fun n _ e he k y => by rcases hm e he with ⟨q, rfl⟩ | ⟨l, -, r, -, rfl⟩ <;> simp)
    (fun n _ e he k y => by rcases hm e he with ⟨q, rfl⟩ | ⟨l, -, r, -, rfl⟩ <;> simp)
    (fun p q _ hn e he k y => by
      rcases hm e he with ⟨q', rfl⟩ | ⟨l, hl, r, hr, rfl⟩
      · simp
      · rintro ⟨⟩
        exact hn ⟨hl, hr⟩)
  have hlfsr : (regsAll (pre ++ (s.at w).act.flatMap (fun l => (rs l).map fun r => Effect.vreg s.cur r l (x r l))) w).lfsr
      = (regsAll pre w).lfsr := by
    rw [regsAll_append]
    refine regsAll_lfsr _ fun e he k q => ?_
    obtain ⟨l, -, r, -, rfl⟩ := hout e he
    simp
  refine ⟨t, ht, fun l hl r hr => ?_, hlfsr ▸ hreg⟩
  rw [hV]
  refine regsAll_readV hw.2 (hd l hl r hr) (Issue.act_lt hl)
    ⟨s.cur, List.mem_append_right _ (List.mem_flatMap.mpr ⟨l, hl, List.mem_map.mpr ⟨r, hr, rfl⟩⟩)⟩ fun j y hy => ?_
  rcases hm _ hy with ⟨q, h⟩ | ⟨l', -, r', -, h⟩
  · simp at h
  · cases h
    rfl

/-- A word that writes the same registers in every active lane, whatever the step of the LFSR. -/
theorem givesVector_of_lanes {s : State} {w : Warp} {i : Instr} {chk : Issue → Chk}
    {body : Issue → Except Trap (List Effect × Flow)} {rs : List Nat} {x : Nat → Nat → Word} (hw : s.Issuing w)
    (hc : (chk (s.at w)).Passes (s.at w)) (hd : ∀ r ∈ rs, r < 256) (hi : exec i s = issue chk body s)
    (hb : body s.seen = .ok ((s.at w).act.flatMap (fun l => rs.map fun r => .vreg s.cur r l (x r l)), .next)) :
    s.GivesVector w i rs x := by
  obtain ⟨t, ht, hx, hreg⟩ := lanes_done (pre := []) (rs := fun _ => rs) hw hc (fun _ _ => hd) (by simp) hb
  refine ⟨t, hi.trans ht, fun r hr l hl => hx l hl r hr, ?_⟩
  simpa only [and_comm, regsAll_nil] using hreg

/-! Counts and reversal on bits (R139). -/

/-- The one bits of a pattern are as many as the places below n that hold one. -/
theorem popcount_eq_countP_bit (n x : Nat) : popcount n x = (List.range n).countP fun i => bit x i := by
  rw [popcount, setBits_eq_filter, List.countP_eq_length_filter]
  exact congrArg (fun p => ((List.range n).filter p).length) (funext fun i => (bit_eq_testBit x i).symm)

theorem mem_setBits {n x i : Nat} : i ∈ setBits n x ↔ i < n ∧ x.testBit i = true := by
  rw [setBits_eq_filter, List.mem_filter, List.mem_range]

/-- A mask of listed bits has just those. -/
theorem testBit_maskOf (l : List Nat) (i : Nat) : (maskOf l).testBit i = decide (i ∈ l) := by
  induction l with
  | nil => simp [maskOf]
  | cons j t ih =>
    rw [maskOf, Nat.testBit_or, ih, Nat.testBit_two_pow]
    simp only [List.mem_cons, Bool.decide_or, eq_comm (a := i), Bool.or_comm]

/-- The reversed pattern holds at each place the bit of the mirrored place. -/
theorem bit_brev {n i : Nat} (x : Nat) (hi : i < n) : bit (brev n x) i = bit x (n - 1 - i) := by
  have hmem : i ∈ (setBits n x).map (fun j => n - 1 - j) ↔ x.testBit (n - 1 - i) = true := by
    simp only [List.mem_map, mem_setBits]
    refine ⟨fun ⟨j, ⟨hj, hx⟩, hij⟩ => ?_, fun hx => ⟨n - 1 - i, ⟨by omega, hx⟩, by omega⟩⟩
    rwa [show n - 1 - i = j by omega]
  rw [brev, bit_eq_testBit, bit_eq_testBit, testBit_maskOf]
  simp only [hmem, Bool.decide_eq_true]

/-! The forms. -/

/-- A word of one source under TYPE: its result in a lane from the type and the raw source. -/
def oneOp (ok : Nat → Bool) (d : Nat) (b : Opnd) (f : Nat → Nat → Nat) (s : State) : Out :=
  lanewise (fun I => ok I.ty && okReg I.ty d && b.legal I.ty) (fun I => vregs I.ty d ++ b.vs I.ty) (fun I => b.ss I.ty)
    (fun I => vregs I.ty d) (fun I l => vout I.k I.ty d l (f I.ty (I.opnd I.ty l b))) s

theorem givesTyped_of_oneOp {s : State} {w : Warp} {i : Instr} {d : Nat} {b : Opnd} {ok : Nat → Bool}
    {f : Nat → Nat → Nat} (hd : d < 256)
    (h : let ty := (s.at w).ty
      s.Admits w { cls := .e, legal := okReg ty d && b.legal ty, vs := vregs ty d ++ b.vs ty, ss := b.ss ty
                   dst := vregs ty d })
    (hty : ok (s.at w).ty = true) (hi : exec i s = oneOp ok d b f s) :
    let I := s.at w
    s.GivesTyped w i d fun l => f I.ty (I.opnd I.ty l b) := by
  obtain ⟨hw, hc⟩ := h
  have hl := hc.legal
  simp only [Bool.and_eq_true] at hl
  obtain ⟨hD, hB⟩ := hl
  unfold oneOp lanewise at hi
  refine givesVector_of_issue false hw (hc.relegal ?_) (fun r => vregs_lt hd hD) hi ?_
  · simp only [hty, hD, hB, Bool.and_self]
  · simp only [seen_ty hw.1, seen_act hw.1, seen_opnd hw.1]
    rfl

theorem exec_movVv (d a : Nat) (s : State) : exec (.movVv d a) s = execMovVv d a s := rfl

/-- The registers of a copy, each with its source. -/
theorem map_zip_vregs (I : Issue) (k ty d a l : Nat) :
    ((vregs ty d).zip (vregs ty a)).map (fun p => Effect.vreg k p.1 l (I.v p.2 l)) =
      (vregs ty d).map fun r => .vreg k r l (I.v (if r = d then a else a + 1) l) := by
  unfold vregs
  split <;> simp

/-- MOV of a vector register copies it, or the pair. -/
theorem movVv_gives {s : State} {w : Warp} {d a : Nat} (hd : d < 256)
    (h : let ty := (s.at w).ty
      s.Admits w { cls := .e, legal := okReg ty d && okReg ty a && decide (ty < 0x18), vs := vregs ty d ++ vregs ty a
                   dst := vregs ty d }) :
    let I := s.at w
    s.GivesVector w (.movVv d a) (vregs I.ty d) fun r l => I.v (if r = d then a else a + 1) l := by
  obtain ⟨hw, hc⟩ := h
  have hl := hc.legal
  simp only [Bool.and_eq_true] at hl
  obtain ⟨⟨hD, hA⟩, hT⟩ := hl
  have hi := exec_movVv d a s
  unfold execMovVv lanewise at hi
  refine givesVector_of_lanes hw (hc.relegal ?_) (fun r => vregs_lt hd hD) hi ?_
  · simp only [hD, hA, hT, Bool.and_self]
  · simp only [seen_ty hw.1, seen_act hw.1, seen_v hw.1, map_zip_vregs]
    rfl

/-- R141: CMP writes its relation to d, and 0 to the odd register of a pair. -/
theorem cmp_writes {k ty d l x y : Nat} : (.vreg k d l (word (cmpResult ty x y)) ::
    if is64 ty then [Effect.vreg k (d + 1) l 0] else []) = (vregs ty d).map fun r =>
      .vreg k r l (if r = d then word (cmpResult ty x y) else 0) := by
  unfold vregs
  split <;> simp

section words
variable (d a : Nat) (b : Opnd) (s : State)

theorem exec_popc : exec (oneSource .popcVv .popcVs d b) s = oneOp isB d b (fun ty => popcount (elemBits ty)) s := by
  cases b <;> rfl
theorem exec_clz : exec (oneSource .clzVv .clzVs d b) s = oneOp isB d b (fun ty => clz (elemBits ty)) s := by
  cases b <;> rfl
theorem exec_brev : exec (oneSource .brevVv .brevVs d b) s = oneOp isB d b (fun ty => brev (elemBits ty)) s := by
  cases b <;> rfl
theorem exec_movVs (x : SOp) : exec (.movVs d x) s = oneOp (fun ty => decide (ty < 0x18)) d (.s x) (fun _ y => y) s := by
  simp only [oneOp, Opnd.vs, List.append_nil]
  rfl
theorem exec_cmp : exec (twoForms .cmpVv .cmpVs d a b) s = cmpOp d a b s := by cases b <;> rfl

end words

/-- Settles O8: the words of one source by the form on bits, the copies and CMP by the registers that they write. -/
theorem oneSourceWordsAndCmp : Obligations.OneSourceWordsAndCmp := by
  intro s w d a b hd I ty n
  refine ⟨fun h => ⟨fun hty => ?bits, ?constant⟩, fun h => movVv_gives hd h, fun h hty => ?compare⟩
  case bits =>
    have hpopc := givesTyped_of_oneOp hd h hty (exec_popc d b s)
    simp only [popcount_eq_countP_bit] at hpopc
    have hclz := givesTyped_of_oneOp hd h hty (exec_clz d b s)
    exact ⟨hpopc, hclz, _, givesTyped_of_oneOp hd h hty (exec_brev d b s), fun l i hi => bit_brev _ hi⟩
  case constant =>
    rintro x rfl hty
    have hmov := givesTyped_of_oneOp hd h (decide_eq_true hty) (exec_movVs d s x)
    exact hmov
  case compare =>
    obtain ⟨hw, hc⟩ := h
    have hl := hc.legal
    simp only [Bool.and_eq_true] at hl
    obtain ⟨⟨hD, hA⟩, hB⟩ := hl
    have hi := exec_cmp d a b s
    unfold cmpOp lanewise at hi
    refine givesVector_of_lanes hw (hc.relegal ?_) (fun r => vregs_lt hd hD) hi ?_
    · change (okIP ty && okReg ty d && okReg ty a && b.legal ty) = true
      simp only [okIP_of hty, hD, hA, hB, Bool.and_self]
    · simp only [seen_ty hw.1, seen_act hw.1, seen_vsrc hw.1, seen_opnd hw.1, cmp_writes]
      rfl

end Sys2Proof.Machine
end

section
/-! The carry chain (O9): sum, difference, carry and borrow of a lane, and the bits of m13 (06 R136). -/
namespace Sys2Proof.Machine

/-- Under the types of one whole register an operand is a number of 32 bits. -/
theorem opnd_lt_of_ok32 {ty : Nat} (h : ok32 ty = true) (I : Issue) (l : Nat) (b : Opnd) : I.opnd ty l b < 2 ^ 32 := by
  have hconst : ∀ c : Int, constBits ty c < 2 ^ 32 := fun c => by
    simp only [ok32, Bool.or_eq_true, beq_iff_eq] at h
    obtain (rfl | rfl) | rfl := h <;> exact Nat.mod_lt _ (by decide)
  have hty : is64 ty = false ∧ elems ty = 1 ∧ elemBits ty = 32 ∧ fmtOf ty = none ∧ ty ≠ 3 ∧ ty ≠ 0x0D := by
    simp only [ok32, Bool.or_eq_true, beq_iff_eq] at h
    obtain (rfl | rfl) | rfl := h <;> decide
  obtain ⟨hpair, hone, hbits, hfmt, h3, h13⟩ := hty
  cases b with
  | v r => exact vsrc_lt_of_ok32 h I r l
  | s x =>
    cases x with
    | reg n =>
      simp only [Issue.opnd, Issue.sval, hpair, hone, hbits]
      exact Nat.mod_lt _ (by decide)
    | const c => exact hconst c
    | fconst k => simp [Issue.opnd, Issue.sval, hfmt]
    | laneid => exact hconst l
    | lit w =>
      simp only [Issue.opnd, Issue.sval, if_neg h3, if_neg h13]
      exact w.isLt

/-- The difference of two words and a borrow in, as a number. -/
theorem word_sub {x y c : Nat} (hy : y < 2 ^ 32) (hc : c ≤ 1) : word x - word y - word c = word (x + 2 ^ 33 - y - c) := by
  refine BitVec.eq_of_toNat_eq ?_
  simp only [word, BitVec.toNat_sub, BitVec.toNat_ofNat]
  omega

/-- The active lanes are the set bits of their mask. -/
theorem Issue.mem_act {I : Issue} {l : Nat} : l ∈ I.act ↔ l < 32 ∧ I.active.testBit l = true := mem_setBits

/-- A mask with the active lanes' bits replaced by those of the lanes that meet a condition. -/
theorem getLsbD_replaceActive (I : Issue) (m : Word) (p : Nat → Bool) {l : Nat} (hl : l < 32) :
    ((m &&& ~~~ word I.active) ||| word (maskOf (I.act.filter p))).getLsbD l =
      if l ∈ I.act then p l else m.getLsbD l := by
  simp only [word, BitVec.getLsbD_or, BitVec.getLsbD_and, BitVec.getLsbD_not, BitVec.getLsbD_ofNat, testBit_maskOf,
    List.mem_filter, Issue.mem_act, hl, decide_true, Bool.true_and, true_and]
  cases I.active.testBit l <;> simp

/-- The sum or difference of a lane with its bit of m13 (R136). -/
def carryResult (sub : Bool) (x y c : Nat) : Word := word (if sub then x + 2 ^ 33 - y - c else x + y + c)

/-- The carry or the borrow of a lane (R136). -/
def carryBit (sub : Bool) (x y c : Nat) : Bool := if sub then decide (x < y + c) else decide (2 ^ 32 ≤ x + y + c)

theorem exec_carry (sub : Bool) (d a : Nat) (b : Opnd) (s : State) :
    exec (if sub then twoForms .subbVv .subbVs d a b else twoForms .addcVv .addcVs d a b) s = carryOp sub d a b s := by
  cases sub <;> cases b <;> rfl

/-- What a word of the carry chain does: a result in every active lane, and the active lanes' bits of m13. -/
theorem carryOp_body {s : State} {w : Warp} (hw : s.Issuing w) {sub : Bool} {d a : Nat} {b : Opnd}
    (hok : ok32 (s.at w).ty = true) :
    let I := s.at w
    let x := fun l => I.vsrc I.ty a l
    let y := fun l => I.opnd I.ty l b
    let c := fun l => if (I.m 13).getLsbD l then 1 else 0
    ∃ chk body, carryOp sub d a b s = issue chk body s ∧
      chk I = { cls := .e, legal := ok32 I.ty && b.legal I.ty, vs := [d, a] ++ b.vs I.ty, ss := b.ss I.ty, dst := [d] } ∧
      body s.seen = .ok (I.act.map (fun l => .vreg s.cur d l (carryResult sub (x l) (y l) (c l))) ++
        [.mask s.cur 13 ((w.readM 13 &&& ~~~ word I.active) |||
          word (maskOf (I.act.filter fun l => carryBit sub (x l) (y l) (c l))))], .next) := by
  intro I x y c
  refine ⟨_, _, rfl, rfl, ?_⟩
  have hresult : ∀ l, (if sub then word (x l) - word (y l) - word (c l) else word (x l + y l + c l)) =
      carryResult sub (x l) (y l) (c l) := fun l => by
    cases sub with
    | false => rfl
    | true => exact word_sub (opnd_lt_of_ok32 hok _ _ _) (by simp only [c]; split <;> decide)
  simp only [seen_m hw.1, seen_act hw.1, seen_active hw.1, seen_ty hw.1, seen_vsrc hw.1, seen_opnd hw.1, seen_readM hw,
    List.map_eq_flatMap, ← hresult]
  rfl

/-- A word that writes one register in every active lane, and one mask. -/
theorem lanesMask_done {chk : Issue → Chk} {body : Issue → Except Trap (List Effect × Flow)} {s : State} {w : Warp}
    {d m : Nat} {x : Nat → Word} {z : Word} (hw : s.Issuing w) (hc : (chk (s.at w)).Passes (s.at w)) (hd : d < 256)
    (hm : m < 14)
    (hb : body s.seen = .ok ((s.at w).act.map (fun l => .vreg s.cur d l (x l)) ++ [.mask s.cur m z], .next)) :
    ∃ t, issue chk body s = .next t ∧ (∀ l ∈ (s.at w).act, (t.warp s.cur).readV d l = x l) ∧
      (t.warp s.cur).readM m = z &&& maskBits w.ctl ∧
      s.RegWord t noReg (· = m) (fun r l => r = d ∧ l ∈ (s.at w).act) .next := by
  obtain ⟨es, hes⟩ : ∃ es, es = (s.at w).act.map (fun l => Effect.vreg s.cur d l (x l)) ++ [.mask s.cur m z] := ⟨_, rfl⟩
  rw [← hes] at hb
  have hmem : ∀ e ∈ es, (∃ l ∈ (s.at w).act, .vreg s.cur d l (x l) = e) ∨ e = .mask s.cur m z := by
    simp only [hes, List.mem_append, List.mem_map, List.mem_singleton, imp_self, implies_true]
  obtain ⟨t, ht, -, hM, hV, hreg⟩ := regWord_done (S := noReg) (M := (· = m)) (V := fun r l => r = d ∧ l ∈ (s.at w).act)
    hw hc hb rfl
    (fun e he => by rcases hmem e he with ⟨l, -, rfl⟩ | rfl <;> rfl)
    (fun n _ e he k q => by rcases hmem e he with ⟨l, -, rfl⟩ | rfl <;> simp)
    (fun n hn e he k q => by rcases hmem e he with ⟨l, -, rfl⟩ | rfl <;> simp [Ne.symm hn])
    (fun p q _ hn e he k v => by
      rcases hmem e he with ⟨l, hl, rfl⟩ | rfl
      · rintro ⟨⟩
        exact hn ⟨rfl, hl⟩
      · simp)
  have hlfsr : (regsAll es w).lfsr = (s.warp s.cur).lfsr := by
    rw [State.warp_of_find hw.1]
    exact regsAll_lfsr w fun e he k q => by rcases hmem e he with ⟨l, -, rfl⟩ | rfl <;> simp
  refine ⟨t, ht, fun l hl => (hV d l).trans ?_, (hM m).trans ?_, hlfsr ▸ hreg⟩
  · refine regsAll_readV hw.2 hd (Issue.act_lt hl) ⟨s.cur, ?_⟩ fun j q hq => ?_
    · rw [hes]
      exact List.mem_append_left _ (List.mem_map.mpr ⟨l, hl, rfl⟩)
    · rcases hmem _ hq with ⟨l', -, h⟩ | h
      · cases h
        rfl
      · simp at h
  · refine regsAll_readM hw.2 hm ⟨s.cur, by simp [hes]⟩ fun j q hq => ?_
    rcases hmem _ hq with ⟨l', -, h⟩ | h
    · simp at h
    · cases h
      rfl

/-- Settles O9: what a word of the chain writes in an active lane, and the bits of m13 after it. -/
theorem carryChainUsesMaskThirteen : Obligations.CarryChainUsesMaskThirteen := by
  intro s w d a b sub hd I ty hty h x y c
  obtain ⟨hw, hc⟩ := h
  have hok := ok32_of_mem hty
  obtain ⟨chk, body, hi, hchk, hbody⟩ := carryOp_body (sub := sub) (d := d) (a := a) (b := b) hw hok
  have hpass : (chk I).Passes I := by
    rw [hchk]
    exact hc.relegal (Bool.and_eq_true_iff.mpr ⟨hok, hc.legal⟩)
  obtain ⟨t, ht, hV, hM, hreg⟩ := lanesMask_done hw hpass hd (by decide) hbody
  refine ⟨t, (exec_carry sub d a b s).trans (hi.trans ht), hV, fun l hl hbits => ?_, hreg⟩
  rw [hM, BitVec.getLsbD_and, hbits, Bool.and_true]
  exact getLsbD_replaceActive I _ _ hl

end Sys2Proof.Machine
end

section
/-! The conversions (O10): a target type of each lane's own, the faults that it may meet, and what each word converts (06 R142; 07
R167; 03 R84, R85; log entry 23). -/
namespace Sys2Proof.Machine

/-- The registers that a 64-bit target names lie below 256. -/
theorem vregs_lt_of_even {ty d r : Nat} (hd : d < 256) (heven : is64 ty = true → d % 2 = 0) (hr : r ∈ vregs ty d) : r < 256 :=
  vregs_lt hd (by cases h : is64 ty with
    | false => simp [okReg, h]
    | true => simp [okReg, h, heven h]) hr

/-- A typed result as writes of the registers of its type. -/
theorem vout_eq_map (k ty d l x : Nat) : vout k ty d l x = (vregs ty d).map fun r => .vreg k r l (resultIn ty d x r) := by
  unfold vout vregs resultIn
  split <;> simp

/-- What makes the target types of a conversion admitted: of a uniform operand, or else in the active lanes, the word admits
them, and a 64-bit one finds D even and within the budget. -/
structure Issue.Targets (I : Issue) (b : Opnd) (ok : Nat → Bool) (d : Nat) (t : Nat → Nat) : Prop where
  admitted : ∀ l, ((∃ x, b = .s x ∧ x ≠ .laneid) ∨ l ∈ I.act) → ok (t l) = true
  pair : ∀ l ∈ I.act, is64 (t l) = true → d % 2 = 0 ∧ d + 1 < I.c.vbudget

section targets
variable {I : Issue} {b : Opnd} {ok : Nat → Bool} {d : Nat} {t : Nat → Nat} (h : I.Targets b ok d t)
include h

theorem Issue.Targets.even {l : Nat} (hl : l ∈ I.act) (h64 : is64 (t l) = true) : d % 2 = 0 := (h.pair l hl h64).1

/-- No lane has a type that the word refuses, nor a 64-bit one that finds D odd. -/
theorem Issue.Targets.refused : (I.act.filter fun l => !ok (t l) || (is64 (t l) && d % 2 == 1)) = [] := by
  refine List.filter_eq_nil_iff.mpr fun l hl => ?_
  have hok := h.admitted l (.inr hl)
  cases h64 : is64 (t l) with
  | false => simp [hok]
  | true => simp [hok, h.even hl h64]

/-- No lane has a 64-bit type whose pair leaves the budget. -/
theorem Issue.Targets.beyond : (I.act.filter fun l => is64 (t l) && decide (I.c.vbudget ≤ d + 1)) = [] := by
  refine List.filter_eq_nil_iff.mpr fun l hl => ?_
  cases h64 : is64 (t l) with
  | false => simp
  | true => simpa using (h.pair l hl h64).2

end targets

section forms
variable {s : State} {w : Warp} {i : Instr} {d a : Nat} {b : Opnd} {okSrc okDst : Nat → Bool} {dec bty : Nat → Nat}
  {rounds : Bool} {conv : Issue → Nat → Nat → Nat → Nat} {e : Nat → Nat}

/-- What a conversion does: each active lane takes its converted value under its own target type. -/
theorem convert_done (hd : d < 256) :
    let I := s.at w
    let t := fun l => dec (I.opnd (bty I.ty) l b)
    s.Admits w { cls := .e, legal := okReg I.ty a && b.legal (bty I.ty) && b.evenUnder I.ty
                 vs := d :: vregs I.ty a ++ b.vs (bty I.ty), ss := b.ss (bty I.ty)
                 dst := if I.act.any (fun l => is64 (t l)) then [d, d + 1] else [d] } →
    okSrc I.ty = true → (rounds = true → I.rnd < 6) → I.Targets b okDst d t →
    exec i s = convert okSrc okDst dec d a b bty rounds conv (·.stepIf rounds) s →
    (∀ l, conv s.seen l (I.vsrc I.ty a l) (t l) = e l) →
    ∃ u, exec i s = .next u ∧
      (∀ l ∈ I.act, ∀ r ∈ vregs (t l) d, (u.warp s.cur).readV r l = resultIn (t l) d (e l) r) ∧
      s.RegWord u noReg noReg (fun r l => l ∈ I.act ∧ r ∈ vregs (t l) d) .next (lfsrIf rounds I) := by
  intro I t ⟨hw, hc⟩ hsrc hr ht hi he
  have hl := hc.legal
  simp only [Bool.and_eq_true] at hl
  obtain ⟨⟨hA, hB⟩, hE⟩ := hl
  rw [hi, ← regsAll_stepIf hw rounds]
  refine lanes_done (rs := fun l => vregs (t l) d) (x := fun r l => resultIn (t l) d (e l) r) hw (hc.relegal ?_)
    (fun l hl r => vregs_lt_of_even hd (ht.even hl)) (fun _ h => ⟨_, mem_stepIf h⟩) ?_
  · simp only [Bool.and_eq_true]
    exact ⟨⟨⟨⟨hsrc, hA⟩, hB⟩, hE⟩, rnd_admitted hr⟩
  · have hrefused : (I.act.filter fun l => !okDst (t l) || (is64 (t l) && d % 2 == 1)) = [] := ht.refused
    have hbeyond : (I.act.filter fun l => is64 (t l) && decide (w.ctl.vbudget ≤ d + 1)) = [] := ht.beyond
    simp only [t, I] at hrefused hbeyond he
    simp only [seen_ty hw.1, seen_act hw.1, seen_vsrc hw.1, seen_opnd hw.1, seen_vbudget hw, he, hrefused, hbeyond]
    refine (if_neg ?_).trans ?_
    · cases b with
      | v r => simp
      | s x =>
        cases x with
        | laneid => simp
        | _ => simpa using ht.admitted 0 (.inl ⟨_, rfl, by simp⟩)
    · simp only [← vout_eq_map]
      rfl

end forms

section words
variable (d a : Nat) (b : Opnd) (s : State)

theorem exec_cvtiVv (r : Nat) : exec (.cvtiVv d a r) s = cvti (· % 8) (fun _ => tyB32) d a (.v r) s := rfl
theorem exec_cvtiVs (x : SOp) : exec (.cvtiVs d a x) s = cvti id id d a (.s x) s := rfl
theorem exec_ftoi : exec (twoForms .ftoiVv .ftoiVs d a b) s = fconvert isF4 isI d a b s := by cases b <;> rfl
theorem exec_itof : exec (twoForms .itofVv .itofVs d a b) s = fconvert isI isF4 d a b s := by cases b <;> rfl
theorem exec_fcvt : exec (twoForms .fcvtVv .fcvtVs d a b) s = fconvert isCvt isCvt d a b s := by cases b <;> rfl

end words

/-- The unpacked float types of the conversions. -/
theorem isF4_eq : isF4 = fun ty => [0x0A, 0x0B, 0x0C, 0x0D].contains ty := funext fun ty => Bool.eq_iff_iff.mpr (by
  simp only [isF4, Bool.and_eq_true, decide_eq_true_eq, List.contains_iff_mem, List.mem_cons, List.not_mem_nil, or_false]
  omega)

theorem isF4_of_mem {ty : Nat} (h : ty ∈ [0x0A, 0x0B, 0x0C, 0x0D]) : isF4 ty = true := by
  rw [isF4_eq]
  exact List.contains_iff_mem.mpr h

/-- Settles O10: each word by the form of the conversions, which rounds or does not. -/
theorem conversionsWriteEachLanesType : Obligations.ConversionsWriteEachLanesType := by
  intro s w d a b hd I ty done fits chk integer dst
  refine ⟨fun hty => ⟨?lanes, ?scalar⟩, ?floats⟩
  case lanes =>
    rintro r rfl t h ht
    have hw := h.1.1
    refine convert_done (dec := (· % 8)) (bty := fun _ => tyB32) (rounds := false) hd h hty nofun ⟨ht.1, ht.2⟩
      (exec_cvtiVv d a s r) fun l => ?_
    simp only [seen_ty hw, seen_sat hw]
    rfl
  case scalar =>
    rintro x rfl t h ht
    have hw := h.1.1
    refine convert_done (dec := id) (bty := id) (rounds := false) hd h hty nofun ⟨ht.1, ht.2⟩ (exec_cvtiVs d a s x)
      fun l => ?_
    simp only [seen_ty hw, seen_sat hw]
    rfl
  case floats =>
    intro hr t f h
    have hw := h.1.1
    have converts : ∀ {i okSrc okDst}, okSrc ty = true → fits t okDst → exec i s = fconvert okSrc okDst d a b s →
        done i t f (lfsrAfter I) := fun hsrc ht hi => by
      unfold fconvert at hi
      refine convert_done (dec := id) (bty := fun _ => tyB32) (rounds := true) hd h hsrc (fun _ => hr) ⟨ht.1, ht.2⟩ hi
        fun l => ?_
      simp only [seen_ty hw, seen_fz hw, seen_narrow hw]
      rfl
    have ftoi := fun hsrc ht => converts (okSrc := isF4) (okDst := isI) hsrc ht (exec_ftoi d a b s)
    have itof := fun hsrc ht => converts (okSrc := isI) (okDst := isF4) hsrc ht (exec_itof d a b s)
    have fcvt := fun hsrc ht => converts (okSrc := isCvt) (okDst := isCvt) hsrc ht (exec_fcvt d a b s)
    rw [isF4_eq] at itof
    exact ⟨fun hty => ftoi (isF4_of_mem hty), fun hty => itof hty, fun hlo hhi => fcvt (by simp [isCvt, hlo, hhi])⟩

end Sys2Proof.Machine
end

section
/-! The shuffles (O15): a lane's source and its segment, and the writes that move the values (06 R143 to R145; 03 R73; log entry
59). -/
namespace Sys2Proof.Machine

section seen
variable {s : State} {w : Warp} (hw : s.Issuing w)
include hw

theorem seen_launched : s.seen.c.launched = w.ctl.launched := by rw [seen_c hw.1]; rfl

theorem seen_swapSrc (ty r l : Nat) : s.seen.swapSrc ty r l = (s.at w).swapSrc ty r l := by
  rw [Issue.swapSrc, seen_launched hw, seen_vpair hw.1, seen_v hw.1]
  rfl

theorem seen_whole (ty l : Nat) (f : Nat → Nat) (x : SOp) : s.seen.whole ty l f x = (s.at w).whole ty l f x := by
  cases x <;> simp only [Issue.whole, seen_rs hw.1, seen_sval hw.1]

end seen

/-- The lane operand of a shuffle: a lane's element of a vector register, or a scalar operand's low 32 bits. -/
def Issue.swapOperand (I : Issue) (bty : Nat) (b : Opnd) (l : Nat) : Nat :=
  match b with
  | .v r => (I.v r l).toNat
  | .s x => I.whole bty l id x % 2 ^ 32

/-- What a shuffle leaves where lane l takes the value of lane (src l).1, or its own where (src l).2 is false (R143). -/
def State.shuffled (s : State) (w : Warp) (d a : Nat) (src : Nat → Nat × Bool) : List Effect × Flow :=
  let I := s.at w
  let mark := maskOf (I.act.filter fun l => (src l).2 && w.ctl.launched.getLsbD (src l).1)
  let ws := (I.act.flatMap fun l =>
      let j := if (src l).2 then (src l).1 else l
      if bit I.lanes j || !w.ctl.launched.getLsbD j then swapOut I.ty d l (I.swapSrc I.ty a j)
      else movedOut I.ty d l a j (I.swapSrc I.ty a j)) ++
    (if I.sat then [.m 13 (word I.lanes) (word mark)] else [])
  (if I.act.any fun l => (src l).2 && (src l).1 / 4 != l / 4
    then bindOp s.ticked s.cur s.slices (bits I.slice.h0.toNat 19 16) ws [] false
    else ws.map (regEffect s.ticked s.cur), .next)

/-- A shuffle whose segment codes are admitted moves the values of the lanes that its operands name. -/
theorem shuffle_retires {s : State} {w : Warp} {i : Instr} {d a : Nat} {b : Opnd} {bty : Nat → Nat} {bad : Nat → Bool}
    {src : Nat → Nat → Nat × Bool}
    (h : let ty := (s.at w).ty
      s.Admits w { cls := .e, legal := okReg ty d && okReg ty a && b.legal (bty ty)
                   vs := vregs ty d ++ vregs ty a ++ b.vs (bty ty), ss := b.ss (bty ty), dst := vregs ty d })
    (hty : (s.at w).ty < 0x18) (hi : exec i s = shuffle d a b bty bad src s)
    (hbad : ∀ l, l < 32 → bad ((s.at w).swapOperand (bty (s.at w).ty) b l) = false) :
    s.Retires i (s.shuffled w d a fun l => src l ((s.at w).swapOperand (bty (s.at w).ty) b l)) := by
  obtain ⟨hw, hc⟩ := h
  have hl := hc.legal
  simp only [Bool.and_eq_true] at hl
  obtain ⟨⟨hD, hA⟩, hB⟩ := hl
  refine retires_of_issue hw hi (hc.relegal ?_) ?_
  · simp only [hty, hD, hA, hB, decide_true, Bool.and_self]
  have hnone : ((s.at w).act.filter fun l => bad ((s.at w).swapOperand (bty (s.at w).ty) b l)) = [] :=
    List.filter_eq_nil_iff.mpr fun l hl => by simp [hbad l (Issue.act_lt hl)]
  have hzero := hbad 0 (by decide)
  cases b with
  | v r =>
    simp only [Issue.swapOperand] at hnone
    simp only [seen_ty hw.1, seen_act hw.1, seen_v hw.1, seen_sat hw.1, seen_swapSrc hw, seen_launched hw, hnone,
      Issue.exchange, seen_seta hw.1]
    rfl
  | s x =>
    simp only [Issue.swapOperand] at hnone hzero
    simp only [seen_ty hw.1, seen_act hw.1, seen_whole hw, seen_sat hw.1, seen_swapSrc hw, seen_launched hw, hnone,
      hzero, Bool.and_false, Issue.exchange, seen_seta hw.1]
    rfl

theorem exec_shfl (d a r : Nat) (s : State) : exec (.shfl d a r) s =
    shuffle d a (.v r) (fun _ => tyB32) (fun _ => false) (fun _ y => (y % 32, true)) s := rfl
theorem exec_shflx (d a : Nat) (x : SOp) (s : State) : exec (.shflx d a x) s =
    shuffle d a (.s x) id (fun _ => false) (fun l y => (l ^^^ (y % 32), true)) s := rfl
theorem exec_shflup (d a : Nat) (x : SOp) (s : State) : exec (.shflup d a x) s =
    shuffle d a (.s x) id badSegment
      (fun l y => (l - y % 32, decide (y % 32 ≤ l) && segment y (l - y % 32) == segment y l)) s := rfl
theorem exec_shfldn (d a : Nat) (x : SOp) (s : State) : exec (.shfldn d a x) s =
    shuffle d a (.s x) id badSegment
      (fun l y => ((l + y % 32) % 32, decide (l + y % 32 < 32) && segment y (l + y % 32) == segment y l)) s := rfl

/-- Settles O15: each shuffle by the source that it names for a lane. -/
theorem shufflesMoveSourceLanes : Obligations.ShufflesMoveSourceLanes := by
  intro s w d a I ty hty moves chk
  refine ⟨?vector, ?scalar⟩
  case vector =>
    intro r h
    have hshfl := shuffle_retires (bty := fun _ => tyB32) h hty (exec_shfl d a r s) fun _ _ => rfl
    exact hshfl
  case scalar =>
    intro x h y width
    have hshflx := shuffle_retires (bty := id) h hty (exec_shflx d a x s) fun _ _ => rfl
    refine ⟨hshflx, fun hwidth => ?_⟩
    have hbad : ∀ l, l < 32 → badSegment (y l) = false := fun l hl => decide_eq_false (Nat.not_le.mpr (hwidth l hl))
    have hup := shuffle_retires (bty := id) h hty (exec_shflup d a x s) hbad
    have hdn := shuffle_retires (bty := id) h hty (exec_shfldn d a x s) hbad
    exact ⟨hup, hdn⟩

end Sys2Proof.Machine
end

section
/-! VOTE and BALLOT (O16): one scalar register, and one mask (06 R146, R147; 02 R40; log entry 59). -/
namespace Sys2Proof.Machine

theorem exec_vote (d a kind : Nat) (s : State) : exec (.vote d a kind) s = execVote d a kind s := rfl
theorem exec_ballot (d a : Nat) (b : SOp) (s : State) : exec (.ballot d a b) s = execBallot d a b s := rfl

/-- A word that is refused by none of its checks and writes one scalar register does what scalarOp does. -/
theorem givesScalar_of_issue {s : State} {w : Warp} {i : Instr} {d : Nat} {x : Word} {chk : Issue → Chk}
    {body : Issue → Except Trap (List Effect × Flow)} (hw : s.Issuing w) (hc : (chk (s.at w)).Passes (s.at w))
    (hd : d < w.ctl.sbudget) (hi : exec i s = issue chk body s) (hb : body s.seen = .ok ([.sreg s.cur d x], .next)) :
    s.GivesScalar i d x := by
  have hs : ∀ n ∈ d :: ([] : List SOp).flatMap opRegs, n < w.ctl.sbudget := by simpa using hd
  refine givesScalar_of_scalarOp (f := fun _ => x) hw hs (hi.trans ?_) rfl
  rw [issue_retires hw.1 hc.fault hb]
  exact (issue_retires hw.1 (chkA_passes_of_budget hs).fault rfl).symm

/-- A word that is refused by none of its checks and writes one mask does what maskOp does. -/
theorem givesMask_of_issue {s : State} {w : Warp} {i : Instr} {d : Nat} {x : Word} {chk : Issue → Chk}
    {body : Issue → Except Trap (List Effect × Flow)} (hw : s.Issuing w) (hc : (chk (s.at w)).Passes (s.at w))
    (hi : exec i s = issue chk body s) (hb : body s.seen = .ok (s.seen.maskOut d x ++ s.seen.recall d x, .next)) :
    s.GivesMask w i d x := by
  have hs : ∀ n ∈ ([] : List Nat), n < w.ctl.sbudget := by simp
  refine givesMask_of_maskOp (f := fun _ => x) hw hs (hi.trans ?_) rfl
  rw [issue_retires hw.1 hc.fault hb]
  exact (issue_retires hw.1 (chkA_passes_of_budget hs).fault rfl).symm

/-- The vote of a kind on the active lanes' bits (R146). -/
def voteOf (kind : Nat) (ts : List Bool) : Bool :=
  match kind with
  | 0 => ts.any id
  | 1 => ts.all id
  | _ => ts.all id || ts.all not

/-- VOTE writes 1 where its condition on the active lanes' bits holds, else 0. -/
theorem vote_gives {s : State} {w : Warp} {d a kind : Nat} {p : Prop} [Decidable p]
    (h : s.Admits w { cls := .e, ss := [d] })
    (hp : voteOf kind ((s.at w).act.map fun l => ((s.at w).m a).getLsbD l) = true ↔ p) :
    s.GivesScalar (.vote d a kind) d (if p then 1 else 0) := by
  obtain ⟨hw, hc⟩ := h
  refine givesScalar_of_issue hw hc (hc.scalar d (List.mem_singleton.mpr rfl)) (exec_vote d a kind s) ?_
  simp only [seen_act hw.1, seen_m hw.1, ← if_congr hp rfl rfl]
  rfl

/-- Bits are alike where all are set or none is. -/
theorem all_or_none_iff (l : List Nat) (f : Nat → Bool) :
    ((l.map f).all id || (l.map f).all not) = true ↔ ∀ i ∈ l, ∀ j ∈ l, f i = f j := by
  simp only [List.all_map, Bool.or_eq_true, List.all_eq_true, Function.comp_apply, id_eq, Bool.not_eq_true']
  refine ⟨fun h i hi j hj => h.elim (fun h => (h i hi).trans (h j hj).symm) fun h => (h i hi).trans (h j hj).symm,
    fun h => ?_⟩
  cases l with
  | nil => simp
  | cons k t =>
    have hk := h k (List.mem_cons_self ..)
    cases hf : f k with
    | true => exact .inl fun i hi => (hk i hi).symm.trans hf
    | false => exact .inr fun i hi => (hk i hi).symm.trans hf

/-- The active lanes are lanes of the issuing slices. -/
theorem Issue.testBit_lanes_of_mem_act {I : Issue} {l : Nat} (h : l ∈ I.act) : I.lanes.testBit l = true := by
  have hl := (Issue.mem_act.mp h).2
  unfold Issue.active at hl
  dsimp only at hl
  split at hl
  · simp only [Nat.testBit_and, Bool.and_eq_true] at hl
    exact hl.1.2
  · split at hl
    · simp only [Nat.testBit_and, Bool.and_eq_true] at hl
      exact hl.1.2
    · simp only [Nat.testBit_and, Bool.and_eq_true] at hl
      exact hl.2

/-- A mask whose issuing lanes' bits are replaced by active lanes is what a parted slice may write of it. -/
theorem maskKept_replaced {I : Issue} {m : Word} {p : Nat → Bool} :
    let x := (m &&& ~~~ word I.lanes) ||| word (maskOf (I.act.filter p))
    (m &&& ~~~ word I.lanes) ||| (x &&& word I.lanes) = x := by
  intro x
  have hsub : word (maskOf (I.act.filter p)) &&& word I.lanes = word (maskOf (I.act.filter p)) := by
    refine BitVec.eq_of_getLsbD_eq fun l hl => ?_
    simp only [word, BitVec.getLsbD_and, BitVec.getLsbD_ofNat, testBit_maskOf, hl, decide_true, Bool.true_and]
    by_cases hm : l ∈ I.act.filter p
    · simp [hm, Issue.testBit_lanes_of_mem_act (List.mem_filter.mp hm).1]
    · simp [hm]
  refine BitVec.eq_of_getLsbD_eq fun l hl => ?_
  have hbit := congrArg (BitVec.getLsbD · l) hsub
  simp only [x, BitVec.getLsbD_and, BitVec.getLsbD_or, BitVec.getLsbD_not, hl, decide_true, Bool.true_and] at hbit ⊢
  cases hlane : (word I.lanes).getLsbD l <;> simp_all

/-- A mask write that keeps what a parted slice may not change is the same from a gang and from a slice (R40). -/
theorem maskOut_of_kept {I : Issue} {d : Nat} {x : Word}
    (h : (I.w.readM d &&& ~~~ word I.lanes) ||| (x &&& word I.lanes) = x) :
    I.maskOut d x = if d < 14 then [.mask I.k d x] else [] := by
  simp only [Issue.maskOut, h, ite_self]

/-- Settles O16: VOTE by its condition on the active lanes, BALLOT by a mask write that stays within the issuing lanes. -/
theorem voteAndBallotReadActiveLanes : Obligations.VoteAndBallotReadActiveLanes := by
  intro s w d a I ty
  refine ⟨fun h => ⟨vote_gives h ?any, vote_gives h ?all, vote_gives h (all_or_none_iff I.act fun l => (I.m a).getLsbD l)⟩,
    fun b ⟨hw, hc⟩ hty => ?ballot⟩
  case any => simp only [voteOf, List.any_map, List.any_eq_true, Function.comp_apply, id_eq]; rfl
  case all => simp only [voteOf, List.all_map, List.all_eq_true, Function.comp_apply, id_eq]; rfl
  case ballot =>
    refine givesMask_of_issue hw (hc.relegal ?_) (exec_ballot d a b s) ?_
    · have hl := hc.legal
      simp only [Bool.and_eq_true] at hl
      exact Bool.and_eq_true_iff.mpr ⟨Bool.and_eq_true_iff.mpr ⟨decide_eq_true hty, hl.1⟩, hl.2⟩
    · have hkept := maskKept_replaced (I := I) (m := w.readM d) (p := fun l =>
        if is64 ty then (I.vpair a l).toNat &&& I.sval ty l b ≠ 0
        else (I.v a l).toNat &&& I.whole ty l (storeBits ty) b ≠ 0)
      rw [maskOut_of_kept (I := s.seen) (by rw [seen_readM hw]; exact hkept)]
      simp only [seen_ty hw.1, seen_act hw.1, seen_vpair hw.1, seen_v hw.1, seen_sval hw.1, seen_whole hw, seen_readM hw]
      rfl

end Sys2Proof.Machine
end

section
/-! REDLANE (O17): the tree of neighbours combines as one run over the lanes does, and what the word binds or writes (06 R148; 03
R73). -/
namespace Sys2Proof.Machine

/-! The tree. -/

/-- Two neighbours combine where both contribute; else the one that contributes goes up. -/
theorem redLevel_pair (comb : Int → Int → Int) (x y : Option Int) (t : List (Option Int)) :
    redLevel comb (x :: y :: t) = x.merge comb y :: redLevel comb t := by
  cases x <;> cases y <;> rfl

theorem length_redLevel (comb : Int → Int → Int) : ∀ l, (redLevel comb l).length = (l.length + 1) / 2
  | [] => rfl
  | [x] => by simp [redLevel]
  | x :: y :: t => by
    rw [redLevel_pair, List.length_cons, length_redLevel comb t]
    simp only [List.length_cons]
    omega

/-- A level of the tree keeps what its contributions combine to, where the combination is associative. -/
theorem foldr_redLevel (comb : Int → Int → Int) [Std.Associative comb] :
    ∀ l, (redLevel comb l).foldr (Option.merge comb) none = l.foldr (Option.merge comb) none
  | [] => rfl
  | [x] => by rw [redLevel]; simp
  | x :: y :: t => by
    rw [redLevel_pair, List.foldr_cons, foldr_redLevel comb t]
    exact Std.Associative.assoc (op := Option.merge comb) x y _

/-- So the root over 32 lanes is their combination in a row. -/
theorem redTree_eq_foldr (comb : Int → Int → Int) [Std.Associative comb] {l : List (Option Int)} (hl : l.length = 32) :
    redTree comb l = l.foldr (Option.merge comb) none := by
  obtain ⟨r, hr⟩ : ∃ r, r = redLevel comb (redLevel comb (redLevel comb (redLevel comb (redLevel comb l)))) := ⟨_, rfl⟩
  have hfold : r.foldr (Option.merge comb) none = l.foldr (Option.merge comb) none := by simp only [hr, foldr_redLevel]
  have hlen : r.length = 1 := by simp only [hr, length_redLevel, hl]
  obtain ⟨x, rfl⟩ := List.length_eq_one_iff.mp hlen
  rw [← hfold, redTree, ← hr]
  exact Option.merge_none_right.symm

/-- The combination of the contributions of a list under addition is their sum, where there is one. -/
theorem foldr_merge_add (l : List (Option Int)) : l.foldr (Option.merge (· + ·)) none =
    if l.all Option.isNone then none else some ((l.filterMap id).foldl (· + ·) 0) := by
  simp only [← List.sum_eq_foldl]
  induction l with
  | nil => rfl
  | cons x t ih =>
    rw [List.foldr_cons, ih]
    cases x with
    | none => simp
    | some a =>
      split
      · rename_i hnone
        have hempty : t.filterMap id = [] := List.filterMap_eq_nil_iff.mpr fun y hy =>
          Option.isNone_iff_eq_none.mp (List.all_eq_true.mp hnone y hy)
        have hone : (some a :: t).filterMap id = [a] := congrArg (a :: ·) hempty
        rw [hone]
        simp
      · simp

/-! The word. -/

theorem seen_redComb {s : State} {w : Warp} (hw : find s.warps s.cur = some w) (op : Nat) :
    redComb s.seen op = redComb (s.at w) op := by
  funext x y
  delta redComb
  simp only [seen_ty hw, seen_rnd hw, seen_fz hw, seen_round hw]

theorem exec_redlane (d a op : Nat) (s : State) : exec (.redlane d a op) s = execRedlane d a op s := rfl

/-- The types and the rounding that REDLANE admits for its operation. -/
theorem redlane_legal {ty op rnd : Nat} (hty : ty = 2 ∨ ty = 6 ∨ (op < 3 ∧ ty = 0x0C) ∨ (3 ≤ op ∧ ty = 8))
    (hrnd : ty = 0x0C → rnd ≠ 5 ∧ (op = 0 → rnd < 6)) :
    (okRed op ty && !(ty == tyF32 && (rnd == rnStoch || (op == 0 && decide (rnd ≥ 6))))) = true := by
  have hok : okRed op ty = true := by
    obtain rfl | rfl | ⟨hop, rfl⟩ | ⟨hop, rfl⟩ := hty
    · rfl
    · rfl
    · simp [okRed, hop, tyF32]
    · simp [okRed, Nat.not_lt.mpr hop, tyB32]
  refine Bool.and_eq_true_iff.mpr ⟨hok, ?_⟩
  by_cases hf : ty = 0x0C
  · obtain ⟨h5, h6⟩ := hrnd hf
    simpa [hf, tyF32, rnStoch, h5, imp_iff_not_or] using h6
  · simp [hf, tyF32]

/-- Settles O17: the word by its checks and its root, the tree of an exact sum by associativity. -/
theorem redlaneCombinesActiveLanes : Obligations.RedlaneCombinesActiveLanes := by
  refine ⟨?word, fun l hl => (redTree_eq_foldr (· + ·) hl).trans (foldr_merge_add l)⟩
  intro s w d a op I ty i32 h hty hop hrnd root x ws
  obtain ⟨hw, hc⟩ := h
  refine retires_of_issue hw (exec_redlane d a op s) (hc.relegal (redlane_legal hty hrnd)) ?_
  simp only [seen_ty hw.1, seen_act hw.1, seen_active hw.1, seen_v hw.1, seen_sat hw.1, seen_redComb hw.1, Issue.exchange,
    seen_seta hw.1, Bool.and_eq_true, decide_eq_true_eq, beq_eq_decide]
  rfl

end Sys2Proof.Machine
end

section
/-! XSWAP (O18): the partner that its operand names, and what the word does where there is none, where an exchange is pending,
with itself and with another warp (06 R149, R150; log entries 16, 59 and 75). -/
namespace Sys2Proof.Machine

theorem exec_xswap (d a : Nat) (b : SOp) (s : State) : exec (.xswap d a b) s = execXswap d a b s := rfl

/-- The rank that an operand names. -/
theorem bits_rank (y : Nat) : bits y 3 0 = y % 16 := by simp [bits]

section seen
variable {s : State} {w : Warp} (hw : s.Issuing w)
include hw

theorem seen_parted : s.seen.c.parted = w.ctl.parted := by rw [seen_c hw.1]; rfl
theorem seen_xswap : s.seen.c.xswap = w.ctl.xswap := by rw [seen_c hw.1]; rfl
theorem seen_peer (b rank : Nat) : s.seen.s.peer b rank = s.peer b rank := seen_outside hw (fun s => s.peer b rank) fun _ => rfl

theorem seen_exists (k : Nat) : s.seen.s.exists k = s.exists k := by
  simp only [State.seen, State.ticked_eq hw.1, State.exists]
  by_cases hk : k = s.cur
  · rw [hk, find_put_same, hw.1]
    rfl
  · rw [find_put_ne _ _ hk]

end seen

/-- The values that XSWAP takes from its source, lane by lane. -/
def Issue.swapSent (I : Issue) (a : Nat) : List Nat := (span 0 32).map fun l => I.swapSrc I.ty a l

/-- What XSWAP does with a warp that exists and no exchange pending: a copy with itself, else the exchange is left pending. -/
def State.swapsWith (s : State) (w : Warp) (d a partner : Nat) : Except Trap (List Effect × Flow) :=
  let I := s.at w
  let seta := bits I.slice.h0.toNat 19 16
  if partner = s.cur then
    .ok (bindOp s.ticked s.cur s.slices seta (I.act.flatMap fun l => swapOut I.ty d l ((I.swapSent a).getD l 0)) [] false,
      .next)
  else .ok (chain s.ticked [
    fun s' => [.ctl s.cur { s'.ctl s.cur with
      xswap := some { partner, d, lanes := I.active, pair := is64 I.ty
                      sent := (I.swapSent a).map (fun x => word x) ++
                        (if is64 I.ty then (I.swapSent a).map fun x => word (x / 2 ^ 32) else [])
                      op := s'.ids } }],
    fun s' => bindOp s' s.cur s.slices seta [] [] true], .next)

/-- What XSWAP answers to the rank and the warp number that its operand names. -/
def State.swapAnswer (s : State) (w : Warp) (d a y : Nat) : Except Trap (List Effect × Flow) :=
  if w.ctl.parted then .error { code := 0x01 }
  else match s.peer (blockOf s.cur) (y % 16) with
    | none => .error { code := 0x09 }
    | some p =>
      let partner := 36 * p + y / 2 ^ 8 % 64
      if decide (24 ≤ y / 2 ^ 8 % 64) || !s.exists partner then .error { code := 0x09 }
      else if w.ctl.xswap.isSome then .ok ([], .wait .swap)
      else s.swapsWith w d a partner

/-- The word is refused by none of its checks, so that it does what its meaning answers. -/
theorem xswap_answers {s : State} {w : Warp} {d a : Nat} {b : SOp}
    (h : let ty := (s.at w).ty
      s.Admits w { cls := .e, helper := false, legal := okReg ty d && okReg ty a && opLegal b ty
                   vs := vregs ty d ++ vregs ty a, ss := opRegsT b ty, dst := vregs ty d })
    (hty : (s.at w).ty < 0x18) :
    ∃ chk body, exec (.xswap d a b) s = issue chk body s ∧ (chk (s.at w)).Passes (s.at w) ∧ (chk (s.at w)).once = false ∧
      body s.seen = s.swapAnswer w d a ((s.at w).sval (s.at w).ty (s.at w).lane b) := by
  obtain ⟨hw, hc⟩ := h
  refine ⟨_, _, exec_xswap d a b s, hc.relegal ?_, rfl, ?_⟩
  · simpa only [hty, decide_true, Bool.true_and] using hc.legal
  · simp only [seen_parted hw, seen_ty hw.1, seen_lane hw.1, seen_sval hw.1, seen_peer hw, bits_rank, seen_exists hw,
      seen_xswap hw, seen_act hw.1, seen_active hw.1, seen_swapSrc hw, seen_seta hw.1]
    rfl

/-! Its answers, one for each case. -/

section answers
variable {s : State} {w : Warp} {d a y : Nat}

theorem swapAnswer_parted (hpart : w.ctl.parted = true) : s.swapAnswer w d a y = .error { code := 0x01 } := if_pos hpart

variable (hpart : w.ctl.parted = false)
include hpart

theorem swapAnswer_of_no_rank (hpeer : s.peer (blockOf s.cur) (y % 16) = none) :
    s.swapAnswer w d a y = .error { code := 0x09 } := by
  simp only [State.swapAnswer, hpart, hpeer, Bool.false_eq_true, if_false]

variable {p : Nat} (hpeer : s.peer (blockOf s.cur) (y % 16) = some p)
include hpeer

theorem swapAnswer_of_no_warp (hnone : 24 ≤ y / 2 ^ 8 % 64 ∨ s.exists (36 * p + y / 2 ^ 8 % 64) = false) :
    s.swapAnswer w d a y = .error { code := 0x09 } := by
  simp only [State.swapAnswer, hpart, hpeer, Bool.false_eq_true, if_false]
  exact if_pos (by simpa using hnone)

variable (hlt : y / 2 ^ 8 % 64 < 24) (hex : s.exists (36 * p + y / 2 ^ 8 % 64) = true)
include hlt hex

theorem swapAnswer_pending (hpending : w.ctl.xswap ≠ none) : s.swapAnswer w d a y = .ok ([], .wait .swap) := by
  simp only [State.swapAnswer, hpart, hpeer, hex, decide_eq_false (Nat.not_le.mpr hlt), Option.isSome_iff_ne_none.mpr hpending,
    Bool.not_true, Bool.or_self, Bool.false_eq_true, if_false, if_true]

theorem swapAnswer_clear (hclear : w.ctl.xswap = none) :
    s.swapAnswer w d a y = s.swapsWith w d a (36 * p + y / 2 ^ 8 % 64) := by
  simp only [State.swapAnswer, hpart, hpeer, hex, decide_eq_false (Nat.not_le.mpr hlt), hclear, Option.isSome_none,
    Bool.not_true, Bool.or_self, Bool.false_eq_true, if_false]

end answers

/-- Settles O18: the word by what its operand names and what is pending. -/
theorem xswapSendsOrCopies : Obligations.XswapSendsOrCopies := by
  intro s w d a b I ty h hty y partner sent
  obtain ⟨chk, body, hi, hc, honce, hbody⟩ := xswap_answers h hty
  have traps : ∀ {t}, s.swapAnswer w d a y = .error t → s.Traps w (.xswap d a b) false t := fun ht =>
    traps_of_issue h.1 hi hc (hbody.trans ht) honce
  have retires : ∀ {r}, s.swapAnswer w d a y = .ok r → s.Retires (.xswap d a b) r := fun hr =>
    retires_of_issue h.1 hi hc (hbody.trans hr)
  refine ⟨fun hpart => traps (swapAnswer_parted hpart), fun hpart hpeer => traps (swapAnswer_of_no_rank hpart hpeer),
    fun p hpart hpeer => ⟨fun hnone => traps (swapAnswer_of_no_warp hpart hpeer hnone),
      fun hlt hex hpending => retires (swapAnswer_pending hpart hpeer hlt hex hpending), fun hlt hex hclear => ?_⟩⟩
  have hclear := swapAnswer_clear (d := d) (a := a) hpart hpeer hlt hex hclear
  refine ⟨fun hself => retires (hclear.trans (if_pos hself)), fun hother => retires ((hclear.trans (if_neg hother)).trans ?_)⟩
  rw [chain, chain, ticked_ids h.1]
  rfl

end Sys2Proof.Machine
end
